-- ==== Sys2Proof/Word.lean ====
section
/-! DEFINITION. The word types and the sparse register file used all over the state. -/

namespace Sys2Proof

/-- A 64-bit register (R45, R293). -/
abbrev Word := BitVec 64
/-- A byte (R2). -/
abbrev Byte := BitVec 8

/-- A sparse file of values by number: what is not listed holds the default `d`. -/
def aget {α : Type} (d : α) : List (Nat × α) → Nat → α
  | [], _ => d
  | (k, v) :: r, n => if k = n then v else aget d r n

/-- Writes one numbered value, keeping the numbers rising. -/
def aset {α : Type} : List (Nat × α) → Nat → α → List (Nat × α)
  | [], n, v => [(n, v)]
  | (k, w) :: r, n, v =>
    if n < k then (n, v) :: (k, w) :: r
    else if n = k then (n, v) :: r
    else (k, w) :: aset r n v

/-- A predicate as a one-bit word. -/
def bit1 (b : Bool) : BitVec 1 := BitVec.ofBool b

/-- Least power bound: the number of bits from `lo` of width `w` of a natural number. -/
def natBits (x lo w : Nat) : Nat := (x >>> lo) % 2 ^ w

end Sys2Proof
end

