-- ==== Sys2Proof/Config.lean ====
section
/-! DEFINITION. What the spec leaves to the implementation, as constants without a body. Nothing can be proved of their
values, so whatever is proved holds for each of them. -/

namespace Sys2Proof.Config

/-- A free value: the step passes its counter `fresh`, so that each use is a value of its own (log 6). -/
opaque freeBits (n : Nat) : BitVec 4096
/-- The memory key of the root of trust, which no partition holds (R402, log 7). -/
opaque rootKey : BitVec 512
/-- The device key (R389, log 8): the secret start of a leaf's hash chain, its public seed, and what makes each signature its own. -/
opaque deviceSecret (leaf chain : Nat) : BitVec 256
opaque deviceSeed : BitVec 256
opaque deviceNonce (leaf : Nat) : BitVec 256
/-- The public key digest fused into the root of trust (R388, log 8). -/
opaque fusedDigest : BitVec 256
/-- Where the loader places section `sec` of image `img` in partition `part`, in units of the section's alignment (log 30). -/
opaque loadBase (part img sec : Nat) : Nat
/-- The bundles and the layout table that the body of a firmware image holds (R314, R388, log 33). -/
opaque fwImage (body : List Byte) : List (BitVec 512) × List (Nat × BitVec 512)
/-- Near offset and size of the firmware window that the firmware-load step fixes (R402, log 33). -/
opaque fwWindow : Nat × Nat
/-- Near offsets of queue 0's entries and of its completion ring, and the logarithm of its count less 4 (R319, log 31). -/
opaque queue0 : Nat × Nat × Fin 13

end Sys2Proof.Config
end

