-- ==== Sys2Proof/Machine/Cipher.lean ====
section
/-! DEFINITION. AES-XTS-256, under which R387 encrypts near and drawer data: FIPS 197 and IEEE 1619 (log 7). -/

namespace Sys2Proof.Machine

/-! ## AES-256 -/

/-- A product in the field of 256 elements, modulo x^8 + x^4 + x^3 + x + 1. -/
def gfDouble (a : Byte) : Byte := (a <<< 1) ^^^ (if a.getLsbD 7 then 0x1B else 0)
def gfMul (a b : Byte) : Byte :=
  ((List.range 8).foldl (fun (p : Byte × Byte) i => (if b.getLsbD i then p.1 ^^^ p.2 else p.1, gfDouble p.2)) (0, a)).1
/-- The inverse, zero for zero: the power 254. -/
def gfInv (a : Byte) : Byte :=
  ((List.range 7).foldl (fun (p : Byte × Byte) _ => (gfMul p.1 (gfMul p.2 p.2), gfMul p.2 p.2)) (1, a)).1
def subByte (a : Byte) : Byte :=
  let b := gfInv a
  b ^^^ b.rotateLeft 1 ^^^ b.rotateLeft 2 ^^^ b.rotateLeft 3 ^^^ b.rotateLeft 4 ^^^ 0x63
def unsubByte (a : Byte) : Byte := gfInv (a.rotateLeft 1 ^^^ a.rotateLeft 3 ^^^ a.rotateLeft 6 ^^^ 0x05)
def xorAll (a b : List Byte) : List Byte := List.zipWith (· ^^^ ·) a b
/-- The 240 bytes of the key schedule: `n` words more behind the words so far. -/
def keyWords : Nat → Byte → List (List Byte) → List (List Byte)
  | 0, _, l => l
  | n + 1, rc, l =>
    let last := l.getD (l.length - 1) []
    let t := if l.length % 8 = 0 then xorAll ((last.drop 1 ++ last.take 1).map subByte) [rc, 0, 0, 0]
      else if l.length % 8 = 4 then last.map subByte else last
    keyWords n (if l.length % 8 = 0 then gfDouble rc else rc) (l ++ [xorAll (l.getD (l.length - 8) []) t])
def roundKeys (key : List Byte) : List Byte := (keyWords 52 1 ((List.range 8).map fun i => (key.drop (4 * i)).take 4)).flatten
def roundKey (ks : List Byte) (r : Nat) : List Byte := (ks.drop (16 * r)).take 16
/-- Byte i of a block stands in row i mod 4 of column i / 4; row r moves by r columns. -/
def shiftRows (b : List Byte) : List Byte := (List.range 16).map fun i => b.getD ((i + 4 * (i % 4)) % 16) 0
def unshiftRows (b : List Byte) : List Byte := (List.range 16).map fun i => b.getD ((i + 12 * (i % 4)) % 16) 0
/-- Each column times a polynomial whose coefficients are given. -/
def mixColumns (c : List Byte) (b : List Byte) : List Byte :=
  (List.range 16).map fun i => (List.range 4).foldl (fun a j => a ^^^ gfMul (c.getD ((j + 4 - i % 4) % 4) 0) (b.getD (4 * (i / 4) + j) 0)) 0
def aesEnc (ks b : List Byte) : List Byte :=
  let b := (List.range 13).foldl (fun b r => xorAll (mixColumns [2, 3, 1, 1] (shiftRows (b.map subByte))) (roundKey ks (r + 1))) (xorAll b (roundKey ks 0))
  xorAll (shiftRows (b.map subByte)) (roundKey ks 14)
def aesDec (ks b : List Byte) : List Byte :=
  let b := (List.range 13).foldl (fun b r => mixColumns [14, 11, 13, 9] (xorAll ((unshiftRows b).map unsubByte) (roundKey ks (13 - r)))) (xorAll b (roundKey ks 14))
  xorAll ((unshiftRows b).map unsubByte) (roundKey ks 0)

/-! ## XTS over the four blocks of a unit -/

/-- Little-endian value of bytes, and its inverse (R2). -/
def bytesNat : List Byte → Nat
  | [] => 0
  | b :: r => b.toNat + 256 * bytesNat r
def natBytes : Nat → Nat → List Byte
  | 0, _ => []
  | n + 1, v => BitVec.ofNat 8 v :: natBytes n (v / 256)
/-- The tweak of the next block: times x modulo x^128 + x^7 + x^2 + x + 1. -/
def nextTweak (t : Nat) : Nat := (2 * t % 2 ^ 128) ^^^ (if 2 ^ 127 ≤ t then 0x87 else 0)
def xtsBlocks (f : List Byte → List Byte) : Nat → Nat → Nat → Nat
  | 0, _, _ => 0
  | n + 1, t, v => (bytesNat (f (natBytes 16 ((v % 2 ^ 128) ^^^ t))) ^^^ t) + 2 ^ 128 * xtsBlocks f n (nextTweak t) (v / 2 ^ 128)
/-- Encrypts, or decrypts, unit `u` under a key pair: key bits 255:0 for the data and 511:256 for the tweak, which is the unit's
number, TIER times 2^38 plus the physical offset over 64. -/
def xts (enc : Bool) (key u v : Nat) : Nat :=
  let ks := roundKeys (natBytes 32 key)
  xtsBlocks (if enc then aesEnc ks else aesDec ks) 4 (bytesNat (aesEnc (roundKeys (natBytes 32 (key / 2 ^ 256))) (natBytes 16 u))) v
/-- The 512 bits of a key: 0 stands for the root of trust's, k + 1 for key-slot content k. -/
def keyBits (k : Nat) : Nat := match k with | 0 => Config.rootKey.toNat | k + 1 => k
/-- What a unit written under one key reads as under another (R387). -/
def readUnder (wk rk u v : Nat) : Nat := xts false (keyBits rk) u (xts true (keyBits wk) u v)

end Sys2Proof.Machine
end

