-- ==== Sys2Proof/Machine/Hash.lean ====
section
/-! DEFINITION. SHAKE256 and the verification of XMSS signatures, the scheme that R16 and R388 name: FIPS 202 and NIST SP 800-208
with SHAKE256, n = 32, Winternitz parameter 16 and tree height 20 (log 8). -/

namespace Sys2Proof.Machine

/-! ## SHAKE256 -/

/-- The permutation's state: 25 lanes, lane (x, y) at x + 5 y. -/
abbrev Lanes := List (BitVec 64)
def Lanes.lane (a : Lanes) (x y : Nat) : BitVec 64 := a.getD (x % 5 + 5 * (y % 5)) 0
def lanesOf (f : Nat → Nat → BitVec 64) : Lanes := (List.range 25).map fun i => f (i % 5) (i / 5)
/-- Places and rotations of the lanes that one after another move: from (1, 0), each goes to (y, 2 x + 3 y). -/
def laneWalk : Nat → Nat → Nat → Nat → List (Nat × Nat)
  | 0, _, _, _ => []
  | n + 1, r, x, y => (x + 5 * y, (r + (24 - n)) % 64) :: laneWalk n (r + (24 - n)) y ((2 * x + 3 * y) % 5)
def laneTurn (x y : Nat) : Nat := aget 0 (laneWalk 24 0 1 0) (x % 5 + 5 * (y % 5))
/-- The shift register whose low bits make the round constants, after `n` shifts. -/
def constReg : Nat → Nat
  | 0 => 1
  | n + 1 => let r := 2 * constReg n; if r < 256 then r else r ^^^ 369
/-- Constant of a round: the register's low bit goes to each place that is one less than a power of two. -/
def roundConst (k : Nat) : BitVec 64 :=
  BitVec.ofNat 64 (((List.range 7).map fun j => constReg (7 * k + j) % 2 * 2 ^ (2 ^ j - 1)).sum)
/-- One round of the permutation. -/
def keccakStep (a : Lanes) (rc : BitVec 64) : Lanes :=
  let c := (List.range 5).map fun x => a.lane x 0 ^^^ a.lane x 1 ^^^ a.lane x 2 ^^^ a.lane x 3 ^^^ a.lane x 4
  let d := (List.range 5).map fun x => c.getD ((x + 4) % 5) 0 ^^^ (c.getD ((x + 1) % 5) 0).rotateLeft 1
  let t := lanesOf fun x y => a.lane x y ^^^ d.getD x 0
  -- lane (x, y) comes from the lane that moves there: (x + 3 y, x)
  let b := lanesOf fun x y => (t.lane (x + 3 * y) x).rotateLeft (laneTurn (x + 3 * y) x)
  let e := lanesOf fun x y => b.lane x y ^^^ (~~~(b.lane (x + 1) y) &&& b.lane (x + 2) y)
  lanesOf fun x y => if x = 0 ∧ y = 0 then e.lane 0 0 ^^^ rc else e.lane x y
def keccak (a : Lanes) : Lanes := (List.range 24).foldl (fun a k => keccakStep a (roundConst k)) a
/-- Bytes of the rate. -/
def shakeRate : Nat := 136
def blockLane (b : List Byte) : BitVec 64 := b.foldr (fun x a => x.setWidth 64 ||| (a <<< 8)) 0
/-- One block into the state. -/
def absorb (a : Lanes) (b : List Byte) : Lanes :=
  keccak ((List.range 25).map fun i => a.getD i 0 ^^^ (if i < 17 then blockLane ((b.drop (8 * i)).take 8) else 0))
/-- The message with its padding. -/
def shakePad (m : List Byte) : List Byte :=
  let n := shakeRate - 1 - m.length % shakeRate
  if n = 0 then m ++ [0x9F] else m ++ [0x1F] ++ List.replicate (n - 1) 0 ++ [0x80]
def absorbAll : Nat → Lanes → List Byte → Lanes
  | 0, a, _ => a
  | n + 1, a, m => absorbAll n (absorb a (m.take shakeRate)) (m.drop shakeRate)
/-- The first 32 bytes of SHAKE256. -/
def shakeBytes (m : List Byte) : List Byte :=
  let a := absorbAll (m.length / shakeRate + 1) (List.replicate 25 0) (shakePad m)
  ((List.range 4).map fun i => (List.range 8).map fun j => (a.getD i 0).extractLsb' (8 * j) 8).flatten
/-- The SHAKE256 digest of 32 bytes, byte 0 lowest. -/
def shake256 (m : List Byte) : BitVec 256 := (shakeBytes m).foldr (fun x a => x.setWidth 256 ||| (a <<< 8)) 0

/-! ## XMSS -/

/-- A number in big-endian bytes. -/
def bigBytes : Nat → Nat → List Byte
  | 0, _ => []
  | n + 1, v => BitVec.ofNat 8 (v / 256 ^ n) :: bigBytes n v
def bigNat (b : List Byte) : Nat := b.foldl (fun a x => 256 * a + x.toNat) 0
/-- The keyed functions: F 0, H 1, H_msg 2, PRF 3. -/
def keyed (k : Nat) (key m : List Byte) : List Byte := shakeBytes (bigBytes 32 k ++ key ++ m)
/-- An address of the scheme: type 0 a one-time key, 1 its tree, 2 the hash tree, with its three words. -/
def xaddr (ty a b c mask : Nat) : List Byte := bigBytes 12 0 ++ bigBytes 4 ty ++ bigBytes 4 a ++ bigBytes 4 b ++ bigBytes 4 c ++ bigBytes 4 mask
/-- `s` steps of a chain from position `i`. -/
def chainFrom (seed : List Byte) (ots no : Nat) : Nat → Nat → List Byte → List Byte
  | 0, _, x => x
  | s + 1, i, x =>
    let at' (mask : Nat) : List Byte := keyed 3 seed (xaddr 0 ots no i mask)
    chainFrom seed ots no s (i + 1) (keyed 0 (at' 0) (xorAll x (at' 1)))
/-- The hash of two nodes under an address. -/
def pairHash (seed : List Byte) (ty a b c : Nat) (l r : List Byte) : List Byte :=
  let at' (mask : Nat) : List Byte := keyed 3 seed (xaddr ty a b c mask)
  keyed 1 (at' 0) (xorAll l (at' 1) ++ xorAll r (at' 2))
/-- Digits of a message in base 16, with its checksum's. -/
def digits (m : List Byte) : List Nat :=
  let nib (b : List Byte) : List Nat := (b.map fun x => [x.toNat / 16, x.toNat % 16]).flatten
  let d := nib m
  d ++ (nib (bigBytes 2 ((d.map fun x => 15 - x).sum * 16))).take 3
/-- One level of the tree over a one-time key. -/
def ltreeLevel (seed : List Byte) (no height : Nat) : Nat → List (List Byte) → List (List Byte)
  | i, a :: b :: r => pairHash seed 1 no height i a b :: ltreeLevel seed no height (i + 1) r
  | _, l => l
def ltree (seed : List Byte) (no : Nat) : Nat → Nat → List (List Byte) → List Byte
  | 0, _, l => l.headD []
  | n + 1, h, l => if l.length ≤ 1 then l.headD [] else ltree seed no n (h + 1) (ltreeLevel seed no h 0 l)
/-- `n` bytes of a list at 32 times `i` from an offset. -/
def part32 (b : List Byte) (o i : Nat) : List Byte := (b.drop (o + 32 * i)).take 32
/-- The root that a signature of 2,820 bytes leads to. -/
def xmssRoot (m sig root seed : List Byte) : List Byte :=
  let idx := bigNat (sig.take 4)
  let md := keyed 2 (part32 sig 4 0 ++ root ++ bigBytes 32 idx) m
  let pk := (digits md).zipIdx.map fun d => chainFrom seed idx d.2 (15 - d.1) d.1 (part32 sig 36 d.2)
  (List.range 20).foldl (fun node k =>
    let a := part32 sig 2180 k
    let at' := idx / 2 ^ (k + 1)
    if idx / 2 ^ k % 2 = 0 then pairHash seed 2 0 k at' node a else pairHash seed 2 0 k at' a node) (ltree seed idx 7 0 pk)
/-- Whether a signature verifies under a 64-byte public key: the root, then the seed. -/
def xmssVerify (m sig key : List Byte) : Bool := xmssRoot m sig (key.take 32) (key.drop 32) == key.take 32

/-! ## What the device key signs (R389) -/

def deviceSeed : List Byte := bigBytes 32 Config.deviceSeed.toNat
def deviceStart (leaf chain : Nat) : List Byte := bigBytes 32 (Config.deviceSecret leaf chain).toNat
/-- A node of the device key's tree. -/
def deviceNode : Nat → Nat → List Byte
  | 0, i => ltree deviceSeed i 7 0 ((List.range 67).map fun k => chainFrom deviceSeed i k 15 0 (deviceStart i k))
  | h + 1, i => pairHash deviceSeed 2 0 h i (deviceNode h (2 * i)) (deviceNode h (2 * i + 1))
/-- The signature of a leaf, 2,820 bytes: its index, its nonce, a link of each of its 67 chains, and the 20 nodes beside its path. -/
def xmssSign (leaf : Nat) (m : List Byte) : List Byte :=
  let r := bigBytes 32 (Config.deviceNonce leaf).toNat
  let md := keyed 2 (r ++ deviceNode 20 0 ++ bigBytes 32 leaf) m
  bigBytes 4 leaf ++ r ++ ((digits md).zipIdx.map fun d => chainFrom deviceSeed leaf d.2 d.1 0 (deviceStart leaf d.2)).flatten ++
    ((List.range 20).map fun k => deviceNode k ((leaf / 2 ^ k) ^^^ 1)).flatten

end Sys2Proof.Machine
end

