-- ==== Sys2Proof/Syntax.lean ====
section
/-! DEFINITION. Every row of spec/opcode_table.json as one constructor of `Instr`: first the operations of the
eight slots (chapters 06 to 11 and 17), then the machine's own events (95). -/

namespace Sys2Proof

/-- The slot kinds that carry an opcode map (R105 to R108); V0 and V1 share one. -/
inductive Kind | s | v | m | ld | st | e | y
  deriving DecidableEq, Repr

/-- The eight slots, lowest first (R29). -/
inductive Slot | s | v0 | v1 | m | ld | st | e | y
  deriving DecidableEq, Repr

/-- The guard fields PG and PN (R92). -/
structure Guard where
  pg : BitVec 4
  pn : Bool
  deriving DecidableEq, Repr

/-- Element types of the ET field (R93). -/
inductive ETy | n8 | s8 | n16 | s16 | n32 | s32 | n64 | s64 | fp16 | bf16 | fp32 | fp64 | s4 | n4
  deriving DecidableEq, Repr

/-- Conditions of `cmp` and `bc` (R121). -/
inductive ICond | eq | ne | lt | ltn | le | len
  deriving DecidableEq, Repr

/-- Conditions of `fcmp` and `vcmp` (R125, R149). -/
inductive FCond | eq | ne | lt | le | un
  deriving DecidableEq, Repr

/-- The view that `vwr` writes (R133). -/
inductive ViewSel | v | w | t | a
  deriving DecidableEq, Repr

/-- The fields all V operations share: guard, rounding, element type and lane mask (R97). -/
structure VC where
  g  : Guard
  rm : BitVec 3
  et : ETy
  me : Bool
  ms : BitVec 3
  deriving DecidableEq, Repr

/-- The second source of an SX operation: a register name or scalar s(SS) (R139). -/
inductive VSrc
  | reg (f : BitVec 11)
  | sc (ss : BitVec 6)
  deriving DecidableEq, Repr

/-- The layout operand of form MEM: entry, coordinate base, class and immediate (R99). -/
structure MemArg where
  le  : BitVec 8
  cb  : BitVec 6
  cx  : Bool
  cl  : BitVec 4
  imm : BitVec 16
  deriving DecidableEq, Repr

/-- The fields of form E.C (R100); `nq` is FN[3] (R204). -/
structure ECmd where
  g  : Guard
  la : BitVec 8
  lb : BitVec 8
  sa : BitVec 6
  cx : Bool
  cl : BitVec 4
  nq : Bool
  deriving DecidableEq, Repr

/-- The fields of form Y.S that name a flag (R101, R213). -/
structure YArg where
  g  : Guard
  sc : BitVec 3
  le : BitVec 8
  sa : BitVec 6
  deriving DecidableEq, Repr

/-- What a host or the boot hardware reports of one bring-up step's run (R392): it succeeded, or failed with a code. -/
structure StepRun where
  ok   : Bool
  code : BitVec 8
  deriving DecidableEq, Repr

/-- One operation of a slot, or one event of the machine: one row of spec/opcode_table.json each. -/
inductive Instr
  | nop (k : Kind)
  -- scalar slot (R118 to R136)
  | add (g : Guard) (sd sa sb : BitVec 6)
  | sub (g : Guard) (sd sa sb : BitVec 6)
  | mul (g : Guard) (sd sa sb : BitVec 6)
  | mulh (g : Guard) (sd sa sb : BitVec 6)
  | mulhn (g : Guard) (sd sa sb : BitVec 6)
  | div (g : Guard) (sa sb : BitVec 6)
  | divn (g : Guard) (sa sb : BitVec 6)
  | rem (g : Guard) (sa sb : BitVec 6)
  | remn (g : Guard) (sa sb : BitVec 6)
  | and (g : Guard) (sd sa sb : BitVec 6)
  | or (g : Guard) (sd sa sb : BitVec 6)
  | xor (g : Guard) (sd sa sb : BitVec 6)
  | andn (g : Guard) (sd sa sb : BitVec 6)
  | shl (g : Guard) (sd sa sb : BitVec 6)
  | shr (g : Guard) (sd sa sb : BitVec 6)
  | sar (g : Guard) (sd sa sb : BitVec 6)
  | min (g : Guard) (sd sa sb : BitVec 6)
  | max (g : Guard) (sd sa sb : BitVec 6)
  | minn (g : Guard) (sd sa sb : BitVec 6)
  | maxn (g : Guard) (sd sa sb : BitVec 6)
  | clz (g : Guard) (sd sa : BitVec 6)
  | popc (g : Guard) (sd sa : BitVec 6)
  | sext (g : Guard) (sd sa : BitVec 6) (w : BitVec 8)
  | zext (g : Guard) (sd sa : BitVec 6) (w : BitVec 8)
  | mov (g : Guard) (sd sa : BitVec 6)
  | sel (g : Guard) (sd : BitVec 6) (pc : BitVec 4) (sa sb : BitVec 6)
  | cmp (g : Guard) (c : ICond) (pd : BitVec 4) (sa sb : BitVec 6)
  | pand (g : Guard) (pd pa pb : BitVec 4)
  | por (g : Guard) (pd pa pb : BitVec 4)
  | pxor (g : Guard) (pd pa pb : BitVec 4)
  | pnot (g : Guard) (pd pa : BitVec 4)
  | addi (g : Guard) (sd sa : BitVec 6) (imm : BitVec 40)
  | li (g : Guard) (sd : BitVec 6) (imm : BitVec 40)
  | lih (g : Guard) (sd sa : BitVec 6) (imm : BitVec 24)
  | fadd (g : Guard) (rm : BitVec 3) (t : ETy) (sd sa sb : BitVec 6)
  | fsub (g : Guard) (rm : BitVec 3) (t : ETy) (sd sa sb : BitVec 6)
  | fmul (g : Guard) (rm : BitVec 3) (t : ETy) (sd sa sb : BitVec 6)
  | ffma (g : Guard) (rm : BitVec 3) (t : ETy) (sd sa sb sc : BitVec 6)
  | fcmp (g : Guard) (c : FCond) (t : ETy) (pd : BitVec 4) (sa sb : BitVec 6)
  | fcvt (g : Guard) (rm : BitVec 3) (t u : ETy) (sd sa : BitVec 6)
  | br (g : Guard) (off : BitVec 28)
  | bc (g : Guard) (c : ICond) (sa sb : BitVec 6) (off : BitVec 28)
  | call (g : Guard) (sd : BitVec 6) (off : BitVec 28)
  | ret (g : Guard) (sa : BitVec 6)
  | jmpi (g : Guard) (sa sb : BitVec 6)
  | loop (g : Guard) (sd : BitVec 6) (off : BitVec 28)
  | brk (g : Guard) (imm : BitVec 40)
  | trap (g : Guard) (imm : BitVec 40)
  | halt (g : Guard)
  | ibw (g : Guard) (ib : BitVec 3) (sa : BitVec 6)
  | vwr (g : Guard) (v : ViewSel) (sa : BitVec 6)
  | wid (g : Guard) (sd : BitVec 6) (n : BitVec 8)
  | rank (g : Guard) (sd : BitVec 6) (n : BitVec 8)
  | qpop (g : Guard) (sd : BitVec 6) (pd : BitVec 4) (q : BitVec 2) (eb : Bool)
  | csrr (g : Guard) (sd : BitVec 6) (csr : BitVec 8)
  | csrw (g : Guard) (csr : BitVec 8) (sa : BitVec 6)
  -- system instructions (R299 to R312)
  | sysrd (g : Guard) (sd sa : BitVec 6) (off : BitVec 8)
  | syswr (g : Guard) (sa sb : BitVec 6) (off : BitVec 8)
  | eret (g : Guard)
  | tlbinv (g : Guard) (k : BitVec 2) (sa sb sc : BitVec 6)
  | keyld (g : Guard) (sa sb : BitVec 6)
  | keyldErase (g : Guard) (sa sb : BitVec 6)
  | slotmap (g : Guard) (pd : BitVec 4) (sa sb : BitVec 6)
  | ctxsave (g : Guard) (pd : BitVec 4) (sa sb : BitVec 6)
  | ctxrest (g : Guard) (pd : BitVec 4) (sa sb : BitVec 6)
  | swpat (g : Guard) (pd : BitVec 4) (sa sb : BitVec 6)
  | vote (g : Guard) (sa sb : BitVec 6)
  | swq (g : Guard) (sa sb : BitVec 6)
  | lnkTrain (g : Guard) (pd : BitVec 4) (sa : BitVec 6)
  | lnkPark (g : Guard) (pd : BitVec 4) (sa : BitVec 6)
  | lnkWake (g : Guard) (pd : BitVec 4) (sa : BitVec 6)
  | lnkRetrain (g : Guard) (pd : BitVec 4) (sa : BitVec 6)
  | lnkDown (g : Guard) (pd : BitVec 4) (sa : BitVec 6)
  | lnkEnable (g : Guard) (pd : BitVec 4) (sa : BitVec 6)
  | evqPop (g : Guard) (sd : BitVec 6) (pd : BitVec 4) (eb : Bool)
  | olkAcq (g : Guard) (sa : BitVec 6)
  | olkRel (g : Guard) (sa : BitVec 6)
  | tstate (g : Guard) (sd sa : BitVec 6) (clr : Bool)
  -- vector slots (R145 to R172)
  | vadd (c : VC) (vd va : BitVec 11) (vb : VSrc)
  | vsub (c : VC) (vd va : BitVec 11) (vb : VSrc)
  | vmul (c : VC) (vd va : BitVec 11) (vb : VSrc)
  | vmulh (c : VC) (vd va : BitVec 11) (vb : VSrc)
  | vfma (c : VC) (vd va : BitVec 11) (vb : VSrc) (vc : BitVec 11)
  | vfms (c : VC) (vd va : BitVec 11) (vb : VSrc) (vc : BitVec 11)
  | vabs (c : VC) (vd va : BitVec 11)
  | vneg (c : VC) (vd va : BitVec 11)
  | vmin (c : VC) (vd va : BitVec 11) (vb : VSrc)
  | vmax (c : VC) (vd va : BitVec 11) (vb : VSrc)
  | vaddsat (c : VC) (vd va : BitVec 11) (vb : VSrc)
  | vsubsat (c : VC) (vd va : BitVec 11) (vb : VSrc)
  | vand (c : VC) (vd va : BitVec 11) (vb : VSrc)
  | vor (c : VC) (vd va : BitVec 11) (vb : VSrc)
  | vxor (c : VC) (vd va : BitVec 11) (vb : VSrc)
  | vnot (c : VC) (vd va : BitVec 11)
  | vshl (c : VC) (vd va : BitVec 11) (vb : VSrc)
  | vshr (c : VC) (vd va : BitVec 11) (vb : VSrc)
  | vsar (c : VC) (vd va : BitVec 11) (vb : VSrc)
  | vcmp (c : VC) (cond : FCond) (md : BitVec 3) (va : BitVec 11) (vb : VSrc)
  | vsel (c : VC) (vd va vb : BitVec 11) (mc : BitVec 3)
  | vcvt (c : VC) (u : ETy) (vd va : BitVec 11)
  | vwiden (c : VC) (u : ETy) (vd va : BitVec 11)
  | vnarrow (c : VC) (u : ETy) (t : Bool) (vd va : BitVec 11)
  | vmaxe (c : VC) (z x : BitVec 2) (va : BitVec 11)
  | vqcvt (c : VC) (k : BitVec 6) (vd va vb : BitVec 11) (ss : BitVec 6)
  | vdeq (c : VC) (k : BitVec 6) (vd va vb : BitVec 11) (ss : BitVec 6)
  | vexp2 (c : VC) (va : BitVec 11)
  | vlog2 (c : VC) (va : BitVec 11)
  | vrcp (c : VC) (va : BitVec 11)
  | vrsq (c : VC) (va : BitVec 11)
  | vsqrt (c : VC) (va : BitVec 11)
  | vtanh (c : VC) (va : BitVec 11)
  | vsincos (c : VC) (va : BitVec 11)
  | vcmul (c : VC) (cj : Bool) (vd va : BitVec 11) (vb : VSrc)
  | vcmac (c : VC) (cj : Bool) (vd va : BitVec 11) (vb : VSrc)
  | vred (c : VC) (op : BitVec 2) (va : BitVec 11)
  | vscan (c : VC) (op : BitVec 2) (va : BitVec 11)
  | vperm (c : VC) (vd va vb : BitVec 11)
  | vbcast (c : VC) (vd : BitVec 11) (ss : BitVec 6)
  | vbcastLane (c : VC) (vd va : BitVec 11) (ss : BitVec 6)
  | vrot (c : VC) (vd va : BitVec 11) (ss : BitVec 6)
  | vtrn (c : VC) (vd va : BitVec 11)
  | vzip (c : VC) (vd va vb : BitVec 11)
  | vunzip (c : VC) (vd va : BitVec 11)
  | vbin (c : VC) (k : BitVec 4) (vd va vb : BitVec 11) (b : BitVec 6)
  | vpip (c : VC) (va : BitVec 11)
  | vpipBy (c : VC) (va vb : BitVec 11)
  | vpipRead (c : VC) (vd : BitVec 11)
  | vmov (c : VC) (vd va : BitVec 11)
  | vmovPop (c : VC) (vd : BitVec 11) (b : BitVec 6)
  | vmovPush (c : VC) (b : BitVec 6) (va : BitVec 11)
  | vmovi (c : VC) (vd : BitVec 11) (imm : BitVec 32)
  | vqpop (c : VC) (vd : BitVec 11) (pd : BitVec 4) (q5 eb : Bool)
  | vlane (c : VC) (vd : BitVec 11) (ss : BitVec 6)
  | vpmov (c : VC) (vd : BitVec 11) (ma : BitVec 3)
  | vpmovTomask (c : VC) (md : BitVec 3) (va : BitVec 11)
  -- matrix slot (R181 to R189)
  | mcfg (g : Guard) (sk : BitVec 6)
  | mpre (g : Guard) (x : BitVec 1) (n : BitVec 4) (ra rb : BitVec 6)
  | mxs (g : Guard) (w : BitVec 2) (os : BitVec 11)
  | mmul (g : Guard) (rm : BitVec 3) (x : BitVec 1) (y : BitVec 2) (n : BitVec 4) (od : BitVec 11) (ra rb : BitVec 6)
  | mmulz (g : Guard) (rm : BitVec 3) (x : BitVec 1) (y : BitVec 2) (n : BitVec 4) (od : BitVec 11) (ra rb : BitVec 6)
  | mmulp (g : Guard) (rm : BitVec 3) (x : BitVec 1) (y : BitVec 2) (peer : BitVec 4) (prel pw : Bool) (n : BitVec 4)
      (od : BitVec 11) (ra rb : BitVec 6)
  | mcmul (g : Guard) (rm : BitVec 3) (x : BitVec 1) (y : BitVec 2) (z : Bool) (n : BitVec 4) (od : BitVec 11)
      (ra rb : BitVec 6)
  | mclr (g : Guard) (n : BitVec 3) (od : BitVec 11)
  | mbias (g : Guard) (od os : BitVec 11)
  | mdrain (g : Guard) (rm : BitVec 3) (k : BitVec 6) (add : Bool) (os : BitVec 11) (ra rb : BitVec 6)
  | mtr (g : Guard) (od os : BitVec 11)
  -- load and store slots (R190 to R202)
  | ldT (g : Guard) (rm : BitVec 3) (rg : BitVec 11) (m : MemArg) (dt dc : Bool) (h : BitVec 2)
  | ldV (g : Guard) (rm : BitVec 3) (rg : BitVec 11) (m : MemArg) (dt dc : Bool)
  | ldS (g : Guard) (rm : BitVec 3) (sd : BitVec 6) (m : MemArg) (d64 dc sx : Bool)
  | ldG (g : Guard) (rg : BitVec 11) (m : MemArg)
  | tch (g : Guard) (le : BitVec 8) (cb : BitVec 6) (imm : BitVec 16) (w : Bool)
  | ldSp (g : Guard) (sz : Bool) (rg : BitVec 11) (off : BitVec 14)
  | rpop (g : Guard) (z : BitVec 2) (rg : BitVec 11) (rn : BitVec 6)
  | rsel (g : Guard) (z : BitVec 2) (rg : BitVec 11) (pd : BitVec 4) (rn rn2 : BitVec 6)
  | rpeek (g : Guard) (z : BitVec 2) (rg : BitVec 11) (pd : BitVec 4) (rn : BitVec 6)
  | stT (g : Guard) (rm : BitVec 3) (rg : BitVec 11) (m : MemArg) (dt dc : Bool) (h : BitVec 2)
  | stV (g : Guard) (rm : BitVec 3) (rg : BitVec 11) (m : MemArg) (dt dc : Bool)
  | stS (g : Guard) (rm : BitVec 3) (sk : BitVec 6) (m : MemArg) (d64 dc : Bool)
  | stSc (g : Guard) (rg : BitVec 11) (m : MemArg)
  | amo (g : Guard) (op : BitVec 3) (nq : Bool) (sc : BitVec 3) (sk : BitVec 6) (m : MemArg)
  | stSp (g : Guard) (sz : Bool) (rg : BitVec 11) (off : BitVec 14)
  | rpush (g : Guard) (z : BitVec 2) (rn : BitVec 6) (rg : BitVec 11)
  -- engine slot (R203 to R210, R233)
  | cpIn (c : ECmd)
  | cpOut (c : ECmd)
  | cpPeer (c : ECmd) (mc : Bool)
  | cpPf (c : ECmd)
  | send (c : ECmd)
  | recvArm (c : ECmd)
  | exf (c : ECmd) (rn : BitVec 6)
  | ofx (c : ECmd)
  | ofm (c : ECmd) (x : BitVec 1)
  | ofcCap (c : ECmd)
  | ofcRd (c : ECmd)
  | ofcTab (c : ECmd)
  | ofr (c : ECmd) (add : Bool)
  -- synchronisation slot (R212 to R221)
  | fence (g : Guard) (mask : BitVec 16)
  | sig (a : YArg) (set : Bool)
  | wait (a : YArg) (c : BitVec 2)
  | bar (a : YArg)
  | rwait (g : Guard) (free : Bool) (k : BitVec 4) (b : BitVec 6)
  | yield (g : Guard)
  | sleep (g : Guard) (sa : BitVec 6)
  | pwrAcq (g : Guard) (sa : BitVec 6)
  | pwrRel (g : Guard)
  | realign (g : Guard) (sa : BitVec 6)
  -- events of a context (`who` is 256 cores times 4 contexts, then 1024 + n for firmware core n)
  | bundleDispatch (b : BitVec 512)
  | checkpointRelease (who : Nat)
  | resultWrite (who k : Nat)
  | latchWriteLands (who k : Nat)
  | divisionResultPush (who k : Nat)
  | vectorQueueEntryPush (who q k : Nat)
  | contextReady (who : Nat)
  | operationFires (who : Nat) (sl : Slot)
  | broadcastDelivery (row rank : Nat)
  | touchWindowExpiry (who n : Nat)
  | preemption (who : Nat)
  | contextResume (who : Nat)
  | instanceStart (who : Nat)
  | instanceEnd (who : Nat)
  | ringClearComplete (core n : Nat)
  | orderingLockGrant (who : Nat)
  | matrixPathStart (who k : Nat)
  | planeLoadEnd (who x : Nat)
  | matrixResultWrite (who k : Nat)
  | drainPush (who k : Nat)
  | peerReadEnd (who k : Nat)
  | engineCommandComplete (id : Nat)
  | exfBlockLands (id : Nat)
  | exfDeadline (id : Nat)
  | lateBlockDiscard (id : Nat)
  | waitSatisfied (who : Nat)
  | barrierPass (who : Nat)
  | sleepExpiry (who : Nat)
  | powerGrant (die : Nat)
  | realignDone (who : Nat)
  | realignTimeout (who : Nat)
  | opticalPassStart (die : Nat)
  | opticalWindowWrite (die : Nat)
  | maskLoadComplete (die : Nat)
  | captureComplete (die : Nat) (ok : Bool)
  -- register writes with a behaviour of their own
  | ringcfgWrite (core n : Nat) (v : Word)
  | ringstWrite (core n : Nat) (v : Word)
  | ctxCfgWrite (who : Nat) (v : Word)
  | ctxCcfgWrite (core : Nat) (v : Word)
  | pipclr (core : Nat) (v : Word)
  | pipWrite (core j : Nat) (v : Word)
  | tchOpenWrite (who : Nat) (v : Word)
  | prtOwnWrite (part : Nat) (v : Word)
  | prtCtlWrite (part : Nat) (v : Word)
  | drawerSlotWrite (d t : Nat) (v : Word)
  | lnkRingWrite (n : Nat) (v : Word)
  | heaterApply (n : Nat)
  | monitorUpdate (n : Nat) (mhi mlo : BitVec 12)
  | modulatorChangeover (p j : Nat)
  | bootCtlWrite (v : Word)
  | sysregWrite (srn : BitVec 32) (v : Word)
  -- tasks, commands and the host
  | taskRerun (die slot : Nat)
  | taskAbandon (die slot : Nat)
  | commandDoorbell (q : Nat) (pi : BitVec 32)
  | completionDoorbell (q : Nat) (cci : BitVec 32)
  | hostWrite (port : Nat) (rod : Bool) (addr : Nat) (bytes : List (BitVec 8))
  | sessionSetup (port : Nat) (receiverCredit reliable : Bool)
  | launch (q : Nat)
  | loadimg (q : Nat)
  | unload (q : Nat)
  | unloadEffect (img : Nat)
  | openq (q : Nat)
  | closeq (q : Nat)
  | resync (q : Nat)
  | launchFetch (die q : Nat)
  | spliceHoldExpiry (die : Nat)
  | shareDone (die slot : Nat)
  | taskCompletion (slot : Nat)
  | quantumOverrun (who : Nat)
  | speculativePreload (core : Nat)
  -- drawers, links, switch and fabric
  | drawerSlot (d : Nat)
  | drawerReadDataPlaced (id : Nat)
  | drawerWritePerforms (id : Nat)
  | stallTimeout (id : Nat)
  | lockAchieved (p : Nat) (pherr : BitVec 12)
  | trainTimeout (p : Nat)
  | parkIdle (p : Nat)
  | wakeThreshold (p : Nat)
  | wakeComplete (p : Nat)
  | retrainTrigger (p : Nat)
  | retrainLock (p : Nat)
  | retrainTimeout (p : Nat)
  | rxLightLoss (p : Nat)
  | txLightLoss (p : Nat)
  | switchCommandPop
  | rotationStart
  | circuitSlotGuard
  | circuitSlotConnect
  | sendTimeout (id : Nat)
  | flitArrival (port pair rq : Nat) (seq : BitVec 32) (flit : Nat) (data : BitVec 512) (crcOk : Bool) (slack arr : Nat)
  | completionNotice (port rq : Nat) (seq : BitVec 32) (flits : Nat)
  | sendAcknowledgement (id : Nat)
  | controlFlit (port : Nat) (seq : BitVec 32) (crcOk : Bool) (resend : Option (Nat × Nat))
  | controlTimeout (p : Nat)
  -- power, clocks and bring-up
  | railVminCrossing (die : Nat)
  | railReachesTarget (die : Nat)
  | rowsFitted (die : Nat)
  | railHoldExpiry (die : Nat)
  | frameBoundary (die : Nat)
  | thermalAlert (die n : Nat) (temp : BitVec 16)
  | thermalTrip (die n : Nat) (temp : BitVec 16)
  | telemetryPoll (die : Nat) (pavg vavg : BitVec 16)
  | watchdogExpiry (who : Nat)
  | coldReset (runs : List StepRun) (flash : List (List (BitVec 8)))
  | hostRead (port addr n : Nat)
  | rotationEnd
  | sensorBelowThreshold (die n : Nat) (temp : BitVec 16)
  | outboundPacketToken (port : Nat)
  | powerLoss
  deriving DecidableEq, Repr

end Sys2Proof
end

