-- ==== Sys2Proof/WellFormed.lean ====
section
/-! DEFINITION. Which operations are legal encodings: the field values that R76, R92 to R95 and each instruction's own
definition allow (R109). Checks that need the machine's state (layouts, rings, views) are dispatch checks, not these. -/

namespace Sys2Proof

/-- ET code of a type (R93). -/
def ETy.bits : ETy → BitVec 4
  | .n8 => 0 | .s8 => 1 | .n16 => 2 | .s16 => 3 | .n32 => 4 | .s32 => 5 | .n64 => 6 | .s64 => 7
  | .fp16 => 8 | .bf16 => 9 | .fp32 => 10 | .fp64 => 11 | .s4 => 12 | .n4 => 13

/-- Element width in bits (R93). -/
def ETy.width : ETy → Nat
  | .n8 | .s8 => 8 | .n16 | .s16 | .fp16 | .bf16 => 16 | .n32 | .s32 | .fp32 => 32
  | .n64 | .s64 | .fp64 => 64 | .s4 | .n4 => 4

/-- Class I of R137. -/
def ETy.isI : ETy → Bool
  | .fp16 | .bf16 | .fp32 | .fp64 => false
  | _ => true
/-- Class F of R137. -/
def ETy.isF : ETy → Bool
  | .fp16 | .bf16 | .fp32 => true
  | _ => false
/-- Signed integer types. -/
def ETy.signed : ETy → Bool
  | .s8 | .s16 | .s32 | .s64 | .s4 => true
  | _ => false
/-- Types of the scalar float operations (R124). -/
def ETy.isFloat (t : ETy) : Bool := !t.isI
/-- Types of `fcvt` (R126): codes 4 to 11. -/
def ETy.scalarCvt (t : ETy) : Bool := decide (32 ≤ t.width) || t.isFloat

/-- PG = 0 with PN = 1 is illegal (R92). -/
def Guard.ok (g : Guard) : Bool := !(g.pg == 0 && g.pn)
/-- Rounding modes 0 to 4 (R76). -/
def rmOk (rm : BitVec 3) : Bool := decide (rm.toNat ≤ 4)
/-- Scopes 0 to 5 (R94). -/
def scOk (sc : BitVec 3) : Bool := decide (sc.toNat ≤ 5)
/-- CL must be zero when CX = 0 (R99, R100). -/
def clOk (cx : Bool) (cl : BitVec 4) : Bool := cx || cl == 0
def MemArg.ok (m : MemArg) : Bool := clOk m.cx m.cl
def ECmd.ok (c : ECmd) : Bool := c.g.ok && clOk c.cx c.cl
def YArg.ok (a : YArg) : Bool := a.g.ok && scOk a.sc

/-- Guard and mask fields of a V operation: ME = 0 leaves MS zero (R97). -/
def VC.base (c : VC) : Bool := c.g.ok && (c.me || c.ms == 0)
/-- A V operation that rounds on float types: RM is zero for integers, 0 to 4 otherwise (R139). -/
def VC.rnd (c : VC) : Bool := c.base && (if c.et.isI then c.rm == 0 else rmOk c.rm)
/-- An exact V operation: RM is zero (R139). -/
def VC.exact (c : VC) : Bool := c.base && c.rm == 0
/-- An exact operation on class I. -/
def VC.int (c : VC) : Bool := c.exact && c.et.isI
/-- An exact operation on class I with elements of 8 to 64 bits (R166, R167). -/
def VC.int8 (c : VC) : Bool := c.int && decide (8 ≤ c.et.width)
/-- A rounding operation of class F. -/
def VC.flt (c : VC) : Bool := c.base && c.et.isF && rmOk c.rm

/-- Width ratio 2, 4 or 8 (R152). -/
def wideRatio (wide narrow : Nat) : Bool := wide == narrow * 2 || wide == narrow * 4 || wide == narrow * 8

/-- `vmaxe`: the operand holds at most 64 blocks (R156). -/
def maxeBlocksOk (t : ETy) (z x : BitVec 2) : Bool :=
  z != 3 && decide ((2 ^ x.toNat * 4096 / t.width) / (16 * 2 ^ z.toNat) ≤ 64)

/-- A spill access stays on its size and below 0x4000 (R48); a scalar name leaves the field's high bits zero (R92). -/
def spillOk (sz : Bool) (rg : BitVec 11) (off : BitVec 14) : Bool :=
  if sz then off.toNat % 512 == 0 && decide (off.toNat + 512 ≤ 0x4000)
  else off.toNat % 8 == 0 && decide (off.toNat + 8 ≤ 0x4000) && decide (rg.toNat < 64)

/-- FN values of `wid` (R134). -/
def widOk (n : BitVec 8) : Bool :=
  decide (n.toNat ≤ 6) || (decide (8 ≤ n.toNat) && decide (n.toNat ≤ 13)) || (decide (16 ≤ n.toNat) && decide (n.toNat ≤ 21))
/-- CSR numbers of R136. -/
def csrReadable (n : BitVec 8) : Bool := n == 1 || n == 2 || n == 3 || n == 4 || n == 0x10 || n == 0x11
def csrWritable (n : BitVec 8) : Bool := n == 1 || n == 2 || n == 3 || n == 4

/-- Decoding layout accesses: DT, D64, SX and RM need DC (R194). -/
def decOk (rm : BitVec 3) (dt dc : Bool) : Bool := rmOk rm && (dc || (!dt && rm == 0))

/-- Every legal encoding of an operation; events carry no encoding. -/
def wf : Instr → Bool
  | .nop _ => true
  | .add g _ _ _ | .sub g _ _ _ | .mul g _ _ _ | .mulh g _ _ _ | .mulhn g _ _ _ | .and g _ _ _ | .or g _ _ _
  | .xor g _ _ _ | .andn g _ _ _ | .shl g _ _ _ | .shr g _ _ _ | .sar g _ _ _ | .min g _ _ _ | .max g _ _ _
  | .minn g _ _ _ | .maxn g _ _ _ => g.ok
  | .div g _ _ | .divn g _ _ | .rem g _ _ | .remn g _ _ => g.ok
  | .clz g _ _ | .popc g _ _ | .mov g _ _ => g.ok
  | .sext g _ _ w | .zext g _ _ w => g.ok && decide (1 ≤ w.toNat) && decide (w.toNat ≤ 64)
  | .sel g _ _ _ _ | .cmp g _ _ _ _ | .pand g _ _ _ | .por g _ _ _ | .pxor g _ _ _ | .pnot g _ _ => g.ok
  | .addi g _ _ _ | .li g _ _ | .lih g _ _ _ => g.ok
  | .fadd g rm t _ _ _ | .fsub g rm t _ _ _ | .fmul g rm t _ _ _ => g.ok && rmOk rm && t.isFloat
  | .ffma g rm t _ _ _ _ => g.ok && rmOk rm && t.isFloat
  | .fcmp g _ t _ _ _ => g.ok && t.isFloat
  | .fcvt g rm t u _ _ => g.ok && rmOk rm && t.scalarCvt && u.scalarCvt && !(t.isI && u.isI)
  | .br g _ | .bc g _ _ _ _ | .call g _ _ | .ret g _ | .jmpi g _ _ | .loop g _ _ | .brk g _ | .trap g _ | .halt g => g.ok
  | .ibw g _ _ | .vwr g _ _ | .qpop g _ _ _ _ => g.ok
  | .wid g _ n => g.ok && widOk n
  | .rank g _ n => g.ok && decide (n.toNat ≤ 3)
  | .csrr g _ n => g.ok && csrReadable n
  | .csrw g n _ => g.ok && csrWritable n
  | .sysrd g _ _ _ | .syswr g _ _ _ | .eret g => g.ok
  | .tlbinv g k _ _ _ => g.ok && k != 3
  | .keyld g _ _ | .keyldErase g _ _ | .slotmap g _ _ _ | .ctxsave g _ _ _ | .ctxrest g _ _ _ | .swpat g _ _ _
  | .vote g _ _ | .swq g _ _ | .lnkTrain g _ _ | .lnkPark g _ _ | .lnkWake g _ _ | .lnkRetrain g _ _
  | .lnkDown g _ _ | .lnkEnable g _ _ | .evqPop g _ _ _ | .olkAcq g _ | .olkRel g _ | .tstate g _ _ _ => g.ok
  | .vadd c _ _ _ | .vsub c _ _ _ | .vmul c _ _ _ | .vfma c _ _ _ _ | .vfms c _ _ _ _ => c.rnd
  | .vmulh c _ _ _ | .vaddsat c _ _ _ | .vsubsat c _ _ _ | .vand c _ _ _ | .vor c _ _ _ | .vxor c _ _ _ | .vnot c _ _
  | .vshl c _ _ _ | .vshr c _ _ _ => c.int
  | .vsar c _ _ _ => c.int && c.et.signed
  | .vabs c _ _ => c.exact && (c.et.signed || c.et.isF)
  | .vneg c _ _ | .vmin c _ _ _ | .vmax c _ _ _ => c.exact && (c.et.isI || c.et.isF)
  | .vcmp c cond _ _ _ => c.exact && !(cond == .un && c.et.isI)
  | .vsel c _ _ _ _ => c.int
  | .vcvt c u _ _ => c.base && c.et.width == u.width &&
      (if c.et.isI && u.isI then c.rm == 0 && c.et != u else rmOk c.rm)
  | .vwiden c u _ _ => c.exact && wideRatio c.et.width u.width && !(u.isFloat && c.et.isI)
  | .vnarrow c u t _ _ => c.base && wideRatio u.width c.et.width &&
      (if t then c.et.isI && u.isI && c.rm == 0 else if c.et.isI && u.isI then c.rm == 0 else rmOk c.rm)
  | .vmaxe c z x _ => c.exact && c.et.isF && maxeBlocksOk c.et z x
  | .vqcvt c _ _ _ _ _ | .vdeq c _ _ _ _ _ => c.flt
  | .vexp2 c _ | .vlog2 c _ | .vrcp c _ | .vrsq c _ | .vsqrt c _ | .vtanh c _ | .vsincos c _ => c.flt
  | .vcmul c _ _ _ _ | .vcmac c _ _ _ _ => c.flt
  | .vred c op _ | .vscan c op _ => c.base && op != 3 && (c.et.isI || c.et.isF) &&
      (if c.et.isF && op == 0 then rmOk c.rm else c.rm == 0)
  | .vperm c _ _ _ | .vbcast c _ _ | .vbcastLane c _ _ _ | .vrot c _ _ _ => c.int
  | .vtrn c _ _ => c.int8 && !c.me
  | .vzip c _ _ _ | .vunzip c _ _ => c.int && !c.me
  | .vbin c k _ _ _ b => c.int8 && decide (b.toNat + k.toNat ≤ 63)
  | .vpip c _ | .vpipBy c _ _ => c.int8
  | .vpipRead c _ => c.exact && c.et == .n32 && !c.me
  | .vmov c _ _ | .vmovPop c _ _ | .vmovPush c _ _ => c.int
  | .vmovi c _ imm => c.exact && (c.et.isI || c.et.isF) && decide (imm.toNat < 2 ^ c.et.width)
  | .vqpop c _ _ _ _ => c.exact && (c.et.isI || c.et.isF)
  | .vlane c _ _ | .vpmov c _ _ | .vpmovTomask c _ _ => c.int
  | .mcfg g _ | .mpre g _ _ _ _ | .mclr g _ _ | .mbias g _ _ | .mtr g _ _ => g.ok
  | .mxs g w _ => g.ok && w != 0
  | .mmul g rm _ _ _ _ _ _ | .mmulz g rm _ _ _ _ _ _ | .mcmul g rm _ _ _ _ _ _ _ => g.ok && rmOk rm
  | .mmulp g rm _ _ _ _ pw _ _ _ rb => g.ok && rmOk rm && (pw || rb == 0)
  | .mdrain g rm _ add _ ra _ => g.ok && rmOk rm && (add || ra == 0)
  | .ldT g rm _ m dt dc _ | .stT g rm _ m dt dc _ => g.ok && m.ok && decOk rm dt dc
  | .ldV g rm _ m dt dc | .stV g rm _ m dt dc => g.ok && m.ok && decOk rm dt dc
  | .ldS g rm _ m d64 dc sx => g.ok && m.ok && decOk rm (d64 || sx) dc
  | .stS g rm _ m d64 dc => g.ok && m.ok && decOk rm d64 dc
  | .ldG g _ m | .stSc g _ m => g.ok && m.ok
  | .tch g _ _ _ _ => g.ok
  | .ldSp g sz rg off | .stSp g sz rg off => g.ok && spillOk sz rg off
  | .rpop g _ _ _ | .rpeek g _ _ _ _ | .rpush g _ _ _ => g.ok
  | .rsel g _ _ _ rn rn2 => g.ok && rn != rn2
  | .amo g op _ sc sk m => g.ok && m.ok && op != 7 && scOk sc && !(op == 4 && sk == 63)
  | .cpIn c | .cpOut c | .cpPeer c _ | .exf c _ | .ofx c => c.ok
  | .cpPf c | .send c | .ofm c _ => c.ok && c.lb == 0
  | .recvArm c | .ofcRd c | .ofcTab c => c.ok && c.la == 0
  | .ofcCap c | .ofr c _ => c.ok && c.la == 0 && c.lb == 0
  | .fence g _ | .rwait g _ _ _ | .yield g | .sleep g _ | .pwrAcq g _ | .pwrRel g | .realign g _ => g.ok
  | .sig a _ | .bar a => a.ok
  | .wait a c => a.ok && c != 3
  | _ => true

end Sys2Proof
end

