-- ==== Sys2Proof/Decode.lean ====
section
/-! DEFINITION. The slot forms of R96 to R101, the decoder of a slot's bits, the encoder, and the bundle's fields
(R87, R88). The decoder reads the fields, then refuses whatever is not a legal encoding: a bit that the form of the
operation does not use must be zero (R95), which is the check that encoding the operation read gives the bits back. -/

namespace Sys2Proof

/-- Why a slot's bits are no operation (R109). -/
inductive DecodeError
  /-- An unassigned OP value, or OP = 0 in a slot that is not all zero. -/
  | unassigned
  /-- PG = 0 with PN = 1 (R92). -/
  | guardForm
  /-- A non-zero reserved bit (R95). -/
  | reservedBits
  /-- A field value that the operation's definition forbids. -/
  | fieldValue
  deriving DecidableEq, Repr

/-- Form S.R (R96). -/
structure SR where
  op : BitVec 7
  g  : Guard
  sd : BitVec 6 := 0
  sa : BitVec 6 := 0
  sb : BitVec 6 := 0
  sc : BitVec 6 := 0
  rm : BitVec 3 := 0
  fn : BitVec 8 := 0
/-- Form S.I (R96). -/
structure SI where
  op  : BitVec 7
  g   : Guard
  sd  : BitVec 6 := 0
  sa  : BitVec 6 := 0
  imm : BitVec 40 := 0
/-- Form S.B (R96). -/
structure SB where
  op  : BitVec 7
  g   : Guard
  sd  : BitVec 6 := 0
  sa  : BitVec 6 := 0
  sb  : BitVec 6 := 0
  cnd : BitVec 6 := 0
  off : BitVec 28 := 0
/-- Form V.R (R97). -/
structure VR where
  op : BitVec 8
  g  : Guard
  rm : BitVec 3
  et : BitVec 4
  vd : BitVec 11 := 0
  va : BitVec 11 := 0
  vb : BitVec 11 := 0
  vc : BitVec 11 := 0
  ms : BitVec 3
  me : Bool
  ss : BitVec 6 := 0
  fn : BitVec 6 := 0
/-- Form V.I (R97). -/
structure VI where
  op  : BitVec 8
  g   : Guard
  rm  : BitVec 3
  et  : BitVec 4
  vd  : BitVec 11 := 0
  imm : BitVec 32 := 0
  ms  : BitVec 3
  me  : Bool
/-- Form M.R (R98). -/
structure MR where
  op : BitVec 6
  g  : Guard
  rm : BitVec 3 := 0
  ra : BitVec 6 := 0
  rb : BitVec 6 := 0
  na : BitVec 4 := 0
  od : BitVec 11 := 0
  os : BitVec 11 := 0
  fn : BitVec 8 := 0
/-- Form MEM of LD and ST (R99). -/
structure LM where
  op  : BitVec 6
  g   : Guard
  rg  : BitVec 11 := 0
  le  : BitVec 8 := 0
  cb  : BitVec 6 := 0
  cl  : BitVec 4 := 0
  cx  : Bool := false
  imm : BitVec 16 := 0
  rm  : BitVec 3 := 0
  fn  : BitVec 4 := 0
/-- Form RING of LD and ST (R99). -/
structure LR where
  op  : BitVec 6
  g   : Guard
  rg  : BitVec 11 := 0
  rn  : BitVec 6 := 0
  rn2 : BitVec 6 := 0
  pd  : BitVec 4 := 0
  fn  : BitVec 4 := 0
/-- Form SP of LD and ST (R99). -/
structure LS where
  op  : BitVec 6
  g   : Guard
  rg  : BitVec 11 := 0
  off : BitVec 14 := 0
  sz  : Bool := false
/-- Form E.C (R100). -/
structure EC where
  op : BitVec 6
  g  : Guard
  cl : BitVec 4 := 0
  cx : Bool := false
  la : BitVec 8 := 0
  lb : BitVec 8 := 0
  sa : BitVec 6 := 0
  rn : BitVec 6 := 0
  fn : BitVec 4 := 0
/-- Form Y.S (R101). -/
structure YS where
  op : BitVec 5
  g  : Guard
  sc : BitVec 3 := 0
  le : BitVec 8 := 0
  sa : BitVec 6 := 0
  fn : BitVec 5 := 0
/-- Form Y.F (R101). -/
structure YF where
  op   : BitVec 5
  g    : Guard
  mask : BitVec 16 := 0

/-- A bit field of a slot word. -/
def fld (b : BitVec 80) (lo w : Nat) : BitVec w := b.extractLsb' lo w
/-- A one-bit field. -/
def fldB (b : BitVec 80) (lo : Nat) : Bool := b.getLsbD lo

def unSR (b : BitVec 80) : SR :=
  { op := fld b 0 7, g := ⟨fld b 7 4, fldB b 11⟩, sd := fld b 12 6, sa := fld b 18 6, sb := fld b 24 6, sc := fld b 30 6,
    rm := fld b 36 3, fn := fld b 39 8 }
def unSI (b : BitVec 80) : SI :=
  { op := fld b 0 7, g := ⟨fld b 7 4, fldB b 11⟩, sd := fld b 12 6, sa := fld b 18 6, imm := fld b 24 40 }
def unSB (b : BitVec 80) : SB :=
  { op := fld b 0 7, g := ⟨fld b 7 4, fldB b 11⟩, sd := fld b 12 6, sa := fld b 18 6, sb := fld b 24 6, cnd := fld b 30 6,
    off := fld b 36 28 }
def unVR (b : BitVec 80) : VR :=
  { op := fld b 0 8, g := ⟨fld b 8 4, fldB b 12⟩, rm := fld b 13 3, et := fld b 16 4, vd := fld b 20 11, va := fld b 31 11,
    vb := fld b 42 11, vc := fld b 53 11, ms := fld b 64 3, me := fldB b 67, ss := fld b 68 6, fn := fld b 74 6 }
def unVI (b : BitVec 80) : VI :=
  { op := fld b 0 8, g := ⟨fld b 8 4, fldB b 12⟩, rm := fld b 13 3, et := fld b 16 4, vd := fld b 20 11, imm := fld b 31 32,
    ms := fld b 64 3, me := fldB b 67 }
def unMR (b : BitVec 80) : MR :=
  { op := fld b 0 6, g := ⟨fld b 6 4, fldB b 10⟩, rm := fld b 11 3, ra := fld b 14 6, rb := fld b 20 6, na := fld b 26 4,
    od := fld b 30 11, os := fld b 41 11, fn := fld b 52 8 }
def unLM (b : BitVec 80) : LM :=
  { op := fld b 0 6, g := ⟨fld b 6 4, fldB b 10⟩, rg := fld b 11 11, le := fld b 22 8, cb := fld b 30 6, cl := fld b 36 4,
    cx := fldB b 40, imm := fld b 41 16, rm := fld b 57 3, fn := fld b 60 4 }
def unLR (b : BitVec 80) : LR :=
  { op := fld b 0 6, g := ⟨fld b 6 4, fldB b 10⟩, rg := fld b 11 11, rn := fld b 22 6, rn2 := fld b 28 6, pd := fld b 34 4,
    fn := fld b 38 4 }
def unLS (b : BitVec 80) : LS :=
  { op := fld b 0 6, g := ⟨fld b 6 4, fldB b 10⟩, rg := fld b 11 11, off := fld b 22 14, sz := fldB b 36 }
def unEC (b : BitVec 80) : EC :=
  { op := fld b 0 6, g := ⟨fld b 6 4, fldB b 10⟩, cl := fld b 11 4, cx := fldB b 15, la := fld b 16 8, lb := fld b 24 8,
    sa := fld b 32 6, rn := fld b 38 6, fn := fld b 44 4 }
def unYS (b : BitVec 80) : YS :=
  { op := fld b 0 5, g := ⟨fld b 5 4, fldB b 9⟩, sc := fld b 10 3, le := fld b 13 8, sa := fld b 21 6, fn := fld b 27 5 }
def unYF (b : BitVec 80) : YF :=
  { op := fld b 0 5, g := ⟨fld b 5 4, fldB b 9⟩, mask := fld b 13 16 }

/-- The type of an ET code; codes 14 and 15 are illegal (R93). -/
def etOf (b : BitVec 4) : Option ETy :=
  match b.toNat with
  | 0 => some .n8 | 1 => some .s8 | 2 => some .n16 | 3 => some .s16 | 4 => some .n32 | 5 => some .s32 | 6 => some .n64
  | 7 => some .s64 | 8 => some .fp16 | 9 => some .bf16 | 10 => some .fp32 | 11 => some .fp64 | 12 => some .s4 | 13 => some .n4
  | _ => none
/-- Condition values of R121. -/
def icOf (n : Nat) : Option ICond :=
  match n with
  | 0 => some .eq | 1 => some .ne | 2 => some .lt | 3 => some .ltn | 4 => some .le | 5 => some .len | _ => none
def ICond.bits : ICond → Nat | .eq => 0 | .ne => 1 | .lt => 2 | .ltn => 3 | .le => 4 | .len => 5
/-- Condition values of R125. -/
def fcOf (n : Nat) : Option FCond :=
  match n with
  | 0 => some .eq | 1 => some .ne | 2 => some .lt | 3 => some .le | 4 => some .un | _ => none
def FCond.bits : FCond → Nat | .eq => 0 | .ne => 1 | .lt => 2 | .le => 3 | .un => 4
def vsOf (b : BitVec 2) : ViewSel := match b.toNat with | 0 => .v | 1 => .w | 2 => .t | _ => .a
def ViewSel.bits : ViewSel → BitVec 2 | .v => 0 | .w => 1 | .t => 2 | .a => 3

/-- Low bits of a field as a narrower name (R92). -/
def low {n : Nat} (w : Nat) (b : BitVec n) : BitVec w := b.setWidth w

/-- Reads the S slot (R96, R105, R300). -/
def parseS (b : BitVec 80) : Option Instr :=
  let r := unSR b
  let g := r.g
  let fn := r.fn
  match r.op.toNat with
  | 0x01 => some (.add g r.sd r.sa r.sb) | 0x02 => some (.sub g r.sd r.sa r.sb) | 0x03 => some (.mul g r.sd r.sa r.sb)
  | 0x04 => some (.mulh g r.sd r.sa r.sb) | 0x05 => some (.mulhn g r.sd r.sa r.sb)
  | 0x06 => some (.div g r.sa r.sb) | 0x07 => some (.divn g r.sa r.sb)
  | 0x08 => some (.rem g r.sa r.sb) | 0x09 => some (.remn g r.sa r.sb)
  | 0x0A => some (.and g r.sd r.sa r.sb) | 0x0B => some (.or g r.sd r.sa r.sb) | 0x0C => some (.xor g r.sd r.sa r.sb)
  | 0x0D => some (.andn g r.sd r.sa r.sb) | 0x0E => some (.shl g r.sd r.sa r.sb) | 0x0F => some (.shr g r.sd r.sa r.sb)
  | 0x10 => some (.sar g r.sd r.sa r.sb) | 0x11 => some (.min g r.sd r.sa r.sb) | 0x12 => some (.max g r.sd r.sa r.sb)
  | 0x13 => some (.minn g r.sd r.sa r.sb) | 0x14 => some (.maxn g r.sd r.sa r.sb)
  | 0x15 => some (.clz g r.sd r.sa) | 0x16 => some (.popc g r.sd r.sa)
  | 0x17 => some (.sext g r.sd r.sa fn) | 0x18 => some (.zext g r.sd r.sa fn) | 0x19 => some (.mov g r.sd r.sa)
  | 0x1A => some (.sel g r.sd (low 4 fn) r.sa r.sb)
  | 0x1B => (icOf fn.toNat).map fun c => .cmp g c (low 4 r.sd) r.sa r.sb
  | 0x1C => some (.pand g (low 4 r.sd) (low 4 r.sa) (low 4 r.sb)) | 0x1D => some (.por g (low 4 r.sd) (low 4 r.sa) (low 4 r.sb))
  | 0x1E => some (.pxor g (low 4 r.sd) (low 4 r.sa) (low 4 r.sb)) | 0x1F => some (.pnot g (low 4 r.sd) (low 4 r.sa))
  | 0x20 => some (.addi g r.sd r.sa (unSI b).imm) | 0x21 => some (.li g r.sd (unSI b).imm)
  | 0x22 => some (.lih g r.sd r.sa (low 24 (unSI b).imm))
  | 0x28 => (etOf (low 4 fn)).map fun t => .fadd g r.rm t r.sd r.sa r.sb
  | 0x29 => (etOf (low 4 fn)).map fun t => .fsub g r.rm t r.sd r.sa r.sb
  | 0x2A => (etOf (low 4 fn)).map fun t => .fmul g r.rm t r.sd r.sa r.sb
  | 0x2B => (etOf (low 4 fn)).map fun t => .ffma g r.rm t r.sd r.sa r.sb r.sc
  | 0x2C => (etOf (low 4 fn)).bind fun t => (fcOf (fn.toNat / 16)).map fun c => .fcmp g c t (low 4 r.sd) r.sa r.sb
  | 0x2D => (etOf (low 4 fn)).bind fun t => (etOf (low 4 (fn >>> 4))).map fun u => .fcvt g r.rm t u r.sd r.sa
  | 0x30 => some (.br g (unSB b).off)
  | 0x31 => (icOf (unSB b).cnd.toNat).map fun c => .bc g c r.sa r.sb (unSB b).off
  | 0x32 => some (.call g r.sd (unSB b).off) | 0x33 => some (.ret g r.sa) | 0x34 => some (.jmpi g r.sa r.sb)
  | 0x35 => some (.loop g r.sd (unSB b).off) | 0x36 => some (.brk g (unSI b).imm) | 0x37 => some (.trap g (unSI b).imm)
  | 0x38 => some (.halt g) | 0x40 => some (.ibw g (low 3 r.sd) r.sa) | 0x41 => some (.vwr g (vsOf (low 2 fn)) r.sa)
  | 0x42 => some (.wid g r.sd fn) | 0x43 => some (.rank g r.sd fn)
  | 0x44 => some (.qpop g r.sd (low 4 r.sb) (low 2 fn) (fn.getLsbD 3))
  | 0x45 => some (.csrr g r.sd fn) | 0x46 => some (.csrw g fn r.sa)
  | 0x70 => some (.sysrd g r.sd r.sa fn) | 0x71 => some (.syswr g r.sa r.sb fn) | 0x72 => some (.eret g)
  | 0x73 => some (.tlbinv g (low 2 fn) r.sa r.sb r.sc)
  | 0x74 => some (if fn.getLsbD 0 then .keyldErase g r.sa r.sb else .keyld g r.sa r.sb)
  | 0x75 => some (.slotmap g (low 4 r.sd) r.sa r.sb) | 0x76 => some (.ctxsave g (low 4 r.sd) r.sa r.sb)
  | 0x77 => some (.ctxrest g (low 4 r.sd) r.sa r.sb) | 0x78 => some (.swpat g (low 4 r.sd) r.sa r.sb)
  | 0x79 => some (.vote g r.sa r.sb) | 0x7A => some (.swq g r.sa r.sb)
  | 0x7B =>
    match fn.toNat with
    | 0 => some (.lnkTrain g (low 4 r.sd) r.sa) | 1 => some (.lnkPark g (low 4 r.sd) r.sa)
    | 2 => some (.lnkWake g (low 4 r.sd) r.sa) | 3 => some (.lnkRetrain g (low 4 r.sd) r.sa)
    | 4 => some (.lnkDown g (low 4 r.sd) r.sa) | 5 => some (.lnkEnable g (low 4 r.sd) r.sa) | _ => none
  | 0x7C => some (.evqPop g r.sd (low 4 r.sb) (fn.getLsbD 0))
  | 0x7D => some (.olkAcq g r.sa) | 0x7E => some (.olkRel g r.sa) | 0x7F => some (.tstate g r.sd r.sa (fn.getLsbD 0))
  | _ => none

/-- The second source of an SX row (R139). -/
def srcOf (r : VR) : VSrc := if r.fn.getLsbD 5 then .sc r.ss else .reg r.vb

/-- Reads a V slot (R97, R107). -/
def parseV (b : BitVec 80) : Option Instr :=
  let r := unVR b
  (etOf r.et).bind fun t =>
  let c : VC := ⟨r.g, r.rm, t, r.me, r.ms⟩
  let s := srcOf r
  let fn := r.fn
  match r.op.toNat with
  | 0x01 => some (.vadd c r.vd r.va s) | 0x02 => some (.vsub c r.vd r.va s) | 0x03 => some (.vmul c r.vd r.va s)
  | 0x04 => some (.vmulh c r.vd r.va s) | 0x05 => some (.vfma c r.vd r.va s r.vc) | 0x06 => some (.vfms c r.vd r.va s r.vc)
  | 0x07 => some (.vabs c r.vd r.va) | 0x08 => some (.vneg c r.vd r.va) | 0x09 => some (.vmin c r.vd r.va s)
  | 0x0A => some (.vmax c r.vd r.va s) | 0x0B => some (.vaddsat c r.vd r.va s) | 0x0C => some (.vsubsat c r.vd r.va s)
  | 0x10 => some (.vand c r.vd r.va s) | 0x11 => some (.vor c r.vd r.va s) | 0x12 => some (.vxor c r.vd r.va s)
  | 0x13 => some (.vnot c r.vd r.va) | 0x14 => some (.vshl c r.vd r.va s) | 0x15 => some (.vshr c r.vd r.va s)
  | 0x16 => some (.vsar c r.vd r.va s)
  | 0x18 => (fcOf (low 3 fn).toNat).map fun k => .vcmp c k (low 3 r.vd) r.va s
  | 0x19 => some (.vsel c r.vd r.va r.vb (low 3 r.vc))
  | 0x20 => (etOf (low 4 fn)).map fun u => .vcvt c u r.vd r.va
  | 0x21 => (etOf (low 4 fn)).map fun u => .vwiden c u r.vd r.va
  | 0x22 => (etOf (low 4 fn)).map fun u => .vnarrow c u (fn.getLsbD 4) r.vd r.va
  | 0x23 => some (.vmaxe c (low 2 fn) (low 2 (fn >>> 2)) r.va)
  | 0x24 => some (.vqcvt c fn r.vd r.va r.vb r.ss) | 0x25 => some (.vdeq c fn r.vd r.va r.vb r.ss)
  | 0x28 => some (.vexp2 c r.va) | 0x29 => some (.vlog2 c r.va) | 0x2A => some (.vrcp c r.va) | 0x2B => some (.vrsq c r.va)
  | 0x2C => some (.vsqrt c r.va) | 0x2D => some (.vtanh c r.va) | 0x2E => some (.vsincos c r.va)
  | 0x30 => some (.vcmul c (fn.getLsbD 0) r.vd r.va s) | 0x31 => some (.vcmac c (fn.getLsbD 0) r.vd r.va s)
  | 0x32 => some (.vred c (low 2 fn) r.va) | 0x33 => some (.vscan c (low 2 fn) r.va)
  | 0x38 => some (.vperm c r.vd r.va r.vb)
  | 0x39 => some (if fn.getLsbD 0 then .vbcastLane c r.vd r.va r.ss else .vbcast c r.vd r.ss)
  | 0x3A => some (.vrot c r.vd r.va r.ss) | 0x3B => some (.vtrn c r.vd r.va) | 0x3C => some (.vzip c r.vd r.va r.vb)
  | 0x3D => some (.vunzip c r.vd r.va) | 0x40 => some (.vbin c (low 4 fn) r.vd r.va r.vb r.ss)
  | 0x41 =>
    match fn.toNat with
    | 0 => some (.vpip c r.va) | 1 => some (.vpipBy c r.va r.vb) | 2 => some (.vpipRead c r.vd) | _ => none
  | 0x48 =>
    match fn.toNat with
    | 0 => some (.vmov c r.vd r.va) | 1 => some (.vmovPop c r.vd r.ss) | 2 => some (.vmovPush c r.ss r.va) | _ => none
  | 0x49 => some (.vmovi c r.vd (unVI b).imm)
  | 0x4A => some (.vqpop c r.vd (low 4 r.va) (fn.getLsbD 0) (fn.getLsbD 1))
  | 0x4B => some (.vlane c r.vd r.ss)
  | 0x4C => some (if fn.getLsbD 0 then .vpmovTomask c (low 3 r.vd) r.va else .vpmov c r.vd (low 3 r.va))
  | _ => none

/-- Reads the M slot (R98, R108). -/
def parseM (b : BitVec 80) : Option Instr :=
  let r := unMR b
  let x : BitVec 1 := low 1 r.fn
  let y : BitVec 2 := low 2 (r.fn >>> 1)
  match r.op.toNat with
  | 0x01 => some (.mcfg r.g (low 6 r.os)) | 0x02 => some (.mpre r.g x r.na r.ra r.rb) | 0x03 => some (.mxs r.g (low 2 r.fn) r.os)
  | 0x04 => some (.mmul r.g r.rm x y r.na r.od r.ra r.rb) | 0x05 => some (.mmulz r.g r.rm x y r.na r.od r.ra r.rb)
  | 0x06 => some (.mmulp r.g r.rm x y (low 4 (r.fn >>> 3)) (r.fn.getLsbD 7) (r.os.getLsbD 0) r.na r.od r.ra r.rb)
  | 0x07 => some (.mcmul r.g r.rm x y (r.fn.getLsbD 3) r.na r.od r.ra r.rb)
  | 0x08 => some (.mclr r.g (low 3 r.fn) r.od) | 0x09 => some (.mbias r.g r.od r.os)
  | 0x0A => some (.mdrain r.g r.rm (low 6 r.fn) (r.fn.getLsbD 6) r.os r.ra r.rb) | 0x0B => some (.mtr r.g r.od r.os)
  | _ => none

def memOf (r : LM) : MemArg := ⟨r.le, r.cb, r.cx, r.cl, r.imm⟩

/-- Reads the LD slot (R99, R108). -/
def parseLD (b : BitVec 80) : Option Instr :=
  let r := unLM b
  let q := unLR b
  let p := unLS b
  let m := memOf r
  match r.op.toNat with
  | 0x01 => some (.ldT r.g r.rm r.rg m (r.fn.getLsbD 3) (r.fn.getLsbD 2) (low 2 r.fn))
  | 0x02 => some (.ldV r.g r.rm r.rg m (r.fn.getLsbD 3) (r.fn.getLsbD 2))
  | 0x03 => some (.ldS r.g r.rm (low 6 r.rg) m (r.fn.getLsbD 3) (r.fn.getLsbD 2) (r.fn.getLsbD 0))
  | 0x04 => some (.ldG r.g r.rg m) | 0x05 => some (.tch r.g r.le r.cb r.imm (r.fn.getLsbD 0))
  | 0x06 => some (.ldSp r.g p.sz p.rg p.off)
  | 0x08 => some (.rpop r.g (low 2 q.fn) q.rg q.rn) | 0x09 => some (.rsel r.g (low 2 q.fn) q.rg q.pd q.rn q.rn2)
  | 0x0A => some (.rpeek r.g (low 2 q.fn) q.rg q.pd q.rn)
  | _ => none

/-- Reads the ST slot (R99, R108). -/
def parseST (b : BitVec 80) : Option Instr :=
  let r := unLM b
  let q := unLR b
  let p := unLS b
  let m := memOf r
  match r.op.toNat with
  | 0x01 => some (.stT r.g r.rm r.rg m (r.fn.getLsbD 3) (r.fn.getLsbD 2) (low 2 r.fn))
  | 0x02 => some (.stV r.g r.rm r.rg m (r.fn.getLsbD 3) (r.fn.getLsbD 2))
  | 0x03 => some (.stS r.g r.rm (low 6 r.rg) m (r.fn.getLsbD 3) (r.fn.getLsbD 2))
  | 0x04 => some (.stSc r.g r.rg m)
  | 0x05 => some (.amo r.g (low 3 r.fn) (r.fn.getLsbD 3) r.rm (low 6 r.rg) m)
  | 0x06 => some (.stSp r.g p.sz p.rg p.off) | 0x08 => some (.rpush r.g (low 2 q.fn) q.rn q.rg)
  | _ => none

/-- Reads the E slot (R100, R108, R233). -/
def parseE (b : BitVec 80) : Option Instr :=
  let r := unEC b
  let c : ECmd := ⟨r.g, r.la, r.lb, r.sa, r.cx, r.cl, r.fn.getLsbD 3⟩
  match r.op.toNat with
  | 0x01 => some (.cpIn c) | 0x02 => some (.cpOut c) | 0x03 => some (.cpPeer c (r.fn.getLsbD 0)) | 0x04 => some (.cpPf c)
  | 0x08 => some (.send c) | 0x09 => some (.recvArm c) | 0x10 => some (.ofx c) | 0x11 => some (.ofm c (low 1 r.fn))
  | 0x12 =>
    match (low 2 r.fn).toNat with
    | 0 => some (.ofcCap c) | 1 => some (.ofcRd c) | 2 => some (.ofcTab c) | _ => none
  | 0x13 => some (.ofr c (r.fn.getLsbD 0)) | 0x18 => some (.exf c r.rn)
  | _ => none

/-- Reads the Y slot (R101, R108). -/
def parseY (b : BitVec 80) : Option Instr :=
  let r := unYS b
  let a : YArg := ⟨r.g, r.sc, r.le, r.sa⟩
  match r.op.toNat with
  | 0x01 => some (.fence r.g (unYF b).mask) | 0x02 => some (.sig a (r.fn.getLsbD 0)) | 0x03 => some (.wait a (low 2 r.fn))
  | 0x04 => some (.bar a) | 0x05 => some (.rwait r.g (r.fn.getLsbD 4) (low 4 r.fn) (low 6 r.le)) | 0x06 => some (.yield r.g)
  | 0x07 => some (.sleep r.g r.sa) | 0x08 => some (.pwrAcq r.g r.sa) | 0x09 => some (.pwrRel r.g) | 0x0A => some (.realign r.g r.sa)
  | _ => none

/-- Reads a non-zero slot of each kind. -/
def parse : Kind → BitVec 80 → Option Instr
  | .s, b => parseS b | .v, b => parseV b | .m, b => parseM b | .ld, b => parseLD b
  | .st, b => parseST b | .e, b => parseE b | .y, b => parseY b

def pad {n : Nat} (b : BitVec n) : BitVec 80 := b.setWidth 80

def pkSR (r : SR) : BitVec 80 :=
  pad (r.fn ++ r.rm ++ r.sc ++ r.sb ++ r.sa ++ r.sd ++ bit1 r.g.pn ++ r.g.pg ++ r.op)
def pkSI (r : SI) : BitVec 80 := pad (r.imm ++ r.sa ++ r.sd ++ bit1 r.g.pn ++ r.g.pg ++ r.op)
def pkSB (r : SB) : BitVec 80 := pad (r.off ++ r.cnd ++ r.sb ++ r.sa ++ r.sd ++ bit1 r.g.pn ++ r.g.pg ++ r.op)
def pkVR (r : VR) : BitVec 80 :=
  pad (r.fn ++ r.ss ++ bit1 r.me ++ r.ms ++ r.vc ++ r.vb ++ r.va ++ r.vd ++ r.et ++ r.rm ++ bit1 r.g.pn ++ r.g.pg ++ r.op)
def pkVI (r : VI) : BitVec 80 :=
  pad ((0#12) ++ bit1 r.me ++ r.ms ++ (0#1) ++ r.imm ++ r.vd ++ r.et ++ r.rm ++ bit1 r.g.pn ++ r.g.pg ++ r.op)
def pkMR (r : MR) : BitVec 80 :=
  pad (r.fn ++ r.os ++ r.od ++ r.na ++ r.rb ++ r.ra ++ r.rm ++ bit1 r.g.pn ++ r.g.pg ++ r.op)
def pkLM (r : LM) : BitVec 80 :=
  pad (r.fn ++ r.rm ++ r.imm ++ bit1 r.cx ++ r.cl ++ r.cb ++ r.le ++ r.rg ++ bit1 r.g.pn ++ r.g.pg ++ r.op)
def pkLR (r : LR) : BitVec 80 := pad (r.fn ++ r.pd ++ r.rn2 ++ r.rn ++ r.rg ++ bit1 r.g.pn ++ r.g.pg ++ r.op)
def pkLS (r : LS) : BitVec 80 := pad (bit1 r.sz ++ r.off ++ r.rg ++ bit1 r.g.pn ++ r.g.pg ++ r.op)
def pkEC (r : EC) : BitVec 80 :=
  pad (r.fn ++ r.rn ++ r.sa ++ r.lb ++ r.la ++ bit1 r.cx ++ r.cl ++ bit1 r.g.pn ++ r.g.pg ++ r.op)
def pkYS (r : YS) : BitVec 80 := pad (r.fn ++ r.sa ++ r.le ++ r.sc ++ bit1 r.g.pn ++ r.g.pg ++ r.op)
def pkYF (r : YF) : BitVec 80 := pad (r.mask ++ (0#3) ++ bit1 r.g.pn ++ r.g.pg ++ r.op)

/-- A V operation's form, with its second source in VB or, under SX, in SS (R139). -/
def vr (op : BitVec 8) (c : VC) (vd va vb vc : BitVec 11) (ss fn : BitVec 6) : BitVec 80 :=
  pkVR { op := op, g := c.g, rm := c.rm, et := c.et.bits, vd := vd, va := va, vb := vb, vc := vc, ms := c.ms, me := c.me,
         ss := ss, fn := fn }
def vrx (op : BitVec 8) (c : VC) (vd va : BitVec 11) (s : VSrc) (vc : BitVec 11) (fn : BitVec 6) : BitVec 80 :=
  match s with
  | .reg f => vr op c vd va f vc 0 fn
  | .sc ss => vr op c vd va 0 vc ss (fn ||| 0x20)
def sr3 (op : BitVec 7) (g : Guard) (sd sa sb : BitVec 6) : BitVec 80 := pkSR { op := op, g := g, sd := sd, sa := sa, sb := sb }
def srp (op : BitVec 7) (g : Guard) (pd : BitVec 4) (sa sb : BitVec 6) (fn : BitVec 8) : BitVec 80 :=
  pkSR { op := op, g := g, sd := low 6 pd, sa := sa, sb := sb, fn := fn }
def mm (op : BitVec 6) (g : Guard) (rm : BitVec 3) (n : BitVec 4) (od os : BitVec 11) (ra rb : BitVec 6) (fn : BitVec 8) : BitVec 80 :=
  pkMR { op := op, g := g, rm := rm, na := n, od := od, os := os, ra := ra, rb := rb, fn := fn }
def lm (op : BitVec 6) (g : Guard) (rg : BitVec 11) (m : MemArg) (rm : BitVec 3) (fn : BitVec 4) : BitVec 80 :=
  pkLM { op := op, g := g, rg := rg, le := m.le, cb := m.cb, cl := m.cl, cx := m.cx, imm := m.imm, rm := rm, fn := fn }
def ec (op : BitVec 6) (c : ECmd) (rn : BitVec 6) (fn : BitVec 3) : BitVec 80 :=
  pkEC { op := op, g := c.g, cl := c.cl, cx := c.cx, la := c.la, lb := c.lb, sa := c.sa, rn := rn, fn := bit1 c.nq ++ fn }
def ys (op : BitVec 5) (a : YArg) (fn : BitVec 5) : BitVec 80 :=
  pkYS { op := op, g := a.g, sc := a.sc, le := a.le, sa := a.sa, fn := fn }

/-- The bits of an operation, written from the same tables; an event has none. -/
def encode : Instr → BitVec 80
  | .nop _ => 0
  | .add g d a b => sr3 0x01 g d a b | .sub g d a b => sr3 0x02 g d a b | .mul g d a b => sr3 0x03 g d a b
  | .mulh g d a b => sr3 0x04 g d a b | .mulhn g d a b => sr3 0x05 g d a b
  | .div g a b => sr3 0x06 g 0 a b | .divn g a b => sr3 0x07 g 0 a b | .rem g a b => sr3 0x08 g 0 a b | .remn g a b => sr3 0x09 g 0 a b
  | .and g d a b => sr3 0x0A g d a b | .or g d a b => sr3 0x0B g d a b | .xor g d a b => sr3 0x0C g d a b
  | .andn g d a b => sr3 0x0D g d a b | .shl g d a b => sr3 0x0E g d a b | .shr g d a b => sr3 0x0F g d a b
  | .sar g d a b => sr3 0x10 g d a b | .min g d a b => sr3 0x11 g d a b | .max g d a b => sr3 0x12 g d a b
  | .minn g d a b => sr3 0x13 g d a b | .maxn g d a b => sr3 0x14 g d a b
  | .clz g d a => sr3 0x15 g d a 0 | .popc g d a => sr3 0x16 g d a 0
  | .sext g d a w => pkSR { op := 0x17, g := g, sd := d, sa := a, fn := w }
  | .zext g d a w => pkSR { op := 0x18, g := g, sd := d, sa := a, fn := w }
  | .mov g d a => sr3 0x19 g d a 0
  | .sel g d p a b => pkSR { op := 0x1A, g := g, sd := d, sa := a, sb := b, fn := low 8 p }
  | .cmp g c p a b => srp 0x1B g p a b (BitVec.ofNat 8 c.bits)
  | .pand g p a b => srp 0x1C g p (low 6 a) (low 6 b) 0 | .por g p a b => srp 0x1D g p (low 6 a) (low 6 b) 0
  | .pxor g p a b => srp 0x1E g p (low 6 a) (low 6 b) 0 | .pnot g p a => srp 0x1F g p (low 6 a) 0 0
  | .addi g d a i => pkSI { op := 0x20, g := g, sd := d, sa := a, imm := i }
  | .li g d i => pkSI { op := 0x21, g := g, sd := d, imm := i }
  | .lih g d a i => pkSI { op := 0x22, g := g, sd := d, sa := a, imm := low 40 i }
  | .fadd g rm t d a b => pkSR { op := 0x28, g := g, sd := d, sa := a, sb := b, rm := rm, fn := low 8 t.bits }
  | .fsub g rm t d a b => pkSR { op := 0x29, g := g, sd := d, sa := a, sb := b, rm := rm, fn := low 8 t.bits }
  | .fmul g rm t d a b => pkSR { op := 0x2A, g := g, sd := d, sa := a, sb := b, rm := rm, fn := low 8 t.bits }
  | .ffma g rm t d a b c => pkSR { op := 0x2B, g := g, sd := d, sa := a, sb := b, sc := c, rm := rm, fn := low 8 t.bits }
  | .fcmp g c t p a b => srp 0x2C g p a b (BitVec.ofNat 4 c.bits ++ t.bits)
  | .fcvt g rm t u d a => pkSR { op := 0x2D, g := g, sd := d, sa := a, rm := rm, fn := u.bits ++ t.bits }
  | .br g o => pkSB { op := 0x30, g := g, off := o }
  | .bc g c a b o => pkSB { op := 0x31, g := g, sa := a, sb := b, cnd := BitVec.ofNat 6 c.bits, off := o }
  | .call g d o => pkSB { op := 0x32, g := g, sd := d, off := o }
  | .ret g a => sr3 0x33 g 0 a 0 | .jmpi g a b => sr3 0x34 g 0 a b
  | .loop g d o => pkSB { op := 0x35, g := g, sd := d, off := o }
  | .brk g i => pkSI { op := 0x36, g := g, imm := i } | .trap g i => pkSI { op := 0x37, g := g, imm := i }
  | .halt g => sr3 0x38 g 0 0 0
  | .ibw g i a => sr3 0x40 g (low 6 i) a 0
  | .vwr g v a => pkSR { op := 0x41, g := g, sa := a, fn := low 8 v.bits }
  | .wid g d n => pkSR { op := 0x42, g := g, sd := d, fn := n } | .rank g d n => pkSR { op := 0x43, g := g, sd := d, fn := n }
  | .qpop g d p q eb => pkSR { op := 0x44, g := g, sd := d, sb := low 6 p, fn := low 8 (bit1 eb ++ (0#1) ++ q) }
  | .csrr g d n => pkSR { op := 0x45, g := g, sd := d, fn := n } | .csrw g n a => pkSR { op := 0x46, g := g, sa := a, fn := n }
  | .sysrd g d a f => pkSR { op := 0x70, g := g, sd := d, sa := a, fn := f }
  | .syswr g a b f => pkSR { op := 0x71, g := g, sa := a, sb := b, fn := f }
  | .eret g => sr3 0x72 g 0 0 0
  | .tlbinv g k a b c => pkSR { op := 0x73, g := g, sa := a, sb := b, sc := c, fn := low 8 k }
  | .keyld g a b => pkSR { op := 0x74, g := g, sa := a, sb := b } | .keyldErase g a b => pkSR { op := 0x74, g := g, sa := a, sb := b, fn := 1 }
  | .slotmap g p a b => srp 0x75 g p a b 0 | .ctxsave g p a b => srp 0x76 g p a b 0 | .ctxrest g p a b => srp 0x77 g p a b 0
  | .swpat g p a b => srp 0x78 g p a b 0
  | .vote g a b => sr3 0x79 g 0 a b | .swq g a b => sr3 0x7A g 0 a b
  | .lnkTrain g p a => srp 0x7B g p a 0 0 | .lnkPark g p a => srp 0x7B g p a 0 1 | .lnkWake g p a => srp 0x7B g p a 0 2
  | .lnkRetrain g p a => srp 0x7B g p a 0 3 | .lnkDown g p a => srp 0x7B g p a 0 4 | .lnkEnable g p a => srp 0x7B g p a 0 5
  | .evqPop g d p eb => pkSR { op := 0x7C, g := g, sd := d, sb := low 6 p, fn := low 8 (bit1 eb) }
  | .olkAcq g a => sr3 0x7D g 0 a 0 | .olkRel g a => sr3 0x7E g 0 a 0
  | .tstate g d a clr => pkSR { op := 0x7F, g := g, sd := d, sa := a, fn := low 8 (bit1 clr) }
  | .vadd c d a s => vrx 0x01 c d a s 0 0 | .vsub c d a s => vrx 0x02 c d a s 0 0 | .vmul c d a s => vrx 0x03 c d a s 0 0
  | .vmulh c d a s => vrx 0x04 c d a s 0 0 | .vfma c d a s k => vrx 0x05 c d a s k 0 | .vfms c d a s k => vrx 0x06 c d a s k 0
  | .vabs c d a => vr 0x07 c d a 0 0 0 0 | .vneg c d a => vr 0x08 c d a 0 0 0 0
  | .vmin c d a s => vrx 0x09 c d a s 0 0 | .vmax c d a s => vrx 0x0A c d a s 0 0
  | .vaddsat c d a s => vrx 0x0B c d a s 0 0 | .vsubsat c d a s => vrx 0x0C c d a s 0 0
  | .vand c d a s => vrx 0x10 c d a s 0 0 | .vor c d a s => vrx 0x11 c d a s 0 0 | .vxor c d a s => vrx 0x12 c d a s 0 0
  | .vnot c d a => vr 0x13 c d a 0 0 0 0
  | .vshl c d a s => vrx 0x14 c d a s 0 0 | .vshr c d a s => vrx 0x15 c d a s 0 0 | .vsar c d a s => vrx 0x16 c d a s 0 0
  | .vcmp c k m a s => vrx 0x18 c (low 11 m) a s 0 (BitVec.ofNat 6 k.bits)
  | .vsel c d a b m => vr 0x19 c d a b (low 11 m) 0 0
  | .vcvt c u d a => vr 0x20 c d a 0 0 0 (low 6 u.bits) | .vwiden c u d a => vr 0x21 c d a 0 0 0 (low 6 u.bits)
  | .vnarrow c u t d a => vr 0x22 c d a 0 0 0 (low 6 (bit1 t ++ u.bits))
  | .vmaxe c z x a => vr 0x23 c 0 a 0 0 0 (low 6 (x ++ z))
  | .vqcvt c k d a b ss => vr 0x24 c d a b 0 ss k | .vdeq c k d a b ss => vr 0x25 c d a b 0 ss k
  | .vexp2 c a => vr 0x28 c 0 a 0 0 0 0 | .vlog2 c a => vr 0x29 c 0 a 0 0 0 0 | .vrcp c a => vr 0x2A c 0 a 0 0 0 0
  | .vrsq c a => vr 0x2B c 0 a 0 0 0 0 | .vsqrt c a => vr 0x2C c 0 a 0 0 0 0 | .vtanh c a => vr 0x2D c 0 a 0 0 0 0
  | .vsincos c a => vr 0x2E c 0 a 0 0 0 0
  | .vcmul c cj d a s => vrx 0x30 c d a s 0 (low 6 (bit1 cj)) | .vcmac c cj d a s => vrx 0x31 c d a s 0 (low 6 (bit1 cj))
  | .vred c o a => vr 0x32 c 0 a 0 0 0 (low 6 o) | .vscan c o a => vr 0x33 c 0 a 0 0 0 (low 6 o)
  | .vperm c d a b => vr 0x38 c d a b 0 0 0 | .vbcast c d ss => vr 0x39 c d 0 0 0 ss 0 | .vbcastLane c d a ss => vr 0x39 c d a 0 0 ss 1
  | .vrot c d a ss => vr 0x3A c d a 0 0 ss 0 | .vtrn c d a => vr 0x3B c d a 0 0 0 0 | .vzip c d a b => vr 0x3C c d a b 0 0 0
  | .vunzip c d a => vr 0x3D c d a 0 0 0 0 | .vbin c k d a b m => vr 0x40 c d a b 0 m (low 6 k)
  | .vpip c a => vr 0x41 c 0 a 0 0 0 0 | .vpipBy c a b => vr 0x41 c 0 a b 0 0 1 | .vpipRead c d => vr 0x41 c d 0 0 0 0 2
  | .vmov c d a => vr 0x48 c d a 0 0 0 0 | .vmovPop c d m => vr 0x48 c d 0 0 0 m 1 | .vmovPush c m a => vr 0x48 c 0 a 0 0 m 2
  | .vmovi c d i => pkVI { op := 0x49, g := c.g, rm := c.rm, et := c.et.bits, vd := d, imm := i, ms := c.ms, me := c.me }
  | .vqpop c d p q eb => vr 0x4A c d (low 11 p) 0 0 0 (low 6 (bit1 eb ++ bit1 q)) | .vlane c d ss => vr 0x4B c d 0 0 0 ss 0
  | .vpmov c d m => vr 0x4C c d (low 11 m) 0 0 0 0 | .vpmovTomask c m a => vr 0x4C c (low 11 m) a 0 0 0 1
  | .mcfg g k => mm 0x01 g 0 0 0 (low 11 k) 0 0 0 | .mpre g x n a b => mm 0x02 g 0 n 0 0 a b (low 8 x)
  | .mxs g w o => mm 0x03 g 0 0 0 o 0 0 (low 8 w)
  | .mmul g rm x y n d a b => mm 0x04 g rm n d 0 a b (low 8 (y ++ x)) | .mmulz g rm x y n d a b => mm 0x05 g rm n d 0 a b (low 8 (y ++ x))
  | .mmulp g rm x y p rel pw n d a b => mm 0x06 g rm n d (low 11 (bit1 pw)) a b (low 8 (bit1 rel ++ p ++ y ++ x))
  | .mcmul g rm x y z n d a b => mm 0x07 g rm n d 0 a b (low 8 (bit1 z ++ y ++ x))
  | .mclr g n d => mm 0x08 g 0 0 d 0 0 0 (low 8 n) | .mbias g d o => mm 0x09 g 0 0 d o 0 0 0
  | .mdrain g rm k add o a b => mm 0x0A g rm 0 0 o a b (low 8 (bit1 add ++ k)) | .mtr g d o => mm 0x0B g 0 0 d o 0 0 0
  | .ldT g rm d m dt dc h => lm 0x01 g d m rm (bit1 dt ++ bit1 dc ++ h) | .ldV g rm d m dt dc => lm 0x02 g d m rm (bit1 dt ++ bit1 dc ++ (0#2))
  | .ldS g rm d m d64 dc sx => lm 0x03 g (low 11 d) m rm (bit1 d64 ++ bit1 dc ++ (0#1) ++ bit1 sx)
  | .ldG g d m => lm 0x04 g d m 0 0
  | .tch g le cb i w => pkLM { op := 0x05, g := g, le := le, cb := cb, imm := i, fn := low 4 (bit1 w) }
  | .ldSp g sz d o => pkLS { op := 0x06, g := g, rg := d, off := o, sz := sz }
  | .rpop g z d n => pkLR { op := 0x08, g := g, rg := d, rn := n, fn := low 4 z }
  | .rsel g z d p n n2 => pkLR { op := 0x09, g := g, rg := d, rn := n, rn2 := n2, pd := p, fn := low 4 z }
  | .rpeek g z d p n => pkLR { op := 0x0A, g := g, rg := d, rn := n, pd := p, fn := low 4 z }
  | .stT g rm d m dt dc h => lm 0x01 g d m rm (bit1 dt ++ bit1 dc ++ h) | .stV g rm d m dt dc => lm 0x02 g d m rm (bit1 dt ++ bit1 dc ++ (0#2))
  | .stS g rm d m d64 dc => lm 0x03 g (low 11 d) m rm (bit1 d64 ++ bit1 dc ++ (0#2))
  | .stSc g d m => lm 0x04 g d m 0 0 | .amo g o nq sc k m => lm 0x05 g (low 11 k) m sc (bit1 nq ++ o)
  | .stSp g sz d o => pkLS { op := 0x06, g := g, rg := d, off := o, sz := sz }
  | .rpush g z n d => pkLR { op := 0x08, g := g, rg := d, rn := n, fn := low 4 z }
  | .cpIn c => ec 0x01 c 0 0 | .cpOut c => ec 0x02 c 0 0 | .cpPeer c mc => ec 0x03 c 0 (low 3 (bit1 mc)) | .cpPf c => ec 0x04 c 0 0
  | .send c => ec 0x08 c 0 0 | .recvArm c => ec 0x09 c 0 0 | .exf c n => ec 0x18 c n 0 | .ofx c => ec 0x10 c 0 0
  | .ofm c x => ec 0x11 c 0 (low 3 x) | .ofcCap c => ec 0x12 c 0 0 | .ofcRd c => ec 0x12 c 0 1 | .ofcTab c => ec 0x12 c 0 2
  | .ofr c add => ec 0x13 c 0 (low 3 (bit1 add))
  | .fence g m => pkYF { op := 0x01, g := g, mask := m }
  | .sig a s => ys 0x02 a (low 5 (bit1 s)) | .wait a c => ys 0x03 a (low 5 c) | .bar a => ys 0x04 a 0
  | .rwait g f k b => pkYS { op := 0x05, g := g, le := low 8 b, fn := bit1 f ++ k }
  | .yield g => pkYS { op := 0x06, g := g } | .sleep g a => pkYS { op := 0x07, g := g, sa := a }
  | .pwrAcq g a => pkYS { op := 0x08, g := g, sa := a } | .pwrRel g => pkYS { op := 0x09, g := g }
  | .realign g a => pkYS { op := 0x0A, g := g, sa := a }
  | _ => 0

/-- The slot kind an operation belongs to; an event belongs to none. -/
def kindOf : Instr → Option Kind
  | .nop k => some k
  | .add .. | .sub .. | .mul .. | .mulh .. | .mulhn .. | .div .. | .divn .. | .rem .. | .remn .. | .and .. | .or .. | .xor ..
  | .andn .. | .shl .. | .shr .. | .sar .. | .min .. | .max .. | .minn .. | .maxn .. | .clz .. | .popc .. | .sext .. | .zext ..
  | .mov .. | .sel .. | .cmp .. | .pand .. | .por .. | .pxor .. | .pnot .. | .addi .. | .li .. | .lih .. | .fadd .. | .fsub ..
  | .fmul .. | .ffma .. | .fcmp .. | .fcvt .. | .br .. | .bc .. | .call .. | .ret .. | .jmpi .. | .loop .. | .brk .. | .trap ..
  | .halt .. | .ibw .. | .vwr .. | .wid .. | .rank .. | .qpop .. | .csrr .. | .csrw .. | .sysrd .. | .syswr .. | .eret ..
  | .tlbinv .. | .keyld .. | .keyldErase .. | .slotmap .. | .ctxsave .. | .ctxrest .. | .swpat .. | .vote .. | .swq ..
  | .lnkTrain .. | .lnkPark .. | .lnkWake .. | .lnkRetrain .. | .lnkDown .. | .lnkEnable .. | .evqPop .. | .olkAcq .. | .olkRel ..
  | .tstate .. => some .s
  | .vadd .. | .vsub .. | .vmul .. | .vmulh .. | .vfma .. | .vfms .. | .vabs .. | .vneg .. | .vmin .. | .vmax .. | .vaddsat ..
  | .vsubsat .. | .vand .. | .vor .. | .vxor .. | .vnot .. | .vshl .. | .vshr .. | .vsar .. | .vcmp .. | .vsel .. | .vcvt ..
  | .vwiden .. | .vnarrow .. | .vmaxe .. | .vqcvt .. | .vdeq .. | .vexp2 .. | .vlog2 .. | .vrcp .. | .vrsq .. | .vsqrt ..
  | .vtanh .. | .vsincos .. | .vcmul .. | .vcmac .. | .vred .. | .vscan .. | .vperm .. | .vbcast .. | .vbcastLane .. | .vrot ..
  | .vtrn .. | .vzip .. | .vunzip .. | .vbin .. | .vpip .. | .vpipBy .. | .vpipRead .. | .vmov .. | .vmovPop .. | .vmovPush ..
  | .vmovi .. | .vqpop .. | .vlane .. | .vpmov .. | .vpmovTomask .. => some .v
  | .mcfg .. | .mpre .. | .mxs .. | .mmul .. | .mmulz .. | .mmulp .. | .mcmul .. | .mclr .. | .mbias .. | .mdrain .. | .mtr .. => some .m
  | .ldT .. | .ldV .. | .ldS .. | .ldG .. | .tch .. | .ldSp .. | .rpop .. | .rsel .. | .rpeek .. => some .ld
  | .stT .. | .stV .. | .stS .. | .stSc .. | .amo .. | .stSp .. | .rpush .. => some .st
  | .cpIn .. | .cpOut .. | .cpPeer .. | .cpPf .. | .send .. | .recvArm .. | .exf .. | .ofx .. | .ofm .. | .ofcCap .. | .ofcRd ..
  | .ofcTab .. | .ofr .. => some .e
  | .fence .. | .sig .. | .wait .. | .bar .. | .rwait .. | .yield .. | .sleep .. | .pwrAcq .. | .pwrRel .. | .realign .. => some .y
  | _ => none

/-- The guard field stands one bit higher in V (R97) and one or two lower in the other slots. -/
def guardBits (k : Kind) (b : BitVec 80) : Guard :=
  match k with
  | .s => ⟨fld b 7 4, fldB b 11⟩ | .v => ⟨fld b 8 4, fldB b 12⟩ | .y => ⟨fld b 5 4, fldB b 9⟩
  | _ => ⟨fld b 6 4, fldB b 10⟩

/-- The operation that a slot's bits stand for, or the reason they stand for none (R89, R109). -/
def decode (k : Kind) (b : BitVec 80) : Except DecodeError Instr :=
  if b = 0 then .ok (.nop k)
  else
    match parse k b with
    | none => .error .unassigned
    | some i =>
      if !(guardBits k b).ok then .error .guardForm
      else if encode i ≠ b then .error .reservedBits
      else if wf i then .ok i
      else .error .fieldValue

/-- A bundle's fields (R87). -/
structure Bundle where
  hdr : BitVec 16
  s   : BitVec 80
  v0  : BitVec 80
  v1  : BitVec 80
  m   : BitVec 80
  ld  : BitVec 80
  st  : BitVec 80
  e   : BitVec 80
  y   : BitVec 80
  deriving DecidableEq, Repr

/-- Splits the 512 bits (R87). -/
def splitBundle (b : BitVec 512) : Bundle :=
  { hdr := b.extractLsb' 0 16, s := pad (b.extractLsb' 16 64), v0 := b.extractLsb' 80 80, v1 := b.extractLsb' 160 80,
    m := pad (b.extractLsb' 240 64), ld := pad (b.extractLsb' 304 64), st := pad (b.extractLsb' 368 64),
    e := pad (b.extractLsb' 432 48), y := pad (b.extractLsb' 480 32) }

/-- The bundle with the given fields, each slot cut to its width (R87). -/
def joinBundle (b : Bundle) : BitVec 512 :=
  low 32 b.y ++ low 48 b.e ++ low 64 b.st ++ low 64 b.ld ++ low 64 b.m ++ b.v1 ++ b.v0 ++ low 64 b.s ++ b.hdr

/-- A slot of the bundle. -/
def Bundle.slot (b : Bundle) : Slot → BitVec 80
  | .s => b.s | .v0 => b.v0 | .v1 => b.v1 | .m => b.m | .ld => b.ld | .st => b.st | .e => b.e | .y => b.y

def Slot.kind : Slot → Kind
  | .s => .s | .v0 => .v | .v1 => .v | .m => .m | .ld => .ld | .st => .st | .e => .e | .y => .y
/-- Slot number under R29. -/
def Slot.num : Slot → Nat
  | .s => 0 | .v0 => 1 | .v1 => 2 | .m => 3 | .ld => 4 | .st => 5 | .e => 6 | .y => 7
def allSlots : List Slot := [.s, .v0, .v1, .m, .ld, .st, .e, .y]
/-- Header fields (R88). -/
def Bundle.stop (b : Bundle) : Bool := b.hdr.getLsbD 0
def Bundle.ckpt (b : Bundle) : Bool := b.hdr.getLsbD 1
def Bundle.occ (b : Bundle) : BitVec 8 := b.hdr.extractLsb' 2 8
def Bundle.spo (b : Bundle) : Bool := b.hdr.getLsbD 10
/-- OCC as the slots make it (R89). -/
def Bundle.occOf (b : Bundle) : BitVec 8 :=
  BitVec.ofNat 8 (allSlots.foldl (fun a sl => if b.slot sl = 0 then a else a + 2 ^ sl.num) 0)

/-- The instruction whose bits are `w` in the table's numbering: rows of 32 bits stand in the Y slot, 48 in E,
64 in S, 80 in V, and 512 bits are a whole bundle. -/
def decodeTableWord (nbits w : Nat) : Option Instr :=
  match nbits with
  | 32 => (decode .y (BitVec.ofNat 80 w)).toOption
  | 48 => (decode .e (BitVec.ofNat 80 w)).toOption
  | 64 => (decode .s (BitVec.ofNat 80 w)).toOption
  | 80 => (decode .v (BitVec.ofNat 80 w)).toOption
  | 512 => some (.bundleDispatch (BitVec.ofNat 512 w))
  | _ => none

end Sys2Proof
end

