-- ==== Sys2Proof/Machine/State.lean ====
section
/-! DEFINITION. The state of the whole package: every context, core, row and die, the service die, the fabric and memory,
all of it plain data, with the state right after reset. Files by number (`List (Nat × _)`) are sparse: what is not listed
holds the reset value of its type. -/

namespace Sys2Proof.Machine

/-- Why the machine can stop. -/
inductive Fault
  /-- Raised by an access whose page-table entry names a near-memory offset at or above 192 GiB, which no stack holds (R9,
  R342). Safe: the spec gives such an access no effect. -/
  | noSuchAddress (a : Nat)
  deriving DecidableEq, Repr

/-- Why the model can decline a step. -/
inductive Refusal
  /-- Raised by an arm of `exec` whose instruction has no meaning yet. Safe: nothing is claimed of it. -/
  | notModelled (mnemonic : String)
  deriving DecidableEq, Repr

/-- Every byte the machine holds by address, in one flat space (log 16): addresses rise and no listed byte is zero. -/
abbrev Memory := List Host.Cell

/-- The canonical form of a memory: addresses strictly rising, no entry equal to what an unlisted address reads as. -/
def Memory.wf : Memory → Bool
  | [] => true
  | [(_, b)] => b != 0
  | (a, b) :: (c, d) :: r => b != 0 && decide (a < c) && Memory.wf ((c, d) :: r)

/-! ## A context -/

/-- The scale latches of R52, with the block code K of SL.V0 and SL.V1 (R155). -/
structure Latches where
  v0 : BitVec 512 := 0
  k0 : BitVec 2 := 0
  v1 : BitVec 512 := 0
  k1 : BitVec 2 := 0
  mr : BitVec 1024 := 0
  mc : BitVec 1024 := 0
  deriving DecidableEq, Repr

/-- Which latches a pending write lands in. -/
inductive LatSel | v0 | v1 | mr | mc | mrc
  deriving DecidableEq, Repr

/-- A latch write that has issued, with the bundle position of its writer (R31, R53). -/
structure LatW where
  seq : Nat
  sel : LatSel
  val : BitVec 2048
  k   : BitVec 2 := 0
  deriving DecidableEq, Repr

/-- What a checkpoint captures whole: the control shadow of R32, the numeric registers of R80 and the latches of R53, with
the counts that place a bundle in its stream and group. -/
structure Ctl where
  s      : List (Nat × Word) := []
  p      : List (Nat × Bool) := []
  m      : List (Nat × BitVec 1024) := []
  ib     : List (Nat × BitVec 16) := []
  /-- The bases in force (R31): what ib0 to ib7 held at the last group boundary. -/
  ibf    : List (Nat × BitVec 16) := []
  /-- VIEW.V, VIEW.W, VIEW.T and VIEW.A (R41). -/
  vv     : BitVec 32 := 0
  vw     : BitVec 32 := 0
  vt     : BitVec 32 := 0
  va     : BitVec 32 := 0
  mxcfg  : Word := 0
  pc     : Word := 0
  fstat  : BitVec 7 := 0
  nbv    : Bool := true
  srseed : Word := 0
  sridx  : BitVec 32 := 0
  lat    : Latches := {}
  latw   : List LatW := []
  /-- Position of the next bundle in every slot stream (R4). -/
  seq    : Nat := 0
  /-- Number of the current group (R28). -/
  grp    : Nat := 0
  deriving DecidableEq, Repr

/-- One unissued operation in a slot queue, with what its dispatch resolved (R27, R44, R78, R86). -/
structure Ent where
  raw   : BitVec 80 := 0
  seq   : Nat := 0
  grp   : Nat := 0
  pc    : Word := 0
  vv    : BitVec 32 := 0
  vw    : BitVec 32 := 0
  vt    : BitVec 32 := 0
  va    : BitVec 32 := 0
  ib    : List (Nat × BitVec 16) := []
  nbv   : Bool := true
  sridx : BitVec 32 := 0
  spo   : Bool := false
  /-- Stands for a load that the linker removed (R263). -/
  ghost : Bool := false
  deriving DecidableEq, Repr

/-- Where a result in flight goes. -/
inductive Dest
  | scalar (n : Nat)
  | pred (n : Nat)
  | mask (n : Nat)
  /-- Bytes of the window from `off`. -/
  | win (off : Nat)
  | mxcfg
  deriving DecidableEq, Repr

/-- An element of an access, resolved: bit address in the flat space, width, and the key of its unit; for an element of a local
space, the address before its entry's bank permutation and the entry's SWZ (R59, R60, R344). -/
structure Elem where
  addr : Nat
  w    : Nat
  key  : Nat := 0
  deriving DecidableEq, Repr

/-- A load whose data has still to arrive from a drawer (R364): its elements and their scales in register order (`none` is
an element turned off), and the context's own withheld data over them when it issued. -/
structure Late where
  op    : Instr
  ent   : Ent
  elems : List (Option Elem)
  scales : List (Option Elem)
  fmt   : BitVec 32
  sfmt  : BitVec 32
  overlay : List (Nat × Nat × Nat)
  /-- Units already taken, by number, key and value: each performs by itself, so that no later access passes it (R246). -/
  got : List (Nat × Nat × Nat) := []
  deriving DecidableEq, Repr

/-- A result in flight (R31, R38): it lands when `left` is 0 and the drawer requests `gate` have performed. -/
structure Fly where
  id   : Nat
  left : Nat
  gate : List Nat := []
  late : Option Late := none
  /-- The last unit of a late load has arrived: `val` and its flags are fixed (R249). -/
  fixed : Bool := false
  flg  : BitVec 7 := 0
  /-- The load issued in arrival mode (R51). -/
  arr  : Bool := false
  dst  : Dest
  val  : Nat := 0
  /-- Bits of a window write that are written. -/
  bm   : Nat := 0
  /-- Bytes the write occupies for the scoreboard. -/
  size : Nat := 0
  seq  : Nat := 0
  grp  : Nat := 0
  pc   : Word := 0
  slot : Slot := .s
  deriving DecidableEq, Repr

/-- A write that has landed: its slot, group, place, bytes and bits (R29). -/
structure Landed where
  slot : Nat
  grp  : Nat
  dst  : Dest
  size : Nat
  bm   : Nat
  deriving DecidableEq, Repr

/-- An entry of a result queue, pending or arrived (R49, R50). `left` counts the ticks of a producer with a fixed latency. -/
structure QEnt where
  id      : Nat := 0
  arrived : Bool := false
  left    : Nat := 0
  data    : Nat := 0
  seq     : Nat := 0
  /-- Pushed by an operation since the last checkpoint. -/
  fresh   : Bool := false
  deriving DecidableEq, Repr

/-- A withheld update (R32): a store to one 64 B unit, or to sixteen pip counters when `cls` is 17, as addends of 32 bits. Spill
stores have class 16. `mask` marks the bits written. -/
structure WEnt where
  cls  : Nat
  unit : Nat
  mask : Nat
  val  : Nat
  /-- The key the store writes under (R387): 0 the root of trust's, k + 1 key-slot content k. Unused for a local unit. -/
  key  : Nat := 0
  /-- The drawer the store drains to through the rondel (R364). -/
  drawer : Option Nat := none
  /-- Partition of the store. -/
  part : Nat := 0
  deriving DecidableEq, Repr

/-- A translated page (R344): what one leaf entry gives. -/
structure Page where
  base : Nat
  size : Nat
  tier : Nat
  off  : Nat
  w    : Bool
  fmt  : Nat
  geo  : Nat
  key  : Nat
  deriving DecidableEq, Repr

/-- An open touch window (R37, R196): the bytes of its box by virtual address and length, the pages it holds translated. -/
structure TWin where
  n     : Nat
  w     : Bool
  left  : Nat
  bytes : List (Nat × Nat)
  pages : List Page
  /-- The box: its layout entry, origin and extents. -/
  le    : Nat := 0
  org   : List Int := []
  ext   : List Nat := []
  /-- Opened since the last checkpoint. -/
  fresh : Bool := true
  deriving DecidableEq, Repr

/-- One matrix plane (R173, R183). -/
structure Plane where
  data   : Nat := 0
  scale  : Nat := 0
  bfd    : Nat := 0
  bgeo   : Nat := 0
  loaded : Bool := false
  read   : Bool := false
  /-- Loaded by an `mpre` since the last checkpoint (R184). -/
  fresh  : Bool := false
  deriving DecidableEq, Repr

/-- A matrix operation that has fired (R180): what it popped, the settings in force when it issued, and how far it is. -/
structure MOp where
  id    : Nat
  op    : Instr
  ent   : Ent
  live  : Bool
  cfg   : Word := 0
  mr    : BitVec 1024 := 0
  mc    : BitVec 1024 := 0
  /-- 0 waits to start, 1 runs, 2 loads a plane. -/
  stage : Nat := 0
  left  : Nat := 0
  /-- Rows, their scales or a drain's partial sums; the plane being loaded and its scales. -/
  runA  : Nat := 0
  sclA  : Nat := 0
  runB  : Nat := 0
  sclB  : Nat := 0
  /-- Flat address and bytes of a drain's output slot. -/
  out   : Nat := 0
  outn  : Nat := 0
  /-- Rings whose credits arise when the operation, or its plane load, ends: (core, ring, slots popped, slots pushed). -/
  rings : List (Nat × Nat × Nat × Nat) := []
  /-- A peer ring being read: core and ring (R186). -/
  peer  : Option (Nat × Nat) := none
  /-- Window writes of the result: byte offset, bytes, value. -/
  res   : List (Nat × Nat × Nat) := []
  flags : BitVec 7 := 0
  outv  : Nat := 0
  deriving DecidableEq, Repr

/-- What blocks a context (R23). -/
inductive Blk
  /-- Until the rings listed have the published slots listed: any of the alternatives, each a conjunction of
  (core times 64 plus ring, filled needed, free needed); with neither needed, FREE must be 0 (R208). -/
  | ring (alts : List (List (Nat × Nat × Nat)))
  /-- `rwait`: until a ring's FREE, or FILLED, reaches `n`. -/
  | count (ring : Nat) (free : Bool) (n : Nat)
  /-- Until a result queue's oldest entry has arrived; 16 is the event queue. -/
  | queue (q : Nat)
  deriving DecidableEq, Repr

/-- What holds a context without a switch (R214 to R221). -/
inductive Hold
  /-- `wait`, not yet issued: flag bit address, its key, class, the drawer reads it waits for, condition, value. -/
  | wait (addr key cls : Nat) (gate : List Nat) (cond : Nat) (v : Word)
  /-- The wait of a `bar`: counter, and its target once the increment has performed (R216). -/
  | bar (addr key cls : Nat) (gate : List Nat) (target : Option Word)
  | sleep (left : Nat)
  /-- A power level asked for and not yet granted. -/
  | power (level : Nat)
  /-- A link pair being realigned, with the master cycles left of 64 µs and the bundle of the `realign`. -/
  | realign (pair left : Nat) (pc : Word)
  /-- `olk.acq` waiting for its token. -/
  | lock (q n : Nat)
  deriving DecidableEq, Repr

/-- What a group's earlier bundles named, for R29: bytes, scalars, predicates, masks and bases by slot. -/
structure Foot where
  slot  : Nat
  seq   : Nat
  pred  : Bool
  rd    : List Nat
  wr    : List Nat
  rings : List Nat
  deriving DecidableEq, Repr

/-- The second half of a split bundle, still to be dispatched (R113). -/
structure Split where
  ents : List (Slot × Ent)
  occ  : BitVec 8
  stop : Bool
  ckpt : Bool
  deriving DecidableEq, Repr

/-- The instance a context holds (R18 to R20, R331). -/
structure Inst where
  /-- Die whose share it belongs to, and the task's scheduler slot there. -/
  die    : Nat
  slot   : Nat
  taskno : Word
  wid    : Word
  widths : List Nat
  counts : List Nat
  part   : Nat
  img    : Nat
  ksym   : Nat
  /-- First bundle of the kernel and its bundle count. -/
  first  : Word
  nb     : Nat
  /-- Enumeration index. -/
  idx    : Nat := 0
  win512 : Bool := false
  bcast  : Bool := false
  /-- Branches of its broadcast that the core has resolved, and whether it has left the broadcast (R26). -/
  bidx   : Nat := 0
  left   : Bool := false
  /-- Core of its broadcast. -/
  bcore  : Nat := 0
  /-- Splice program that runs, by identity (R267). -/
  spl    : Option Nat := none
  /-- Ticks held since the quantum (re)started (R335). -/
  held   : Nat := 0
  /-- Limit of R219, and the level that a pre-emption saved. -/
  limit  : Nat := 0
  lvl    : Nat := 0
  deriving DecidableEq, Repr

/-- The FLT words of a context (R351). -/
structure Flt where
  cause  : Word := 0
  bundle : Word := 0
  addr   : Word := 0
  task   : Word := 0
  smap   : Word := 0
  wawp   : Bool := false
  lrs    : Bool := false
  derr   : Bool := false
  derra  : Word := 0
  sav0   : Word := 0
  sav1   : Word := 0
  deriving DecidableEq, Repr

/-- One hardware context, or a firmware core's one context (R21, R314). -/
structure Ctx where
  ctl     : Ctl := {}
  /-- The control shadow: `ctl` as it stood at the last checkpoint (R32). -/
  shadow  : Ctl := {}
  ticks   : Word := 0
  bundles : Word := 0
  /-- TICKS, BUNDLES and the planes' LOADED and READ bits at the last checkpoint (R356). -/
  ckTicks : Word := 0
  ckBundles : Word := 0
  ckPlanes : Nat := 0
  p0      : Plane := {}
  p1      : Plane := {}
  /-- The eight slot queues by slot number, oldest first (R21). -/
  queues  : List (Nat × List Ent) := []
  fly     : List Fly := []
  mops    : List MOp := []
  /-- Result queues q0 to q5, oldest first (R49). -/
  rq      : List (Nat × List QEnt) := []
  /-- Entries popped since the checkpoint, newest first, with their queue (R50). -/
  popped  : List (Nat × QEnt) := []
  /-- The undo file: block number and old image, in capture order (R32). -/
  undo    : List (Nat × Nat) := []
  /-- The withholding buffer in entry order (R32). -/
  held    : List WEnt := []
  /-- The layout table (R57). -/
  layout  : List (Nat × BitVec 512) := []
  wins    : List TWin := []
  inst    : Option Inst := none
  /-- CTX.CFG.HOLD and ARR (R296). -/
  hold    : Bool := true
  arr     : Bool := false
  /-- CTX.TRAP (R296). -/
  nest    : Bool := false
  epriv   : BitVec 2 := 0
  priv    : BitVec 2 := 0
  epc     : BitVec 50 := 0
  tvec    : BitVec 50 := 0
  flt     : Flt := {}
  /-- Power level in force and granted (R219, R382). -/
  level   : Nat := 0
  blk     : Option Blk := none
  /-- Slot number of the operation that is blocked. -/
  blkSl   : Nat := 0
  wait    : Option Hold := none
  foots   : List Foot := []
  split   : Option Split := none
  /-- Set between a bundle that ends a checkpoint span and its release: true when the release is due at the program counter. -/
  ckDue   : Bool := false
  /-- Position and mnemonic-free kind of a bundle that cannot be undone and is in progress (R34, R130). -/
  irrev   : Option Nat := none
  /-- Operations of that bundle that have issued with a true guard (R39). -/
  acted   : Nat := 0
  /-- IMM and kind of a `brk` or `trap` to raise when its bundle has completed (R130): fault kind 18 or 19, slot number 0. -/
  soft    : Option (Nat × Word × Word) := none
  /-- A `halt` has been dispatched (R131). -/
  halting : Bool := false
  /-- Holds no instance, but its dispenser has one for it, so that it keeps its turn (R23). -/
  due     : Bool := false
  /-- Save-area address of the instance whose overrun freed the context: the next instance here is another one, where there is one (R339,
  log 113). -/
  spent   : Option Nat := none
  /-- The quantum was given up by a `yield` (R218). -/
  preReq  : Bool := false
  /-- Stopped at a bundle boundary with its work kept as it stood (R38, R296). -/
  susp    : Bool := false
  /-- Resumed in this tick: issue restarts in the next (R38). -/
  woke    : Bool := false
  /-- Effective cycles held without a dispatch (R384). -/
  idle    : Nat := 0
  /-- Writes that have landed in this span, for the two-writer rule of R29. -/
  landed  : List Landed := []
  /-- Spliced code: position, entry and coordinates of the tile stores issued, newest first (R263). -/
  stv     : List (Nat × BitVec 512 × List Int) := []
  /-- Firmware core: in service, and trapped once since its last `halt` (R316). -/
  service : Bool := false
  trapped : Bool := false
  deriving DecidableEq, Repr

/-! ## A core, a row, a die -/

/-- What a read of a ring's state sees: FREE, FILLED, TAIL, HEAD, WFREE, WFILL, and an unresolved reservation (R66, R208). -/
structure Counts where
  free   : Nat := 0
  filled : Nat := 0
  tail   : Nat := 0
  head   : Nat := 0
  wfree  : Nat := 0
  wfill  : Nat := 0
  exf    : Bool := false
  deriving DecidableEq, Repr

/-- A slot that a firing has taken and whose credit is not published yet (R64 to R68): the engine command, 0 for a firing of the owning
context; whether a rollback undoes it; whether the firing has completed; whether its release waits for a store of its span to a local
space (R190); the peer reads of a popped slot that its credit waits for (R186); and the snapshot that holds its credit (R38). -/
structure Owed where
  id      : Nat := 0
  own     : Bool := false
  done    : Bool := false
  wait    : Bool := false
  readers : List Nat := []
  saved   : Option Nat := none
  deriving DecidableEq, Repr

/-- One ring (R63), with the firings whose credits are still to be published. -/
structure Ring where
  owner    : Nat := 0
  en       : Bool := false
  buf      : Nat := 0
  base     : Nat := 0
  slotlog  : Nat := 0
  countm1  : Nat := 0
  pend     : Bool := false
  free     : Nat := 0
  filled   : Nat := 0
  tail     : Nat := 0
  head     : Nat := 0
  /-- Slots popped, and slots pushed, in the order of their firings. -/
  pops     : List Owed := []
  pushes   : List Owed := []
  /-- Takes of this tick, and the state at its start (R66). -/
  tPop     : Nat := 0
  tPush    : Nat := 0
  old      : Counts := {}
  /-- An unresolved `exf` reservation that is the latest push (R208), by command. -/
  exf      : Option Nat := none
  /-- Peer reads in progress: reader operation and its slots (R186). -/
  peers    : List (Nat × List Nat) := []
  deriving DecidableEq, Repr

/-- The W part of a preload: the ring, and the elements of B with their values (R337). -/
structure PreW where
  ring  : Nat
  elems : List Elem
  vals  : List Nat
  deriving DecidableEq, Repr

/-- A preload that stands for the next task (R337). -/
structure Preload where
  slot  : Nat
  pc    : Word
  code  : List (BitVec 512)
  w     : Option PreW := none
  deriving DecidableEq, Repr

structure Core where
  /-- CTX.CCFG.TWO (R296). -/
  two     : Bool := false
  /-- SLT.MAP (R112): STI LDI V1I V0I YLIVE ELIVE MLIVE SLIVE PLIVE VLIVE. -/
  sltmap  : BitVec 12 := 0xAFF
  /-- The binding in force for the running instances (R305). -/
  bind    : BitVec 4 := 0xA
  rings   : List (Nat × Ring) := []
  pips    : List (Nat × BitVec 32) := []
  prim    : Option Nat := none
  sec     : Option Nat := none
  last    : Option Nat := none
  /-- OCC, stop bit and group of the bundle each context has dispatched in this tick (R22). -/
  tick    : List (Nat × BitVec 8 × Bool × Nat) := []
  /-- Units that have taken an operation in this tick: S 0, vector 1 and 2, M 3, memory ports 4 and 5, E 6, Y 7. -/
  issued  : List Nat := []
  /-- Ticks each vector unit stays occupied (R140), and each matrix path (R173). -/
  vbusy   : List (Nat × Nat) := []
  mbusy   : List (Nat × Nat) := []
  preload : Option Preload := none
  /-- The W part of the preload of an instance that has started, until its first `cp.in` (R338): context and contents. -/
  preW    : Option (Nat × PreW) := none
  /-- The broadcast buffer (R25): bundle number and bits. -/
  bbuf    : List (Word × BitVec 512) := []
  deriving DecidableEq, Repr

/-- A broadcast launch's row sequencer (R25). -/
structure Bcast where
  slot  : Nat
  wid   : Word
  ranks : List Nat
  skew  : Nat
  pc    : Word
  /-- A branch or a `halt` has been fetched, and its outcome is still to come. -/
  stall : Bool := false
  /-- Deliveries still to make: rank, bundle number, bits, ticks left. -/
  todo  : List (Nat × Word × BitVec 512 × Nat) := []
  /-- Outcomes of the lowest rank's branches, in order: bundle, next bundle (R26). -/
  trace : List (Word × Word) := []
  /-- Ranks that still run the instance, and its first fault. -/
  live  : List Nat := []
  fault : Option (Nat × Nat) := none
  deriving DecidableEq, Repr

structure Row where
  pat    : BitVec 16 := 0xFFFF
  patcur : BitVec 16 := 0xFFFF
  pmaxn  : BitVec 4 := 0
  wdog   : Word := 0
  fitted : Bool := false
  bcast  : Option Bcast := none
  deriving DecidableEq, Repr

/-- An optical command in the stage's queue (R223). -/
structure OCmd where
  id   : Nat
  who  : Nat
  part : Nat
  op   : Nat
  fn   : Nat
  nq   : Bool
  cls  : Nat := 0
  seq  : Nat := 0
  /-- Task whose instance issued it. -/
  task : Word := 0
  /-- Master cycle in which it was accepted, for the order of one tick's commands (R223). -/
  cyc  : Nat := 0
  tag  : BitVec 16
  /-- Control and limits words of `ofx`, or the phase of `ofr`. -/
  ctl  : Word := 0
  lim  : Word := 0
  /-- Input and output elements, and the rings bound to them. -/
  src  : List Elem := []
  dst  : List Elem := []
  srcRing : Option (Nat × Nat) := none
  dstRing : Option (Nat × Nat) := none
  /-- It has started: GEN, DT and AGEH of its record, and the input of a pass as read, with REFPH less the reference phase that the
  last capture measured. -/
  started : Bool := false
  turn : BitVec 10 := 0
  input : List Nat := []
  rec0  : Nat := 0
  /-- Status bits of the record found so far. -/
  flags : Nat := 0
  /-- The accuracy conditions of R229 that hold at the start. -/
  good  : Bool := false
  deriving DecidableEq, Repr

structure Stage where
  detgain : BitVec 16 := 0x8000
  detoff  : BitVec 16 := 0
  mbias   : BitVec 10 := 0
  refph   : BitVec 10 := 0
  /-- The reference phase that the last capture measured (R241). -/
  rho     : BitVec 10 := 0
  temp    : BitVec 16 := 0
  caltemp : BitVec 16 := 0
  /-- Master cycle of the last capture; CALAGE counts from it (R232). -/
  capCyc  : Nat := 0
  calgen  : BitVec 32 := 0
  /-- First free value of the tables that the last capture measured (R240); none before the first capture (R232). -/
  tables  : Option Nat := none
  /-- Mask stores 0 and 1: 16,384 complex fp16 elements each, by index. -/
  mask0   : List (Nat × BitVec 32) := []
  mask1   : List (Nat × BitVec 32) := []
  /-- What drives the input modulators by index: amplitude times 32,768, and phase in 1/65,536 of a turn (R224, R232). -/
  drive   : List (Nat × Nat × BitVec 16) := []
  /-- Codes of the mask modulators of stores 0 and 1: amplitude, and phase with MBIAS. -/
  code0   : List (Nat × Nat × BitVec 10) := []
  code1   : List (Nat × Nat × BitVec 10) := []
  /-- Accepted commands, oldest first. -/
  queue   : List OCmd := []
  deriving DecidableEq, Repr

/-- One task record (R333) with what the scheduler holds of its task. -/
structure Task where
  taskno : Word := 0
  quant  : BitVec 32 := 0
  nfault : Nat := 0
  part   : Nat := 0
  prio   : Nat := 0
  /-- Earlier tasks this one waits for, by slot (R329). -/
  deps   : List Nat := []
  splr   : Nat := 0
  /-- ACT as firmware wrote it: 1 rerun, 2 abandon (R340). -/
  act    : Nat := 0
  state  : Nat := 0
  /-- Instances of the share not yet halted. -/
  left   : Nat := 0
  /-- Queue, host tag and launch words. -/
  queue  : Nat := 0
  hseq   : BitVec 32 := 0
  img    : Nat := 0
  ksym   : Nat := 0
  widths : List Nat := []
  counts : List Nat := []
  place  : BitVec 16 := 0
  masks  : Nat := 0
  bcast  : Bool := false
  args   : List Word := []
  /-- The task's own copy of the kernel's layouts (R288). -/
  layout : List (Nat × BitVec 512) := []
  reads  : List (Option (Nat × Nat)) := []
  writes : List (Option (Nat × Nat)) := []
  order  : Nat := 0
  /-- Per core, or per row of a broadcast launch: the first enumeration index not yet offered (R19, R20). -/
  next   : List (Nat × Nat) := []
  /-- Enumeration indices to dispense again (R340). -/
  again  : List Nat := []
  /-- Pre-empted instances: core, save-area slot and address. -/
  saved  : List (Nat × Nat × Nat) := []
  /-- Enumeration indices of the instances that ended with a fault, each with the slots whose work it did, and the first
  fault's kind and cause. -/
  faulted : List (Nat × List Nat) := []
  first  : Option (Nat × Nat) := none
  /-- A splice-map trap has struck the task, or the pair that it forms with the task ahead (R263, R259). -/
  cut    : Bool := false
  struck : Bool := false
  /-- Its transient stores that the pair with the task behind suppresses, by bundle of the kernel, once its first instance has
  started (R266). -/
  supp   : Option (List Nat) := none
  done   : Bool := false
  abandoned : Bool := false
  started : Bool := false
  /-- Splice: head slot of the chain, position in it, and the hold counter (R332). -/
  chain  : Option (Nat × Nat) := none
  holdLeft : Option Nat := none
  /-- Position of the chain's task that dispenses for it: 0, or its own after a cut (R263). -/
  seg    : Nat := 0
  prog   : Option Nat := none
  deriving DecidableEq, Repr

/-- A spliced program of the die's splice cache with its map (R267, R268). -/
structure Spliced where
  id    : Nat
  code  : List (BitVec 512)
  /-- The splice-map entry of each bundle (R268). -/
  map   : List (BitVec 128)
  /-- Scheduler slots of the chain's tasks, head first. -/
  slots : List Nat
  /-- Their numbers, and the partitions and images that the program was built from (R267, R290). -/
  tasks : List Word := []
  imgs  : List (Nat × Nat) := []
  /-- Layouts the renumbered kernels name, and the limits of the sums. -/
  layout : List (Nat × BitVec 512)
  /-- Spliced bundles whose transient store the die suppresses (R266), once the first instance has started. -/
  suppress : List Nat := []
  started : Bool := false
  lastUse : Nat := 0
  deriving DecidableEq, Repr

structure Die where
  votes   : List (Nat × BitVec 16) := []
  clamped : List (Nat × Bool) := []
  rstate  : Nat := 0
  tgt     : Nat := 0x226
  vnow    : Nat := 0x226
  /-- Microsecond fraction of the slew and the hold timer, in master cycles. -/
  timer   : Nat := 0
  diemax  : BitVec 16 := 0xFFFF
  tage    : BitVec 16 := 0xFFFF
  pavg    : BitVec 16 := 0
  vavg    : BitVec 16 := 0
  tcrit   : BitVec 16 := 0xFFFF
  talert  : BitVec 16 := 0xFFFF
  /-- Sensors: TEMP, TMAX, AGE, armed. -/
  sens    : List (Nat × BitVec 16 × BitVec 16 × BitVec 16 × Bool) := []
  /-- Raising power requests in order of arrival: context, level and master cycle (R382). -/
  pwrq    : List (Nat × Nat × Nat) := []
  stage   : Stage := {}
  tasks   : List (Nat × Task) := []
  order   : Nat := 0
  /-- Shares reported done to this die, by task number and reporting die. -/
  shares  : List (Nat × Nat × Option (Nat × Nat)) := []
  /-- Launch packets this die has fetched: (queue, CI). -/
  fetched : List (Nat × Nat) := []
  cache   : List Spliced := []
  /-- Save-area slots in use: (partition, slot). -/
  saves   : List (Nat × Nat) := []
  /-- Send queues per port: command ids in order. -/
  sends   : List (Nat × List Nat) := []
  deriving DecidableEq, Repr

/-! ## Partitions, engines, drawers and links -/

structure Part where
  fmtd   : List (Nat × BitVec 32) := []
  ptroot : Word := 0
  ctl    : Word := 0x60_6000_0100
  own    : Word := 0
  save   : Word := 0
  /-- The deferred set: pages with the parties that hold them (R347): window (context, number) or command id. -/
  defer  : List (Nat × List (Nat × Nat) × List Nat) := []
  deriving DecidableEq, Repr

/-- An engine command in progress (R203). -/
structure ECmdRec where
  id   : Nat
  who  : Nat
  part : Nat
  opc  : Nat
  cls  : Nat
  seq  : Nat := 0
  /-- Task whose instance issued it (R330). -/
  task : Word := 0
  nq   : Bool
  tag  : BitVec 16
  /-- Element moves, source then destination. -/
  moves : List (Elem × Elem) := []
  units : Nat := 0
  status : Nat := 0
  /-- Rings whose slot is released or pushed at completion: (core, ring). -/
  srcRing : Option (Nat × Nat) := none
  dstRing : Option (Nat × Nat) := none
  /-- Drawer requests it waits for. -/
  gates : List Nat := []
  pages : List Page := []
  /-- `exf`: ticks to the deadline, fallback ring and slot address, token bytes, and whether the outcome is fixed. -/
  deadline : Option Nat := none
  fallback : Option (Nat × Nat × Nat) := none
  token : Nat := 0
  resolved : Bool := false
  /-- Its record is out; a late block may still have to be discarded (R208). -/
  closed : Bool := false
  /-- `send`: port, receive queue, slack, flits sent and total, sequence number; `recv.arm`: receive queue and bytes. -/
  port : Nat := 0
  rqn  : Nat := 0
  slack : Nat := 0
  sent : Nat := 0
  flits : Nat := 0
  sq   : Nat := 0
  placed : List Nat := []
  waited : Nat := 0
  /-- Arrival order on the die, for age order, and the master cycle of its issue. -/
  order : Nat := 0
  cyc   : Nat := 0
  deriving DecidableEq, Repr

/-- An indivisible step on one element (R198, R213): bit address, width, operation (0 add, 1 min, 2 max, 3 xchg, 4 cas,
5 and, 6 or), operands, signed kind, and the pending q0 entry it fills. -/
structure AmoOp where
  addr : Nat
  w    : Nat
  op   : Nat
  v    : Word
  v2   : Word := 0
  sgn  : Bool := false
  qid  : Option Nat := none
  /-- Party count of a `bar`; 0 is no barrier's step. -/
  bar  : Nat := 0
  deriving DecidableEq, Repr

/-- A drawer access of one 64 B unit (R364). -/
structure DReq where
  id    : Nat
  /-- Drawer 0 or 1; 2 is near memory behind an open drawer access of its class. -/
  drawer : Nat
  unit  : Nat
  part  : Nat
  cls   : Nat
  /-- 0 read, 1 write, 2 atomic step. -/
  kind  : Nat
  who   : Nat
  die   : Nat
  val   : Nat := 0
  mask  : Nat := 0
  key   : Nat := 0
  /-- Granted in this slot, with the slots that remain until it performs. -/
  left  : Option Nat := none
  /-- Master cycles it has waited on a pair that is not up. -/
  stall : Nat := 0
  /-- The engine command, or the drained store (none). -/
  cmd   : Option Nat := none
  /-- The step of an `amo` or a `sig`. -/
  amo   : Option AmoOp := none
  /-- Bundle and slot number of the access, for its link trap (R367). -/
  pc    : Word := 0
  sl    : Nat := 0
  dropped : Bool := false
  done  : Bool := false
  order : Nat := 0
  deriving DecidableEq, Repr

/-- A link pair (R362, R363). -/
structure Pair where
  errc  : BitVec 16 := 0
  fail  : BitVec 4 := 0
  wakeq : BitVec 8 := 0x10
  parkidle : BitVec 4 := 0
  state : BitVec 3 := 0
  /-- The slot-phase counters of the package end and of the far end, less the link time of the package (R360). The far ends of a
  drawer's pairs count its rondel together, from 0 at the cold reset. -/
  phase : BitVec 32 := 0
  far   : BitVec 32 := 0
  /-- A `lnk.park` waits for the next slot boundary. -/
  parkReq : Bool := false
  /-- Master cycles in the present state. -/
  since : Nat := 0
  /-- Unanswered control attempts, flit errors in this rondel, idle rondels. -/
  tries : Nat := 0
  errs  : Nat := 0
  idle  : Nat := 0
  /-- Contexts that have recorded a stall in the present retrain (R366). -/
  stalled : List Nat := []
  deriving DecidableEq, Repr

/-- A microring of a modulator (R395). -/
structure MRing where
  heat : BitVec 12 := 0
  svc  : Bool := false
  wl   : BitVec 3 := 0
  mlo  : BitVec 12 := 0
  mhi  : BitVec 12 := 0
  mv   : Bool := false
  /-- Master cycle of the last write that changed HEAT. -/
  since : Nat := 0
  /-- The heater code that would centre the resonance on its wavelength, as it stands in this microsecond (R397, log 106). -/
  centre : BitVec 16 := 0
  deriving DecidableEq, Repr

/-- A control flit that waits for its acknowledgement (R374): the pair of its first path, or 128 while it waits until its port is
connected, its control sequence number, what it carries (1 a send's completion notice, 3 a request to send a flit again), port,
transfer sequence number and flit. -/
structure CtlFlit where
  path : Nat
  seq  : Nat
  kind : Nat
  port : Nat
  xseq : Nat
  flit : Nat := 0
  age  : Nat := 0
  tries : Nat := 0
  deriving DecidableEq, Repr

/-- A transfer that is arriving at a port (R372, R373): its flits that wait for an arm, those placed, the flit count its
notice gave, and the arm it fills. -/
structure Xfer where
  port  : Nat
  rq    : Nat
  seq   : Nat
  flits : List (Nat × BitVec 512) := []
  got   : List Nat := []
  notice : Option Nat := none
  arm   : Option Nat := none
  deriving DecidableEq, Repr

structure Fabric where
  pairs   : List (Nat × Pair) := []
  d0slot  : List (Nat × BitVec 12) := []
  d1slot  : List (Nat × BitVec 12) := []
  /-- Slot writes that wait for the drawer's slot 0: drawer, slot, value. -/
  slotw   : List (Nat × Nat × BitVec 12) := []
  stallto : BitVec 16 := 0x400
  ctlto   : BitVec 8 := 0x20
  lasercap : BitVec 8 := 0xFF
  laser   : BitVec 8 := 0
  pown    : List (Nat × BitVec 7) := []
  rings   : List (Nat × MRing) := []
  /-- Heater code applied and the ring that modulates, by modulator (R396, R398). -/
  heat    : List (Nat × BitVec 12) := []
  heatw   : List (Nat × Nat) := []
  attached : List (Nat × Bool) := []
  reqs    : List DReq := []
  swq     : List (Word × Word) := []
  swErr   : Bool := false
  swRun   : Bool := false
  swGd    : Bool := false
  swCur   : Nat := 0
  swN     : Nat := 0
  swT0    : BitVec 32 := 0
  swRef   : Nat := 0
  swArm   : Bool := false
  swStop  : Bool := false
  minper  : BitVec 16 := 0x20
  swslots : List (Nat × Word) := []
  swload  : List (Nat × Word) := []
  /-- Master cycles to the next pop, and flits used of each port's budget. -/
  swPop   : Nat := 0
  budget  : List (Nat × Nat) := []
  /-- Rondel slots begun, per drawer (R360). -/
  dslot   : List (Nat × Nat) := []
  /-- Arms of the receive queues, oldest first (R210). -/
  recvs   : List (Nat × List Nat) := []
  /-- Flits asked for again: port, transfer, flit (R372). Those of `again` go first in the slot that now connects their port. -/
  resends : List (Nat × Nat × Nat) := []
  again   : List (Nat × Nat × Nat) := []
  /-- The pair that carried each flit of an open send: port, transfer, flit, pair. -/
  carried : List (Nat × Nat × Nat × Nat) := []
  /-- What left for the peers, newest first: 0 a flit, 1 a notice, 2 an acknowledgement, 3 a request; port, transfer, flit,
  data. -/
  out     : List (Nat × Nat × Nat × Nat × BitVec 512) := []
  sendSeq : List (Nat × Nat) := []
  recvSeq : List (Nat × Nat) := []
  xfers   : List Xfer := []
  ctls    : List CtlFlit := []
  ctlSeen : List (Nat × Nat) := []
  /-- Modulators changing over: pair, lane group, and the link time of the write (R398). -/
  chg     : List (Nat × Nat × Nat) := []
  deriving DecidableEq, Repr

/-! ## The service die -/

/-- A command queue (R319, R322). -/
structure CmdQ where
  part  : Nat := 0
  opened : Bool := false
  base  : Nat := 0
  count : Nat := 0
  pi    : BitVec 32 := 0
  ci    : BitVec 32 := 0
  cbase : Nat := 0
  cpi   : BitVec 32 := 0
  cci   : BitVec 32 := 0
  /-- A doorbell held while a completion waits (R322). -/
  heldPi : Option (BitVec 32) := none
  store : List (BitVec 256) := []
  /-- OPC and LEN of the packet at CI once it has been handled, and its handler's `olk.rel` (R319). -/
  handled : Option (Nat × Nat) := none
  rel   : Bool := false
  /-- Task number of the launch at CI. -/
  task  : Word := 0
  /-- Next sequence number of the queue's events, and whether the packet at CI has raised its event. -/
  evSeq : BitVec 20 := 0
  posted : Bool := false
  /-- A CLOSEQ waits until CI equals PI. -/
  closing : Bool := false
  deriving DecidableEq, Repr

/-- One kernel of a loaded image (R275). -/
structure Kernel where
  sym    : Nat
  flags  : BitVec 32
  first  : Word
  nb     : Nat
  /-- Its bundles as placed, which never change (R287). -/
  code   : List (BitVec 512)
  subs   : List (Nat × List Byte)
  /-- Relocations of kind 4 that patch its layouts: entry, argument, addend. -/
  rel4   : List (Nat × Nat × Int)
  deriving DecidableEq, Repr

structure Image where
  id    : Nat
  part  : Nat
  size  : Nat
  kernels : List Kernel
  /-- Where its CODE, CONST and DATA stand: first byte and bytes. -/
  spans : List (Nat × Nat) := []
  unload : Bool := false
  deriving DecidableEq, Repr

/-- A saved context (R355): the parts of a snapshot that its layout does not give in bytes. -/
structure Snap where
  id   : Nat
  part : Nat
  addr : Nat
  place : Nat
  ctx  : Ctx
  win512 : Bool
  bind : BitVec 4
  /-- Engine commands of the instance that push no record, each by its number plus 1, and 0 once it is over (R357); and the drained
  stores of the instance still on their way (R256). -/
  quiet  : List Nat := []
  /-- Found by its bytes alone, whose header has BOUND set (R358). -/
  bnd    : Bool := false
  stores : List Nat := []
  /-- The context's rings, for their withheld credits and the firings not yet credited. -/
  rings : List (Nat × Ring) := []
  /-- The spliced program it runs, for a rebuild (R270). -/
  prog  : Option Spliced := none
  deriving DecidableEq, Repr

structure Service where
  /-- The event queue, oldest first (R317). -/
  events  : List Word := []
  hwSeq   : BitVec 20 := 0
  cmdWait : List Word := []
  /-- Launch completions that wait for the handling of their TASKDONE event: die 0's slot, or 1024 and its sequence number once it is
  popped; queue; record (R321). -/
  taskDone : List (Nat × Nat × BitVec 256) := []
  /-- TASKDONE events popped and not yet released: sequence number and slot. -/
  handling : List (Nat × Nat) := []
  locks   : List (Nat × BitVec 20 × Option Nat) := []
  keys    : List (Nat × BitVec 512 × Nat) := []
  stage   : List (Nat × Word) := []
  queues  : List (Nat × CmdQ) := []
  images  : List Image := []
  taskno  : Word := 0
  snaps   : List Snap := []
  steps   : List (Nat × Word) := []
  bst     : BitVec 2 := 0
  boots   : BitVec 8 := 0
  svn     : BitVec 32 := 0
  leaf    : Nat := 0
  /-- The firmware image's digest, bundles and layout table (R314). -/
  fwHash  : BitVec 256 := 0
  fwCode  : List (BitVec 512) := []
  fwLay   : List (Nat × BitVec 512) := []
  /-- Firmware memory window: near offset and size (R402). -/
  winOff  : Nat := 0
  winSize : Nat := 0
  /-- Master clock step of 1.6 GHz (R390). -/
  slow    : Bool := false
  /-- Host ports that bring-up left up (R390). -/
  ports   : BitVec 8 := 0
  sessions : List (Nat × Bool) := []
  /-- Outbound packet tokens per host port, and when each port's last one arose (R315). -/
  tokens  : List (Nat × Nat) := []
  tokAt   : List (Nat × Nat) := []
  /-- Firmware's packets that wait for a token: port, address and bytes, oldest first. -/
  hostWait : List (Nat × Nat × List Byte) := []
  /-- Bytes the host port has sent, newest first. -/
  hostOut : List (Nat × Nat × List Byte) := []
  deriving DecidableEq, Repr

/-! ## The whole machine -/

/-- What the machine does next (log 3): an operation of a slot issues, an event of the table happens, a context
dispatches, time advances, or a translation cache changes. -/
inductive Move
  | tick
  | dispatch (who : Nat)
  | issue (who : Nat) (sl : Slot)
  | event (i : Instr)
  /-- A core fills one translation from its partition's tables, or forgets one (R346). -/
  | fill (core part va : Nat)
  | evict (core va : Nat)
  deriving DecidableEq, Repr

/-- The operation that is issuing: its context, slot and queue entry. -/
structure Cur where
  who  : Nat := 0
  slot : Slot := .s
  ent  : Ent := {}
  /-- It cannot be undone, and its guard is true (R39). -/
  irrev : Bool := false
  deriving DecidableEq, Repr

structure State where
  mem   : Memory := []
  /-- The key each 64 B unit was last written under (R387): 0 the root of trust's, k + 1 key-slot content k. -/
  keyed : List (Nat × Nat) := []
  /-- Units with an uncorrectable error (R37, R204). -/
  bad   : List Nat := []
  ctxs  : List (Nat × Ctx) := []
  cores : List (Nat × Core) := []
  rows  : List (Nat × Row) := []
  dies  : List (Nat × Die) := []
  parts : List (Nat × Part) := []
  cmds  : List ECmdRec := []
  fab   : Fabric := {}
  svc   : Service := {}
  /-- Cached translations: core, partition, page (R346). -/
  tlb   : List (Nat × Nat × Page) := []
  /-- The moves to come; with none, a step is one master cycle in the default order (log 3). -/
  sched : List Move := []
  cur   : Cur := {}
  /-- Register writes that take effect for their place from the next tick of their issuer (R301): issuing context, SRN, value. -/
  regw  : List (Nat × Nat × Word) := []
  /-- Free values drawn so far (log 6). -/
  fresh : Nat := 0
  /-- Identifiers given so far. -/
  ids   : Nat := 0
  /-- Master cycles since the cold reset. -/
  cyc   : Nat := 0
  deriving DecidableEq, Repr

/-- The outcome of a step. -/
abbrev Out := Host.Outcome State Fault Refusal

/-- Bring-up steps with OPT or ALT fixed at 1 (R390): every step from 1 to 4 and 6 has an alternate path, 8 to 10 are
optional. -/
def resetSteps : List (Nat × Word) :=
  [(1, 0x200), (2, 0x200), (3, 0x200), (4, 0x200), (6, 0x200), (8, 0x100), (9, 0x100), (10, 0x100)]

/-- Everything right after reset, before bring-up (R7). -/
def State.reset : State := { svc := { steps := resetSteps } }

end Sys2Proof.Machine
end

