-- ==== Sys2Proof/Machine/Ops.lean ====
section
/-! DEFINITION. The named operations over the state: places, memory, registers, rings, results in flight, checkpoints,
traps and events. Every instruction's meaning is written over these. -/

namespace Sys2Proof.Machine

/-! ## Places (R1, R21, R40) -/

/-- A context is core times 4 plus its number; firmware core n is context 1024 + n. -/
def isFw (who : Nat) : Bool := decide (1024 ≤ who)
def coreOf (who : Nat) : Nat := if isFw who then 256 + (who - 1024) else who / 4
def ctxOf (who : Nat) : Nat := if isFw who then 0 else who % 4
/-- Rows are numbered through the package: die times 4 plus row. -/
def rowOf (core : Nat) : Nat := core / 16
def rankOf (core : Nat) : Nat := core % 16
def dieOf (core : Nat) : Nat := core / 64
def dieOfWho (who : Nat) : Nat := dieOf (coreOf who)
/-- The place fields of an SRN (R293). -/
def srnPlace (who : Nat) : Nat :=
  let c := coreOf who
  dieOf c * 2 ^ 22 + (rowOf c % 4) * 2 ^ 20 + rankOf c * 2 ^ 16 + ctxOf who * 2 ^ 14

/-! ## Access to the parts of the state -/

def State.ctx (s : State) (w : Nat) : Ctx := aget {} s.ctxs w
def State.core (s : State) (c : Nat) : Core := aget {} s.cores c
def State.row (s : State) (r : Nat) : Row := aget {} s.rows r
def State.die (s : State) (d : Nat) : Die := aget {} s.dies d
def State.part (s : State) (p : Nat) : Part := aget {} s.parts p
def State.pair (s : State) (p : Nat) : Pair := aget {} s.fab.pairs p
def State.queue (s : State) (q : Nat) : CmdQ := aget {} s.svc.queues q

def State.setCtx (s : State) (w : Nat) (c : Ctx) : State := { s with ctxs := aset s.ctxs w c }
def State.setCore (s : State) (n : Nat) (c : Core) : State := { s with cores := aset s.cores n c }
def State.setRow (s : State) (n : Nat) (r : Row) : State := { s with rows := aset s.rows n r }
def State.setDie (s : State) (n : Nat) (d : Die) : State := { s with dies := aset s.dies n d }
def State.setPart (s : State) (n : Nat) (p : Part) : State := { s with parts := aset s.parts n p }
def State.setPair (s : State) (n : Nat) (p : Pair) : State := { s with fab := { s.fab with pairs := aset s.fab.pairs n p } }
def State.setQueue (s : State) (n : Nat) (q : CmdQ) : State := { s with svc := { s.svc with queues := aset s.svc.queues n q } }
def State.modCtx (s : State) (w : Nat) (f : Ctx → Ctx) : State := s.setCtx w (f (s.ctx w))
def State.modCore (s : State) (n : Nat) (f : Core → Core) : State := s.setCore n (f (s.core n))
def State.modDie (s : State) (n : Nat) (f : Die → Die) : State := s.setDie n (f (s.die n))
def State.modPair (s : State) (n : Nat) (f : Pair → Pair) : State := s.setPair n (f (s.pair n))

/-- The context of the operation that issues. -/
def State.me (s : State) : Ctx := s.ctx s.cur.who
def State.modMe (s : State) (f : Ctx → Ctx) : State := s.modCtx s.cur.who f
/-- The partition of a context's instance; 48 stands for none. -/
def State.partOf (s : State) (who : Nat) : Nat :=
  match (s.ctx who).inst with
  | some i => i.part
  | none => 48

/-- Draws a free value of width `w` (log 6). -/
def State.draw (s : State) (w : Nat) : BitVec w × State :=
  ((Config.freeBits s.fresh).setWidth w, { s with fresh := s.fresh + 1 })
/-- Gives a new identifier. -/
def State.newId (s : State) : Nat × State := (s.ids, { s with ids := s.ids + 1 })

/-! ## The flat address space (log 16) -/

def nearSize : Nat := 192 * 2 ^ 30
def drawerBase (d : Nat) : Nat := (d + 1) * 2 ^ 44
def localBase : Nat := 2 ^ 46
def regBase (core : Nat) : Nat := localBase + core * 2 ^ 20
def wBase (core : Nat) : Nat := localBase + 2 ^ 32 + core * 2 ^ 22
def aBase (core : Nat) : Nat := localBase + 2 * 2 ^ 32 + core * 2 ^ 22
def cBase (core : Nat) : Nat := localBase + 3 * 2 ^ 32 + core * 2 ^ 22
def fBase (die : Nat) : Nat := localBase + 4 * 2 ^ 32 + die * 2 ^ 23
def spillBase (who : Nat) : Nat := localBase + 5 * 2 ^ 32 + who * 2 ^ 14
/-- A physical address as a flat one: tier 0 near, 1 and 2 the drawers (R342). -/
def physFlat (tier off : Nat) : Nat := if tier = 0 then off else drawerBase (tier - 1) + off
/-- The drawer an address lies in. -/
def drawerOf (a : Nat) : Option Nat :=
  if a < 2 ^ 44 then none else if a < 2 * 2 ^ 44 then some 0 else if a < localBase then some 1 else none

/-! ## Memory -/

/-- The byte at an address; an unlisted byte reads 0 (log 2). -/
def Memory.byte : Memory → Nat → Byte
  | [], _ => 0
  | (a, b) :: r, n => if a = n then b else Memory.byte r n
/-- `n` bytes from `a`, little-endian (R2). -/
def Memory.read (m : Memory) (a n : Nat) : Nat :=
  m.foldr (fun c acc => if a ≤ c.1 ∧ c.1 < a + n then acc + c.2.toNat * 2 ^ (8 * (c.1 - a)) else acc) 0
/-- The non-zero bytes of a value from an address up. -/
def cellsOf (a : Nat) : Nat → Nat → List Host.Cell
  | 0, _ => []
  | n + 1, v =>
    let r := cellsOf (a + 1) n (v / 256)
    if v % 256 = 0 then r else (a, BitVec.ofNat 8 v) :: r
/-- Writes `n` bytes at `a`. -/
def Memory.write (m : Memory) (a n v : Nat) : Memory :=
  m.filter (fun c => decide (c.1 < a)) ++ cellsOf a n v ++ m.filter (fun c => decide (a + n ≤ c.1))
/-- Writes the bits that `bm` marks among `n` bytes at `a`. -/
def Memory.writeMask (m : Memory) (a n v bm : Nat) : Memory :=
  let old := m.read a n
  m.write a n ((v &&& bm) ||| (old &&& (bm ^^^ (2 ^ (8 * n) - 1))))

def ones (n : Nat) : Nat := 2 ^ n - 1
/-- Whether an address lies in memory that is encrypted (R387). -/
def keyedAddr (a : Nat) : Bool := decide (a < localBase)

/-! ## Task records in the firmware window (R333, R402) -/

/-- A task record of 256 bits. -/
def Task.record (t : Task) : Nat :=
  (t.taskno.toNat <<< 192) + (t.quant.toNat <<< 160) + (Nat.min t.nfault (2 ^ 32 - 1) <<< 128) + (t.part % 64) * 2 ^ 116 +
  (t.prio % 8) * 2 ^ 113 + (t.deps.length % 512) * 2 ^ 104 + (t.splr % 16) * 2 ^ 100 + (t.state % 16) * 2 ^ 92 +
  Nat.min t.left (2 ^ 64 - 1)
/-- What firmware's store of the marked bits changes: QUANT, PRIO, and ACT of a held task (R340). -/
def Task.store (t : Task) (v bm : Nat) : Task :=
  let put (old lo w : Nat) : Nat := (natBits v lo w &&& natBits bm lo w) ||| (old &&& (natBits bm lo w ^^^ ones w))
  { t with quant := BitVec.ofNat 32 (put t.quant.toNat 160 32), prio := put t.prio 113 3,
           act := let a := natBits v 98 2 &&& natBits bm 98 2; if t.state = 5 ∧ (a = 1 ∨ a = 2) then a else t.act }
/-- Die and first slot of the two records in a unit of the window's record area. -/
def State.taskUnit (s : State) (u : Nat) : Option (Nat × Nat) :=
  let a := s.svc.winOff + 0x100000
  if s.svc.winSize = 0 ∨ u * 64 < a ∨ a + 0x8000 ≤ u * 64 then none else some ((u * 64 - a) / 0x2000, (u * 64 - a) % 0x2000 / 32)
/-- A task record; in a slot that no task has entered, TASKNO, QUANT, PART, PRIO and LEFT, for which R333 shows no reset value, read 0
(the model's choice, log 1). -/
def State.taskAt (s : State) (die slot : Nat) : Task := aget {} (aget ({} : Die) s.dies die).tasks slot
/-- Stores into the two records of a unit. -/
def State.storeTasks (s : State) (die slot v bm : Nat) : State :=
  let d := aget ({} : Die) s.dies die
  let l := aset d.tasks slot ((aget {} d.tasks slot).store (v % 2 ^ 256) (bm % 2 ^ 256))
  { s with dies := aset s.dies die { d with tasks := aset l (slot + 1) ((aget {} l (slot + 1)).store (v >>> 256) (bm >>> 256)) } }

/-- A unit as it reads under a key: decrypted with it from what another key encrypted, when it was last written under that (R387,
log 7). -/
def State.unitUnder (s : State) (key u : Nat) : Nat :=
  let v := s.mem.read (u * 64) 64
  if !keyedAddr (u * 64) then v
  else if let some (d, k) := s.taskUnit u then (s.taskAt d k).record + (s.taskAt d (k + 1)).record * 2 ^ 256
  else
    match s.keyed.find? (fun r => r.1 == u) with
    | none => v
    | some (_, k) => if k = key then v else readUnder k key u v
/-- Writes the marked bits of a unit under a key. -/
def State.writeUnit (s : State) (key u v bm : Nat) : State :=
  if !keyedAddr (u * 64) then { s with mem := s.mem.writeMask (u * 64) 64 v bm }
  else if let some (d, k) := s.taskUnit u then s.storeTasks d k v bm
  else
    let old := s.unitUnder key u
    { s with mem := s.mem.write (u * 64) 64 ((v &&& bm) ||| (old &&& (bm ^^^ ones 512))), keyed := aset s.keyed u key }
/-- Bytes of a local space, which carries no key. -/
def State.bytes (s : State) (a n : Nat) : Nat := s.mem.read a n
def State.putBytes (s : State) (a n v : Nat) : State := { s with mem := s.mem.write a n v }
def State.putMask (s : State) (a n v bm : Nat) : State := { s with mem := s.mem.writeMask a n v bm }
/-- Packs elements of width `w`, element 0 lowest. -/
def packElems (w : Nat) : List Nat → Nat
  | [] => 0
  | x :: r => x % 2 ^ w + packElems w r * 2 ^ w
/-- Banks of the local buffer that a flat address lies in (R54). -/
def banksAt (p : Nat) : Nat :=
  let r := (p - localBase) / 2 ^ 32
  if r = 3 then 8 else if r = 4 then 32 else 16
/-- The place of a byte of a local buffer under a bank permutation (R60). Each buffer begins on a row whose number is a multiple
of every period of the permutation, so flat addresses permute as offsets do. -/
def bankPlace (swz p : Nat) : Nat :=
  if swz = 0 then p
  else
    let b := banksAt p
    let w := (p - localBase) / 64
    let row := w / b
    localBase + (row * b + (w % b ^^^ row / 2 ^ (swz - 1) % b)) * 64 + p % 64
/-- Bytes that an element touches. -/
def Elem.bytes (e : Elem) : Nat := (e.addr % 8 + e.w + 7) / 8
/-- Place of byte `i` of an element of a local space; its key is its entry's bank selector. -/
def Elem.place (e : Elem) (i : Nat) : Nat := bankPlace e.key (e.addr / 8 + i)
/-- Units that an element lies in. -/
def Elem.units (e : Elem) : List Nat :=
  if keyedAddr (e.addr / 8) then [e.addr / 512] else ((List.range e.bytes).map fun i => e.place i / 64).eraseDups
/-- An element lies in a unit with an uncorrectable error. -/
def State.spoilt (s : State) (e : Elem) : Bool := e.units.any s.bad.contains
/-- Units that no key has written are, from now on, under the key that reads them first (R387, log 7). -/
def State.claim (s : State) (l : List Elem) : State :=
  let own (k : List (Nat × Nat)) (u key : Nat) : List (Nat × Nat) :=
    if k.any (fun r => r.1 == u) || (s.taskUnit u).isSome then k else aset k u key
  { s with keyed := l.foldl (fun k e => if keyedAddr (e.addr / 8) then own k (e.addr / 512) e.key else k) s.keyed }
/-- An element by bit address: inside one unit of encrypted memory, or the bytes of a local space at their places. -/
def State.elem (s : State) (e : Elem) : Nat :=
  if keyedAddr (e.addr / 8) then (s.unitUnder e.key (e.addr / 512) >>> (e.addr % 512)) % 2 ^ e.w
  else (packElems 8 ((List.range e.bytes).map fun i => (s.mem.byte (e.place i)).toNat) >>> (e.addr % 8)) % 2 ^ e.w
def State.putElem (s : State) (e : Elem) (v : Nat) : State :=
  if keyedAddr (e.addr / 8) then
    s.writeUnit e.key (e.addr / 512) ((v % 2 ^ e.w) <<< (e.addr % 512)) (ones e.w <<< (e.addr % 512))
  else
    (List.range e.bytes).foldl (fun s i =>
      s.putMask (e.place i) 1 (((v % 2 ^ e.w) <<< (e.addr % 8)) >>> (8 * i) % 256) ((ones e.w <<< (e.addr % 8)) >>> (8 * i) % 256)) s

/-! ## Registers of a context (R45) -/

def Ctl.sget (c : Ctl) (n : Nat) : Word := if n = 0 then 0 else aget 0 c.s n
def Ctl.sset (c : Ctl) (n : Nat) (v : Word) : Ctl := if n = 0 then c else { c with s := aset c.s n v }
def Ctl.pget (c : Ctl) (n : Nat) : Bool := if n = 0 then true else aget false c.p n
def Ctl.pset (c : Ctl) (n : Nat) (v : Bool) : Ctl := if n = 0 then c else { c with p := aset c.p n v }
def Ctl.mget (c : Ctl) (n : Nat) : BitVec 1024 := aget 0 c.m n
def Ctl.mset (c : Ctl) (n : Nat) (v : BitVec 1024) : Ctl := { c with m := aset c.m n v }
/-- Sets flags of FSTAT; hardware never clears one (R80). -/
def Ctl.flag (c : Ctl) (f : BitVec 7) : Ctl := { c with fstat := c.fstat ||| f }
/-- Whether an operation with this guard performs (R92). -/
def Ctl.guard (c : Ctl) (g : Guard) : Bool := if g.pg = 0 then true else (c.pget g.pg.toNat).xor g.pn

def State.sreg (s : State) (n : BitVec 6) : Word := s.me.ctl.sget n.toNat
def State.guard (s : State) (g : Guard) : Bool := s.me.ctl.guard g
def State.setFlags (s : State) (f : BitVec 7) : State := s.modMe fun c => { c with ctl := c.ctl.flag f }

/-! ## Views and names (R41, R42, R44, R47, R91, R176) -/

/-- The four views. -/
inductive View | v | w | t | a
  deriving DecidableEq, Repr
/-- Bytes of a name. -/
def View.size : View → Nat | .v => 512 | .w => 1024 | .t => 2048 | .a => 4096
def Ent.view (e : Ent) : View → BitVec 32 | .v => e.vv | .w => e.vw | .t => e.vt | .a => e.va
def viewCount (r : BitVec 32) : Nat := natBits r.toNat 10 11
def viewBase (r : BitVec 32) : Nat := natBits r.toNat 0 10
/-- Window size of a context: 64 KiB on a firmware core (R40, R314). -/
def State.winSize (s : State) (who : Nat) : Nat :=
  if isFw who then 65536 else if (s.core (coreOf who)).two then 0x80000 else 0x40000
/-- Flat address of a context's window. -/
def State.winBase (s : State) (who : Nat) : Nat := regBase (coreOf who) + (if isFw who then 0 else ctxOf who * s.winSize who)
/-- A view setting is legal in a window (R42). -/
def viewOk (z window : Nat) (r : BitVec 32) : Bool :=
  decide ((viewBase r * 512) % z = 0) && decide (1 ≤ viewCount r) && decide (viewCount r ≤ 1024) &&
  decide (viewBase r * 512 + viewCount r * z ≤ window)
/-- Number of the member `u` of a group that starts at field `f`; `none` is a name beyond COUNT (R44, R176). -/
def Ent.name (e : Ent) (vw : View) (f : BitVec 11) (u : Nat) : Option Nat :=
  let n := viewCount (e.view vw)
  if f.getLsbD 10 then
    if n = 0 then none
    else some (((f.extractLsb' 0 7).toNat + u + (aget 0 e.ib (f.extractLsb' 7 3).toNat).toNat) % n)
  else
    let k := (f.extractLsb' 0 10).toNat + u
    if k < n then some k else none
/-- Window offset of a name's first byte. -/
def Ent.off (e : Ent) (vw : View) (f : BitVec 11) (u : Nat := 0) : Nat :=
  viewBase (e.view vw) * 512 + (e.name vw f u).getD 0 * vw.size

/-- A register operand of the operation that issues, as one little-endian number. -/
def State.vreg (s : State) (vw : View) (f : BitVec 11) (u : Nat := 0) : Nat :=
  s.bytes (s.winBase s.cur.who + s.cur.ent.off vw f u) vw.size

/-- Element `i` of width `w` of a register. -/
def elemAt (x w i : Nat) : Nat := (x >>> (i * w)) % 2 ^ w
/-- The elements of a register. -/
def elemsOf (w n x : Nat) : List Nat := (List.range n).map (elemAt x w)

/-! ## Results in flight (R31, R38, R115) -/

/-- Whether two writes share a register or a byte. -/
def destMeets (d : Dest) (n : Nat) (e : Dest) (k : Nat) : Bool :=
  match d, e with
  | .win a, .win b => decide (a < b + k) && decide (b < a + n)
  | d, e => d == e
/-- A register whose writes are discarded without a flag (R45). -/
def Dest.discarded : Dest → Bool
  | .scalar 0 | .pred 0 => true
  | _ => false
/-- Another slot of the same group writes the place too: FLT.WAWP is set (R29, R143). -/
def Ctx.twoWriters (c : Ctx) (slot grp : Nat) (d : Dest) (n : Nat) : Bool :=
  !d.discarded &&
  (c.fly.any (fun f => f.slot.num != slot && f.grp == grp && destMeets f.dst f.size d n) ||
   c.landed.any (fun f => f.slot != slot && f.grp == grp && destMeets f.dst f.size d n))
/-- A result enters flight. -/
def Ctx.launch (c : Ctx) (f : Fly) : Ctx :=
  { c with flt := { c.flt with wawp := c.flt.wawp || c.twoWriters f.slot.num f.grp f.dst f.size }, fly := c.fly ++ [f] }

/-- Bits of a result that a higher slot of its group has already written (R29). -/
def Ctx.covered (c : Ctx) (f : Fly) : Nat :=
  c.landed.foldl (fun a l =>
    if l.slot ≤ f.slot.num ∨ l.grp ≠ f.grp then a
    else
      match l.dst, f.dst with
      | .win x, .win y => a ||| (if y ≤ x then l.bm <<< (8 * (x - y)) else l.bm >>> (8 * (y - x)))
      | x, y => if x = y then a ||| l.bm else a) 0
/-- Puts a result in flight. -/
def State.post (s : State) (left : Nat) (dst : Dest) (val : Nat) (bm : Nat := 0) (size : Nat := 0) : State :=
  let (id, s) := s.newId
  let e := s.cur.ent
  let f : Fly := { id := id, left := left, dst := dst, val := val, bm := bm, size := size, seq := e.seq, grp := e.grp, pc := e.pc,
                   slot := s.cur.slot }
  s.modMe fun c => c.launch f
def State.postS (s : State) (left : Nat) (d : BitVec 6) (v : Word) : State := s.post left (.scalar d.toNat) v.toNat
def State.postP (s : State) (left : Nat) (p : BitVec 4) (b : Bool) : State := s.post left (.pred p.toNat) b.toNat
/-- The marked bits of a lane mask. -/
def State.postM (s : State) (left : Nat) (m : BitVec 3) (v bm : Nat) : State := s.post left (.mask m.toNat) v bm
/-- An operation without a register result completes when its latency has passed. -/
def State.pace (s : State) (n : Nat) : State := s.post n (.win 0) 0
/-- A whole register. -/
def State.postV (s : State) (left : Nat) (vw : View) (f : BitVec 11) (val : Nat) (u : Nat := 0) : State :=
  s.post left (.win (s.cur.ent.off vw f u)) val (ones (8 * vw.size)) vw.size
/-- The marked bits of a register. -/
def State.postVM (s : State) (left : Nat) (vw : View) (f : BitVec 11) (val bm : Nat) : State :=
  s.post left (.win (s.cur.ent.off vw f)) val bm vw.size

/-! ## Slot queues -/

def Ctx.q (c : Ctx) (sl : Slot) : List Ent := aget [] c.queues sl.num
def Ctx.setQ (c : Ctx) (sl : Slot) (l : List Ent) : Ctx := { c with queues := aset c.queues sl.num l }
/-- Puts the operation back at the head of its queue: it has not issued. -/
def State.unissue (s : State) : State :=
  s.modMe fun c => { c.setQ s.cur.slot (s.cur.ent :: c.q s.cur.slot) with acted := c.acted - s.cur.irrev.toNat }
/-- A context that can be primary or secondary (R21, R23). -/
def State.ready (s : State) (who : Nat) : Bool :=
  let c := s.ctx who
  c.inst.isSome && c.blk.isNone && !c.susp
/-- The contexts of a core in round-robin order from a number up. -/
def roundFrom (n : Nat) : List Nat := (List.range 4).map fun i => (n + i) % 4
/-- A context that keeps its turn: it is ready, or its dispenser has its next instance (R23). -/
def State.keepsTurn (s : State) (who : Nat) : Bool := s.ready who || (s.ctx who).due
/-- A primary, and the secondary beside it: the one it had, or the next ready context in round-robin order (R23). -/
def State.seat (s : State) (core : Nat) (prim : Option Nat) : State :=
  let k := s.core core
  let ok (n : Nat) : Bool := s.ready (core * 4 + n)
  let sec := prim.bind fun p =>
    match k.sec.filter fun n => s.keepsTurn (core * 4 + n) && n != p with
    | some n => some n
    | none => (roundFrom ((p + 1) % 4)).find? fun n => ok n && n != p
  s.setCore core { k with prim := prim, sec := sec, last := if prim.isSome then prim else k.last }
/-- The context switch of R23: a primary that is not ready gives way to the secondary, and the next ready context in
round-robin order is secondary. -/
def State.elect (s : State) (core : Nat) : State :=
  if 256 ≤ core then s
  else
    let k := s.core core
    let keep (o : Option Nat) : Option Nat := o.filter fun n => s.keepsTurn (core * 4 + n)
    s.seat core ((keep k.prim).or (keep k.sec))
/-- At the end of a tick in which no context was primary, the first ready one in round-robin order becomes it, from the context
that was primary last (R23). -/
def State.electEnd (s : State) (core : Nat) : State :=
  if (s.core core).prim.isSome || 256 ≤ core then s.elect core
  else s.seat core ((roundFrom ((s.core core).last.getD 0)).find? fun n => s.ready (core * 4 + n))
/-- The operation blocks its context (R23). -/
def State.block (s : State) (b : Blk) : State :=
  ((s.unissue).modMe fun c => { c with blk := some b, blkSl := s.cur.slot.num }).elect (coreOf s.cur.who)
/-- Every unissued operation of a context. -/
def Ctx.waiting (c : Ctx) : List Ent := (allSlots.map c.q).flatten

/-! ## Result queues (R49, R50) -/

def Ctx.rqGet (c : Ctx) (q : Nat) : List QEnt := aget [] c.rq q
def Ctx.rqSet (c : Ctx) (q : Nat) (l : List QEnt) : Ctx := { c with rq := aset c.rq q l }
/-- Room for one more producer. -/
def Ctx.rqRoom (c : Ctx) (q : Nat) : Bool := decide ((c.rqGet q).length < 16)
/-- Appends a producer's entry. -/
def Ctx.rqPush (c : Ctx) (q : Nat) (e : QEnt) : Ctx := c.rqSet q (c.rqGet q ++ [e])
/-- Marks a pending entry arrived with its data. -/
def arrive (id data : Nat) (l : List QEnt) : List QEnt :=
  l.map fun e => if e.id = id then { e with arrived := true, left := 0, data := data } else e
/-- The oldest entry, when it has arrived, with the rest. -/
def Ctx.rqHead (c : Ctx) (q : Nat) : Option QEnt :=
  match c.rqGet q with
  | e :: _ => if e.arrived then some e else none
  | [] => none
/-- Removes the oldest entry and keeps it for a rollback. -/
def Ctx.rqPop (c : Ctx) (q : Nat) : Ctx :=
  match c.rqGet q with
  | e :: r => { c.rqSet q r with popped := (q, e) :: c.popped }
  | [] => c

/-- A record reaches its pending entry, in the context or in the snapshot that holds it (R357). -/
def Ctx.gotRecord (c : Ctx) (q id data : Nat) : Ctx := c.rqSet q (arrive id data (c.rqGet q))

/-! ## Rings (R63 to R66) -/

def bufSize : Nat → Nat | 0 => 3 * 2 ^ 20 | 1 => 3 * 2 ^ 19 | 2 => 2 ^ 20 | _ => 2 ^ 23
/-- Flat address of a buffer of a core: 0 W, 1 A, 2 C, 3 F. -/
def bufBase (buf core : Nat) : Nat :=
  match buf with
  | 0 => wBase core | 1 => aBase core | 2 => cBase core | _ => fBase (dieOf core)
def Core.ring (c : Core) (n : Nat) : Ring := aget {} c.rings n
def Core.setRing (c : Core) (n : Nat) (r : Ring) : Core := { c with rings := aset c.rings n r }
def State.ring (s : State) (core n : Nat) : Ring := (s.core core).ring n
def State.modRing (s : State) (core n : Nat) (f : Ring → Ring) : State := s.modCore core fun c => c.setRing n (f (c.ring n))
def Ring.slotSize (r : Ring) : Nat := 64 * 2 ^ r.slotlog
def Ring.count (r : Ring) : Nat := r.countm1 + 1
/-- A legal shape (R63). -/
def Ring.shapeOk (r : Ring) : Bool :=
  decide (r.slotlog ≤ 10) && decide (1 ≤ r.countm1) && decide ((r.base * 64) % Nat.min r.slotSize 4096 = 0) &&
  decide (r.base * 64 + r.slotSize * r.count ≤ bufSize r.buf)
/-- Flat address of slot `j` (R64). -/
def ringSlot (core : Nat) (r : Ring) (j : Nat) : Nat := bufBase r.buf core + r.base * 64 + (j % r.count) * r.slotSize
/-- A credit may be published; or is withheld under R32. -/
def Owed.ready (o : Owed) : Bool := o.done && !o.own && !o.wait && o.saved.isNone && o.readers.isEmpty
def Owed.withheld (o : Owed) : Bool := o.done && (o.own || o.wait) && o.readers.isEmpty
/-- The withheld credits, as RINGST shows them. -/
def Ring.wfree (r : Ring) : Nat := r.pops.countP Owed.withheld
def Ring.wfill (r : Ring) : Nat := r.pushes.countP Owed.withheld
/-- What a read of the ring's state sees from the next tick on (R66). -/
def Ring.counts (r : Ring) : Counts :=
  { free := r.free, filled := r.filled, tail := r.tail, head := r.head, wfree := r.wfree, wfill := r.wfill, exf := r.exf.isSome }
/-- Some firing of the ring is in flight (R63), or a slot that it popped is still read by a peer. -/
def Ring.busy (r : Ring) : Bool := (r.pops.any fun o => !o.done || !o.readers.isEmpty) || r.pushes.any fun o => !o.done
/-- Credits reach the counters in the order of the firings, so that the slots counted are the ones at HEAD and TAIL that nothing
writes or reads any more (R68, log 109). -/
def Ring.settle (r : Ring) : Ring :=
  { r with free := r.free + (r.pops.takeWhile Owed.ready).length, pops := r.pops.dropWhile Owed.ready,
           filled := r.filled + (r.pushes.takeWhile Owed.ready).length, pushes := r.pushes.dropWhile Owed.ready }
/-- The peer reads of a slot in progress. -/
def Ring.readersOf (r : Ring) (slot : Nat) : List Nat := (r.peers.filter fun p => p.2.contains (slot % r.count)).map (·.1)
/-- A firing that pops `n` slots. `own` marks a firing of a context, which a rollback undoes; `id` names an engine command. -/
def Ring.pop (r : Ring) (n : Nat) (own : Bool) (id : Nat := 0) : Ring :=
  { r with filled := r.filled - n, head := (r.head + n) % r.count, tPop := r.tPop + n,
           pops := r.pops ++ (List.range n).map fun j => { id := id, own := own, readers := r.readersOf (r.head + j) } }
/-- A firing that pushes one slot. -/
def Ring.push (r : Ring) (own : Bool) (id : Nat := 0) : Ring :=
  { r with free := r.free - 1, tail := (r.tail + 1) % r.count, tPush := r.tPush + 1, pushes := r.pushes ++ [{ id := id, own := own }] }
/-- The first `n` slots of one firing are done with. -/
def finished (own : Bool) (id : Nat) : Nat → List Owed → List Owed
  | 0, l => l
  | _, [] => []
  | n + 1, o :: r => if !o.done && o.own == own && o.id == id then { o with done := true } :: finished own id n r
                     else o :: finished own id (n + 1) r
/-- A firing completes: its credits are withheld where it is a context's own, and else counted from the next tick on. -/
def Ring.credit (r : Ring) (pops pushes : Nat) (own : Bool) (id : Nat := 0) : Ring :=
  Ring.settle { r with pops := finished own id pops r.pops, pushes := finished own id pushes r.pushes }
/-- A peer read of a ring ends: the free credits that waited for it alone arise (R186). -/
def Ring.endPeer (r : Ring) (id : Nat) : Ring :=
  let pops := r.pops.map fun o => { o with readers := o.readers.filter (· != id) }
  Ring.settle { r with peers := r.peers.filter (fun p => p.1 != id), pops := pops }
/-- A reservation of an `exf` on a ring, and its two resolutions: the slot is pushed, or returned, the latest that the ring has given
(R208). -/
def Ring.reserve (r : Ring) (id : Nat) : Ring := { r.push false id with exf := some id }
def Ring.land (r : Ring) (id : Nat) : Ring := { r.credit 0 1 false id with exf := none }
def Ring.unreserve (r : Ring) : Ring :=
  { r with tail := (r.tail + r.countm1) % r.count, pushes := r.pushes.dropLast, free := r.free + 1, exf := none }
/-- Clears EN; PEND stays until the firings in flight have completed (R63). -/
def Ring.clear (r : Ring) : Ring := { r with en := false, pend := true }
/-- What a rollback gives back (R66): the owning context's firings since the checkpoint are the latest in each direction (R67). -/
def Ring.undo (r : Ring) : Ring :=
  let p := r.pops.countP (·.own)
  let q := r.pushes.countP (·.own)
  { r with filled := r.filled + p, head := (r.head + r.count * p - p) % r.count, free := r.free + q,
           tail := (r.tail + r.count * q - q) % r.count, pops := r.pops.filter fun o => !o.own, pushes := r.pushes.filter fun o => !o.own }
/-- What a checkpoint release publishes (R33, R66); where a store of the span to a local space still waits, its credits wait
with it (R68). -/
def Ring.publish (r : Ring) (wait : Bool) : Ring :=
  let out (o : Owed) : Owed := { o with own := false, wait := o.wait || (o.own && wait) }
  Ring.settle { r with pops := r.pops.map out, pushes := r.pushes.map out }
/-- The stores that released credits waited for have performed. -/
def Ring.publishLate (r : Ring) : Ring :=
  let out (l : List Owed) : List Owed := l.map fun o => { o with wait := false }
  Ring.settle { r with pops := out r.pops, pushes := out r.pushes }
/-- End of a tick (R66). -/
def Ring.endTick (r : Ring) : Ring := { r with tPop := 0, tPush := 0, old := r.counts }
/-- A firing may pop `n` slots, or push one: the start-of-tick counts less the takes ahead of it suffice, the ring is enabled
(R63), and no unresolved `exf` reservation stands ahead (R65, R66, R208). -/
def Ring.canPop (r : Ring) (n : Nat) : Bool := r.en && decide (n + r.tPop ≤ r.old.filled)
def Ring.canPush (r : Ring) : Bool := r.en && decide (1 + r.tPush ≤ r.old.free) && !r.old.exf && r.exf.isNone
/-- The rings' credits of a completed firing (R65, R66). -/
def State.creditM (s : State) (m : MOp) : State :=
  m.rings.foldl (fun s r => s.modRing r.1 r.2.1 fun q => q.credit r.2.2.1 r.2.2.2 true) s
/-- Applies a function to every ring that a context owns. -/
def Core.ownRings (c : Core) (own : Nat) (f : Ring → Ring) : Core :=
  { c with rings := c.rings.map fun p => (p.1, if p.2.owner = own then f p.2 else p.2) }

/-! ## Events of the service die (R317) -/

/-- The port of a queue's packets: the ports that are up, in turn by the queue's number (log 64). -/
def Service.portOf (v : Service) (q : Nat) : Nat :=
  let l := (List.range 8).filter v.ports.getLsbD
  l.getD (q % l.length) (q % 8)
/-- A token of a host port is spent (R315). -/
def State.spendToken (s : State) (port : Nat) : State := { s with svc := { s.svc with tokens := aset s.svc.tokens port 0 } }
/-- Firmware's packet leaves by its port, or waits for the port's next token (R315). -/
def State.sendPacket (s : State) (port addr : Nat) (bytes : List Byte) : State :=
  let v := s.svc
  if aget 0 v.tokens port = 0 then { s with svc := { v with hostWait := v.hostWait ++ [(port, addr, bytes)] } }
  else ({ s with svc := { v with hostOut := (port, addr, bytes) :: v.hostOut } }).spendToken port
/-- The event word of a kind, source and argument, without its token. -/
def eventHigh (kind src arg : Nat) : Nat := kind * 2 ^ 24 + src * 2 ^ 16 + arg % 2 ^ 16
def eventSrc (core : Nat) : Nat := dieOf core * 64 + (rowOf core % 4) * 16 + rankOf core
/-- Raises a hardware event, unless the source's earlier event of the kind is still unpopped. -/
def State.hwEvent (s : State) (kind src arg : Nat) : State :=
  let h := eventHigh kind src arg
  if s.svc.events.any (fun e => e.toNat / 2 ^ 32 == h && e.toNat / 2 ^ 20 % 4096 == 4095) then s
  else
    { s with svc := { s.svc with
        events := s.svc.events ++ [BitVec.ofNat 64 (h * 2 ^ 32 + 4095 * 2 ^ 20 + s.svc.hwSeq.toNat)],
        hwSeq := s.svc.hwSeq + 1 } }

/-! ## Touch windows -/

/-- Releases the pages that a party held in its partition's deferred set (R347). -/
def Part.undefer (p : Part) (win : Option (Nat × Nat)) (cmd : Option Nat) : Part :=
  let l := p.defer.map fun d => (d.1, d.2.1.filter (fun w => some w != win), d.2.2.filter (fun c => some c != cmd))
  { p with defer := l.filter (fun d => !(d.2.1.isEmpty && d.2.2.isEmpty)) }
/-- Closes a context's touch windows. -/
def State.closeWins (s : State) (who : Nat) (keep : TWin → Bool) : State :=
  let gone := (s.ctx who).wins.filter fun w => !keep w
  let s := gone.foldl (fun s w => s.setPart (s.partOf who) ((s.part (s.partOf who)).undefer (some (who, w.n)) none)) s
  s.modCtx who fun c => { c with wins := c.wins.filter keep }

/-! ## Checkpoints (R32 to R36) -/

/-- Puts back the 512 B images of the undo file. -/
def State.undoWindow (s : State) (who : Nat) : State :=
  (s.ctx who).undo.foldl (fun s b => s.putBytes (s.winBase who + b.1 * 512) 512 b.2) s

/-- The rollback of R35 on the context alone: unissued and in-flight work goes, the control shadow comes back, result
queues regain what was popped, windows and planes of the span close. -/
def Ctx.rollback (c : Ctx) : Ctx :=
  let rq := c.popped.foldl (fun l p => aset l p.1 (p.2 :: aget [] l p.1)) c.rq
  { c with ctl := c.shadow, queues := [], fly := [], mops := [], undo := [], held := [], popped := [],
           rq := rq.map fun p => (p.1, p.2.filter fun e => !e.fresh),
           wins := c.wins.filter fun w => !w.fresh,
           p0 := { c.p0 with loaded := c.p0.loaded && !c.p0.fresh, read := false, fresh := false },
           p1 := { c.p1 with loaded := c.p1.loaded && !c.p1.fresh, read := false, fresh := false },
           blk := none, wait := none, foots := [], split := none, ckDue := false, irrev := none, acted := 0, soft := none,
           halting := false, landed := [], stv := c.stv.filter fun e => decide (e.1 < c.shadow.seq) }

/-- A fired matrix operation has its result in flight and nothing else to do: it is no drain and reads no peer's ring. -/
def MOp.inFlight (m : MOp) : Bool := m.stage == 1 && m.peer.isNone && (match m.op with | .mdrain .. => false | _ => true)
/-- Matrix work of a context stands still: it is stopped, and all of it is in flight (R38). -/
def Ctx.frozen (c : Ctx) : Bool := c.susp && c.mops.all MOp.inFlight
/-- Ends every peer read of a context. -/
def State.endPeers (s : State) (who : Nat) : State :=
  (s.ctx who).mops.foldl (fun s m => match m.peer with | some (c, n) => s.modRing c n fun r => r.endPeer m.id | none => s) s

/-- Drawer reads of a context's own accesses, which nobody waits for any more, leave the rondel. -/
def State.dropReads (s : State) (who : Nat) : State :=
  { s with fab := { s.fab with reqs := s.fab.reqs.filter fun r => !(r.who == who && r.kind == 0 && r.cmd.isNone) } }
/-- A core leaves its broadcast: the rest of the instance runs from its own fetches (R26). -/
def Bcast.leave (b : Bcast) (rank : Nat) : Bcast := { b with ranks := b.ranks.filter (· != rank), todo := b.todo.filter fun t => t.1 != rank }
def State.leaveBcast (s : State) (who : Nat) : State :=
  match (s.ctx who).inst with
  | some i =>
    if !i.bcast || i.left then s
    else
      let c := coreOf who
      let s := (s.modCtx who fun x => { x with inst := some { i with left := true } }).modCore c fun k => { k with bbuf := [] }
      let r := s.row (rowOf c)
      s.setRow (rowOf c) { r with bcast := r.bcast.map fun b => b.leave (rankOf c) }
  | none => s
/-- The rollback of R35: the window from the undo file, the context from its shadow, the rings from its firings. -/
def State.rollback (s : State) (who : Nat) : State :=
  let s := (((s.leaveBcast who).undoWindow who).endPeers who).closeWins who fun w => !w.fresh
  let s := s.modCore (coreOf who) fun c => c.ownRings (ctxOf who) Ring.undo
  (s.dropReads who).modCtx who Ctx.rollback

/-- Adds that stay at the largest count (R167). -/
def satAdd32 (a b : Nat) : Nat := Nat.min (a + b) (2 ^ 32 - 1)
/-- The pip counters' withheld update: sixteen addends (R168). -/
def addPips (l : List (Nat × BitVec 32)) (unit v : Nat) : List (Nat × BitVec 32) :=
  (List.range 16).foldl (fun l i =>
    let a := elemAt v 32 i
    if a = 0 then l else aset l (unit * 16 + i) (BitVec.ofNat 32 (satAdd32 (aget 0 l (unit * 16 + i)).toNat a))) l
/-- Some counter of the update would pass its largest count. -/
def pipsPass (l : List (Nat × BitVec 32)) (unit v : Nat) : Bool :=
  (List.range 16).any fun i => decide (2 ^ 32 ≤ (aget 0 l (unit * 16 + i)).toNat + elemAt v 32 i)

/-- An access or an atomic step of the context's own is under way at a drawer, or behind one. -/
def DReq.open (r : DReq) (who : Nat) : Bool := r.who == who && r.cmd.isNone && !r.done && !r.dropped
/-- Drains one entry to its space (R33). A drawer unit becomes a rondel request (R364). Behind an open drawer access of its class
(R190), or an open access of its unit (R246), a store to another space waits in the place 2. -/
def State.drain (s : State) (who : Nat) (e : WEnt) : State :=
  if e.cls = 17 then
    let s := if pipsPass (s.core (coreOf who)).pips e.unit e.val then s.modCtx who fun c => { c with ctl := c.ctl.flag 32 } else s
    s.modCore (coreOf who) fun c => { c with pips := addPips c.pips e.unit e.val }
  else if e.mask = 0 then s
  else
    let behind := e.cls != 16 && s.fab.reqs.any fun r => r.open who && (r.cls == e.cls || r.unit == e.unit)
    match e.drawer, behind with
    | none, false => s.writeUnit e.key e.unit e.val e.mask
    | d, _ =>
      let (id, s) := s.newId
      { s with fab := { s.fab with reqs := s.fab.reqs ++
          [{ id := id, drawer := d.getD 2, unit := e.unit, part := e.part, cls := e.cls, kind := 1, who := who,
             die := dieOfWho who, val := e.val, mask := e.mask, key := e.key, left := if d.isNone then some 0 else none, order := s.cyc }] } }
/-- A drained store of the context to a local space still waits. -/
def State.localStores (s : State) (who : Nat) : Bool :=
  s.fab.reqs.any fun r => r.open who && r.kind == 1 && decide (localBase ≤ r.unit * 64)

/-- The planes' LOADED and READ bits, and the counts, as a checkpoint takes them. -/
def Ctx.planeBits (c : Ctx) : Nat := c.p0.loaded.toNat + 2 * c.p0.read.toNat + 4 * c.p1.loaded.toNat + 8 * c.p1.read.toNat
def Ctx.mark (c : Ctx) : Ctx := { c with ckTicks := c.ticks, ckBundles := c.bundles, ckPlanes := c.planeBits }
/-- The release's effect on the context (R33): the shadow moves up, the span's records clear. -/
def Ctx.release (c : Ctx) : Ctx :=
  Ctx.mark
  { c with shadow := c.ctl, undo := [], held := [], popped := [],
           rq := c.rq.map fun p => (p.1, p.2.map fun e => { e with fresh := false }),
           wins := c.wins.map fun w => { w with fresh := false },
           p0 := { c.p0 with read := false, fresh := false }, p1 := { c.p1 with read := false, fresh := false }, ckDue := false,
           acted := 0, landed := [] }

/-- Releases a checkpoint (R33). -/
def State.release (s : State) (who : Nat) : State :=
  let s := (s.ctx who).held.foldl (fun s e => s.drain who e) s
  let s := s.modCore (coreOf who) fun c => c.ownRings (ctxOf who) fun r => r.publish (s.localStores who)
  s.modCtx who Ctx.release

/-- Every operation of the span has completed: nothing is queued or in flight. -/
def Ctx.idleSpan (c : Ctx) : Bool :=
  c.waiting.isEmpty && c.fly.isEmpty && c.mops.isEmpty && c.split.isNone && c.wait.isNone &&
  c.rq.all fun p => p.2.all fun e => e.arrived || !e.fresh || p.1 == 2 || p.1 == 3
/-- An `amo` or a `sig` of the context has not performed yet. -/
def State.stepOpen (s : State) (who : Nat) : Bool := s.fab.reqs.any fun r => r.open who && r.kind == 2
/-- The span is idle, its operations that cannot be undone performed too (R33). -/
def State.idleSpan (s : State) (who : Nat) : Bool := (s.ctx who).idleSpan && !s.stepOpen who

/-! ## Tasks and the end of an instance -/

def Die.task (d : Die) (n : Nat) : Task := aget {} d.tasks n
def State.modTask (s : State) (die slot : Nat) (f : Task → Task) : State :=
  s.modDie die fun d => { d with tasks := aset d.tasks slot (f (d.task slot)) }

/-- One instance of a share is over: the count of those not yet halted falls (R333). -/
def Task.ended (t : Task) : Task := { t with left := t.left - 1 }
/-- A fault counts against a task, with the first fault's kind and cause (R403, R321). -/
def Task.blame (t : Task) (idx : Nat) (slots : List Nat) (f : Nat × Nat) : Task :=
  { t with nfault := t.nfault + 1, faulted := t.faulted ++ [(idx, slots)], first := some (t.first.getD f) }
/-- The slots of a task's chain, head first; a task that is not spliced stands alone (R332). -/
def Die.chainSlots (d : Die) (n : Nat) : List Nat :=
  match (d.task n).chain with
  | none => [n]
  | some c =>
    let l := d.tasks.filter fun p => match p.2.chain with | some k => k.1 == c.1 | none => false
    (List.range 4).filterMap fun i => (l.find? fun p => match p.2.chain with | some k => k.2 == i | none => false).map (·.1)
/-- The last instance of a share has halted: share done, or held for firmware when a fault counts against the task or any
task of its chain (R334, R403). After a cut, a fault holds the chain as soon as the head's share has halted. -/
def Die.settle (d : Die) (n : Nat) : Die :=
  let l := d.chainSlots n
  let head := d.task (l.headD n)
  let all := l.all fun k => (d.task k).left == 0
  let bad := l.any fun k => (d.task k).nfault != 0
  if head.state == 3 && (all || (bad && head.left == 0)) then
    { d with tasks := d.tasks.map fun p => if l.contains p.1 then (p.1, { p.2 with state := if bad then 5 else 4 }) else p }
  else d
/-- Slots whose tasks' work an instance does: its own, or those of its spliced program (R266). -/
def State.workSlots (s : State) (who : Nat) (i : Inst) : List Nat :=
  match i.spl.bind fun id => (s.die (dieOfWho who)).cache.find? fun p => p.id == id with
  | some p => p.slots
  | none => [i.slot]

/-- The context holds no instance any more: queues empty, windows closed, grant returned (R20, R131, R382). -/
def State.vacate (s : State) (who : Nat) : State :=
  let s := ((s.dropReads who).endPeers who).closeWins who fun _ => false
  let s := s.modCtx who fun c =>
    { c with inst := none, rq := [], queues := [], fly := [], mops := [], held := [], undo := [], popped := [], wins := [],
             blk := none, wait := none, foots := [], split := none, ckDue := false, irrev := none, acted := 0, soft := none,
             halting := false, landed := [], stv := [], level := 0, idle := 0, due := false, preReq := false, susp := false, woke := false,
             nest := false, priv := 0 }
  let c := coreOf who
  s.modCore c fun k => { k with preW := k.preW.filter fun p => p.1 != ctxOf who }
/-- The end of an instance clears its watchdog bit too (R384); its turn passes on when its dispenser has no next instance for it (R23). -/
def State.dropInst (s : State) (who : Nat) : State :=
  let c := coreOf who
  let s := s.vacate who
  let r := s.row (rowOf c)
  s.setRow (rowOf c) { r with wdog := r.wdog &&& ~~~(1#64 <<< (4 * rankOf c + ctxOf who)) }

/-- A core of a broadcast launch has ended its instance; the last one ends it for the row (R327). -/
def Bcast.ended (b : Bcast) (rank : Nat) (fault : Option (Nat × Nat)) : Bcast :=
  { b.leave rank with live := b.live.filter (· != rank), fault := if b.fault.isSome then b.fault else fault }
/-- The instance ends, with or without a fault that counts against a slot: its task is told and the context is freed. -/
def State.endInst (s : State) (who : Nat) (fault : Option (Nat × Nat)) (slot : Option Nat := none) : State :=
  match (s.ctx who).inst with
  | none => s
  | some i =>
    let r := s.row (rowOf i.bcore)
    let (last, fault, s) := match i.bcast, r.bcast with
      | true, some b =>
        let b := b.ended (rankOf i.bcore) fault
        (b.live.isEmpty, b.fault, s.setRow (rowOf i.bcore) { r with bcast := if b.live.isEmpty then none else some b })
      | _, _ => (true, fault, s)
    let l := s.workSlots who i
    let s := s.modDie i.die fun d =>
      if !last then d
      else
        let d := { d with tasks := d.tasks.map fun (p : Nat × Task) => if l.contains p.1 then (p.1, p.2.ended) else p }
        let k := slot.getD i.slot
        let d := match fault with
          | none => d
          | some f => { d with tasks := aset d.tasks k ((d.task k).blame i.idx l f) }
        d.settle i.slot
    s.dropInst who

/-! ## Traps (R35, R292, R316, R348 to R352) -/

/-- A fault: its kind and cause (R348) and the value of FLT.ADDR. -/
structure Trap where
  kind  : Nat
  cause : Nat := 0
  addr  : Word := 0
  deriving DecidableEq, Repr

/-- The fault word (R348). -/
def Trap.word (t : Trap) : Word := BitVec.ofNat 64 (t.kind * 256 + t.cause)

/-- The spliced program that a context's bundles come from; a handler's come from the partition's code space (R295). -/
def Ctx.splId (c : Ctx) : Option Nat := if c.priv = 0 then c.inst.bind fun i => i.spl else none
/-- The splice-map entry of a bundle of a spliced program (R269). -/
def State.spliceEntry (s : State) (who : Nat) (pc : Word) : Option (Nat × BitVec 128 × List Nat) :=
  match (s.ctx who).splId with
  | some id =>
    match (s.die (dieOfWho who)).cache.find? (fun p => p.id == id) with
    | some p => (p.map[pc.toNat]?).map fun m => (pc.toNat, m, p.slots)
    | none => none
  | none => none

/-- The scheduler slot a fault counts against (R269, R403). -/
def State.faultSlot (s : State) (who : Nat) (pc : Word) : Option Nat :=
  (s.spliceEntry who pc).bind fun e => e.2.2[natBits e.2.1.toNat 62 2]?

/-- The fault record of R351, through the splice map where the code is spliced (R269, R350). -/
def State.record (s : State) (who : Nat) (t : Trap) (slot : Nat) (pc : Word) : Flt :=
  let f := (s.ctx who).flt
  let base := BitVec.ofNat 64 (2 ^ 32 + t.kind * 256 + t.cause + slot * 2 ^ 36)
  let i := (s.ctx who).inst
  match s.spliceEntry who pc with
  | some (n, m, slots) =>
    let kpos := natBits m.toNat 62 2
    { f with cause := base ||| BitVec.ofNat 64 (2 ^ 35 + kpos * 2 ^ 33), bundle := BitVec.ofNat 64 (natBits m.toNat 0 28),
             addr := t.addr, task := ((s.die ((i.map fun i => i.die).getD 0)).task ((slots[kpos]?).getD 0)).taskno, smap := BitVec.ofNat 64 (n % 65536) }
  | none =>
    { f with cause := base, bundle := (pc - (i.map fun i => i.first).getD 0) &&& 0xFFFFFFF, addr := t.addr,
             task := (i.map fun i => i.taskno).getD 0, smap := 0 }

/-- A trap at level 0 enters the handler (R292, R352). -/
def Ctx.enter (c : Ctx) (t : Trap) (srn : Nat) : Ctx :=
  let f := { c.flt with sav0 := c.ctl.sget 62, sav1 := c.ctl.sget 63 }
  let ctl := ((c.ctl.sset 62 t.word).sset 63 (BitVec.ofNat 64 (0x02000000 + srn)))
  let ctl := { ctl with pc := c.tvec.setWidth 64 }
  Ctx.mark
  { c with flt := f, epc := c.ctl.pc.setWidth 50, epriv := 0, priv := 1, nest := true, ctl := ctl, shadow := ctl }

/-- A firmware core's trap (R316). -/
def Ctx.fwTrap (c : Ctx) (t : Trap) (bpc : Word) : Ctx :=
  if c.trapped then { c with service := false }
  else
    let ctl := ((c.ctl.sset 62 t.word).sset 63 bpc)
    let ctl := { ctl with pc := 1 }
    { c with ctl := ctl, shadow := ctl, trapped := true }

/-- A splice-map trap cuts the chain ahead of the task it struck: that task and those behind it run unspliced, those ahead as
a shorter chain, rebuilt at its next instance (R263). -/
def Die.cutChain (d : Die) (n : Nat) : Die :=
  match (d.task n).chain with
  | none => d
  | some (head, pos) =>
    let next := (d.task head).next
    { d with tasks := d.tasks.map fun p =>
        match p.2.chain with
        | some (h, k) =>
          if h ≠ head then p
          else if pos ≤ k then
            (p.1, if p.2.cut then p.2
                  else { p.2 with cut := true, struck := p.2.struck || k == pos, splr := 13, seg := k, prog := none, next := next })
          else (p.1, { p.2 with prog := none })
        | none => p }

/-- Two ranges meet when their hulls share a byte; an unresolved one meets every range
(R329). -/
def hullsMeet (a b : Option (Nat × Nat)) : Bool :=
  match a, b with
  | some x, some y => decide (x.1 < y.2) && decide (y.1 < x.2)
  | _, _ => true
/-- The preload of a core goes when its task reads or writes what the faulting task writes: the task of the instance, or the one
that the faulting bundle of spliced code belongs to (R339, R269). -/
def State.dropPreload (s : State) (who : Nat) (bpc : Word) : State :=
  match (s.ctx who).inst, (s.core (coreOf who)).preload with
  | some i, some p =>
    let d := s.die (dieOfWho who)
    let q := d.task p.slot
    if (q.reads ++ q.writes).any fun r => (d.task ((s.faultSlot who bpc).getD i.slot)).writes.any (hullsMeet r) then
      s.modCore (coreOf who) fun c => { c with preload := none }
    else s
  | _, _ => s

/-- Taking a trap (R35): the rollback, then the fault record naming bundle and slot, then the handler, the end of the
instance (effect E, or any fault at level 1), or the firmware core's own way. -/
def State.takeTrap (s : State) (who : Nat) (t : Trap) (slot : Nat) (bpc : Word) : State :=
  if isFw who then
    let down := (s.ctx who).trapped
    let s := (s.rollback who).modCtx who fun c => c.fwTrap t bpc
    if down then s.hwEvent 6 0 (who - 1024) else s
  else
    let rec' := s.record who t slot bpc
    let fs := s.faultSlot who bpc
    let s := s.dropPreload who bpc
    let s := (s.rollback who).modCtx who fun c => { c with flt := rec' }
    if t.kind = 21 || t.kind = 22 then
      let d := ((s.ctx who).inst.map fun i => i.die).getD 0
      let s := if t.kind = 22 then s.modDie d fun x => (fs.map fun n => x.cutChain n).getD x else s
      let s := if (s.ctx who).priv = 0 then s else s.modCtx who fun c => { c with hold := true }
      ((s.endInst who (some (t.kind, t.cause)) fs).elect (coreOf who)).hwEvent 3 (eventSrc (coreOf who)) (ctxOf who)
    else if (s.ctx who).priv = 0 then s.modCtx who fun c => c.enter t (srnPlace who)
    else
      let s := s.modCtx who fun c => { c with hold := true }
      ((s.endInst who (some (t.kind, t.cause)) fs).elect (coreOf who)).hwEvent 3 (eventSrc (coreOf who)) (ctxOf who)

/-- The operation that issues raises a trap. -/
def State.trap (s : State) (t : Trap) : State := s.takeTrap s.cur.who t s.cur.slot.num s.cur.ent.pc

/-- The return from a handler: the branch to CTX.EPC at the level EPRIV (R302). -/
def Ctx.eret (c : Ctx) : Ctx :=
  { c with ctl := { c.ctl with pc := c.epc.setWidth 64 }, priv := c.epriv, nest := if c.epriv = 0 then false else c.nest }

/-- A fault recorded without a trap: kind 23 with its link pair, and engine STATUS 4 (R348, R353). -/
def State.noteStall (s : State) (who pair : Nat) : State :=
  s.modCtx who fun c => { c with flt := { c.flt with lrs := true, addr := BitVec.ofNat 64 pair } }
def State.noteData (s : State) (who paddr : Nat) : State :=
  s.modCtx who fun c => { c with flt := { c.flt with derr := true, derra := BitVec.ofNat 64 paddr } }

/-! ## Writing the window and withholding stores (R32, R36) -/

/-- Blocks of 512 B that a write of `n` bytes at window offset `off` touches. -/
def blocksOf (off n : Nat) : List Nat := (List.range ((off % 512 + n + 511) / 512)).map fun i => off / 512 + i
/-- Captures the old contents of a block at its first write since the checkpoint. -/
def State.capture (s : State) (who b : Nat) : State :=
  if (s.ctx who).undo.any (fun u => u.1 == b) then s
  else s.modCtx who fun c => { c with undo := c.undo ++ [(b, s.bytes (s.winBase who + b * 512) 512)] }
/-- Blocks that the marked bits of a write touch. -/
def touched (off n bm : Nat) : List Nat :=
  (blocksOf off n).filter fun b => ((bm <<< (8 * (off % 512))) >>> (4096 * (b - off / 512))) % 2 ^ 4096 != 0
/-- The write needs a 65th undo image. -/
def State.undoFull (s : State) (who off n bm : Nat) : Bool :=
  decide (64 < ((s.ctx who).undo.length + ((touched off n bm).filter fun b => !((s.ctx who).undo.any fun u => u.1 == b)).length))
/-- Writes the marked bits of window bytes, with the undo images of the blocks they touch. -/
def State.writeWin (s : State) (who off n v bm : Nat) : State :=
  let s := (touched off n bm).foldl (fun s b => s.capture who b) s
  s.putMask (s.winBase who + off) n v bm

/-- Two entries of one unit, class and key, which R32 merges. -/
def WEnt.same (h e : WEnt) : Bool := h.cls == e.cls && h.unit == e.unit && h.key == e.key
/-- A newer store of another class to the same bits stands between: the coherence order of R246 keeps the two apart (log 110). -/
def WEnt.parts (h e : WEnt) : Bool := h.unit == e.unit && h.cls != 17 && e.cls != 17 && h.mask &&& e.mask != 0
/-- The entry with an update merged into it; pip addends stop at the largest count. -/
def WEnt.join (h e : WEnt) : WEnt :=
  if e.cls = 17 then { h with val := packElems 32 ((List.range 16).map fun i => satAdd32 (elemAt h.val 32 i) (elemAt e.val 32 i)) }
  else { h with mask := h.mask ||| e.mask, val := (e.val &&& e.mask) ||| (h.val &&& (e.mask ^^^ ones 512)) }
/-- Merges an update into the newest entry of its own, from the newest on. -/
def mergeEntry (e : WEnt) : List WEnt → Option (List WEnt)
  | [] => none
  | h :: r => if h.same e then some (h.join e :: r) else if h.parts e then none else (mergeEntry e r).map (h :: ·)
/-- Withholds one update: merged into its entry, or in a new one (R32). -/
def holdEntry (e : WEnt) (l : List WEnt) : List WEnt :=
  match mergeEntry e l.reverse with
  | some r => r.reverse
  | none => l ++ [e]
/-- Withholds entries; `none` when a 129th would be needed (R36). -/
def Ctx.hold' (c : Ctx) (l : List WEnt) : Option Ctx :=
  let h := l.foldl (fun h e => holdEntry e h) c.held
  if 128 < h.length then none else some { c with held := h }

/-- The context's own view of a unit: memory with its withheld stores over it, oldest first (R32, R190). -/
def overlayUnit (held : List (Nat × Nat × Nat)) (u v : Nat) : Nat :=
  held.foldl (fun v e => if e.1 = u then (e.2.2 &&& e.2.1) ||| (v &&& (e.2.1 ^^^ ones 512)) else v) v
/-- Withheld stores and drained stores still on their way to a drawer, as (unit, mask, value), oldest first. -/
def State.overlay (s : State) (who : Nat) : List (Nat × Nat × Nat) :=
  ((s.fab.reqs.filter fun r => r.who == who && r.kind == 1 && r.cmd.isNone && !r.done).map fun r => (r.unit, r.mask, r.val)) ++
  (((s.ctx who).held.filter fun e => e.cls != 17).map fun e => (e.unit, e.mask, e.val))
/-- A unit as an element reads it. -/
def State.unitAs (s : State) (e : Elem) (u : Nat) : Nat :=
  if keyedAddr (e.addr / 8) then s.unitUnder e.key u else s.mem.read (u * 64) 64
/-- An element under an overlay of the context's own data. A unit of `got`, by number and key, reads as it stood when it was taken. -/
def State.elemOver (s : State) (ov : List (Nat × Nat × Nat)) (e : Elem) (got : List (Nat × Nat × Nat) := []) : Nat :=
  let un (u : Nat) : Nat :=
    overlayUnit ov u (match got.find? fun g => g.1 == u && g.2.1 == e.key with | some g => g.2.2 | none => s.unitAs e u)
  if keyedAddr (e.addr / 8) then (un (e.addr / 512) >>> (e.addr % 512)) % 2 ^ e.w
  else (packElems 8 ((List.range e.bytes).map fun i => un (e.place i / 64) >>> (8 * (e.place i % 64))) >>> (e.addr % 8)) % 2 ^ e.w
/-- An element as the context sees it. -/
def State.elemBy (s : State) (who : Nat) (e : Elem) : Nat := s.elemOver (s.overlay who) e

end Sys2Proof.Machine
end

