-- ==== Sys2Proof/Machine/Flags.lean ====
section
/-! DEFINITION. Number formats, decoding, the one rounding rule, the flags it sets, and exact arithmetic (R69 to R86). -/

namespace Sys2Proof.Machine

/-! ## Flags of FSTAT (R80) -/

def fIV : BitVec 7 := 1
def fDZ : BitVec 7 := 2
def fOF : BitVec 7 := 4
def fUF : BitVec 7 := 8
def fNX : BitVec 7 := 16
def fST : BitVec 7 := 32
def fNF : BitVec 7 := 64

/-! ## Values -/

/-- A real value with IEEE's special cases: a dyadic number `(-1)^neg * m * 2^e`, an infinity or a NaN with its sign bit. -/
inductive FVal
  | fin (neg : Bool) (m : Nat) (e : Int)
  | inf (neg : Bool)
  | nan (neg : Bool)
  deriving DecidableEq, Repr

def FVal.zero (neg : Bool) : FVal := .fin neg 0 0
def FVal.ofInt (i : Int) : FVal := .fin (decide (i < 0)) i.natAbs 0
def FVal.isNaN : FVal → Bool | .nan _ => true | _ => false
def FVal.isInf : FVal → Bool | .inf _ => true | _ => false
def FVal.isZero : FVal → Bool | .fin _ m _ => m == 0 | _ => false
def FVal.sign : FVal → Bool | .fin n _ _ => n | .inf n => n | .nan n => n
def FVal.neg : FVal → FVal | .fin n m e => .fin (!n) m e | .inf n => .inf (!n) | .nan n => .nan (!n)

/-! ## Formats -/

/-- What a descriptor or a wide kind gives (R69, R70): `int` is the integer grid, `w` the container. -/
structure Fmt where
  int  : Bool
  sgn  : Bool
  E    : Nat
  M    : Nat
  bias : Int
  spec : Nat
  satf : Bool := false
  w    : Nat
  narrow : Bool := false
  e8m0 : Bool := false
  deriving DecidableEq, Repr

def fmtF16 : Fmt := { int := false, sgn := true, E := 5, M := 10, bias := 15, spec := 0, w := 16 }
def fmtBf16 : Fmt := { int := false, sgn := true, E := 8, M := 7, bias := 127, spec := 0, w := 16 }
def fmtF32 : Fmt := { int := false, sgn := true, E := 8, M := 23, bias := 127, spec := 0, w := 32 }
def fmtF64 : Fmt := { int := false, sgn := true, E := 11, M := 52, bias := 1023, spec := 0, w := 64 }
def fmtInt (sgn : Bool) (w : Nat) : Fmt :=
  { int := true, sgn := sgn, E := 0, M := if sgn then w - 1 else w, bias := 0, spec := 2, w := w }

/-- The format of an element type (R93). -/
def etFmt : ETy → Fmt
  | .fp16 => fmtF16 | .bf16 => fmtBf16 | .fp32 => fmtF32 | .fp64 => fmtF64
  | t => fmtInt t.signed t.width

/-! ### Descriptors (R69 to R71) -/

def dKind (d : BitVec 32) : Nat := natBits d.toNat 28 4
def dSpec (d : BitVec 32) : Nat := natBits d.toNat 26 2
def dSatf (d : BitVec 32) : Bool := d.getLsbD 25
def dValid (d : BitVec 32) : Bool := d.getLsbD 24
def dBias (d : BitVec 32) : Int := (d.extractLsb' 16 8).toInt
def dS (d : BitVec 32) : Nat := natBits d.toNat 14 1
def dE (d : BitVec 32) : Nat := natBits d.toNat 10 4
def dM (d : BitVec 32) : Nat := natBits d.toNat 6 4
def dSfmt (d : BitVec 32) : Nat := natBits d.toNat 0 6
/-- Container size in bits (R70). -/
def dWidth (d : BitVec 32) : Nat :=
  match dKind d with
  | 0 => if dS d + dE d + dM d ≤ 4 then 4 else 8
  | 1 | 2 | 5 | 8 => 16
  | 3 | 6 | 9 => 32
  | 11 => 8
  | _ => 64
/-- Rules of R71 on one descriptor, its SFMT apart. -/
def dShapeOk (d : BitVec 32) : Bool :=
  dValid d && decide (dKind d ≤ 11) &&
  (dKind d != 0 ||
    (decide (2 ≤ dS d + dE d + dM d) && decide (dS d + dE d + dM d ≤ 8) && decide (dE d ≤ 8) && decide (dM d ≤ 8) &&
     dSpec d != 3 && (dE d != 0 || dSpec d == 2) && (dSpec d != 0 || decide (2 ≤ dE d)) &&
     (dSpec d != 1 || decide (2 ≤ dE d + dM d))))
/-- A descriptor that may decode scales: KIND 11, or KIND 0 with an 8-bit container. -/
def dScale (d : BitVec 32) : Bool := dValid d && (dKind d == 11 || (dKind d == 0 && dWidth d == 8))
/-- A legal descriptor of a partition's table (R71). -/
def dLegal (tab : Nat → BitVec 32) (d : BitVec 32) : Bool := dShapeOk d && dScale (tab (dSfmt d))
/-- The format a descriptor names. -/
def dFmt (d : BitVec 32) : Fmt :=
  match dKind d with
  | 0 =>
    { int := dE d == 0, sgn := dS d == 1, E := dE d, M := dM d, bias := dBias d, spec := dSpec d, satf := dSatf d,
      w := dWidth d, narrow := true }
  | 1 => { fmtF16 with satf := dSatf d } | 2 => { fmtBf16 with satf := dSatf d } | 3 => { fmtF32 with satf := dSatf d }
  | 4 => { fmtF64 with satf := dSatf d }
  | 5 => fmtInt true 16 | 6 => fmtInt true 32 | 7 => fmtInt true 64
  | 8 => fmtInt false 16 | 9 => fmtInt false 32 | 10 => fmtInt false 64
  | _ => { int := false, sgn := false, E := 8, M := 0, bias := 127, spec := 1, w := 8, e8m0 := true }

/-! ## Decoding (R72 to R74) -/

/-- The value of a code of a format. -/
def Fmt.decode (f : Fmt) (nbv : Bool) (c : Nat) : FVal :=
  if f.e8m0 then (if c % 256 = 255 then .nan false else .fin false 1 ((c % 256 : Nat) - 127 : Int))
  else if f.int then
    let v := c % 2 ^ f.M
    if f.sgn && (c >>> f.M) % 2 == 1 then .fin true (2 ^ f.M - v) (-f.bias) else .fin false v (-f.bias)
  else
    let s := f.sgn && (c >>> (f.E + f.M)) % 2 == 1
    let e := (c >>> f.M) % 2 ^ f.E
    let m := c % 2 ^ f.M
    let e1 := 2 ^ f.E - 1
    if f.spec = 0 && e == e1 then (if m = 0 then .inf s else .nan s)
    else if f.spec = 1 && e == e1 && m == 2 ^ f.M - 1 then .nan s
    else if e = 0 then
      if f.narrow && !nbv && m != 0 then .zero s else .fin s m (1 - f.bias - f.M)
    else .fin s (2 ^ f.M + m) ((e : Int) - f.bias - f.M)

/-! ## Rounding (R76 to R79) -/

/-- The largest finite code's exponent and mantissa fields (R73). -/
def Fmt.maxEM (f : Fmt) : Nat × Nat :=
  let e1 := 2 ^ f.E - 1
  let m1 := 2 ^ f.M - 1
  match f.spec with
  | 0 => (e1 - 1, m1)
  | 1 => if f.M = 0 then (e1 - 1, 0) else (e1, m1 - 1)
  | _ => (e1, m1)
def Fmt.signBit (f : Fmt) (neg : Bool) : Nat := if f.sgn && neg then 2 ^ (f.E + f.M) else 0
/-- The extreme finite code of a sign. -/
def Fmt.extreme (f : Fmt) (neg : Bool) : Nat :=
  if f.int then (if neg then (if f.sgn then 2 ^ f.M else 0) else 2 ^ f.M - 1)
  else if neg && !f.sgn then 0
  else f.signBit neg + f.maxEM.1 * 2 ^ f.M + f.maxEM.2
/-- A format with a code for infinity, and one with a NaN code. -/
def Fmt.hasInf (f : Fmt) : Bool := !f.int && !f.e8m0 && f.spec == 0
def Fmt.hasNaN (f : Fmt) : Bool := f.e8m0 || (!f.int && ((f.spec == 0 && decide (1 ≤ f.M)) || f.spec == 1))
/-- The canonical NaN (R79). -/
def Fmt.nanCode (f : Fmt) : Nat :=
  if f.e8m0 then 255
  else if f.spec = 0 then (2 ^ f.E - 1) * 2 ^ f.M + 2 ^ (f.M - 1)
  else 2 ^ (f.E + f.M) - 1
def Fmt.infCode (f : Fmt) (neg : Bool) : Nat := f.signBit neg + (2 ^ f.E - 1) * 2 ^ f.M
/-- `nan_to` of R77. -/
def Fmt.nanTo (f : Fmt) (neg : Bool) : Nat × BitVec 7 := if f.hasNaN then (f.nanCode, 0) else (f.extreme neg, fNF)
/-- `overflow_to` of R77. -/
def Fmt.overflow (f : Fmt) (rm : Nat) (neg : Bool) : Nat × BitVec 7 :=
  if f.int || f.satf || (!f.hasInf && f.spec != 1) then (f.extreme neg, fST)
  else if f.spec = 1 then (f.nanCode, fOF)
  else
    let toInf := rm == 0 || rm == 4 || (rm == 3 && !neg) || (rm == 2 && neg)
    (if toInf then f.infCode neg else f.extreme neg, fOF)

/-- Whether a magnitude with integer part `t` and fraction `r / 2^k` is rounded up in magnitude. -/
def roundAway (rm rbits : Nat) (neg : Bool) (t r k : Nat) : Bool :=
  match rm with
  | 0 => decide (2 ^ k < 2 * r) || (2 ^ k == 2 * r && t % 2 == 1)
  | 2 => neg && decide (0 < r)
  | 3 => !neg && decide (0 < r)
  | 4 => decide (65536 ≤ r * 65536 / 2 ^ k + rbits)
  | _ => false

/-- Rounding into e8m0 (R77's second part). -/
def roundE8 (rm rbits : Nat) : FVal → Nat × BitVec 7
  | .nan _ => (255, 0)
  | .inf true => (0, fST ||| fNX)
  | .inf false => (254, fST)
  | .fin neg m e =>
    let l := m.log2
    let fl : Int := e + l
    if neg || m == 0 || decide (fl < -127) then (0, fST ||| fNX)
    else if (128 : Int) ≤ fl then (254, fST ||| fNX)
    else
      let c := (fl + 127).toNat
      let r := m - 2 ^ l
      let up := match rm with
        | 0 => decide (2 ^ l < 2 * r) || (2 ^ l == 2 * r && c % 2 == 1)
        | 3 => decide (0 < r)
        | 4 => decide (65536 ≤ r * 65536 / 2 ^ l + rbits)
        | _ => false
      let c' := if up then c + 1 else c
      if 254 < c' then (254, fST ||| fNX) else (c', if r = 0 then 0 else fNX)

/-- `round_to` of R77 on a finite non-zero magnitude: the code and the flags. -/
def Fmt.roundFin (f : Fmt) (nbv : Bool) (rm rbits : Nat) (neg : Bool) (m : Nat) (e : Int) : Nat × BitVec 7 :=
  let fl : Int := e + m.log2
  let qe : Int := if f.int then -f.bias else max fl (1 - f.bias) - f.M
  let k := (qe - e).toNat
  let t := if qe ≤ e then m * 2 ^ (e - qe).toNat else m / 2 ^ k
  let r := if qe ≤ e then 0 else m % 2 ^ k
  let y := if roundAway rm rbits neg t r k then t + 1 else t
  let inexact := decide (0 < r)
  let tiny := !f.int && decide (fl < 1 - f.bias)
  if f.int then
    if neg then
      if !f.sgn && decide (0 < y) then (0, fST ||| fNX)
      -- the least value lies beyond `maxf` (R73), so `overflow_to` gives it with ST
      else if f.sgn && decide (2 ^ f.M ≤ y) then (2 ^ f.M, fST ||| if inexact || decide (2 ^ f.M < y) then fNX else 0)
      else ((2 ^ (f.M + 1) - y) % 2 ^ (f.M + 1) % 2 ^ f.w, if inexact then fNX else 0)
    else if 2 ^ f.M - 1 < y then (2 ^ f.M - 1, fST ||| fNX)
    else (y, if inexact then fNX else 0)
  else if neg && !f.sgn && decide (0 < y) then (0, fST ||| fNX ||| (if tiny then fUF else 0))
  else
    let (y, qe) := if y = 2 ^ (f.M + 1) then (2 ^ f.M, qe + 1) else (y, qe)
    let ef := if y < 2 ^ f.M then 0 else (qe + f.M + f.bias).toNat
    let mf := if y < 2 ^ f.M then y else y - 2 ^ f.M
    let mx := f.maxEM
    if mx.1 < ef || (ef == mx.1 && decide (mx.2 < mf)) then
      let (c, fl) := f.overflow rm neg
      (c, fl ||| fNX)
    else
      let fg := (if inexact then fNX else 0) ||| (if tiny && inexact then fUF else 0)
      if !nbv && f.narrow && ef == 0 && mf != 0 then (f.signBit neg, fg ||| fUF ||| fNX)
      else (f.signBit neg + ef * 2 ^ f.M + mf, fg)

/-- `round_to` of R77. An infinity below zero keeps only its infinity in a format without a sign (log 13). -/
def Fmt.round (f : Fmt) (nbv : Bool) (rm rbits : Nat) (x : FVal) : Nat × BitVec 7 :=
  if f.e8m0 then roundE8 rm rbits x
  else
    match x with
    | .nan n => f.nanTo n
    | .inf n =>
      if f.hasInf then (f.infCode n, 0)
      else if n && !f.sgn then (0, fST ||| fNX)
      else
        let (c, fl) := f.overflow rm n
        (c, fl ||| fNX)
    | .fin n m e => if m = 0 then (if f.int then 0 else f.signBit n, 0) else f.roundFin nbv rm rbits n m e

/-- The random bits of R78. -/
def rbits (seed : Word) (lane idx : Nat) : Nat :=
  let x := seed + BitVec.ofNat 64 lane * 0x9E3779B97F4A7C15 + BitVec.ofNat 64 idx * 0xD1B54A32D192ED03
  let x := (x ^^^ (x >>> 32)) * 0xD6E8FEB86659FD93
  let x := (x ^^^ (x >>> 32)) * 0xD6E8FEB86659FD93
  (x ^^^ (x >>> 32)).toNat % 65536

/-! ## Exact arithmetic (R79, R124) -/

/-- Both values over the smaller exponent. -/
def alignInt (n1 : Bool) (m1 : Nat) (e1 : Int) (e : Int) : Int :=
  let v : Int := (m1 * 2 ^ (e1 - e).toNat : Nat)
  if n1 then -v else v
/-- An exact sum; a zero sum of unlike signs is +0, or −0 when rounding down (R124). -/
def FVal.add (down : Bool) : FVal → FVal → FVal × BitVec 7
  | .nan _, _ => (.nan false, 0)
  | _, .nan _ => (.nan false, 0)
  | .inf a, .inf b => if a = b then (.inf a, 0) else (.nan false, fIV)
  | .inf a, _ => (.inf a, 0)
  | _, .inf b => (.inf b, 0)
  | .fin n1 m1 e1, .fin n2 m2 e2 =>
    if m1 = 0 ∧ m2 = 0 then (.zero (if n1 = n2 then n1 else down), 0)
    else
      let e := min e1 e2
      let v := alignInt n1 m1 e1 e + alignInt n2 m2 e2 e
      if v = 0 then (.zero down, 0) else (.fin (decide (v < 0)) v.natAbs e, 0)
/-- An exact product. -/
def FVal.mul : FVal → FVal → FVal × BitVec 7
  | .nan _, _ => (.nan false, 0)
  | _, .nan _ => (.nan false, 0)
  | .inf a, .inf b => (.inf (a != b), 0)
  | .inf a, .fin b m _ => if m = 0 then (.nan false, fIV) else (.inf (a != b), 0)
  | .fin a m _, .inf b => if m = 0 then (.nan false, fIV) else (.inf (a != b), 0)
  | .fin a m e, .fin b n f => (.fin (a != b) (m * n) (e + f), 0)
/-- An exact `a * b + c`; a NaN addend sets no IV (R124). -/
def FVal.fma (down : Bool) (a b c : FVal) : FVal × BitVec 7 :=
  if c.isNaN then (.nan false, 0)
  else
    let (p, f1) := a.mul b
    let (r, f2) := p.add down c
    (r, f1 ||| f2)
/-- Order of two values that are not NaN: −0 equals +0 (R125). -/
def FVal.cmp (a b : FVal) : Ordering :=
  match a, b with
  | .inf x, .inf y => if x = y then .eq else if x then .lt else .gt
  | .inf x, _ => if x then .lt else .gt
  | _, .inf y => if y then .gt else .lt
  | .fin n1 m1 e1, .fin n2 m2 e2 =>
    let e := min e1 e2
    compare (alignInt n1 m1 e1 e) (alignInt n2 m2 e2 e)
  | _, _ => .eq
/-- The conditions of R125. -/
def fcond (c : FCond) (a b : FVal) : Bool :=
  if a.isNaN || b.isNaN then (match c with | .ne | .un => true | _ => false)
  else
    match c with
    | .eq => a.cmp b == .eq
    | .ne => a.cmp b != .eq
    | .lt => a.cmp b == .lt
    | .le => a.cmp b != .gt
    | .un => false
/-- The conditions of R121. -/
def icond (c : ICond) (a b : Word) : Bool :=
  match c with
  | .eq => a == b
  | .ne => a != b
  | .lt => a.slt b
  | .ltn => a.ult b
  | .le => a.sle b
  | .len => a.ule b

/-- An element times its scale (R75): a NaN from values that are none sets IV. -/
def scaled (x sc : FVal) : FVal × BitVec 7 :=
  if x.isNaN then (x, 0) else if sc.isNaN then (.nan false, 0) else x.mul sc

end Sys2Proof.Machine
end

