-- ==== Sys2Proof/Machine/Operands.lean ====
section
/-! DEFINITION. Operand forms: layout entries and coordinates (R57 to R62, R99), page tables and translation (R341 to
R347), and the elements an access touches, resolved to flat bit addresses. -/

namespace Sys2Proof.Machine

/-! ## Layout entries (R57) -/

structure Lay where
  str   : List Int
  ext   : List Nat
  base  : Nat
  spl   : Nat
  spv   : Bool
  sblk  : Nat
  fmt   : Nat
  ring  : Option Nat
  cls   : Nat
  swz   : Nat
  prel  : Bool
  peer  : Nat
  rank  : Nat
  space : Nat
  rsv   : Bool
  deriving DecidableEq, Repr

def layOf (b : BitVec 512) : Lay :=
  let f (lo w : Nat) : Nat := natBits b.toNat lo w
  { str := (List.range 5).map fun i => (b.extractLsb' (296 + 40 * i) 40).toInt,
    ext := (List.range 5).map fun i => f (136 + 32 * i) 32,
    base := f 80 56, spl := f 72 8, spv := b.getLsbD 71, sblk := f 69 2, fmt := f 63 6,
    ring := if b.getLsbD 62 then some (f 56 6) else none,
    cls := f 52 4, swz := f 49 3, prel := b.getLsbD 48, peer := f 44 4, rank := f 41 3, space := f 37 4,
    rsv := f 0 37 != 0 || f 496 16 != 0 }

/-- An entry the kernel does not declare: SPACE 0xF. -/
def noLayout : BitVec 512 := BitVec.ofNat 512 (0xF * 2 ^ 37)
/-- Entry `n` of a context's table; a firmware core's comes from its image (R314). -/
def State.layImage (s : State) (who n : Nat) : BitVec 512 :=
  if isFw who then aget noLayout s.svc.fwLay n else aget noLayout (s.ctx who).layout n
def State.lay (s : State) (who n : Nat) : Lay := layOf (s.layImage who n)

def Lay.isMem (l : Lay) : Bool := decide (l.space ≤ 2)
def Lay.isLocal (l : Lay) : Bool := decide (3 ≤ l.space) && decide (l.space ≤ 8)

/-- The n64 descriptor of a firmware core's window (R402). -/
def fwDesc : BitVec 32 := 0xA1000000
/-- Descriptor `n` of a partition (R69). -/
def State.desc (s : State) (part n : Nat) : BitVec 32 := aget 0 (s.part part).fmtd n
def State.descOk (s : State) (part n : Nat) : Bool := dLegal (s.desc part) (s.desc part n)
/-- Block size of a scale geometry code of an entry, and of a page (R57, R75). -/
def sblkSize (c : Nat) : Nat := 16 * 2 ^ c
def geoSize (c : Nat) : Nat := 8 * 2 ^ c

/-- The rules of R58 that dispatch judges. SBLK is unused in a firmware core's memory entry (R402). -/
def State.layLegal1 (s : State) (who : Nat) (l : Lay) : Bool :=
  decide (l.space ≤ 8) && decide (1 ≤ l.rank) && decide (l.rank ≤ 5) && (l.ext.take l.rank).all (fun e => decide (1 ≤ e)) &&
  (l.sblk != 3 || (isFw who && l.isMem)) && !l.rsv && (l.isMem || s.descOk (s.partOf who) l.fmt)
/-- R58 with the scale plane's rules of R61. -/
def State.layLegal (s : State) (who n : Nat) : Bool :=
  let l := s.lay who n
  s.layLegal1 who l &&
  (isFw who || !l.spv ||
    (let p := s.lay who l.spl
     s.layLegal1 who p && !p.spv && p.rank == l.rank && (p.isMem || dWidth (s.desc (s.partOf who) p.fmt) == 8)))

/-! ## Coordinates (R99) -/

/-- `c[i] := s(CB + i)`, with the immediate added to `c[0]`. -/
def State.coords (s : State) (who : Nat) (cb rank : Nat) (imm : Int) : List Int :=
  (List.range rank).map fun i => ((s.ctx who).ctl.sget (cb + i)).toInt + (if i = 0 then imm else 0)
/-- Adds to one dimension. -/
def addDim (c : List Int) (d : Nat) (k : Int) : List Int := (List.range c.length).map fun i => c.getD i 0 + (if i = d then k else 0)

/-! ## Stops of an access -/

/-- What ends an access before it performs: a trap, or a frame in no memory (R9). -/
inductive Stop
  | trap (t : Trap)
  | gone (a : Nat)
  deriving DecidableEq, Repr

def tBounds (n : Nat) : Trap := ⟨11, 0, BitVec.ofNat 64 n⟩
def tLayout (n : Nat) : Trap := ⟨5, 0, BitVec.ofNat 64 n⟩
def tXlate (c : Nat) (va : Int) : Trap := ⟨10, c, BitVec.ofInt 64 va⟩

/-- The outcome of the operation that issues, from an access's result. -/
def State.finish (s : State) : Except Stop State → Out
  | .ok t => .next t
  | .error (.trap t) => .next (s.trap t)
  | .error (.gone a) => .fault (.noSuchAddress a)

/-! ## Page tables (R341 to R344) -/

def rootEn (r : Word) : Bool := r.getLsbD 0
def rootNode (r : Word) : Nat := natBits r.toNat 16 28 * 2 ^ 16
/-- The virtual address bits that index a level. -/
def vaIndex (va lvl : Nat) : Nat :=
  match lvl with
  | 0 => natBits va 43 13 | 1 => natBits va 30 13 | 2 => natBits va 21 9 | _ => natBits va 16 5
def nodeSize : Nat → Nat | 0 => 65536 | 1 => 65536 | 2 => 4096 | _ => 256
/-- The walk from a node at level `3 - fuel`; an error is a cause of R349. -/
def State.walkFrom (s : State) (va : Nat) : Nat → Nat → Except Nat Page
  | 0, _ => .error 7
  | fuel + 1, node =>
    let lvl := 3 - fuel
    let e := s.mem.read (node + 8 * vaIndex va lvl) 8
    if e % 2 = 0 then .error 1
    else if natBits e 1 1 = 0 then
      if natBits e 2 6 != 0 || natBits e 44 20 != 0 then .error 7
      else
        let next := natBits e 8 36 * 256
        if lvl = 3 || next % nodeSize (lvl + 1) != 0 then .error 7 else s.walkFrom va fuel next
    else if natBits e 4 9 != 0 || natBits e 41 2 = 3 then .error 7
    else
      let big := natBits e 2 1 = 1
      let frame := natBits e 13 28
      if lvl < 2 || big != (lvl = 2) || (big && frame % 32 != 0) then .error 7
      else
        let size := if big then 2 ^ 21 else 2 ^ 16
        .ok { base := va / size * size, size := size, tier := natBits e 41 2, off := frame * 65536,
              w := natBits e 3 1 = 1, fmt := natBits e 45 6, geo := natBits e 43 2, key := natBits e 51 13 }
/-- The walk of R344. -/
def State.walk (s : State) (part : Nat) (va : Int) : Except Nat Page :=
  if va < 0 ∨ 2 ^ 56 ≤ va then .error 8
  else if !rootEn (s.part part).ptroot then .error 1
  else
    match s.walkFrom va.toNat 4 (rootNode (s.part part).ptroot) with
    | .error c => .error c
    | .ok p => if p.tier != 0 && !(aget false s.fab.attached (p.tier - 1)) then .error 1 else .ok p
def Page.covers (p : Page) (va : Int) : Bool := decide ((p.base : Int) ≤ va) && decide (va < (p.base + p.size : Nat))
/-- A translation: pages held by the access's cover, the core's cache, then the walk (R346, R347). -/
def State.translate (s : State) (core part : Nat) (held : List Page) (va : Int) : Except Nat Page :=
  match held.find? (·.covers va) with
  | some p => .ok p
  | none =>
    match s.tlb.find? (fun e => e.1 == core && e.2.1 == part && e.2.2.covers va) with
    | some e => .ok e.2.2
    | none => s.walk part va
/-- The key of a page's slot for a partition; `none` is the key cause (R304). -/
def State.keyId (s : State) (part key : Nat) : Option Nat :=
  match s.svc.keys.find? (fun k => k.1 == key) with
  | some k => if k.2.2 = part then some (k.2.1.toNat + 1) else none
  | none => none
/-- The flat address of a virtual address on its page; `none` is near memory beyond the stacks. -/
def Page.flat (p : Page) (va : Int) : Nat := physFlat p.tier (p.off + (va - p.base).toNat)
def Page.gone (p : Page) (va : Int) : Bool := p.tier == 0 && decide (nearSize ≤ p.off + (va - p.base).toNat)
def tierSuits (space tier : Nat) : Bool := match space with | 0 => true | 1 => tier == 0 | _ => tier != 0

/-! ## Local spaces (R54, R59, R60) -/

/-- Flat base of a local space for an accessing core; peer spaces name another core of the row (R62). -/
def spaceBase (space core peer : Nat) : Nat :=
  match space with
  | 3 => wBase core | 4 => aBase core | 5 => cBase core | 6 => fBase (dieOf core) | 7 => wBase peer | _ => aBase peer
def spaceSize : Nat → Nat | 3 | 7 => 3 * 2 ^ 20 | 4 | 8 => 3 * 2 ^ 19 | 5 => 2 ^ 20 | _ => 2 ^ 23
/-- Rank of the core a peer space names (R62). -/
def Lay.peerRank (l : Lay) (core : Nat) : Nat := if l.prel then (rankOf core + l.peer) % 16 else l.peer
def peerCore (core rank : Nat) : Nat := rowOf core * 16 + rank

/-- A core that may be named as a peer: its scalar unit lives, its row is the instance's partition's, and it is another
core (R62, log 20). -/
def State.peerOk (s : State) (who rank : Nat) : Bool :=
  let c := peerCore (coreOf who) rank
  (s.core c).sltmap.getLsbD 4 && (s.part (s.partOf who)).own.getLsbD (rowOf c) && c != coreOf who

/-! ## Elements of an access (R59, R61, R345) -/

/-- An access resolved: its elements, their scales, the descriptors, and the pages it translated. -/
structure Acc where
  elems  : List Elem
  scales : List (Option Elem) := []
  fmt    : BitVec 32
  sfmt   : BitVec 32 := 0
  geo    : Nat := 0
  pages  : List Page := []
  deriving DecidableEq, Repr

/-- Bounds of R59 on one coordinate vector. -/
def Lay.inBounds (l : Lay) (c : List Int) : Bool :=
  (List.range l.rank).all fun i => decide (0 ≤ c.getD i 0) && decide (c.getD i 0 < (l.ext.getD i 0 : Int))
/-- Element offset, exact. -/
def Lay.offset (l : Lay) (c : List Int) : Int := (List.range l.rank).foldl (fun a i => a + c.getD i 0 * l.str.getD i 0) 0

/-- The rings of a core as a firing finds them, HEAD and TAIL where the firings ahead of it leave them (R66). -/
def State.atFiring (s : State) (core : Nat) : State :=
  s.modCore core fun c => { c with rings := c.rings.map fun p => (p.1, { p.2 with old := { p.2.old with head := p.2.head, tail := p.2.tail } }) }
/-- Slot window of a bound entry: base and limit offsets in its buffer (R59, R64), by the start-of-tick pointers (R66). -/
def State.slotWin (s : State) (core : Nat) (l : Lay) (store : Bool) : Option (Nat × Nat) :=
  l.ring.map fun n =>
    let r := s.ring core n
    let b := r.base * 64 + (if store then r.old.tail else r.old.head) * r.slotSize
    (b, b + r.slotSize)

/-- An element of a local space, with the copy's core for peer spaces. A bound entry stays inside its own space as well, whatever
buffer its ring describes (log 108). -/
def State.localElem (s : State) (core n : Nat) (l : Lay) (peer : Nat) (store : Bool) (w : Nat) (c : List Int) : Except Stop Elem :=
  if !l.inBounds c then .error (.trap (tBounds n))
  else
    let (floor, limit, org) := match s.slotWin core l store with
      | some (b, lim) => (b, min lim (spaceSize l.space), b + l.base)
      | none => (0, spaceSize l.space, l.base)
    let bit := (org : Int) * 8 + l.offset c * w
    if bit < (floor * 8 : Nat) ∨ ((limit * 8 : Nat) : Int) < bit + w then .error (.trap (tBounds n))
    else
      .ok { addr := spaceBase l.space core peer * 8 + bit.toNat, w := w, key := l.swz }

/-- Bytes of a box that an access touches, tested against a touch window (R37). -/
def TWin.holds (t : TWin) (va : Int) (n : Nat) : Bool :=
  (List.range n).all fun i => t.bytes.any fun b => decide ((b.1 : Int) ≤ va + i) && decide (va + i < (b.1 + b.2 : Nat))

/-- The cause of a failed attribute check, in the order of R345. -/
def State.attr (s : State) (part space : Nat) (write : Bool) (p : Page) (fmt geo : Nat) : Option Nat :=
  if !tierSuits space p.tier then some 3
  else if write && !p.w then some 2
  else if (s.keyId part p.key).isNone then some 5
  else if p.fmt != fmt || p.geo != geo then some 4
  else none

/-- Result of one element: a failing address with its cause, a missing frame, or the element. -/
def State.memElem (s : State) (core part space : Nat) (write trusted : Bool) (held : List Page) (fmt geo w : Nat) (bit : Int) :
    Except (Int × Option Nat) (Elem × Page) :=
  let va := bit / 8
  match s.translate core part held va with
  | .error c => .error (va, some c)
  | .ok p =>
    match (if trusted then none else s.attr part space write p fmt geo) with
    | some c => .error (va, some c)
    | none =>
      if p.gone va then .error ((p.off : Int) + (va - p.base), none)
      else .ok ({ addr := p.flat va * 8 + (bit % 8).toNat, w := w, key := (s.keyId part p.key).getD 0 }, p)

/-- The lowest failing address decides the fault (R349). -/
def collect (l : List (Except (Int × Option Nat) (Elem × Page))) : Except Stop (List (Elem × Page)) :=
  let bad := l.filterMap fun r => match r with | .error e => some e | .ok _ => none
  match bad with
  | [] => .ok (l.filterMap fun r => match r with | .ok e => some e | .error _ => none)
  | b :: r =>
    let m := r.foldl (fun a e => if e.1 < a.1 then e else a) b
    match m.2 with
    | some c => .error (.trap (tXlate c m.1))
    | none => .error (.gone m.1.toNat)

/-- Firmware cores reach their memory window alone, element type n64 (R402, R313). -/
def State.fwElem (s : State) (n : Nat) (l : Lay) (c : List Int) : Except Stop Elem :=
  if !l.inBounds c then .error (.trap (tBounds n))
  else if l.base % 8 != 0 then .error (.trap (tLayout n))
  else
    let va := (l.base : Int) + l.offset c * 8
    if va < 0 ∨ (s.svc.winSize : Int) < va + 8 then .error (.trap (tXlate 6 va))
    else .ok { addr := (s.svc.winOff + va.toNat) * 8, w := 64 }

/-- Every element in order, or the first error. -/
def mapOk {α β ε : Type} (f : α → Except ε β) : List α → Except ε (List β)
  | [] => .ok []
  | a :: r =>
    match f a with
    | .error e => .error e
    | .ok b =>
      match mapOk f r with
      | .error e => .error e
      | .ok l => .ok (b :: l)

/-- The page that holds BASE, which an access translates first, and its descriptor; a fault there reports BASE (R57). The checks
stand in the order of R345; the key waits for the elements. -/
def State.basePage (s : State) (who : Nat) (l : Lay) (write scalePlane : Bool) : Except Stop (Page × BitVec 32) :=
  let part := s.partOf who
  match s.translate (coreOf who) part [] l.base with
  | .error c => .error (.trap (tXlate c l.base))
  | .ok p =>
    let d := s.desc part p.fmt
    if !tierSuits l.space p.tier then .error (.trap (tXlate 3 l.base))
    else if !s.descOk part p.fmt || (scalePlane && dWidth d != 8) then
      .error (.trap (tXlate (if write && !p.w then 2 else if (s.keyId part p.key).isNone then 5 else 4) l.base))
    else .ok (p, d)
/-- Origin of an entry of a memory space: BASE, on top of its ring's slot where it is bound to one (R59). -/
def State.memOrigin (s : State) (core : Nat) (l : Lay) (store : Bool) : Nat :=
  (match s.slotWin core l store with | some (b, _) => b | none => 0) + l.base
/-- Bit addresses of elements of `w` bits. -/
def Lay.bits (l : Lay) (org w : Nat) (cs : List (List Int)) : List Int := cs.map fun c => (org : Int) * 8 + l.offset c * w
/-- An open window whose box holds every byte of the elements (R37). -/
def coverOf (wins : List TWin) (w : Nat) (bits : List Int) : Option TWin :=
  wins.find? fun t => bits.all fun b => t.holds (b / 8) ((w + 7) / 8)
/-- A page of an open window, as `pick` takes it from the window, under whose format the window's box holds every byte of the access:
what that page gave when the window opened stands (R37, R347). `shape` gives the coordinates by the element size. -/
def State.heldPage (s : State) (who : Nat) (l : Lay) (wins : List TWin) (org : Nat) (pick : TWin → Option Page)
    (shape : Nat → List (List Int)) : Option (Page × TWin) :=
  wins.findSome? fun t => (pick t).bind fun p =>
    let w := dWidth (s.desc (s.partOf who) p.fmt)
    let cs := shape w
    if !cs.isEmpty && (coverOf [t] w (l.bits org w cs)).isSome then some (p, t) else none
/-- The page that gives the format, with its descriptor, and the window that spares the access every fault (R37, R57): the window's own
page of BASE, or the page that BASE has now; where that one fails, the format is that of the window's first page. -/
def State.memFmt (s : State) (who : Nat) (l : Lay) (write scalePlane : Bool) (wins : List TWin) (org : Nat) (cs : List (List Int)) :
    Except Stop (Page × BitVec 32 × Option TWin) :=
  let d (p : Page) : BitVec 32 := s.desc (s.partOf who) p.fmt
  match s.heldPage who l wins org (fun t => t.pages.find? (·.covers l.base)) fun _ => cs with
  | some (p, t) => .ok (p, d p, some t)
  | none =>
    match s.basePage who l write scalePlane with
    | .ok (p, f) =>
      let c := if cs.isEmpty then none else coverOf wins (dWidth f) (l.bits org (dWidth f) cs)
      if c.isNone && (s.keyId (s.partOf who) p.key).isNone then
        .error (.trap (tXlate (if write && !p.w && (l.bits org (dWidth f) cs).any (fun b => p.covers (b / 8)) then 2 else 5) l.base))
      else .ok (p, f, c)
    | .error e =>
      match s.heldPage who l wins org (fun t => t.pages.head?) fun _ => cs with
      | some (p, t) => .ok (p, d p, some t)
      | none => .error e
/-- The elements that coordinates name through an entry of a memory space (R57, R59, R345). An entry with SPV over pages without
scales is out of bounds (R75). -/
def State.memAccess (s : State) (who n : Nat) (l : Lay) (write scalePlane : Bool) (cs : List (List Int)) : Except Stop Acc :=
  let core := coreOf who
  let part := s.partOf who
  let wins := (s.ctx who).wins.filter fun t => t.left != 0 && (!write || t.w)
  if cs.any fun c => !l.inBounds c then .error (.trap (tBounds n))
  else
    let org := s.memOrigin core l write
    match s.memFmt who l write scalePlane wins org cs with
    | .error e => .error e
    | .ok (bp, d, cover) =>
      let w := dWidth d
      let bits := l.bits org w cs
      if l.base % (w / 8) != 0 && w != 4 then .error (.trap (tLayout n))
      else
        let geo := if scalePlane then 0 else bp.geo
        let f (b : Int) := match cover with
          | some t => s.memElem core part l.space write true t.pages bp.fmt geo w b
          | none =>
            if scalePlane then
              match s.translate core part [] (b / 8) with
              | .ok p => s.memElem core part l.space write false [] bp.fmt p.geo w b
              | .error c => .error (b / 8, some c)
            else s.memElem core part l.space write false [] bp.fmt geo w b
        match collect (bits.map f) with
        | .error e => .error e
        | .ok r =>
          if l.spv && bp.geo == 0 then .error (.trap (tBounds n))
          else .ok { elems := r.map (·.1), fmt := d, geo := bp.geo, pages := bp :: (r.map (·.2)).eraseDups }

/-- The elements that coordinates name through entry `n` for a load or a store, without their scales. -/
def State.access1 (s : State) (who n : Nat) (write scalePlane : Bool) (cs : List (List Int)) : Except Stop Acc :=
  let l := s.lay who n
  if l.isMem then
    if isFw who then
      match mapOk (s.fwElem n l) cs with
      | .error e => .error e
      | .ok es => .ok { elems := es, fmt := fwDesc }
    else s.memAccess who n l write scalePlane cs
  else if !l.isLocal then .error (.trap (tLayout n))
  else if 7 ≤ l.space && !s.peerOk who (l.peerRank (coreOf who)) then
    .error (.trap ⟨15, 0, BitVec.ofNat 64 (l.peerRank (coreOf who))⟩)
  else
    let d := s.desc (s.partOf who) l.fmt
    match mapOk (s.localElem (coreOf who) n l (peerCore (coreOf who) (l.peerRank (coreOf who))) write (dWidth d)) cs with
    | .error e => .error e
    | .ok es => .ok { elems := es, fmt := d }

/-- The access with its block scales, where the entry carries them and `dec` asks for them (R61, R75). -/
def State.access (s : State) (who n : Nat) (write dec : Bool) (cs : List (List Int)) : Except Stop Acc :=
  let l := s.lay who n
  match s.access1 who n write false cs with
  | .error e => .error e
  | .ok a =>
    if !l.spv || isFw who || !dec then .ok a
    else
      let k := if l.isMem then geoSize a.geo else sblkSize l.sblk
      match s.access1 who l.spl false true (cs.map fun c => (c.getD 0 0 / (k : Int)) :: c.drop 1) with
      | .error e => .error e
      | .ok p => .ok { a with scales := p.elems.map some, sfmt := s.desc (s.partOf who) (dSfmt a.fmt), pages := a.pages ++ p.pages }

/-- Element size of an entry without touching an element: the local descriptor's, or the page that holds BASE (R57), as an open window
holds it whose box has every byte of the access (R37); `shape` gives the coordinates by the element size. A store's want of W stops it
ahead of a key or a format (R345). -/
def State.esize (s : State) (who n : Nat) (write : Bool) (shape : Nat → List (List Int)) : Except Stop (BitVec 32) :=
  let l := s.lay who n
  if l.isMem then
    if isFw who then .ok fwDesc
    else
      let wins := (s.ctx who).wins.filter fun t => t.left != 0 && (!write || t.w)
      let org := s.memOrigin (coreOf who) l write
      let d (p : Page) : BitVec 32 := s.desc (s.partOf who) p.fmt
      match s.heldPage who l wins org (fun t => t.pages.find? (·.covers l.base)) shape with
      | some (p, _) => .ok (d p)
      | none =>
        match s.basePage who l write false with
        | .ok (_, f) => .ok f
        | .error e =>
          match s.heldPage who l wins org (fun t => t.pages.head?) shape with
          | some (p, _) => .ok (d p)
          | none => .error e
  else .ok (s.desc (s.partOf who) l.fmt)

/-! ## Rings of the operation that issues (R65, R66, R141, R177) -/

/-- A ring of the operation's core. -/
def State.myRing (s : State) (n : Nat) : Ring := s.ring (coreOf s.cur.who) n
/-- A ring of the operation's core among all rings. -/
def State.rk (s : State) (n : Nat) : Nat := coreOf s.cur.who * 64 + n
/-- Bytes of a local space or of a window as the operation's own context sees them (R190). `a` is a multiple of 64. -/
def State.ownBytes (s : State) (a n : Nat) : Nat :=
  let ov := s.overlay s.cur.who
  if ov.isEmpty then s.bytes a n
  else packElems 512 ((List.range ((n + 63) / 64)).map fun i => overlayUnit ov (a / 64 + i) (s.bytes (a + 64 * i) 64)) % 2 ^ (8 * n)
/-- Pops a ring of the operation's core: the slot's first bytes, and its credit withheld until the release. -/
def State.popSlot (s : State) (n size : Nat) : Nat × State :=
  let core := coreOf s.cur.who
  let r := s.ring core n
  (s.ownBytes (ringSlot core r r.head) size, s.modRing core n fun r => (r.pop 1 true).credit 1 0 true)
/-- Pushes data into the first bytes of the slot at TAIL; the rest of the slot is unchanged. -/
def State.pushSlot (s : State) (n size v : Nat) : State :=
  let core := coreOf s.cur.who
  let r := s.ring core n
  (s.putBytes (ringSlot core r r.tail) size v).modRing core n fun r => (r.push true).credit 0 1 true
/-- Rings of the operation's core with a filled slot, and with a free one. -/
def State.filled (s : State) (n : Nat) : Bool := (s.ring (coreOf s.cur.who) n).canPop 1
def State.freeSlot (s : State) (n : Nat) : Bool := (s.ring (coreOf s.cur.who) n).canPush
/-- The bytes of `n` slots of a ring from its HEAD, in ring order (R175). -/
def State.ringRun (s : State) (core n k : Nat) : Nat :=
  let r := s.ring core n
  (List.range k).foldl (fun a j => a + s.ownBytes (ringSlot core r (r.head + j)) r.slotSize * 2 ^ (8 * (j * r.slotSize))) 0

/-- Every coordinate vector of a box from an origin, dimension 0 innermost (R59, R203). -/
def boxCoords : List Int → List Nat → List (List Int)
  | o :: os, e :: es =>
    let rest := boxCoords os es
    (rest.map fun r => (List.range e).map fun i => (o + (i : Int)) :: r).flatten
  | _, _ => [[]]
/-- The whole extent of an entry. -/
def Lay.box (l : Lay) : List (List Int) := boxCoords (List.replicate l.rank 0) (l.ext.take l.rank)

/-! ## Records that reach a context (R204, R234, R357) -/

/-- The unit at a virtual address of a partition, for a whole-unit access that checks what a main-space access checks. -/
def State.unitAt (s : State) (core part va : Nat) (write : Bool) : Except Stop (Nat × Nat) :=
  match s.translate core part [] va with
  | .error c => .error (.trap (tXlate c va))
  | .ok p =>
    match s.attr part 0 write p p.fmt p.geo with
    | some c => .error (.trap (tXlate c va))
    | none =>
      if !s.descOk part p.fmt then .error (.trap (tXlate 4 va))
      else if p.gone va then .error (.gone (p.off + (va - p.base)))
      else .ok ((s.keyId part p.key).getD 0, p.flat va / 64)
/-- Byte offset of an entry of a result queue in a snapshot: q0 to q3 take 64 bytes an entry, q4 and q5 512 (R355, log 11). -/
def queueAt (q j : Nat) : Nat := if q < 4 then 0x15000 + 0x400 * q + 64 * j else 0x16000 + 0x2000 * (q - 4) + 512 * j
/-- An entry of q0 to q3 in its 64 bytes: its record, then whether it stands, has arrived or is fresh, its ticks, number and
position. -/
def QEnt.unit (e : QEnt) : Nat :=
  packElems 64 [e.data, 1 + 2 * e.arrived.toNat + 4 * e.fresh.toNat, e.left, e.id, e.seq]
/-- A record reaches its pending place in a saved context: in the snapshot's memory too, as its mapping stands (R357). -/
def State.deliverTo (s : State) (n : Snap) (q id data : Nat) : State :=
  let l := n.ctx.rqGet q
  match (List.range l.length).find? fun j => match l[j]? with | some e => e.id == id && !e.arrived | none => false with
  | none => s
  | some j =>
    let n' := { n with ctx := n.ctx.gotRecord q id data }
    let s := { s with svc := { s.svc with snaps := s.svc.snaps.map fun (m : Snap) => if m.id = n.id then n' else m } }
    match s.unitAt (coreOf n.place) n.part (n.addr + queueAt q j) true, l[j]? with
    | .ok (k, u), some e => s.writeUnit k u { e with arrived := true, left := 0, data := data }.unit (ones 512)
    | _, _ => s
/-- A command without a record is over: its place in a saved context is marked (R357, log 11). -/
def State.quietDone (s : State) (id : Nat) : State :=
  s.svc.snaps.foldl (fun s n =>
    match (List.range n.quiet.length).find? fun j => n.quiet[j]? == some (id + 1) with
    | none => s
    | some j =>
      let m := { n with quiet := n.quiet.set j 0 }
      let s := { s with svc := { s.svc with snaps := s.svc.snaps.map fun (x : Snap) => if x.id = n.id then m else x } }
      match s.unitAt (coreOf n.place) n.part (n.addr + 0x1A700 + 8 * j / 64 * 64) true with
      | .ok (k, u) => s.writeUnit k u 0 (ones 64 <<< (64 * (j % 8)))
      | _ => s) s
/-- A command of the context's present instance, not of one that a snapshot holds, is under way in a class that a test takes. -/
def State.engineOpen (s : State) (who : Nat) (p : Nat → Bool) : Bool :=
  let mine (id : Nat) : Bool := !s.svc.snaps.any fun n => n.quiet.contains (id + 1) || n.ctx.rq.any fun q => q.2.any fun e => e.id == id && !e.arrived
  (s.cmds.any fun r => r.who == who && !r.closed && p r.cls && mine r.id) ||
  (s.die (dieOfWho who)).stage.queue.any fun o => o.who == who && p o.cls && mine o.id
def State.deliver (s : State) (who q id data : Nat) : State :=
  let s := s.modCtx who fun c => c.gotRecord q id data
  s.svc.snaps.foldl (fun s n => s.deliverTo n q id data) s

/-! ## Near addresses of a queue (R319, R322)

They are virtual addresses of the queue's partition that its tables place in near memory; queue 0, which belongs to no
partition, gives offsets of near memory itself (log 31). -/

/-- Key and unit of a near address; no key stands for memory read as it is. -/
def State.nearUnit (s : State) (part a : Nat) : Option (Option Nat × Nat) :=
  if 48 ≤ part then (if a < nearSize then some (none, a / 64) else none)
  else
    match s.unitAt 0 part a false with
    | .ok (k, u) => if u * 64 < nearSize then some (some k, u) else none
    | .error _ => none
/-- Units of an open queue's completion ring. -/
def State.ringUnits (s : State) (c : CmdQ) : List Nat :=
  if c.opened then (List.range ((c.count + 1) / 2)).filterMap fun i => (s.nearUnit c.part ((c.cbase / 64 + i) * 64)).map (·.2) else []
/-- The port that carries a unit of near memory to the host: that of the queue whose completion ring holds it (log 64). -/
def State.ringPort (s : State) (u : Nat) : Option Nat :=
  (s.svc.queues.find? fun q => (s.ringUnits q.2).contains u).map fun q => s.svc.portOf q.1

end Sys2Proof.Machine
end

