-- ==== Sys2Proof/Machine/Scalar.lean ====
section
/-! DEFINITION. Scalar slot: integer, predicate and immediate operations, result-queue pops and context registers
(R115 to R122, R132 to R136), and the empty slot (R89). -/

namespace Sys2Proof.Machine

/-- An S operation that writes one scalar after its latency; with a false guard nothing happens (R115, R116). -/
def alu (g : Guard) (lat : Nat) (sd : BitVec 6) (v : Word) (s : State) : Out :=
  .next (if s.guard g then s.postS lat sd v else s)
/-- The same for a predicate. -/
def palu (g : Guard) (pd : BitVec 4) (b : Bool) (s : State) : Out := .next (if s.guard g then s.postP 1 pd b else s)

/-- An all-zero slot does nothing (R89). -/
def execNop (_k : Kind) (s : State) : Out := .next s

/-! ## Integer operations (R118) -/

def execAdd (g : Guard) (sd sa sb : BitVec 6) (s : State) : Out := alu g 1 sd (s.sreg sa + s.sreg sb) s
def execSub (g : Guard) (sd sa sb : BitVec 6) (s : State) : Out := alu g 1 sd (s.sreg sa - s.sreg sb) s
def execMul (g : Guard) (sd sa sb : BitVec 6) (s : State) : Out := alu g 3 sd (s.sreg sa * s.sreg sb) s
/-- The high half of the signed product. -/
def execMulh (g : Guard) (sd sa sb : BitVec 6) (s : State) : Out :=
  alu g 3 sd (((s.sreg sa).signExtend 128 * (s.sreg sb).signExtend 128).extractLsb' 64 64) s
def execMulhn (g : Guard) (sd sa sb : BitVec 6) (s : State) : Out :=
  alu g 3 sd (((s.sreg sa).setWidth 128 * (s.sreg sb).setWidth 128).extractLsb' 64 64) s
def execAnd (g : Guard) (sd sa sb : BitVec 6) (s : State) : Out := alu g 1 sd (s.sreg sa &&& s.sreg sb) s
def execOr (g : Guard) (sd sa sb : BitVec 6) (s : State) : Out := alu g 1 sd (s.sreg sa ||| s.sreg sb) s
def execXor (g : Guard) (sd sa sb : BitVec 6) (s : State) : Out := alu g 1 sd (s.sreg sa ^^^ s.sreg sb) s
def execAndn (g : Guard) (sd sa sb : BitVec 6) (s : State) : Out := alu g 1 sd (s.sreg sa &&& ~~~ s.sreg sb) s
/-- Shifts by an amount that is never masked (R82): 64 or more shifts everything out. -/
def execShl (g : Guard) (sd sa sb : BitVec 6) (s : State) : Out :=
  alu g 1 sd (if 64 ≤ (s.sreg sb).toNat then 0 else s.sreg sa <<< (s.sreg sb).toNat) s
def execShr (g : Guard) (sd sa sb : BitVec 6) (s : State) : Out :=
  alu g 1 sd (if 64 ≤ (s.sreg sb).toNat then 0 else s.sreg sa >>> (s.sreg sb).toNat) s
def execSar (g : Guard) (sd sa sb : BitVec 6) (s : State) : Out :=
  alu g 1 sd ((s.sreg sa).sshiftRight (Nat.min (s.sreg sb).toNat 64)) s
def execMin (g : Guard) (sd sa sb : BitVec 6) (s : State) : Out :=
  alu g 1 sd (if (s.sreg sa).slt (s.sreg sb) then s.sreg sa else s.sreg sb) s
def execMax (g : Guard) (sd sa sb : BitVec 6) (s : State) : Out :=
  alu g 1 sd (if (s.sreg sa).slt (s.sreg sb) then s.sreg sb else s.sreg sa) s
def execMinn (g : Guard) (sd sa sb : BitVec 6) (s : State) : Out :=
  alu g 1 sd (if (s.sreg sa).ult (s.sreg sb) then s.sreg sa else s.sreg sb) s
def execMaxn (g : Guard) (sd sa sb : BitVec 6) (s : State) : Out :=
  alu g 1 sd (if (s.sreg sa).ult (s.sreg sb) then s.sreg sb else s.sreg sa) s
/-- Leading zero bits; 64 for zero. -/
def clz64 (x : Word) : Nat := if x = 0 then 64 else 63 - x.toNat.log2
def popc64 (x : Word) : Nat := ((List.range 64).filter fun i => x.getLsbD i).length
def execClz (g : Guard) (sd sa : BitVec 6) (s : State) : Out := alu g 1 sd (BitVec.ofNat 64 (clz64 (s.sreg sa))) s
def execPopc (g : Guard) (sd sa : BitVec 6) (s : State) : Out := alu g 1 sd (BitVec.ofNat 64 (popc64 (s.sreg sa))) s
/-- The low `w` bits, extended with the sign or with zeros. -/
def execSext (g : Guard) (sd sa : BitVec 6) (w : BitVec 8) (s : State) : Out :=
  alu g 1 sd (((s.sreg sa).setWidth w.toNat).signExtend 64) s
def execZext (g : Guard) (sd sa : BitVec 6) (w : BitVec 8) (s : State) : Out :=
  alu g 1 sd (((s.sreg sa).setWidth w.toNat).setWidth 64) s
def execMov (g : Guard) (sd sa : BitVec 6) (s : State) : Out := alu g 1 sd (s.sreg sa) s

/-! ## Divisions (R119) -/

/-- Issues a producer of q1 that pushes 66 ticks later; with q1 full it waits in its queue (R49, R119). -/
def divide (g : Guard) (v : Word) (s : State) : Out :=
  .next <|
    if !s.guard g then s
    else if !s.me.rqRoom 1 then s.unissue
    else
      let (id, t) := s.newId
      t.modMe fun c => c.rqPush 1 { id := id, left := 66, data := v.toNat, seq := s.cur.ent.seq, fresh := true }
/-- Signed quotient rounded toward zero; all ones for a zero divisor. -/
def divS (a b : Word) : Word := if b = 0 then BitVec.allOnes 64 else BitVec.ofInt 64 (a.toInt.tdiv b.toInt)
def divN (a b : Word) : Word := if b = 0 then BitVec.allOnes 64 else BitVec.ofNat 64 (a.toNat / b.toNat)
/-- Remainder with the sign of the dividend; the dividend for a zero divisor. -/
def remS (a b : Word) : Word := if b = 0 then a else BitVec.ofInt 64 (a.toInt.tmod b.toInt)
def remN (a b : Word) : Word := if b = 0 then a else BitVec.ofNat 64 (a.toNat % b.toNat)
def execDiv (g : Guard) (sa sb : BitVec 6) (s : State) : Out := divide g (divS (s.sreg sa) (s.sreg sb)) s
def execDivn (g : Guard) (sa sb : BitVec 6) (s : State) : Out := divide g (divN (s.sreg sa) (s.sreg sb)) s
def execRem (g : Guard) (sa sb : BitVec 6) (s : State) : Out := divide g (remS (s.sreg sa) (s.sreg sb)) s
def execRemn (g : Guard) (sa sb : BitVec 6) (s : State) : Out := divide g (remN (s.sreg sa) (s.sreg sb)) s

/-! ## Immediates (R120) -/

def execAddi (g : Guard) (sd sa : BitVec 6) (imm : BitVec 40) (s : State) : Out := alu g 1 sd (s.sreg sa + imm.signExtend 64) s
def execLi (g : Guard) (sd : BitVec 6) (imm : BitVec 40) (s : State) : Out := alu g 1 sd (imm.signExtend 64) s
def execLih (g : Guard) (sd sa : BitVec 6) (imm : BitVec 24) (s : State) : Out :=
  alu g 1 sd (imm ++ (s.sreg sa).extractLsb' 0 40) s

/-! ## Compares, selects, predicates (R121, R122) -/

def State.preg (s : State) (p : BitVec 4) : Bool := s.me.ctl.pget p.toNat
def execCmp (g : Guard) (c : ICond) (pd : BitVec 4) (sa sb : BitVec 6) (s : State) : Out :=
  palu g pd (icond c (s.sreg sa) (s.sreg sb)) s
def execSel (g : Guard) (sd : BitVec 6) (pc : BitVec 4) (sa sb : BitVec 6) (s : State) : Out :=
  alu g 1 sd (if s.preg pc then s.sreg sa else s.sreg sb) s
def execPand (g : Guard) (pd pa pb : BitVec 4) (s : State) : Out := palu g pd (s.preg pa && s.preg pb) s
def execPor (g : Guard) (pd pa pb : BitVec 4) (s : State) : Out := palu g pd (s.preg pa || s.preg pb) s
def execPxor (g : Guard) (pd pa pb : BitVec 4) (s : State) : Out := palu g pd ((s.preg pa).xor (s.preg pb)) s
def execPnot (g : Guard) (pd pa : BitVec 4) (s : State) : Out := palu g pd (!s.preg pa) s

/-! ## Index bases and views (R132, R133) -/

/-- The base is written at once; it comes into force at the next group boundary, which dispatch keeps (R31, R132). -/
def execIbw (g : Guard) (ib : BitVec 3) (sa : BitVec 6) (s : State) : Out :=
  .next (if s.guard g then s.modMe fun c => { c with ctl := { c.ctl with ib := aset c.ctl.ib ib.toNat ((s.sreg sa).setWidth 16) } } else s)

/-- The view a `vwr` names, and its write into the control state. -/
def selView : ViewSel → View | .v => .v | .w => .w | .t => .t | .a => .a
def Ctl.setView (c : Ctl) (sel : ViewSel) (r : BitVec 32) : Ctl :=
  match sel with
  | .v => { c with vv := r } | .w => { c with vw := r } | .t => { c with vt := r } | .a => { c with va := r }
/-- A setting beyond 21 bits or against R42 raises the illegal-view trap; its FLT.ADDR is the view's FN value (log 17). -/
def execVwr (g : Guard) (sel : ViewSel) (sa : BitVec 6) (s : State) : Out :=
  .next <|
    if !s.guard g then s
    else
      let x := s.sreg sa
      if x.toNat < 2 ^ 21 && viewOk (selView sel).size (s.winSize s.cur.who) (x.setWidth 32) then
        s.modMe fun c => { c with ctl := c.ctl.setView sel (x.setWidth 32) }
      else s.trap ⟨4, 0, sel.bits.setWidth 64⟩

/-! ## The instance and its place (R134) -/

/-- Bits of field `i` of the WID (R18). -/
def widField (i : Inst) (n : Nat) : Nat :=
  let o := ((i.widths.take n).foldl (· + ·) 0)
  natBits i.wid.toNat o (i.widths.getD n 0)
/-- What `wid` reads; without an instance every field is 0. -/
def widValue (i : Inst) (n : Nat) : Word :=
  if n ≤ 5 then BitVec.ofNat 64 (widField i n)
  else if n = 6 then i.wid
  else if n ≤ 13 then BitVec.ofNat 64 (i.counts.getD (n - 8) 0)
  else BitVec.ofNat 64 (i.widths.getD (n - 16) 0)
def execWid (g : Guard) (sd : BitVec 6) (n : BitVec 8) (s : State) : Out :=
  alu g 1 sd ((s.me.inst.map fun i => widValue i n.toNat).getD 0) s
/-- Rank, row, die or context number (R134). A firmware core's are its number, 0, 4 and 0 (the model's choice,
log 90). They name the present place, also of an instance that was restored elsewhere (log 117). -/
def rankValue (who n : Nat) : Nat :=
  match n with
  | 0 => rankOf (coreOf who) | 1 => rowOf (coreOf who) % 4 | 2 => dieOf (coreOf who) | _ => ctxOf who
def execRank (g : Guard) (sd : BitVec 6) (n : BitVec 8) (s : State) : Out :=
  alu g 1 sd (BitVec.ofNat 64 (rankValue s.cur.who n.toNat)) s

/-! ## Result queues and numeric registers (R135, R136, R80, R81) -/

/-- Pops q0 to q3 under R50: an empty queue blocks, or gives zero and a false predicate. -/
def execQpop (g : Guard) (sd : BitVec 6) (pd : BitVec 4) (q : BitVec 2) (eb : Bool) (s : State) : Out :=
  .next <|
    if !s.guard g then s
    else
      match s.me.rqHead q.toNat with
      | some e => ((s.modMe fun c => c.rqPop q.toNat).postS 1 sd (BitVec.ofNat 64 e.data)).postP 1 pd true
      | none => if eb then (s.postS 1 sd 0).postP 1 pd false else s.block (.queue q.toNat)

/-- The registers of R136. -/
def Ctx.csr (c : Ctx) (n : Nat) : Word :=
  match n with
  | 1 => c.ctl.fstat.setWidth 64
  | 2 => (bit1 c.ctl.nbv).setWidth 64
  | 3 => c.ctl.srseed
  | 4 => c.ctl.sridx.setWidth 64
  | 0x10 => c.ticks
  | _ => c.bundles
def Ctl.csrSet (c : Ctl) (n : Nat) (v : Word) : Ctl :=
  match n with
  | 1 => { c with fstat := v.setWidth 7 }
  | 2 => { c with nbv := v.getLsbD 0 }
  | 3 => { c with srseed := v }
  | _ => { c with sridx := v.setWidth 32 }
def execCsrr (g : Guard) (sd : BitVec 6) (csr : BitVec 8) (s : State) : Out := alu g 1 sd (s.me.csr csr.toNat) s
def execCsrw (g : Guard) (csr : BitVec 8) (sa : BitVec 6) (s : State) : Out :=
  .next (if s.guard g then s.modMe fun c => { c with ctl := c.ctl.csrSet csr.toNat (s.sreg sa) } else s)

end Sys2Proof.Machine
end

