-- ==== Sys2Proof/Machine/Float.lean ====
section
/-! DEFINITION. Scalar floating point (R123 to R126). -/

namespace Sys2Proof.Machine

/-- The stochastic bits of the operation that issues, for a lane (R78). -/
def State.rb (s : State) (lane : Nat) : Nat := rbits s.me.ctl.srseed lane s.cur.ent.sridx.toNat
/-- A scalar read as a value of a type. -/
def State.fval (s : State) (t : ETy) (r : BitVec 6) : FVal := (etFmt t).decode true (natBits (s.sreg r).toNat 0 t.width)
/-- Rounds an exact result once and writes it with its flags (R123). -/
def falu (g : Guard) (lat : Nat) (rm : BitVec 3) (t : ETy) (sd : BitVec 6) (x : FVal × BitVec 7) (s : State) : Out :=
  .next <|
    if !s.guard g then s
    else
      let (c, f) := (etFmt t).round true rm.toNat (s.rb 0) x.1
      (s.setFlags (x.2 ||| f)).postS lat sd (BitVec.ofNat 64 c)

def execFadd (g : Guard) (rm : BitVec 3) (t : ETy) (sd sa sb : BitVec 6) (s : State) : Out :=
  falu g 4 rm t sd ((s.fval t sa).add (rm == 2) (s.fval t sb)) s
def execFsub (g : Guard) (rm : BitVec 3) (t : ETy) (sd sa sb : BitVec 6) (s : State) : Out :=
  falu g 4 rm t sd ((s.fval t sa).add (rm == 2) (s.fval t sb).neg) s
def execFmul (g : Guard) (rm : BitVec 3) (t : ETy) (sd sa sb : BitVec 6) (s : State) : Out :=
  falu g 4 rm t sd ((s.fval t sa).mul (s.fval t sb)) s
def execFfma (g : Guard) (rm : BitVec 3) (t : ETy) (sd sa sb sc : BitVec 6) (s : State) : Out :=
  falu g 4 rm t sd (FVal.fma (rm == 2) (s.fval t sa) (s.fval t sb) (s.fval t sc)) s
def execFcmp (g : Guard) (c : FCond) (t : ETy) (pd : BitVec 4) (sa sb : BitVec 6) (s : State) : Out :=
  palu g pd (fcond c (s.fval t sa) (s.fval t sb)) s
/-- Conversion; a signed 32-bit result fills the register with its sign (R126). -/
def execFcvt (g : Guard) (rm : BitVec 3) (t u : ETy) (sd sa : BitVec 6) (s : State) : Out :=
  .next <|
    if !s.guard g then s
    else
      let (c, f) := (etFmt t).round true rm.toNat (s.rb 0) (s.fval u sa)
      let v := if t = .s32 then (BitVec.ofNat 32 c).signExtend 64 else BitVec.ofNat 64 c
      (s.setFlags f).postS 2 sd v

end Sys2Proof.Machine
end

