-- ==== Sys2Proof/Machine/Special.lean ====
section
/-! DEFINITION. The special functions of R159 and R160 as values to be rounded once. Rational and algebraic results carry
their exact bits and a sticky bit; the others come from fixed-point series of 192 bits, with the sticky bit set where the
mathematical value is no dyadic number (log 10). -/

namespace Sys2Proof.Machine

/-- Fraction bits of the fixed-point series. -/
def fxP : Nat := 192
def fxOne : Nat := 2 ^ fxP
/-- ln 2, and π, in fixed point (rounded down). -/
def fxLn2 : Nat := 0xb17217f7d1cf79abc9e3b39803f2f6af40f343267298b62d
def fxPi : Nat := 0x3243f6a8885a308d313198a2e03707344a4093822299f31d0
def fxMul (a b : Nat) : Nat := a * b / fxOne

/-- A positive magnitude `m * 2^e` with a sticky bit below it. -/
def sticky (neg : Bool) (m : Nat) (e : Int) (more : Bool) : FVal := .fin neg (2 * m + (if more then 1 else 0)) (e - 1)

/-- The sum of `x^k / k!`, term by term. -/
def fxExpAux (x : Nat) : Nat → Nat → Nat → Nat
  | 0, _, _ => 0
  | n + 1, k, t => t + fxExpAux x n (k + 1) (fxMul t x / k)
/-- e^x for `x` below 1. -/
def fxExp (x : Nat) : Nat := fxExpAux x 60 1 fxOne
/-- The sum of `z^(2k+1) / (2k+1)`. -/
def fxAtanhAux (z2 : Nat) : Nat → Nat → Nat → Nat
  | 0, _, _ => 0
  | n + 1, k, t => t / k + fxAtanhAux z2 n (k + 2) (fxMul t z2)
/-- ln y for `y` in [1, 2), as 2 atanh((y - 1) / (y + 1)). -/
def fxLn (y : Nat) : Nat :=
  let z := (y - fxOne) * fxOne / (y + fxOne)
  2 * fxAtanhAux (fxMul z z) 70 1 z
/-- Alternating sums of the sine and cosine series; `t` is the next term and `k` its factorial step. -/
def fxTrigAux (x2 : Nat) : Nat → Nat → Nat → Int
  | 0, _, _ => 0
  | n + 1, k, t => (t : Int) - fxTrigAux x2 n (k + 2) (fxMul t x2 / (k * (k + 1)))
def fxSin (x : Nat) : Nat := (fxTrigAux (fxMul x x) 40 2 x).toNat
def fxCos (x : Nat) : Nat := (fxTrigAux (fxMul x x) 40 1 fxOne).toNat

/-- `m * 2^e` in fixed point, with whether bits fell off. -/
def toFx (m : Nat) (e : Int) : Nat × Bool :=
  let k := e + fxP
  if 0 ≤ k then (m * 2 ^ k.toNat, false) else (m / 2 ^ (-k).toNat, m % 2 ^ (-k).toNat != 0)

/-- 2^a (R159, R160). -/
def spExp2 : FVal → FVal × BitVec 7
  | .nan _ => (.nan false, 0)
  | .inf n => (if n then .zero false else .inf false, 0)
  | .fin n m e =>
    if m = 0 then (.fin false 1 0, 0)
    else if 0 ≤ e + (m.log2 : Int) ∧ 12 ≤ e + (m.log2 : Int) then
      -- far outside every class F range: the rounding rule sees an exponent of the right side
      (.fin false 3 (if n then -5000 else 5000), 0)
    else
      let v : Int := if n then -(m : Int) else m
      let ip : Int := if 0 ≤ e then v * 2 ^ e.toNat else v / 2 ^ (-e).toNat
      let fr : Nat := if 0 ≤ e then 0 else (v % 2 ^ (-e).toNat).toNat
      if fr = 0 then (.fin false 1 ip, 0)
      else
        let (f, lost) := toFx fr e
        if f = 0 ∧ lost then (sticky false fxOne (ip - fxP) true, 0)
        else (sticky false (fxExp (fxMul f fxLn2)) (ip - fxP) true, 0)

/-- log2 a. -/
def spLog2 : FVal → FVal × BitVec 7
  | .nan _ => (.nan false, 0)
  | .inf n => if n then (.nan false, fIV) else (.inf false, 0)
  | .fin n m e =>
    if m = 0 then (.inf true, fDZ)
    else if n then (.nan false, fIV)
    else
      let l := m.log2
      let k : Int := e + l
      if m = 2 ^ l then (if k = 0 then (.zero false, 0) else (FVal.ofInt k, 0))
      else
        let y := m * fxOne / 2 ^ l
        let v : Int := k * fxOne + (fxLn y * fxOne / fxLn2 : Nat)
        (sticky (decide (v < 0)) v.natAbs (-(fxP : Int)) true, 0)

/-- 1 / a, with 80 quotient bits and a sticky bit. -/
def spRcp : FVal → FVal × BitVec 7
  | .nan _ => (.nan false, 0)
  | .inf n => (.zero n, 0)
  | .fin n m e =>
    if m = 0 then (.inf n, fDZ)
    else
      let k := m.log2 + 80
      (sticky n (2 ^ k / m) (-e - k) (2 ^ k % m != 0), 0)

/-- Square root of a positive magnitude. -/
def sqrtMag (m : Nat) (e : Int) : FVal :=
  let m2 := if e % 2 = 0 then m else 2 * m
  let e2 := if e % 2 = 0 then e else e - 1
  let y := m2 * 2 ^ 160
  let r := Nat.sqrt y
  sticky false r (e2 / 2 - 80) (r * r != y)
def spSqrt : FVal → FVal × BitVec 7
  | .nan _ => (.nan false, 0)
  | .inf n => if n then (.nan false, fIV) else (.inf false, 0)
  | .fin n m e => if m = 0 then (.zero n, 0) else if n then (.nan false, fIV) else (sqrtMag m e, 0)
/-- 1 / √a. -/
def spRsq : FVal → FVal × BitVec 7
  | .nan _ => (.nan false, 0)
  | .inf n => if n then (.nan false, fIV) else (.zero false, 0)
  | .fin n m e =>
    if m = 0 then (.inf n, fDZ)
    else if n then (.nan false, fIV)
    else
      let m2 := if e % 2 = 0 then m else 2 * m
      let e2 := if e % 2 = 0 then e else e - 1
      let k := m2.log2 + 200
      let k := k + k % 2
      let r := Nat.sqrt (2 ^ k / m2)
      (sticky false r (-(e2 / 2) - (k / 2 : Nat)) (r * r * m2 != 2 ^ k), 0)

/-- tanh a, as (E - 1) / (E + 1) with E = e^(2|a|). -/
def spTanh : FVal → FVal × BitVec 7
  | .nan _ => (.nan false, 0)
  | .inf n => (.fin n 1 0, 0)
  | .fin n m e =>
    if m = 0 then (.zero n, 0)
    else
      let top : Int := e + m.log2
      if top < -45 then (.fin n (m * 2 ^ 90 - 1) (e - 90), 0)
      else if 6 ≤ top then (.fin n (2 ^ 100 - 1) (-100), 0)
      else
        -- E = 2^q e^r with 2|a| = q ln 2 + r
        let x := (toFx (2 * m) e).1
        let q := x / fxLn2
        let E := fxExp (x % fxLn2) * 2 ^ q
        (sticky n ((E - fxOne) * fxOne / (E + fxOne)) (-(fxP : Int)) true, 0)

/-- A fraction of a turn below one eighth as the pair cos, sin in fixed point. -/
def octant (r : Nat) : Nat × Nat :=
  let x := fxMul (2 * fxPi) r
  (fxCos x, fxSin x)
/-- cos 2πa and sin 2πa. -/
def spSincos (a : FVal) : (FVal × BitVec 7) × (FVal × BitVec 7) :=
  match a with
  | .nan _ => ((.nan false, 0), (.nan false, 0))
  | .inf _ => ((.nan false, fIV), (.nan false, fIV))
  | .fin n m e =>
    if m = 0 then ((.fin false 1 0, 0), (.zero n, 0))
    else
      -- the fraction of |a|, in eighths of a turn and a remainder
      let fr := if 0 ≤ e then 0 else m % 2 ^ (-e).toNat
      if 0 ≤ e ∨ fr = 0 then ((.fin false 1 0, 0), (.zero false, 0))
      else if e + (m.log2 : Int) < -50 then
        -- a tiny angle: 2πa to 192 bits, and just below 1
        ((.fin false (2 ^ 100 - 1) (-100), 0), (sticky n (m * (2 * fxPi)) (e - fxP) true, 0))
      else
        let d := (-e).toNat
        let oct := fr * 8 / 2 ^ d
        let rem := fr * 8 % 2 ^ d
        let exact := rem == 0 && oct % 2 == 0
        -- within an odd octant the angle is measured back from its end
        let back := oct % 2 == 1
        let rr := if back then 2 ^ d - rem else rem
        let r := rr * fxOne / (8 * 2 ^ d)
        let (c, s) := octant r
        let (c, s) := if back then (s, c) else (c, s)
        -- cosine and sine within the quadrant `q`, turned into it
        let q := oct / 2
        let (cc, ss) := match q with
          | 0 => ((false, c), (false, s))
          | 1 => ((true, s), (false, c))
          | 2 => ((true, c), (true, s))
          | _ => ((false, s), (true, c))
        if exact then
          match q with
          | 0 => ((.fin false 1 0, 0), (.zero false, 0))
          | 1 => ((.zero false, 0), (.fin n 1 0, 0))
          | 2 => ((.fin true 1 0, 0), (.zero false, 0))
          | _ => ((.zero false, 0), (.fin (!n) 1 0, 0))
        else
          ((sticky cc.1 cc.2 (-(fxP : Int)) true, 0), (sticky (ss.1 != n) ss.2 (-(fxP : Int)) true, 0))

end Sys2Proof.Machine
end

