-- ==== Sys2Proof/Machine/Vector.lean ====
section
/-! DEFINITION. Vector slots (R137 to R172). Each operation computes when it issues; its destination, flags apart, lands when
its latency has passed (R140). -/

namespace Sys2Proof.Machine

/-! ## Lanes, units and results (R137 to R141) -/

/-- Lanes of a register of elements of width `w`. -/
def lanes (w : Nat) : Nat := 4096 / w
/-- Whether element `i` is on (R138); a mask has no bit beyond 1023, so such an element is off under a mask (log 18). -/
def State.on (s : State) (c : VC) (i : Nat) : Bool := s.guard c.g && (!c.me || (s.me.ctl.mget c.ms.toNat).getLsbD i)
/-- The unit that a vector slot is bound to (R112). -/
def Core.unitOf (c : Core) (sl : Slot) : Nat := (c.bind.getLsbD (if sl = .v1 then 1 else 0)).toNat
/-- The operation keeps its unit for `n` ticks (R140). -/
def State.occupy (s : State) (n : Nat) : State :=
  s.modCore (coreOf s.cur.who) fun c => { c with vbusy := aset c.vbusy (c.unitOf s.cur.slot) n }
/-- Latency of arithmetic: the integer figure, 4 for class F, 6 for class D. -/
def latOf (t : ETy) (i : Nat) : Nat := if t.isI then i else if t = .fp64 then 6 else 4
def occOf (t : ETy) : Nat := if t = .fp64 then 2 else 1
/-- The view of an operand of `g` 512 B blocks. -/
def viewOf : Nat → View | 1 => .v | 2 => .w | 4 => .t | _ => .a
/-- The marked lanes of width `w` as bits. -/
def laneBits (w : Nat) (l : List Bool) : Nat := packElems w (l.map fun b => if b then ones w else 0)

/-- Writes the on elements of a destination from codes with their flags (R138, R144). -/
def vput (c : VC) (lat occ : Nat) (vw : View) (vd : BitVec 11) (w n : Nat) (f : Nat → Nat × BitVec 7) (s : State) : State :=
  let s := s.occupy occ
  if !s.guard c.g then s
  else
    let l := (List.range n).map fun i => if s.on c i then some (f i) else none
    let fl := l.foldl (fun a o => match o with | some r => a ||| r.2 | none => a) 0
    (s.setFlags fl).postVM lat vw vd (packElems w (l.map fun o => (o.map (·.1)).getD 0)) (laneBits w (l.map (·.isSome)))

/-- Element `i` of the second source: a register's lane, or the low bits of a scalar (R139). -/
def State.src (s : State) (w : Nat) : VSrc → Nat → Nat
  | .reg f => let x := s.vreg .v f; fun i => elemAt x w i
  | .sc ss => let x := (s.sreg ss).toNat % 2 ^ w; fun _ => x
/-- An integer element's value. -/
def ival (t : ETy) (x : Nat) : Int := if t.signed && decide (2 ^ (t.width - 1) ≤ x) then (x : Int) - 2 ^ t.width else x
/-- A value modulo 2^w. -/
def wrapI (w : Nat) (i : Int) : Nat := (i % 2 ^ w).toNat
/-- A value clamped to a type, with ST when it clamps (R82). -/
def clampI (t : ETy) (i : Int) : Nat × BitVec 7 :=
  let lo : Int := if t.signed then -(2 ^ (t.width - 1)) else 0
  let hi : Int := if t.signed then 2 ^ (t.width - 1) - 1 else 2 ^ t.width - 1
  if i < lo then (wrapI t.width lo, fST) else if hi < i then (wrapI t.width hi, fST) else (wrapI t.width i, 0)
/-- Rounds an exact result of the operation that issues into lane `p` at its `k`-th rounding (R77, R78). -/
def State.rnd (s : State) (t : ETy) (rm : BitVec 3) (p k : Nat) (x : FVal × BitVec 7) : Nat × BitVec 7 :=
  let (c, f) := (etFmt t).round true rm.toNat (s.rb (p + 2 ^ 16 * k)) x.1
  (c, x.2 ||| f)
def dval (t : ETy) (x : Nat) : FVal := (etFmt t).decode true x
/-- The value of an element of any type. -/
def aval (t : ETy) (x : Nat) : FVal := if t.isI then FVal.ofInt (ival t x) else dval t x

/-- An arithmetic operation on the lanes of VA, VB and VC: exact integers modulo 2^e, or one rounding (R145 to R147). -/
def varith (c : VC) (iLat : Nat) (vd va : BitVec 11) (vb : VSrc) (vc : Option (BitVec 11)) (fi : Int → Int → Int → Int)
    (ff : FVal → FVal → FVal → FVal × BitVec 7) (s : State) : Out :=
  let w := c.et.width
  let a := s.vreg .v va
  let b := s.src w vb
  let z := (vc.map fun f => s.vreg .v f).getD 0
  .next (vput c (latOf c.et iLat) (occOf c.et) .v vd w (lanes w) (fun i =>
    if c.et.isI then (wrapI w (fi (ival c.et (elemAt a w i)) (ival c.et (b i)) (ival c.et (elemAt z w i))), 0)
    else s.rnd c.et c.rm i 0 (ff (dval c.et (elemAt a w i)) (dval c.et (b i)) (dval c.et (elemAt z w i)))) s)
/-- An exact operation on the codes of VA and VB. -/
def vexact (c : VC) (lat : Nat) (vd va : BitVec 11) (vb : VSrc) (f : Nat → Nat → Nat × BitVec 7) (s : State) : Out :=
  let w := c.et.width
  let a := s.vreg .v va
  let b := s.src w vb
  .next (vput c lat 1 .v vd w (lanes w) (fun i => f (elemAt a w i) (b i)) s)

/-! ## Element-wise arithmetic (R145 to R147) -/

def execVadd (c : VC) (vd va : BitVec 11) (vb : VSrc) (s : State) : Out :=
  varith c 2 vd va vb none (fun a b _ => a + b) (fun a b _ => a.add (c.rm == 2) b) s
def execVsub (c : VC) (vd va : BitVec 11) (vb : VSrc) (s : State) : Out :=
  varith c 2 vd va vb none (fun a b _ => a - b) (fun a b _ => a.add (c.rm == 2) b.neg) s
def execVmul (c : VC) (vd va : BitVec 11) (vb : VSrc) (s : State) : Out :=
  varith c 3 vd va vb none (fun a b _ => a * b) (fun a b _ => a.mul b) s
/-- The high half of the exact product. -/
def execVmulh (c : VC) (vd va : BitVec 11) (vb : VSrc) (s : State) : Out :=
  varith c 3 vd va vb none (fun a b _ => a * b / 2 ^ c.et.width) (fun a b _ => a.mul b) s
def execVfma (c : VC) (vd va : BitVec 11) (vb : VSrc) (vc : BitVec 11) (s : State) : Out :=
  varith c 3 vd va vb (some vc) (fun a b z => a * b + z) (fun a b z => FVal.fma (c.rm == 2) a b z) s
def execVfms (c : VC) (vd va : BitVec 11) (vb : VSrc) (vc : BitVec 11) (s : State) : Out :=
  varith c 3 vd va vb (some vc) (fun a b z => a * b - z) (fun a b z => FVal.fma (c.rm == 2) a b z.neg) s
/-- On class F the sign bit alone changes (R147). -/
def execVabs (c : VC) (vd va : BitVec 11) (s : State) : Out :=
  vexact c (latOf c.et 2) vd va (.sc 0)
    (fun a _ => (if c.et.isI then wrapI c.et.width (ival c.et a).natAbs else a % 2 ^ (c.et.width - 1), 0)) s
def execVneg (c : VC) (vd va : BitVec 11) (s : State) : Out :=
  vexact c (latOf c.et 2) vd va (.sc 0)
    (fun a _ => (if c.et.isI then wrapI c.et.width (-(ival c.et a)) else a ^^^ 2 ^ (c.et.width - 1), 0)) s
/-- Whether `a` stands below `b` in the order of R147, −0 below +0. -/
def below (a b : FVal) : Bool := a.cmp b == .lt || (a.isZero && b.isZero && a.sign && !b.sign)
/-- The smaller or the larger of two elements (R147). -/
def pick (t : ETy) (larger : Bool) (a b : Nat) : Nat :=
  if t.isI then (if decide (ival t a < ival t b) != larger then a else b)
  else
    let x := dval t a
    let y := dval t b
    if x.isNaN && y.isNaN then (etFmt t).nanCode
    else if x.isNaN then b
    else if y.isNaN then a
    else if below x y != larger then a else b
def execVmin (c : VC) (vd va : BitVec 11) (vb : VSrc) (s : State) : Out :=
  vexact c (latOf c.et 2) vd va vb (fun a b => (pick c.et false a b, 0)) s
def execVmax (c : VC) (vd va : BitVec 11) (vb : VSrc) (s : State) : Out :=
  vexact c (latOf c.et 2) vd va vb (fun a b => (pick c.et true a b, 0)) s
def execVaddsat (c : VC) (vd va : BitVec 11) (vb : VSrc) (s : State) : Out :=
  vexact c 2 vd va vb (fun a b => clampI c.et (ival c.et a + ival c.et b)) s
def execVsubsat (c : VC) (vd va : BitVec 11) (vb : VSrc) (s : State) : Out :=
  vexact c 2 vd va vb (fun a b => clampI c.et (ival c.et a - ival c.et b)) s

/-! ## Logic and shifts (R148) -/

def execVand (c : VC) (vd va : BitVec 11) (vb : VSrc) (s : State) : Out := vexact c 2 vd va vb (fun a b => (a &&& b, 0)) s
def execVor (c : VC) (vd va : BitVec 11) (vb : VSrc) (s : State) : Out := vexact c 2 vd va vb (fun a b => (a ||| b, 0)) s
def execVxor (c : VC) (vd va : BitVec 11) (vb : VSrc) (s : State) : Out := vexact c 2 vd va vb (fun a b => (a ^^^ b, 0)) s
def execVnot (c : VC) (vd va : BitVec 11) (s : State) : Out :=
  vexact c 2 vd va (.sc 0) (fun a _ => (a ^^^ ones c.et.width, 0)) s
/-- A shift: the amount is a lane of VB, or all 64 bits of the scalar (R139). -/
def vshift (c : VC) (vd va : BitVec 11) (vb : VSrc) (f : Nat → Nat → Nat) (s : State) : Out :=
  let w := c.et.width
  let a := s.vreg .v va
  let b := s.src (match vb with | .reg _ => w | .sc _ => 64) vb
  .next (vput c 2 1 .v vd w (lanes w) (fun i => (f (elemAt a w i) (Nat.min (b i) w), 0)) s)
def execVshl (c : VC) (vd va : BitVec 11) (vb : VSrc) (s : State) : Out :=
  vshift c vd va vb (fun a n => a * 2 ^ n % 2 ^ c.et.width) s
def execVshr (c : VC) (vd va : BitVec 11) (vb : VSrc) (s : State) : Out := vshift c vd va vb (fun a n => a / 2 ^ n) s
def execVsar (c : VC) (vd va : BitVec 11) (vb : VSrc) (s : State) : Out :=
  vshift c vd va vb (fun a n => wrapI c.et.width (ival c.et a / 2 ^ n)) s

/-! ## Compare and select (R149, R150) -/

/-- Writes the on bits of a mask; bits at or above `n` are written as zero (R46, R149). -/
def vputMask (c : VC) (lat occ : Nat) (md : BitVec 3) (n : Nat) (f : Nat → Bool) (s : State) : State :=
  let s := s.occupy occ
  if !s.guard c.g then s
  else
    let on := laneBits 1 ((List.range n).map fun i => s.on c i)
    s.postM lat md (laneBits 1 ((List.range n).map fun i => s.on c i && f i)) (on ||| (ones 1024 ^^^ ones n))
/-- The condition of an integer compare; `un` is no integer condition (R149). -/
def ncond (cond : FCond) (a b : Int) : Bool :=
  match cond with
  | .eq => a == b | .ne => a != b | .lt => decide (a < b) | .le => decide (a ≤ b) | .un => false
def execVcmp (c : VC) (cond : FCond) (md : BitVec 3) (va : BitVec 11) (vb : VSrc) (s : State) : Out :=
  let w := c.et.width
  let a := s.vreg .v va
  let b := s.src w vb
  .next (vputMask c (latOf c.et 2) (occOf c.et) md (lanes w) (fun i =>
    if c.et.isI then ncond cond (ival c.et (elemAt a w i)) (ival c.et (b i))
    else fcond cond (dval c.et (elemAt a w i)) (dval c.et (b i))) s)
def execVsel (c : VC) (vd va vb : BitVec 11) (mc : BitVec 3) (s : State) : Out :=
  let w := c.et.width
  let a := s.vreg .v va
  let b := s.vreg .v vb
  let m := s.me.ctl.mget mc.toNat
  .next (vput c 2 1 .v vd w (lanes w) (fun i => (if m.getLsbD i then elemAt a w i else elemAt b w i, 0)) s)

/-! ## Conversion (R151 to R154) -/

def execVcvt (c : VC) (u : ETy) (vd va : BitVec 11) (s : State) : Out :=
  let w := c.et.width
  let a := s.vreg .v va
  let d := decide (w = 64) && !(c.et.isI && u.isI)
  .next (vput c (if d then 6 else 4) (if d then 2 else 1) .v vd w (lanes w)
    (fun i => s.rnd c.et c.rm i 0 (aval u (elemAt a w i), 0)) s)
/-- Latency and occupancy of a width-changing conversion of `g` blocks (R140). -/
def wideLat (t u : ETy) : Nat := if t = .fp64 ∨ u = .fp64 then 6 else 4
def execVwiden (c : VC) (u : ETy) (vd va : BitVec 11) (s : State) : Out :=
  let w := u.width
  let g := c.et.width / w
  let a := s.vreg .v va
  .next (vput c (wideLat c.et u) g (viewOf g) vd c.et.width (lanes w) (fun i =>
    if c.et.isI then (wrapI c.et.width (ival u (elemAt a w i)), 0)
    else (((etFmt c.et).round true 0 0 (aval u (elemAt a w i))).1, 0)) s)
def execVnarrow (c : VC) (u : ETy) (trunc : Bool) (vd va : BitVec 11) (s : State) : Out :=
  let w := c.et.width
  let g := u.width / w
  let a := s.vreg (viewOf g) va
  .next (vput c (wideLat c.et u) g .v vd w (lanes w) (fun i =>
    let x := elemAt a u.width i
    if trunc then (x % 2 ^ w, 0)
    else if c.et.isI && u.isI then clampI c.et (ival u x)
    else s.rnd c.et c.rm i 0 (aval u x, 0)) s)

/-- Descriptor of the operation's own partition. -/
def State.myDesc (s : State) (k : Nat) : BitVec 32 := s.desc (s.partOf s.cur.who) k
/-- Narrow codes decoded under a descriptor, with block scales from VB (R154). -/
def execVdeq (c : VC) (k : BitVec 6) (vd va vb : BitVec 11) (ss : BitVec 6) (s : State) : Out :=
  let d := s.myDesc k.toNat
  let cw := dWidth d
  let w := c.et.width
  let g := w / cw
  let geo := (s.sreg ss).toNat % 4
  let nbv := s.cur.ent.nbv
  let a := s.vreg .v va
  let b := s.vreg .v vb
  let sf := dFmt (s.myDesc (dSfmt d))
  .next (vput c 4 g (viewOf g) vd w (lanes cw) (fun i =>
    let x := (dFmt d).decode nbv (elemAt a cw i)
    let x := if geo = 0 then (x, 0) else scaled x (sf.decode nbv (elemAt b 8 (i / geoSize geo)))
    s.rnd c.et c.rm i 0 x) s)

/-! ## Quantisation (R155 to R158) -/

/-- floor(log2 |x|) of a finite non-zero value. -/
def exponent : FVal → Option Int
  | .fin _ m e => if m = 0 then none else some (e + m.log2)
  | _ => none
/-- The largest exponent of a list. -/
def maxExp (l : List (Option Int)) : Option Int :=
  l.foldl (fun a o => match a, o with | some x, some y => some (max x y) | none, o => o | a, none => a) none
/-- The scale latch of a vector slot. -/
def slotLat (sl : Slot) : LatSel := if sl = .v1 then .v1 else .v0
/-- Lands a latch write (R52). -/
def Latches.put (l : Latches) (x : LatW) : Latches :=
  match x.sel with
  | .v0 => { l with v0 := x.val.setWidth 512, k0 := x.k }
  | .v1 => { l with v1 := x.val.setWidth 512, k1 := x.k }
  | .mr => { l with mr := x.val.setWidth 1024 }
  | .mc => { l with mc := x.val.setWidth 1024 }
  | .mrc => { l with mr := x.val.setWidth 1024, mc := x.val.extractLsb' 1024 1024 }
/-- The distance at which a latch write lands (R31). -/
def LatSel.dist : LatSel → Nat | .v0 | .v1 => 3 | _ => 2
/-- The latches as a reader at bundle position `seq` sees them: writes whose distance it has reached, oldest writer first. -/
def Ctl.latchesAt (c : Ctl) (seq : Nat) : Latches :=
  (c.latw.filter fun x => decide (x.seq + x.sel.dist ≤ seq)).foldl Latches.put c.lat
/-- Adds a latch write in program order. -/
def insLatch (x : LatW) : List LatW → List LatW
  | [] => [x]
  | y :: r => if x.seq < y.seq then x :: y :: r else y :: insLatch x r

/-- Issues a latch write (R53). -/
def State.latch (s : State) (x : LatW) : State :=
  s.modMe fun c => { c with ctl := { c.ctl with latw := insLatch x c.ctl.latw } }

def execVmaxe (c : VC) (z x : BitVec 2) (va : BitVec 11) (s : State) : Out :=
  let w := c.et.width
  let g := 2 ^ x.toNat
  let bs := 16 * 2 ^ z.toNat
  let n := g * lanes w
  let a := s.vreg (viewOf g) va
  let code (j : Nat) : Nat :=
    if n ≤ j * bs then 0
    else
      match maxExp ((List.range bs).map fun i => if s.on c (j * bs + i) then exponent (dval c.et (elemAt a w (j * bs + i))) else none) with
      | none => 0
      | some e => (min 254 (max 0 (e + 127))).toNat
  let s := s.occupy g
  .next <|
    if !s.guard c.g then s
    else
      let v := packElems 8 ((List.range 64).map code)
      s.latch { seq := s.cur.ent.seq, sel := slotLat s.cur.slot, val := BitVec.ofNat 2048 v, k := z }

/-- Exponents `s` for which a scale format has a sign-0 code of exactly 2^s, with the codes; under NBV 0 a subnormal code reads as zero and is
none of them (the model's choice, log 119). -/
def powCodes (f : Fmt) (nbv : Bool) : List (Int × Nat) :=
  (List.range 256).filterMap fun c =>
    match f.decode nbv c with
    | .fin false m e => if m = 2 ^ m.log2 then some (e + m.log2, c) else none
    | _ => none
/-- floor(log2 maxf) of a format (R73). -/
def Fmt.emax (f : Fmt) : Int := (exponent (f.decode true (f.extreme false))).getD 0
/-- Quantises under the slot's latch (R156, R157). Where VD and VB are one name, the scale codes stand (the model's choice, log 120). -/
def execVqcvt (c : VC) (k : BitVec 6) (vd va vb : BitVec 11) (ss : BitVec 6) (s : State) : Out :=
  let d := s.myDesc k.toNat
  let f := dFmt d
  let cw := dWidth d
  let w := c.et.width
  let g := w / cw
  let n := lanes cw
  let nbv := s.cur.ent.nbv
  let a := s.vreg (viewOf g) va
  let lt := s.me.ctl.latchesAt s.cur.ent.seq
  let (lv, lk) := if s.cur.slot = .v1 then (lt.v1, lt.k1) else (lt.v0, lt.k0)
  let bs := 16 * 2 ^ lk.toNat
  let none1 := (s.sreg ss).getLsbD 0
  let codes := powCodes (dFmt (s.myDesc (dSfmt d))) nbv
  let lo := codes.foldl (fun a p => min a p.1) (codes.headD (0, 0)).1
  let hi := codes.foldl (fun a p => max a p.1) (codes.headD (0, 0)).1
  let se (j : Nat) : Int :=
    if none1 then 0 else min hi (max lo (((lv.extractLsb' (8 * j) 8).toNat : Int) - 127 - f.emax))
  let s := vput c 4 g .v vd cw n (fun i =>
    let (q, fl) := f.round nbv c.rm.toNat (s.rb i)
      (match dval c.et (elemAt a w i) with | .fin sg m e => .fin sg m (e - se (i / bs)) | x => x)
    (q, fl)) s
  .next <|
    if !s.guard c.g then s
    -- VB counts as written (R157)
    else if none1 then s.post 4 (.win (s.cur.ent.off .v vb)) 0 0 512
    else s.postV 4 .v vb (packElems 8 ((List.range (n / bs)).map fun j => ((codes.find? fun p => p.1 == se j).getD (0, 0)).2))

/-! ## Special functions and the vector result queues (R159, R160, R162) -/

/-- The queue of the slot's results. -/
def slotQueue (sl : Slot) : Nat := if sl = .v1 then 5 else 4
/-- Pushes entries that arrive after `lat` ticks, when the queue has room for all of them (R49, R159). -/
def vpush (lat occ : Nat) (data : List Nat) (fl : BitVec 7) (s : State) : State :=
  let q := slotQueue s.cur.slot
  if 16 < (s.me.rqGet q).length + data.length then s.unissue
  else
    let s := (s.occupy occ).setFlags fl
    data.foldl (fun s x =>
      let (id, t) := s.newId
      t.modMe fun c => c.rqPush q { id := id, left := lat, data := x, seq := s.cur.ent.seq, fresh := true }) s
/-- A function of every on element, rounded once; off elements are zero in the entry. -/
def vspecial (c : VC) (fs : List (FVal → FVal × BitVec 7)) (va : BitVec 11) (s : State) : Out :=
  let w := c.et.width
  let a := s.vreg .v va
  let entry (p : Nat × (FVal → FVal × BitVec 7)) : List (Nat × BitVec 7) :=
    (List.range (lanes w)).map fun i => if s.on c i then s.rnd c.et c.rm i p.1 (p.2 (dval c.et (elemAt a w i))) else (0, 0)
  let es := (List.range fs.length).zip fs |>.map entry
  .next (vpush 12 fs.length (es.map fun e => packElems w (e.map (·.1)))
    (es.foldl (fun x e => e.foldl (fun y r => y ||| r.2) x) 0) s)

def execVexp2 (c : VC) (va : BitVec 11) (s : State) : Out := vspecial c [spExp2] va s
def execVlog2 (c : VC) (va : BitVec 11) (s : State) : Out := vspecial c [spLog2] va s
def execVrcp (c : VC) (va : BitVec 11) (s : State) : Out := vspecial c [spRcp] va s
def execVrsq (c : VC) (va : BitVec 11) (s : State) : Out := vspecial c [spRsq] va s
def execVsqrt (c : VC) (va : BitVec 11) (s : State) : Out := vspecial c [spSqrt] va s
def execVtanh (c : VC) (va : BitVec 11) (s : State) : Out := vspecial c [spTanh] va s
/-- The cosine in a first entry, the sine in a second. -/
def execVsincos (c : VC) (va : BitVec 11) (s : State) : Out :=
  vspecial c [fun x => (spSincos x).1, fun x => (spSincos x).2] va s

/-! ## Complex arithmetic (R161) -/

/-- One part of a complex product: the exact sum of two products and an addend, no IV when an input is a NaN. -/
def csum (down : Bool) (a b c d : FVal) (neg : Bool) (add : Option FVal) : FVal × BitVec 7 :=
  let (p, f1) := a.mul b
  let (q, f2) := c.mul d
  let (r, f3) := p.add down (if neg then q.neg else q)
  let (t, f4) := match add with | some z => r.add down z | none => (r, 0)
  if a.isNaN || b.isNaN || c.isNaN || d.isNaN || (match add with | some z => z.isNaN | none => false) then (.nan false, 0)
  else (t, f1 ||| f2 ||| f3 ||| f4)
def vcomplex (c : VC) (cj acc : Bool) (vd va : BitVec 11) (vb : VSrc) (s : State) : Out :=
  let w := c.et.width
  let a := s.vreg .v va
  let b := match vb with
    | .reg f => let x := s.vreg .v f; fun (i : Nat) => dval c.et (elemAt x w i)
    | .sc ss => let x := (s.sreg ss).toNat; fun (i : Nat) => dval c.et (elemAt x w (i % 2))
  let old := s.vreg .v vd
  let down := c.rm == 2
  .next (vput c 4 1 .v vd w (lanes w) (fun i =>
    let j := i / 2 * 2
    let ar := dval c.et (elemAt a w j)
    let ai := dval c.et (elemAt a w (j + 1))
    let br := b j
    let bi := if cj then (b (j + 1)).neg else b (j + 1)
    let z := if acc then some (dval c.et (elemAt old w i)) else none
    s.rnd c.et c.rm i 0 (if i % 2 = 0 then csum down ar br ai bi true z else csum down ar bi ai br false z)) s)
def execVcmul (c : VC) (cj : Bool) (vd va : BitVec 11) (vb : VSrc) (s : State) : Out := vcomplex c cj false vd va vb s
def execVcmac (c : VC) (cj : Bool) (vd va : BitVec 11) (vb : VSrc) (s : State) : Out := vcomplex c cj true vd va vb s

/-! ## Reductions (R85, R162) -/

/-- The identity that an off lane contributes; a float minimum starts at +∞ and a maximum at −∞ (log 19). -/
def identity (t : ETy) (op : Nat) : Nat :=
  let f := etFmt t
  match op with
  | 0 => if t.isI then 0 else 2 ^ (t.width - 1)
  | 1 => if t.isI then f.extreme false else f.infCode false
  | _ => if t.isI then wrapI t.width (if t.signed then -(2 ^ (t.width - 1)) else 0) else f.infCode true
/-- The lanes of VA with identities in off lanes. -/
def State.redLanes (s : State) (c : VC) (op : Nat) (va : BitVec 11) : List Nat :=
  let w := c.et.width
  let a := s.vreg .v va
  (List.range (lanes w)).map fun i => if s.on c i then elemAt a w i else identity c.et op
/-- One level of the pairwise tree: pair `i` of level `l` rounds as lane 2^l i at rounding l − 1. -/
def treeLevel (s : State) (c : VC) (l : Nat) : Nat → List Nat → List Nat × BitVec 7
  | i, x :: y :: r =>
    let (v, f) := s.rnd c.et c.rm (2 ^ l * i) (l - 1) ((dval c.et x).add (c.rm == 2) (dval c.et y))
    let (vs, fs) := treeLevel s c l (i + 1) r
    (v :: vs, f ||| fs)
  | _, xs => (xs, 0)
/-- The tree of R85. -/
def treeSum (s : State) (c : VC) : Nat → Nat → List Nat → Nat × BitVec 7
  | 0, _, xs => (xs.headD 0, 0)
  | n + 1, l, xs =>
    match xs with
    | [] => (0, 0)
    | [x] => (x, 0)
    | xs =>
      let (ys, f) := treeLevel s c l 0 xs
      let (r, f') := treeSum s c n (l + 1) ys
      (r, f ||| f')
def execVred (c : VC) (op : BitVec 2) (va : BitVec 11) (s : State) : Out :=
  let xs := s.redLanes c op.toNat va
  let (r, fl) :=
    if op = 0 then
      (if c.et.isI then (wrapI 64 (xs.foldl (fun a x => a + ival c.et x) 0), 0) else treeSum s c 11 1 xs)
    else (xs.tail.foldl (pick c.et (op == 2)) (xs.headD 0), 0)
  .next (vpush 8 1 [r] fl s)
/-- The running values of a scan with the flags of on lanes. -/
def scanFrom (s : State) (c : VC) (op : Nat) : Nat → Nat → List Nat → List (Nat × BitVec 7)
  | _, _, [] => []
  | i, acc, x :: r =>
    let (v, f) :=
      if op = 0 then
        (if c.et.isI then ((acc + x) % 2 ^ c.et.width, 0)
         else s.rnd c.et c.rm i 0 ((dval c.et acc).add (c.rm == 2) (dval c.et x)))
      else (pick c.et (op == 2) acc x, 0)
    (v, f) :: scanFrom s c op (i + 1) v r
/-- Inclusive scans (R162). Lane 0 is its input's bits, unrounded (R85), and a NaN there is not made canonical (the model's choice, log 118). -/
def execVscan (c : VC) (op : BitVec 2) (va : BitVec 11) (s : State) : Out :=
  let xs := s.redLanes c op.toNat va
  let ys := match xs with | [] => [] | x :: r => (x, 0) :: scanFrom s c op.toNat 1 x r
  let zs := (List.range ys.length).map fun i => if s.on c i then ys.getD i (0, 0) else (0, 0)
  .next (vpush 8 1 [packElems c.et.width (zs.map (·.1))] (zs.foldl (fun a p => a ||| p.2) 0) s)

/-! ## Permutations (R163 to R165) -/

/-- Blocks of the index operand of `vperm`. -/
def permView (w : Nat) : Nat := if w = 4 then 4 else if w = 8 then 2 else 1
def execVperm (c : VC) (vd va vb : BitVec 11) (s : State) : Out :=
  let w := c.et.width
  let n := lanes w
  let a := s.vreg .v va
  let b := s.vreg (viewOf (permView w)) vb
  .next (vput c 4 (permView w) .v vd w n (fun i =>
    let j := elemAt b 16 i
    (if j < n then elemAt a w j else 0, 0)) s)
def execVbcast (c : VC) (vd : BitVec 11) (ss : BitVec 6) (s : State) : Out :=
  let w := c.et.width
  let x := (s.sreg ss).toNat % 2 ^ w
  .next (vput c 2 1 .v vd w (lanes w) (fun _ => (x, 0)) s)
def execVbcastLane (c : VC) (vd va : BitVec 11) (ss : BitVec 6) (s : State) : Out :=
  let w := c.et.width
  let x := elemAt (s.vreg .v va) w ((s.sreg ss).toNat % lanes w)
  .next (vput c 2 1 .v vd w (lanes w) (fun _ => (x, 0)) s)
def execVrot (c : VC) (vd va : BitVec 11) (ss : BitVec 6) (s : State) : Out :=
  let w := c.et.width
  let a := s.vreg .v va
  let k := (s.sreg ss).toNat
  .next (vput c 2 1 .v vd w (lanes w) (fun i => (elemAt a w ((i + k) % lanes w), 0)) s)
/-- Blocks and side of the matrix that `vtrn` transposes. -/
def trnShape (w : Nat) : Nat × Nat := if w = 8 then (2, 32) else if w = 16 then (4, 32) else if w = 32 then (8, 32) else (4, 16)
def execVtrn (c : VC) (vd va : BitVec 11) (s : State) : Out :=
  let w := c.et.width
  let (g, n) := trnShape w
  let a := s.vreg (viewOf g) va
  .next (vput c 4 g (viewOf g) vd w (n * n) (fun i => (elemAt a w (i % n * n + i / n), 0)) s)
def execVzip (c : VC) (vd va vb : BitVec 11) (s : State) : Out :=
  let w := c.et.width
  let a := s.vreg .v va
  let b := s.vreg .v vb
  .next (vput c 4 2 .w vd w (2 * lanes w) (fun i => (elemAt (if i % 2 = 0 then a else b) w (i / 2), 0)) s)
def execVunzip (c : VC) (vd va : BitVec 11) (s : State) : Out :=
  let w := c.et.width
  let n := lanes w
  let a := s.vreg .w va
  .next (vput c 4 2 .w vd w (2 * n) (fun i => (elemAt a w (if i < n then 2 * i else 2 * (i - n) + 1), 0)) s)

/-! ## Expert support (R166 to R168) -/

def execVbin (c : VC) (k : BitVec 4) (vd va vb : BitVec 11) (b : BitVec 6) (s : State) : Out :=
  let w := c.et.width
  let n := lanes w
  let a := s.vreg .v va
  let x := s.vreg .v vb
  let on := (List.range n).filter fun i => s.on c i
  let keyed (j : Nat) : List Nat := (on.filter fun i => elemAt x w i == j).map fun i => elemAt a w i
  let rings := (List.range (k.toNat + 1)).map fun j => b.toNat + j
  .next <|
    if !rings.all s.freeSlot then s.block (.ring [rings.map fun r => (s.rk r, 0, 1)])
    else
      let s := (List.range (k.toNat + 1)).foldl (fun s j => s.pushSlot (b.toNat + j) 512 (packElems w (keyed j))) s
      let s := s.occupy 1
      if !s.guard c.g then s
      else
        let beyond := (on.filter fun i => decide (k.toNat < elemAt x w i)).length
        s.postV 4 .v vd (packElems 32 ((List.range 17).map fun j =>
          if j = 16 then beyond else if j ≤ k.toNat then (keyed j).length else 0))

/-- Published counters with the context's own withheld additions. -/
def State.pipSeen (s : State) (j : Nat) : Nat :=
  s.me.held.foldl (fun v e => if e.cls = 17 ∧ e.unit = j / 16 then satAdd32 v (elemAt e.val 32 (j % 16)) else v)
    (aget 0 (s.core (coreOf s.cur.who)).pips j).toNat
/-- Withholds additions to the pip counters, sixteen counters a unit (R168); the operation has its latency like any other. A counter that
would pass its largest count as the context sees it sets ST (log 47). -/
def State.addPip (s : State) (adds : List (Nat × Nat)) : State :=
  let sum (j : Nat) : Nat := (adds.filter fun p => p.1 == j).foldl (fun a p => a + p.2) 0
  let units := (List.range 16).filter fun u => adds.any fun p => p.1 / 16 == u
  let es := units.map fun u =>
    ({ cls := 17, unit := u, mask := 0, val := packElems 32 ((List.range 16).map fun i => satAdd32 (sum (u * 16 + i)) 0) } : WEnt)
  let past := adds.any fun p => decide (2 ^ 32 ≤ s.pipSeen p.1 + sum p.1)
  match s.me.hold' es with
  | some c => ((s.modMe fun _ => c).setFlags (if past then 32 else 0)).pace 2
  | none => s.trap ⟨21, 0, 0⟩
def execVpip (c : VC) (va : BitVec 11) (s : State) : Out :=
  let w := c.et.width
  let a := s.vreg .v va
  .next ((s.occupy 1).addPip (((List.range (lanes w)).filter fun i => s.on c i).map fun i => (elemAt a w i % 256, 1)))
def execVpipBy (c : VC) (va vb : BitVec 11) (s : State) : Out :=
  let w := c.et.width
  let a := s.vreg .v va
  let b := s.vreg .v vb
  .next ((s.occupy 1).addPip
    (((List.range (lanes w)).filter fun i => s.on c i).map fun i => (elemAt a w i % 256, elemAt b w i % 2 ^ 32)))
def execVpipRead (c : VC) (vd : BitVec 11) (s : State) : Out :=
  .next (vput c 4 2 .w vd 32 256 (fun j => (s.pipSeen j, 0)) s)

/-! ## Moves (R169 to R172) -/

def execVmov (c : VC) (vd va : BitVec 11) (s : State) : Out := vexact c 2 vd va (.sc 0) (fun a _ => (a, 0)) s
def execVmovPop (c : VC) (vd : BitVec 11) (b : BitVec 6) (s : State) : Out :=
  let w := c.et.width
  .next <|
    if !s.filled b.toNat then s.block (.ring [[(s.rk b.toNat, 1, 0)]])
    else
      let (x, s) := s.popSlot b.toNat 512
      vput c 2 1 .v vd w (lanes w) (fun i => (elemAt x w i, 0)) s
def execVmovPush (c : VC) (b : BitVec 6) (va : BitVec 11) (s : State) : Out :=
  let w := c.et.width
  let a := s.vreg .v va
  .next <|
    if !s.freeSlot b.toNat then s.block (.ring [[(s.rk b.toNat, 0, 1)]])
    else (s.pushSlot b.toNat 512 (packElems w ((List.range (lanes w)).map fun i => if s.on c i then elemAt a w i else 0))).occupy 1 |>.pace 2
/-- The immediate, extended by the type's sign to 64 bits. -/
def execVmovi (c : VC) (vd : BitVec 11) (imm : BitVec 32) (s : State) : Out :=
  let w := c.et.width
  let x := (if c.et.signed then imm.signExtend 64 else imm.setWidth 64).toNat % 2 ^ w
  .next (vput c 2 1 .v vd w (lanes w) (fun _ => (x, 0)) s)
/-- Pops q4 or q5 under R50; a false guard still removes the entry, or waits for it (R171). -/
def execVqpop (c : VC) (vd : BitVec 11) (pd : BitVec 4) (q5 eb : Bool) (s : State) : Out :=
  let q := if q5 then 5 else 4
  let w := c.et.width
  .next <|
    match s.me.rqHead q with
    | some e =>
      let s := s.modMe fun cx => cx.rqPop q
      let s := vput c 1 1 .v vd w (lanes w) (fun i => (elemAt e.data w i, 0)) s
      if s.guard c.g then s.postP 1 pd true else s
    | none =>
      if !eb then s.block (.queue q)
      else
        let s := vput c 1 1 .v vd w (lanes w) (fun _ => (0, 0)) s
        if s.guard c.g then s.postP 1 pd false else s
def execVlane (c : VC) (vd : BitVec 11) (ss : BitVec 6) (s : State) : Out :=
  let w := c.et.width
  let x := (s.sreg ss).toNat
  .next (vput c 2 1 .v vd w (lanes w) (fun i => ((x + i) % 2 ^ w, 0)) s)
def execVpmov (c : VC) (vd : BitVec 11) (ma : BitVec 3) (s : State) : Out :=
  let w := c.et.width
  let m := s.me.ctl.mget ma.toNat
  .next (vput c 2 1 .v vd w (lanes w) (fun i => (if m.getLsbD i then ones w else 0, 0)) s)
def execVpmovTomask (c : VC) (md : BitVec 3) (va : BitVec 11) (s : State) : Out :=
  let w := c.et.width
  let a := s.vreg .v va
  .next (vputMask c 2 1 md (lanes w) (fun i => elemAt a w i != 0) s)

end Sys2Proof.Machine
end

