-- ==== Sys2Proof/Machine/Matrix.lean ====
section
/-! DEFINITION. The matrix slot (R173 to R189). An operation that issues has fired: it has passed its checks and taken its
ring slots. Its path, its plane load and its result are events of the context (`Progress.lean`) over what this file computes. -/

namespace Sys2Proof.Machine

/-! ## MXCFG (R174) -/

def cfgVld (v : Word) : Bool := v.getLsbD 36
def cfgEse (v : Word) : Bool := v.getLsbD 35
def cfgEsd (v : Word) : Nat := natBits v.toNat 29 6
def cfgRows (v : Word) : Nat := 8 * 2 ^ natBits v.toNat 27 2
def cfgAcc (v : Word) : Bool := v.getLsbD 26
def cfgBgeo (v : Word) : Nat := natBits v.toNat 24 2
def cfgBfd (v : Word) : Nat := natBits v.toNat 18 6
def cfgAgeo (v : Word) : Nat := natBits v.toNat 16 2
def cfgAfd (v : Word) : Nat := natBits v.toNat 10 6
/-- A legal setting for the descriptors of a table, each of them legal under R71 (log 98). -/
def cfgLegal (tab : Nat → BitVec 32) (v : Word) : Bool :=
  let opd (n : Nat) : Bool := dLegal tab (tab n) && decide (dKind (tab n) ≤ 2)
  let int (n : Nat) : Bool := dKind (tab n) == 0 && dE (tab n) == 0 && dBias (tab n) == 0
  opd (cfgAfd v) && opd (cfgBfd v) && natBits v.toNat 27 2 != 3 && (!cfgEse v || dScale (tab (cfgEsd v))) &&
  (!cfgAcc v || (int (cfgAfd v) && int (cfgBfd v) && cfgAgeo v == 0 && cfgBgeo v == 0 && !cfgEse v))

/-! ## Operands (R175, R176) -/

/-- Codes of a run decoded under a descriptor with block scales: element (`r`, `k`) is code 256 r + k. -/
def matDecode (tab : Nat → BitVec 32) (nbv : Bool) (fd geo run scl r k : Nat) : FVal × BitVec 7 :=
  let d := tab fd
  let x := (dFmt d).decode nbv (elemAt run (dWidth d) (256 * r + k))
  if geo = 0 then (x, 0)
  else scaled x ((dFmt (tab (dSfmt d))).decode nbv (elemAt scl 8 (256 * r / geoSize geo + k / geoSize geo)))
/-- Bytes of a plane under a descriptor, of A rows, and of their scales. -/
def planeBytes (d : BitVec 32) : Nat := 4096 * dWidth d
def rowBytes (rows : Nat) (d : BitVec 32) : Nat := rows * 32 * dWidth d
/-- Window offset of member `u` of an accumulator group. -/
def accOff (e : Ent) (f : BitVec 11) (u : Nat) : Nat := e.off .a f u
/-- The accumulator word (i, j) of a group in a context's window. -/
def State.accum (s : State) (who : Nat) (e : Ent) (f : BitVec 11) (i j : Nat) : Nat :=
  s.bytes (s.winBase who + accOff e f (j / 32) + 128 * i + 4 * (j % 32)) 4

/-! ## Sums (R83, R84, R86, R185) -/

/-- A group sum of NBV 1: exact, with the zero and NaN rules of R83. Zero products of both signs do not cancel (the model's choice,
log 23). -/
def groupExact (down : Bool) (ps : List (FVal × FVal)) : FVal × BitVec 7 :=
  let l := ps.map fun p => p.1.mul p.2
  let fl := l.foldl (fun a p => a ||| p.2) 0
  let (sum, fs) := l.foldl (fun (a p : FVal × BitVec 7) => let (x, f) := a.1.add false p.1; (x, a.2 ||| f)) (FVal.zero true, (0 : BitVec 7))
  if l.any fun p => p.1.isNaN then (.nan false, fl)
  else if sum.isZero then
    if l.all fun p => p.1.sign then (.zero true, fl)
    else if l.any fun p => !p.1.isZero then (.zero down, fl)
    else (.zero false, fl)
  else (sum, fl ||| fs)
/-- A running sum of NBV 0, rounded toward zero to fp32 after each product (R86); one that cancels is +0 (the model's choice, log 23). -/
def groupRunning (ps : List (FVal × FVal)) : FVal × BitVec 7 :=
  let r := ps.foldl (fun (a : Option FVal × BitVec 7) p =>
    let (x, f1) := p.1.mul p.2
    let (y, f2) := match a.1 with | none => (x, 0) | some z => z.add false x
    let (c, f3) := fmtF32.round true 1 0 y
    (some (fmtF32.decode true c), a.2 ||| f1 ||| f2 ||| f3)) (none, 0)
  (r.1.getD (.zero false), r.2)
/-- The value of an exact integer sum. -/
def asInt : FVal → Int
  | .fin n m e => let v : Int := m * 2 ^ e.toNat; if n then -v else v
  | _ => 0
/-- One accumulator element over its groups. `acc` is its word; `rs` gives the random bits of a lane. -/
def accumulate (nbv acc32 : Bool) (rm : Nat) (rs : Nat → Nat) (p : Nat) (edge : Option (FVal × FVal)) :
    Nat → List (FVal × FVal) → Nat → Nat → Nat × BitVec 7
  | 0, _, _, acc => (acc, 0)
  | n + 1, ps, g, acc =>
    let size := if nbv then 16 else 8
    let grp := ps.take size
    let (acc', fl) :=
      if acc32 then
        let (s, _) := groupExact false grp
        clampI .s32 ((BitVec.ofNat 32 acc).toInt + asInt s)
      else
        let (x, f1) := if nbv then groupExact (rm == 2) grp else groupRunning grp
        let (x, f2) := match edge with
          | none => (x, 0)
          | some (a, b) =>
            let (y, h1) := x.mul a
            let (z, h2) := y.mul b
            (z, h1 ||| h2)
        let (c, f3) := fmtF32.round true rm (rs (p + 2 ^ 16 * (2 * g))) x
        let (y, f4) := (fmtF32.decode true acc).add (rm == 2) (fmtF32.decode true c)
        let (c', f5) := fmtF32.round true rm (rs (p + 2 ^ 16 * (2 * g + 1))) y
        (c', f1 ||| f2 ||| f3 ||| f4 ||| f5)
    let (r, fl') := accumulate nbv acc32 rm rs p edge n (ps.drop size) (g + 1) acc'
    (r, fl ||| fl')

/-- What an array operation is: plane, row-scale base, zero start, complex, destination and rounding. -/
structure ArrOp where
  x    : Nat
  y    : Nat
  zero : Bool
  cplx : Bool
  od   : BitVec 11
  rm   : BitVec 3
  deriving DecidableEq, Repr

/-- The parameters of the four array operations. -/
def arrOf : Instr → Option ArrOp
  | .mmul _ rm x y _ od _ _ => some ⟨x.toNat, y.toNat, false, false, od, rm⟩
  | .mmulz _ rm x y _ od _ _ => some ⟨x.toNat, y.toNat, true, false, od, rm⟩
  | .mmulp _ rm x y _ _ _ _ od _ _ => some ⟨x.toNat, y.toNat, false, false, od, rm⟩
  | .mcmul _ rm x y z _ od _ _ => some ⟨x.toNat, y.toNat, z, true, od, rm⟩
  | _ => none

/-- The products of output lane `j` of a row, in order of k (R185, R187). -/
def products (cplx : Bool) (row : List FVal) (col : Nat → List FVal) (j : Nat) : List (FVal × FVal) :=
  if !cplx then row.zip (col j)
  else
    let c := col (j / 2)
    (List.range 128).map (fun k =>
      let ar := row.getD (2 * k) (.zero false)
      let ai := row.getD (2 * k + 1) (.zero false)
      let br := c.getD (2 * k) (.zero false)
      let bi := c.getD (2 * k + 1) (.zero false)
      if j % 2 = 0 then [(ar, br), (ai.neg, bi)] else [(ar, bi), (ai, br)]) |>.flatten

def Ctx.plane (c : Ctx) (x : Nat) : Plane := if x = 0 then c.p0 else c.p1
def Ctx.setPlane (c : Ctx) (x : Nat) (p : Plane) : Ctx := if x = 0 then { c with p0 := p } else { c with p1 := p }

/-- The result of an array operation: the written bytes of its four names, and its flags (R185 to R187). -/
def State.arrayResult (s : State) (who : Nat) (m : MOp) (a : ArrOp) : List (Nat × Nat × Nat) × BitVec 7 :=
  let c := s.ctx who
  let tab := s.desc (s.partOf who)
  let nbv := m.ent.nbv
  let rows := cfgRows m.cfg
  let pl := c.plane a.x
  let rs (lane : Nat) : Nat := rbits c.ctl.srseed lane m.ent.sridx.toNat
  let edge := (dFmt (tab (cfgEsd m.cfg))).decode nbv
  let cols := (List.range (if a.cplx then 64 else 128)).map fun j =>
    (List.range 256).map fun k => matDecode tab nbv pl.bfd pl.bgeo pl.data pl.scale j k
  let fB := cols.foldl (fun f l => l.foldl (fun f p => f ||| p.2) f) 0
  let colv := cols.map fun l => l.map (·.1)
  let rowRes := (List.range rows).map fun i =>
    let row := (List.range 256).map fun k => matDecode tab nbv (cfgAfd m.cfg) (cfgAgeo m.cfg) m.runA m.sclA i k
    let fA := row.foldl (fun f p => f ||| p.2) 0
    let rowv := row.map (·.1)
    let outs := (List.range 128).map fun j =>
      let e := if cfgEse m.cfg then
          some (edge ((m.mr.extractLsb' (8 * (32 * a.y + i)) 8).toNat), edge ((m.mc.extractLsb' (8 * j) 8).toNat))
        else none
      let start := if a.zero then (if cfgAcc m.cfg then 0 else 2 ^ 31) else s.accum who m.ent a.od i j
      accumulate nbv (cfgAcc m.cfg) a.rm.toNat rs (128 * i + j) e (if nbv then 16 else 32)
        (products a.cplx rowv (fun n => colv.getD n []) j) 0 start
    (outs.map (·.1), outs.foldl (fun f p => f ||| p.2) fA)
  ((List.range 4).map (fun u =>
     (accOff m.ent a.od u, rows * 128, packElems 1024 (rowRes.map fun r => packElems 32 ((r.1.drop (32 * u)).take 32)))),
   rowRes.foldl (fun f r => f ||| r.2) fB)

/-! ## Draining (R189) -/

/-- The output of a drain and its flags. Without `.add` an accumulator of -0 keeps its sign (the model's choice, log 121). -/
def State.drainResult (s : State) (who : Nat) (m : MOp) (rm : BitVec 3) (k : Nat) (add : Bool) (os : BitVec 11) : Nat × BitVec 7 :=
  let c := s.ctx who
  let d := s.desc (s.partOf who) k
  let rows := cfgRows m.cfg
  let val (x : Nat) : FVal := if cfgAcc m.cfg then FVal.ofInt (BitVec.ofNat 32 x).toInt else fmtF32.decode true x
  let l := (List.range (rows * 128)).map fun q =>
    let x := val (s.accum who m.ent os (q / 128) (q % 128))
    let (y, f1) := if add then x.add (rm == 2) (val (elemAt m.sclA 32 q)) else (x, 0)
    let (z, f2) := (dFmt d).round m.ent.nbv rm.toNat (rbits c.ctl.srseed q m.ent.sridx.toNat) y
    (z, f1 ||| f2)
  (packElems (dWidth d) (l.map (·.1)), l.foldl (fun f p => f ||| p.2) 0)

/-! ## Issue: the checks of R178, then the firing (R65, R177) -/

/-- A matrix-use trap. -/
def mTrap (c : Nat) : Trap := ⟨14, c, 0⟩
/-- The three paths. -/
def pathArray : Nat := 0
def pathLoad : Nat := 1
def pathReg : Nat := 2
/-- The path that an M operation issues for; `mcfg` and `mxs` need none (R173). -/
def matrixPath : Instr → Option Nat
  | .mpre .. => some pathLoad
  | .mmulp _ _ _ _ _ _ pw _ _ _ _ => some (if pw then pathLoad else pathArray)
  | .mmul .. | .mmulz .. | .mcmul .. => some pathArray
  | .mclr .. | .mbias .. | .mtr .. | .mdrain .. => some pathReg
  | _ => none
def State.pathFree (s : State) (p : Nat) : Bool := aget 0 (s.core (coreOf s.cur.who)).mbusy p == 0
def State.takePath (s : State) (core p n : Nat) : State := s.modCore core fun c => { c with mbusy := aset c.mbusy p n }
/-- The first cause that holds. Among the matrix-use causes the order is the model's choice (log 21). -/
def firstCause (l : List (Nat × Bool)) : Option Nat := (l.find? (·.2)).map (·.1)
/-- An M operation with the settings and latches in force at its issue. -/
def State.newM (s : State) (op : Instr) (live : Bool) : MOp :=
  let l := s.me.ctl.latchesAt s.cur.ent.seq
  { id := s.ids, op := op, ent := s.cur.ent, live := live, cfg := s.me.ctl.mxcfg, mr := l.mr, mc := l.mc }
def State.addM (s : State) (m : MOp) : State :=
  { s with ids := s.ids + 1 }.modMe fun c => { c with mops := c.mops ++ [m] }
/-- Pops `n` slots of an own ring; the credit arises when the operation ends. -/
def State.takeSlots (s : State) (n k : Nat) : State := s.modRing (coreOf s.cur.who) n fun r => r.pop k true
/-- A load of the plane is in progress. -/
def Ctx.loading (c : Ctx) (x : Nat) : Bool :=
  c.mops.any fun m => m.live && m.stage == 2 &&
    (match m.op with | .mpre _ y _ _ _ => y.toNat == x | .mmulp _ _ y _ _ _ _ _ _ _ _ => y.toNat == x | _ => false)
def Ctx.planeReady (c : Ctx) (x : Nat) : Bool := (c.plane x).loaded || c.loading x
/-- What an operation pops: `c` slots of each ring it names. Where both fields name one ring, it pops the data's `c` slots and then
the scales' (log 91). -/
def inputsOf (ra rb : BitVec 6) (c : Nat) : List (Nat × Nat) :=
  if rb = 0 then [(ra.toNat, c)] else if ra = rb then [(ra.toNat, 2 * c)] else [(ra.toNat, c), (rb.toNat, c)]
def State.hasInputs (s : State) (l : List (Nat × Nat)) : Bool := l.all fun p => (s.myRing p.1).canPop p.2
def State.takeInputs (s : State) (l : List (Nat × Nat)) : State := l.foldl (fun s p => s.takeSlots p.1 p.2) s
/-- The scales' run. -/
def State.scaleRun (s : State) (core : Nat) (ra rb : BitVec 6) (c : Nat) : Nat :=
  if rb = 0 then 0
  else if ra = rb then s.ringRun core rb.toNat (2 * c) / 2 ^ (8 * (c * (s.ring core rb.toNat).slotSize))
  else s.ringRun core rb.toNat c

/-- `mcfg`: the new setting serves every later M operation (R181). -/
def execMcfg (g : Guard) (sk : BitVec 6) (s : State) : Out :=
  let v := s.sreg sk
  let tab := s.desc (s.partOf s.cur.who)
  .next <|
    if natBits v.toNat 0 10 != 0 || natBits v.toNat 36 28 != 0 || !cfgLegal tab v then s.trap (mTrap 2)
    else if !s.guard g then s
    else s.modMe fun c => { c with ctl := { c.ctl with mxcfg := v ||| 0x1000000000 } }

/-- `mxs`: a latch write that lands at distance 2 (R182). -/
def execMxs (g : Guard) (w : BitVec 2) (os : BitVec 11) (s : State) : Out :=
  .next <|
    if !s.guard g then s
    else s.latch { seq := s.cur.ent.seq, sel := if w = 1 then .mr else if w = 2 then .mc else .mrc,
                   val := BitVec.ofNat 2048 (s.vreg .v os) }

/-- `mpre` fires on its data and scale rings and loads its plane at 1 KiB per tick (R183). -/
def execMpre (g : Guard) (x : BitVec 1) (n : BitVec 4) (ra rb : BitVec 6) (s : State) : Out :=
  let c := n.toNat + 1
  let core := coreOf s.cur.who
  let v := s.me.ctl.mxcfg
  let d := s.myDesc (cfgBfd v)
  let geo := cfgBgeo v
  let l := inputsOf ra rb c
  .next <|
    match firstCause [(1, !cfgVld v), (4, (s.me.plane x.toNat).read), (6, (rb == 0) != (geo == 0)),
        (5, c * (s.myRing ra.toNat).slotSize != planeBytes d ||
            (rb != 0 && decide (c * (s.myRing rb.toNat).slotSize < 128 * 256 / geoSize geo)))] with
    | some k => s.trap (mTrap k)
    | none =>
      if !s.pathFree pathLoad then s.unissue
      else if !s.hasInputs l then s.block (.ring [l.map fun p => (s.rk p.1, p.2, 0)])
      else
        let live := s.guard g
        let m := { s.newM (.mpre g x n ra rb) live with
          stage := 2, left := planeBytes d / 1024, runB := s.ringRun core ra.toNat c, sclB := s.scaleRun core ra rb c,
          rings := l.map fun p => (core, p.1, p.2, 0) }
        let s := ((s.takeInputs l).takePath core pathLoad (planeBytes d / 1024)).addM m
        if live then s.modMe fun cx => cx.setPlane x.toNat { cx.plane x.toNat with
          loaded := false, fresh := true, bfd := cfgBfd v, bgeo := geo }
        else s

/-- The array operations on own rings fire on A rows and A scales (R185, R187). -/
def arrayIssue (op : Instr) (g : Guard) (x : BitVec 1) (n : BitVec 4) (ra rb : BitVec 6) (s : State) : Out :=
  let c := n.toNat + 1
  let core := coreOf s.cur.who
  let v := s.me.ctl.mxcfg
  let geo := cfgAgeo v
  let l := inputsOf ra rb c
  .next <|
    match firstCause [(1, !cfgVld v), (3, !s.me.planeReady x.toNat), (6, (rb == 0) != (geo == 0)),
        (5, c * (s.myRing ra.toNat).slotSize != rowBytes (cfgRows v) (s.myDesc (cfgAfd v)) ||
            (rb != 0 && decide (c * (s.myRing rb.toNat).slotSize < cfgRows v * 256 / geoSize geo)))] with
    | some k => s.trap (mTrap k)
    | none =>
      if !s.pathFree pathArray then s.unissue
      else if !s.hasInputs l then s.block (.ring [l.map fun p => (s.rk p.1, p.2, 0)])
      else
        let live := s.guard g
        let m := { s.newM op live with
          runA := s.ringRun core ra.toNat c, sclA := s.scaleRun core ra rb c, rings := l.map fun p => (core, p.1, p.2, 0) }
        let s := (s.takeInputs l).addM m
        if live then s.modMe fun cx => cx.setPlane x.toNat { cx.plane x.toNat with read := true } else s
def execMmul (g : Guard) (rm : BitVec 3) (x : BitVec 1) (y : BitVec 2) (n : BitVec 4) (od : BitVec 11) (ra rb : BitVec 6)
    (s : State) : Out := arrayIssue (.mmul g rm x y n od ra rb) g x n ra rb s
def execMmulz (g : Guard) (rm : BitVec 3) (x : BitVec 1) (y : BitVec 2) (n : BitVec 4) (od : BitVec 11) (ra rb : BitVec 6)
    (s : State) : Out := arrayIssue (.mmulz g rm x y n od ra rb) g x n ra rb s
def execMcmul (g : Guard) (rm : BitVec 3) (x : BitVec 1) (y : BitVec 2) (z : Bool) (n : BitVec 4) (od : BitVec 11)
    (ra rb : BitVec 6) (s : State) : Out := arrayIssue (.mcmul g rm x y z n od ra rb) g x n ra rb s

/-- `mmulp`: A rows or the B block come from a ring of a peer core (R186). The peer checks come before the matrix-use causes
(log 21). -/
def execMmulp (g : Guard) (rm : BitVec 3) (x : BitVec 1) (y : BitVec 2) (peer : BitVec 4) (prel pw : Bool) (n : BitVec 4)
    (od : BitVec 11) (ra rb : BitVec 6) (s : State) : Out :=
  let c := n.toNat + 1
  let core := coreOf s.cur.who
  let rank := if prel then (rankOf core + peer.toNat) % 16 else peer.toNat
  let pc := peerCore core rank
  let pr := s.ring pc ra.toNat
  let v := s.me.ctl.mxcfg
  let dB := s.myDesc (cfgBfd v)
  let nb := planeBytes dB
  let need := rowBytes (cfgRows v) (s.myDesc (cfgAfd v))
  let k := if pw then nb / pr.slotSize else c
  .next <|
    if !s.peerOk s.cur.who rank || !pr.en || pr.buf != (if pw then 0 else 1) then s.trap ⟨15, 0, BitVec.ofNat 64 rank⟩
    else
      match firstCause [(1, !cfgVld v), (3, !pw && !s.me.planeReady x.toNat), (4, pw && (s.me.plane x.toNat).read),
          (6, cfgAgeo v != 0 || (pw && cfgBgeo v != 0)),
          (5, if pw then nb % pr.slotSize != 0 || decide (pr.count < k) || c * (s.myRing rb.toNat).slotSize != need
              else c * pr.slotSize != need)] with
      | some z => s.trap (mTrap z)
      | none =>
        if !s.pathFree (if pw then pathLoad else pathArray) then s.unissue
        else if !(pr.canPop k && (!pw || (s.myRing rb.toNat).canPop c)) then
          s.block (.ring [[(pc * 64 + ra.toNat, k, 0)] ++ (if pw then [(s.rk rb.toNat, c, 0)] else [])])
        else
          let live := s.guard g
          let m := s.newM (.mmulp g rm x y peer prel pw n od ra rb) live
          let m := if pw then
              { m with stage := 2, left := nb / 1024, runA := s.ringRun core rb.toNat c, runB := s.ringRun pc ra.toNat k,
                       rings := [(core, rb.toNat, c, 0)], peer := some (pc, ra.toNat) }
            else { m with runA := s.ringRun pc ra.toNat c, peer := some (pc, ra.toNat) }
          let s := s.modRing pc ra.toNat fun r => { r with peers := r.peers ++ [(m.id, (List.range k).map fun j => (pr.head + j) % pr.count)] }
          let s := if pw then (s.takeSlots rb.toNat c).takePath core pathLoad (nb / 1024) else s
          let s := s.addM m
          if !live then s
          else if pw then s.modMe fun cx => cx.setPlane x.toNat { cx.plane x.toNat with
            loaded := false, fresh := true, read := true, bfd := cfgBfd v, bgeo := 0 }
          else s.modMe fun cx => cx.setPlane x.toNat { cx.plane x.toNat with read := true }

/-- An operation of the register path: it needs a legal `mcfg` before it, and nothing else (R178, R188). -/
def regIssue (op : Instr) (g : Guard) (s : State) : Out :=
  .next <|
    if !cfgVld s.me.ctl.mxcfg then s.trap (mTrap 1)
    else if !s.guard g then s
    else if !s.pathFree pathReg then s.unissue
    else s.addM (s.newM op true)
def execMclr (g : Guard) (n : BitVec 3) (od : BitVec 11) (s : State) : Out := regIssue (.mclr g n od) g s
def execMbias (g : Guard) (od os : BitVec 11) (s : State) : Out := regIssue (.mbias g od os) g s
def execMtr (g : Guard) (od os : BitVec 11) (s : State) : Out := regIssue (.mtr g od os) g s

/-- `mdrain` fires on its output slot and, with `.add`, on a slot of partial sums (R189). -/
def execMdrain (g : Guard) (rm : BitVec 3) (k : BitVec 6) (add : Bool) (os : BitVec 11) (ra rb : BitVec 6) (s : State) : Out :=
  let core := coreOf s.cur.who
  let v := s.me.ctl.mxcfg
  let rows := cfgRows v
  let n := rows * 128 * dWidth (s.myDesc k.toNat) / 8
  let ro := s.myRing rb.toNat
  let rp := s.myRing ra.toNat
  .next <|
    match firstCause [(1, !cfgVld v), (5, decide (ro.slotSize < n) || (add && decide (rp.slotSize < rows * 512)))] with
    | some z => s.trap (mTrap z)
    | none =>
      if !s.pathFree pathReg then s.unissue
      else if !(ro.canPush && (!add || rp.canPop 1)) then
        s.block (.ring [[(s.rk rb.toNat, 0, 1)] ++ (if add then [(s.rk ra.toNat, 1, 0)] else [])])
      else
        let live := s.guard g
        let m := { s.newM (.mdrain g rm k add os ra rb) live with
          sclA := if add then s.ringRun core ra.toNat 1 else 0,
          out := ringSlot core ro ro.tail, outn := if live then n else ro.slotSize,
          rings := [(core, rb.toNat, 0, 1)] ++ (if add then [(core, ra.toNat, 1, 0)] else []) }
        let s := s.modRing core rb.toNat fun r => r.push true
        (if add then s.takeSlots ra.toNat 1 else s).addM m

/-! ## Paths, places and results of an M operation -/

/-- The path an operation starts on. -/
def MOp.path (m : MOp) : Nat :=
  match m.op with | .mpre .. => pathLoad | .mclr .. | .mbias .. | .mtr .. | .mdrain .. => pathReg | _ => pathArray
/-- Bytes of an accumulator group that the operation covers. -/
def groupBytes (e : Ent) (f : BitVec 11) (names bytes : Nat) : List (Nat × Nat) :=
  (List.range names).map fun u => (accOff e f u, bytes)
/-- Register bytes the operation writes: offset and length. -/
def MOp.writes (m : MOp) : List (Nat × Nat) :=
  if !m.live then []
  else
    match m.op with
    | .mclr _ n od => groupBytes m.ent od (n.toNat + 1) 4096
    | .mbias _ od _ => groupBytes m.ent od 4 (cfgRows m.cfg * 128)
    | .mtr _ od _ => groupBytes m.ent od 1 4096
    | op => match arrOf op with | some a => groupBytes m.ent a.od 4 (cfgRows m.cfg * 128) | none => []
/-- Register bytes the operation reads when it starts. -/
def MOp.reads (m : MOp) : List (Nat × Nat) :=
  if !m.live then []
  else
    match m.op with
    | .mbias _ _ os => [(m.ent.off .v os, 512)]
    | .mtr _ _ os => groupBytes m.ent os 1 4096
    | .mdrain _ _ _ _ os _ _ => groupBytes m.ent os 4 (cfgRows m.cfg * 128)
    | op => match arrOf op with | some a => if a.zero then [] else groupBytes m.ent a.od 4 (cfgRows m.cfg * 128) | none => []
def spanMeets (a b : List (Nat × Nat)) : Bool :=
  a.any fun p => b.any fun q => decide (p.1 < q.1 + q.2) && decide (q.1 < p.1 + p.2)
/-- Earlier operations of the context let this one start (R180). -/
def opsAllow (earlier : List MOp) (m : MOp) : Bool :=
  earlier.all fun e => !spanMeets e.writes (m.reads ++ m.writes) && !(e.stage != 1 && spanMeets e.reads m.writes)
/-- Ticks of the path and ticks to the result, from the start (R180). -/
def State.mTimes (s : State) (who : Nat) (m : MOp) : Nat × Nat :=
  let tab := s.desc (s.partOf who)
  match m.op with
  | .mclr _ n _ => (4 * (n.toNat + 1), 4 * (n.toNat + 1) + 2)
  | .mbias .. => (16, 18)
  | .mtr .. => (32, 34)
  | .mdrain _ _ k _ _ _ _ =>
    let o := Nat.max 1 (cfgRows m.cfg * 128 * dWidth (tab k.toNat) / 8 / 512)
    (o, o + 6)
  | op =>
    let bfd := match arrOf op with | some a => ((s.ctx who).plane a.x).bfd | none => 0
    let o := cfgRows m.cfg * Nat.max (dWidth (tab (cfgAfd m.cfg))) (dWidth (tab bfd)) / 8
    (o, o + 24)
/-- The operation with its result computed from the registers as it starts. -/
def State.mCompute (s : State) (who : Nat) (m : MOp) : MOp :=
  if !m.live then m
  else
    let reg (e : Ent) (f : BitVec 11) (vw : View) : Nat := s.bytes (s.winBase who + e.off vw f) vw.size
    match m.op with
    | .mclr .. => { m with res := m.writes.map fun p => (p.1, p.2, 0) }
    | .mbias _ od os =>
      let x := reg m.ent os .v
      { m with res := (List.range 4).map fun u => (accOff m.ent od u, cfgRows m.cfg * 128,
          packElems 1024 (List.replicate (cfgRows m.cfg) (elemAt x 1024 u))) }
    | .mtr _ od os =>
      let x := reg m.ent os .a
      { m with res := [(accOff m.ent od 0, 4096, packElems 32 ((List.range 1024).map fun q => elemAt x 32 (q % 32 * 32 + q / 32)))] }
    | .mdrain _ rm k add os _ _ =>
      let (o, f) := s.drainResult who m rm k.toNat add os
      { m with outv := o, flags := f }
    | op =>
      match arrOf op with
      | some a =>
        let (r, f) := s.arrayResult who m a
        { m with res := r, flags := f }
      | none => m

end Sys2Proof.Machine
end

