-- ==== Sys2Proof/Machine/Names.lean ====
section
/-! DEFINITION. The fields by which an operation names registers, layout entries and rings (R91, R92, R96 to R101): one
table that the dispatch checks, the scoreboard and the linker read (R29, R44, R110, R260). -/

namespace Sys2Proof.Machine

/-- What a field names. -/
inductive FKind
  /-- `n` consecutive scalar registers. -/
  | scalar (n : Nat)
  /-- A run of `mult` times the rank of the entry that the field at `le` names, plus `add`. -/
  | run (le mult add : Nat)
  | pred
  | mask
  | ib
  /-- `n` names of a view from the field's. -/
  | name (vw : View) (n : Nat)
  | layout
  /-- `n` consecutive rings. -/
  | ring (n : Nat)
  deriving DecidableEq, Repr
/-- A naming field: its lowest bit in the slot, what it names, and whether the operation reads and writes it. -/
structure Field where
  pos  : Nat
  kind : FKind
  rd   : Bool
  wr   : Bool
  deriving DecidableEq, Repr
/-- Width of a field. -/
def FKind.bits : FKind → Nat
  | .scalar _ | .run .. | .ring _ => 6 | .pred => 4 | .mask | .ib => 3 | .name .. => 11 | .layout => 8

def rS (p : Nat) : Field := ⟨p, .scalar 1, true, false⟩
def wS (p : Nat) : Field := ⟨p, .scalar 1, false, true⟩
def rP (p : Nat) : Field := ⟨p, .pred, true, false⟩
def wP (p : Nat) : Field := ⟨p, .pred, false, true⟩
def rM (p : Nat) : Field := ⟨p, .mask, true, false⟩
def wM (p : Nat) : Field := ⟨p, .mask, false, true⟩
def rN (p : Nat) (vw : View) (n : Nat := 1) : Field := ⟨p, .name vw n, true, false⟩
def wN (p : Nat) (vw : View) (n : Nat := 1) : Field := ⟨p, .name vw n, false, true⟩
def uN (p : Nat) (vw : View) (n : Nat := 1) : Field := ⟨p, .name vw n, true, true⟩
def fL (p : Nat) : Field := ⟨p, .layout, true, false⟩
def fR (p : Nat) (n : Nat := 1) : Field := ⟨p, .ring n, true, false⟩
def rRun (p le mult add : Nat) : Field := ⟨p, .run le mult add, true, false⟩
/-- Two scalar sources and a destination (R96). -/
def f3 : List Field := [wS 12, rS 18, rS 24]
def f2 : List Field := [wS 12, rS 18]
/-- The second source of an SX row. -/
def fSrc : VSrc → Field | .reg _ => rN 42 .v | .sc _ => rS 68
/-- The lane mask of a V operation. -/
def mF (c : VC) : List Field := if c.me then [rM 64] else []
/-- Form MEM: entry and coordinates (R99). -/
def fMem : List Field := [fL 22, rRun 30 22 1 0]
/-- A ring field that 0 leaves unused (R175). -/
def fOpt (p : Nat) (r : BitVec 6) : List Field := if r = 0 then [] else [fR p]

/-- The naming fields of an operation, guard apart; `cw` gives the container width of a descriptor (R154). -/
def opFields (cw : Nat → Nat) : Instr → List Field
  | .add .. | .sub .. | .mul .. | .mulh .. | .mulhn .. | .and .. | .or .. | .xor .. | .andn .. | .shl .. | .shr .. | .sar ..
  | .min .. | .max .. | .minn .. | .maxn .. | .fadd .. | .fsub .. | .fmul .. => f3
  | .div .. | .divn .. | .rem .. | .remn .. => [rS 18, rS 24]
  | .clz .. | .popc .. | .sext .. | .zext .. | .mov .. | .fcvt .. | .addi .. | .lih .. => f2
  | .sel .. => f3 ++ [rP 39]
  | .cmp .. | .fcmp .. => [wP 12, rS 18, rS 24]
  | .pand .. | .por .. | .pxor .. => [wP 12, rP 18, rP 24]
  | .pnot .. => [wP 12, rP 18]
  | .li .. | .call .. | .wid .. | .rank .. | .csrr .. => [wS 12]
  | .ffma .. => f3 ++ [rS 30]
  | .bc .. | .jmpi .. => [rS 18, rS 24]
  | .ret .. | .vwr .. | .csrw .. => [rS 18]
  | .loop .. => [⟨12, .scalar 1, true, true⟩]
  | .ibw .. => [⟨12, .ib, false, true⟩, rS 18]
  | .qpop .. | .evqPop .. => [wS 12, wP 24]
  | .sysrd .. | .tstate .. => f2
  | .syswr .. | .keyld .. | .keyldErase .. | .vote .. | .swq .. => [rS 18, rS 24]
  | .tlbinv .. => [rS 18, rS 24, rS 30]
  | .slotmap .. | .ctxsave .. | .ctxrest .. | .swpat .. => [wP 12, rS 18, rS 24]
  | .lnkTrain .. | .lnkPark .. | .lnkWake .. | .lnkRetrain .. | .lnkDown .. | .lnkEnable .. => [wP 12, rS 18]
  | .olkAcq .. | .olkRel .. => [rS 18]
  | .vadd c _ _ b | .vsub c _ _ b | .vmul c _ _ b | .vmulh c _ _ b | .vmin c _ _ b | .vmax c _ _ b | .vaddsat c _ _ b
  | .vsubsat c _ _ b | .vand c _ _ b | .vor c _ _ b | .vxor c _ _ b | .vshl c _ _ b | .vshr c _ _ b | .vsar c _ _ b
  | .vcmul c _ _ _ b => mF c ++ [wN 20 .v, rN 31 .v, fSrc b]
  | .vcmac c _ _ _ b => mF c ++ [uN 20 .v, rN 31 .v, fSrc b]
  | .vfma c _ _ b _ | .vfms c _ _ b _ => mF c ++ [wN 20 .v, rN 31 .v, fSrc b, rN 53 .v]
  | .vabs c .. | .vneg c .. | .vnot c .. | .vcvt c .. | .vmov c .. => mF c ++ [wN 20 .v, rN 31 .v]
  | .vcmp c _ _ _ b => mF c ++ [wM 20, rN 31 .v, fSrc b]
  | .vsel c .. => mF c ++ [wN 20 .v, rN 31 .v, rN 42 .v, rM 53]
  | .vwiden c u .. => mF c ++ [wN 20 (viewOf (c.et.width / u.width)), rN 31 .v]
  | .vnarrow c u .. => mF c ++ [wN 20 .v, rN 31 (viewOf (u.width / c.et.width))]
  | .vmaxe c _ x _ => mF c ++ [rN 31 (viewOf (2 ^ x.toNat))]
  | .vqcvt c k .. => mF c ++ [wN 20 .v, rN 31 (viewOf (c.et.width / cw k.toNat)), wN 42 .v, rS 68]
  | .vdeq c k .. => mF c ++ [wN 20 (viewOf (c.et.width / cw k.toNat)), rN 31 .v, rN 42 .v, rS 68]
  | .vexp2 c _ | .vlog2 c _ | .vrcp c _ | .vrsq c _ | .vsqrt c _ | .vtanh c _ | .vsincos c _ | .vred c .. | .vscan c ..
  | .vpip c _ => mF c ++ [rN 31 .v]
  | .vperm c .. => mF c ++ [wN 20 .v, rN 31 .v, rN 42 (viewOf (permView c.et.width))]
  | .vbcast c .. | .vlane c .. => mF c ++ [wN 20 .v, rS 68]
  | .vbcastLane c .. | .vrot c .. => mF c ++ [wN 20 .v, rN 31 .v, rS 68]
  | .vtrn c .. => mF c ++ [wN 20 (viewOf (trnShape c.et.width).1), rN 31 (viewOf (trnShape c.et.width).1)]
  | .vzip c .. => mF c ++ [wN 20 .w, rN 31 .v, rN 42 .v]
  | .vunzip c .. => mF c ++ [wN 20 .w, rN 31 .w]
  | .vbin c k .. => mF c ++ [wN 20 .v, rN 31 .v, rN 42 .v, fR 68 (k.toNat + 1)]
  | .vpipBy c .. => mF c ++ [rN 31 .v, rN 42 .v]
  | .vpipRead c _ => mF c ++ [wN 20 .w]
  | .vmovPop c .. => mF c ++ [wN 20 .v, fR 68]
  | .vmovPush c .. => mF c ++ [rN 31 .v, fR 68]
  | .vmovi c .. => mF c ++ [wN 20 .v]
  | .vqpop c .. => mF c ++ [wN 20 .v, wP 31]
  | .vpmov c .. => mF c ++ [wN 20 .v, rM 31]
  | .vpmovTomask c .. => mF c ++ [wM 20, rN 31 .v]
  | .mcfg .. => [rS 41]
  | .mpre _ _ _ _ rb => fR 14 :: fOpt 20 rb
  | .mxs .. => [rN 41 .v]
  | .mmul _ _ _ _ _ _ _ rb => [uN 30 .a 4, fR 14] ++ fOpt 20 rb
  | .mcmul _ _ _ _ z _ _ _ rb => [if z then wN 30 .a 4 else uN 30 .a 4, fR 14] ++ fOpt 20 rb
  | .mmulz _ _ _ _ _ _ _ rb => [wN 30 .a 4, fR 14] ++ fOpt 20 rb
  -- RA names a ring of the peer (R186)
  | .mmulp _ _ _ _ _ _ pw _ _ _ _ => [uN 30 .a 4] ++ (if pw then [fR 20] else [])
  | .mclr _ n _ => [wN 30 .a (n.toNat + 1)]
  | .mbias .. => [wN 30 .a 4, rN 41 .v]
  | .mdrain _ _ _ add _ _ _ => [rN 41 .a 4, fR 20] ++ (if add then [fR 14] else [])
  | .mtr .. => [wN 30 .a, rN 41 .a]
  | .ldT .. => wN 11 .t :: fMem
  | .ldV .. => wN 11 .v :: fMem
  | .ldS .. => wS 11 :: fMem
  | .ldG .. => uN 11 .w :: fMem
  | .tch .. => [fL 22, rRun 30 22 2 0]
  | .ldSp _ sz .. => [if sz then wN 11 .v else wS 11]
  | .rpop _ z .. => [wN 11 (match z.toNat with | 0 => .v | 1 => .w | 2 => .t | _ => .a), fR 22]
  | .rsel _ z .. => [wN 11 (match z.toNat with | 0 => .v | 1 => .w | 2 => .t | _ => .a), wP 34, fR 22, fR 28]
  | .rpeek _ z .. => [wN 11 (match z.toNat with | 0 => .v | 1 => .w | 2 => .t | _ => .a), wP 34, fR 22]
  | .stT .. => rN 11 .t :: fMem
  | .stV .. => rN 11 .v :: fMem
  | .stS .. => rS 11 :: fMem
  | .stSc .. => rN 11 .w :: fMem
  | .amo _ op .. => ⟨11, .scalar (if op = 4 then 2 else 1), true, false⟩ :: fMem
  | .stSp _ sz .. => [if sz then rN 11 .v else rS 11]
  | .rpush _ z .. => [rN 11 (match z.toNat with | 0 => .v | 1 => .w | 2 => .t | _ => .a), fR 22]
  | .cpIn _ | .cpOut _ => [fL 16, fL 24, rRun 32 16 1 1]
  | .cpPeer _ mc => [fL 16, fL 24, rRun 32 16 1 (if mc then 2 else 1)]
  | .cpPf _ => [fL 16, rRun 32 16 2 1]
  | .send _ => [fL 16, ⟨32, .scalar 3, true, false⟩]
  | .recvArm _ => [fL 24, ⟨32, .scalar 2, true, false⟩]
  | .exf .. => [fL 16, fL 24, rRun 32 16 1 2, fR 38]
  | .ofx _ => [fL 16, fL 24, ⟨32, .scalar 3, true, false⟩]
  | .ofm .. => [fL 16, rS 32]
  | .ofcCap _ => [rS 32]
  | .ofcRd _ | .ofcTab _ => [fL 24, rS 32]
  | .ofr .. => [⟨32, .scalar 2, true, false⟩]
  | .sig .. | .wait .. | .bar _ => [fL 13, rRun 21 13 1 1]
  | .rwait .. => [fR 13]
  | .sleep .. | .pwrAcq .. | .realign .. => [rS 21]
  | _ => []

/-- Lowest bit of the guard's predicate. -/
def guardPos : Kind → Nat | .s => 7 | .v => 8 | .y => 5 | _ => 6
/-- The number that a field holds. -/
def Field.val (f : Field) (raw : BitVec 80) : Nat := natBits raw.toNat f.pos f.kind.bits
/-- Every naming field of a slot's bits, with the guard's predicate when there is one. -/
def fieldsOf (cw : Nat → Nat) (k : Kind) (raw : BitVec 80) (i : Instr) : List Field :=
  (if natBits raw.toNat (guardPos k) 4 = 0 then [] else [rP (guardPos k)]) ++ opFields cw i
/-- Registers of a scalar run; `rank` gives the rank of an entry. -/
def Field.len (rank : Nat → Nat) (raw : BitVec 80) (f : Field) : Nat :=
  match f.kind with
  | .scalar n | .ring n | .name _ n => n
  | .run le mult add => mult * rank (natBits raw.toNat le 8) + add
  | _ => 1
/-- Container width of a partition's descriptor. -/
def State.cwidth (s : State) (part k : Nat) : Nat := dWidth (s.desc part k)

end Sys2Proof.Machine
end

