-- ==== Sys2Proof/Machine/Sched.lean ====
section
/-! DEFINITION. What the task scheduler and the row dispensers decide from: kernel records (R275 to R286), the share of a
task that R19 places on each core, and the instance a dispenser offers a context (R331). -/

namespace Sys2Proof.Machine

/-! ## Bytes -/

/-- `n` bytes at offset `o` as a number. -/
def field (l : List Byte) (o n : Nat) : Nat := bytesNat ((l.drop o).take n)

/-! ## Kernel records (R275, R276) -/

/-- Payloads of the sub-records of one type. -/
def Kernel.sub (k : Kernel) (ty : Nat) : List (List Byte) := (k.subs.filter fun p => p.1 == ty).map (·.2)
def Kernel.win512 (k : Kernel) : Bool := k.flags.getLsbD 0
def Kernel.nbv0 (k : Kernel) : Bool := k.flags.getLsbD 1
def Kernel.nosplice (k : Kernel) : Bool := k.flags.getLsbD 2
def Kernel.splice (k : Kernel) : Bool := k.flags.getLsbD 3
/-- WID records: field, width, declared count. -/
def Kernel.wids (k : Kernel) : List (Nat × Nat × Option Nat) :=
  (k.sub 1).map fun p => (field p 0 1, field p 1 1, if field p 2 1 % 2 = 1 then some (field p 4 8) else none)
/-- RING records: ring, KEEP, RINGCFG image. -/
def Kernel.rings (k : Kernel) : List (Nat × Bool × Nat) := (k.sub 5).map fun p => (field p 0 1, field p 1 1 % 2 == 1, field p 4 8)
/-- RANGE records: entry, write, TRANSIENT. -/
def Kernel.ranges (k : Kernel) : List (Nat × Bool × Bool) := (k.sub 6).map fun p => (field p 0 1, field p 1 1 == 1, field p 2 1 % 2 == 1)
/-- LAYOUT records: entry and image, before relocation kind 4. -/
def Kernel.layouts (k : Kernel) : List (Nat × BitVec 512) := (k.sub 4).map fun p => (field p 0 1, BitVec.ofNat 512 (field p 4 64))
/-- The image that holds a task's kernel, and the kernel. -/
def State.image (s : State) (part id : Nat) : Option Image := s.svc.images.find? fun i => i.id == id && i.part == part
def State.kernel (s : State) (part img sym : Nat) : Option Kernel :=
  (s.image part img).bind fun i => i.kernels.find? fun k => k.sym == sym
def State.taskKernel (s : State) (t : Task) : Option Kernel := s.kernel t.part t.img t.ksym

/-! ## Enumeration and placement (R18, R19) -/

def Task.count (t : Task) (i : Nat) : Nat := t.counts.getD i 1
/-- Product of the counts of the fields below `i`. -/
def Task.below (t : Task) (i : Nat) : Nat := (List.range i).foldl (fun a j => a * t.count j) 1
def Task.total (t : Task) : Nat := t.below 6
/-- Value of field `i` at enumeration index `e`. -/
def Task.field (t : Task) (e i : Nat) : Nat := e / t.below i % t.count i
def Task.wid (t : Task) (e : Nat) : Word :=
  BitVec.ofNat 64 ((List.range 6).foldl (fun a i => a + t.field e i * 2 ^ ((List.range i).foldl (fun o j => o + t.widths.getD j 0) 0)) 0)
/-- Fields of PLACE (R323). -/
def Task.placeField (t : Task) (level : Nat) : Nat := natBits t.place.toNat (3 * level) 3
def Task.skew (t : Task) : Nat := natBits t.place.toNat 9 4
/-- Participating dies, rows of a die and ranks of a row; `masks` holds packet bytes 24 to 63. -/
def Task.dies (t : Task) : List Nat := (List.range 4).filter fun d => natBits t.masks d 1 == 1
def Task.rowsOn (t : Task) (d : Nat) : List Nat := (List.range 4).filter fun r => natBits t.masks (16 + 4 * d + r) 1 == 1
def Task.ranksOn (t : Task) (row : Nat) : List Nat := (List.range 16).filter fun k => natBits t.masks (64 + 16 * row + k) 1 == 1
/-- Position at a level among `n` participating parts. -/
def Task.pos (t : Task) (e level n : Nat) : Nat :=
  let f := t.placeField level
  (if f = 7 then e else t.field e f) % n
/-- The row, numbered through the package, and the core that an instance goes to. -/
def Task.homeRow (t : Task) (e : Nat) : Option Nat :=
  (t.dies[t.pos e 0 t.dies.length]?).bind fun d => ((t.rowsOn d)[t.pos e 1 (t.rowsOn d).length]?).map fun r => 4 * d + r
def Task.homeCore (t : Task) (e : Nat) : Option Nat :=
  (t.homeRow e).bind fun row => ((t.ranksOn row)[t.pos e 2 (t.ranksOn row).length]?).map fun k => 16 * row + k
/-- Values below `c` that are `p` modulo `n`. -/
def residues (c n p : Nat) : Nat := if p < n then (c + n - 1 - p) / n else 0
/-- Instances of a die's share. -/
def Task.share (t : Task) (die : Nat) : Nat :=
  if !t.dies.contains die then 0
  else
    let n := t.dies.length
    let p := (t.dies.takeWhile fun d => d != die).length
    let f := t.placeField 0
    if f = 7 then residues t.total n p else residues (t.count f) n p * (t.total / t.count f)
/-- The first enumeration index from `e` that satisfies a test. -/
def findFrom (p : Nat → Bool) : Nat → Nat → Option Nat
  | 0, _ => none
  | n + 1, e => if p e then some e else findFrom p n (e + 1)
/-- The next new instance of a core, or of a row in a broadcast launch, in ascending WID order (R20). -/
def Task.nextOn (t : Task) (core : Nat) : Option Nat :=
  let key := if t.bcast then 1024 + rowOf core else core
  let e := aget 0 t.next key
  findFrom (fun i => if t.bcast then t.homeRow i == some (rowOf core) else t.homeCore i == some core) (t.total - e) e
/-- A faulted instance to dispense again on a core. -/
def Task.againOn (t : Task) (core : Nat) : Option Nat :=
  t.again.find? fun i => if t.bcast then t.homeRow i == some (rowOf core) else t.homeCore i == some core

/-! ## Power grants (R382) -/

def prtBudget (c : Word) : Nat := natBits c.toNat 40 16
def prtPcap (c : Word) : Nat := natBits c.toNat 32 8
def prtDeflvl (c : Word) : Nat := natBits c.toNat 24 8
def prtEn (c : Word) : Bool := c.getLsbD 56
/-- Grants of contexts of a die that hold an instance, of one partition or of all. -/
def State.grants (s : State) (die : Nat) (part : Option Nat) : Nat :=
  s.ctxs.foldl (fun a p =>
    match p.2.inst with
    | some i => if !isFw p.1 && dieOfWho p.1 == die && (match part with | some q => i.part == q | none => true) then a + p.2.level else a
    | none => a) 0
/-- Raising one grant by `k` keeps both sums. -/
def State.mayGrant (s : State) (die part k : Nat) : Bool :=
  decide (s.grants die (some part) + k ≤ prtBudget (s.part part).ctl) && decide (s.grants die none + k ≤ (s.die die).diemax.toNat)
/-- A raising request joins its die's queue; those of one tick stand in the order of row, rank and context (R382). -/
def raising (r : Nat × Nat × Nat) : List (Nat × Nat × Nat) → List (Nat × Nat × Nat)
  | [] => [r]
  | h :: l => if h.2.2 = r.2.2 ∧ r.1 < h.1 then r :: h :: l else h :: raising r l
/-- Whether the requests of `n` contexts for a first grant of DEFLVL can be made: one waits behind every request that waits. -/
def State.mayStart (s : State) (die part n : Nat) : Bool :=
  (s.die die).pwrq.isEmpty && s.mayGrant die part (n * prtDeflvl (s.part part).ctl)

/-! ## Offers (R331) -/

/-- An instance offered to a context: its task's slot, and whether it is pre-empted (with its save slot and address),
faulted and rerun, or new (with its enumeration index). -/
inductive Offer
  | saved (slot k addr : Nat)
  | rerun (slot idx : Nat)
  | fresh (slot idx : Nat)
  deriving DecidableEq, Repr
def Offer.slot : Offer → Nat | .saved s _ _ => s | .rerun s _ => s | .fresh s _ => s

/-- A task of a die whose instances may be dispensed: ready or running, not held by the linker, its dependences and those of
its whole chain resolved; in a chain the head dispenses, and after a cut a task behind the cut, once the share ahead of it
has halted (R331, R332, R263). -/
def Die.dispensable (d : Die) (t : Task) : Bool :=
  (t.state == 2 || t.state == 3) && t.holdLeft.isNone && t.deps.isEmpty &&
  match t.chain with
  | none => true
  | some (head, k) =>
    t.seg == k && d.tasks.all fun p =>
      match p.2.chain with
      | some (h, j) => h != head || ((k ≤ j || p.2.left == 0) && (p.2.seg != t.seg || p.2.deps.isEmpty))
      | none => true
/-- The snapshot at an address of a partition. -/
def State.snap (s : State) (part addr : Nat) : Option Snap := s.svc.snaps.find? fun n => n.part == part && n.addr == addr
/-- A snapshot may only come back on its own context (R358): rings owned there, credits or updates withheld, or engine
commands of the instance under way, with a record to come (R357) or without one. -/
def Snap.bound (n : Snap) : Bool :=
  n.bnd ||
  n.rings.any (fun r => r.2.en || r.2.wfree != 0 || r.2.wfill != 0) ||
  n.ctx.held.any (fun e => e.cls == 17) ||
  n.ctx.rq.any (fun q => (q.1 == 2 || q.1 == 3) && q.2.any fun e => !e.arrived) ||
  n.quiet.any (· != 0)
/-- The ring rule of R289: each declared ring is disabled, the context's own, or a ring of a context without an instance. -/
def State.ringsFree (s : State) (who : Nat) (k : Kernel) : Bool :=
  let c := s.core (coreOf who)
  k.rings.all fun r =>
    let q := c.ring r.1
    !q.en || q.owner == ctxOf who || (s.ctx (coreOf who * 4 + q.owner)).inst.isNone
/-- A context that can take an instance (R20, R40, R296). -/
def State.freeCtx (s : State) (who : Nat) : Bool :=
  let c := s.ctx who
  let core := s.core (coreOf who)
  !isFw who && c.inst.isNone && !c.hold && core.sltmap.getLsbD 4 && (!core.two || decide (ctxOf who < 2))
/-- Slots that run together from a slot's task: its own, or those of the chain's segment that it leads. -/
def Die.segment (d : Die) (slot : Nat) : List Nat :=
  if (d.task slot).chain.isNone then [slot] else (d.chainSlots slot).filter fun k => (d.task k).seg == (d.task slot).seg
/-- The kernels that an instance of a slot runs. -/
def State.slotKernels (s : State) (die slot : Nat) : List Kernel :=
  ((s.die die).segment slot).filterMap fun k => s.taskKernel ((s.die die).task k)
/-- What a task offers a context. A broadcast instance goes to context 0 of its row's cores together (R327). -/
def State.taskOffer (s : State) (who slot : Nat) (t : Task) : Option Offer :=
  let core := coreOf who
  let die := dieOf core
  if !(s.die die).dispensable t || !s.mayStart die t.part (if t.bcast then (t.ranksOn (rowOf core)).length else 1) then none
  else
    match t.saved.find? fun p => p.1 == core && (match s.snap t.part p.2.2 with
        | some n => (!n.bound || n.place == who) && (s.slotKernels die slot).all (s.ringsFree who) | none => false) with
    | some (_, k, addr) => some (.saved slot k addr)
    | none =>
      let whos := if t.bcast then (t.ranksOn (rowOf core)).map fun k => (rowOf core * 16 + k) * 4 else [who]
      if !(s.slotKernels die slot).all fun k => whos.all fun w => s.ringsFree w k then none
      else
        let ok := !t.bcast || (ctxOf who == 0 && (t.ranksOn (rowOf core)).head? == some (rankOf core) && (s.row (rowOf core)).bcast.isNone &&
          whos.all s.freeCtx)
        if !ok then none
        else
          match t.againOn core with
          | some i => some (.rerun slot i)
          | none => (t.nextOn core).map (.fresh slot)
/-- `a` ranks ahead of `b` for a core: a task with a pre-empted instance placed there goes first, whichever context that instance is
bound to (R331). -/
def ranksFirst (core : Nat) (a b : Task × Offer) : Bool :=
  let pre (t : Task) : Bool := t.saved.any fun q => q.1 == core
  if pre a.1 != pre b.1 then pre a.1
  else if a.1.prio != b.1.prio then decide (b.1.prio < a.1.prio)
  else decide (a.1.order < b.1.order)
/-- The offers of a die's ready tasks to a context, and the first-ranked one. A context that an overrun has freed takes the instance that
overran only where no other is offered (R339; the model's choice, log 113). -/
def State.offersBut (s : State) (who : Nat) (spent : Option Nat) : List (Task × Offer) :=
  (s.die (dieOfWho who)).tasks.filterMap fun p =>
    let t := { p.2 with saved := p.2.saved.filter fun q => some q.2.2 != spent }
    (s.taskOffer who p.1 t).map fun o => (t, o)
def State.offers (s : State) (who : Nat) : List (Task × Offer) :=
  let l := s.offersBut who (s.ctx who).spent
  if l.isEmpty then s.offersBut who none else l
def bestOffer (core : Nat) : List (Task × Offer) → Option (Task × Offer)
  | [] => none
  | a :: r => match bestOffer core r with | none => some a | some b => if ranksFirst core b a then some b else some a
def State.offer (s : State) (who : Nat) : Option Offer := (bestOffer (coreOf who) (s.offers who)).map (·.2)

/-- A task of at least a priority has an instance for the core of a running context (R335). -/
def State.otherReady (s : State) (who prio : Nat) : Bool :=
  let core := coreOf who
  (s.die (dieOf core)).tasks.any fun p =>
    (s.die (dieOf core)).dispensable p.2 && decide (prio ≤ p.2.prio) &&
    (!p.2.bcast || (p.2.ranksOn (rowOf core)).contains (rankOf core)) &&
    (p.2.saved.any (fun q => q.1 == core) || (p.2.againOn core).isSome || (p.2.nextOn core).isSome)

/-! ## The splice cache (R267) -/

/-- Bytes of a program in the splice cache. -/
def Spliced.size (p : Spliced) : Nat := (80 * p.code.length + 4095) / 4096 * 4096
/-- A program is held: a task of its chain is queued or in flight on the die, or a running or saved context runs it (R267). -/
def State.holds (s : State) (die : Nat) (p : Spliced) : Bool :=
  (s.die die).tasks.any (fun t => t.2.state != 0 && t.2.state != 6 && p.tasks.contains t.2.taskno) ||
  s.ctxs.any (fun c => dieOfWho c.1 == die && (match c.2.inst with | some i => i.spl == some p.id | none => false)) ||
  s.svc.snaps.any fun n => dieOfWho n.place == die && (match n.ctx.inst with | some i => i.spl == some p.id | none => false)
def cacheBytes (l : List Spliced) : Nat := l.foldl (fun a p => a + p.size) 0
/-- Evicts programs that nothing holds, least recently started first, until `need` bytes fit. -/
def evictFor (holds : Spliced → Bool) (need : Nat) : Nat → List Spliced → List Spliced
  | 0, l => l
  | n + 1, l =>
    if cacheBytes l + need ≤ 2 ^ 21 then l
    else
      match (l.filter fun p => !holds p).foldl (fun (a : Option Spliced) p =>
          match a with | none => some p | some q => if p.lastUse < q.lastUse then some p else some q) none with
      | none => l
      | some v => evictFor holds need n (l.filter fun p => p.id != v.id)
/-- Puts a program in a die's cache, or `none` when there is no room. -/
def State.cachePut (s : State) (die : Nat) (p : Spliced) : Option State :=
  let l := evictFor (s.holds die) p.size (s.die die).cache.length (s.die die).cache
  if cacheBytes l + p.size ≤ 2 ^ 21 then some (s.modDie die fun d => { d with cache := l ++ [p] }) else none
/-- A die that does not hold a program builds it again, bit for bit; `none` while its cache lacks room (R270). -/
def State.rebuildOn (s : State) (die : Nat) (p : Option Spliced) : Option State :=
  match p with
  | some p => if (s.die die).cache.any fun q => q.id == p.id then some s else s.cachePut die p
  | none => some s

end Sys2Proof.Machine
end

