-- ==== Sys2Proof/Machine/Linker.lean ====
section
/-! DEFINITION. The Domino linker (R259 to R268): which tasks may be spliced, the renumbering, the spliced program, and the
die's splice cache. A chain's program is a function of its kernels and launches, so each link is built from all of them. -/

namespace Sys2Proof.Machine

/-! ## Ranges (R282, R329) -/

/-- Bytes from the lowest to the highest virtual address of an entry's box, as (first, one past last); `none` is a hull
that cannot be resolved. -/
def State.hull (s : State) (part : Nat) (img : BitVec 512) : Option (Nat × Nat) :=
  let l := layOf img
  match s.walk part l.base with
  | .error _ => none
  | .ok p =>
    if !s.descOk part p.fmt then none
    else
      let w : Int := dWidth (s.desc part p.fmt)
      let far (pick : Int → Int → Int) : Int :=
        (List.range l.rank).foldl (fun a i => a + pick 0 (((l.ext.getD i 0 : Int) - 1) * l.str.getD i 0)) 0
      let lo := l.base * 8 + far min * w
      let hi := l.base * 8 + far max * w + w
      some ((lo / 8).toNat, ((hi + 7) / 8).toNat)
/-- Base, extents and strides of a range; its format is that of the page of its base. -/
def rangeKey (img : BitVec 512) : Nat × List Nat × List Int :=
  let l := layOf img
  (l.base, l.ext.take l.rank, l.str.take l.rank)

/-! ## Programs (R259, R268) -/

/-- A bundle of a program with what its splice-map entry will hold. -/
structure LBun where
  bits : BitVec 512
  kpos : Nat
  boff : Nat
  orig : BitVec 64 := 0
  stp  : Bool := false
  lpx  : Bool := false
  stx  : Bool := false
  ldx  : Bool := false
/-- The splice-map entry (R268). -/
def LBun.entry (b : LBun) : BitVec 128 :=
  b.orig ++ BitVec.ofNat 2 b.kpos ++ (0#26) ++ bit1 b.stp ++ bit1 b.lpx ++ bit1 b.stx ++ bit1 b.ldx ++ (0#4) ++ BitVec.ofNat 28 b.boff
/-- A marked access: store or load, entry, bundle in the body, steps (R276). -/
structure LMark where
  st    : Bool
  le    : Nat
  pos   : Nat
  steps : List Int
/-- A kernel, or the program built so far. -/
structure LProg where
  pre    : List LBun
  body   : List LBun
  post   : List LBun
  /-- View images v, w, t and a. -/
  views  : List (BitVec 32)
  layout : List (Nat × BitVec 512)
  trip   : Nat × Nat
  marks  : List LMark
  rings  : List Nat
  /-- Declared undo images and withholding entries; 65 images stand for a figure that is not declared. -/
  span   : Nat × Nat
  /-- Read and write ranges: entry image, hull, TRANSIENT; the write ranges of the last task alone. -/
  reads  : List (BitVec 512 × Option (Nat × Nat))
  /-- Window blocks of its footprint (R286). -/
  foot   : List Nat
  writes : List (BitVec 512 × Option (Nat × Nat) × Bool)
  last   : List (BitVec 512 × Option (Nat × Nat) × Bool)

def LProg.code (p : LProg) : List LBun := p.pre ++ p.body ++ p.post
/-- An operation of a program: bundle number, slot, bits and instruction. -/
abbrev LOp := Nat × Slot × BitVec 80 × Instr
def opsIn (l : List LBun) : List LOp :=
  (l.zipIdx.map fun b =>
    let f := splitBundle b.1.bits
    allSlots.filterMap fun sl =>
      match decode sl.kind (f.slot sl) with
      | .ok (.nop _) => none
      | .ok i => some (b.2, sl, f.slot sl, i)
      | .error _ => none).flatten
/-- Window blocks of 512 B per name of a view, and the default image of a view (R42). -/
def View.blocks (vw : View) : Nat := vw.size / 512
def allViews : List View := [.v, .w, .t, .a]
def View.num : View → Nat | .v => 0 | .w => 1 | .t => 2 | .a => 3
def defView (window : Nat) (vw : View) : BitVec 32 := BitVec.ofNat 32 (window / vw.size * 2 ^ 10)
/-- Views of a kernel in a window: its records over the defaults. -/
def Kernel.views (k : Kernel) (w : Nat) : List (BitVec 32) :=
  allViews.map fun vw =>
    match (k.sub 2).find? fun p => field p 0 1 == vw.num with
    | some p => BitVec.ofNat 32 (field p 4 4)
    | none => defView w vw
/-- Blocks that a name field covers under a program's views. -/
def LProg.blocks (p : LProg) (vw : View) (n f : Nat) : List Nat :=
  let base := viewBase (p.views.getD vw.num 0)
  (List.range (n * vw.blocks)).map fun i => base + (f % 1024) * vw.blocks + i
/-- Rank of an entry of a program. -/
def LProg.rank (p : LProg) (n : Nat) : Nat := (layOf (aget noLayout p.layout n)).rank

/-- Every naming field of some code's operations. -/
def usesIn (cw : Nat → Nat) (l : List LBun) : List (LOp × Field) :=
  ((opsIn l).map fun o => (fieldsOf cw o.2.1.kind o.2.2.1 o.2.2.2).map fun f => (o, f)).flatten
/-- Window blocks that a kernel can name: its FOOTPRINT map, or what its operands name where it has none (R286). -/
def Kernel.foot (k : Kernel) (cw : Nat → Nat) (views : List (BitVec 32)) (l : List LBun) : List Nat :=
  match k.sub 11 with
  | p :: _ => (List.range 1024).filter fun b => natBits (field p (4 + b / 8) 1) (b % 8) 1 == 1
  | [] => ((usesIn cw l).map fun u =>
      match u.2.kind with
      | .name vw n => (List.range (n * vw.blocks)).map fun i =>
          viewBase (views.getD vw.num 0) + (u.2.val u.1.2.2.1 % 1024) * vw.blocks + i
      | _ => []).flatten.eraseDups

/-- A kernel of a task, standing at a position of a chain. -/
def State.lprog (s : State) (t : Task) (k : Kernel) (pos : Nat) : LProg :=
  let body := (k.sub 7).headD []
  let top := field body 4 4
  let tail := field body 8 4
  let code := k.code.zipIdx.map fun b => ({ bits := b.1, kpos := pos, boff := b.2 } : LBun)
  let rg (w : Bool) := (k.ranges.filter fun r => r.2.1 == w).map fun r =>
    (aget noLayout t.layout r.1, s.hull t.part (aget noLayout t.layout r.1), r.2.2)
  let ck := (k.sub 9).headD []
  let views := k.views (if k.win512 then 0x80000 else 0x40000)
  { pre := code.take top, body := (code.drop top).take (tail + 1 - top), post := code.drop (tail + 1), views := views,
    foot := k.foot (s.cwidth t.part) views code, layout := t.layout, trip := (field body 0 1, field body 1 1),
    marks := (k.sub 8).map fun p =>
      { st := field p 0 1 == 1, le := field p 1 1, pos := field p 4 4 - top,
        steps := (List.range (field p 2 1)).map fun i => (BitVec.ofNat 32 (field p (8 + 4 * i) 4)).toInt },
    rings := k.rings.map (·.1), span := (if field ck 2 1 % 2 = 1 ∨ ck.isEmpty then 65 else field ck 0 1, field ck 1 1),
    reads := (rg false).map fun r => (r.1, r.2.1), writes := rg true, last := rg true }

/-! ## What a program uses (R259, R260) -/

/-- Every naming field of a program's operations. -/
def LProg.uses (p : LProg) (cw : Nat → Nat) : List (LOp × Field) := usesIn cw p.code
/-- Scalar runs, as (first, length). -/
def LProg.runs (p : LProg) (cw : Nat → Nat) : List (Nat × Nat) :=
  (p.uses cw).filterMap fun u =>
    match u.2.kind with
    | .scalar _ | .run .. => some (u.2.val u.1.2.2.1, u.2.len p.rank u.1.2.2.1)
    | _ => none
def runRegs (l : List (Nat × Nat)) : List Nat := ((l.map fun r => (List.range r.2).map fun i => r.1 + i).flatten).eraseDups
def LProg.named (p : LProg) (cw : Nat → Nat) (k : FKind) : List Nat :=
  (((p.uses cw).filter fun u => u.2.kind == k).map fun u => u.2.val u.1.2.2.1).eraseDups
/-- Entries that a program declares or names, scale entries with them. -/
def LProg.entries (p : LProg) (cw : Nat → Nat) : List Nat :=
  (p.layout.map (·.1) ++ p.named cw .layout ++ (p.layout.filter fun e => (layOf e.2).spv).map fun e => (layOf e.2).spl).eraseDups
/-- Result queues that a program pops. -/
def LProg.pops (p : LProg) : List Nat :=
  (opsIn p.code).filterMap fun o => match o.2.2.2 with | .qpop _ _ _ q _ => some q.toNat | .vqpop _ _ _ q5 _ => some (if q5 then 5 else 4) | _ => none
def isBranch : Instr → Bool
  | .br .. | .bc .. | .call .. | .ret .. | .jmpi .. | .loop .. | .eret .. => true
  | _ => false
/-- The operation rounds stochastically. -/
def roundsRs (sl : Slot) (raw : BitVec 80) : Instr → Bool
  | .fadd .. | .fsub .. | .fmul .. | .ffma .. | .fcvt .. => natBits raw.toNat 36 3 == 4
  | .ldT .. | .ldV .. | .ldS .. | .stT .. | .stV .. | .stS .. => natBits raw.toNat 57 3 == 4
  | _ => match sl.kind with | .v => natBits raw.toNat 13 3 == 4 | .m => natBits raw.toNat 11 3 == 4 | _ => false
/-- What no spliced kernel uses (R259, code 9). -/
def banned (cw : Nat → Nat) (o : LOp) : Bool :=
  (match o.2.2.2 with | .vwr .. | .ibw .. | .csrr .. | .csrw .. => true | i => roundsRs o.2.1 o.2.2.1 i) ||
  (opFields cw o.2.2.2).any fun f => match f.kind with | .name .. => f.val o.2.2.1 / 1024 == 1 | _ => false
/-- The entry of an operation names bytes of a range, or its scale entry does. -/
def LProg.touches (p : LProg) (hull : BitVec 512 → Option (Nat × Nat)) (h : Option (Nat × Nat)) (cw : Nat → Nat) (o : LOp) : Bool :=
  (opFields cw o.2.2.2).any fun f =>
    f.kind == .layout &&
      (let img := aget noLayout p.layout (f.val o.2.2.1)
       let l := layOf img
       let hit (i : BitVec 512) : Bool := (layOf i).isMem && hullsMeet (hull i) h
       hit img || (l.spv && hit (aget noLayout p.layout l.spl)))

/-! ## Eligibility (R259, R264) -/

/-- A matched range: the hull, whether the store is of a transient range, and the two marks. -/
structure LPair where
  hull : Option (Nat × Nat)
  tr   : Bool
  st   : LMark
  ld   : LMark

/-- Matched ranges: write ranges of the program that equal a read range of K2 which they meet. -/
def matched (a b : LProg) : List (BitVec 512 × Option (Nat × Nat) × Bool) :=
  a.last.filter fun w => b.reads.any fun r => hullsMeet w.2.1 r.2 && rangeKey w.1 == rangeKey r.1
/-- The marked accesses of a range. -/
def LProg.marksOf (p : LProg) (st : Bool) (img : BitVec 512) : List LMark :=
  p.marks.filter fun m => m.st == st && rangeKey (aget noLayout p.layout m.le) == rangeKey img
/-- The slot of a marked access, at its place in the body. -/
def LProg.at (p : LProg) (m : LMark) : BitVec 80 :=
  match p.body[m.pos]? with
  | some b => (splitBundle b.bits).slot (if m.st then .st else .ld)
  | none => 0
/-- Code 3: ranges. -/
def rangesOk (a b : LProg) (hull : BitVec 512 → Option (Nat × Nat)) (cw : Nat → Nat) : Bool :=
  let ms := matched a b
  let mine (st : Bool) (p : LProg) (o : LOp) : Bool :=
    p.marks.any fun m => m.st == st && m.pos + p.pre.length == o.1 && o.2.1 == (if st then .st else .ld)
  a.writes.all (fun w => b.reads.all fun r => !hullsMeet w.2.1 r.2 || (rangeKey w.1 == rangeKey r.1 && a.last.contains w)) &&
  b.writes.all (fun w => a.writes.all (fun v => !hullsMeet v.2.1 w.2.1) && a.reads.all fun v => !hullsMeet v.2 w.2.1) &&
  ms.all fun m =>
    (opsIn a.code).all (fun o => !a.touches hull m.2.1 cw o || mine true a o) &&
    (opsIn b.code).all fun o => !b.touches hull m.2.1 cw o || mine false b o
/-- The marks of the matched ranges, when each range has one of each and the two agree (code 7). -/
def linkPairs (a b : LProg) : Option (List LPair) :=
  let one (m : BitVec 512 × Option (Nat × Nat) × Bool) : Option LPair :=
    match a.marksOf true m.1, b.marksOf false m.1 with
    | [x], [y] =>
      let ix := aget noLayout a.layout x.le
      let iy := aget noLayout b.layout y.le
      let strip (i : BitVec 512) : BitVec 512 := i &&& ~~~(0xF#512 <<< 52)
      match parseST (a.at x), parseLD (b.at y) with
      | some (.stT g _ _ _ _ dc h), some (.ldT g' _ _ _ _ dc' h') =>
        if g.pg = 0 && g'.pg = 0 && !dc && !dc' && h = h' && strip ix == strip iy && (layOf ix).ring.isNone && x.steps == y.steps then
          some { hull := m.2.1, tr := m.2.2, st := x, ld := y }
        else none
      | _, _ => none
    | _, _ => none
  let l := (matched a b).map one
  if l.all (·.isSome) then some (l.filterMap id) else none
/-- Blocks of a marked access's tile. -/
def LProg.tile (p : LProg) (m : LMark) : List Nat := p.blocks .t 1 (natBits (p.at m).toNat 11 11)
/-- An operation writes one of some blocks. -/
def LProg.writesIn (p : LProg) (cw : Nat → Nat) (bl : List Nat) (o : LOp) : Bool :=
  (opFields cw o.2.2.2).any fun f =>
    f.wr && (match f.kind with | .name vw n => (p.blocks vw n (f.val o.2.2.1)).any bl.contains | _ => false)
/-- Code 8: branches, halts and the tiles of the matched accesses. -/
def shapeOk (a b : LProg) (ps : List LPair) (hull : BitVec 512 → Option (Nat × Nat)) (cw : Nat → Nat) : Bool :=
  let straight (p : LProg) : Bool :=
    (opsIn p.pre ++ opsIn p.post).all (fun o => !isBranch o.2.2.2 && ps.all fun q => !p.touches hull q.hull cw o) &&
    ((opsIn p.body).filter fun o => isBranch o.2.2.2).all (fun o => o.1 + 1 == p.body.length) &&
    (match ((opsIn p.body).filter fun o => isBranch o.2.2.2).map fun o => o.2.2.2 with
     | [Instr.loop _ sd _] => sd.toNat == p.trip.1
     | _ => false)
  let halts := (opsIn a.code).filterMap fun o => match o.2.2.2 with | .halt g => some (o.1, g.pg) | _ => none
  straight a && straight b && (halts == [(a.code.length - 1, 0)] && !a.post.isEmpty) &&
  ps.all fun q =>
    (opsIn a.body).all (fun o => decide (o.1 ≤ q.st.pos) || !a.writesIn cw (a.tile q.st) o) &&
    (opsIn b.body).all fun o => (o.1 == q.ld.pos && o.2.1 == .ld) || !b.writesIn cw (b.tile q.ld) o
/-- Code 9: resources that the two may not share. -/
def resourcesOk (a b : LProg) (nbv : Bool) (cw : Nat → Nat) : Bool :=
  let m (p : LProg) : Bool := (opsIn p.code).any fun o => o.2.1 == .m
  !(a.rings.any b.rings.contains) && !(a.pops.any b.pops.contains) && !(m a && m b) && nbv &&
  (opsIn a.code ++ opsIn b.code).all fun o => !banned cw o
/-- Code 10: latch writers at the end of a body. -/
def latchOk (p : LProg) : Bool :=
  (opsIn p.body).all fun o =>
    match o.2.2.2 with
    | .vmaxe .. => decide (o.1 + 2 < p.body.length)
    | .mxs .. => decide (o.1 + 1 < p.body.length)
    | _ => true

/-! ## Renumbering (R260) -/

/-- Adds a run to blocks in ascending order; runs that overlap form one block. -/
def addRun (l : List (Nat × Nat)) (r : Nat × Nat) : List (Nat × Nat) :=
  let hit (b : Nat × Nat) : Bool := decide (b.1 < r.1 + r.2) && decide (r.1 < b.1 + b.2)
  let lo := (l.filter hit).foldl (fun a b => Nat.min a b.1) r.1
  let hi := (l.filter hit).foldl (fun a b => Nat.max a (b.1 + b.2)) (r.1 + r.2)
  let rest := l.filter fun b => !hit b
  (rest.filter fun b => decide (b.1 < lo)) ++ [(lo, hi - lo)] ++ rest.filter fun b => decide (lo < b.1)
/-- Maps blocks in ascending order to the lowest free run of their length among `lim` numbers; 0 keeps its number when `zero`. -/
def mapBlocks (lim : Nat) (zero : Bool) (used : List Nat) : List (Nat × Nat) → Option (List (Nat × Nat))
  | [] => some []
  | (b, n) :: r =>
    let run (c : Nat) : List Nat := (List.range n).map fun i => c + i
    let free (c : Nat) : Bool := (run c).all fun k => decide (k < lim) && !(zero && k == 0) && !used.contains k
    let place := if zero && b = 0 then (if (run 0).all fun k => k == 0 || !used.contains k then some 0 else none)
                 else (List.range lim).find? free
    match place with
    | none => none
    | some c => (mapBlocks lim zero (run c ++ used) r).map fun l => ((List.range n).map fun i => (b + i, c + i)) ++ l
def singles (l : List Nat) : List (Nat × Nat) := l.foldl (fun a r => addRun a (r, 1)) []

/-- How K2's names change. -/
structure LMap where
  sc : List (Nat × Nat)
  pr : List (Nat × Nat)
  msk : List (Nat × Nat)
  le : List (Nat × Nat)
  /-- For each matched destination, its blocks with the blocks of the matched source; distance of the others. -/
  fwd : List (List (Nat × Nat))
  delta : Nat
/-- Rewrites the bits of a field. -/
def putField (raw : BitVec 80) (pos w v : Nat) : BitVec 80 :=
  BitVec.ofNat 80 ((v % 2 ^ w) <<< pos ||| (raw.toNat &&& (ones 80 ^^^ (ones w <<< pos))))
/-- A name field through the default views: the same bytes, moved, or, wholly inside one matched destination, forwarded. -/
def LProg.rename (p : LProg) (m : LMap) (window : Nat) (vw : View) (n f : Nat) : Option Nat :=
  let bl := p.blocks vw n f
  let hit := m.fwd.filter fun l => l.any fun q => bl.contains q.1
  let fw := bl.map fun b => ((hit.headD []).find? fun q => q.1 == b).map (·.2)
  let first := if hit.isEmpty then (bl.headD 0) + m.delta else (fw.headD none).getD 0
  let whole := hit.isEmpty || (hit.length == 1 && (List.range bl.length).all fun i => fw.getD i none == some (first + i))
  if whole && first % vw.blocks == 0 && decide ((first + bl.length) * 512 ≤ window) then some (first / vw.blocks) else none
/-- One operation renamed; `none` refuses the pair. -/
def LProg.renameOp (p : LProg) (m : LMap) (window : Nat) (cw : Nat → Nat) (o : LOp) : Option (BitVec 80) :=
  (fieldsOf cw o.2.1.kind o.2.2.1 o.2.2.2).foldl (fun (a : Option (BitVec 80)) f =>
    let v := f.val o.2.2.1
    match a with
    | none => none
    | some raw =>
      match f.kind with
      | .scalar _ | .run .. => some (putField raw f.pos 6 (aget v m.sc v))
      | .pred => some (putField raw f.pos 4 (aget v m.pr v))
      | .mask => some (putField raw f.pos 3 (aget v m.msk v))
      | .layout => some (putField raw f.pos 8 (aget v m.le v))
      | .name vw n => (p.rename m window vw n v).map fun k => putField raw f.pos 11 k
      | .ib | .ring _ => some raw) (some o.2.2.1)
/-- A slot replaced in a bundle. -/
def putSlot (b : BitVec 512) (sl : Slot) (raw : BitVec 80) : BitVec 512 :=
  let f := splitBundle b
  joinBundle (match sl with
    | .s => { f with s := raw } | .v0 => { f with v0 := raw } | .v1 => { f with v1 := raw } | .m => { f with m := raw }
    | .ld => { f with ld := raw } | .st => { f with st := raw } | .e => { f with e := raw } | .y => { f with y := raw })
/-- A part of a program renamed. -/
def LProg.renamePart (p : LProg) (m : LMap) (window : Nat) (cw : Nat → Nat) (skip : LOp → Bool) (l : List LBun) : Option (List LBun) :=
  (opsIn l).foldl (fun (a : Option (List LBun)) o =>
    match a with
    | none => none
    | some l =>
      if skip o then some l
      else
        match p.renameOp m window cw o with
        | none => none
        | some raw => some (l.zipIdx.map fun b => if b.2 = o.1 then { b.1 with bits := putSlot b.1.bits o.2.1 raw } else b.1)) (some l)
/-- The map of K2's names, when room is found (code 5). -/
def renumber (a b : LProg) (ps : List LPair) (window : Nat) (cw : Nat → Nat) : Option LMap :=
  let ascending (l : List Nat) : List (Nat × Nat) := singles l
  match mapBlocks 64 true (runRegs (a.runs cw)) ((b.runs cw).foldl addRun []),
      mapBlocks 16 true (a.named cw .pred) (ascending (b.named cw .pred)),
      mapBlocks 8 false (a.named cw .mask) (ascending (b.named cw .mask)),
      mapBlocks 256 false (a.entries cw) (ascending (b.entries cw)) with
  | some sc, some pr, some mk, some le =>
    let fwd := ps.map fun q => (b.tile q.ld).zip (a.tile q.st)
    let fa := a.foot
    let fb := b.foot.filter fun k => !fwd.any fun l => l.any fun q => q.1 == k
    let ok (d : Nat) : Bool := fb.all fun k => decide ((k + 8 * d + 1) * 512 ≤ window) && !fa.contains (k + 8 * d)
    ((List.range 128).find? ok).map fun d => { sc := sc, pr := pr, msk := mk, le := le, fwd := fwd, delta := 8 * d }
  | _, _, _, _ => none
/-- K2's layout images under their new numbers, scale entries renamed. -/
def renameLay (m : LMap) (l : List (Nat × BitVec 512)) : List (Nat × BitVec 512) :=
  l.map fun e =>
    let spl := (layOf e.2).spl
    (aget e.1 m.le e.1, if (layOf e.2).spv then (e.2 &&& ~~~(0xFF#512 <<< 72)) ||| (BitVec.ofNat 512 (aget spl m.le spl) <<< 72) else e.2)

/-! ## The spliced program (R261) -/

/-- Sets STOP on the last bundle of a part. -/
def stopLast (l : List LBun) : List LBun :=
  l.zipIdx.map fun b =>
    if b.2 + 1 = l.length ∧ !b.1.bits.getLsbD 0 then { b.1 with bits := b.1.bits ||| 1, stp := true } else b.1
/-- Changes a slot of the last bundle. -/
def editLast (l : List LBun) (f : LBun → LBun) : List LBun := l.zipIdx.map fun b => if b.2 + 1 = l.length then f b.1 else b.1
/-- Empties a slot and clears its occupancy bit (R89). -/
def emptySlot (b : BitVec 512) (sl : Slot) : BitVec 512 := putSlot b sl 0 &&& ~~~(1#512 <<< (2 + sl.num))
/-- SPO set (R90). -/
def LBun.sealed (b : LBun) : LBun := { b with bits := b.bits ||| 0x400 }
/-- K1's closing `loop sd` as `addi sd, sd, -1`. -/
def loopToAddi (raw : BitVec 80) : BitVec 80 :=
  match parseS raw with
  | some (.loop g sd _) => encode (.addi g sd sd (-1))
  | _ => raw
/-- K2's `loop` with its target at distance `off`. -/
def loopTo (off : Int) (raw : BitVec 80) : BitVec 80 := putField raw 36 28 (BitVec.ofInt 28 off).toNat
/-- The link of K2 to the program so far, or the code that refuses it. -/
def linkCode (a b : LProg) (window : Nat) (nbv : Bool) (hull : BitVec 512 → Option (Nat × Nat)) (cw : Nat → Nat) : Except Nat LProg :=
  let ps := (linkPairs a b).getD []
  if (linkPairs a b).isNone then .error 7
  else if !shapeOk a b ps hull cw then .error 8
  else if !resourcesOk a b nbv cw then .error 9
  else if !(latchOk a && latchOk b) then .error 10
  else
    match renumber a b ps window cw with
    | none => .error 5
    | some m =>
      let idm : LMap := { sc := [], pr := [], msk := [], le := [], fwd := [], delta := 0 }
      let one := a.renamePart idm window cw fun _ => false
      let two := b.renamePart m window cw
      let gone (o : LOp) : Bool := o.2.1 == .ld && ps.any fun q => q.ld.pos == o.1
      match one a.pre, one a.body, one a.post, two (fun _ => false) b.pre, two gone b.body, two (fun _ => false) b.post with
      | some apre, some abody, some apost, some bpre, some bbody, some bpost =>
        if 64 < a.span.1 + b.span.1 ∨ 128 < a.span.2 + b.span.2 then .error 6
        else
          let abody := abody.zipIdx.map fun x =>
            if ps.any fun q => q.tr && q.st.pos == x.2 then { x.1 with stx := true } else x.1
          let abody := stopLast (editLast abody fun x =>
            { x with bits := putSlot x.bits .s (loopToAddi (splitBundle x.bits).s), lpx := true })
          let bbody := bbody.zipIdx.map fun x =>
            if ps.any fun q => q.ld.pos == x.2 then
              let raw := (splitBundle x.1.bits).ld
              let raw' := putField (putField raw 22 8 (aget (natBits raw.toNat 22 8) m.le (natBits raw.toNat 22 8)))
                30 6 (aget (natBits raw.toNat 30 6) m.sc (natBits raw.toNat 30 6))
              { x.1 with bits := emptySlot x.1.bits .ld, orig := raw'.setWidth 64, ldx := true }
            else x.1
          let n := abody.length + bbody.length
          let bbody := editLast bbody fun x => { x with bits := putSlot x.bits .s (loopTo (1 - (n : Int)) (splitBundle x.bits).s) }
          let apost := editLast apost fun x => { x with bits := emptySlot x.bits .s }
          .ok { pre := stopLast apre ++ stopLast bpre, body := abody ++ stopLast bbody, post := stopLast apost ++ stopLast bpost,
                views := allViews.map (defView window), layout := (renameLay m b.layout).foldl (fun l e => aset l e.1 e.2) a.layout,
                trip := (aget b.trip.1 m.sc b.trip.1, b.trip.2),
                marks := (b.marks.filter (·.st)).map fun x => { x with le := aget x.le m.le x.le, pos := x.pos + abody.length },
                rings := a.rings ++ b.rings, span := (a.span.1 + b.span.1, a.span.2 + b.span.2), reads := a.reads ++ b.reads,
                foot := a.foot ++ (b.foot.filter fun k => !m.fwd.any fun l => l.any fun q => q.1 == k).map (· + m.delta),
                writes := a.writes ++ b.writes, last := b.writes }
      | _, _, _, _, _, _ => .error 5

/-! ## Chains (R264, R267) -/

/-- Codes of R259 up to the renumbering, for a task behind a chain. -/
def State.mayLink (s : State) (chain : List (Task × Kernel)) (a : LProg) (t : Task) (k : Kernel) (b : LProg) : Option Nat :=
  match chain with
  | [] => some 12
  | (h, kh) :: _ =>
    let cw := s.cwidth t.part
    let v := if 16 ≤ a.trip.2 then h.args.getD (a.trip.2 - 16) 0 == t.args.getD (a.trip.2 - 16) 0 else true
    firstCause [(2, !(kh.splice && k.splice) || kh.nosplice || k.nosplice), (3, !rangesOk a b (s.hull t.part) cw),
      (4, !(h.widths == t.widths && h.counts == t.counts && natBits h.place.toNat 0 9 == natBits t.place.toNat 0 9 && h.masks == t.masks && h.part == t.part) ||
          kh.win512 != k.win512),
      (7, a.trip.2 != b.trip.2 || !v)]
/-- The program of a chain of tasks, or the code that refuses its last link. -/
def State.chainProg (s : State) : List (Task × Kernel) → List (Task × Kernel) → LProg → Except Nat LProg
  | _, [], a => .ok a
  | done, (t, k) :: r, a =>
    let b := s.lprog t k done.length
    match s.mayLink done a t k b with
    | some c => .error c
    | none =>
      let nbv := match done with | (_, kh) :: _ => kh.nbv0 == k.nbv0 | [] => false
      match linkCode a b (if k.win512 then 0x80000 else 0x40000) nbv (s.hull t.part) (s.cwidth t.part) with
      | .error c => .error c
      | .ok p => s.chainProg (done ++ [(t, k)]) r p
/-- The spliced program of slots of a die, head first. -/
def State.splice (s : State) (die : Nat) (slots : List Nat) : Except Nat LProg :=
  let l := slots.filterMap fun n => let t := (s.die die).task n; (s.taskKernel t).map fun k => (t, k)
  match l with
  | (t, k) :: r => if l.length = slots.length then s.chainProg [(t, k)] r (s.lprog t k 0) else .error 2
  | [] => .error 2

/-- Builds the program of a chain and points the chain's tasks at it (R267). -/
def State.buildChain (s : State) (die : Nat) (slots : List Nat) : Except Nat State :=
  match s.splice die slots with
  | .error c => .error c
  | .ok p =>
    let l := p.code.map LBun.sealed
    let q : Spliced := { id := s.ids, code := l.map (·.bits), map := l.map LBun.entry, slots := slots, layout := p.layout, lastUse := s.cyc,
                         tasks := slots.map fun n => ((s.die die).task n).taskno,
                         imgs := slots.map fun n => (((s.die die).task n).part, ((s.die die).task n).img) }
    let bare := s.modDie die fun d =>
      { d with tasks := d.tasks.map fun (x : Nat × Task) => if slots.contains x.1 then (x.1, { x.2 with prog := none }) else x }
    match { bare with ids := bare.ids + 1 }.cachePut die q with
    | none => .error 11
    | some t => .ok (t.modDie die fun d =>
        { d with tasks := d.tasks.map fun (x : Nat × Task) => if slots.contains x.1 then (x.1, { x.2 with prog := some q.id }) else x })

/-! ## Transient stores (R266) -/

/-- Bundles of a program that hold a transient store of its kernel `k`, each with its bundle of that kernel. -/
def Spliced.transients (p : Spliced) (k : Nat) : List (Nat × Nat) :=
  (List.range p.map.length).filterMap fun n =>
    let m := p.map.getD n 0
    if m.getLsbD 33 && natBits m.toNat 62 2 == k then some (n, natBits m.toNat 0 28) else none
/-- Transient stores of kernel `k` that its pair with the next suppresses when it starts, by bundle of the kernel: no task on the die
but the consumer declares reading the range. -/
def State.suppressible (s : State) (die : Nat) (p : Spliced) (k : Nat) : List Nat :=
  let me := (s.die die).task (p.slots.getD k 0)
  ((p.transients k).filter fun n =>
    let raw := (splitBundle (p.code.getD n.1 0)).st
    let h := s.hull me.part (aget noLayout p.layout (natBits raw.toNat 22 8))
    (s.die die).tasks.all fun t =>
      t.2.state == 0 || t.2.state == 6 || t.2.part != me.part || some t.1 == p.slots[k + 1]? || t.2.reads.all fun r => !hullsMeet r h).map (·.2)

end Sys2Proof.Machine
end

