-- ==== Sys2Proof/Machine/LoadStore.lean ====
section
/-! DEFINITION. Load and store slots (R190 to R202): layout accesses, gathers and scatters, touch windows, spill memory,
atomics and ring instructions. -/

namespace Sys2Proof.Machine

/-! ## Shapes and classes (R191, R195, R249) -/

/-- The ordering class of an access (R99). -/
def memCls (m : MemArg) (l : Lay) : Nat := if m.cx then m.cl.toNat else l.cls
/-- Coordinates of the operation's MEM operand (R99). -/
def State.memCoords (s : State) (m : MemArg) (l : Lay) : List Int := s.coords s.cur.who m.cb.toNat l.rank m.imm.toInt
/-- Rows of a tile access. -/
def rowCount (h : BitVec 2) : Nat := match h.toNat with | 0 => 1 | 1 => 4 | 2 => 16 | _ => 32
/-- Coordinates of `n` elements in `h` rows (R191). -/
def tileCoords (c : List Int) (n h : Nat) : List (List Int) :=
  let q := n / h
  (List.range n).map fun t => addDim (addDim c 0 ((t % q : Nat) : Int)) 1 ((t / q : Nat) : Int)
/-- Coordinates of a tile or vector access by its element size: a converting access moves elements of its decode type (R191, R192). -/
def accShape (c : List Int) (bits rows : Nat) (conv : Option Nat) (w : Nat) : List (List Int) := tileCoords c (bits / conv.getD w) rows
/-- The decode type of a converting access (R192). -/
def decTy (wide : Bool) : ETy := if wide then .fp32 else .bf16
def decTyS (wide : Bool) : ETy := if wide then .fp64 else .fp32
/-- Ticks from the issue of a load to its write; a memory access returns in its own time (R194, log 5). -/
def loadTicks (space : Nat) : Nat := if space = 6 then 16 else if 3 ≤ space then 4 else 1

/-! ## Reading (R190, R192, R353) -/

/-- Distinct units of elements. -/
def unitsOf (l : List Elem) : List Nat := (l.map Elem.units).flatten.eraseDups
/-- An uncorrectable unit under an access: the data-error trap with its physical offset. -/
def State.badUnit (s : State) (l : List Elem) : Option Trap :=
  ((unitsOf l).find? fun u => s.bad.contains u).map fun u => ⟨20, 0, BitVec.ofNat 64 (u * 64 % 2 ^ 44)⟩
/-- A loaded element rounded into a decode type (R192). -/
def decodeTo (t : ETy) (fmt sfmt : BitVec 32) (nbv : Bool) (rm rb : Nat) (x : Nat) (sc : Option Nat) : Nat × BitVec 7 :=
  let v := (dFmt fmt).decode nbv x
  let (y, f1) := match sc with | none => (v, 0) | some c => scaled v ((dFmt sfmt).decode nbv c)
  let (c, f2) := (etFmt t).round true rm rb y
  (c, f1 ||| f2)
/-- What a load writes: its value and flags, from element codes and scale codes. Off elements of a gather are zero. -/
def loadValue (op : Instr) (fmt sfmt : BitVec 32) (nbv : Bool) (rb : Nat → Nat) (xs scs : List (Option Nat)) : Nat × BitVec 7 :=
  let conv (t : ETy) (rm : BitVec 3) : Nat × BitVec 7 :=
    let l := (List.range xs.length).map fun i =>
      match xs.getD i none with
      | some x => decodeTo t fmt sfmt nbv rm.toNat (rb i) x (scs.getD i none)
      | none => (0, 0)
    (packElems t.width (l.map (·.1)), l.foldl (fun a p => a ||| p.2) 0)
  let raw : Nat := packElems (dWidth fmt) (xs.map fun x => x.getD 0)
  match op with
  | .ldT _ rm _ _ dt dc _ | .ldV _ rm _ _ dt dc => if dc then conv (decTy dt) rm else (raw, 0)
  | .ldS _ rm _ _ d64 dc sx =>
    if !dc then (raw, 0)
    else
      let (v, f) := conv (decTyS d64) rm
      let neg := match xs.headD none with
        | some x => (match (dFmt fmt).decode nbv x with | .fin n m _ => n && m != 0 | _ => false)
        | none => false
      if sx && (dFmt fmt).int && neg then (v ||| (ones 64 ^^^ ones (decTyS d64).width), f) else (v, f)
  | _ => (raw, 0)
/-- The value of a load whose elements are at hand. -/
def State.lateValue (s : State) (who : Nat) (l : Late) : Nat × BitVec 7 :=
  let rb (i : Nat) : Nat := rbits (s.ctx who).ctl.srseed i l.ent.sridx.toNat
  let get (o : Option Elem) : Option Nat := o.map fun e => s.elemOver l.overlay e l.got
  loadValue l.op l.fmt l.sfmt l.ent.nbv rb (l.elems.map get) (l.scales.map get)

/-- Asks a drawer for every unit of a list (R364); the new requests' identifiers come back. -/
def State.askDrawer (s : State) (who part cls kind : Nat) (cmd : Option Nat) (units : List Nat) : List Nat × State :=
  units.foldl (fun (r : List Nat × State) u =>
    match drawerOf (u * 64) with
    | none => r
    | some d =>
      let (id, t) := r.2.newId
      (r.1 ++ [id], { t with fab := { t.fab with reqs := t.fab.reqs ++
        [{ id := id, drawer := d, unit := u, part := part, cls := cls, kind := kind, who := who, die := dieOfWho who,
           cmd := cmd, pc := s.cur.ent.pc, sl := s.cur.slot.num, order := t.cyc }] } })) ([], s)

/-- Spreads the results of the elements that are on over all of them. -/
def spread {α : Type} : List Bool → List α → List (Option α)
  | [], _ => []
  | true :: r, x :: xs => some x :: spread r xs
  | _ :: r, xs => none :: spread r xs

/-- Units of elements as they stand, by number and key, for which a test holds. -/
def State.taken (s : State) (l : List Elem) (p : Nat → Bool) : List (Nat × Nat × Nat) :=
  (l.map fun e => (e.units.filter p).map fun u => (u, e.key, s.unitAs e u)).flatten.eraseDups
/-- A load issues: it checks and translates every on element, then its value is fixed, or its drawer requests leave. -/
def State.load (s : State) (op : Instr) (m : MemArg) (dec : Bool) (cs : List (Option (List Int))) (dst : Dest)
    (bm size : Nat) : Except Stop State :=
  let who := s.cur.who
  let l := s.lay who m.le.toNat
  match s.access who m.le.toNat false dec (cs.filterMap id) with
  | .error e => .error e
  | .ok a =>
    let on := cs.map (·.isSome)
    let scl := if a.scales.isEmpty then [] else spread on a.scales |>.map fun o => o.join
    let late : Late := { op := op, ent := s.cur.ent, elems := spread on a.elems, scales := scl, fmt := a.fmt, sfmt := a.sfmt,
                         overlay := s.overlay who }
    let all := a.elems ++ a.scales.filterMap id
    let far := (unitsOf all).filter fun u => (drawerOf (u * 64)).isSome
    if far.isEmpty then
      match s.badUnit all with
      | some t => .error (.trap t)
      | none =>
        let (v, f) := s.lateValue who late
        .ok (((s.claim all).setFlags f).post (loadTicks l.space) dst v bm size)
    else
      let late := { late with got := s.taken all fun u => !far.contains u }
      let (ids, s) := (s.claim all).askDrawer who (s.partOf who) (memCls m l) 0 none far
      let (id, s) := s.newId
      let e := s.cur.ent
      let f : Fly := { id := id, left := 0, gate := ids, late := some late, arr := s.me.arr, dst := dst, bm := bm, size := size, seq := e.seq,
                       grp := e.grp, pc := e.pc, slot := s.cur.slot }
      .ok (s.modMe fun c => c.launch f)
/-- A guarded load. -/
def guarded (g : Guard) (s : State) (f : State → Except Stop State) : Out := if s.guard g then s.finish (f s) else .next s

def execLdT (g : Guard) (rm : BitVec 3) (rg : BitVec 11) (m : MemArg) (dt dc : Bool) (h : BitVec 2) (s : State) : Out :=
  guarded g s fun s =>
    let f := accShape (s.memCoords m (s.lay s.cur.who m.le.toNat)) 16384 (rowCount h) (if dc then some (decTy dt).width else none)
    match s.esize s.cur.who m.le.toNat false f with
    | .error e => .error e
    | .ok d => s.load (.ldT g rm rg m dt dc h) m dc ((f (dWidth d)).map some) (.win (s.cur.ent.off .t rg)) (ones 16384) 2048
def execLdV (g : Guard) (rm : BitVec 3) (rg : BitVec 11) (m : MemArg) (dt dc : Bool) (s : State) : Out :=
  guarded g s fun s =>
    let f := accShape (s.memCoords m (s.lay s.cur.who m.le.toNat)) 4096 1 (if dc then some (decTy dt).width else none)
    match s.esize s.cur.who m.le.toNat false f with
    | .error e => .error e
    | .ok d => s.load (.ldV g rm rg m dt dc) m dc ((f (dWidth d)).map some) (.win (s.cur.ent.off .v rg)) (ones 4096) 512
def execLdS (g : Guard) (rm : BitVec 3) (sd : BitVec 6) (m : MemArg) (d64 dc sx : Bool) (s : State) : Out :=
  guarded g s fun s =>
    s.load (.ldS g rm sd m d64 dc sx) m dc [some (s.memCoords m (s.lay s.cur.who m.le.toNat))] (.scalar sd.toNat) (ones 64) 0
/-- The indices of a gather or scatter: the first half of the pair; 0xFFFF turns an element off (R195). -/
def State.gatherCoords (s : State) (rg : BitVec 11) (m : MemArg) (n : Nat) : List (Option (List Int)) :=
  let x := s.vreg .w rg
  let c := s.memCoords m (s.lay s.cur.who m.le.toNat)
  (List.range n).map fun t => let i := elemAt x 16 t; if i = 0xFFFF then none else some (addDim c 0 (i : Int))
/-- The bits of the data half beyond the elements moved keep their values (log 22). -/
def execLdG (g : Guard) (rg : BitVec 11) (m : MemArg) (s : State) : Out :=
  guarded g s fun s =>
    match s.esize s.cur.who m.le.toNat false fun w => (s.gatherCoords rg m (Nat.min 256 (4096 / w))).filterMap id with
    | .error e => .error e
    | .ok d =>
      let n := Nat.min 256 (4096 / dWidth d)
      s.load (.ldG g rg m) m false (s.gatherCoords rg m n) (.win (s.cur.ent.off .w rg + 512)) (ones (n * dWidth d)) 512

/-! ## Touch windows (R37, R196) -/

/-- Bytes of a box, element by element, through an entry at an origin: those of a local space need no window (R37). -/
def Lay.boxBytes (l : Lay) (org w : Nat) (cs : List (List Int)) : List (Nat × Nat) :=
  if !l.isMem then [] else (l.bits org w cs).map fun b => ((b / 8).toNat, (w + 7) / 8)
/-- The window a successful `tch` takes: the lowest free number, or the open one with the fewest bundles left. -/
def freeWin (l : List TWin) : Nat × Option Nat :=
  match (List.range 32).find? fun n => !l.any fun w => w.n == n with
  | some n => (n, none)
  | none =>
    let worst := l.foldl (fun (a : Option TWin) w =>
      match a with
      | none => some w
      | some b => if w.left < b.left ∨ (w.left = b.left ∧ w.n < b.n) then some w else some b) none
    match worst with | some w => (w.n, some w.n) | none => (0, none)
def execTch (g : Guard) (le : BitVec 8) (cb : BitVec 6) (imm : BitVec 16) (w : Bool) (s : State) : Out :=
  guarded g s fun s =>
    let who := s.cur.who
    let l := s.lay who le.toNat
    let ext := (List.range l.rank).map fun i => (s.me.ctl.sget (cb.toNat + l.rank + i)).toInt
    if 63 < cb.toNat + 2 * l.rank - 1 then .error (.trap (tLayout le.toNat))
    else if ext.any fun e => decide (e ≤ 0) then .ok s
    else
      let org := s.coords who cb.toNat l.rank imm.toInt
      let cs := boxCoords org (ext.map Int.toNat)
      -- no window spares the probe its own checks
      match (s.modMe fun c => { c with wins := [] }).access1 who le.toNat w false cs with
      | .error e => .error e
      | .ok a =>
        let (n, old) := freeWin s.me.wins
        let s := match old with | some k => s.closeWins who fun t => t.n != k | none => s
        .ok (s.modMe fun c => { c with wins := c.wins ++
          [{ n := n, w := w, left := 256, bytes := l.boxBytes (s.memOrigin (coreOf who) l w) (dWidth a.fmt) cs, pages := a.pages,
             le := le.toNat, org := org, ext := ext.map Int.toNat }] })

/-! ## Stores (R32, R36, R192) -/

/-- Bytes of an element of a local space in the order of their places, joined into the entries of their words. -/
def localEnts (cls : Nat) (e : Elem) (v : Nat) : List WEnt :=
  (List.range e.bytes).foldl (fun l i =>
    let sh := 8 * (e.place i % 64)
    holdEntry { cls := cls, unit := e.place i / 64, mask := ((ones e.w <<< (e.addr % 8)) >>> (8 * i) % 256) <<< sh,
                val := (((v % 2 ^ e.w) <<< (e.addr % 8)) >>> (8 * i) % 256) <<< sh } l) []
/-- The withholding entries of one element: one, or two where an element of a local space passes the end of its word. -/
def storeEnts (part cls : Nat) (e : Elem) (v : Nat) : List WEnt :=
  if keyedAddr (e.addr / 8) then
    [{ cls := cls, unit := e.addr / 512, mask := ones e.w <<< (e.addr % 512), val := (v % 2 ^ e.w) <<< (e.addr % 512),
       key := e.key, drawer := drawerOf (e.addr / 8), part := part }]
  else (localEnts cls e v).map fun x => { x with part := part }
/-- Withholds a store's elements in order, or ends the span (R36). -/
def State.withhold (s : State) (l : List WEnt) : Except Stop State :=
  match s.me.hold' l with
  | some c => .ok (s.modMe fun _ => c)
  | none => .error (.trap ⟨21, 0, 0⟩)
/-- The die suppresses the transient store of the operation's spliced bundle (R266). -/
def State.suppressed (s : State) : Bool :=
  match s.me.splId with
  | some id => (s.die (dieOfWho s.cur.who)).cache.any fun p =>
      p.id == id && p.suppress.contains s.cur.ent.pc.toNat && ((p.map.getD s.cur.ent.pc.toNat 0).getLsbD 33)
  | none => false
/-- The port of the packet that a firmware store sends (R315). -/
def State.packetPort (s : State) (who : Nat) (l : List Elem) : Option Nat :=
  if isFw who then l.findSome? fun e => s.ringPort (e.addr / 512) else none
/-- A store issues: every element is checked, converted and withheld. A store whose packet has no token waits in its queue (R315). `dec`
holds the decode type of a converting store. -/
def State.store (s : State) (m : MemArg) (dec : Option (ETy × BitVec 3)) (cs : List (List Int)) (x src : Nat) : Except Stop State :=
  let who := s.cur.who
  let l := s.lay who m.le.toNat
  match s.access who m.le.toNat true false cs with
  | .error e => .error e
  | .ok a =>
    let port := s.packetPort who a.elems
    if dec.isSome && l.isMem && a.geo != 0 then .error (.trap (tBounds m.le.toNat))
    else if port.any fun p => aget 0 s.svc.tokens p == 0 then .ok s.unissue
    else
      let s := match port with | some p => s.spendToken p | none => s
      let vals := (List.range a.elems.length).map fun t =>
        match dec with
        | none => (elemAt src x t, 0)
        | some (ty, rm) => (dFmt a.fmt).round s.cur.ent.nbv rm.toNat (s.rb t) ((etFmt ty).decode true (elemAt src x t))
      (s.setFlags (vals.foldl (fun f p => f ||| p.2) 0)).withhold
        ((a.elems.zip vals).map fun p => storeEnts (s.partOf who) (memCls m l) p.1 p.2.1).flatten
/-- What a matched store's and load's entries have in common: all but CLASS and SPL, which the second kernel's entry has renumbered (R259,
R261). -/
def matchImage (l : BitVec 512) : BitVec 512 := l &&& ~~~(0xF#512 <<< 52) &&& ~~~(0xFF#512 <<< 72)
/-- Keeps the coordinates of a tile store of spliced code (R263). -/
def State.noteStore (s : State) (m : MemArg) : State :=
  if s.me.splId.isSome then
    let n := m.le.toNat
    let img := s.layImage s.cur.who n
    s.modMe fun c => { c with stv := ((s.cur.ent.seq, matchImage img, s.memCoords m (s.lay s.cur.who n)) :: c.stv) }
  else s
def execStT (g : Guard) (rm : BitVec 3) (rg : BitVec 11) (m : MemArg) (dt dc : Bool) (h : BitVec 2) (s : State) : Out :=
  guarded g (if s.guard g then s.noteStore m else s) fun s =>
    if s.suppressed then .ok s
    else
      let f := accShape (s.memCoords m (s.lay s.cur.who m.le.toNat)) 16384 (rowCount h) (if dc then some (decTy dt).width else none)
      match s.esize s.cur.who m.le.toNat true f with
      | .error e => .error e
      | .ok d =>
        s.store m (if dc then some (decTy dt, rm) else none) (f (dWidth d)) (if dc then (decTy dt).width else dWidth d) (s.vreg .t rg)
def execStV (g : Guard) (rm : BitVec 3) (rg : BitVec 11) (m : MemArg) (dt dc : Bool) (s : State) : Out :=
  guarded g s fun s =>
    let f := accShape (s.memCoords m (s.lay s.cur.who m.le.toNat)) 4096 1 (if dc then some (decTy dt).width else none)
    match s.esize s.cur.who m.le.toNat true f with
    | .error e => .error e
    | .ok d =>
      s.store m (if dc then some (decTy dt, rm) else none) (f (dWidth d)) (if dc then (decTy dt).width else dWidth d) (s.vreg .v rg)
def execStS (g : Guard) (rm : BitVec 3) (sk : BitVec 6) (m : MemArg) (d64 dc : Bool) (s : State) : Out :=
  guarded g s fun s =>
    s.store m (if dc then some (decTyS d64, rm) else none) [s.memCoords m (s.lay s.cur.who m.le.toNat)]
      (if dc then (decTyS d64).width else 64) (s.sreg sk).toNat
def execStSc (g : Guard) (rg : BitVec 11) (m : MemArg) (s : State) : Out :=
  guarded g s fun s =>
    match s.esize s.cur.who m.le.toNat true fun w => (s.gatherCoords rg m (Nat.min 256 (4096 / w))).filterMap id with
    | .error e => .error e
    | .ok d =>
      let w := dWidth d
      let cs := s.gatherCoords rg m (Nat.min 256 (4096 / w))
      let src := (s.vreg .w rg) >>> 4096
      let on := (List.range cs.length).filter fun t => (cs.getD t none).isSome
      s.store m none (cs.filterMap id) w (packElems w (on.map fun t => elemAt src w t))

/-! ## Spill memory (R48, R197) -/

/-- Bytes of spill memory as the context sees them, with its withheld spill stores. -/
def State.spillRead (s : State) (off n : Nat) : Nat :=
  let a := spillBase s.cur.who + off
  let b := a / 64 * 64
  (s.ownBytes b (n + (a - b)) >>> (8 * (a - b))) % 2 ^ (8 * n)
def execLdSp (g : Guard) (sz : Bool) (rg : BitVec 11) (off : BitVec 14) (s : State) : Out :=
  .next <|
    if !s.guard g then s
    else if sz then s.postV 1 .v rg (s.spillRead off.toNat 512)
    else s.postS 1 (rg.setWidth 6) (BitVec.ofNat 64 (s.spillRead off.toNat 8))
def execStSp (g : Guard) (sz : Bool) (rg : BitVec 11) (off : BitVec 14) (s : State) : Out :=
  guarded g s fun s =>
    let a := spillBase s.cur.who + off.toNat
    let ent (i : Nat) (m v : Nat) : WEnt := { cls := 16, unit := i, mask := m, val := v }
    if sz then
      let v := s.vreg .v rg
      -- a vector access stands on a multiple of 512 bytes
      s.withhold ((List.range 8).map fun i => ent (a / 64 + i) (ones 512) (elemAt v 512 i))
    else
      let k := 8 * (a % 64)
      s.withhold [ent (a / 64) (ones 64 <<< k) ((s.sreg (rg.setWidth 6)).toNat <<< k)]

/-! ## Atomics (R198, R199) -/

/-- The new value of an indivisible step (R198). -/
def AmoOp.new (a : AmoOp) (old : Nat) : Nat :=
  let m := 2 ^ a.w
  let v := a.v.toNat % m
  let sg (x : Nat) : Int := if a.sgn && decide (m / 2 ≤ x) then (x : Int) - m else x
  match a.op with
  | 0 => (old + v) % m
  | 1 => if sg v < sg old then v else old
  | 2 => if sg old < sg v then v else old
  | 3 => v
  | 4 => if old = v then a.v2.toNat % m else old
  | 5 => old &&& v
  | _ => old ||| v
/-- The old value as q0 receives it. -/
def AmoOp.ret (a : AmoOp) (old : Nat) : Nat :=
  if a.sgn && decide (2 ^ (a.w - 1) ≤ old) then (old + (2 ^ 64 - 2 ^ a.w)) % 2 ^ 64 else old
/-- The target of a barrier whose increment found `old`, by the counter's own kind (R216). -/
def Hold.reach (h : Hold) (sgn : Bool) (old p : Nat) : Hold :=
  let o : Int := if sgn then (BitVec.ofNat 64 old).toInt else old
  match h with
  | .bar addr key cls gate _ => .bar addr key cls gate (some (BitVec.ofInt 64 ((o / (p : Int) + 1) * p)))
  | h => h
/-- Performs the step on its element; the returned value reaches its pending q0 entry. -/
def State.perform (s : State) (who key : Nat) (a : AmoOp) : State :=
  let e : Elem := { addr := a.addr, w := a.w, key := key }
  let old := s.elem e
  let s := s.putElem e (a.new old)
  let s := if a.bar = 0 then s else s.modCtx who fun c => { c with wait := c.wait.map fun h => h.reach a.sgn old a.bar }
  match a.qid with
  | none => s
  | some id => s.modCtx who fun c => c.rqSet 0 (arrive id (a.ret old) (c.rqGet 0))
/-- Sends a step to its element: at once in a local space or near memory, else through the rondel (R198, R364). Behind an own store to
its unit that has still to perform it waits in the place 2 (R246). -/
def State.sendStep (s : State) (part cls key : Nat) (a : AmoOp) : State :=
  let who := s.cur.who
  let units := ({ addr := a.addr, w := a.w, key := key } : Elem).units
  let d := drawerOf (a.addr / 8)
  if d.isNone && !s.fab.reqs.any fun r => r.open who && r.cmd.isNone && units.contains r.unit then s.perform who key a
  else
    let (id, s) := s.newId
    { s with fab := { s.fab with reqs := s.fab.reqs ++
        [{ id := id, drawer := d.getD 2, unit := units.headD 0, part := part, cls := cls, kind := 2, who := who, die := dieOfWho who,
           key := key, amo := some a, pc := s.cur.ent.pc, sl := s.cur.slot.num, left := if d.isNone then some 0 else none,
           order := s.cyc }] } }
/-- Descriptor kinds s32, s64, n32 and n64. -/
def amoKind (d : BitVec 32) : Bool := dKind d == 6 || dKind d == 7 || dKind d == 9 || dKind d == 10
def execAmo (g : Guard) (op : BitVec 3) (nq : Bool) (_sc : BitVec 3) (sk : BitVec 6) (m : MemArg) (s : State) : Out :=
  if !s.guard g then .next s
  else if !nq && !s.me.rqRoom 0 then .next s.unissue
  else
    s.finish <|
      let who := s.cur.who
      let l := s.lay who m.le.toNat
      match s.access who m.le.toNat true false [s.memCoords m l] with
      | .error e => .error e
      | .ok a =>
        match a.elems with
        | [] => .ok s
        | e :: _ =>
          if !amoKind a.fmt then .error (.trap (if l.isMem then tBounds m.le.toNat else tLayout m.le.toNat))
          else
            match s.badUnit [e] with
            | some t => .error (.trap t)
            | none =>
              let (id, s) := s.newId
              let s := if nq then s else s.modMe fun c => c.rqPush 0 { id := id, seq := s.cur.ent.seq, fresh := false }
              .ok (s.sendStep (s.partOf who) (memCls m l) e.key
                { addr := e.addr, w := e.w, op := op.toNat, v := s.sreg sk, v2 := s.me.ctl.sget (sk.toNat + 1),
                  sgn := dKind a.fmt == 6 || dKind a.fmt == 7, qid := if nq then none else some id })

/-! ## Ring instructions (R200 to R202) -/

/-- The view of a ring instruction's size. -/
def ringView (z : BitVec 2) : View := match z.toNat with | 0 => .v | 1 => .w | 2 => .t | _ => .a
/-- Ticks of a read of a ring's buffer (R194). -/
def ringTicks (r : Ring) : Nat := if r.buf = 3 then 16 else 4
def execRpop (g : Guard) (z : BitVec 2) (rg : BitVec 11) (rn : BitVec 6) (s : State) : Out :=
  .next <|
    if !s.filled rn.toNat then s.block (.ring [[(s.rk rn.toNat, 1, 0)]])
    else
      let t := ringTicks (s.myRing rn.toNat)
      let (x, s) := s.popSlot rn.toNat (ringView z).size
      if s.guard g then s.postV t (ringView z) rg x else s
/-- Takes from RN when both rings hold a slot (R201). -/
def execRsel (g : Guard) (z : BitVec 2) (rg : BitVec 11) (pd : BitVec 4) (rn rn2 : BitVec 6) (s : State) : Out :=
  let first := s.filled rn.toNat
  let n := if first then rn.toNat else rn2.toNat
  .next <|
    if !first && !s.filled rn2.toNat then s.block (.ring [[(s.rk rn.toNat, 1, 0)], [(s.rk rn2.toNat, 1, 0)]])
    else
      let t := ringTicks (s.myRing n)
      let (x, s) := s.popSlot n (ringView z).size
      if s.guard g then (s.postV t (ringView z) rg x).postP t pd first else s
/-- A look at the oldest slot as the tick began (R66). -/
def execRpeek (g : Guard) (z : BitVec 2) (rg : BitVec 11) (pd : BitVec 4) (rn : BitVec 6) (s : State) : Out :=
  let r := s.myRing rn.toNat
  let t := ringTicks r
  .next <|
    if !s.guard g then s
    else if r.old.filled != 0 then
      (s.postV t (ringView z) rg (s.ownBytes (ringSlot (coreOf s.cur.who) r r.old.head) (ringView z).size)).postP t pd true
    else (s.postV t (ringView z) rg 0).postP t pd false
def execRpush (g : Guard) (z : BitVec 2) (rn : BitVec 6) (rg : BitVec 11) (s : State) : Out :=
  .next <|
    if !s.freeSlot rn.toNat then s.block (.ring [[(s.rk rn.toNat, 0, 1)]])
    else s.pushSlot rn.toNat (ringView z).size (if s.guard g then s.vreg (ringView z) rg else 0)

/-! ## A load that the linker removed (R263) -/

/-- Resolves the coordinates the load would have used and compares them with the matched store's of the iteration. -/
def State.ghostLoad (s : State) (m : MemArg) : State :=
  let n := m.le.toNat
  let img := matchImage (s.layImage s.cur.who n)
  let c := s.memCoords m (s.lay s.cur.who n)
  match s.me.stv.find? fun e => decide (e.1 < s.cur.ent.seq) && e.2.1 == img with
  | some e => if e.2.2 = c then s else s.trap ⟨22, 0, BitVec.ofInt 64 (c.headD 0)⟩
  | none => s

end Sys2Proof.Machine
end

