-- ==== Sys2Proof/Machine/Engine.lean ====
section
/-! DEFINITION. Engine commands (R203 to R210). A command that issues has passed its checks and taken its ring slots; its
moves are carried out when it completes, or as its drawer units perform (`Progress.lean`, `Fabric.lean`). -/

namespace Sys2Proof.Machine

/-! ## Issue (R203 to R205) -/

/-- Class of a command: CL, or LA's class (R205). -/
def cmdCls (c : ECmd) (l : Lay) : Nat := if c.cx then c.cl.toNat else l.cls
/-- Argument register `i` of a command. -/
def State.arg (s : State) (c : ECmd) (i : Nat) : Word := s.me.ctl.sget (c.sa.toNat + i)
/-- The origin a command's arguments give an entry. -/
def State.origin (s : State) (c : ECmd) (rank : Nat) : List Int := (List.range rank).map fun i => (s.arg c i).toInt
/-- A command's access: engines are not covered by touch windows (R37), and a firing takes its slots behind those ahead of it
(R66). -/
def State.engAccess (s : State) (n : Nat) (write : Bool) (cs : List (List Int)) : Except Stop Acc :=
  ((s.modMe fun c => { c with wins := [] }).atFiring (coreOf s.cur.who)).access1 s.cur.who n write false cs
/-- The coordinates of a box at an origin. -/
def Lay.boxAt (l : Lay) (o : List Int) : List (List Int) := boxCoords o (l.ext.take l.rank)
def zeros (n : Nat) : List Int := List.replicate n 0
/-- Guard and queue room before a command: a record needs room in its queue (R204, R234). -/
def commanded (c : ECmd) (q : Nat) (s : State) (f : State → Out) : Out :=
  if !s.guard c.g then .next s
  else if !c.nq && !s.me.rqRoom q then .next s.unissue
  else f s
/-- 64 B units of `n` elements of width `w`. -/
def moved (n w : Nat) : Nat := (n * w + 511) / 512
/-- Units in a drawer among elements. -/
def farUnits (l : List Elem) : List Nat := (unitsOf l).filter fun u => (drawerOf (u * 64)).isSome
/-- A ring-bound source needs a filled slot and a destination a free one; `none` is an unbound entry. -/
def State.credits (s : State) (src dst : Option Nat) : Bool :=
  (match src with | some n => s.filled n | none => true) && (match dst with | some n => s.freeSlot n | none => true)
def State.creditNeeds (s : State) (src dst : Option Nat) : Blk :=
  .ring [(match src with | some n => [(s.rk n, 1, 0)] | none => []) ++ (match dst with | some n => [(s.rk n, 0, 1)] | none => [])]
/-- Takes the slots of a command's ring-bound entries; its credits are never withheld (R66). -/
def State.takeRings (s : State) (src dst : Option Nat) (id : Nat) : State :=
  let c := coreOf s.cur.who
  let s := match src with | some n => s.modRing c n fun r => r.pop 1 false id | none => s
  match dst with | some n => s.modRing c n fun r => r.push false id | none => s
/-- Puts a command in progress with its pending record; what it reads is under its keys (R387). -/
def State.addCmd (s : State) (q : Nat) (r : ECmdRec) : State :=
  let s := s.claim (r.moves.map (·.1))
  let s := { s with cmds := s.cmds ++ [{ r with order := s.ids, cyc := s.cyc, task := (s.me.inst.map fun i => i.taskno).getD 0 }], ids := s.ids + 1 }
  if r.nq then s else s.modMe fun c => c.rqPush q { id := r.id, seq := s.cur.ent.seq }
/-- A bound entry's ring on the operation's core. -/
def ringRef (s : State) (n : Option Nat) : Option (Nat × Nat) := n.map fun k => (coreOf s.cur.who, k)
/-- The element moves with the drawer requests they wait for, read or write. -/
def State.gateMoves (s : State) (part cls id : Nat) (moves : List (Elem × Elem)) : List Nat × State :=
  let (a, s) := s.askDrawer s.cur.who part cls 0 (some id) (farUnits (moves.map (·.1)))
  let (b, s) := s.askDrawer s.cur.who part cls 1 (some id) (farUnits (moves.map (·.2)))
  (a ++ b, s)

/-- The first `cp.in` of an instance whose core holds a W preload for it: one that moves exactly the bytes of B into slot 0 of that
ring takes their values from the preload and reads no memory. Where B has been written since, or has an uncorrectable unit, the copy runs as
without a preload, since nothing may end otherwise than without it (R338, log 71). The preload is over either way. -/
def State.fromPreload (s : State) (opc : Nat) (dst : Option Nat) (moves : List (Elem × Elem)) : List (Elem × Elem) × State :=
  let core := coreOf s.cur.who
  match (s.core core).preW with
  | some (k, w) =>
    if opc != 1 || k != ctxOf s.cur.who then (moves, s)
    else
      let s := s.modCore core fun c => { c with preW := none }
      if dst == some w.ring && (s.ring core w.ring).tail == 0 && moves.all (fun m => w.elems.contains m.1) &&
         w.elems.all (fun e => moves.any fun m => m.1 == e) && w.elems.map s.elem == w.vals && !w.elems.any s.spoilt then
        ([], moves.foldl (fun s m => ((w.elems.zip w.vals).find? fun p => p.1 == m.1).elim s fun p => s.putElem m.2 p.2) s)
      else (moves, s)
  | none => (moves, s)
/-- A copy with its source and destination coordinates; `dsts` gives the elements of each copy's destination. -/
def copyCmd (opc : Nat) (c : ECmd) (ca : List (List Int)) (dsts : State → Except Stop (List (List Elem) × BitVec 32 × List Page))
    (tag : Word) (s : State) : Out :=
  let who := s.cur.who
  let la := s.lay who c.la.toNat
  let lb := s.lay who c.lb.toNat
  if !s.credits la.ring lb.ring then .next (s.block (s.creditNeeds la.ring lb.ring))
  else
    s.finish <|
      match s.engAccess c.la.toNat false ca with
      | .error e => .error e
      | .ok a =>
        match dsts s with
        | .error e => .error e
        | .ok (ds, fmt, dp) =>
          if dWidth a.fmt != dWidth fmt then .error (.trap (tBounds c.lb.toNat))
          else
            let part := s.partOf who
            let moves := (ds.map fun d => a.elems.zip d).flatten
            let (id, s) := s.newId
            let (moves, s) := s.fromPreload opc lb.ring moves
            let (g, s) := s.gateMoves part (cmdCls c la) id moves
            let r : ECmdRec := { id := id, who := who, part := part, opc := opc, cls := cmdCls c la, seq := s.cur.ent.seq,
                                 nq := c.nq, tag := tag.setWidth 16, moves := moves, units := moved (a.elems.length * ds.length) (dWidth a.fmt),
                                 srcRing := ringRef s la.ring, dstRing := ringRef s lb.ring, gates := g,
                                 pages := (a.pages ++ dp).eraseDups }
            .ok ((s.takeRings la.ring lb.ring id).addCmd 2 r)
/-- Destination of a copy through entry LB. -/
def oneDst (c : ECmd) (cb : List (List Int)) (s : State) : Except Stop (List (List Elem) × BitVec 32 × List Page) :=
  match s.engAccess c.lb.toNat true cb with
  | .error e => .error e
  | .ok b => .ok ([b.elems], b.fmt, b.pages)

/-- Copies a box from memory or F into W, A or F: the box is LB's (R206). -/
def execCpIn (c : ECmd) (s : State) : Out :=
  commanded c 2 s fun s =>
    let la := s.lay s.cur.who c.la.toNat
    let lb := s.lay s.cur.who c.lb.toNat
    copyCmd 0x01 c (lb.boxAt (s.origin c la.rank)) (oneDst c lb.box) (s.arg c la.rank) s
/-- Copies a box from A, C or F into memory or F: the box is LA's. -/
def execCpOut (c : ECmd) (s : State) : Out :=
  commanded c 2 s fun s =>
    let la := s.lay s.cur.who c.la.toNat
    copyCmd 0x02 c la.box (oneDst c (la.boxAt (s.origin c la.rank))) (s.arg c la.rank) s
/-- Destinations of a multicast: every rank of the mask, the own rank in its own buffer (R206). -/
def manyDst (c : ECmd) (cb : List (List Int)) (mask : Word) (s : State) : Except Stop (List (List Elem) × BitVec 32 × List Page) :=
  let who := s.cur.who
  let core := coreOf who
  let lb := s.lay who c.lb.toNat
  let d := s.desc (s.partOf who) lb.fmt
  let ranks := (List.range 16).filter mask.getLsbD
  match mapOk (fun k =>
      if k != rankOf core && !s.peerOk who k then .error (Stop.trap ⟨15, 0, BitVec.ofNat 64 k⟩)
      else mapOk ((s.atFiring core).localElem core c.lb.toNat lb (peerCore core k) true (dWidth d)) cb) ranks with
  | .error e => .error e
  | .ok l => .ok (l, d, [])
def execCpPeer (c : ECmd) (mc : Bool) (s : State) : Out :=
  commanded c 2 s fun s =>
    let la := s.lay s.cur.who c.la.toNat
    let cb := la.boxAt (s.origin c la.rank)
    if mc then copyCmd 0x03 c la.box (manyDst c cb (s.arg c la.rank)) (s.arg c (la.rank + 1)) s
    else copyCmd 0x03 c la.box (oneDst c cb) (s.arg c la.rank) s
/-- Warms the path to memory: a fault is dropped and reported as STATUS 3 (R207). -/
def execCpPf (c : ECmd) (s : State) : Out :=
  commanded c 2 s fun s =>
    let la := s.lay s.cur.who c.la.toNat
    let ext := (List.range la.rank).map fun i => (s.arg c (la.rank + i)).toInt.toNat
    let (st, pages) : Nat × List Page :=
      match s.engAccess c.la.toNat false (boxCoords (s.origin c la.rank) ext) with | .ok a => (0, a.pages) | .error _ => (3, [])
    let (id, s) := s.newId
    .next (s.addCmd 2 { id := id, who := s.cur.who, part := s.partOf s.cur.who, opc := 0x04, cls := cmdCls c la,
                        seq := s.cur.ent.seq, nq := c.nq, tag := (s.arg c (2 * la.rank)).setWidth 16, moves := [], status := st, pages := pages })

/-! ## Expert fetch (R208) -/

/-- The token: tag, status and origin. -/
def exfToken (tag : Word) (status : Nat) (o : List Int) : Nat :=
  packElems 64 ([tag.toNat, status] ++ (List.range 5).map fun i => (BitVec.ofInt 64 (o.getD i 0)).toNat)
/-- Delivers a token into the reserved fallback slot, which is then pushed. -/
def State.giveToken (s : State) (core ring addr tok id : Nat) : State :=
  (s.putBytes addr 64 tok).modRing core ring fun q => q.land id
def execExf (c : ECmd) (rn : BitVec 6) (s : State) : Out :=
  commanded c 2 s fun s =>
    let who := s.cur.who
    let core := coreOf who
    let la := s.lay who c.la.toNat
    let lb := s.lay who c.lb.toNat
    let dn := lb.ring.getD 0
    let fb := s.myRing rn.toNat
    let dst := s.myRing dn
    let room := dst.old.free - dst.tPush - if dn = rn.toNat then 1 else 0
    if !fb.canPush || (room != 0 && dn != rn.toNat && !dst.canPush) then
      .next (s.block (.ring [[(s.rk rn.toNat, 0, 1), (s.rk dn, 0, 1)], [(s.rk rn.toNat, 0, 1), (s.rk dn, 0, 0)]]))
    else
      s.finish <|
        let o := s.origin c la.rank
        match s.engAccess c.la.toNat false (lb.boxAt o) with
        | .error e => .error e
        | .ok a =>
          match s.engAccess c.lb.toNat true lb.box with
          | .error e => .error e
          | .ok b =>
            if dWidth a.fmt != dWidth b.fmt then .error (.trap (tBounds c.lb.toNat))
            else
              let tag := s.arg c la.rank
              let part := s.partOf who
              let fslot := ringSlot core fb fb.tail
              let (id, s) := s.newId
              let r : ECmdRec := { id := id, who := who, part := part, opc := 0x18, cls := cmdCls c la, seq := s.cur.ent.seq,
                                   nq := c.nq, tag := tag.setWidth 16, moves := [], pages := a.pages }
              let s := s.modRing core rn.toNat fun q => q.reserve id
              if room = 0 then
                .ok ((s.giveToken core rn.toNat fslot (exfToken tag 2 o) id).addCmd 2 { r with status := 2, resolved := true })
              else
                let moves := a.elems.zip b.elems
                let s := s.modRing core dn fun q => q.reserve id
                let (g, s) := s.gateMoves part (cmdCls c la) id moves
                .ok (s.addCmd 2 { r with moves := moves, gates := g, units := moved a.elems.length (dWidth a.fmt),
                                         dstRing := some (core, dn), deadline := some ((s.arg c (la.rank + 1)).toNat % 2 ^ 32),
                                         fallback := some (core, rn.toNat, fslot), token := exfToken tag 1 o })

/-! ## Sends and receives (R209, R210) -/

def tLink (cause n : Nat) : Trap := ⟨17, cause, BitVec.ofNat 64 n⟩
/-- The partition owns the port (R209, R363). -/
def State.ownsPort (s : State) (part port : Nat) : Bool :=
  let p := aget 0 s.fab.pown port
  p.getLsbD 6 && (p.setWidth 6).toNat == part
/-- Fields of a circuit slot (R369). -/
def slotBudget (v : Word) : Nat := natBits v.toNat 48 16
def slotPorts (v : Word) : BitVec 16 := v.extractLsb' 32 16
def slotV (v : Word) : Bool := v.getLsbD 31
def slotGuard (v : Word) : Nat := natBits v.toNat 12 8
def slotLen (v : Word) : Nat := natBits v.toNat 0 12
/-- Some defined slot of the running rotation connects the port (R371). -/
def Fabric.connects (f : Fabric) (port : Nat) : Bool :=
  f.swRun && (List.range (f.swN + 1)).any fun j => slotV (aget 0 f.swslots j) && (slotPorts (aget 0 f.swslots j)).getLsbD port
def execSend (c : ECmd) (s : State) : Out :=
  commanded c 2 s fun s =>
    let who := s.cur.who
    let la := s.lay who c.la.toNat
    let port := natBits (s.arg c 0).toNat 0 4
    let slack := natBits (s.arg c 1).toNat 0 16
    if !s.credits la.ring none then .next (s.block (s.creditNeeds la.ring none))
    else
      s.finish <|
        match s.engAccess c.la.toNat false la.box with
        | .error e => .error e
        | .ok a =>
          let bits := a.elems.length * dWidth a.fmt
          if bits % 512 != 0 || 2 ^ 23 < bits || slack == 0 then .error (.trap (tBounds c.la.toNat))
          else if !s.ownsPort (s.partOf who) port then .error (.trap (tLink 1 port))
          else if !s.fab.connects port then .error (.trap (tLink 4 port))
          else
            let (id, s) := s.newId
            let sq := aget 0 s.fab.sendSeq port
            let r : ECmdRec := { id := id, who := who, part := s.partOf who, opc := 0x08, cls := cmdCls c la,
                                 seq := s.cur.ent.seq, nq := c.nq, tag := (s.arg c 2).setWidth 16, moves := a.elems.map fun e => (e, e),
                                 pages := a.pages, units := bits / 512, srcRing := ringRef s la.ring, port := port, rqn := natBits (s.arg c 0).toNat 8 8,
                                 slack := slack, flits := bits / 512, sq := sq }
            let s := { s with fab := { s.fab with sendSeq := aset s.fab.sendSeq port ((sq + 1) % 2 ^ 32) } }
            .ok (((s.takeRings la.ring none id).modDie (dieOfWho who) fun d =>
              { d with sends := aset d.sends port (aget [] d.sends port ++ [id]) }).addCmd 2 r)
/-- An arm fills when a transfer arrives; the 17th of a queue waits in the E queue. -/
def execRecvArm (c : ECmd) (s : State) : Out :=
  commanded c 2 s fun s =>
    let who := s.cur.who
    let lb := s.lay who c.lb.toNat
    let q := natBits (s.arg c 0).toNat 0 8
    let arms := aget [] s.fab.recvs q
    if 16 ≤ arms.length then .next s.unissue
    else if !s.credits none lb.ring then .next (s.block (s.creditNeeds none lb.ring))
    else
      s.finish <|
        match s.engAccess c.lb.toNat true lb.box with
        | .error e => .error e
        | .ok b =>
          let (id, s) := s.newId
          let r : ECmdRec := { id := id, who := who, part := s.partOf who, opc := 0x09, cls := cmdCls c (s.lay who c.la.toNat),
                               seq := s.cur.ent.seq, nq := c.nq, tag := (s.arg c 1).setWidth 16, moves := b.elems.map fun e => (e, e),
                               dstRing := ringRef s lb.ring, rqn := q, pages := b.pages }
          let s := s.takeRings none lb.ring id
          .ok (({ s with fab := { s.fab with recvs := aset s.fab.recvs q (arms ++ [id]) } }).addCmd 2 r)

end Sys2Proof.Machine
end

