-- ==== Sys2Proof/Machine/Optical.lean ====
section
/-! DEFINITION. The optical Fourier stage (R222 to R243): the model D of a pass in fixed point, the accuracy a pass keeps,
and the optical commands. What a pass reports is a free value inside that accuracy (log 9). -/

namespace Sys2Proof.Machine

/-! ## Frames (R224) -/

/-- A complex number in fixed point of `fxP` fraction bits. -/
abbrev Cx := Int × Int
def Cx.add (a b : Cx) : Cx := (a.1 + b.1, a.2 + b.2)
def Cx.mul (a b : Cx) : Cx := ((a.1 * b.1 - a.2 * b.2) / (fxOne : Int), (a.1 * b.2 + a.2 * b.1) / (fxOne : Int))
/-- A finite value in fixed point. -/
def fxOf : FVal → Int
  | .fin n m e => let v := ((toFx m e).1 : Int); if n then -v else v
  | _ => 0
/-- Real and imaginary part of a frame element. -/
def framePart (z i : Nat) : FVal := fmtF16.decode true (elemAt z 16 i)
def badElem (z : Nat) : Bool :=
  (framePart z 0).isNaN || (framePart z 0).isInf || (framePart z 1).isNaN || (framePart z 1).isInf
/-- |z|² in fixed point, of an element whose parts are multiples of 2^-24. -/
def normSq (c : Cx) : Nat := (c.1 * c.1 + c.2 * c.2).toNat
def largeElem (z : Nat) : Bool := !badElem z && decide (fxOne * fxOne < normSq (fxOf (framePart z 0), fxOf (framePart z 1)))
/-- `clampz`. -/
def clampz (z : Nat) : Cx :=
  if badElem z then (0, 0)
  else
    let c := (fxOf (framePart z 0), fxOf (framePart z 1))
    if !largeElem z then c
    else
      let n := Nat.sqrt (normSq c)
      (c.1 * fxOne / n, c.2 * fxOne / n)

/-- `turn k n`: exp(2πi k / n), `n` a power of two. -/
def turnBy (k lg : Nat) : Cx :=
  let r := spSincos (.fin false (k % 2 ^ lg) (-(lg : Int)))
  (fxOf r.1.1, fxOf r.2.1)
/-- The amplitude code of an element: round_half_even(|clampz(z)| · 1023), by exact comparison (R224). -/
def ampCode (z : Nat) : Nat :=
  if badElem z then 0
  else if largeElem z then 1023
  else
    let m := 4 * 1023 * 1023 * normSq (fxOf (framePart z 0), fxOf (framePart z 1))
    let t := Nat.sqrt (m / (fxOne * fxOne))
    if t % 2 = 1 ∧ t * t * (fxOne * fxOne) = m then t / 2 + t / 2 % 2 else (t + 1) / 2
/-- The phase code of an element: the 1/1024 of a turn whose half-way bounds its direction lies between (R224). No element of
rational parts lies on a bound. -/
def phaseCode (z : Nat) : Nat :=
  let c := (fxOf (framePart z 0), fxOf (framePart z 1))
  if badElem z || c == (0, 0) then 0
  else
    let cross (a b : Cx) : Int := a.1 * b.2 - a.2 * b.1
    ((List.range 1024).find? fun k =>
      decide (0 ≤ cross (turnBy (2 * k + 2047) 11) c) && decide (0 < cross c (turnBy (2 * k + 1) 11))).getD 0

/-! ## The model (R225, R226) -/

/-- exp(± 2πi k / n). -/
def twiddle (n k : Nat) (plus : Bool) : Cx :=
  let r := turnBy (k % n * (128 / n)) 7
  (r.1, if plus then r.2 else -r.2)
/-- A one-dimensional sum over `n` points with stride in a table of twiddles. -/
def dft1 (tw : List Cx) (n : Nat) (x : List Cx) (k : Nat) : Cx :=
  (List.range n).foldl (fun a j => a.add ((x.getD j (0, 0)).mul (tw.getD (j * k % n) (0, 0)))) (0, 0)
/-- `ft` or `ift` on rows of 128 elements, `ny` rows. -/
def transform (plus : Bool) (ny : Nat) (rows : List (List Cx)) : List (List Cx) :=
  let tx := (List.range 128).map fun k => twiddle 128 k plus
  let ty := (List.range ny).map fun k => twiddle ny k plus
  let half := rows.map fun r => (List.range 128).map fun u => dft1 tx 128 r u
  let full := (List.range ny).map fun v => (List.range 128).map fun u =>
    dft1 ty ny (half.map fun r => r.getD u (0, 0)) v
  -- 1 / sqrt(128 ny) is 1/128, or 1/(64 sqrt 2)
  let scale (x : Int) : Int := if ny = 128 then x / 128 else x * (Nat.sqrt (2 * fxOne * fxOne) : Int) / (128 * fxOne : Nat)
  full.map fun r => r.map fun c => (scale c.1, scale c.2)

/-- Fields of the control word (R235). -/
def oPR (c : Word) : Nat := natBits c.toNat 0 2
def o4F (c : Word) : Bool := c.getLsbD 2
def oINV (c : Word) : Bool := c.getLsbD 3
def oAT (c : Word) : Nat := natBits c.toNat 4 3
def oMSEL (c : Word) : Nat := natBits c.toNat 7 1
def oPERX (c : Word) : Nat := natBits c.toNat 8 3
def oPERY (c : Word) : Nat := natBits c.toNat 11 3
def oOWX (c : Word) : Nat := natBits c.toNat 14 3
def oOWY (c : Word) : Nat := natBits c.toNat 17 3
def oOSX (c : Word) : Nat := natBits c.toNat 20 3
def oOSY (c : Word) : Nat := natBits c.toNat 23 3

def Stage.mask (g : Stage) (n i : Nat) : BitVec 32 := aget 0 (if n = 0 then g.mask0 else g.mask1) i
/-- The model D over the window, in fixed point (R225, R226). -/
def modelD (g : Stage) (c : Word) (input : List Nat) : List Cx :=
  let px := 2 ^ oPERX c
  let py := 2 ^ oPERY c
  let ny := if oPR c = 3 then 64 else 128
  let tile := input.map clampz
  let rows := (List.range ny).map fun y => (List.range 128).map fun x => tile.getD (x % px + px * (y % py)) (0, 0)
  let f := transform (oINV c && !o4F c) ny rows
  let d :=
    if !o4F c then f
    else transform true ny ((List.range ny).map fun v => (List.range 128).map fun u =>
      ((f.getD v []).getD u (0, 0)).mul (clampz (g.mask (oMSEL c) (u + 128 * v)).toNat))
  ((List.range (2 ^ oOWY c)).map fun j => (List.range (2 ^ oOWX c)).map fun i =>
    (d.getD (j * 2 ^ oOSY c) []).getD (i * 2 ^ oOSX c) (0, 0)).flatten

/-! ## What a pass reports (R227 to R229) -/

/-- One step 2^(AT − 11) in fixed point. -/
def gridStep (c : Word) : Int := 2 ^ (fxP + oAT c - 11)
/-- Nearest multiple of the step. -/
def nearest (q x : Int) : Int := (2 * x + q) / (2 * q)
/-- |D| in fixed point. -/
def magD (d : Cx) : Int := (Nat.sqrt (normSq d) : Int)
/-- Squared error of a report in fixed point: on the magnitude alone in INT mode. -/
def sqErr (c : Word) (d : Cx) (k : Int × Int) : Nat :=
  let q := gridStep c
  if oPR c = 0 then ((k.1 * q - magD d) ^ 2).toNat
  else ((k.1 * q - d.1) ^ 2 + (k.2 * q - d.2) ^ 2).toNat
/-- Phase error within 2 mrad, judged on the cross and dot products (tan 0.002 is 0.002 to nine digits). -/
def phaseOk (d : Cx) (k : Int × Int) (q : Int) : Bool :=
  let y : Cx := (k.1 * q, k.2 * q)
  let cross := (y.1 * d.2 - y.2 * d.1).natAbs
  let dot := y.1 * d.1 + y.2 * d.2
  decide (0 < dot) && decide ((cross : Int) * 1000000000 ≤ dot * 2000003)
/-- The stated accuracy over a window (R228, R229). -/
def accurate (c : Word) (d : List Cx) (ks : List (Int × Int)) : Bool :=
  let full : Nat := 2 ^ (fxP + oAT c)
  let es := (d.zip ks).map fun p => sqErr c p.1 p.2
  -- squared bounds: 2^-19 or 2^-18 of full scale squared on average, 2^-16 or 2^-15 at most
  let rms := if oPR c = 1 then 18 else 19
  let mx := if oPR c = 1 then 15 else 16
  decide ((es.foldl (· + ·) 0) * 2 ^ rms ≤ full * full * es.length) && (es.all fun e => decide (e * 2 ^ mx ≤ full * full)) &&
  (oPR c != 2 || (d.zip ks).all fun p => decide (magD p.1 * 16 < full) || phaseOk p.1 p.2 (gridStep c))
/-- A report near D: the nearest grid point, or in STEP4, where the phase is bounded, the nearest one of a good phase within the largest error,
eight steps. -/
def nearReport (c : Word) (d : Cx) : Int × Int :=
  let q := gridStep c
  if oPR c = 0 then (nearest q (magD d), 0)
  else
    let k := (nearest q d.1, nearest q d.2)
    if oPR c != 2 || decide (magD d * 16 < 2 ^ (fxP + oAT c)) || phaseOk d k q then k
    else
      let near := ((List.range 289).map fun (n : Nat) => (k.1 + (n % 17 : Nat) - 8, k.2 + (n / 17 : Nat) - 8)).filter fun z => phaseOk d z q
      near.foldl (fun a z => if phaseOk d a q && decide (sqErr c d a ≤ sqErr c d z) then a else z) k
/-- A free report of element `i`: two integers of 13 bits, or a magnitude. -/
def freeReport (c : Word) (base i : Nat) : Int × Int :=
  let b := Config.freeBits (base + i)
  if oPR c = 0 then ((b.extractLsb' 0 12).toNat, 0) else ((b.extractLsb' 0 13).toInt, (b.extractLsb' 13 13).toInt)
def beyond (k : Int × Int) : Bool := decide (2047 < k.1.natAbs) || decide (2047 < k.2.natAbs)
/-- The estimates of a pass: free, unless they break an accuracy that is promised. Then each is the report near D; where that one keeps no
bound of its own, and no report on the grid does, the free one stands if its error is within the largest (log 9). -/
def estimates (c : Word) (good : Bool) (d : List Cx) (base : Nat) : List (Int × Int) :=
  let free := (List.range d.length).map fun i => freeReport c base i
  let near := d.map (nearReport c)
  if !good || free.any beyond || accurate c d free then free
  else if accurate c d near then near
  else
    (List.range d.length).map fun i =>
      let x := d.getD i (0, 0)
      let f := free.getD i (0, 0)
      let n := near.getD i (0, 0)
      if !accurate c [x] [n] && decide (sqErr c x f * 2 ^ (if oPR c = 1 then 15 else 16) ≤ 2 ^ (2 * (fxP + oAT c))) then f else n
/-- The rotation of every recovered value by REFPH less the measured reference phase, on the grid; INT mode is unaffected
(R241). -/
def rotated (c : Word) (t : BitVec 10) (k : Int × Int) : Int × Int :=
  if oPR c = 0 ∨ t = 0 then k
  else
    let r := turnBy (1024 - t.toNat) 10
    let p : Cx := (k.1 * r.1 - k.2 * r.2, k.1 * r.2 + k.2 * r.1)
    (nearest fxOne p.1, nearest fxOne p.2)
/-- A component k · 2^(AT − 11) as fp16; zero is +0. -/
def reportCode (c : Word) (k : Int) : Nat :=
  let k := max (-2047) (min 2047 k)
  if k = 0 then 0 else (fmtF16.round true 0 0 (.fin (decide (k < 0)) k.natAbs ((oAT c : Int) - 11))).1
/-- The reported window as pairs of fp16 codes, and whether a component was clipped. -/
def report (c : Word) (es : List (Int × Int)) : List (Nat × Nat) × Bool :=
  (es.map fun k => (reportCode c k.1, reportCode c k.2), es.any beyond)

/-! ## Calibration (R231, R232, R240) -/

/-- CALAGE; before a capture it counts from the cold reset (the model's choice, log 101). -/
def State.calAge (s : State) (g : Stage) : Nat := Nat.min (s.cyc - g.capCyc) (2 ^ 64 - 1)
def Stage.gain (g : Stage) (i : Nat) : BitVec 16 :=
  match g.tables with | none => 0x8000 | some n => (Config.freeBits (n + i)).extractLsb' 0 16
def Stage.phc (g : Stage) (i : Nat) : BitVec 16 :=
  match g.tables with | none => 0 | some n => (Config.freeBits (n + i)).extractLsb' 16 16
/-- The 512-bit summary. -/
def State.summary (s : State) (g : Stage) : BitVec 512 :=
  ((0#320) ++ g.detgain ++ g.detoff ++ (0#6) ++ g.mbias ++ (0#6) ++ g.refph ++ g.temp ++ g.caltemp ++
    BitVec.ofNat 64 (s.calAge g) ++ g.calgen : BitVec 512)
/-- TEMP − CALTEMP. -/
def Stage.dT (g : Stage) : Int := (g.temp.toNat : Int) - g.caltemp.toNat
/-- GEN, DT and AGEH of a record that starts now (R234). -/
def State.recStart (s : State) (g : Stage) : Nat :=
  let dt := max (-128) (min 127 g.dT)
  (g.calgen.toNat % 65536) * 2 ^ 32 + (BitVec.ofInt 8 dt).toNat * 2 ^ 24 + Nat.min 255 (s.calAge g / 2 ^ 24) * 2 ^ 16

/-! ## The commands (R233, R236, R237, R239 to R241) -/

/-- Queue room on the die's stage, besides room for a record (R223). -/
def optical (c : ECmd) (s : State) (f : State → Out) : Out :=
  commanded c 3 s fun s => if 32 ≤ (s.die (dieOfWho s.cur.who)).stage.queue.length then .next s.unissue else f s
/-- Puts an accepted command behind those of earlier ticks, and in order of row, rank and context among those of its own (R223). -/
def queued (o : OCmd) (l : List OCmd) : List OCmd :=
  let ahead (q : OCmd) : Bool := q.cyc != o.cyc || decide (q.who ≤ o.who)
  l.takeWhile ahead ++ o :: l.dropWhile ahead
/-- Accepts a command. -/
def State.accept (s : State) (o : OCmd) : State :=
  let o := { o with task := (s.me.inst.map fun i => i.taskno).getD 0, cyc := s.cyc }
  let s := s.modDie (dieOfWho s.cur.who) fun d => { d with stage := { d.stage with queue := queued o d.stage.queue } }
  if o.nq then s else s.modMe fun c => c.rqPush 3 { id := o.id, seq := s.cur.ent.seq }
/-- The command in the operation's name. -/
def State.newO (s : State) (id : Nat) (c : ECmd) (op fn : Nat) (l : Lay) (tag : Word) : OCmd :=
  { id := id, who := s.cur.who, part := s.partOf s.cur.who, op := op, fn := fn, nq := c.nq, cls := cmdCls c l,
    seq := s.cur.ent.seq, tag := tag.setWidth 16 }
/-- A RANK 1 entry with STR0 = 1 of fp16 elements. -/
def State.frameEntry (s : State) (l : Lay) : Bool :=
  l.rank == 1 && l.str.getD 0 0 == 1 && dKind (s.desc (s.partOf s.cur.who) l.fmt) == 1
/-- The calibration test of R237; a capture that will stand ahead of the pass in the queue settles it. -/
def State.staleCause (s : State) (g : Stage) (lim : Word) : Option Nat :=
  if g.queue.any fun o => o.op == 0x12 && o.fn == 0 && (o.cyc != s.cyc || decide (o.who ≤ s.cur.who)) then none
  else if g.calgen = 0 then some 1
  else if natBits lim.toNat 0 32 * 256 < s.calAge g then some 2
  else if natBits lim.toNat 32 8 < g.dT.natAbs then some 3
  else none
def execOfx (c : ECmd) (s : State) : Out :=
  optical c s fun s =>
    let who := s.cur.who
    let la := s.lay who c.la.toNat
    let lb := s.lay who c.lb.toNat
    let w := s.arg c 0
    if !s.credits la.ring lb.ring then .next (s.block (s.creditNeeds la.ring lb.ring))
    else
      s.finish <|
        if !s.frameEntry la || la.ext.getD 0 0 != 2 ^ (oPERX w + oPERY w + 1) then .error (.trap (tBounds c.la.toNat))
        else if !s.frameEntry lb || lb.ext.getD 0 0 != 2 ^ (oOWX w + oOWY w + 1) then .error (.trap (tBounds c.lb.toNat))
        else if 7 < oOWX w + oOSX w || 7 < oOWY w + oOSY w || (oPR w == 3 && decide (6 < oPERY w)) ||
            (oPR w == 3 && decide (6 < oOWY w + oOSY w)) || (oINV w && o4F w) then .error (.trap (tBounds c.lb.toNat))
        else
          match s.engAccess c.la.toNat false la.box with
          | .error e => .error e
          | .ok a =>
            match s.engAccess c.lb.toNat true lb.box with
            | .error e => .error e
            | .ok b =>
              match s.staleCause (s.die (dieOfWho who)).stage (s.arg c 1) with
              | some k => .error (.trap ⟨13, k, 0⟩)
              | none =>
                let (id, s) := s.newId
                let o := { s.newO id c 0x10 0 la (s.arg c 2) with
                           ctl := w, lim := s.arg c 1, src := a.elems, dst := b.elems,
                           srcRing := ringRef s la.ring, dstRing := ringRef s lb.ring }
                .ok ((s.takeRings la.ring lb.ring id).accept o)
def execOfm (c : ECmd) (x : BitVec 1) (s : State) : Out :=
  optical c s fun s =>
    let la := s.lay s.cur.who c.la.toNat
    if !s.credits la.ring none then .next (s.block (s.creditNeeds la.ring none))
    else
      s.finish <|
        if !s.frameEntry la || la.ext.getD 0 0 != 32768 then .error (.trap (tBounds c.la.toNat))
        else
          match s.engAccess c.la.toNat false la.box with
          | .error e => .error e
          | .ok a =>
            let (id, s) := s.newId
            .ok ((s.takeRings la.ring none id).accept
              { s.newO id c 0x11 x.toNat la (s.arg c 0) with src := a.elems, srcRing := ringRef s la.ring })
def execOfcCap (c : ECmd) (s : State) : Out :=
  optical c s fun s =>
    let (id, s) := s.newId
    .next (s.accept (s.newO id c 0x12 0 (s.lay s.cur.who c.la.toNat) (s.arg c 0)))
/-- `ofc.rd` and `ofc.tab` write the summary or the tables into a box of exactly that size. -/
def readCal (c : ECmd) (fn bytes : Nat) (s : State) : Out :=
  optical c s fun s =>
    let lb := s.lay s.cur.who c.lb.toNat
    if !s.credits none lb.ring then .next (s.block (s.creditNeeds none lb.ring))
    else
      s.finish <|
        match s.engAccess c.lb.toNat true lb.box with
        | .error e => .error e
        | .ok b =>
          if b.elems.length * dWidth b.fmt != bytes * 8 then .error (.trap (tBounds c.lb.toNat))
          else
            let (id, s) := s.newId
            .ok ((s.takeRings none lb.ring id).accept
              { s.newO id c 0x12 fn (s.lay s.cur.who c.la.toNat) (s.arg c 0) with dst := b.elems, dstRing := ringRef s lb.ring })
def execOfcRd (c : ECmd) (s : State) : Out := readCal c 1 64 s
def execOfcTab (c : ECmd) (s : State) : Out := readCal c 2 65536 s
def execOfr (c : ECmd) (add : Bool) (s : State) : Out :=
  optical c s fun s =>
    let (id, s) := s.newId
    .next (s.accept { s.newO id c 0x13 (if add then 1 else 0) (s.lay s.cur.who c.la.toNat) (s.arg c 1) with ctl := s.arg c 0 })

/-! ## What the stage does with the head of its queue (R223, R238 to R242) -/

/-- Reads an fp16 element of F; an uncorrectable unit reads as zero (R234). -/
def State.frameCode (s : State) (e : Elem) : Nat := if s.spoilt e then 0 else s.elem e
/-- Pairs of elements as frame elements. -/
def framePairs : List Nat → List Nat
  | a :: b :: r => (a + b * 65536) :: framePairs r
  | _ => []
/-- Status bits of the elements read: CLIPIN, BADIN, DERR. -/
def State.inputFlags (s : State) (l : List Elem) (z : List Nat) : Nat :=
  (if z.any largeElem then 1 else 0) + (if z.any badElem then 4 else 0) +
  (if l.any s.spoilt then 8 else 0)
/-- The oldest unfinished command starts (R234): behind it none has, but for passes whose input is read ahead. -/
def State.startHead (s : State) (die : Nat) (ops : OCmd → Bool) : State :=
  let g := (s.die die).stage
  match g.queue with
  | o :: r => if !ops o || o.started then s
              else s.modDie die fun d => { d with stage := { d.stage with queue := { o with started := true, rec0 := s.recStart g } :: r } }
  | [] => s
/-- Ends a command: its rings' credits, its record in q3, and its place in the queue. -/
def State.endOptical (s : State) (die : Nat) (o : OCmd) (rec0 flags : Nat) : State :=
  let s := s.modDie die fun d => { d with stage := { d.stage with queue := d.stage.queue.filter fun q => q.id != o.id } }
  let s := match o.srcRing with | some (c, n) => s.modRing c n fun r => r.credit 1 0 false o.id | none => s
  let s := match o.dstRing with | some (c, n) => s.modRing c n fun r => r.credit 0 1 false o.id | none => s
  if o.nq then s.quietDone o.id
  else s.deliver o.who 3 o.id (o.tag.toNat * 2 ^ 48 + rec0 + o.op * 256 + flags)
/-- Writes codes into elements in order. -/
def State.putCodes (s : State) (l : List Elem) (v : List Nat) : State := (l.zip v).foldl (fun s p => s.putElem p.1 p.2) s

/-- What drives the input modulators of a pass: A · GAIN and P / 1024 + PHC / 65,536 turns, its tile over the aperture (R226,
R232). Rows that OFFAX ignores are not driven. -/
def Stage.driven (g : Stage) (c : Word) (input : List Nat) : List (Nat × Nat × BitVec 16) :=
  let px := 2 ^ oPERX c
  let py := 2 ^ oPERY c
  let codes := input.map fun z => (ampCode z, phaseCode z)
  (List.range (128 * if oPR c = 3 then 64 else 128)).map fun i =>
    let k := codes.getD (i % 128 % px + px * (i / 128 % py)) (0, 0)
    (i, k.1 * (g.gain i).toNat, BitVec.ofNat 16 (k.2 * 64) + g.phc i)
/-- Codes of the mask modulators: an element's own, its phase code plus MBIAS (R232). -/
def Stage.coded (g : Stage) (m : List Nat) : List (Nat × Nat × BitVec 10) :=
  (List.range m.length).map fun i => (i, ampCode (m.getD i 0), BitVec.ofNat 10 (phaseCode (m.getD i 0)) + g.mbias)
/-- A command's tick is over: those accepted beside it have their places (R223). -/
def State.placed (s : State) (o : OCmd) : Bool := decide (o.cyc < s.cyc)
/-- The next pass reads its input; only passes that have started stand ahead of it. -/
def execOpticalPassStart (die : Nat) (s : State) : Out :=
  let g := (s.die die).stage
  .next <|
    match g.queue.find? fun o => !(o.op == 0x10 && o.started) with
    | none => s
    | some o =>
      if o.op != 0x10 || !s.placed o then s
      else
        let z := framePairs (o.src.map s.frameCode)
        let rows := if oPR o.ctl = 3 then 64 else 128
        let masks := !o4F o.ctl || !((List.range (128 * rows)).any fun i => let m := (g.mask (oMSEL o.ctl) i).toNat; largeElem m || badElem m)
        let good := g.calgen != 0 && decide (s.calAge g ≤ 2 ^ 32) && decide (g.dT.natAbs ≤ 48) && g.refph == g.rho && masks
        let o' := { o with started := true, input := z, rec0 := s.recStart g, flags := s.inputFlags o.src z, good := good,
                           turn := g.refph - g.rho }
        s.modDie die fun d => { d with stage := { d.stage with drive := g.driven o.ctl z,
                                                               queue := d.stage.queue.map fun q => if q.id = o.id then o' else q } }
/-- The oldest pass writes its window, then its record. -/
def execOpticalWindowWrite (die : Nat) (s : State) : Out :=
  let g := (s.die die).stage
  .next <|
    match g.queue with
    | o :: _ =>
      if o.op != 0x10 || !o.started then s
      else
        let d := modelD g o.ctl o.input
        let (r, clip) := report o.ctl ((estimates o.ctl (o.good && o.flags == 0) d s.fresh).map (rotated o.ctl o.turn))
        let s := { s with fresh := s.fresh + d.length }
        let s := s.putCodes o.dst ((r.map fun p => [p.1, p.2]).flatten)
        s.endOptical die o o.rec0 (o.flags + (if clip then 2 else 0))
    | [] => s
/-- The head `ofm` has read its box and its modulators have settled (R239). -/
def execMaskLoadComplete (die : Nat) (s : State) : Out :=
  let g := (s.die die).stage
  .next <|
    match g.queue with
    | o :: _ =>
      if o.op != 0x11 || !s.placed o then s
      else
        let z := framePairs (o.src.map s.frameCode)
        let m := ((List.range z.length).zip (z.map (BitVec.ofNat 32))).filter fun p => p.2 != 0
        let r := if o.started then o.rec0 else s.recStart g
        let s := s.modDie die fun d =>
          { d with stage := if o.fn = 0 then { d.stage with mask0 := m, code0 := g.coded z } else { d.stage with mask1 := m, code1 := g.coded z } }
        s.endOptical die o r (s.inputFlags o.src z)
    | [] => s
/-- The mask modulators' codes under another MBIAS. -/
def biased (old new : BitVec 10) (l : List (Nat × Nat × BitVec 10)) : List (Nat × Nat × BitVec 10) :=
  l.map fun c => (c.1, c.2.1, c.2.2 - old + new)
/-- What a capture measures: values free within their fields (R240); the modulators take the new MBIAS (R232). -/
def State.captured (s : State) (die : Nat) : State :=
  let (b, s) := s.draw 64
  let n := s.fresh
  let s := { s with fresh := s.fresh + 16384 }
  s.modDie die fun d => { d with stage := { d.stage with
    detgain := b.extractLsb' 0 16, detoff := b.extractLsb' 16 16, mbias := b.extractLsb' 32 10,
    code0 := biased d.stage.mbias (b.extractLsb' 32 10) d.stage.code0, code1 := biased d.stage.mbias (b.extractLsb' 32 10) d.stage.code1,
    refph := b.extractLsb' 42 10, rho := b.extractLsb' 42 10, caltemp := d.stage.temp, capCyc := s.cyc,
    calgen := if d.stage.calgen = 0xFFFFFFFF then 1 else d.stage.calgen + 1, tables := some n } }
/-- The head capture ends: measured values are free within their fields, or nothing changes (R240). -/
def execCaptureComplete (die : Nat) (ok : Bool) (s : State) : Out :=
  let g := (s.die die).stage
  .next <|
    match g.queue with
    | o :: _ =>
      if o.op != 0x12 || o.fn != 0 || !s.placed o then s
      else
        let r := if o.started then o.rec0 else s.recStart g
        if !ok then s.endOptical die o r 16
        else
          (s.captured die).endOptical die o r 0
    | [] => s
/-- The head `ofr`, `ofc.rd` or `ofc.tab` is performed. -/
def State.opticalDone (s : State) (die id : Nat) : State :=
  let g := (s.die die).stage
  match g.queue with
  | o :: _ =>
    if o.id != id then s
    else
      let r := if o.started then o.rec0 else s.recStart g
      if o.op = 0x13 then
        let p := (if o.fn = 1 then g.refph else 0) + o.ctl.setWidth 10
        (s.modDie die fun d => { d with stage := { d.stage with refph := p } }).endOptical die o r 0
      else if o.op = 0x12 ∧ o.fn ≠ 0 then
        let w := (o.dst.headD { addr := 0, w := 8 }).w
        let v := if o.fn = 1 then (s.summary g).toNat
          else packElems 16 ((List.range 16384).map (fun i => (g.gain i).toNat) ++ (List.range 16384).map (fun i => (g.phc i).toNat))
        (s.putCodes o.dst ((List.range o.dst.length).map fun i => elemAt v w i)).endOptical die o r 0
      else s
  | [] => s

end Sys2Proof.Machine
end

