-- ==== Sys2Proof/Machine/Sync.lean ====
section
/-! DEFINITION. The synchronisation slot (R212 to R221) and the events that end its holds. -/

namespace Sys2Proof.Machine

/-! ## What a release and a fence wait for (R212, R213, R251) -/

/-- A later release performs only after this engine command's part in the table of R251. -/
def ECmdRec.ordered (r : ECmdRec) : Bool :=
  match r.opc with
  | 0x04 => true
  | 0x18 => r.resolved
  | 0x08 => decide (r.flits ≤ r.sent)
  | 0x09 => r.placed.isEmpty
  | _ => false
/-- The same for a command in the stage's queue: `ofc.cap` and `ofr` write no location. -/
def OCmd.ordered (o : OCmd) : Bool := (o.op == 0x12 && o.fn == 0) || o.op == 0x13
/-- Commands of a context that a mask of classes covers and that are not ordered yet. -/
def State.behind (s : State) (who : Nat) (cls : Nat → Bool) : Bool :=
  s.cmds.any (fun r => r.who == who && cls r.cls && !r.ordered) ||
  ((s.die (dieOfWho who)).stage.queue.any fun o => o.who == who && cls o.cls && !o.ordered)
/-- A release of the context that issues may perform: its accesses and its engine commands are ordered before it. -/
def State.released (s : State) : Bool :=
  let who := s.cur.who
  !s.behind who (fun _ => true) && s.fab.reqs.all fun r => !r.open who
/-- Accesses of earlier bundles in masked classes have performed: nothing older is unissued in a slot that can access
memory, no load is in flight, no masked command or drawer access is under way. The dispatch of the fence's bundle has
released whatever stores of masked classes were withheld (R212). -/
def State.fenced (s : State) (mask : BitVec 16) : Bool :=
  let who := s.cur.who
  let seq := s.cur.ent.seq
  let c := s.me
  [Slot.ld, .st, .e].all (fun sl => (c.q sl).all fun e => decide (seq ≤ e.seq)) &&
  c.fly.all (fun f => f.late.isNone || decide (seq ≤ f.seq)) &&
  !s.behind who (fun k => mask.getLsbD k) &&
  s.fab.reqs.all fun r => !(r.open who && mask.getLsbD r.cls)

def execFence (g : Guard) (mask : BitVec 16) (s : State) : Out :=
  .next (if !s.guard g || mask = 0 || s.fenced mask then s else s.unissue)

/-! ## Flags (R213, R214) -/

/-- Descriptor kinds s64 and n64. -/
def flagKind (d : BitVec 32) : Bool := dKind d == 7 || dKind d == 10
/-- The flag that a Y operation names, with its class and whether it is signed. -/
def State.flag (s : State) (a : YArg) (write : Bool) : Except Stop (Elem × Nat × Bool) :=
  let who := s.cur.who
  let l := s.lay who a.le.toNat
  match s.access who a.le.toNat write false [s.coords who a.sa.toNat l.rank 0] with
  | .error e => .error e
  | .ok r =>
    match r.elems with
    | e :: _ => if flagKind r.fmt then .ok (e, l.cls, dKind r.fmt == 7) else .error (.trap (if l.isMem then tBounds a.le.toNat else tLayout a.le.toNat))
    | [] => .error (.trap (tLayout a.le.toNat))
/-- s(SA + RANK). -/
def State.flagArg (s : State) (a : YArg) : Word := s.me.ctl.sget (a.sa.toNat + (s.lay s.cur.who a.le.toNat).rank)

/-- A release: the value is added or stored once everything before it has performed. -/
def execSig (a : YArg) (set : Bool) (s : State) : Out :=
  if !s.guard a.g then .next s
  else if !s.released then .next s.unissue
  else
    s.finish <|
      match s.flag a true with
      | .error e => .error e
      | .ok (e, cls, _) =>
        .ok (s.sendStep (s.partOf s.cur.who) cls e.key { addr := e.addr, w := 64, op := if set then 3 else 0, v := s.flagArg a })

/-- The condition of a `wait` on a flag value (R214). -/
def waitTest (cond : Nat) (f v : Word) : Bool :=
  match cond with
  | 0 => decide (0 ≤ (f - v).toInt)
  | 1 => f == v
  | _ => f != v
/-- A flag's value as a context reads it. -/
def State.flagValue (s : State) (who addr key : Nat) : Word := BitVec.ofNat 64 (s.elemBy who { addr := addr, w := 64, key := key })
/-- The drawer reads that a test of a flag needs. -/
def State.askFlag (s : State) (who addr cls pc : Nat) (sl : Nat) : List Nat × State :=
  match drawerOf (addr / 8) with
  | none => ([], s)
  | some d =>
    let (id, s) := s.newId
    ([id], { s with fab := { s.fab with reqs := s.fab.reqs ++
      [{ id := id, drawer := d, unit := addr / 512, part := s.partOf who, cls := cls, kind := 0, who := who, die := dieOfWho who,
         pc := BitVec.ofNat 64 pc, sl := sl, order := s.cyc }] } })
/-- Holds until the flag meets the condition; the operation stays unissued until then. -/
def execWait (a : YArg) (c : BitVec 2) (s : State) : Out :=
  if !s.guard a.g then .next s
  else
    s.finish <|
      match s.flag a false with
      | .error e => .error e
      | .ok (e, cls, _) =>
        let s := s.claim [e]
        let who := s.cur.who
        let v := s.flagArg a
        if (drawerOf (e.addr / 8)).isNone && waitTest c.toNat (s.flagValue who e.addr e.key) v then .ok s
        else
          let (g, s) := s.askFlag who e.addr cls s.cur.ent.pc.toNat 7
          .ok ((s.unissue).modMe fun x => { x with wait := some (.wait e.addr e.key cls g c.toNat v) })

/-- Every request of a list has been answered. -/
def State.answered (s : State) (g : List Nat) : Bool := s.fab.reqs.all fun r => !g.contains r.id || r.done
/-- Drops requests that have served. -/
def State.forget (s : State) (g : List Nat) : State :=
  { s with fab := { s.fab with reqs := s.fab.reqs.filter fun r => !g.contains r.id } }
/-- The oldest entry of a queue leaves it: it has issued. -/
def Ctx.popQ (c : Ctx) (sl : Slot) : Ctx := c.setQ sl (c.q sl).tail
/-- A read of the flag meets the condition: the `wait` issues. A read that does not meet it is followed by another. -/
def execWaitSatisfied (who : Nat) (s : State) : Out :=
  .next <|
    match (s.ctx who).wait with
    | some (.wait addr key cls g cond v) =>
      if !s.answered g then s
      else
        let t := s.forget g
        if waitTest cond (t.flagValue who addr key) v then t.modCtx who fun c => { c.popQ .y with wait := none }
        else if g.isEmpty then s
        else
          let pc := (((s.ctx who).q .y).head?.map fun e => e.pc.toNat).getD 0
          let (g, t) := t.askFlag who addr cls pc 7
          t.modCtx who fun c => { c with wait := some (.wait addr key cls g cond v) }
    | _ => s

/-! ## Barriers (R216) -/

def execBar (a : YArg) (s : State) : Out :=
  if !s.guard a.g then .next s
  else if !s.released then .next s.unissue
  else
    s.finish <|
      match s.flag a true with
      | .error e => .error e
      | .ok (e, cls, sgn) =>
        let p := (s.flagArg a).toNat % 2 ^ 32
        let s := s.modMe fun x => { x with wait := some (.bar e.addr e.key cls [] none) }
        .ok (s.sendStep (s.partOf s.cur.who) cls e.key { addr := e.addr, w := 64, op := 0, v := 1, sgn := sgn, bar := Nat.max p 1 })
/-- The counter reaches the target. -/
def execBarrierPass (who : Nat) (s : State) : Out :=
  .next <|
    match (s.ctx who).wait with
    | some (.bar addr key cls g (some v)) =>
      if !s.answered g then s
      else
        let far := (drawerOf (addr / 8)).isSome
        let t := s.forget g
        if (!far || !g.isEmpty) && waitTest 0 (t.flagValue who addr key) v then t.modCtx who fun c => { c with wait := none }
        else if !far then s
        else
          let (g, t) := t.askFlag who addr cls (s.ctx who).ctl.pc.toNat 7
          t.modCtx who fun c => { c with wait := some (.bar addr key cls g (some v)) }
    | _ => s

/-! ## Rings, quanta and sleep (R217, R218) -/

def execRwait (g : Guard) (free : Bool) (k : BitVec 4) (b : BitVec 6) (s : State) : Out :=
  let r := s.myRing b.toNat
  let n := k.toNat + 1
  .next <|
    if !s.guard g || decide (n ≤ (if free then r.old.free else r.old.filled)) then s
    else s.block (.count (s.rk b.toNat) free n)
/-- Ends the quantum, when the scheduler holds another instance for the context. -/
def execYield (g : Guard) (s : State) : Out :=
  .next (if s.guard g && s.otherReady s.cur.who 0 then s.modMe fun c => { c with preReq := true } else s)
def execSleep (g : Guard) (sa : BitVec 6) (s : State) : Out :=
  let n := (s.sreg sa).toNat % 2 ^ 32
  .next (if !s.guard g || n = 0 then s else s.modMe fun c => { c with wait := some (.sleep n) })
def execSleepExpiry (who : Nat) (s : State) : Out :=
  .next <|
    match (s.ctx who).wait with
    | some (.sleep 0) => s.modCtx who fun c => { c with wait := none }
    | _ => s

/-! ## Power levels (R219, R382) -/

/-- Asks for a level: a lowering takes effect at once, a raise joins the die's queue and holds the context. -/
def State.askPower (s : State) (who l : Nat) : State :=
  if l ≤ (s.ctx who).level then s.modCtx who fun c => { c with level := l }
  else (s.modCtx who fun c => { c with wait := some (.power l) }).modDie (dieOfWho who) fun d => { d with pwrq := raising (who, l, s.cyc) d.pwrq }
def execPwrAcq (g : Guard) (sa : BitVec 6) (s : State) : Out :=
  let l := (s.sreg sa).toNat % 256
  .next <|
    if !s.guard g then s
    else if (s.me.inst.map (·.limit)).getD 0 < l then s.trap ⟨16, 0, BitVec.ofNat 64 l⟩
    else s.askPower s.cur.who l
def execPwrRel (g : Guard) (s : State) : Out :=
  .next (if s.guard g then s.askPower s.cur.who (prtDeflvl (s.part (s.partOf s.cur.who)).ctl) else s)
/-- The oldest raise is granted once both sums allow it. A request whose context no longer waits is dropped. -/
def execPowerGrant (die : Nat) (s : State) : Out :=
  .next <|
    match (s.die die).pwrq with
    | [] => s
    | (who, l, _) :: r =>
      let t := s.modDie die fun d => { d with pwrq := r }
      if (s.ctx who).susp then
        (if (s.ctx who).hold || (s.ctx who).inst.map (·.lvl) != some l then t
         else if s.mayGrant die (s.partOf who) l then (t.modCtx who fun c => { c with level := l, susp := false, woke := true }).elect (coreOf who)
         else s)
      else if (s.ctx who).wait != some (.power l) then t
      else if s.mayGrant die (s.partOf who) (l - (s.ctx who).level) then t.modCtx who fun c => { c with level := l, wait := none }
      else s

/-! ## Realignment (R221, R375) -/

/-- Master cycles in 64 µs at the master clock's step (R390). -/
def State.mhz (s : State) : Nat := if s.svc.slow then 1600 else 2000
/-- Port that a slot of the running rotation allots a peer pair to (R368). -/
def allotted (v : Word) (pair : Nat) : Option Nat :=
  let l := (List.range 16).filter fun k => (slotPorts v).getLsbD k
  let m := l.length
  ((List.range m).find? fun i => decide (64 + 64 * i / m ≤ pair) && decide (pair < 64 + 64 * (i + 1) / m)).bind fun i => l[i]?
/-- The partition owns the pair. -/
def State.ownsPair (s : State) (part pair : Nat) : Bool :=
  if pair < 64 then
    (if pair < 32 then s.fab.d0slot else s.fab.d1slot).any fun t => t.2.getLsbD 11 && (t.2.setWidth 6).toNat == part
  else
    s.fab.swRun && (List.range (s.fab.swN + 1)).any fun j =>
      let v := aget 0 s.fab.swslots j
      slotV v && (match allotted v pair with | some k => s.ownsPort part k | none => false)
/-- The pair is up, parked or waking. -/
def Pair.lit (p : Pair) : Bool := p.state == 2 || p.state == 3 || p.state == 4
def execRealign (g : Guard) (sa : BitVec 6) (s : State) : Out :=
  let n := (s.sreg sa).toNat % 256
  .next <|
    if !s.guard g then s
    else if 128 ≤ n || !s.ownsPair (s.partOf s.cur.who) n then s.trap (tLink 1 n)
    else if !(s.pair n).lit then s.trap (tLink 3 n)
    else s.modMe fun c => { c with wait := some (.realign n (64 * s.mhz) s.cur.ent.pc) }
/-- Both ends report alignment: the far end of a peer pair has stepped to the issuing end's count, the package end of a drawer pair
to the drawer's, and the error that is left is at most 1 ns, and free (R375). Whether the peer realigns at once is free too: then the
end with the larger count keeps it. -/
def execRealignDone (who : Nat) (s : State) : Out :=
  .next <|
    match (s.ctx who).wait with
    | some (.realign n left pc) =>
      if !(s.pair n).lit || left = 0 then s.takeTrap who (tLink 3 n) 7 pc
      else
        let (b, s) := s.draw 3
        let e : BitVec 32 := if b.setWidth 2 = 1#2 then 1 else if b.setWidth 2 = 2#2 then -1 else 0
        (s.modPair n fun p =>
          if n < 64 || (b.getLsbD 2 && decide (0 < (p.far - p.phase).toInt)) then { p with phase := p.far + e } else { p with far := p.phase - e }).modCtx who
          fun c => { c with wait := none }
    | _ => s
def execRealignTimeout (who : Nat) (s : State) : Out :=
  .next <|
    match (s.ctx who).wait with
    | some (.realign n left pc) => if left = 0 || !(s.pair n).lit then s.takeTrap who (tLink 3 n) 7 pc else s
    | _ => s

end Sys2Proof.Machine
end

