-- ==== Sys2Proof/Machine/Registers.lean ====
section
/-! DEFINITION. System registers (R291 to R298, R301, and the maps of the other chapters): what a read returns, what a write
does, and the writes that have a behaviour of their own. -/

namespace Sys2Proof.Machine

/-! ## Numbers (R293, R294) -/

/-- A system register number, taken apart. -/
structure Srn where
  group : Nat
  die   : Nat
  row   : Nat
  rank  : Nat
  ctx   : Nat
  word  : Nat
  deriving DecidableEq, Repr

def srnOf (v : Nat) : Srn :=
  { group := natBits v 24 8, die := natBits v 22 2, row := natBits v 20 2, rank := natBits v 16 4, ctx := natBits v 14 2,
    word := natBits v 0 14 }
def Srn.rowN (n : Srn) : Nat := n.die * 4 + n.row
def Srn.core (n : Srn) : Nat := n.rowN * 16 + n.rank
def Srn.who (n : Srn) : Nat := n.core * 4 + n.ctx
/-- Group numbers of R294. -/
def gCTX : Nat := 1
def gFLT : Nat := 2
def gTCH : Nat := 3
def gPWR : Nat := 4
def gCLK : Nat := 5
def gOFS : Nat := 6
def gLNK : Nat := 7
def gSLT : Nat := 8
def gSWQ : Nat := 9
def gPRT : Nat := 10
def gKEY : Nat := 11
def gBOOT : Nat := 12
/-- Every field below the register's scope is zero (R293). -/
def Srn.scoped (n : Srn) : Bool :=
  if n.group == gCTX && decide (n.word < 0x80) || n.group == gFLT || n.group == gTCH then true
  else if n.group == gCTX || n.group == gSLT then n.ctx == 0
  else if n.group == gCLK then n.ctx == 0 && n.rank == 0
  else if n.group == gPWR || n.group == gOFS then n.ctx == 0 && n.rank == 0 && n.row == 0
  else n.ctx == 0 && n.rank == 0 && n.row == 0 && n.die == 0
/-- Least levels that read and write a group (R294). -/
def readLevel (g : Nat) : Nat := if g == gLNK || decide (gSWQ ≤ g) then 2 else 1
def writeLevel (g : Nat) : Nat := if g == gCTX || g == gFLT || g == gOFS then 1 else 2
/-- A partition owns the place (R294). -/
def State.ownsPlace (s : State) (part : Nat) (n : Srn) : Bool :=
  let own := (s.part part).own
  if n.group == gOFS then own.getLsbD (16 + n.die)
  else if n.group == gPWR then (List.range 4).any fun r => own.getLsbD (4 * n.die + r)
  else own.getLsbD n.rowN
/-- Level of an issuer (R291). -/
def State.level (s : State) (who : Nat) : Nat := if isFw who then 2 else (s.ctx who).priv.toNat

/-! ## Reads -/

/-- Fields packed at their lowest bits. -/
def pk (l : List (Nat × Nat)) : Word := BitVec.ofNat 64 (l.foldl (fun a p => a + p.2 * 2 ^ p.1) 0)

def Ring.cfg (r : Ring) : Word :=
  pk [(38, r.owner), (37, r.en.toNat), (35, r.buf), (18, r.base), (14, r.slotlog), (6, r.countm1), (5, r.pend.toNat)]
/-- RINGST reads as the tick began (R66). -/
def Ring.st (r : Ring) : Word :=
  pk [(43, r.old.wfree), (34, r.old.wfill), (25, r.old.free), (16, r.old.filled), (8, r.old.tail), (0, r.old.head)]
def State.readCtx (s : State) (n : Srn) : Option Word :=
  let c := s.ctx n.who
  let k := s.core n.core
  let w := n.word
  if w = 0 then some (pk [(1, c.hold.toNat), (0, c.arr.toNat)])
  else if w = 1 then some (pk [(4, c.nest.toNat), (2, c.epriv.toNat), (0, c.priv.toNat)])
  else if w = 2 then some (c.epc.setWidth 64)
  else if w = 3 then some (c.tvec.setWidth 64)
  else if w = 0x80 then some (pk [(0, k.two.toNat)])
  else if 0x100 ≤ w ∧ w < 0x140 then some (k.ring (w - 0x100)).cfg
  else if 0x140 ≤ w ∧ w < 0x180 then some (k.ring (w - 0x140)).st
  else if w = 0x180 then some 0
  else if 0x200 ≤ w ∧ w < 0x300 then some ((aget 0 k.pips (w - 0x200)).setWidth 64)
  else none
def State.readFlt (s : State) (n : Srn) : Option Word :=
  let f := (s.ctx n.who).flt
  match n.word with
  | 0 => some f.cause | 1 => some f.bundle | 2 => some f.addr | 3 => some f.task | 4 => some f.smap
  | 5 => some (pk [(0, f.wawp.toNat)])
  | 6 => some (pk [(1, f.lrs.toNat), (0, f.derr.toNat)])
  | 7 => some f.derra | 0x10 => some f.sav0 | 0x11 => some f.sav1
  | _ => none
def State.readTch (s : State) (n : Srn) : Option Word :=
  let l := (s.ctx n.who).wins
  if n.word = 0 then some (pk (l.map fun w => (w.n, 1)))
  else if 0x20 ≤ n.word ∧ n.word < 0x40 then
    some (match l.find? fun w => w.n == n.word - 0x20 with | some w => pk [(9, w.w.toNat), (0, w.left)] | none => 0)
  else none
def State.readPwr (s : State) (n : Srn) : Option Word :=
  let d := s.die n.die
  if n.word < 16 then
    some (pk [(16, (aget false d.clamped n.word).toNat), (0, (aget 0 d.votes n.word).toNat)])
  else if n.word = 0x10 then some (pk [(32, d.rstate), (16, d.tgt), (0, d.vnow)])
  else if n.word = 0x11 then some (d.diemax.setWidth 64)
  else if n.word = 0x12 then some (pk [(32, d.tage.toNat), (16, d.pavg.toNat), (0, d.vavg.toNat)])
  else if n.word = 0x13 then some (pk [(16, d.tcrit.toNat), (0, d.talert.toNat)])
  else none
def State.readClk (s : State) (n : Srn) : Option Word :=
  let r := s.row n.rowN
  match n.word with
  | 0 => some (pk [(32, r.pmaxn.toNat), (16, r.patcur.toNat), (0, r.pat.toNat)])
  | 1 => some r.wdog
  | _ => none
def State.readOfs (s : State) (n : Srn) : Option Word :=
  let g := (s.die n.die).stage
  if n.word < 8 then some ((s.summary g).extractLsb' (64 * n.word) 64)
  else if 0x2000 ≤ n.word ∧ n.word < 0x3000 then
    some (pk ((List.range 4).map fun i => (16 * i, (g.gain (4 * (n.word - 0x2000) + i)).toNat)))
  else if 0x3000 ≤ n.word ∧ n.word < 0x4000 then
    some (pk ((List.range 4).map fun i => (16 * i, (g.phc (4 * (n.word - 0x3000) + i)).toNat)))
  else none
/-- The wavelength of a ring is dark: the pair is down, or parked or waking with the wavelength unlit (R361, R397). -/
def dark (p : Pair) (wl : BitVec 3) : Bool := p.state == 0 || ((p.state == 3 || p.state == 4) && wl != 0 && wl != 4)
/-- A ring modulator's register; `n` is its word less 0x2000 (R396). -/
def State.readMRing (s : State) (n : Nat) : Word :=
  let r : MRing := aget {} s.fab.rings n
  let shut := !r.svc || dark (s.pair (n / 64)) r.wl
  let m (x : Nat) : Nat := if shut then 0 else x
  pk [(52, m r.mhi.toNat), (40, m r.mlo.toNat), (39, m r.mv.toNat), (32, r.wl.toNat), (31, r.svc.toNat), (0, r.heat.toNat)]
/-- PHERR: the package end's count less the far end's, saturating (R360, R363). -/
def Pair.pherr (p : Pair) : BitVec 12 :=
  let d := (p.phase - p.far).toInt
  BitVec.ofInt 12 (max (-2047) (min 2047 d))
def Pair.reg (p : Pair) : Word :=
  pk [(40, p.pherr.toNat), (24, p.errc.toNat), (16, p.fail.toNat), (8, p.wakeq.toNat), (4, p.parkidle.toNat), (0, p.state.toNat)]
/-- A rondel slot as last written, in force or waiting (R363). -/
def Fabric.slotReg (f : Fabric) (d t : Nat) : BitVec 12 :=
  match f.slotw.find? fun w => w.1 == d && w.2.1 == t with
  | some w => w.2.2
  | none => aget 0 (if d = 0 then f.d0slot else f.d1slot) t
def State.readLnk (s : State) (w : Nat) : Option Word :=
  if w < 0x200 then some ((s.fab.slotReg (w / 256) (w % 256)).setWidth 64)
  else if w < 0x280 then some (s.pair (w - 0x200)).reg
  else if w = 0x280 then
    some (pk [(32, s.fab.stallto.toNat), (16, s.fab.ctlto.toNat), (8, s.fab.lasercap.toNat), (0, s.fab.laser.toNat)])
  else if 0x290 ≤ w ∧ w < 0x2A0 then some ((aget 0 s.fab.pown (w - 0x290)).setWidth 64)
  else if 0x2000 ≤ w ∧ w % 16 ≤ 8 then some (s.readMRing (w - 0x2000))
  else none
def Fabric.stat (f : Fabric) : Word :=
  pk [(15, f.swErr.toNat), (14, f.swRun.toNat), (13, f.swGd.toNat), (10, f.swCur), (0, f.swq.length)]
def State.readSwq (s : State) (w : Nat) : Option Word :=
  if w = 0 then some s.fab.stat
  else if w = 1 then some (s.fab.minper.setWidth 64)
  else if 0x10 ≤ w ∧ w < 0x18 then some (aget 0 s.fab.swslots (w - 0x10))
  else none
/-- Parties of the deferred set from this number up are the windows of saved contexts. -/
def savedParty : Nat := 2 ^ 60
def Part.deferReg (p : Part) : Word :=
  pk [(16, (p.defer.any fun d => d.2.1.any fun w => decide (savedParty ≤ w.1)).toNat), (0, Nat.min p.defer.length 0xFFFF)]
def State.readPrt (s : State) (w : Nat) : Option Word :=
  let p := s.part (w / 256)
  let r := w % 256
  if 48 ≤ w / 256 then none
  else if r < 64 then some ((aget 0 p.fmtd r).setWidth 64)
  else if r = 0x40 then some p.ptroot
  else if r = 0x41 then some p.deferReg
  else if r = 0x42 then some p.ctl
  else if r = 0x43 then some p.own
  else if r = 0x44 then some p.save
  else none
def State.readBoot (s : State) (w : Nat) : Option Word :=
  if w < 16 then some (aget 0 s.svc.steps w)
  else if w = 16 then some (pk [(40, s.svc.bst.toNat), (32, s.svc.boots.toNat), (0, s.svc.svn.toNat)])
  else none
/-- What a register reads as; `none` names no register (R293). -/
def State.regRead (s : State) (n : Srn) : Option Word :=
  if !n.scoped then none
  else if n.group == gCTX then s.readCtx n
  else if n.group == gFLT then s.readFlt n
  else if n.group == gTCH then s.readTch n
  else if n.group == gPWR then s.readPwr n
  else if n.group == gCLK then s.readClk n
  else if n.group == gOFS then s.readOfs n
  else if n.group == gLNK then s.readLnk n.word
  else if n.group == gSLT then (if n.word = 0 then some ((s.core n.core).sltmap.setWidth 64) else none)
  else if n.group == gSWQ then s.readSwq n.word
  else if n.group == gPRT then s.readPrt n.word
  else if n.group == gKEY then (if n.word < 8 then some 0 else none)
  else if n.group == gBOOT then s.readBoot n.word
  else none

/-! ## Writes with a behaviour of their own -/

/-- RINGCFG (R63). -/
def Ring.writeCfg (r : Ring) (v : Word) : Ring :=
  let f (lo w : Nat) : Nat := natBits v.toNat lo w
  if r.pend then r
  else if r.en then (if v.getLsbD 37 then r else r.clear)
  else
    let r := { r with owner := f 38 2, buf := f 35 2, base := f 18 17, slotlog := f 14 4, countm1 := f 6 8 }
    { r with en := v.getLsbD 37 && r.shapeOk }
def execRingcfgWrite (core n : Nat) (v : Word) (s : State) : Out := .next (s.modRing core n fun r => r.writeCfg v)
/-- RINGST (R63). -/
def Ring.writeSt (r : Ring) (v : Word) : Ring :=
  let f (lo w : Nat) : Nat := natBits v.toNat lo w
  if r.en || r.pend then r else ({ r with free := f 25 9, filled := f 16 9, tail := f 8 8, head := f 0 8 }).endTick
def execRingstWrite (core n : Nat) (v : Word) (s : State) : Out := .next (s.modRing core n fun r => r.writeSt v)
/-- CTX.CFG: HOLD stops a running instance at its next bundle boundary (`PREEMPTION`), ARR sets the delivery mode. -/
def Ctx.writeCfg (c : Ctx) (v : Word) : Ctx := { c with hold := v.getLsbD 1, arr := v.getLsbD 0 }
def execCtxCfgWrite (who : Nat) (v : Word) (s : State) : Out := .next (s.modCtx who fun c => c.writeCfg v)
/-- Some context of the core holds an instance. -/
def State.coreBusy (s : State) (core : Nat) : Bool := (List.range 4).any fun k => (s.ctx (core * 4 + k)).inst.isSome
/-- CTX.CCFG is refused while any context of the core holds an instance (R296); the event leaves the register then. -/
def execCtxCcfgWrite (core : Nat) (v : Word) (s : State) : Out :=
  .next (if s.coreBusy core then s else s.modCore core fun c => { c with two := v.getLsbD 0 })
def execPipclr (core : Nat) (v : Word) (s : State) : Out :=
  .next (if v.getLsbD 0 then s.modCore core fun c => { c with pips := [] } else s)
def execPipWrite (core j : Nat) (v : Word) (s : State) : Out :=
  .next (s.modCore core fun c => { c with pips := aset c.pips (j % 256) (v.setWidth 32) })
/-- TCH.OPEN: each 1 closes its window, whose pages leave the deferred set with it (R347, R354). -/
def execTchOpenWrite (who : Nat) (v : Word) (s : State) : Out :=
  .next (s.closeWins who fun w => !v.getLsbD w.n)
/-- PRT.CTL: DEFLVL stays within PCAP (R385). -/
def ctlOf (v : Word) : Word :=
  let v := v &&& 0x3FFFFFFFF00FFFF
  if natBits v.toNat 32 8 < natBits v.toNat 24 8 then (v &&& ~~~0xFF000000) ||| BitVec.ofNat 64 (natBits v.toNat 32 8 * 2 ^ 24) else v
def execPrtCtlWrite (part : Nat) (v : Word) (s : State) : Out := .next (s.setPart part { s.part part with ctl := ctlOf v })
/-- PRT.OWN, unless R386 holds the write back. -/
def State.ownHeld (s : State) (part : Nat) (v : Word) : Bool :=
  let old := (s.part part).own
  let ch := old ^^^ v
  s.parts.any (fun p => p.1 != part && prtEn p.2.ctl && p.2.own &&& v != 0) ||
  s.ctxs.any (fun c => !isFw c.1 && c.2.inst.isSome && ch.getLsbD (rowOf (coreOf c.1))) ||
  s.svc.snaps.any (fun n => ch.getLsbD (rowOf (coreOf n.place))) ||
  (List.range 4).any fun d => ch.getLsbD (16 + d) && !(s.die d).stage.queue.isEmpty
def execPrtOwnWrite (part : Nat) (v : Word) (s : State) : Out :=
  let v := v &&& 0xFFFFF
  .next (if s.ownHeld part v then s else s.setPart part { s.part part with own := v })
/-- A rondel slot's write waits for its drawer's next slot 0 (R363). -/
def Fabric.writeSlot (f : Fabric) (d t : Nat) (v : Word) : Fabric :=
  { f with slotw := (f.slotw.filter fun w => !(w.1 == d && w.2.1 == t)) ++ [(d, t, v.setWidth 12)] }
def execDrawerSlotWrite (d t : Nat) (v : Word) (s : State) : Out := .next { s with fab := s.fab.writeSlot (d % 2) (t % 256) v }
/-- A ring modulator's write: a new HEAT empties its monitor, a new modulating ring waits for its lane group's next flit
boundary (R396 to R398). -/
def MRing.write (r : MRing) (v : Word) (cyc : Nat) : MRing :=
  let h := v.setWidth 12
  let r := { r with wl := v.extractLsb' 32 3, svc := v.getLsbD 31 }
  if h = r.heat then r else { r with heat := h, since := cyc, mlo := 0, mhi := 0, mv := false }
/-- The link clock in nanoseconds since the cold reset (R360). -/
def State.ltime (s : State) : Nat := s.cyc * 1000 / s.mhz
/-- A lane group is to change its modulators at its next flit boundary after link time `ns`. -/
def Fabric.changeOver (f : Fabric) (p j ns : Nat) : Fabric :=
  if f.chg.any fun c => c.1 == p && c.2.1 == j then f else { f with chg := f.chg ++ [(p, j, ns)] }
def execLnkRingWrite (n : Nat) (v : Word) (s : State) : Out :=
  let r : MRing := aget {} s.fab.rings n
  .next { s with fab := ({ s.fab with rings := aset s.fab.rings n (r.write v s.cyc) }).changeOver (n / 64) (n / 16 % 4) s.ltime }
/-- The code reaches the heater. -/
def execHeaterApply (n : Nat) (s : State) : Out :=
  .next { s with fab := { s.fab with heat := aset s.fab.heat n (aget {} s.fab.rings n : MRing).heat } }
/-- The detuning of a ring at a heater code. -/
def MRing.detuning (r : MRing) (heat : BitVec 12) : Int := r.centre.toInt - heat.toNat
/-- The readings may come together: near lock, their difference is twice the detuning within 8 codes (R397). -/
def MRing.reads (r : MRing) (mhi mlo : BitVec 12) : Bool :=
  let e := (mhi.toNat : Int) - mlo.toNat - 2 * r.detuning r.heat
  decide (512 < (r.detuning r.heat).natAbs) || decide (e.natAbs ≤ 8)
/-- The microsecond that ends ran whole at the present HEAT. -/
def MRing.whole (r : MRing) (cyc mhz : Nat) : Bool := decide (r.since + mhz ≤ cyc)
/-- Two readings that may come together, from two free values. -/
def MRing.readings (r : MRing) (a b : BitVec 12) : BitVec 12 × BitVec 12 :=
  let d := r.detuning r.heat
  if 512 < d.natAbs then (a, b)
  else
    let e := 2 * d - 8 + (a.toNat % 17 : Nat)
    let lo := (-e).toNat + b.toNat % (4096 - e.natAbs)
    (BitVec.ofInt 12 (lo + e), BitVec.ofNat 12 lo)
def MRing.monitored (r : MRing) (p : BitVec 12 × BitVec 12) : MRing := { r with mhi := p.1, mlo := p.2, mv := true }
/-- At the end of a microsecond: a new resonance, as free as the temperature, and the readings of a ring whose HEAT has stood. -/
def State.monitorTick (s : State) : State :=
  s.fab.rings.foldl (fun s p =>
    let (c, s) := s.draw 16
    let (a, s) := s.draw 12
    let (b, s) := s.draw 12
    let r := if p.2.whole s.cyc s.mhz then p.2.monitored (p.2.readings a b) else p.2
    { s with fab := { s.fab with rings := aset s.fab.rings p.1 { r with centre := c } } }) s
/-- The readings of a microsecond that ends in this cycle, as the photodiode averaged them. -/
def execMonitorUpdate (n : Nat) (mhi mlo : BitVec 12) (s : State) : Out :=
  let r : MRing := aget {} s.fab.rings n
  .next <|
    if s.cyc % s.mhz == 0 && r.whole s.cyc s.mhz && r.reads mhi mlo then
      { s with fab := { s.fab with rings := aset s.fab.rings n (r.monitored (mhi, mlo)) } }
    else s
/-- The ring that modulates a wavelength: the highest-numbered one in service on it (R398). -/
def Fabric.modRing (f : Fabric) (p j w : Nat) : Nat :=
  let l := (List.range 9).filter fun r => let m : MRing := aget {} f.rings (64 * p + 16 * j + r); m.svc && m.wl.toNat == w
  match l.getLast? with | some r => r + 1 | none => 0
/-- BOOT.CTL: CLR, once boot has ended (R391). -/
def execBootCtlWrite (v : Word) (s : State) : Out :=
  .next <|
    if s.svc.bst = 0 then s
    else
      { s with svc := { s.svc with steps := (List.range 16).foldl (fun l k =>
          if v.getLsbD (48 + k) then aset l k (aget 0 l k &&& ~~~0xF) else l) s.svc.steps } }

/-! ## Writes (R6, R301) -/

def nextOr (s : State) : Out → State
  | .next t => t
  | _ => s
def State.writeCtx (s : State) (n : Srn) (v : Word) : Except Nat State :=
  let w := n.word
  let run (o : Out) : Except Nat State := .ok (nextOr s o)
  if w = 0 then run (execCtxCfgWrite n.who v s)
  else if w = 1 then
    (if 1 < natBits v.toNat 2 2 then .error 4 else .ok (s.modCtx n.who fun c => { c with epriv := v.extractLsb' 2 2 }))
  else if w = 2 then .ok (s.modCtx n.who fun c => { c with epc := v.setWidth 50 })
  else if w = 3 then .ok (s.modCtx n.who fun c => { c with tvec := v.setWidth 50 })
  else if w = 0x80 then (if s.coreBusy n.core then .error 4 else run (execCtxCcfgWrite n.core v s))
  else if w < 0x140 then run (execRingcfgWrite n.core (w - 0x100) v s)
  else if w < 0x180 then run (execRingstWrite n.core (w - 0x140) v s)
  else if w = 0x180 then run (execPipclr n.core v s)
  else run (execPipWrite n.core (w - 0x200) v s)
def Flt.write (f : Flt) (w : Nat) (v : Word) : Flt :=
  match w with
  | 0 => if v.getLsbD 32 then { f with cause := f.cause &&& ~~~(1#64 <<< 32) } else f
  | 5 => { f with wawp := f.wawp && !v.getLsbD 0 }
  | 6 => { f with lrs := f.lrs && !v.getLsbD 1, derr := f.derr && !v.getLsbD 0 }
  | 0x10 => { f with sav0 := v }
  | 0x11 => { f with sav1 := v }
  | _ => f
def State.writeLnk (s : State) (w : Nat) (v : Word) : State :=
  if w < 0x200 then nextOr s (execDrawerSlotWrite (w / 256) (w % 256) v s)
  else if w < 0x280 then s.modPair (w - 0x200) fun p => { p with wakeq := v.extractLsb' 8 8, parkidle := v.extractLsb' 4 4 }
  else if w = 0x280 then
    { s with fab := { s.fab with stallto := v.extractLsb' 32 16, ctlto := v.extractLsb' 16 8, laser := v.extractLsb' 0 8 } }
  else if w < 0x2A0 then { s with fab := { s.fab with pown := aset s.fab.pown (w - 0x290) (v.setWidth 7) } }
  else nextOr s (execLnkRingWrite (w - 0x2000) v s)
def State.writePrt (s : State) (w : Nat) (v : Word) : State :=
  let k := w / 256
  let p := s.part k
  let r := w % 256
  if r < 64 then s.setPart k { p with fmtd := aset p.fmtd r ((v.setWidth 32) &&& 0xFFFF7FFF) }
  else if r = 0x40 then s.setPart k { p with ptroot := v &&& 0xFFFFFFF0001 }
  else if r = 0x42 then nextOr s (execPrtCtlWrite k v s)
  else if r = 0x43 then nextOr s (execPrtOwnWrite k v s)
  else if r = 0x44 then s.setPart k { p with save := v &&& ~~~0xFFF }
  else s
/-- A write to a register that `regRead` names; an error is a cause of the privileged-instruction trap. -/
def State.regWrite (s : State) (n : Srn) (v : Word) : Except Nat State :=
  if n.group == gCTX then s.writeCtx n v
  else if n.group == gFLT then .ok (s.modCtx n.who fun c => { c with flt := c.flt.write n.word v })
  else if n.group == gTCH then .ok (if n.word = 0 then nextOr s (execTchOpenWrite n.who v s) else s)
  else if n.group == gPWR || n.group == gCLK || n.group == gOFS || n.group == gSLT then .error 4
  else if n.group == gLNK then .ok (s.writeLnk n.word v)
  else if n.group == gSWQ then
    (if n.word = 0 then .ok (if v.getLsbD 15 then { s with fab := { s.fab with swErr := false } } else s) else .error 4)
  else if n.group == gPRT then .ok (s.writePrt n.word v)
  else if n.group == gKEY then .ok { s with svc := { s.svc with stage := aset s.svc.stage n.word v } }
  else .ok (if n.word = 16 then nextOr s (execBootCtlWrite v s) else s)

/-- One register write takes effect. -/
def State.putReg (s : State) (w : Nat × Nat × Word) : State :=
  match s.regWrite (srnOf w.2.1) w.2.2 with
  | .ok t => t
  | .error _ => s
/-- The registers as an access sees them, every write performed (R299). -/
def State.written (s : State) : State := s.regw.foldl State.putReg { s with regw := [] }
/-- Writes to some registers that have performed in this tick take effect ahead of an operation that sees them, and overwrite nothing that it
does (R299). -/
def State.landWhere (s : State) (p : Srn → Bool) : State :=
  (s.regw.filter fun w => p (srnOf w.2.1)).foldl State.putReg { s with regw := s.regw.filter fun w => !p (srnOf w.2.1) }
/-- The writes that the contexts of a core have performed take effect for their places: the tick is over (R301). -/
def State.landRegs (s : State) (core : Nat) : State :=
  (s.regw.filter fun w => coreOf w.1 == core).foldl State.putReg { s with regw := s.regw.filter fun w => coreOf w.1 != core }
/-- A write that clears a ring's EN acts at once (R63). -/
def State.atOnce (s : State) (n : Srn) (v : Word) : Bool :=
  n.group == gCTX && decide (0x100 ≤ n.word) && decide (n.word < 0x140) && (s.ring n.core (n.word - 0x100)).en && !v.getLsbD 37

/-- The cause that an access to a register raises before it performs (R291, R293, R294). -/
def State.regCause (s : State) (who : Nat) (n : Srn) (write : Bool) : Option Nat :=
  let l := s.level who
  if l = 0 then some 1
  else if n.group = 0 || 12 < n.group then some 3
  else if l < (if write then writeLevel n.group else readLevel n.group) then some 1
  else if (s.regRead n).isNone then some 3
  else if l = 1 && !s.ownsPlace (s.partOf who) n then some 2
  else none
/-- A write of a register that has no behaviour of its own, or of one that has, by its number (R301). -/
def execSysregWrite (srn : BitVec 32) (v : Word) (s : State) : Out :=
  let n := srnOf srn.toNat
  .next <|
    match s.regRead n with
    | none => s
    | some _ => match s.regWrite n v with | .ok t => t | .error _ => s

end Sys2Proof.Machine
end

