-- ==== Sys2Proof/Machine/Power.lean ====
section
/-! DEFINITION. Rails, votes, pulse patterns, sensors, telemetry and watchdogs (R377 to R384, R307, R308). -/

namespace Sys2Proof.Machine

/-! ## The rail (R377 to R380) -/

/-- Least voltage of `n` pulses per frame, in mV (R378): at 1.6 GHz the frequency ratio is 4/5. -/
def vmin (slow : Bool) (n : Nat) : Nat := if slow then 550 + 16 * (n - 1) else 550 + 20 * (n - 1)
/-- The largest number of pulses a voltage permits. -/
def pmax (slow : Bool) (x : Nat) : Nat := (List.range 15).foldl (fun m i => if vmin slow (i + 2) ≤ x then i + 2 else m) 1
/-- Some sensor of the die reads at or above TCRIT. -/
def Die.hot (d : Die) : Bool := d.sens.any fun p => decide (d.tcrit ≤ p.2.1)
/-- PMAXN as the rail sets it: by V while steady or rising, by T on the way down, at most 4 while the die is hot. -/
def Die.pulses (d : Die) (slow : Bool) : Nat :=
  let n := pmax slow (if d.rstate = 0 ∨ d.rstate = 1 then d.vnow else d.tgt)
  if d.hot then Nat.min n 4 else n
/-- The rows of a die. -/
def rowsOf (die : Nat) : List Nat := (List.range 4).map fun r => die * 4 + r
/-- Writes CLK.PAT.PMAXN of every row of a die; a row whose PMAXN changes has still to report fitted. -/
def State.setPulses (s : State) (die : Nat) : State :=
  let n := BitVec.ofNat 4 ((s.die die).pulses s.svc.slow)
  (rowsOf die).foldl (fun s r =>
    let x := s.row r
    if x.pmaxn = n then s else s.setRow r { x with pmaxn := n, fitted := false }) s
def State.unfit (s : State) (die : Nat) : State := (rowsOf die).foldl (fun s r => s.setRow r { s.row r with fitted := false }) s
def State.allFitted (s : State) (die : Nat) : Bool := (rowsOf die).all fun r => (s.row r).fitted
/-- The highest active vote, or 550 mV. -/
def Die.voted (d : Die) : Nat :=
  let m := d.votes.foldl (fun a p => Nat.max a p.2.toNat) 0
  if m = 0 then 550 else m
/-- The rail takes a new T: its next state (R380). -/
def Die.retarget (d : Die) : Die :=
  let t := d.voted
  let d := { d with tgt := t }
  match d.rstate with
  | 0 => if d.vnow < t then { d with rstate := 1, timer := 0 } else if t < d.vnow then { d with rstate := 2, timer := 0 } else d
  | 1 => if t < d.vnow then { d with rstate := 2, timer := 0 } else d
  | _ => if d.vnow < t then { d with rstate := 1, timer := 0 } else if t = d.vnow then { d with rstate := 0, timer := 0 } else d
/-- Master cycles per mV: 10 mV/µs up, 5 mV/µs down. -/
def riseStep (slow : Bool) : Nat := if slow then 160 else 200
def fallStep (slow : Bool) : Nat := if slow then 320 else 400
/-- One master cycle of a rail: the new T first, then V or the hold timer. -/
def State.railTick (s : State) (die : Nat) : State :=
  let d := s.die die
  let s := if d.voted = d.tgt then s
    else
      let t := d.retarget
      let s := (s.setDie die t).setPulses die
      if t.rstate = 2 && d.rstate != 2 || t.rstate = 4 then s.unfit die else s
  let d := s.die die
  let n := d.timer + 1
  if d.rstate = 1 && decide (d.vnow < d.tgt) then
    s.setDie die (if riseStep s.svc.slow ≤ n then { d with vnow := d.vnow + 1, timer := 0 } else { d with timer := n })
  else if d.rstate = 4 && decide (d.tgt < d.vnow) && s.allFitted die then
    s.setDie die (if fallStep s.svc.slow ≤ n then { d with vnow := d.vnow - 1, timer := 0 } else { d with timer := n })
  else if d.rstate = 3 then s.setDie die { d with timer := n }
  else s

/-- A rising rail has passed a threshold. -/
def execRailVminCrossing (die : Nat) (s : State) : Out := .next (if (s.die die).rstate = 1 then s.setPulses die else s)
def execRailReachesTarget (die : Nat) (s : State) : Out :=
  let d := s.die die
  .next (if (d.rstate = 1 || d.rstate = 4) && d.vnow == d.tgt then (s.setDie die { d with rstate := 0, timer := 0 }).setPulses die else s)
/-- In FIT the hold timer starts; in SLEW the fall goes on. -/
def execRowsFitted (die : Nat) (s : State) : Out :=
  let d := s.die die
  .next (if d.rstate = 2 && s.allFitted die then s.setDie die { d with rstate := 3, timer := 0 } else s)
def execRailHoldExpiry (die : Nat) (s : State) : Out :=
  let d := s.die die
  .next (if d.rstate = 3 && decide (2000 * s.mhz ≤ d.timer) then s.setDie die { d with rstate := 4, timer := 0 } else s)

/-! ## Patterns (R307, R378) -/

/-- Keeps the `n` lowest-numbered set bits of a pattern. -/
def fitPat (p : BitVec 16) (n : Nat) : BitVec 16 :=
  ((List.range 16).foldl (fun (a : BitVec 16 × Nat) i => if p.getLsbD i && decide (a.2 < n) then (a.1 ||| (1#16 <<< i), a.2 + 1) else a) (0, 0)).1
/-- Most pulses per frame: 0 stands for 16. -/
def Row.most (r : Row) : Nat := if r.pmaxn = 0 then 16 else r.pmaxn.toNat
def popc16 (p : BitVec 16) : Nat := ((List.range 16).filter p.getLsbD).length
/-- At a frame boundary every row takes the part of PAT that fits and reports fitted. -/
def execFrameBoundary (die : Nat) (s : State) : Out :=
  .next <|
    if s.cyc % 16 != 0 then s
    else (rowsOf die).foldl (fun s r => let x := s.row r; s.setRow r { x with patcur := fitPat x.pat x.most, fitted := true }) s
/-- Pulse of a row in the present master cycle. -/
def State.pulse (s : State) (row : Nat) : Bool := (s.row row).patcur.getLsbD (s.cyc % 16)

/-! ## Sensors (R312, R381) -/

/-- A sensor takes a reading; the reading, its maximum, and what the thresholds make of it. -/
def State.sample (s : State) (die n : Nat) (temp : BitVec 16) : State :=
  let d := s.die die
  let (_, tmax, _, armed) := aget (0, 0, 0, true) d.sens n
  let alert := decide (d.talert ≤ temp) && armed
  let back := decide (temp.toNat + 64 < d.talert.toNat)
  let d' := { d with sens := aset d.sens n (temp, if tmax < temp then temp else tmax, 0, if alert then false else armed || back) }
  let s := s.setDie die d'
  let s := if d.hot = d'.hot then s else s.setPulses die
  if alert then s.hwEvent 4 (die * 64) n else s
def execThermalAlert (die n : Nat) (temp : BitVec 16) (s : State) : Out :=
  .next (if decide ((s.die die).talert ≤ temp) && decide (n < 16) then s.sample die n temp else s)
def execThermalTrip (die n : Nat) (temp : BitVec 16) (s : State) : Out :=
  .next (if decide ((s.die die).tcrit ≤ temp) && decide (n < 16) then s.sample die n temp else s)
def execSensorBelowThreshold (die n : Nat) (temp : BitVec 16) (s : State) : Out :=
  let d := s.die die
  .next (if (decide (temp < d.tcrit) || decide (temp.toNat + 64 < d.talert.toNat)) && decide (n < 16) then s.sample die n temp else s)
def execTelemetryPoll (die : Nat) (pavg vavg : BitVec 16) (s : State) : Out :=
  .next (s.modDie die fun d => { d with pavg := pavg, vavg := vavg, tage := 0 })
/-- Ages count microseconds and saturate. -/
def satInc (a : BitVec 16) : BitVec 16 := if a = 0xFFFF then a else a + 1
def Die.ageTick (d : Die) : Die :=
  { d with tage := satInc d.tage, sens := d.sens.map fun p => (p.1, p.2.1, p.2.2.1, satInc p.2.2.2.1, p.2.2.2.2) }

/-! ## Watchdogs (R384) -/

def execWatchdogExpiry (who : Nat) (s : State) : Out :=
  let c := coreOf who
  let r := s.row (rowOf c)
  .next (if !isFw who && (s.ctx who).inst.isSome && decide (2 ^ 30 ≤ (s.ctx who).idle) then
    s.setRow (rowOf c) { r with wdog := r.wdog ||| (1#64 <<< (4 * rankOf c + ctxOf who)) } else s)

/-! ## What firmware asks for (R307, R308) -/

/-- A vote, clamped. -/
def Die.vote (d : Die) (v m : Nat) : Die :=
  let c := if m = 0 then 0 else Nat.min (Nat.max m 550) 850
  { d with votes := aset d.votes v (BitVec.ofNat 16 c), clamped := aset d.clamped v (decide (m ≠ 0) && decide (c ≠ m)) }
/-- A pattern is refused when it is empty or has too many pulses. -/
def Row.takes (r : Row) (p : BitVec 16) : Bool := p != 0 && decide (popc16 p ≤ r.most)

end Sys2Proof.Machine
end

