-- ==== Sys2Proof/Machine/Fabric.lean ====
section
/-! DEFINITION. Link pairs, the drawer rondel, the switch, sends and receives (R359 to R376, R209, R210). -/

namespace Sys2Proof.Machine

/-! ## Time (R360) -/

/-- The package end's slot-phase counter of a pair. -/
def State.counter (s : State) (p : Nat) : BitVec 32 := BitVec.ofNat 32 s.ltime + (s.pair p).phase
/-- Master cycles as nanoseconds. -/
def State.ns (s : State) (cycles : Nat) : Nat := cycles * 1000 / s.mhz
/-- The far end's slot-phase counter of a pair; a drawer's governs its pairs. -/
def State.farCounter (s : State) (p : Nat) : BitVec 32 := BitVec.ofNat 32 s.ltime + (s.pair p).far
/-- A slot boundary of a pair. -/
def State.atSlot (s : State) (p : Nat) : Bool := (if p < 64 then s.farCounter p else s.counter p).toNat % 32 == 0
/-- What the lasers run at, in units of 10 mW (R15, R363). -/
def Fabric.laserPower (f : Fabric) : BitVec 8 := if f.lasercap < f.laser then f.lasercap else f.laser

/-! ## Link states (R362) -/

/-- Lit wavelengths of a lane group (R361). -/
def Pair.lanes (p : Pair) : Nat := match p.state.toNat with | 2 => 8 | 3 => 2 | 4 => 2 | 6 => 8 | _ => 0
/-- Lane group and link pair of a drawer's unit (R359). -/
def laneOf (unit : Nat) : Nat := unit % 2 ^ 38 % 128
def reqPair (r : DReq) : Nat := 32 * r.drawer + laneOf r.unit / 4
/-- The send of a flit that is asked for again is open (R372). -/
def State.open' (s : State) (x : Nat × Nat × Nat) : Bool := s.cmds.any fun c => c.opc == 0x08 && c.port == x.1 && c.sq == x.2.1
/-- Units that wait for grants on a drawer pair, and flits of sends that wait on a peer pair (R365). -/
def State.queued (s : State) (p : Nat) : Nat :=
  if p < 64 then (s.fab.reqs.filter fun r => reqPair r == p && r.left.isNone && !r.done && !r.dropped).length
  else
    let ports := (List.range (s.fab.swN + 1)).filterMap fun j => allotted (aget 0 s.fab.swslots j) p
    (s.cmds.filter fun c => c.opc == 0x08 && ports.contains c.port).foldl (fun a c => a + (c.flits - c.sent)) 0 +
      ((s.fab.resends ++ s.fab.again).filter fun x => ports.contains x.1 && s.open' x).length
/-- Granted units of a drawer pair whose data has still to cross from the drawer's end. A peer's own queue is not the package's to
see. -/
def State.queuedFar (s : State) (p : Nat) : Nat :=
  (s.fab.reqs.filter fun r => decide (p < 64) && reqPair r == p && r.kind == 0 && r.left.isSome && !r.done && !r.dropped).length
/-- A pair enters a state, and firmware hears of it. -/
def State.setLink (s : State) (p : Nat) (st : BitVec 3) (f : Pair → Pair := id) : State :=
  let enter (x : Pair) : Pair := { f x with state := st, since := 0, idle := 0, errs := 0, tries := 0, parkReq := false, stalled := [] }
  (s.modPair p enter).hwEvent 5 0 p
/-- Units of a pair that were granted and whose data has not arrived wait again (R366); a write's data has crossed. -/
def State.regrant (s : State) (p : Nat) : State :=
  let again (r : DReq) : Bool := reqPair r == p && decide (p < 64) && r.kind == 0 && !r.done && r.left != some 0
  { s with fab := { s.fab with reqs := s.fab.reqs.map fun r => if again r then { r with left := none } else r } }
/-- Every context with an access on the pair records one stall for each retrain (R353, R366). -/
def State.stallAll (s : State) (p : Nat) : State :=
  let hit (r : DReq) : Bool := decide (p < 64) && reqPair r == p && !r.done && !r.dropped && r.left.isNone
  let whos := ((s.fab.reqs.filter hit).map (·.who)).eraseDups.filter fun w => !(s.pair p).stalled.contains w
  (whos.foldl (fun s w => s.noteStall w p) s).modPair p fun x => { x with stalled := x.stalled ++ whos }
def State.toRetrain (s : State) (p : Nat) : State := ((s.setLink p 5).regrant p).stallAll p
def State.toDown (s : State) (p fail : Nat) : State := (s.setLink p 0 fun x => { x with fail := BitVec.ofNat 4 fail }).regrant p
/-- A `lnk` command: the new state, or `none` where the table has no row for the present one. -/
def State.lnk (s : State) (p cmd : Nat) : Option State :=
  let st := (s.pair p).state
  if 128 ≤ p then none
  else
    match cmd with
    | 0 => if st = 0 then some (s.setLink p 1) else none
    | 1 => if st = 2 then some (s.modPair p fun x => { x with parkReq := true }) else none
    | 2 => if st = 3 then some (s.setLink p 4) else none
    | 3 => if st = 2 ∨ st = 3 ∨ st = 4 then some (s.toRetrain p) else none
    | 4 => if st = 0 then none else some (s.toDown p 4)
    | _ => if st = 6 then some (s.toRetrain p) else none
/-- Training puts rings 0 to 7 of every lane group in service, ring r on wavelength r, and leaves the spare out (R395). -/
def Fabric.trainRings (f : Fabric) (p : Nat) : Fabric :=
  let l := (List.range 4).foldl (fun l j => (List.range 9).foldl (fun l r =>
    let n := 64 * p + 16 * j + r
    aset l n { (aget {} l n : MRing) with svc := decide (r < 8), wl := if r < 8 then BitVec.ofNat 3 r else (aget {} l n : MRing).wl }) l) f.rings
  let f := { f with rings := l }
  { f with heatw := (List.range 32).foldl (fun l k => aset l (p * 32 + k) (f.modRing p (k / 8) (k % 8))) f.heatw,
           attached := if p < 64 then aset f.attached (p / 32) true else f.attached }
/-- PHERR is measured: where the far end's count is not the package's to step, the counts differ by what was measured (R360, R362). -/
def Pair.measured (x : Pair) (p : Nat) (e : BitVec 12) : Pair :=
  let e : BitVec 32 := (if e = 0x800 then (0x801 : BitVec 12) else e).signExtend 32
  if p < 64 then { x with phase := x.far + e } else { x with far := x.phase - e }
/-- A pair locks in time. A drawer whose pair has locked is attached. -/
def execLockAchieved (p : Nat) (pherr : BitVec 12) (s : State) : Out :=
  .next <|
    if (s.pair p).state == 1 && decide (s.ns (s.pair p).since ≤ 50000) && decide (p < 128) then
      let s := s.setLink p 2 fun x => { x.measured p pherr with errc := 0 }
      { s with fab := s.fab.trainRings p }
    else s
def execTrainTimeout (p : Nat) (s : State) : Out :=
  .next (if (s.pair p).state == 1 && decide (50000 ≤ s.ns (s.pair p).since) then s.toDown p 1 else s)
/-- A pair parks at a slot boundary: firmware asked, or it has been idle for PARKIDLE rondels. -/
def Pair.parks (s : State) (p : Pair) : Bool :=
  p.state == 2 && (p.parkReq || (p.parkidle != 0 && decide (p.parkidle.toNat * 8192 ≤ s.ns p.idle)))
def execParkIdle (p : Nat) (s : State) : Out :=
  .next (if Pair.parks s (s.pair p) && s.atSlot p then s.setLink p 3 else s)
/-- Flits queued at an end reach WAKEQ. -/
def State.wakes (s : State) (p : Nat) : Bool := decide ((s.pair p).wakeq.toNat ≤ Nat.max (s.queued p) (s.queuedFar p))
/-- A parked pair wakes. On a peer pair the event may report the far end's queue, which only the peer sees (log 97). -/
def execWakeThreshold (p : Nat) (s : State) : Out :=
  .next (if (s.pair p).state == 3 && (decide (64 ≤ p) || s.wakes p) then s.setLink p 4 else s)
def execWakeComplete (p : Nat) (s : State) : Out :=
  .next (if (s.pair p).state == 4 && decide (1024 ≤ s.ns (s.pair p).since) && s.atSlot p then s.setLink p 2 else s)
/-- Eight unanswered control attempts, or 256 flit errors within one rondel, as the package counts them. -/
def Pair.failing (x : Pair) : Bool := decide (8 ≤ x.tries) || decide (256 ≤ x.errs)
/-- A failing pair goes into retrain. The control flits and flit errors of a drawer pair pass between the interposer and the drawer
alone: there the event reports the count (log 97). -/
def execRetrainTrigger (p : Nat) (s : State) : Out :=
  .next (if (s.pair p).lit && (decide (p < 64) || (s.pair p).failing) then s.toRetrain p else s)
/-- Lock achieved within 64 rondels: stalled accesses are granted again. -/
def execRetrainLock (p : Nat) (s : State) : Out :=
  .next <|
    if (s.pair p).state == 5 && decide (s.ns (s.pair p).since ≤ 64 * 8192) then
      let s := s.setLink p 2
      { s with fab := { s.fab with reqs := s.fab.reqs.map fun r => if reqPair r = p then { r with stall := 0 } else r } }
    else s
def execRetrainTimeout (p : Nat) (s : State) : Out :=
  .next (if (s.pair p).state == 5 && decide (64 * 8192 ≤ s.ns (s.pair p).since) then s.toDown p 2 else s)
def execRxLightLoss (p : Nat) (s : State) : Out :=
  .next (if (s.pair p).state = 0 ∨ (s.pair p).state = 6 then s else (s.setLink p 6 fun x => { x with fail := 3 }).regrant p)
def execTxLightLoss (p : Nat) (s : State) : Out := .next (if (s.pair p).state = 0 then s else s.toDown p 3)

/-! ## What the modulators carry (R361, R398) -/

/-- A lane group changes its modulators once a flit boundary has passed since the write; a flit takes 8 / w ns. -/
def execModulatorChangeover (p j : Nat) (s : State) : Out :=
  let f := s.fab
  let k := 8 / (s.pair p).lanes
  let flit (ns : Nat) : Nat := (BitVec.ofNat 32 ns + (s.pair p).phase).toNat / k
  .next <|
    if f.chg.any fun c => c.1 == p && c.2.1 == j && (k == 0 || flit c.2.2 != flit s.ltime) then
      { s with fab := { f with chg := f.chg.filter fun c => !(c.1 == p && c.2.1 == j),
                               heatw := (List.range 8).foldl (fun l w => aset l ((p * 4 + j) * 8 + w) (f.modRing p j w)) f.heatw } }
    else s
/-- Lit wavelengths of a lane group, ascending. -/
def Pair.litWaves (x : Pair) : List Nat := (List.range 8).filter fun w => x.lanes == 8 || (x.lanes == 2 && w % 4 == 0)
/-- A wavelength carries nothing good: no ring modulates it, or its ring is off resonance, which `b` says of one that is not
centred (log 106). -/
def Fabric.mute (f : Fabric) (p j w : Nat) (b : Bool) : Bool :=
  match aget 0 f.heatw ((p * 4 + j) * 8 + w) with
  | 0 => true
  | r + 1 =>
    let n := 64 * p + 16 * j + r
    b && decide ((aget {} f.rings n : MRing).detuning (aget 0 f.heat n) ≠ 0)
/-- Bits of a flit that a lane group corrupts: the shares of its mute wavelengths. -/
def State.lostBits (s : State) (p j : Nat) (b : BitVec 8) : Nat :=
  let ws := (s.pair p).litWaves
  let k := 512 / ws.length
  (ws.zip (List.range ws.length)).foldl (fun a w => if s.fab.mute p j w.1 (b.getLsbD w.1) then a ||| ones k <<< (k * w.2) else a) 0
/-- A pair counts a flit that is to be sent again. -/
def State.flitError (s : State) (p : Nat) : State := s.modPair p fun x => { x with errc := satInc x.errc, errs := x.errs + 1, idle := 0 }
/-- What a unit's data that crosses to a drawer comes to: a corrupted flit is counted and sent again, as a grant anew (log 106). -/
def State.cross (s : State) (r : DReq) : DReq × State :=
  let p := reqPair r
  let (b, s) := s.draw 8
  if s.lostBits p (laneOf r.unit % 4) b = 0 then (r, s) else ({ r with left := none }, s.flitError p)
/-- The requests after a slot's grants, each with what it was before: the data of a write or a step granted now crosses. -/
def State.crossAll (s : State) : List (DReq × DReq) → List DReq × State
  | [] => ([], s)
  | (a, b) :: l =>
    let (b, s) := if a.left.isNone && b.left.isSome && b.kind != 0 then s.cross b else (b, s)
    let (l, s) := s.crossAll l
    (b :: l, s)

/-! ## Ending an engine command (R204) -/

def ECmdRec.record (r : ECmdRec) (status : Nat) : Nat :=
  r.tag.toNat * 2 ^ 48 + Nat.min r.units (2 ^ 32 - 1) * 2 ^ 16 + r.opc * 256 + status
/-- A command is over: its rings' credits, its pages, its queues and its record. -/
def State.endCmd (s : State) (r : ECmdRec) (status : Nat) : State :=
  let s := match r.srcRing with | some (c, n) => s.modRing c n fun q => q.credit 1 0 false r.id | none => s
  let s := match r.dstRing with | some (c, n) => s.modRing c n fun q => q.credit 0 1 false r.id | none => s
  let s := s.setPart r.part ((s.part r.part).undefer none (some r.id))
  let s := s.modDie (dieOfWho r.who) fun d => { d with sends := d.sends.map fun p => (p.1, p.2.filter fun i => i != r.id) }
  let gone (q : DReq) : Bool := r.gates.contains q.id || q.cmd == some r.id
  let f := { s.fab with carried := s.fab.carried.filter fun c => !(r.opc == 0x08 && c.1 == r.port && c.2.1 == r.sq),
                        reqs := s.fab.reqs.filter fun q => !gone q, recvs := s.fab.recvs.map fun p => (p.1, p.2.filter fun i => i != r.id) }
  let s := { s with cmds := s.cmds.filter (fun c => c.id != r.id), fab := f }
  if r.nq then s.quietDone r.id else s.deliver r.who 2 r.id (r.record status)
def State.cmd (s : State) (id : Nat) : Option ECmdRec := s.cmds.find? fun c => c.id == id
def State.setCmd (s : State) (r : ECmdRec) : State := { s with cmds := s.cmds.map fun c => if c.id = r.id then r else c }

/-! ## The drawer rondel (R364 to R367) -/

/-- Two requests of one access. -/
def DReq.same (a b : DReq) : Bool := a.cmd == b.cmd && (a.cmd.isSome || (a.pc == b.pc && a.sl == b.sl && a.order == b.order))
/-- The reads of the request's command have been answered. -/
def State.sourced (s : State) (r : DReq) : Bool :=
  r.kind != 1 || r.cmd.isNone || r.mask != 0 || s.fab.reqs.all fun q => !(q.cmd == r.cmd && q.kind == 0 && !q.done && !q.dropped)
/-- A request qualifies in a slot with this entry. -/
def State.qualifies (s : State) (d : Nat) (e : BitVec 12) (r : DReq) : Bool :=
  r.drawer == d && r.left.isNone && !r.done && !r.dropped && e.getLsbD 11 && (e.setWidth 6).toNat == r.part &&
  (e.getLsbD 10 || natBits e.toNat 6 4 == r.cls) && s.sourced r && !((s.pair (reqPair r)).state == 6 && r.kind == 0)
/-- Grants in order of arrival, at most 4w units for each lane group: the units granted so far come along. -/
def State.grantAll (s : State) (d : Nat) (e : BitVec 12) : List DReq → List (Nat × Nat) → List DReq
  | [], _ => []
  | r :: l, used =>
    let g := laneOf r.unit
    if s.qualifies d e r && decide (aget 0 used g < 4 * (s.pair (reqPair r)).lanes) then
      { r with left := some (if r.kind = 0 then 48 else 49) } :: s.grantAll d e l (aset used g (aget 0 used g + 1))
    else r :: s.grantAll d e l used
/-- `a` reached the drawer no later than `b`: requests of one link cycle go in ascending die order (R364). -/
def State.noLater (s : State) (a b : DReq) : Bool :=
  let t (r : DReq) : Nat := r.order * 1000 / s.mhz
  decide (t a < t b) || (t a == t b && decide (a.die ≤ b.die))
/-- Puts a request into a list in order of arrival. -/
def State.arrange (s : State) (r : DReq) : List DReq → List DReq
  | [] => [r]
  | h :: l => if s.noLater r h then r :: h :: l else h :: s.arrange r l
/-- A slot of a drawer's rondel begins: granted units come nearer, slot 0 takes the new entries, and units are granted. -/
def execDrawerSlot (d : Nat) (s : State) : Out :=
  let n := aget 0 s.fab.dslot d
  .next <|
    if s.ltime < 32 * n || 2 ≤ d then s
    else
      let f := s.fab
      let mine := f.slotw.filter fun w => w.1 == d
      let put (l : List (Nat × BitVec 12)) : List (Nat × BitVec 12) := mine.foldl (fun l w => aset l w.2.1 w.2.2) l
      let f := if n % 256 != 0 then f
        else if d = 0 then { f with d0slot := put f.d0slot, slotw := f.slotw.filter fun w => w.1 != d }
        else { f with d1slot := put f.d1slot, slotw := f.slotw.filter fun w => w.1 != d }
      let near := f.reqs.map fun r => if r.drawer = d then { r with left := r.left.map (· - 1) } else r
      let e := aget 0 (if d = 0 then f.d0slot else f.d1slot) (n % 256)
      let old := near.foldr s.arrange []
      let (l, t) := { s with fab := { f with dslot := aset f.dslot d (n + 1) } }.crossAll (old.zip (s.grantAll d e old []))
      { t with fab := { t.fab with reqs := l } }

/-- Two requests of a context that perform in order: of one class (R190), or two own accesses of one unit (R246). -/
def DReq.inOrder (a b : DReq) : Bool := a.who == b.who && (a.cls == b.cls || (a.cmd.isNone && b.cmd.isNone && a.unit == b.unit))
/-- A request may perform: its slots have passed, and no earlier access that it follows is still open. -/
def State.mayPerform (s : State) (r : DReq) : Bool :=
  r.left == some 0 && !r.done && !r.dropped &&
  (s.fab.reqs.takeWhile fun q => q.id != r.id).all fun q =>
    !(q.inOrder r && !q.done && !q.dropped && !q.same r)
def State.req (s : State) (id : Nat) : Option DReq := s.fab.reqs.find? fun r => r.id == id
def State.setReq (s : State) (r : DReq) : State :=
  { s with fab := { s.fab with reqs := s.fab.reqs.map fun q => if q.id = r.id then r else q } }
/-- A load whose last unit has arrived performs: its value is fixed (R190, R249). -/
def State.fixLoads (s : State) (who : Nat) : State :=
  s.modCtx who fun c => { c with fly := c.fly.map fun f =>
    match f.late with
    | some l => if f.fixed || !s.answered f.gate then f
                else { f with val := (s.lateValue who l).1, flg := (s.lateValue who l).2, fixed := true }
    | none => f }
/-- Lane width of what a load writes. -/
def Late.width (l : Late) : Nat :=
  match l.op with
  | .ldT _ _ _ _ dt dc _ | .ldV _ _ _ _ dt dc => if dc then (decTy dt).width else dWidth l.fmt
  | _ => dWidth l.fmt
/-- Bits of a load's lanes whose data has returned: every unit of the element and of its scale. -/
def State.lanesBack (s : State) (f : Fly) (l : Late) : Nat :=
  let back (o : Option Elem) : Bool := o.all fun e => e.units.all fun u => s.fab.reqs.all fun q => !(f.gate.contains q.id && q.unit == u && !q.done)
  (List.range l.elems.length).foldl (fun a i =>
    if back (l.elems.getD i none) && back (l.scales.getD i none) then a ||| ones l.width <<< (l.width * i) else a) 0
/-- Arrival mode: the lanes that have returned are written to the window, which an undo image may have to precede (R51). -/
def State.writeLanes (s : State) (who id : Nat) : State :=
  match (s.ctx who).fly.find? fun f => f.arr && f.gate.contains id with
  | some f =>
    match f.late, f.dst with
    | some l, .win off =>
      let bm := s.lanesBack f l &&& (f.bm ^^^ (f.bm &&& (s.ctx who).covered f))
      if (s.ctx who).susp then s
      else if s.undoFull who off f.size bm then s.takeTrap who ⟨21, 0, 0⟩ f.slot.num f.pc
      else s.writeWin who off f.size (s.lateValue who l).1 bm
    | _, _ => s
  | none => s
/-- A flit of a pair may have been corrected, which ERRC counts (R363). -/
def State.corrected (s : State) (p : Nat) : State :=
  let (b, s) := s.draw 1
  s.modPair p fun x => { x with errc := if b = 1 then satInc x.errc else x.errc }
/-- A unit that a load has asked for performs: the load keeps it as it stands now (R246). -/
def State.takeUnit (s : State) (r : DReq) : State :=
  let keep (l : Late) : Late := { l with got := l.got ++ s.taken (l.elems.filterMap id ++ l.scales.filterMap id) (· == r.unit) }
  s.modCtx r.who fun c =>
    { c with fly := c.fly.map fun (f : Fly) => { f with late := if f.gate.contains r.id then f.late.map keep else f.late } }
def execDrawerReadDataPlaced (id : Nat) (s : State) : Out :=
  .next <|
    match s.req id with
    | some r =>
      if r.kind = 0 && s.mayPerform r then
        ((((s.takeUnit r).setReq { r with done := true }).corrected (reqPair r)).writeLanes r.who id).fixLoads r.who
      else s
    | none => s
/-- A unit that a command reads as zero: uncorrectable, or dropped by a dead link (R204, R367). -/
def State.zeroUnit (s : State) (id u : Nat) : Bool :=
  s.bad.contains u || s.fab.reqs.any fun r => r.cmd == some id && r.kind == 0 && r.unit == u && r.dropped
/-- Moves elements of a command. -/
def State.moveAll (s : State) (r : ECmdRec) (l : List (Elem × Elem)) : State :=
  l.foldl (fun s m => s.putElem m.2 (if m.1.units.any (s.zeroUnit r.id) then 0 else s.elem m.1)) s
def State.putOut (s : State) (kind port seq flit : Nat) (d : BitVec 512) : State :=
  { s with fab := { s.fab with out := (kind, port, seq, flit, d) :: s.fab.out } }
/-! Arms whose data is in memory or on its way there (R210, R373). -/

/-- Places one flit into an arm's box at 64 times its number; what lies beyond the box is dropped (STATUS 6). -/
def State.placeFlit (s : State) (r : ECmdRec) (i : Nat) (d : BitVec 512) : State :=
  match r.moves with
  | [] => s.setCmd { r with status := 6, placed := r.placed ++ [i] }
  | m :: _ =>
    let k := 512 / m.1.w
    let es := (((r.moves.drop (i * k)).take k).map (·.1)).zip (List.range k)
    let s := s.setCmd { r with status := if es.length < k then 6 else r.status, placed := r.placed ++ [i] }
    let near := es.filter fun e => (drawerOf (e.1.addr / 8)).isNone
    let s := near.foldl (fun s e => s.putElem e.1 (elemAt d.toNat m.1.w e.2)) s
    (unitsOf (es.map (·.1))).foldl (fun s u =>
      match drawerOf (u * 64) with
      | none => s
      | some dr =>
        let mine := es.filter fun e => e.1.addr / 512 == u
        let v := mine.foldl (fun a e => a ||| (elemAt d.toNat m.1.w e.2) <<< (e.1.addr % 512)) 0
        let b := mine.foldl (fun a e => a ||| ones m.1.w <<< (e.1.addr % 512)) 0
        let (id, s) := s.newId
        { s with fab := { s.fab with reqs := s.fab.reqs ++
          [{ id := id, drawer := dr, unit := u, part := r.part, cls := r.cls, kind := 1, who := r.who, die := dieOfWho r.who,
             val := v, mask := b, key := (mine.headD (m.1, 0)).1.key, cmd := some r.id, order := s.cyc }] } }) s
def State.setXfer (s : State) (x : Xfer) : State :=
  { s with fab := { s.fab with xfers := s.fab.xfers.map fun y => if y.port = x.port ∧ y.seq = x.seq then x else y } }
/-- The oldest arm of a queue that no transfer fills yet. -/
def State.freeArm (s : State) (rq : Nat) : Option Nat :=
  (aget [] s.fab.recvs rq).find? fun id => !s.fab.xfers.any fun x => x.arm == some id
/-- Gives the oldest waiting transfer of a queue its arm, and places what it holds. -/
def State.giveArm (s : State) (x : Xfer) : State :=
  match x.arm, s.freeArm x.rq with
  | none, some id =>
    let s := s.setXfer { x with arm := some id, flits := [], got := x.got ++ x.flits.map (·.1) }
    x.flits.foldl (fun s f => match s.cmd id with | some r => s.placeFlit r f.1 f.2 | none => s) s
  | _, _ => s
/-- A transfer is whole: its notice is the next of its port, every flit is placed and every drawer write has performed. -/
def State.whole (s : State) (x : Xfer) : Bool :=
  match x.notice, x.arm with
  | some n, some id =>
    decide (x.seq = aget 0 s.fab.recvSeq x.port) && (List.range n).all (fun i => x.got.contains i) &&
    s.fab.reqs.all fun r => !(r.cmd == some id && !r.done && !r.dropped)
  | _, _ => false
/-- Completes the arm of a whole transfer and acknowledges it. -/
def State.finishXfer (s : State) (x : Xfer) : State :=
  match x.arm.bind s.cmd with
  | none => s
  | some r =>
    let s := s.endCmd { r with units := x.notice.getD 0 } r.status
    (({ s with fab := { s.fab with xfers := s.fab.xfers.filter (fun y => !(y.port == x.port && y.seq == x.seq)),
                                   recvSeq := aset s.fab.recvSeq x.port ((x.seq + 1) % 2 ^ 32) } }).putOut 2 x.port x.seq 0 0)
/-- Completes up to `n` whole transfers; one that ends makes the next of its port whole. -/
def State.finishWhole : Nat → State → State
  | 0, s => s
  | n + 1, s => match s.fab.xfers.find? s.whole with | some x => State.finishWhole n (s.finishXfer x) | none => s
/-- Serves every transfer that can take an arm, oldest first, and every one that can be completed. -/
def State.serveXfers (s : State) : State :=
  let s := s.fab.xfers.foldl (fun s x => s.giveArm x) s
  s.finishWhole s.fab.xfers.length
/-- The transfer's arm has been completed already (R373). -/
def Fabric.past (f : Fabric) (port : Nat) (seq : BitVec 32) : Bool := decide ((seq - BitVec.ofNat 32 (aget 0 f.recvSeq port)).toInt < 0)

/-- A write or a step of a drawer performs at the end of its slot. -/
def execDrawerWritePerforms (id : Nat) (s : State) : Out :=
  .next <|
    match s.req id with
    | none => s
    | some r =>
      if r.kind = 0 || !s.mayPerform r then s
      else
        let t := { s with fab := { s.fab with reqs := s.fab.reqs.filter fun q => q.id != id } }
        if r.kind = 2 then (match r.amo with | some a => t.perform r.who r.key a | none => t)
        else
          match r.cmd.bind s.cmd with
          | some c =>
            if r.mask != 0 then (t.writeUnit r.key r.unit r.val r.mask).serveXfers
            else s.moveAll c (c.moves.filter fun m => m.2.addr / 512 == r.unit) |>.setReq { r with done := true }
          | none =>
            let t := t.writeUnit r.key r.unit r.val r.mask
            if t.localStores r.who then t else t.modCore (coreOf r.who) fun c => c.ownRings (ctxOf r.who) Ring.publishLate
/-- An access has waited STALLTO on a pair that is not up (R367). -/
def execStallTimeout (id : Nat) (s : State) : Out :=
  .next <|
    match s.req id with
    | none => s
    | some r =>
      let st := (s.pair (reqPair r)).state
      if !(st = 0 || st = 5 || (st = 6 && r.kind = 0)) || r.left.isSome || r.done || r.dropped ||
          decide (r.stall < s.fab.stallto.toNat * 1024) then s
      else
        let gone := { s with fab := { s.fab with reqs := s.fab.reqs.filter fun q => q.id != id } }
        match r.cmd.bind s.cmd with
        | some c => ((s.setReq { r with dropped := true }).setCmd { c with status := 5 }).serveXfers
        | none =>
          let t := tLink 2 (reqPair r)
          let sig := r.kind == 2 && r.sl == 7 && (match r.amo with | some a => a.bar == 0 | none => false)
          if r.kind = 1 || sig then gone.noteStall r.who (reqPair r)
          else
            let q := r.amo.bind (·.qid)
            let drop (c : Ctx) : Ctx := match q with | some k => c.rqSet 0 ((c.rqGet 0).filter fun e => e.id != k) | none => c
            (gone.modCtx r.who drop).takeTrap r.who t r.sl r.pc

/-! ## The switch (R368 to R370) -/

/-- Commands of the queue are refused as the table states. -/
def Fabric.refused (f : Fabric) (w0 w1 : Word) : Bool :=
  let cmd := natBits w0.toNat 0 4
  let j := natBits w0.toNat 8 3
  let ref := natBits w0.toNat 16 8
  let stray := w0 &&& ~~~(if cmd = 2 then 0xFF070F#64 else 0x70F#64) != 0
  stray ||
  match cmd with
  | 1 => (slotV w1 && (decide (slotLen w1 < 32) || decide (slotGuard w1 < 16) || decide (slotLen w1 + slotGuard w1 < f.minper.toNat) ||
          slotPorts w1 == 0)) || natBits w1.toNat 20 11 != 0
  | 2 => f.swRun || decide (ref < 64) || decide (127 < ref) || (List.range (j + 1)).any fun i => !slotV (aget 0 f.swslots i)
  | 3 => !f.swRun
  | _ => true
/-- One command of the switch queue, at most once per MINPER × 0.125 µs. -/
def execSwitchCommandPop (s : State) : Out :=
  let f := s.fab
  .next <|
    match f.swq with
    | [] => s
    | (w0, w1) :: r =>
      if f.swPop != 0 then s
      else
        let g := { f with swq := r, swPop := f.minper.toNat * s.mhz / 8 }
        let j := natBits w0.toNat 8 3
        let g := if f.refused w0 w1 then { g with swErr := true }
          else
            match natBits w0.toNat 0 4 with
            | 1 => if f.swRun then { g with swload := g.swload ++ [(j, w1)] } else { g with swslots := aset g.swslots j w1 }
            | 2 => { g with swArm := true, swN := j, swRef := natBits w0.toNat 16 8, swT0 := w1.setWidth 32 }
            | _ => { g with swStop := true }
        { s with fab := g }
/-- Loads that waited for a rotation's start. -/
def Fabric.load (f : Fabric) : Fabric := { f with swslots := f.swload.foldl (fun l w => aset l w.1 w.2) f.swslots, swload := [] }
/-- The reference pair's counter equals T0. -/
def execRotationStart (s : State) : Out :=
  let f := s.fab
  .next <|
    if f.swArm && !f.swRun && s.counter f.swRef == f.swT0 then
      { s with fab := { f.load with swArm := false, swRun := true, swStop := false, swCur := 0, swGd := true, budget := [] } }
    else s
/-- Nanoseconds since the present phase of the circuit slot began. -/
def State.inPhase (s : State) : Nat := (s.counter s.fab.swRef - s.fab.swT0).toNat
def Fabric.curSlot (f : Fabric) : Word := aget 0 f.swslots f.swCur
/-- The connected interval of the present slot is over. -/
def State.slotOver (s : State) : Bool := s.fab.swRun && !s.fab.swGd && decide (slotLen s.fab.curSlot * 125 ≤ s.inPhase)
/-- The next slot begins its guard; a rotation starts again with the loads that waited. -/
def execCircuitSlotGuard (s : State) : Out :=
  let f := s.fab
  .next <|
    if !s.slotOver || (f.swCur = f.swN && f.swStop) then s
    else
      let t := f.swT0 + BitVec.ofNat 32 (slotLen f.curSlot * 125)
      let f := { f with swT0 := t, swGd := true, budget := [] }
      { s with fab := if f.swCur = f.swN then { f.load with swCur := 0 } else { f with swCur := f.swCur + 1 } }
/-- After a STOP the rotation ends and every port is disconnected. -/
def execRotationEnd (s : State) : Out :=
  let f := s.fab
  .next <|
    if s.slotOver && f.swCur = f.swN && f.swStop then
      { s with fab := { f.load with swRun := false, swStop := false, swGd := false, swCur := 0, budget := [] } }
    else s

/-! ## Sends (R371, R373) -/

/-- Pairs of a connected port (R368). -/
def pairsOf (v : Word) (port : Nat) : List Nat := (List.range 64).filterMap fun i => if allotted v (64 + i) = some port then some (64 + i) else none
/-- Ports that are connected now. -/
def Fabric.connected (f : Fabric) : List Nat :=
  if f.swRun && !f.swGd && slotV f.curSlot then (List.range 16).filter fun k => (slotPorts f.curSlot).getLsbD k else []
/-- Flits that a port's pairs carry in 32 ns. -/
def State.portRate (s : State) (ps : List Nat) : Nat := ps.foldl (fun a p => a + 16 * (s.pair p).lanes) 0
/-- A send may transmit now: its slack from both ends of the interval, and every pair's phase error within it. -/
def State.inSlack (s : State) (r : ECmdRec) (ps : List Nat) : Bool :=
  let k := r.slack * 64
  decide (k ≤ s.inPhase) && decide (s.inPhase + k < slotLen s.fab.curSlot * 125) &&
  ps.all fun p => decide ((s.pair p).pherr.toInt.natAbs ≤ k)
/-- A flit of a send's box, as it stands when it is sent. -/
def State.flitData (s : State) (r : ECmdRec) (i : Nat) : BitVec 512 :=
  match r.moves with
  | [] => 0
  | m :: _ =>
    let k := 512 / m.1.w
    BitVec.ofNat 512 (packElems m.1.w (((r.moves.drop (i * k)).take k).map fun e => if s.spoilt e.1 then 0 else s.elem e.1))
/-- A control flit arises, and waits until its port is connected (R374). -/
def State.control (s : State) (kind port xseq flit : Nat) : State :=
  let (id, s) := s.newId
  { s with fab := { s.fab with ctls := s.fab.ctls ++ [{ path := 128, seq := id, kind := kind, port := port, xseq := xseq, flit := flit }] } }
/-- The control flits that wait on a connected port leave, each on the two lowest pairs allotted to the port, and wait for their
acknowledgement (R374). -/
def State.sendControls (s : State) (port : Nat) (ps : List Nat) : State :=
  let due (c : CtlFlit) : Bool := c.port == port && c.path == 128
  match ps with
  | [] => s
  | p :: _ =>
    let s := (s.fab.ctls.filter due).foldl (fun s c => (ps.take 2).foldl (fun s _ => s.putOut c.kind c.port c.xseq c.flit 0) s) s
    { s with fab := { s.fab with ctls := s.fab.ctls.map fun c => if due c then { c with path := p, age := 0 } else c } }
/-- A flit leaves on a lit lane group of its port, which one is free; what its mute wavelengths carry is free too (R398). -/
def State.sendFlit (s : State) (ps : List Nat) (port sq i : Nat) (d : BitVec 512) : State :=
  let lit := ps.filter fun p => (s.pair p).lanes != 0
  let (g, s) := s.draw 8
  let (b, s) := s.draw 8
  let (x, s) := s.draw 512
  let g := g.toNat % Nat.max 1 (4 * lit.length)
  let p := lit.getD (g / 4) 0
  let lost := BitVec.ofNat 512 (s.lostBits p (g % 4) b)
  let s := s.putOut 0 port sq i ((d &&& ~~~lost) ||| (x &&& lost))
  let here (c : Nat × Nat × Nat × Nat) : Bool := c.1 == port && c.2.1 == sq && c.2.2.1 == i
  { s with fab := { s.fab with carried := (port, sq, i, p) :: s.fab.carried.filter fun c => !here c } }
/-- Sends up to `n` flits of the sends of a port in queue order. -/
def State.sendFlits (s : State) (ps : List Nat) : List ECmdRec → Nat → State
  | [], _ => s
  | r :: l, n =>
    if n = 0 || r.flits ≤ r.sent then s.sendFlits ps l n
    else if !s.inSlack r ps then s
    else
      let k := Nat.min n (r.flits - r.sent)
      let s := (List.range k).foldl (fun s i => s.sendFlit ps r.port r.sq (r.sent + i) (s.flitData r (r.sent + i))) s
      let bad := (unitsOf (r.moves.map (·.1))).find? fun u => s.bad.contains u
      let st := if bad.isSome then 4 else r.status
      let s := match bad with | some u => s.noteData r.who (u * 64 % 2 ^ 44) | none => s
      let s := s.setCmd { r with sent := r.sent + k, waited := 0, status := st }
      let s := { s with fab := { s.fab with budget := aset s.fab.budget r.port (aget 0 s.fab.budget r.port + k) } }
      let s := if r.sent + k = r.flits then s.control 1 r.port r.sq r.flits else s
      s.sendFlits ps l (n - k)
/-- Puts a send into the order of entry: those of one tick go in ascending die order (R371). -/
def ECmdRec.enqueue (r : ECmdRec) : List ECmdRec → List ECmdRec
  | [] => [r]
  | h :: l => if r.cyc < h.cyc ∨ (r.cyc = h.cyc ∧ dieOfWho r.who ≤ dieOfWho h.who) then r :: h :: l else h :: r.enqueue l
/-- What a port sends in one 32 ns slot: the flits of `again` first, then the queues of all dies in the order of entry, and the
control flits that wait. -/
def State.transmitPort (s : State) (port : Nat) : State :=
  let ps := pairsOf s.fab.curSlot port
  let lim := slotBudget s.fab.curSlot
  let used := aget 0 s.fab.budget port
  let n := if lim = 0 then s.portRate ps else Nat.min (s.portRate ps) (lim - used)
  let all := (s.cmds.filter fun c => c.opc == 0x08 && c.port == port).foldr ECmdRec.enqueue []
  let due := s.fab.again.filter fun x => x.1 == port && s.open' x
  let ok := (due.take n).takeWhile fun x => all.any fun c => c.sq == x.2.1 && s.inSlack c ps
  let s := ok.foldl (fun s x => match s.cmds.find? fun c => c.opc == 0x08 && c.port == port && c.sq == x.2.1 with
    | some c => (s.sendFlit ps port c.sq x.2.2 (s.flitData c x.2.2)).setCmd { c with waited := 0 } | none => s) s
  let s := { s with fab := { s.fab with again := s.fab.again.filter fun x => s.open' x && !ok.contains x,
                                        budget := aset s.fab.budget port (used + ok.length) } }
  let all := all.filterMap fun c => s.cmd c.id
  (s.sendFlits ps all (if ok.length = due.length then n - ok.length else 0)).sendControls port ps
def State.transmit (s : State) : State := s.fab.connected.foldl (fun s k => s.transmitPort k) s
/-- The guard ends and the slot's ports are connected; what waits begins to leave, and what was asked for again leaves first. -/
def execCircuitSlotConnect (s : State) : Out :=
  let f := s.fab
  .next <|
    if f.swRun && f.swGd && decide (slotGuard f.curSlot * 125 ≤ s.inPhase) then
      let f := { f with swGd := false, swT0 := f.swT0 + BitVec.ofNat 32 (slotGuard f.curSlot * 125), budget := [] }
      let mine (x : Nat × Nat × Nat) : Bool := f.connected.contains x.1
      ({ s with fab := { f with resends := f.resends.filter fun x => !mine x, again := f.again ++ f.resends.filter mine } }).transmit
    else s
def execSendTimeout (id : Nat) (s : State) : Out :=
  .next <|
    match s.cmd id with
    | some r => if r.opc = 0x08 && decide (s.fab.stallto.toNat * 1024 ≤ r.waited) then s.endCmd r 5 else s
    | none => s
/-- The receiver has accepted the notice of a send whose flits are all out. -/
def execSendAcknowledgement (id : Nat) (s : State) : Out :=
  .next <|
    match s.cmd id with
    | some r =>
      if r.opc = 0x08 && decide (r.flits ≤ r.sent) then
        let s := s.endCmd r r.status
        { s with fab := { s.fab with ctls := s.fab.ctls.filter fun c => !(c.kind == 1 && c.port == r.port && c.xseq == r.sq) } }
      else s
    | none => s

/-! ## Receives (R210, R372, R373) -/

/-- Connected intervals of a port around the present slot: start and length in the reference pair's count. -/
def Fabric.intervals (f : Fabric) (port : Nat) : List (BitVec 32 × Nat) :=
  if !f.swRun then []
  else
    let n := f.swN + 1
    let sl (j : Nat) : Word := aget 0 f.swslots j
    let g (j : Nat) : BitVec 32 := BitVec.ofNat 32 (slotGuard (sl j) * 125)
    let l (j : Nat) : BitVec 32 := BitVec.ofNat 32 (slotLen (sl j) * 125)
    let c0 := if f.swGd then f.swT0 + g f.swCur else f.swT0
    let fwd := (List.range n).foldl (fun (a : BitVec 32 × List (Nat × BitVec 32)) i =>
      let j := (f.swCur + i) % n
      (a.1 + l j + g ((j + 1) % n), a.2 ++ [(j, a.1)])) (c0, [])
    let back := (List.range n).foldl (fun (a : BitVec 32 × List (Nat × BitVec 32)) i =>
      let j := (f.swCur + n - 1 - i) % n
      let st := a.1 - g ((j + 1) % n) - l j
      (st, a.2 ++ [(j, st)])) (c0, [])
    (fwd.2 ++ back.2).filterMap fun p =>
      if slotV (sl p.1) && (slotPorts (sl p.1)).getLsbD port then some (p.2, slotLen (sl p.1) * 125) else none
/-- The elastic buffer's window (R372). -/
def Fabric.accepts (f : Fabric) (port slack arr : Nat) : Bool :=
  (f.intervals port).any fun i =>
    let k := slack * 64
    decide (-(k : Int) ≤ (BitVec.ofNat 32 arr - i.1).toInt) && decide ((BitVec.ofNat 32 arr - i.1).toInt ≤ ((i.2 + k : Nat) : Int))
/-- A bulk flit arrives at a port over one of its pairs. A lost flit, or one with an error, is asked for again. -/
def execFlitArrival (port pair rq : Nat) (seq : BitVec 32) (flit : Nat) (data : BitVec 512) (crcOk : Bool) (slack arr : Nat)
    (s : State) : Out :=
  .next <|
    if s.fab.past port seq then (s.corrected pair).modPair pair fun p => { p with idle := 0 }
    else if !crcOk || !s.fab.accepts port slack arr then
      let s := s.flitError pair
      s.control 3 port seq.toNat flit
    else
      let s := (s.corrected pair).modPair pair fun p => { p with idle := 0 }
      let here (x : Xfer) : Bool := x.port == port && x.seq == seq.toNat
      let s := if s.fab.xfers.any here then s
        else { s with fab := { s.fab with xfers := s.fab.xfers ++ [{ port := port, rq := rq, seq := seq.toNat }] } }
      let s := { s with fab := { s.fab with ctls := s.fab.ctls.filter fun c =>
        !(c.kind == 3 && c.port == port && c.xseq == seq.toNat && c.flit == flit) } }
      match s.fab.xfers.find? here with
      | none => s
      | some x =>
        if x.got.contains flit || x.flits.any fun f => f.1 == flit then s
        else
          match x.arm.bind s.cmd with
          | some r => ((s.setXfer { x with got := x.got ++ [flit] }).placeFlit r flit data).serveXfers
          | none => (s.setXfer { x with flits := x.flits ++ [(flit, data)] }).serveXfers
/-- A completion notice arrives; it is held until its turn and until every flit of its transfer is placed. A copy of a notice
whose arm has completed is discarded (R374). -/
def execCompletionNotice (port rq : Nat) (seq : BitVec 32) (flits : Nat) (s : State) : Out :=
  let here (x : Xfer) : Bool := x.port == port && x.seq == seq.toNat
  let opened := if s.fab.xfers.any here then s.fab.xfers else s.fab.xfers ++ [{ port := port, rq := rq, seq := seq.toNat }]
  let noted := opened.map fun x => if here x then { x with notice := some flits } else x
  .next <| if s.fab.past port seq then s else ({ s with fab := { s.fab with xfers := noted } }).serveXfers

/-! ## Control flits (R374) -/

/-- A control flit's copy arrives: the first good copy with a new number is accepted; it may ask for a flit again, which the pair
that carried it counts (R398). -/
def execControlFlit (port : Nat) (seq : BitVec 32) (crcOk : Bool) (resend : Option (Nat × Nat)) (s : State) : Out :=
  .next <|
    if !crcOk || s.fab.ctlSeen.contains (port, seq.toNat) then s
    else
      let f := { s.fab with ctlSeen := (port, seq.toNat) :: s.fab.ctlSeen }
      match resend with
      | some (x, i) =>
        let s := { s with fab := { f with resends := f.resends ++ [(port, x, i)] } }
        match f.carried.find? fun c => c.1 == port && c.2.1 == x && c.2.2.1 == i with
        | some c => s.flitError c.2.2.2
        | none => s
      | none => { s with fab := f }
/-- A control flit whose first path is pair `p` has gone unanswered for CTLTO: it is to leave again on both, and the pair counts
the attempts. -/
def execControlTimeout (p : Nat) (s : State) : Out :=
  let due (c : CtlFlit) : Bool := c.path == p && decide (p < 128) && decide (s.fab.ctlto.toNat * 1024 ≤ c.age)
  .next <|
    match s.fab.ctls.find? due with
    | none => s
    | some c =>
      let again : CtlFlit := { c with path := 128, age := 0, tries := c.tries + 1 }
      let s := { s with fab := { s.fab with ctls := s.fab.ctls.map fun d => if d = c then again else d } }
      s.modPair p fun x => { x with tries := Nat.max x.tries (c.tries + 1) }

end Sys2Proof.Machine
end

