-- ==== Sys2Proof/Machine/Context.lean ====
section
/-! DEFINITION. What happens to a context between its bundles: results that land, checkpoints, blocks that clear, windows
that close, pre-emption, snapshots and resumption (R23, R31 to R39, R51, R63, R335, R355 to R358). -/

namespace Sys2Proof.Machine

/-! ## Results that land (R29, R31, R38) -/

/-- Bits that a write to a destination marks. -/
def Fly.bits (f : Fly) : Nat := match f.dst with | .win _ | .mask _ => f.bm | _ => ones 64
/-- The marked bits of a result reach their register. -/
def State.landIn (s : State) (who : Nat) (f : Fly) (v bm : Nat) : State :=
  match f.dst with
  | .win off => s.writeWin who off f.size v bm
  | .scalar n => if bm = 0 then s else s.modCtx who fun c => { c with ctl := c.ctl.sset n (BitVec.ofNat 64 v) }
  | .pred n => if bm = 0 then s else s.modCtx who fun c => { c with ctl := c.ctl.pset n (v != 0) }
  | .mask n => s.modCtx who fun c =>
      { c with ctl := c.ctl.mset n (BitVec.ofNat 1024 ((v &&& bm) ||| ((c.ctl.mget n).toNat &&& (bm ^^^ ones 1024)))) }
  | .mxcfg => if bm = 0 then s else s.modCtx who fun c => { c with ctl := { c.ctl with mxcfg := BitVec.ofNat 64 v } }
/-- The elements that a late load reads. -/
def Fly.units (f : Fly) : List Elem := match f.late with | some l => (l.elems ++ l.scales).filterMap fun o => o | none => []
/-- A result in flight lands: `k` is its identifier. -/
def execResultWrite (who k : Nat) (s : State) : Out :=
  let c := s.ctx who
  .next <|
    match c.fly.find? fun f => f.id == k with
    | none => s
    | some f =>
      if !s.answered f.gate || (f.left != 0 && !c.susp) then s
      else
        match s.badUnit f.units with
        -- a stopped context takes the trap before its snapshot is taken (R39)
        | some t => s.takeTrap who t f.slot.num f.pc
        | none =>
        if c.susp then s
        else
          let (v, fl) := match f.late with | some l => if f.fixed then (f.val, f.flg) else s.lateValue who l | none => (f.val, f.flg)
          let cov := c.covered f
          let bm := f.bits &&& (f.bits ^^^ (cov &&& f.bits))
          let full := match f.dst with | .win off => s.undoFull who off f.size bm | _ => false
          if full then s.takeTrap who ⟨21, 0, 0⟩ f.slot.num f.pc
          else
            let s := (s.forget f.gate).landIn who f v bm
            s.modCtx who fun c =>
              { c with fly := c.fly.filter fun g => g.id != k, ctl := c.ctl.flag fl,
                       landed := c.landed ++ [{ slot := f.slot.num, grp := f.grp, dst := f.dst, size := f.size, bm := f.bits }] }

/-- Bundles from a latch write to the first that sees it (R31). -/
def LatW.reach (w : LatW) : Nat := match w.sel with | .v0 | .v1 => 3 | _ => 2
/-- Operations that a context has not issued yet, the second half of a split bundle among them (R113). -/
def Ctx.pendingOps (c : Ctx) (sl : Slot) : List Ent :=
  c.q sl ++ match c.split with | some p => (p.ents.filter fun e => e.1 == sl).map (·.2) | none => []
/-- The oldest latch write lands for good once no operation that could still see the old value is left. -/
def execLatchWriteLands (who k : Nat) (s : State) : Out :=
  let c := s.ctx who
  .next <|
    match c.ctl.latw with
    | w :: r =>
      let near (n : Nat) : Bool := decide (n < w.seq + w.reach)
      if k != 0 || near c.ctl.seq || [Slot.v0, .v1, .m].any fun sl => (c.pendingOps sl).any fun e => near e.seq then s
      else s.modCtx who fun c => { c with ctl := { c.ctl with lat := c.ctl.lat.put w, latw := r } }
    | [] => s

/-- A producer of a fixed latency reaches its pending entry (R49, R119, R162). -/
def State.pushDue (s : State) (who q k : Nat) : State :=
  let c := s.ctx who
  match (c.rqGet q).find? fun e => e.id == k && !e.arrived && e.left == 0 with
  | some e => if c.susp then s else s.modCtx who fun c => c.rqSet q (arrive k e.data (c.rqGet q))
  | none => s
def execDivisionResultPush (who k : Nat) (s : State) : Out := .next (s.pushDue who 1 k)
def execVectorQueueEntryPush (who q k : Nat) (s : State) : Out := .next (if q = 4 ∨ q = 5 then s.pushDue who q k else s)

/-! ## Checkpoints and touch windows (R33, R37, R130) -/

/-- The checkpoint of a finished span is released; a `brk` or `trap` of its bundle is raised after it. -/
def execCheckpointRelease (who : Nat) (s : State) : Out :=
  let c := s.ctx who
  .next <|
    if !c.ckDue || !s.idleSpan who || c.susp then s
    else
      let s := (s.release who).modCtx who fun c => { c with irrev := none }
      match c.soft with
      | some (kind, imm, pc) => s.takeTrap who ⟨kind, 0, imm⟩ 0 pc
      | none => s
/-- A window whose 256 bundles have gone by closes. -/
def execTouchWindowExpiry (who n : Nat) (s : State) : Out :=
  .next <|
    if (s.ctx who).wins.any fun w => w.n == n && w.left == 0 then s.closeWins who fun w => !(w.n == n && w.left == 0) else s

/-! ## Blocks (R23, R65) and rings (R63) -/

def State.blockClear (s : State) (who : Nat) : Blk → Bool
  | .ring alts => alts.any fun l => l.all fun k =>
      let r := s.ring (k.1 / 64) (k.1 % 64)
      if k.2.1 = 0 ∧ k.2.2 = 0 then r.old.free == r.tPush else (k.2.1 == 0 || r.canPop k.2.1) && (k.2.2 == 0 || r.canPush)
  | .count k free n => let r := s.ring (k / 64) (k % 64); decide (n ≤ if free then r.old.free else r.old.filled)
  | .queue q => if q = 16 then !s.svc.events.isEmpty else ((s.ctx who).rqHead q).isSome
/-- What blocked a context has cleared. -/
def execContextReady (who : Nat) (s : State) : Out :=
  .next <|
    match (s.ctx who).blk with
    | some b => if s.blockClear who b then (s.modCtx who fun c => { c with blk := none }).elect (coreOf who) else s
    | none => s
/-- A cleared ring's last firing has completed: PEND falls. -/
def execRingClearComplete (core n : Nat) (s : State) : Out :=
  let r := s.ring core n
  .next (if r.pend && !r.busy then s.modRing core n fun r => { r with pend := false } else s)

/-! ## Stopping a context at a bundle boundary (R38, R39) -/

/-- An operation that cannot be undone waits for room in a result queue or an engine queue (R39). -/
def State.roomless (s : State) (who : Nat) (sl : Slot) (e : Ent) : Bool :=
  let c := s.ctx who
  let eng (m : ECmd) (q : Nat) (more : Bool) : Bool := c.ctl.guard m.g && ((!m.nq && !c.rqRoom q) || more)
  let stage := decide (32 ≤ (s.die (dieOfWho who)).stage.queue.length)
  match decode sl.kind e.raw with
  | .ok (.amo g _ nq _ _ _) => c.ctl.guard g && !nq && !c.rqRoom 0
  | .ok (.cpIn m) | .ok (.cpOut m) | .ok (.cpPeer m _) | .ok (.cpPf m) | .ok (.send m) | .ok (.exf m _) => eng m 2 false
  | .ok (.recvArm m) => eng m 2 (decide (16 ≤ (aget [] s.fab.recvs (natBits (c.ctl.sget m.sa.toNat).toNat 0 8)).length))
  | .ok (.ofx m) | .ok (.ofm m _) | .ok (.ofcCap m) | .ok (.ofcRd m) | .ok (.ofcTab m) | .ok (.ofr m _) => eng m 3 stage
  | _ => false
/-- The bundle that cannot be undone waits for nothing but room, and nothing of it that cannot be undone has performed: an operation
that has performed cannot be rolled back beside one that waits, which is then waited for (the model's choice, log 62). -/
def State.waitsForRoom (s : State) (who : Nat) : Bool :=
  let c := s.ctx who
  c.acted == 0 && !c.waiting.isEmpty && allSlots.all fun sl => (c.q sl).all (s.roomless who sl)
/-- A system instruction holds: pre-empted, it is left unissued (R299). -/
def State.holding (s : State) (who : Nat) : Bool :=
  let c := s.ctx who
  match allSlots.filter fun sl => !(c.q sl).isEmpty, c.q .s with
  | [.s], [e] => (match decode .s e.raw with | .ok (.ctxsave g ..) | .ok (.ctxrest g ..) | .ok (.tlbinv g ..) => c.ctl.guard g | _ => false)
  | _, _ => false
/-- Dispatch and issue stop; the level is given back and kept to be asked for again (R219). -/
def State.suspend (s : State) (who : Nat) : State :=
  (s.modCtx who fun c => { c with susp := true, blk := none, level := 0, inst := c.inst.map fun i => { i with lvl := c.level } }).elect
    (coreOf who)
/-- Brings a context to a stop, or `none` while R39 makes the request wait. -/
def State.stop (s : State) (who : Nat) : Option State :=
  let c := s.ctx who
  if c.inst.isNone || isFw who then none
  else if c.susp then some s
  else if c.split.isSome || (c.rqGet 0).any (fun e => !e.arrived) then none
  else
    match c.wait with
    | some (.realign ..) | some (.bar _ _ _ _ none) => none
    | some (.bar addr key cls g (some t)) =>
      -- nothing of the bundle remains to be undone: its closing checkpoint is released first
      let s := (s.forget g).modCtx who fun c => { c with wait := none }
      if !s.idleSpan who then none
      else some (((s.release who).modCtx who fun c => { c with irrev := none, wait := some (.bar addr key cls [] (some t)) }).suspend who)
    | some (.power _) => if 1 < c.acted then none else some ((s.rollback who).suspend who)
    | some (.sleep _) => some (s.suspend who)
    | some (.wait _ _ _ g _ _) => if c.irrev.isSome then none else some (((s.forget g).modCtx who fun c => { c with wait := none }).suspend who)
    | some (.lock ..) => some ((s.modCtx who fun c => { c with wait := none }).suspend who)
    | none =>
      if c.irrev.isNone || s.holding who then some (s.suspend who)
      else if s.waitsForRoom who then some ((s.rollback who).suspend who)
      else none
/-- HOLD stops the running instance at its next bundle boundary, where it stays (R296). -/
def execPreemption (who : Nat) (s : State) : Out :=
  .next (if (s.ctx who).hold then (s.stop who).getD s else s)
/-- The level is asked for again; without one the context goes on at once. -/
def State.askResume (s : State) (who : Nat) : State :=
  match (s.ctx who).inst with
  | none => s
  | some i =>
    let d := s.die (dieOfWho who)
    if i.lvl = 0 then (s.modCtx who fun c => { c with susp := false, woke := true }).elect (coreOf who)
    else if d.pwrq.any fun r => r.1 == who then s
    else s.setDie (dieOfWho who) { d with pwrq := raising (who, i.lvl, s.cyc) d.pwrq }

/-! ## Code (R87, R345) -/

/-- Bundle `n` of a partition's code space; unmapped code raises the instruction-fetch fault. -/
def State.codeAt (s : State) (core part n : Nat) : Except Stop (BitVec 512) :=
  let va : Int := (n * 64 : Nat)
  match s.translate core part [] va with
  | .error c => .error (.trap (if c = 1 ∨ c = 8 then ⟨12, 1, BitVec.ofNat 64 n⟩ else tXlate c va))
  | .ok p =>
    match s.keyId part p.key with
    | none => .error (.trap (tXlate 5 va))
    | some k => if p.gone va then .error (.gone (p.off + (va.toNat - p.base))) else .ok (BitVec.ofNat 512 (s.unitUnder k (p.flat va / 64)))
/-- The unit of a bundle, by its key, is under that key once it has been fetched (R387). -/
def State.claimCode (s : State) (who n : Nat) : State :=
  let part := s.partOf who
  if isFw who || ((s.ctx who).priv == 0 && ((s.ctx who).inst.bind (·.spl)).isSome) then s
  else match s.translate (coreOf who) part [] (n * 64 : Nat) with
  | .ok p => match s.keyId part p.key with | some k => s.claim [{ addr := p.flat (n * 64 : Nat) * 8, w := 512, key := k }] | none => s
  | .error _ => s
/-- The spliced program that an instance runs. -/
def State.spliced (s : State) (who : Nat) (i : Inst) : Option Spliced :=
  i.spl.bind fun id => (s.die (dieOfWho who)).cache.find? fun p => p.id == id
/-- OCC of a bundle (R88). -/
def occBits (b : BitVec 512) : BitVec 8 := b.extractLsb' 2 8
/-- Kinds that an instance's code uses: S, V, M, memory port, E, Y (R356). -/
def State.uses (s : State) (who : Nat) (i : Inst) : Nat :=
  let code := match s.spliced who i with
    | some p => p.code
    | none => (List.range i.nb).filterMap fun k =>
        match s.codeAt (coreOf who) i.part (i.first.toNat + k) with | .ok b => some b | .error _ => none
  let o := code.foldl (fun a b => a ||| occBits b) 0
  let bit (l : List Nat) (k : Nat) : Nat := if l.any o.getLsbD then 2 ^ k else 0
  bit [0] 0 + bit [1, 2] 1 + bit [3] 2 + bit [4, 5] 3 + bit [6] 4 + bit [7] 5
/-- Every kind that a USES field names has a live unit on a core (R112, R114). -/
def Core.provides (k : Core) (uses : Nat) : Bool :=
  let m := k.sltmap
  let live (b : Nat) (l : List Nat) : Bool := natBits uses b 1 = 0 || l.any m.getLsbD
  live 0 [4] && live 1 [0, 1] && live 2 [5] && live 3 [2, 3] && live 4 [6] && live 5 [7]

/-! ## Snapshots (R355 to R357): what the tables leave to the machine stands as log 11 says -/

/-- Values laid out at byte offsets: (offset, bytes, value). -/
def layBytes (l : List (Nat × Nat × Nat)) : Nat := l.foldl (fun a f => a + f.2.2 % 2 ^ (8 * f.2.1) * 2 ^ (8 * f.1)) 0
/-- `n` bytes at offset `o` of a number. -/
def bytesAt (v o n : Nat) : Nat := natBits v (8 * o) (8 * n)
/-- Values of a fixed width in consecutive places. -/
def placeAt (o n : Nat) (l : List Nat) : List (Nat × Nat × Nat) := (List.range l.length).map fun i => (o + n * i, n, l.getD i 0)
/-- The pending latch writes that have a distance left, as (latch, distance, value, K): V0, V1, MR, MC. -/
def Ctl.pending (c : Ctl) : List (Nat × Nat × Nat × Nat) :=
  (c.latw.map fun w =>
    let d := w.seq + w.reach - c.seq
    let v := w.val.toNat
    if d = 0 then []
    else match w.sel with
      | .v0 => [(0, d, v % 2 ^ 512, w.k.toNat)] | .v1 => [(1, d, v % 2 ^ 512, w.k.toNat)]
      | .mr => [(2, d, v % 2 ^ 1024, 0)] | .mc => [(3, d, v % 2 ^ 1024, 0)]
      | .mrc => [(2, d, v % 2 ^ 1024, 0), (3, d, v / 2 ^ 1024, 0)]).flatten
/-- Place of a pending write in the header less 0x880, with its bytes: three distances of V0 and V1, two of MR and MC. -/
def pendAt (k d : Nat) : Nat × Nat := if k < 2 then (192 * k + 64 * (d - 1), 64) else (384 + 256 * (k - 2) + 128 * (d - 1), 128)
/-- Number of a pending write's place, in order. -/
def pendNo (k d : Nat) : Nat := if k < 2 then 3 * k + (d - 1) else 6 + 2 * (k - 2) + (d - 1)
/-- Header bytes 0x40 to 0xBFF, from `base`: the registers of a control state, with its counts and plane bits (R356). -/
def Ctl.headerBytes (c : Ctl) (ticks bundles : Word) (planes base : Nat) : List (Nat × Nat × Nat) :=
  [(base, 8, c.fstat.toNat), (base + 8, 8, c.nbv.toNat), (base + 16, 8, c.srseed.toNat), (base + 24, 8, c.sridx.toNat),
   (base + 32, 8, ticks.toNat), (base + 40, 8, bundles.toNat)] ++
  placeAt (base + 48) 2 ((List.range 8).map fun i => (aget 0 c.ib i).toNat) ++
  [(base + 64, 4, c.vv.toNat), (base + 68, 4, c.vw.toNat), (base + 72, 4, c.vt.toNat), (base + 76, 4, c.va.toNat),
   (base + 80, 2, (List.range 16).foldl (fun a i => a + (c.pget i).toNat * 2 ^ i) 0), (base + 88, 8, c.mxcfg.toNat),
   (base + 96, 8, planes)] ++
  placeAt (base + 0xC0) 8 ((List.range 64).map fun i => (c.sget i).toNat) ++
  placeAt (base + 0x2C0) 128 ((List.range 8).map fun i => (c.mget i).toNat) ++
  [(base + 0x6C0, 64, c.lat.v0.toNat), (base + 0x700, 64, c.lat.v1.toNat), (base + 0x740, 128, c.lat.mr.toNat),
   (base + 0x7C0, 128, c.lat.mc.toNat)] ++
  c.pending.map fun w => (base + 0x840 + (pendAt w.1 w.2.1).1, (pendAt w.1 w.2.1).2, w.2.2.1)
/-- What places a control state's bundles, with its bases in force and the marks of its latches: 64 bytes. -/
def Ctl.placeBytes (c : Ctl) (base : Nat) : List (Nat × Nat × Nat) :=
  [(base, 8, c.seq), (base + 8, 8, c.grp), (base + 16, 8, c.pc.toNat),
   (base + 24, 2, c.pending.foldl (fun a w => a ||| 2 ^ pendNo w.1 w.2.1) 0),
   (base + 26, 2, c.pending.foldl (fun a w => if w.1 < 2 then a ||| w.2.2.2 * 2 ^ (2 * pendNo w.1 w.2.1) else a) 0),
   (base + 28, 1, c.lat.k0.toNat + 4 * c.lat.k1.toNat)] ++
  placeAt (base + 32) 2 ((List.range 8).map fun i => (aget 0 c.ibf i).toNat)
/-- A touch window: number plus 1, W and whether the span opened it, layout entry, LEFT, and its box by origin and extents (R196, R356). -/
def TWin.unit (w : TWin) : Nat :=
  layBytes ([(0, 1, w.n + 1), (1, 1, w.w.toNat + 2 * w.fresh.toNat), (2, 1, w.le), (3, 2, w.left)] ++
    placeAt 8 4 (w.org.map fun x => (BitVec.ofInt 32 x).toNat) ++ placeAt 32 4 w.ext)
/-- The header (R356). -/
def State.snapHeader (s : State) (who : Nat) (i : Inst) (n : Snap) : Nat :=
  let c := n.ctx
  let flags := n.win512.toNat + 2 * n.bound.toNat + 4 * i.spl.isSome.toNat + 8 * c.arr.toNat
  layBytes ([(0, 4, 0x504E535A), (4, 2, 1), (6, 2, flags), (8, 8, c.ctl.pc.toNat), (0x10, 8, i.taskno.toNat), (0x18, 8, i.wid.toNat),
    (0x20, 8, match i.spl with | some p => p | none => i.img + i.ksym * 65536),
    (0x28, 8, s.uses who i + 256 * (natBits (s.core (coreOf who)).bind.toNat 0 4)),
    (0x30, 8, srnPlace who / 2 ^ 14), (0x38, 2, i.lvl + 256 * i.limit)] ++
    c.ctl.headerBytes c.ticks c.bundles c.planeBits 0x40 ++
    c.shadow.headerBytes c.ckTicks c.ckBundles c.ckPlanes 0xC00 ++ c.wins.map fun w => (0x1800 + 64 * w.n, 64, w.unit))
/-- Start of a context's share of a region of the local spaces: its core's buffers, its die's field buffer (4), its spill memory (5). -/
def regionBase (who r : Nat) : Nat :=
  localBase + r * 2 ^ 32 + (if r = 5 then who * 2 ^ 14 else if r = 4 then dieOfWho who * 2 ^ 23 else coreOf who * 2 ^ 22)
/-- Kind and address of a unit in a record: 0 is memory, 1 to 5 a local region, whose addresses count from the context's share of it. -/
def recordAddr (who a : Nat) : Nat × Nat :=
  if keyedAddr a then (0, a) else ((a - localBase) / 2 ^ 32, a - regionBase who ((a - localBase) / 2 ^ 32))
/-- A byte mask of a bit mask, and the bits of a byte mask. -/
def byteMask (m : Nat) : Nat := (List.range 64).foldl (fun a i => if elemAt m 8 i = 0 then a else a + 2 ^ i) 0
def byteBits (m : Nat) : Nat := (List.range 64).foldl (fun a i => if natBits m i 1 = 1 then a ||| 0xFF <<< (8 * i) else a) 0
/-- Withholding records of an update (R355): data, address, byte mask, class and kind with its key; kind 6 is pip counters. Where it writes
parts of bytes, a second record marks the bits (log 11). -/
def WEnt.records (who : Nat) (e : WEnt) : List (List (Nat × Nat × Nat)) :=
  let (kind, a) := if e.cls = 17 then (6, e.unit * 64) else recordAddr who (e.unit * 64)
  let bm := byteMask e.mask
  let part := byteBits bm != e.mask && e.cls != 17
  let main := [(0, 64, e.val), (64, 8, a), (72, 8, if e.cls = 17 then ones 64 else bm), (80, 1, e.cls), (81, 1, kind + 16 * part.toNat), (82, 4, e.key)]
  if part then [main, [(0, 64, e.mask), (72, 8, bm), (81, 1, 32)]] else [main]
/-- An unissued operation in its 64 bytes, placed from its context's next bundle. -/
def Ent.unit (c : Ctl) (e : Ent) : Nat :=
  layBytes ([(0, 10, e.raw.toNat), (10, 2, c.seq - e.seq), (12, 2, c.grp - e.grp), (14, 7, e.pc.toNat), (21, 4, e.vv.toNat),
    (25, 4, e.vw.toNat), (29, 4, e.vt.toNat), (33, 4, e.va.toNat), (53, 4, e.sridx.toNat),
    (57, 1, 8 + e.nbv.toNat + 2 * e.spo.toNat + 4 * e.ghost.toNat)] ++ placeAt 37 2 ((List.range 8).map fun i => (aget 0 e.ib i).toNat))
def Ent.ofUnit (c : Ctl) (v : Nat) : Ent :=
  let f (o n : Nat) : Nat := bytesAt v o n
  { raw := BitVec.ofNat 80 (f 0 10), seq := c.seq - f 10 2, grp := c.grp - f 12 2, pc := BitVec.ofNat 64 (f 14 7),
    vv := BitVec.ofNat 32 (f 21 4), vw := BitVec.ofNat 32 (f 25 4), vt := BitVec.ofNat 32 (f 29 4), va := BitVec.ofNat 32 (f 33 4),
    ib := (List.range 8).map fun i => (i, BitVec.ofNat 16 (f (37 + 2 * i) 2)), sridx := BitVec.ofNat 32 (f 53 4),
    nbv := natBits v 456 1 == 1, spo := natBits v 457 1 == 1, ghost := natBits v 458 1 == 1 }
/-- Kind, place and bytes of a destination (R357). -/
def Dest.record (d : Dest) (size : Nat) : Nat × Nat × Nat :=
  match d with
  | .win o => (0, o, size) | .scalar n => (1, n, 8) | .mxcfg => (1, 64, 8) | .pred n => (2, n, 1) | .mask n => (3, n, 128)
/-- Some of a result's bits are not marked: its record carries the marks too. -/
def Fly.marked (f : Fly) : Bool := match f.dst with | .win _ => f.bm != ones (8 * f.size) | .mask _ => f.bm != ones 1024 | _ => false
/-- Bytes 8 to 15 of a record, the core's own (log 11): distances of the bundle and the group from the next, slot, whether marks follow,
flags, a bit that every record sets, and the bundle. -/
def Fly.tail (c : Ctl) (f : Fly) : Nat :=
  Nat.min (c.seq - f.seq) 0xFFF + Nat.min (c.grp - f.grp) 0xFFF * 2 ^ 12 + f.slot.num * 2 ^ 24 + f.marked.toNat * 2 ^ 27 +
  f.flg.toNat * 2 ^ 28 + 2 ^ 35 + f.pc.toNat % 2 ^ 28 * 2 ^ 36
/-- A record of R357 with its data, padded to 16 bytes, and behind the data the bits that it marks where it does not mark all. -/
def recordBytes (kind num n left tail val : Nat) (marks : Option Nat) : Nat × Nat :=
  let n' := (n + 15) / 16 * 16
  (16 + n' + (if marks.isSome then n' else 0),
   layBytes ([(0, 1, kind), (1, 3, num), (4, 2, n), (6, 2, left), (8, 8, tail), (16, n', val)] ++
     match marks with | some m => [(16 + n', n', m)] | none => []))
def flightBytes (c : Ctl) (f : Fly) : Nat × Nat :=
  let (k, o, n) := f.dst.record f.size
  recordBytes k o n f.left (f.tail c) f.val (if f.marked then some f.bm else none)
/-- The register results of a matrix operation, each as a result in flight; its flags go with the first. -/
def MOp.flies (m : MOp) : List Fly :=
  m.res.zipIdx.map fun p =>
    { id := m.id, left := m.left, dst := .win p.1.1, val := p.1.2.2, bm := ones (8 * p.1.2.1), size := p.1.2.1, seq := m.ent.seq,
      grp := m.ent.grp, pc := m.ent.pc, slot := .m, flg := if p.2 = 0 then m.flags else 0 }
/-- Pending entries of a queue whose producers have a fixed latency: their values are in flight (R49). -/
def Ctx.pendingIn (c : Ctx) (q : Nat) : List QEnt := (c.rqGet q).filter fun e => !e.arrived
/-- Every record of a context, with its bytes: registers, matrix results, entries of q1, q4 and q5. -/
def Ctx.flights (c : Ctx) : List (Nat × Nat) :=
  ((c.fly ++ (c.mops.map MOp.flies).flatten).map (flightBytes c.ctl)) ++
  ([1, 4, 5].map fun q => (c.pendingIn q).map fun e => recordBytes 4 q (if q = 1 then 8 else 512) e.left (2 ^ 35) e.data none).flatten
def Ctx.flightSize (c : Ctx) : Nat := c.flights.foldl (fun a r => a + r.1) 0
/-- The snapshot's region still has room for results of `n` bytes (R357). -/
def Ctx.flightRoom (c : Ctx) (n : Nat) : Bool := n == 0 || c.flights.isEmpty || decide (c.flightSize + n ≤ 0xE000)
def joinBytes (l : List (Nat × Nat)) : Nat := (l.foldr (fun r a => a * 2 ^ (8 * r.1) + r.2 % 2 ^ (8 * r.1)) 0)
/-- A record of the region, read. -/
structure FlightRec where
  kind : Nat
  num  : Nat
  n    : Nat
  left : Nat
  tail : Nat
  val  : Nat
  bm   : Nat
  deriving DecidableEq, Repr
/-- The records of the region, up to one that does not set its bit. -/
def recordsOf (v : Nat) : Nat → Nat → List FlightRec
  | 0, _ => []
  | fuel + 1, o =>
    let f (i n : Nat) : Nat := bytesAt v (o + i) n
    let n := f 4 2
    let n' := (n + 15) / 16 * 16
    let tail := f 8 8
    if natBits tail 35 1 = 0 then []
    else
      let marked := natBits tail 27 1 == 1
      { kind := f 0 1, num := f 1 3, n := n, left := f 6 2, tail := tail, val := f 16 n, bm := if marked then f (16 + n') n else ones (8 * n) } ::
        recordsOf v fuel (o + 16 + n' + if marked then n' else 0)
/-- A result in flight of its record; `id` is its new number. -/
def FlightRec.fly (c : Ctl) (id : Nat) (r : FlightRec) : Fly :=
  let dst : Dest := match r.kind with
    | 0 => .win r.num | 1 => if r.num = 64 then .mxcfg else .scalar r.num | 2 => .pred r.num | _ => .mask r.num
  { id := id, left := r.left, dst := dst, val := r.val, bm := if r.kind = 0 ∨ r.kind = 3 then r.bm else 0, size := if r.kind = 0 then r.n else 0,
    seq := c.seq - natBits r.tail 0 12, grp := c.grp - natBits r.tail 12 12, slot := (allSlots[natBits r.tail 24 3]?).getD .s,
    flg := BitVec.ofNat 7 (natBits r.tail 28 7), pc := BitVec.ofNat 64 (natBits r.tail 36 28) }
/-- The pending entries of a queue take their values in flight, in order. -/
def attach : List QEnt → List FlightRec → List QEnt
  | [], _ => []
  | e :: l, [] => e :: attach l []
  | e :: l, r :: rs => if e.arrived then e :: attach l (r :: rs) else { e with left := r.left, data := r.val } :: attach l rs
/-- An entry as the queues' own area holds it: what is in flight has no value there. -/
def QEnt.still (e : QEnt) : QEnt := if e.arrived then e else { e with left := 0, data := 0 }
/-- Bytes of a plane, with its block scales behind elements of less than 16 bits, where the 64 KiB have room for them (log 11). -/
def Plane.split (w : Nat) (p : Plane) : Nat := if p.bgeo = 0 ∨ 16 ≤ w then 0x10000 else 4096 * w
def Plane.image (w : Nat) (p : Plane) : Nat := p.data % 2 ^ (8 * p.split w) + (if p.split w = 0x10000 then 0 else p.scale * 2 ^ (8 * p.split w))
/-- A plane of its bytes; scales that they have no room for are the ones that the machine still holds. -/
def Plane.ofImage (w v : Nat) (p : Plane) : Plane :=
  { p with data := v % 2 ^ (8 * p.split w), scale := if p.split w = 0x10000 then p.scale else v / 2 ^ (8 * p.split w) }
/-- What holds a stopped context, in 24 bytes from `base`: kind (1 a `sleep`, 2 a `bar` that has counted), class, key, ticks or
address, target. -/
def holdBytes (base : Nat) : Option Hold → List (Nat × Nat × Nat)
  | some (.sleep n) => [(base, 1, 1), (base + 8, 8, n)]
  | some (.bar a k cls _ (some t)) => [(base, 1, 2), (base + 1, 1, cls), (base + 4, 4, k), (base + 8, 8, a), (base + 16, 8, t.toNat)]
  | _ => []
def holdOf (v base : Nat) : Option Hold :=
  let f (o n : Nat) : Nat := bytesAt v (base + o) n
  match f 0 1 with
  | 1 => some (.sleep (f 8 8))
  | 2 => some (.bar (f 8 8) (f 4 4) (f 1 1) [] (some (BitVec.ofNat 64 (f 16 8))))
  | _ => none
/-- The 4 KiB of withheld credits and queue positions: the rings', the undo images' blocks, q4's and q5's entries, the places of the
bundles, the planes' settings, what holds the context, its `brk` or `trap` to come, and commands without a record. -/
def Snap.creditBytes (n : Snap) : Nat :=
  let c := n.ctx
  let q (e : QEnt) : Nat := 1 + 2 * e.arrived.toNat + 4 * e.fresh.toNat + e.still.left * 2 ^ 8 + e.id * 2 ^ 32
  let own (l : List Owed) : Nat := l.countP (·.own)
  layBytes ((n.rings.map fun r => placeAt (16 * r.1) 2 [r.2.wfree, r.2.wfill, own r.2.pops, own r.2.pushes, 1]).flatten ++
    placeAt 0x400 2 (c.undo.map fun u => u.1 + 1) ++ placeAt 0x500 8 ((c.rqGet 4).map q) ++ placeAt 0x580 8 ((c.rqGet 5).map q) ++
    c.ctl.placeBytes 0x600 ++ c.shadow.placeBytes 0x640 ++
    [(0x680, 1, c.ckDue.toNat + 2 * c.halting.toNat + 4 * c.irrev.isSome.toNat + 8 * c.nest.toNat + 16 * c.soft.isSome.toNat),
     (0x681, 1, c.priv.toNat + 4 * c.epriv.toNat), (0x682, 1, c.acted),
     (0x688, 8, c.epc.toNat), (0x690, 8, c.irrev.getD 0), (0x698, 8, n.id + 1), (0x6A0, 1, c.p0.bfd), (0x6A1, 1, c.p0.bgeo), (0x6A2, 1, c.p1.bfd),
     (0x6A3, 1, c.p1.bgeo), (0x6A4, 1, c.p0.fresh.toNat + 2 * c.p1.fresh.toNat), (0x6A8, 8, c.flt.sav0.toNat)] ++
    placeAt 0x6B0 1 (allSlots.map fun sl => (c.q sl).length) ++ [(0x6B8, 8, c.flt.sav1.toNat)] ++ holdBytes 0x6C0 c.wait ++
    (match c.soft with | some (k, i, p) => [(0x6D8, 8, k), (0x6E0, 8, i.toNat), (0x6E8, 8, p.toNat)] | none => []) ++
    placeAt 0x700 8 (n.quiet.take 288))
/-- The withholding buffer's 128 records. -/
def Snap.heldBytes (n : Snap) : Nat :=
  layBytes ((((n.ctx.held.map (WEnt.records n.place)).flatten.zipIdx.filter fun e => decide (e.2 < 128)).map fun e =>
    e.1.map fun f => (96 * e.2 + f.1, f.2)).flatten)
/-- Bits of a plane's elements. -/
def State.planeWidth (s : State) (part : Nat) (p : Plane) : Nat := dWidth (s.desc part p.bfd)
/-- Unit `u` of a snapshot (R355). -/
def State.snapUnit (s : State) (who : Nat) (i : Inst) (n : Snap) (u : Nat) : Nat :=
  let o := u * 64
  let c := n.ctx
  if o < 0x2000 then elemAt (s.snapHeader who i n) 512 u
  else if o < 0x6000 then s.bytes (spillBase who + (o - 0x2000)) 64
  else if o < 0xA000 then (aget noLayout c.layout ((o - 0x6000) / 64)).toNat
  else if o < 0x12000 then elemAt (((c.undo[(o - 0xA000) / 512]?).map (·.2)).getD 0) 512 ((o - 0xA000) / 64 % 8)
  else if o < 0x15000 then elemAt n.heldBytes 512 ((o - 0x12000) / 64)
  else if o < 0x16000 then (((c.rqGet ((o - 0x15000) / 0x400))[(o - 0x15000) / 64 % 16]?).map fun e => e.still.unit).getD 0
  else if o < 0x1A000 then
    elemAt ((((c.rqGet (4 + (o - 0x16000) / 0x2000))[(o - 0x16000) / 512 % 16]?).map (·.still.data)).getD 0) 512 ((o - 0x16000) / 64 % 8)
  else if o < 0x1B000 then elemAt n.creditBytes 512 ((o - 0x1A000) / 64)
  else if o < 0x1D000 then
    (((c.q ((allSlots[(o - 0x1B000) / 0x400]?).getD .s))[(o - 0x1B000) / 64 % 16]?).map fun e => e.unit c.ctl).getD 0
  else if o < 0x2B000 then elemAt (joinBytes c.flights) 512 ((o - 0x1D000) / 64)
  else if o < 0x3B000 then elemAt (c.p0.image (s.planeWidth n.part c.p0)) 512 ((o - 0x2B000) / 64)
  else if o < 0x4B000 then elemAt (c.p1.image (s.planeWidth n.part c.p1)) 512 ((o - 0x3B000) / 64)
  else s.bytes (s.winBase who + (o - 0x4B000)) 64
/-- Units of a snapshot. -/
def snapUnits (win512 : Bool) : Nat := (if win512 then 0xCB000 else 0x8B000) / 64
/-- Renames the holder of a partition's deferred pages. -/
def Part.moveDefer (p : Part) (old new : Nat) : Part :=
  { p with defer := p.defer.map fun d => (d.1, d.2.1.map fun w => if w.1 = old then (new, w.2) else w, d.2.2) }
/-- A snapshot takes the credits of its context's firings with it (R38), and gives them back. A snapshot that the machine holds no record
of gives back as many as its bytes say. -/
def Ring.taken (r : Ring) (id : Nat) : Ring :=
  let out (o : Owed) : Owed := if o.own then { o with own := false, saved := some id } else o
  { r with pops := r.pops.map out, pushes := r.pushes.map out }
def Ring.givenBack (r : Ring) (id pops pushes : Nat) : Ring :=
  let back (o : Owed) : Owed := if o.saved == some id then { o with own := true, saved := none } else o
  if (r.pops ++ r.pushes).any fun o => o.saved == some id then { r with pops := r.pops.map back, pushes := r.pushes.map back }
  else
    { r with pops := r.pops ++ (List.range pops).map fun j => { own := true, done := true, readers := r.readersOf (r.head + r.count * pops - pops + j) },
             pushes := r.pushes ++ List.replicate pushes { own := true, done := true } }
/-- What is in flight can drain into a snapshot (R38): every load has its data without an error, and every matrix operation its result. -/
def State.drained (s : State) (who : Nat) : Bool :=
  let c := s.ctx who
  c.mops.all MOp.inFlight && c.fly.all fun f => f.late.isNone || (f.fixed && (s.badUnit f.units).isNone)
/-- Matrix results of a stopped context become results in flight like others, and their firings' credits are withheld (R38). -/
def State.settleM (s : State) (who : Nat) : State :=
  let ms := (s.ctx who).mops
  let s := ms.foldl State.creditM s
  s.modCtx who fun c => (ms.map MOp.flies).flatten.foldl Ctx.launch { c with mops := [] }
/-- The snapshot of a context as it stands. -/
def State.snapshot (s : State) (who part addr : Nat) (i : Inst) : Snap :=
  let core := s.core (coreOf who)
  { id := s.ids, part := part, addr := addr, place := who, ctx := s.ctx who, win512 := core.two, bind := core.bind,
    quiet := ((s.cmds.filter fun c => c.who == who && c.nq).map (·.id + 1)) ++
      (s.dies.map fun d => (d.2.stage.queue.filter fun o => o.who == who && o.nq).map (·.id + 1)).flatten,
    stores := (s.fab.reqs.filter fun r => r.open who && r.kind == 1).map (·.id),
    rings := core.rings.filter (fun r => r.2.owner == ctxOf who), prog := s.spliced who i }
/-- The units of a snapshot's place, as stores reach them. -/
def State.snapPlace (s : State) (who part addr : Nat) : Except Stop (List (Nat × Nat)) :=
  mapOk (fun u => s.unitAt (coreOf who) part (addr + 64 * u) true) (List.range (snapUnits (s.core (coreOf who)).two))
/-- Saves a stopped context at a virtual address of its instance's partition, and empties it. -/
def State.saveTo (s : State) (who part addr : Nat) : Except Stop State :=
  let s := (s.leaveBcast who).settleM who
  match (s.ctx who).inst with
  | none => .ok s
  | some i =>
    let n := s.snapshot who part addr i
    match s.snapPlace who part addr with
    | .error e => .error e
    | .ok ps =>
      let us := List.range (snapUnits n.win512)
      let t := (us.zip ps).foldl (fun t p => t.writeUnit p.2.1 p.2.2 (s.snapUnit who i n p.1) (ones 512)) s
      let t := t.setPart i.part ((t.part i.part).moveDefer who (savedParty + n.id))
      let t := t.modCore (coreOf who) fun k => k.ownRings (ctxOf who) fun r => r.taken n.id
      let t := { t with ids := t.ids + 1, svc := { t.svc with snaps := t.svc.snaps ++ [n] } }
      .ok (((t.modCtx who fun c => { c with wins := [] }).vacate who).elect (coreOf who))

/-- Values of a snapshot's units from a byte offset. -/
def State.snapRead (s : State) (core part addr off units : Nat) : Except Stop Nat :=
  match mapOk (fun u => match s.unitAt core part (addr + off + 64 * u) false with
      | .error e => Except.error e
      | .ok p => .ok (s.unitUnder p.1 p.2)) (List.range units) with
  | .error e => .error e
  | .ok l => .ok (packElems 512 l)
/-- A control state from its header bytes at `base` and its places at `at'` of the credit bytes. Writes of latches that no later bundle
waits for stay with the context (`c`). -/
def Ctl.fromBytes (c : Ctl) (h base k at' : Nat) : Ctl :=
  let f (o n : Nat) : Nat := bytesAt h (base + o) n
  let g (o n : Nat) : Nat := bytesAt k (at' + o) n
  let seq := g 0 8
  let pend (n d sel : Nat) : List LatW :=
    if natBits (g 24 2) (pendNo n d) 1 = 0 then []
    else [{ seq := seq + d - (if n < 2 then 3 else 2), sel := if sel = 0 then .v0 else if sel = 1 then .v1 else if sel = 2 then .mr else .mc,
            val := BitVec.ofNat 2048 (f (0x840 + (pendAt n d).1) (pendAt n d).2),
            k := BitVec.ofNat 2 (if n < 2 then natBits (g 26 2) (2 * pendNo n d) 2 else 0) }]
  { c with
    pc := BitVec.ofNat 64 (g 16 8), seq := seq, grp := g 8 8,
    fstat := BitVec.ofNat 7 (f 0 8), nbv := f 8 8 != 0, srseed := BitVec.ofNat 64 (f 16 8), sridx := BitVec.ofNat 32 (f 24 8),
    ib := (List.range 8).map fun i => (i, BitVec.ofNat 16 (f (48 + 2 * i) 2)),
    ibf := (List.range 8).map fun i => (i, BitVec.ofNat 16 (g (32 + 2 * i) 2)),
    vv := BitVec.ofNat 32 (f 64 4), vw := BitVec.ofNat 32 (f 68 4), vt := BitVec.ofNat 32 (f 72 4), va := BitVec.ofNat 32 (f 76 4),
    p := (List.range 15).map fun i => (i + 1, natBits (f 80 2) (i + 1) 1 == 1), mxcfg := BitVec.ofNat 64 (f 88 8),
    s := (List.range 63).map fun i => (i + 1, BitVec.ofNat 64 (f (0xC8 + 8 * i) 8)),
    m := (List.range 8).map fun i => (i, BitVec.ofNat 1024 (f (0x2C0 + 128 * i) 128)),
    lat := { v0 := BitVec.ofNat 512 (f 0x6C0 64), k0 := BitVec.ofNat 2 (g 28 1), v1 := BitVec.ofNat 512 (f 0x700 64),
             k1 := BitVec.ofNat 2 (g 28 1 / 4), mr := BitVec.ofNat 1024 (f 0x740 128), mc := BitVec.ofNat 1024 (f 0x7C0 128) },
    latw := (c.latw.filter fun w => decide (w.seq + w.reach ≤ seq)) ++
      ([1, 2, 3].map fun d => pend 0 d 0 ++ pend 1 d 1 ++ if d < 3 then pend 2 d 2 ++ pend 3 d 3 else []).flatten }
/-- The withheld updates of a context from their records. -/
def heldOf (who part v : Nat) : Nat → Nat → List WEnt
  | 0, _ => []
  | n + 1, j =>
    let f (o n : Nat) : Nat := bytesAt v (96 * j + o) n
    let kind := f 81 1 % 16
    let marks := decide (f 81 1 / 16 = 1)
    if f 72 8 = 0 then []
    else
      let a := f 64 8 + if kind = 0 ∨ kind = 6 then 0 else regionBase who kind
      { cls := f 80 1, unit := a / 64, mask := if kind = 6 then ones 512 else if marks then f 96 64 else byteBits (f 72 8), val := f 0 64,
        key := f 82 4, drawer := if kind = 0 then drawerOf a else none, part := part } :: heldOf who part v n (j + if marks then 2 else 1)
/-- The entries of a result queue from their bytes. -/
def queueOf (q v k : Nat) : List QEnt :=
  (List.range 16).filterMap fun j =>
    let w := if q < 4 then bytesAt v (0x400 * q + 64 * j + 8) 8 else bytesAt k (0x500 + 0x80 * (q - 4) + 8 * j) 8
    if w % 2 = 0 then none
    else some { arrived := natBits w 1 1 == 1, fresh := natBits w 2 1 == 1,
                data := if q < 4 then bytesAt v (0x400 * q + 64 * j) 8 else bytesAt v (0x1000 + 0x2000 * (q - 4) + 512 * j) 512,
                left := if q < 4 then bytesAt v (0x400 * q + 64 * j + 16) 8 else natBits w 8 8,
                id := if q < 4 then bytesAt v (0x400 * q + 64 * j + 24) 8 else w / 2 ^ 32,
                seq := if q < 4 then bytesAt v (0x400 * q + 64 * j + 32) 8 else 0 }
/-- The instance of a header: what the snapshot keeps of it, or its task's record on the die (R356). -/
def State.instOf (s : State) (who part h : Nat) (old : Option Inst) : Inst :=
  let no : Word := BitVec.ofNat 64 (bytesAt h 0x10 8)
  let x := bytesAt h 0x20 8
  let base : Inst :=
    match old with
    | some i => i
    | none =>
      let t := ((s.die (dieOfWho who)).tasks.find? fun t => t.2.taskno == no).getD (0, {})
      let k := s.taskKernel t.2
      { die := dieOfWho who, slot := t.1, taskno := no, wid := 0, widths := t.2.widths, counts := t.2.counts, part := part,
        img := x % 65536, ksym := x / 65536 % 2 ^ 32, first := (k.map (·.first)).getD 0, nb := (k.map (·.nb)).getD 0,
        win512 := natBits h 48 1 == 1, bcore := coreOf who, spl := if natBits h 50 1 = 1 then some x else none }
  { base with taskno := no, wid := BitVec.ofNat 64 (bytesAt h 0x18 8), lvl := bytesAt h 0x38 1, limit := bytesAt h 0x39 1, held := 0 }
/-- Whether a snapshot with this header may come back on a context (R358), which a core of two contexts has to have (R40). -/
def State.mayRestore (s : State) (who h : Nat) (n : Snap) : Bool :=
  let k := s.core (coreOf who)
  natBits h 0 32 == 0x504E535A && natBits h 32 16 == 1 && (natBits h 48 1 == 1) == k.two && (!n.bound || n.place == who) &&
  (!k.two || decide (ctxOf who < 2)) && k.provides (natBits h 0x140 6)
/-- What the machine still holds of the snapshot whose number stands in its credit bytes, or no more than its header says. -/
def State.snapOf (s : State) (part addr h id : Nat) : Snap :=
  match s.svc.snaps.find? fun n => n.id + 1 == id && n.part == part with
  | some n => n
  | none =>
    let p := bytesAt h 0x30 8
    let who := (natBits p 8 2 * 64 + natBits p 6 2 * 16 + natBits p 2 4) * 4 + natBits p 0 2
    { id := s.ids, part := part, addr := addr, place := who, ctx := {}, win512 := natBits h 48 1 == 1, bind := BitVec.ofNat 4 (bytesAt h 0x29 1),
      bnd := natBits h 49 1 == 1,
      prog := if natBits h 50 1 = 1 then (s.dies.findSome? fun d => d.2.cache.find? fun p => p.id == bytesAt h 0x20 8) else none }
/-- A restore waits while a store that the context released before is still on its way (R256), or the splice cache lacks room for
its program (R270). -/
def State.restoreWaits (s : State) (who : Nat) (n : Snap) : Bool :=
  (s.fab.reqs.any fun r => n.stores.contains r.id && !r.done && !r.dropped) || (s.rebuildOn (dieOfWho who) n.prog).isNone
/-- The parts of a snapshot as they stand in memory: header, spill memory, layout table, undo file, withheld updates, result queues, credits
and positions, slot queues, results in flight, planes, register window. -/
structure SnapImage where
  head : Nat
  spill : Nat
  lay : Nat
  undo : Nat
  held : Nat
  rq : Nat
  cred : Nat
  slots : Nat
  fly : Nat
  planes : Nat
  win : Nat
  deriving DecidableEq, Repr
/-- Reads a snapshot. -/
def State.snapImage (s : State) (core part addr window : Nat) : Except Stop SnapImage :=
  match mapOk (fun (p : Nat × Nat) => s.snapRead core part addr p.1 p.2)
      [(0, 128), (0x2000, 256), (0x6000, 256), (0xA000, 512), (0x12000, 192), (0x15000, 320), (0x1A000, 64), (0x1B000, 128), (0x1D000, 896),
       (0x2B000, 2048), (0x4B000, window / 64)] with
  | .error e => .error e
  | .ok l =>
    let v (i : Nat) : Nat := l.getD i 0
    .ok { head := v 0, spill := v 1, lay := v 2, undo := v 3, held := v 4, rq := v 5, cred := v 6, slots := v 7, fly := v 8, planes := v 9, win := v 10 }
/-- The planes of a snapshot: their bits stand at 0xA0 of the header. -/
def State.planeOf (s : State) (part : Nat) (m : SnapImage) (x : Plane) (n : Nat) : Plane :=
  let f (o n : Nat) : Nat := bytesAt m.cred o n
  let p : Plane := { x with bfd := f (0x6A0 + 2 * n) 1, bgeo := f (0x6A1 + 2 * n) 1, loaded := natBits m.head (8 * 0xA0 + 2 * n) 1 == 1,
                            read := natBits m.head (8 * 0xA0 + 2 * n + 1) 1 == 1, fresh := natBits (f 0x6A4 1) n 1 == 1 }
  p.ofImage (s.planeWidth part p) (natBits m.planes (n * 8 * 0x10000) (8 * 0x10000))
/-- The context of a snapshot from its bytes. The FLT words, which no snapshot holds, stay the target's own (R351, R355); an instance in its
handler finds its SAV words again (log 11). -/
def State.fromSnap (s : State) (who part : Nat) (n : Snap) (m : SnapImage) : Ctx :=
  let old := s.ctx who
  let x := n.ctx
  let f (o n : Nat) : Nat := bytesAt m.cred o n
  let bit (k : Nat) : Bool := natBits (f 0x680 1) k 1 == 1
  let ctl := { x.ctl.fromBytes m.head 0x40 m.cred 0x600 with pc := BitVec.ofNat 64 (bytesAt m.head 8 8) }
  let recs := recordsOf m.fly 4096 0
  let held := heldOf who part m.held 128 0
  { x with
    ctl := ctl, shadow := x.shadow.fromBytes m.head 0xC00 m.cred 0x640,
    ticks := BitVec.ofNat 64 (bytesAt m.head 0x60 8), bundles := BitVec.ofNat 64 (bytesAt m.head 0x68 8),
    ckTicks := BitVec.ofNat 64 (bytesAt m.head 0xC20 8), ckBundles := BitVec.ofNat 64 (bytesAt m.head 0xC28 8), ckPlanes := bytesAt m.head 0xC60 1,
    p0 := s.planeOf part m x.p0 0, p1 := s.planeOf part m x.p1 1,
    queues := allSlots.map fun sl => (sl.num, (List.range (f (0x6B0 + sl.num) 1)).map fun j => Ent.ofUnit ctl (elemAt m.slots 512 (16 * sl.num + j))),
    fly := ((recs.filter fun r => r.kind != 4).zipIdx.map fun r => r.1.fly ctl (s.ids + r.2)), mops := [],
    rq := (List.range 6).map fun q => (q, attach (queueOf q m.rq m.cred) (recs.filter fun r => r.kind == 4 && r.num == q)),
    undo := (List.range 64).filterMap fun j => let b := f (0x400 + 2 * j) 2; if b = 0 then none else some (b - 1, elemAt m.undo 4096 j),
    held := held ++ x.held.drop held.length,
    layout := (List.range 256).map fun k => (k, BitVec.ofNat 512 (elemAt m.lay 512 k)),
    wins := [], inst := some (s.instOf who part m.head x.inst), arr := natBits m.head 51 1 == 1,
    ckDue := bit 0, halting := bit 1, irrev := if bit 2 then some (f 0x690 8) else none, nest := bit 3, acted := f 0x682 1,
    soft := if bit 4 then some (f 0x6D8 8, BitVec.ofNat 64 (f 0x6E0 8), BitVec.ofNat 64 (f 0x6E8 8)) else none, wait := holdOf m.cred 0x6C0,
    priv := BitVec.ofNat 2 (f 0x681 1), epriv := BitVec.ofNat 2 (f 0x681 1 / 4), epc := BitVec.ofNat 50 (f 0x688 8),
    flt := if bit 3 then { old.flt with sav0 := BitVec.ofNat 64 (f 0x6A8 8), sav1 := BitVec.ofNat 64 (f 0x6B8 8) } else old.flt,
    tvec := old.tvec, hold := false, susp := true, level := 0, idle := 0, due := false, spent := none }
/-- A touch window of a header's 64 bytes, on the context that has come back: the pages are those of the record, or the present ones, and
the bytes of the box come from its layout (log 11). -/
def State.rewindow (s : State) (who : Nat) (old : List TWin) (u : Nat) : Option TWin :=
  let f (o n : Nat) : Nat := bytesAt u o n
  let l := s.lay who (f 2 1)
  let org := (List.range l.rank).map fun i => (BitVec.ofNat 32 (f (8 + 4 * i) 4)).toInt
  let ext := (List.range l.rank).map fun i => f (32 + 4 * i) 4
  let w := natBits (f 1 1) 0 1 == 1
  let t : TWin := { n := f 0 1 - 1, w := w, left := f 3 2, bytes := [], pages := [], le := f 2 1, org := org, ext := ext, fresh := natBits (f 1 1) 1 1 == 1 }
  let cs := boxCoords org ext
  if f 0 1 = 0 then none
  else
    match old.find? fun o => o.n == t.n && o.le == t.le && o.org == org && o.ext == ext with
    | some o => some { t with bytes := o.bytes, pages := o.pages }
    | none =>
      match s.access1 who t.le w false cs with
      | .error _ => none
      | .ok a => some { t with bytes := l.boxBytes (s.memOrigin (coreOf who) l w) (dWidth a.fmt) cs, pages := a.pages }
def State.rewind (s : State) (who head : Nat) (old : List TWin) : State :=
  (List.range 32).foldl (fun s j =>
    match s.rewindow who old (elemAt head 512 (0x60 + j)) with
    | some w => s.modCtx who fun c => { c with wins := c.wins ++ [w] }
    | none => s) s
/-- The rings that a snapshot names take its credits back. -/
def Snap.giveBack (n : Snap) (cr : Nat) (k : Core) : Core :=
  (List.range 64).foldl (fun k r =>
    let f (i : Nat) : Nat := bytesAt cr (16 * r + 2 * i) 2
    if f 4 = 0 then k else k.setRing r ((k.ring r).givenBack n.id (f 2) (f 3))) k
/-- Brings a snapshot back onto an empty context, from its bytes: it is stopped there until its level is granted. -/
def State.restoreTo (s : State) (who part addr : Nat) (n : Snap) : Except Stop State :=
  let core := coreOf who
  let w := if n.win512 then 0x80000 else 0x40000
  match s.snapImage core part addr w with
  | .error e => .error e
  | .ok m =>
    let c := s.fromSnap who part n m
    let t := ({ s with ids := s.ids + c.fly.length }.setCtx who c).putBytes (spillBase who) 0x4000 m.spill
    let t := (t.putBytes (t.winBase who) w m.win).rewind who m.head n.ctx.wins
    let t := t.modCore core (n.giveBack m.cred)
    let t := t.setPart part ((t.part part).moveDefer (savedParty + n.id) who)
    let t := (t.rebuildOn (dieOf core) n.prog).getD t
    .ok (({ t with svc := { t.svc with snaps := t.svc.snaps.filter fun m => m.id != n.id } }).askResume who)

/-- The instance has held its context for its quantum (R335). -/
def State.overrun (s : State) (i : Inst) : Bool :=
  let q := ((s.die i.die).task i.slot).quant.toNat
  q != 0 && decide (q * 4096 ≤ i.held)
/-- A stopped context that overran stays stopped while something of it cannot drain yet: its snapshot waits for that (R38). -/
def State.saving (s : State) (who : Nat) (i : Inst) : Bool := ((s.ctx who).preReq || s.overrun i) && !s.drained who
/-- A context goes on: in place after HOLD has cleared, or with a pre-empted instance of the first-ranked task (R331). -/
def execContextResume (who : Nat) (s : State) : Out :=
  let c := s.ctx who
  if c.hold then .next s
  else if c.inst.isSome then
    .next (if c.susp && !(match c.inst with | some i => s.saving who i | none => false) then s.askResume who else s)
  else if !s.freeCtx who then .next s
  else
    match s.offer who with
    | some (.saved slot k addr) =>
      let t := (s.die (dieOfWho who)).task slot
      match s.snap t.part addr with
      | none => .next s
      | some n =>
        if s.restoreWaits who n then .next s
        else
        match s.restoreTo who t.part addr n with
        | .ok u => .next (u.modDie (dieOfWho who) fun d =>
            { d with saves := d.saves.filter (fun x => x != (t.part, k)),
                     tasks := aset d.tasks slot { d.task slot with saved := (d.task slot).saved.filter fun x => x.2.1 != k } })
        | .error (.gone a) => .fault (.noSuchAddress a)
        | .error (.trap _) => .next s
    | _ => .next s

end Sys2Proof.Machine
end

