-- ==== Sys2Proof/Machine/Queue.lean ====
section
/-! DEFINITION. Command queues as the service die keeps them (R317, R319 to R322): packets, CMD events, completions, and the
pass of CI. -/

namespace Sys2Proof.Machine

/-! ## Near memory of a queue (R319, R322) -/

/-- Units that `n` bytes from an address touch, as positions from its own. -/
def unitSpan (a n : Nat) : List Nat := List.range ((a % 64 + n + 63) / 64)
/-- All of `n` bytes stand in near memory. -/
def State.nearOk (s : State) (part a n : Nat) : Bool := (unitSpan a n).all fun i => (s.nearUnit part ((a / 64 + i) * 64)).isSome
/-- `n` bytes from a near address; an unmapped unit reads 0. -/
def State.nearRead (s : State) (part a n : Nat) : Nat :=
  (packElems 512 ((unitSpan a n).map fun i =>
    match s.nearUnit part ((a / 64 + i) * 64) with
    | some (some k, u) => s.unitUnder k u
    | some (none, u) => s.mem.read (u * 64) 64
    | none => 0) >>> (8 * (a % 64))) % 2 ^ (8 * n)
/-- Writes `n` bytes from a near address. -/
def State.nearWrite (s : State) (part a n v : Nat) : State :=
  (unitSpan a n).foldl (fun s i =>
    let sh : Nat := v <<< (8 * (a % 64)) >>> (512 * i) % 2 ^ 512
    let bm : Nat := ones (8 * n) <<< (8 * (a % 64)) >>> (512 * i) % 2 ^ 512
    match s.nearUnit part ((a / 64 + i) * 64) with
    | some (some k, u) => s.writeUnit k u sh bm
    | some (none, u) => { s with mem := s.mem.writeMask (u * 64) 64 sh bm }
    | none => s) s

/-! ## Packets (R319, R320) -/

def CmdQ.slot (c : CmdQ) : Nat := c.ci.toNat % c.count
/-- `n` bytes at offset `o` of the packet at CI. -/
def State.packet (s : State) (q o n : Nat) : Nat := let c := s.queue q; s.nearRead c.part (c.base + 64 * c.slot + o) n
def State.opc (s : State) (q : Nat) : Nat := s.packet q 0 1
def State.len (s : State) (q : Nat) : Nat := s.packet q 2 2
def State.hseq (s : State) (q : Nat) : BitVec 32 := BitVec.ofNat 32 (s.packet q 4 4)
/-- Entries published and not yet passed. -/
def CmdQ.avail (c : CmdQ) : Nat := (c.pi - c.ci).toNat
/-- A packet at CI is published whole; LEN = 0 counts as one entry. -/
def State.packetReady (s : State) (q : Nat) : Bool :=
  let c := s.queue q
  c.opened && decide (1 ≤ c.avail) && decide (Nat.max 1 (s.len q) ≤ c.avail)
/-- LEN of a command. -/
def lenOf : Nat → Option Nat
  | 1 => some 4 | 2 => some 2 | 3 => some 1 | 4 => some 2 | 5 => some 1 | 6 => some 1 | _ => none
/-- A packet that no command's own checks reach: its completion's STATUS and CODE. -/
def State.malformed (s : State) (q : Nat) : Option (Nat × Nat) :=
  let n := s.len q
  let c := s.queue q
  if n = 0 then some (3, 0)
  else if c.count < c.slot + n then some (1, 14)
  else
    match lenOf (s.opc q) with
    | none => some (1, 15)
    | some k => if n ≠ k then some (1, 17) else if (s.opc q = 4 ∨ s.opc q = 5) ∧ q ≠ 0 then some (1, 15) else none

/-! ## Events (R317) -/

def isCmdEvent (e : Word) : Bool := e.toNat / 2 ^ 56 == 1
/-- Appends a CMD event, or lets it wait for its share. -/
def Service.addCmd (v : Service) (e : Word) : Service :=
  if v.cmdWait.isEmpty && decide ((v.events.filter isCmdEvent).length < 2048) then { v with events := v.events ++ [e] }
  else { v with cmdWait := v.cmdWait ++ [e] }
/-- The CMD event of the packet at CI, once it is published whole; a packet published in part raises an event too, which firmware
ends without answering (R319). -/
def State.cmdEvent (s : State) (q : Nat) : State :=
  let c := s.queue q
  if !c.opened || c.avail = 0 || c.posted || !c.store.isEmpty then s
  else
    let e := BitVec.ofNat 64 (eventHigh 1 0 (s.len q) * 2 ^ 32 + q * 2 ^ 20 + c.evSeq.toNat)
    let s := s.setQueue q { c with posted := s.packetReady q, evSeq := c.evSeq + 1 }
    { s with svc := s.svc.addCmd e }
/-- A token is that of the event which the whole packet at CI has raised. -/
def CmdQ.eventIs (c : CmdQ) (n : BitVec 20) : Bool := c.posted && n + 1 == c.evSeq
/-- Takes the oldest event; a waiting CMD event takes the room of one. -/
def Service.popEvent (v : Service) : Option (Word × Service) :=
  match v.events with
  | [] => none
  | e :: r =>
    let v := { v with events := r }
    some (e, match v.cmdWait with
      | w :: l => if isCmdEvent e then { v with events := v.events ++ [w], cmdWait := l } else v
      | [] => v)

/-! ## Completions (R321, R322) -/

/-- The 32-byte record without its PHASE. -/
def completion (hseq : BitVec 32) (status code q : Nat) (task : Word) (kind : Nat) : BitVec 256 :=
  BitVec.ofNat 256 (layBytes [(0, 4, hseq.toNat), (4, 1, status), (5, 1, code), (6, 2, q), (8, 8, task.toNat), (17, 1, kind)])
/-- Writes a record at CPI, and the queue's port carries it to the host. -/
def State.putRecord (s : State) (q : Nat) (r : BitVec 256) : State :=
  let c := s.queue q
  let n := c.cpi.toNat
  let v := r.toNat + n / c.count % 2 * 2 ^ 128
  let a := c.cbase + 32 * (n % c.count)
  let s := s.nearWrite c.part a 32 v
  (s.sendPacket (s.svc.portOf q) a (natBytes 32 v)).setQueue q { c with cpi := c.cpi + 1 }
def CmdQ.full (c : CmdQ) : Bool := decide (c.count ≤ (c.cpi - c.cci).toNat)
/-- Answers a command: into the ring, or into the completion store when the ring is full. -/
def State.complete (s : State) (q : Nat) (r : BitVec 256) : State :=
  let c := s.queue q
  if c.store.isEmpty && !c.full then s.putRecord q r else s.setQueue q { c with store := c.store ++ [r] }
/-- Lets waiting records into the ring, oldest first. -/
def State.refill (s : State) (q : Nat) : Nat → State
  | 0 => s
  | n + 1 =>
    let c := s.queue q
    match c.store with
    | r :: l => if c.full then s else ((s.setQueue q { c with store := l }).putRecord q r).refill q n
    | [] => s

/-! ## The pass of CI (R319) -/

/-- A queue that a CLOSEQ waits to close has nothing left. -/
def State.closeDue (s : State) (q : Nat) : State :=
  let c := s.queue q
  if c.closing && c.ci == c.pi then s.setQueue q { c with opened := false, closing := false } else s
/-- CI passes a packet that its handler has answered and released; a launched packet also waits for the four dies. -/
def State.passCI (s : State) (q : Nat) : State :=
  let c := s.queue q
  let got (d : Nat) : Bool := (s.die d).fetched.any fun f => f.1 == q && f.2 == c.ci.toNat
  match c.handled with
  | some (op, n) =>
    if !c.rel || !c.store.isEmpty || (op == 1 && !(List.range 4).all got) then s
    else
      let s := s.setQueue q { c with ci := c.ci + BitVec.ofNat 32 n, handled := none, rel := false, posted := false }
      let s := (List.range 4).foldl (fun s d => s.modDie d fun x => { x with fetched := x.fetched.filter fun f => f.1 != q }) s
      (s.closeDue q).cmdEvent q
  | none => s
/-- The packet at CI has been handled: `op` is 1 for an accepted launch, else 0. -/
def State.handledBy (s : State) (q op n : Nat) : State := (s.setQueue q { s.queue q with handled := some (op, n) }).passCI q
def State.handle (s : State) (q op : Nat) : State := s.handledBy q op (Nat.max 1 (s.len q))
/-- Refuses or reports a malformed packet; else runs the command. -/
def State.command (s : State) (q op : Nat) (f : State → State) : State :=
  let c := s.queue q
  if !s.packetReady q || !c.posted || c.handled.isSome || !c.store.isEmpty then s
  else
    match s.malformed q with
    | some (st, code) => (s.handle q 0).complete q (completion (s.hseq q) st code q 0 0)
    | none => if s.opc q = op then f s else s
/-- Answers a packet of a host tag and `n` entries whose command is done or refused. -/
def State.reply (s : State) (q : Nat) (h : BitVec 32) (n st code : Nat) : State :=
  (s.complete q (completion h st code q 0 0)).handledBy q 0 n
/-- Answers the packet at CI as it stands. -/
def State.answer (s : State) (q st code : Nat) : State := s.reply q (s.hseq q) (Nat.max 1 (s.len q)) st code

/-- A doorbell's value takes effect. -/
def State.ring' (s : State) (q : Nat) (pi : BitVec 32) : State :=
  let c := s.queue q
  if c.count < (pi - c.ci).toNat then s.complete q (completion 0 3 0 q 0 0)
  else (s.setQueue q { c with pi := pi }).cmdEvent q
def execCommandDoorbell (q : Nat) (pi : BitVec 32) (s : State) : Out :=
  let c := s.queue q
  .next <|
    if !c.opened then s
    else if !c.store.isEmpty then s.setQueue q { c with heldPi := some pi }
    else s.ring' q pi
def execCompletionDoorbell (q : Nat) (cci : BitVec 32) (s : State) : Out :=
  let c := s.queue q
  .next <|
    if !c.opened || decide (c.count < (c.cpi - cci).toNat) then s
    else
      let s := (s.setQueue q { c with cci := cci }).refill q c.store.length
      if c.store.isEmpty || !(s.queue q).store.isEmpty then s
      else
        let s := s.passCI q
        match (s.queue q).heldPi with
        | some pi => (s.setQueue q { s.queue q with heldPi := none }).ring' q pi
        | none => if (s.queue q).ci = c.ci then s.cmdEvent q else s

end Sys2Proof.Machine
end

