-- ==== Sys2Proof/Machine/System.lean ====
section
/-! DEFINITION. The system instructions (R299 to R312). -/

namespace Sys2Proof.Machine

/-! ## Privilege (R291, R300) -/

def tPriv (cause : Nat) (srn : Word := 0) : Trap := ⟨3, cause, srn⟩
/-- Least level of an operation; 0 for everything else. -/
def leastLevel : Instr → Nat
  | .sysrd .. | .syswr .. | .eret .. | .tlbinv .. | .ctxsave .. | .ctxrest .. => 1
  | .tstate _ _ _ clr => if clr then 2 else 1
  | .keyld .. | .keyldErase .. | .slotmap .. | .swpat .. | .vote .. | .swq .. | .lnkTrain .. | .lnkPark .. | .lnkWake ..
  | .lnkRetrain .. | .lnkDown .. | .lnkEnable .. | .evqPop .. | .olkAcq .. | .olkRel .. => 2
  | _ => 0
/-- Runs an operation at its least level, under its guard. -/
def privileged (lvl : Nat) (g : Guard) (s : State) (f : State → Out) : Out :=
  if s.level s.cur.who < lvl then .next (s.trap (tPriv 1)) else if s.guard g then f s else .next s
/-- The place that an operand names; its FLT.ADDR is the operand's low half. -/
def State.place (s : State) (sa : BitVec 6) : Srn := srnOf ((s.sreg sa).toNat % 2 ^ 32)
def State.srnWord (s : State) (sa : BitVec 6) : Word := (s.sreg sa) &&& 0xFFFFFFFF
/-- A place outside a level-1 issuer's partition. -/
def State.foreign (s : State) (n : Srn) : Bool :=
  s.level s.cur.who == 1 && !(s.part (s.partOf s.cur.who)).own.getLsbD n.rowN

/-! ## Registers and return (R301, R302) -/

def State.srnAt (s : State) (sa : BitVec 6) (off : BitVec 8) : Nat := ((s.sreg sa).toNat % 2 ^ 32 + off.toNat) % 2 ^ 32
def execSysrd (g : Guard) (sd sa : BitVec 6) (off : BitVec 8) (s : State) : Out :=
  privileged 1 g s fun s =>
    let v := s.srnAt sa off
    .next <|
      match s.written.regCause s.cur.who (srnOf v) false with
      | some c => s.trap (tPriv c (BitVec.ofNat 64 v))
      | none => s.postS 1 sd ((s.written.regRead (srnOf v)).getD 0)
/-- Performs a register write: the place sees it from the next tick (R301). -/
def execSyswr (g : Guard) (sa sb : BitVec 6) (off : BitVec 8) (s : State) : Out :=
  privileged 1 g s fun s =>
    let v := s.srnAt sa off
    .next <|
      match s.written.regCause s.cur.who (srnOf v) true with
      | some c => s.trap (tPriv c (BitVec.ofNat 64 v))
      | none =>
        match s.written.regWrite (srnOf v) (s.sreg sb) with
        | .ok _ =>
          if s.atOnce (srnOf v) (s.sreg sb) then s.putReg (s.cur.who, v, s.sreg sb)
          else { s with regw := s.regw ++ [(s.cur.who, v, s.sreg sb)] }
        | .error c => s.trap (tPriv c (BitVec.ofNat 64 v))
def execEret (g : Guard) (s : State) : Out := privileged 1 g s fun s => .next (s.modMe Ctx.eret)

/-! ## Translation and keys (R303, R304, R347) -/

/-- Whether a page meets what a `tlbinv` names. -/
def Page.named (p : Page) (k : BitVec 2) (a len : Nat) : Bool :=
  if k = 0 then decide (p.base ≤ a) && decide (a < p.base + p.size)
  else if k = 1 then decide (0 < len) && decide (p.base < a + len) && decide (a < p.base + p.size)
  else true
/-- The deferred set's name of a page: its frame. -/
def Page.frame (p : Page) : Nat := physFlat p.tier p.off
/-- A party joins the holders of deferred pages. -/
def Part.deferFor (p : Part) (frames : List Nat) (win : Option (Nat × Nat)) (cmd : Option Nat) : Part :=
  { p with defer := frames.foldl (fun l f =>
      let (ws, cs) := aget ([], []) l f
      aset l f ((match win with | some w => if ws.contains w then ws else ws ++ [w] | none => ws),
                (match cmd with | some c => if cs.contains c then cs else cs ++ [c] | none => cs))) p.defer }
/-- Drops the named translations of a partition; pages that a window or a command still covers are deferred. -/
def State.invalidate (s : State) (part : Nat) (k : BitVec 2) (a len : Nat) : State :=
  let hit (l : List Page) : List Nat := ((l.filter fun p => p.named k a len).map Page.frame).eraseDups
  let s := { s with tlb := s.tlb.filter fun e => !(e.2.1 == part && e.2.2.named k a len) }
  let p := s.part part
  let p := s.ctxs.foldl (fun p c =>
    match c.2.inst with
    | some i => if i.part = part then (c.2.wins.filter fun w => w.left != 0).foldl (fun p w => p.deferFor (hit w.pages) (some (c.1, w.n)) none) p else p
    | none => p) p
  let p := s.svc.snaps.foldl (fun p n =>
    match n.ctx.inst with
    | some i => if i.part = part then n.ctx.wins.foldl (fun p w => p.deferFor (hit w.pages) (some (savedParty + n.id, w.n)) none) p else p
    | none => p) p
  let p := s.cmds.foldl (fun p c => if c.part = part then p.deferFor (hit c.pages) none (some c.id) else p) p
  s.setPart part p
/-- Issues once every earlier store of the issuer has performed. -/
def execTlbinv (g : Guard) (k : BitVec 2) (sa sb sc : BitVec 6) (s : State) : Out :=
  privileged 1 g s fun s =>
    let part := (s.sreg sa).toNat % 64
    .next <|
      if s.level s.cur.who = 1 && part != s.partOf s.cur.who then s.trap (tPriv 2)
      else if s.fab.reqs.any fun r => r.open s.cur.who && r.kind != 0 then s.unissue
      else s.invalidate part k (s.sreg sb).toNat (s.sreg sc).toNat

/-- Sets or empties a key slot and clears the stage. -/
def Service.setKey (v : Service) (i : Nat) (k : Option (BitVec 512 × Nat)) : Service :=
  let l := v.keys.filter fun e => e.1 != i
  { v with keys := match k with | some (c, o) => l ++ [(i, c, o)] | none => l, stage := [] }
/-- KEY.STAGE0 to 7 as a key pair, STAGE0 lowest. -/
def Service.staged (v : Service) : BitVec 512 := BitVec.ofNat 512 (packElems 64 ((List.range 8).map fun i => (aget 0 v.stage i).toNat))
def keyOp (g : Guard) (sa sb : BitVec 6) (erase : Bool) (s : State) : Out :=
  privileged 2 g s fun s =>
    let v := (s.sreg sa).toNat
    let t := s.landWhere fun n => n.group == gKEY
    .next <|
      if 8192 ≤ v then s.trap (tPriv 3)
      else { t with svc := t.svc.setKey v (if erase then none else some (t.svc.staged, (s.sreg sb).toNat % 64)) }
def execKeyld (g : Guard) (sa sb : BitVec 6) (s : State) : Out := keyOp g sa sb false s
def execKeyldErase (g : Guard) (sa sb : BitVec 6) (s : State) : Out := keyOp g sa sb true s

/-! ## Slots and contexts (R305, R306) -/

/-- A binding STI LDI V1I V0I that R112 forbids. -/
def Core.badBinding (k : Core) (b : BitVec 4) : Bool :=
  let m := k.sltmap
  let v (i : Bool) : Bool := m.getLsbD (if i then 1 else 0)
  let p (i : Bool) : Bool := m.getLsbD (if i then 3 else 2)
  !v (b.getLsbD 0) || !v (b.getLsbD 1) || !p (b.getLsbD 2) || !p (b.getLsbD 3) ||
  (b.getLsbD 0 == b.getLsbD 1 && m.getLsbD 0 && m.getLsbD 1) || (b.getLsbD 2 == b.getLsbD 3 && m.getLsbD 2 && m.getLsbD 3)
def execSlotmap (g : Guard) (pd : BitVec 4) (sa sb : BitVec 6) (s : State) : Out :=
  privileged 2 g s fun s =>
    let core := (s.place sa).core
    let b := (s.sreg sb).extractLsb' 8 4
    .next <|
      if (s.core core).badBinding b then s.trap ⟨2, 0, 0⟩
      else (s.modCore core fun k => { k with sltmap := b ++ k.sltmap.setWidth 8 }).postP 1 pd true

/-- The partition whose space a snapshot address is in: the issuer's, or for a firmware core the one that owns the target's
row (log 11). -/
def State.snapPart (s : State) (n : Srn) : Nat :=
  if isFw s.cur.who then ((s.parts.find? fun p => p.2.own.getLsbD n.rowN).map (·.1)).getD 48 else s.partOf s.cur.who
/-- The checks that `ctxsave` and `ctxrest` share. -/
def snapOp (g : Guard) (sa sb : BitVec 6) (s : State) (f : Nat → Nat → Nat → State → Out) : Out :=
  privileged 1 g s fun s =>
    let n := s.place sa
    let addr := (s.sreg sb).toNat
    if addr % 4096 ≠ 0 then .next (s.trap (tBounds 0))
    else if s.foreign n then .next (s.trap (tPriv 2 (s.srnWord sa)))
    else if n.who = s.cur.who then .next (s.trap (tPriv 4 (s.srnWord sa)))
    else f n.who (s.snapPart n) addr (s.landWhere fun m => m.who == n.who && m.group == gCTX)
/-- Holds the target, stops it, saves it; while R39 makes it wait, or a load of the target waits for its data (R38), so does the issuer.
A place that cannot be written traps before the target is held. -/
def execCtxsave (g : Guard) (pd : BitVec 4) (sa sb : BitVec 6) (s : State) : Out :=
  snapOp g sa sb s fun who part addr s =>
    if (s.ctx who).inst.isNone then .next (s.postP 1 pd false)
    else
      match s.snapPlace who part addr with
      | .error (.gone a) => .fault (.noSuchAddress a)
      | .error (.trap x) => .next (s.trap x)
      | .ok _ =>
        let h := s.modCtx who fun c => { c with hold := true }
        match h.stop who with
        | none => .next h.unissue
        | some t =>
          if !t.drained who then .next t.unissue
          else
            match t.saveTo who part addr with
            | .ok u => .next (u.postP 1 pd true)
            | .error (.gone a) => .fault (.noSuchAddress a)
            | .error (.trap x) => .next (s.trap x)
def execCtxrest (g : Guard) (pd : BitVec 4) (sa sb : BitVec 6) (s : State) : Out :=
  snapOp g sa sb s fun who part addr s =>
    if (s.ctx who).inst.isSome || !(s.ctx who).hold then .next (s.postP 1 pd false)
    else
      match s.snapRead (coreOf who) part addr 0 6, s.snapRead (coreOf who) part addr 0x1A680 1 with
      | .ok h, .ok id =>
        let n := s.snapOf part addr h (bytesAt id 0x18 8)
        if !s.mayRestore who h n then .next (s.postP 1 pd false)
        else if s.restoreWaits who n then .next s.unissue
        else
          match s.restoreTo who part addr n with
          | .ok t => .next (t.postP 1 pd true)
          | .error (.gone a) => .fault (.noSuchAddress a)
          | .error (.trap x) => .next (s.trap x)
      | .error (.gone a), _ | _, .error (.gone a) => .fault (.noSuchAddress a)
      | .error (.trap x), _ | _, .error (.trap x) => .next (s.trap x)

/-! ## Clocks, rails, switch and links (R307 to R309) -/

def execSwpat (g : Guard) (pd : BitVec 4) (sa sb : BitVec 6) (s : State) : Out :=
  privileged 2 g s fun s =>
    let r := (s.place sa).rowN
    let p := (s.sreg sb).setWidth 16
    .next <|
      if (s.row r).takes p then (s.setRow r { s.row r with pat := p }).postP 1 pd true else s.postP 1 pd false
def execVote (g : Guard) (sa sb : BitVec 6) (s : State) : Out :=
  privileged 2 g s fun s =>
    .next (s.modDie (natBits (s.sreg sa).toNat 4 2) fun d => d.vote (natBits (s.sreg sa).toNat 0 4) (natBits (s.sreg sb).toNat 0 16))
def execSwq (g : Guard) (sa sb : BitVec 6) (s : State) : Out :=
  privileged 2 g s fun s =>
    .next <|
      if 64 ≤ s.fab.swq.length then s.unissue
      else { s with fab := { s.fab with swq := s.fab.swq ++ [(s.sreg sa, s.sreg sb)] } }
def linkCmd (cmd : Nat) (g : Guard) (pd : BitVec 4) (sa : BitVec 6) (s : State) : Out :=
  privileged 2 g s fun s =>
    .next (match s.lnk ((s.sreg sa).toNat % 256) cmd with | some t => t.postP 1 pd true | none => s.postP 1 pd false)
def execLnkTrain (g : Guard) (pd : BitVec 4) (sa : BitVec 6) (s : State) : Out := linkCmd 0 g pd sa s
def execLnkPark (g : Guard) (pd : BitVec 4) (sa : BitVec 6) (s : State) : Out := linkCmd 1 g pd sa s
def execLnkWake (g : Guard) (pd : BitVec 4) (sa : BitVec 6) (s : State) : Out := linkCmd 2 g pd sa s
def execLnkRetrain (g : Guard) (pd : BitVec 4) (sa : BitVec 6) (s : State) : Out := linkCmd 3 g pd sa s
def execLnkDown (g : Guard) (pd : BitVec 4) (sa : BitVec 6) (s : State) : Out := linkCmd 4 g pd sa s
def execLnkEnable (g : Guard) (pd : BitVec 4) (sa : BitVec 6) (s : State) : Out := linkCmd 5 g pd sa s

/-! ## Events, locks and sensors (R310 to R312) -/

/-- A popped TASKDONE event is being handled until its token is released (R321): the completions that it stands for go under its sequence
number from then on, since another task may take the slot. -/
def Service.begin (v : Service) (e : Word) : Service :=
  if e.toNat / 2 ^ 56 = 2 ∧ e.toNat / 2 ^ 20 % 4096 = 4095 then
    { v with handling := v.handling ++ [(e.toNat % 2 ^ 20, natBits e.toNat 32 16)],
             taskDone := v.taskDone.map fun t => if t.1 = natBits e.toNat 32 16 then (1024 + e.toNat % 2 ^ 20, t.2) else t }
  else v
/-- Takes the oldest event, as `qpop` takes a result (R50). -/
def execEvqPop (g : Guard) (sd : BitVec 6) (pd : BitVec 4) (eb : Bool) (s : State) : Out :=
  privileged 2 g s fun s =>
    .next <|
      match s.svc.popEvent with
      | some (e, v) => ({ s with svc := v.begin e }.postS 1 sd e).postP 1 pd true
      | none => if eb then (s.postS 1 sd 0).postP 1 pd false else s.block (.queue 16)
def tokenQ (v : Word) : Nat := natBits v.toNat 20 12
def tokenN (v : Word) : BitVec 20 := v.setWidth 20
/-- NS of a queue and the core that holds its lock. -/
def Service.lock (v : Service) (q : Nat) : BitVec 20 × Option Nat := aget (0, none) v.locks q
def Service.setLock (v : Service) (q : Nat) (x : BitVec 20 × Option Nat) : Service := { v with locks := aset v.locks q x }
def execOlkAcq (g : Guard) (sa : BitVec 6) (s : State) : Out :=
  privileged 2 g s fun s =>
    let q := tokenQ (s.sreg sa)
    let n := tokenN (s.sreg sa)
    .next <|
      if (s.svc.lock q).1 = n then { s with svc := s.svc.setLock q (n, some s.cur.who) }
      else s.modMe fun c => { c with wait := some (.lock q n.toNat) }
/-- The token's turn has come. -/
def execOrderingLockGrant (who : Nat) (s : State) : Out :=
  .next <|
    match (s.ctx who).wait with
    | some (.lock q n) =>
      if (s.svc.lock q).1.toNat = n then
        { s with svc := s.svc.setLock q (BitVec.ofNat 20 n, some who) }.modCtx who fun c => { c with wait := none }
      else s
    | _ => s
/-- The slots that a complete task still holds are released (R334, log 92). -/
def State.releaseSlots (s : State) (task : Word) : State :=
  { s with dies := s.dies.map fun d => (d.1, { d.2 with tasks := d.2.tasks.map fun (t : Nat × Task) =>
      if t.2.state = 6 ∧ t.2.taskno = task then (t.1, { t.2 with state := 0 }) else t }) }
/-- The handling of a TASKDONE event ends: its task's launch completion is written. -/
def State.taskHandled (s : State) (q n : Nat) : State :=
  if q ≠ 4095 then s
  else
    match s.svc.handling.find? fun h => h.1 == n with
    | none => s
    | some _ =>
      let due := s.svc.taskDone.filter fun t => t.1 == 1024 + n
      let s := { s with svc := { s.svc with handling := s.svc.handling.filter (fun h => h.1 != n),
                                            taskDone := s.svc.taskDone.filter fun t => t.1 != 1024 + n } }
      due.foldl (fun s t => (s.complete t.2.1 t.2.2).releaseSlots (t.2.2.extractLsb' 64 64)) s
def execOlkRel (g : Guard) (sa : BitVec 6) (s : State) : Out :=
  privileged 2 g s fun s =>
    let q := tokenQ (s.sreg sa)
    let n := tokenN (s.sreg sa)
    .next <|
      if s.svc.lock q = (n, some s.cur.who) then
        let s := { s with svc := s.svc.setLock q (n + 1, none) }.taskHandled q n.toNat
        if (s.queue q).eventIs n then (s.setQueue q { s.queue q with rel := true }).passCI q else s
      else s.trap (tPriv 4)
/-- Reads a sensor; with CLR the maximum then becomes the present reading. -/
def execTstate (g : Guard) (sd sa : BitVec 6) (clr : Bool) (s : State) : Out :=
  privileged (if clr then 2 else 1) g s fun s =>
    let v := (s.sreg sa).toNat
    let die := natBits v 4 2
    let n := natBits v 0 4
    .next <|
      if 64 ≤ v then s.trap (tPriv 3)
      else
        let (temp, tmax, age, armed) := aget (0, 0, 0, true) (s.die die).sens n
        let s := s.postS 1 sd (pk [(32, age.toNat), (16, tmax.toNat), (0, temp.toNat)])
        if clr then s.modDie die fun d => { d with sens := aset d.sens n (temp, temp, age, armed) } else s

end Sys2Proof.Machine
end

