-- ==== Sys2Proof/Machine/Loader.lean ====
section
/-! DEFINITION. Images (R271 to R276, R287, R290): the file's records, the checks of a LOADIMG in their order, placement,
relocation, and unloading. -/

namespace Sys2Proof.Machine

/-! ## The file (R271 to R274) -/

/-- A file as a reader of `n` bytes at an offset. -/
abbrev File := Nat → Nat → Nat
structure Sec where
  ty    : Nat
  link  : Nat
  off   : Nat
  size  : Nat
  align : Nat
  rest  : Nat
structure Sym where
  sec   : Nat
  kind  : Nat
  value : Nat
structure Rel where
  pos  : Nat
  sym  : Nat
  kind : Nat
  add  : Int

def secsOf (f : File) : List Sec :=
  (List.range (f 12 4)).map fun i =>
    let o := f 16 8 + 32 * i
    { ty := f (o + 4) 2, link := f (o + 6) 2, off := f (o + 8) 8, size := f (o + 16) 8, align := f (o + 24) 1, rest := f (o + 25) 7 }
def symsOf (f : File) (l : List Sec) : List Sym :=
  ((l.filter fun x => x.ty == 4).map fun x => (List.range (x.size / 24)).map fun i =>
    let o := x.off + 24 * i
    ({ sec := f (o + 4) 2, kind := f (o + 6) 1, value := f (o + 8) 8 } : Sym)).flatten
/-- Relocations with the section that they patch. -/
def relsOf (f : File) (l : List Sec) : List (Nat × Rel) :=
  ((l.filter fun x => x.ty == 5).map fun x => (List.range (x.size / 24)).map fun i =>
    let o := x.off + 24 * i
    (x.link, ({ pos := f o 8, sym := f (o + 8) 4, kind := f (o + 12) 2, add := (BitVec.ofNat 64 (f (o + 16) 8)).toInt } : Rel))).flatten

/-! ## Placement and relocation -/

/-- First byte of a section in the partition's space (log 30). -/
def secBase (part img : Nat) (l : List Sec) (i : Nat) : Nat :=
  match l[i]? with
  | some x => Config.loadBase part img i * 2 ^ x.align
  | none => 0
/-- Virtual address of a symbol once the image is placed; a constant is its value. -/
def Sym.addr (y : Sym) (l : List Sec) (base : Nat → Nat) : Nat :=
  if y.kind = 4 then y.value
  else base y.sec + (match l[y.sec]? with | some x => if x.ty = 1 then 64 * y.value else y.value | none => y.value)
/-- Replaces `w` bits of a number. -/
def putBits (v pos w x : Nat) : Nat := v - natBits v pos w * 2 ^ pos + x % 2 ^ w * 2 ^ pos
/-- A section's bytes with its relocations of kinds 1 to 3 applied. -/
def patched (l : List Sec) (syms : List Sym) (rels : List (Nat × Rel)) (base : Nat → Nat) (i v : Nat) : Nat :=
  (rels.filter fun r => r.1 == i).foldl (fun v r =>
    let a : Int := ((syms[r.2.sym]?).map fun y => (y.addr l base : Int)).getD 0 + r.2.add
    let bits : Nat := (BitVec.ofInt 64 a).toNat
    match r.2.kind with
    | 1 => putBits v (8 * r.2.pos + 24) 40 bits
    | 2 => putBits v (8 * r.2.pos + 24) 24 (bits / 2 ^ 40)
    | 3 => putBits v (8 * r.2.pos) 56 bits
    | _ => v) v

/-! ## Kernel records (R275, R276) -/

/-- Length of a sub-record. -/
def subLen : Nat → Option Nat
  | 1 | 2 | 3 | 5 | 7 => some 16 | 4 => some 72 | 6 | 9 | 10 | 12 => some 8 | 8 => some 32 | 11 => some 136 | _ => none
/-- Payload bytes of a sub-record that are reserved. -/
def subZero : Nat → List Nat
  | 1 | 6 | 8 | 9 => [3] | 2 | 3 => [1, 2, 3, 8, 9, 10, 11] | 4 | 10 => [1, 2, 3] | 5 | 7 => [2, 3] | 11 | 12 => [0, 1, 2, 3] | _ => []
/-- Sub-records in `n` bytes at `o`: type, offset, payload. -/
def subsAt (b : List Byte) (o n : Nat) : Nat → Option (List (Nat × Nat × List Byte))
  | 0 => none
  | fuel + 1 =>
    if n = 0 then some []
    else
      let ty := field b o 2
      let len := field b (o + 2) 2
      if subLen ty = some len ∧ len ≤ n ∧ (subZero ty).all (fun i => field b (o + 4 + i) 1 == 0) then
        (subsAt b (o + len) (n - len) fuel).map fun r => (ty, o, (b.drop (o + 4)).take (len - 4)) :: r
      else none
/-- Kernel records of a section: symbol, flags, first bundle, bundles, sub-records. -/
def kernsAt (b : List Byte) (o : Nat) : Nat → Option (List (Nat × Nat × Nat × Nat × List (Nat × Nat × List Byte)))
  | 0 => none
  | fuel + 1 =>
    if b.length ≤ o then some []
    else if b.length < o + 32 ∨ field b (o + 24) 8 ≠ 0 ∨ 16 ≤ field b (o + 4) 4 then none
    else
      let n := field b (o + 20) 4
      match subsAt b (o + 32) n (n + 1), kernsAt b (o + 32 + n) fuel with
      | some l, some r =>
        if b.length < o + 32 + n ∨ (l.map (·.1)).filter (· == 12) ≠ [12] ∨ (l.getLast?).map (·.1) ≠ some 12 then none
        else some ((field b o 4, field b (o + 4) 4, field b (o + 8) 8, field b (o + 16) 4, l) :: r)
      | _, _ => none

/-! ## The image (R287) -/

/-- A parsed image: sections, symbols, relocations, and every KERN section's records. -/
structure Parsed where
  secs  : List Sec
  syms  : List Sym
  rels  : List (Nat × Rel)
  base  : Nat → Nat
  f     : File
def Parsed.bytes (p : Parsed) (i : Nat) : Nat :=
  match p.secs[i]? with
  | some x => patched p.secs p.syms p.rels p.base i (p.f x.off x.size)
  | none => 0
def Parsed.idx (p : Parsed) (ty : Nat) : List Nat := (List.range p.secs.length).filter fun i => (p.secs[i]?).map (·.ty) == some ty
/-- Bundles of a CODE section as placed. -/
def Parsed.bundles (p : Parsed) (i : Nat) : List (BitVec 512) :=
  (elemsOf 512 (((p.secs[i]?).map (·.size)).getD 0 / 64) (p.bytes i)).map (BitVec.ofNat 512)
/-- Kernel records of every KERN section. -/
def Parsed.kerns (p : Parsed) : Option (List (Nat × Nat × Nat × Nat × Nat × List (Nat × Nat × List Byte))) :=
  (p.idx 6).foldl (fun a i =>
    match a, (p.secs[i]?).bind fun x => kernsAt (natBytes x.size (p.bytes i)) 0 (x.size / 32 + 1) with
    | some l, some r => some (l ++ r.map fun k => (i, k))
    | _, _ => none) (some [])
/-- Sub-records of one type over all kernels, with their kernel's flags. -/
def Parsed.subs (p : Parsed) (ty : Nat) : List (Nat × List Byte) :=
  ((p.kerns.getD []).map fun k => (k.2.2.2.2.2.filter fun r => r.1 == ty).map fun r => (k.2.2.1, r.2.2)).flatten
/-- Some unit of a range of a partition's space is not mapped. -/
def State.unmapped (s : State) (part a n : Nat) : Bool :=
  (List.range ((a % 64 + n + 63) / 64)).any fun i =>
    match s.unitAt 0 part ((a / 64 + i) * 64) false with | .ok _ => false | .error _ => true
/-- Where CODE, CONST and DATA go: first byte and bytes. -/
def Parsed.spans (p : Parsed) : List (Nat × Nat) :=
  (List.range p.secs.length).filterMap fun i =>
    match p.secs[i]? with
    | some x => if 1 ≤ x.ty ∧ x.ty ≤ 3 then some (p.base i, x.size) else none
    | none => none
/-- Spans that share a byte with each other or with the other images of the partition: their places are no room (log 30). -/
def State.crowded (s : State) (part id : Nat) (l : List (Nat × Nat)) : Bool :=
  let meets (a b : Nat × Nat) : Bool := decide (a.1 < b.1 + b.2) && decide (b.1 < a.1 + a.2)
  l.zipIdx.any (fun a => l.zipIdx.any fun b => a.2 != b.2 && meets a.1 b.1) ||
  s.svc.images.any fun i => i.part == part && i.id != id && i.spans.any fun b => l.any (meets b)
/-- The first failing check of R287. -/
def State.imageCause (s : State) (part id size : Nat) (p : Parsed) : Option Nat :=
  let f := p.f
  let symOk (y : Sym) : Bool := y.sec != 0 && decide (y.sec < p.secs.length)
  let relOk (r : Nat × Rel) : Bool :=
    match (p.secs[r.1]?).map (·.ty), r.2.kind with
    | some 1, 1 =>
      (match p.syms[r.2.sym]? with
       | some y => let a : Int := (y.addr p.secs p.base : Int) + r.2.add; decide (-(2 ^ 39) ≤ a) && decide (a < 2 ^ 39)
       | none => false)
    | some 1, 2 | some 6, 3 => decide (r.2.sym < p.syms.length)
    | some 6, 4 => decide (r.2.sym < 16)
    | _, _ => false
  let kernOk (k : Nat × Nat × Nat × Nat × Nat × List (Nat × Nat × List Byte)) : Bool :=
    match p.syms[k.2.1]? with
    | some y => y.kind == 2 && (match p.secs[y.sec]? with
      | some x => x.ty == 1 && decide (k.2.2.2.1 + k.2.2.2.2.1 ≤ x.size / 64)
      | none => false)
    | none => false
  firstCause [
    (1, decide (size < 64) || f 0 4 != 0x464F4E || f 4 2 != 1 || f 6 2 != 64 || f 8 4 != 1 || f 28 36 != 0),
    (2, f 12 4 == 0 || decide (4096 < f 12 4) || f 16 8 % 8 != 0 || decide (size < f 16 8 + 32 * f 12 4) ||
        p.secs.any fun x => x.ty == 0 || decide (7 < x.ty) || decide (size < x.off + x.size) || x.rest != 0 ||
          (x.ty == 1 && (x.off % 64 != 0 || x.size % 64 != 0 || decide (x.align < 6)))),
    (3, !(p.syms.all symOk && p.rels.all relOk)),
    (4, match p.kerns with | some l => !l.all kernOk | none => true),
    (5, (p.idx 1).any fun i => (p.bundles i).any fun b => (b.extractLsb' 10 6) != 0),
    (6, (p.subs 9).any fun r => decide (64 < field r.2 0 1) || decide (128 < field r.2 1 1)),
    (7, (p.subs 11).any fun r => r.1 % 2 == 0 && field r.2 68 64 != 0),
    (8, s.crowded part id p.spans || p.spans.any fun x => s.unmapped part x.1 x.2)]
/-- The kernels of an accepted image. -/
def Parsed.kernels (p : Parsed) : List Kernel :=
  (p.kerns.getD []).map fun k =>
    let (i, sym, flags, first, nb, subs) := k
    let sec := ((p.syms[sym]?).map (·.sec)).getD 0
    { sym := sym, flags := BitVec.ofNat 32 flags, first := BitVec.ofNat 64 (p.base sec / 64 + first), nb := nb,
      code := ((p.bundles sec).drop first).take nb, subs := subs.map fun r => (r.1, r.2.2),
      rel4 := p.rels.filterMap fun r =>
        if r.1 = i ∧ r.2.kind = 4 then
          (subs.find? fun u => u.1 == 4 && u.2.1 + 8 + 10 == r.2.pos).map fun u => (field u.2.2 0 1, r.2.sym, r.2.add)
        else none }
/-- Writes `n` bytes at a virtual address of a partition under its pages' keys. -/
def State.putVirt (s : State) (part a n v : Nat) : State :=
  (List.range ((a % 64 + n + 63) / 64)).foldl (fun s i =>
    match s.unitAt 0 part ((a / 64 + i) * 64) false with
    | .ok (k, u) =>
      let sh : Nat := v <<< (8 * (a % 64)) >>> (512 * i)
      let bm : Nat := ones (8 * n) <<< (8 * (a % 64)) >>> (512 * i)
      s.writeUnit k u (sh % 2 ^ 512) (bm % 2 ^ 512)
    | .error _ => s) s
/-- Places CODE, CONST and DATA. -/
def State.placeImage (s : State) (part : Nat) (p : Parsed) : State :=
  (List.range p.secs.length).foldl (fun s i =>
    match p.secs[i]? with
    | some x => if 1 ≤ x.ty ∧ x.ty ≤ 3 then s.putVirt part (p.base i) x.size (p.bytes i) else s
    | none => s) s

/-- A task of the image is queued or in flight, a saved context refers to it, or a cached program was built from it (R290). -/
def State.imageUsed (s : State) (i : Image) : Bool :=
  let mine (t : Task) : Bool := t.img == i.id && t.part == i.part && t.state != 0 && t.state != 6
  s.dies.any (fun d => d.2.tasks.any (fun t => mine t.2) || d.2.cache.any fun p => p.imgs.contains (i.part, i.id)) ||
  s.svc.queues.any (fun q => q.2.handled.isSome && (match q.2.handled with | some (op, _) => op == 1 | none => false) &&
    s.packet q.1 14 1 == i.part && s.packet q.1 12 2 == i.id) ||
  s.svc.snaps.any fun n => match n.ctx.inst with | some x => x.img == i.id && x.part == i.part | none => false
/-- LOADIMG: the image is refused whole with the first failing code, or placed. An image whose id is loaded takes its place once
nothing uses the one that is there, whose CODE never changes (log 76). -/
def execLoadimg (q : Nat) (s : State) : Out :=
  .next (s.command q 2 fun s =>
    let part := (s.queue q).part
    let a := s.packet q 64 8
    let size := s.packet q 72 8
    let id := s.packet q 80 2
    let f : File := fun o n => if o + n ≤ size then s.nearRead part (a + o) n else 0
    let secs := secsOf f
    let p : Parsed := { secs := secs, syms := symsOf f secs, rels := relsOf f secs, base := secBase part id secs, f := f }
    match s.imageCause part id size p with
    | some c => s.answer q 1 c
    | none =>
      if s.svc.images.any fun i => i.id == id && i.part == part && s.imageUsed i then s
      else
      let img : Image := { id := id, part := part, size := size, kernels := p.kernels, spans := p.spans }
      let t := s.placeImage part p
      let t := { t with svc := { t.svc with images := img :: t.svc.images.filter fun i => !(i.id == id && i.part == part) } }
      t.reply q (s.hseq q) (s.len q) 0 0)

/-! ## Unloading (R290) -/

/-- UNLOAD: the request is taken at once, and takes effect once nothing uses the image. -/
def execUnload (q : Nat) (s : State) : Out :=
  .next (s.command q 3 fun s =>
    let id := s.packet q 8 2
    let part := (s.queue q).part
    match s.image part id with
    | none => s.answer q 1 1
    | some _ =>
      { s with svc := { s.svc with images := s.svc.images.map fun (i : Image) => if i.id = id ∧ i.part = part then { i with unload := true } else i } }.answer
        q 0 0)
def execUnloadEffect (img : Nat) (s : State) : Out :=
  .next { s with svc := { s.svc with images := s.svc.images.filter fun i => !(i.id == img && i.unload && !s.imageUsed i) } }

end Sys2Proof.Machine
end

