-- ==== Sys2Proof/Machine/Tasks.lean ====
section
/-! DEFINITION. A task's life on the dies (R323 to R340, R403): the launch and its checks, the entry into a scheduler, the
linker's decision, the share's end, the completion, overrun, rerun, abandon and preload. -/

namespace Sys2Proof.Machine

/-! ## The launch (R323, R324, R288) -/

/-- The task that the launch packet at CI describes. -/
def State.launchTask (s : State) (q : Nat) : Task :=
  let p := s.packet q
  { part := p 14 1, prio := p 15 1 % 8, queue := q, hseq := s.hseq q, img := p 12 2, ksym := p 8 4,
    widths := (List.range 6).map fun i => p (16 + i) 1, counts := (List.range 6).map fun i => p (64 + 8 * i) 8 + 1,
    place := BitVec.ofNat 16 (p 22 2), masks := p 24 40, bcast := p 1 1 % 2 == 1,
    args := (List.range 16).map fun i => BitVec.ofNat 64 (p (128 + 8 * i) 8) }
/-- Dies, rows and cores that the masks name, whether or not a wider mask uses them. -/
def Task.maskOwned (t : Task) (own : Word) : Bool :=
  t.dies.all (fun d => (List.range 4).any fun r => own.getLsbD (4 * d + r)) &&
  (List.range 16).all fun r => (natBits t.masks (16 + r) 1 == 0 && (t.ranksOn r).isEmpty) || own.getLsbD r
/-- Cores that take part. -/
def Task.cores (t : Task) : List Nat :=
  (t.dies.map fun d => ((t.rowsOn d).map fun r => (t.ranksOn (4 * d + r)).map fun k => 16 * (4 * d + r) + k).flatten).flatten
/-- Every mask that the launch uses is non-zero. -/
def Task.masksUsed (t : Task) : Bool :=
  !t.dies.isEmpty && t.dies.all fun d => !(t.rowsOn d).isEmpty && (t.rowsOn d).all fun r => !(t.ranksOn (4 * d + r)).isEmpty
/-- PLACE names each field at most once and no field beyond f5. -/
def Task.placeOk (t : Task) : Bool :=
  let l := [t.placeField 0, t.placeField 1, t.placeField 2]
  let named := l.filter (· != 7)
  l.all (· != 6) && named.eraseDups.length == named.length && natBits t.place.toNat 13 3 == 0
/-- The first failing check of R324. -/
def State.launchCause (s : State) (t : Task) : Option Nat :=
  let k := s.taskKernel t
  let img := s.image t.part t.img
  let w (i : Nat) : Nat := t.widths.getD i 0
  let bad (f : Kernel → Bool) : Bool := match k with | some k => f k | none => true
  firstCause [
    (1, k.isNone || (match img with | some i => i.unload | none => true)),
    (2, decide (64 < t.widths.sum) || t.widths.any fun w => decide (64 < w)),
    (3, (List.range 6).any fun i => decide (2 ^ w i < t.count i)),
    (4, !t.placeOk),
    (5, !(t.maskOwned (s.part t.part).own && t.masksUsed)),
    (6, t.bcast && (t.placeField 2 != 7 || t.placeField 1 == 7)),
    (7, bad fun k => k.wids.any fun x =>
        w x.1 != x.2.1 || (match x.2.2 with | some c => decide (c < t.count x.1) | none => false)),
    (8, bad fun k => (k.sub 3).any fun p => BitVec.ofNat 32 (field p 4 4) != s.desc t.part (field p 0 1)),
    (9, bad fun k => k.win512 && t.cores.any fun c => !(s.core c).two),
    (10, bad fun k => k.nbv0 && !(s.part t.part).ctl.getLsbD 57)]
/-- The lowest slot of a die that no task holds: a complete task has left its own (R328), whose record stands until it is released or taken
again (log 92). -/
def Die.freeSlot (d : Die) : Option Nat := (List.range 256).find? fun n => (d.task n).state == 0 || (d.task n).state == 6
/-- LAUNCH: refused with the first failing code; held while a scheduler is full; else the dies are signalled to fetch it. -/
def execLaunch (q : Nat) (s : State) : Out :=
  .next (s.command q 1 fun s =>
    match s.launchCause (s.launchTask q) with
    | some c => s.answer q 1 c
    | none =>
      if (List.range 4).any fun d => ((s.die d).freeSlot).isNone then s
      else
        let t := { s with svc := { s.svc with taskno := s.svc.taskno + 1 } }
        (t.setQueue q { t.queue q with task := s.svc.taskno }).handle q 1)

/-! ## Entry (R325, R328, R329, R332) -/

/-- The kernel's layouts with relocations of kind 4 applied for a launch (R288). -/
def Kernel.copy (k : Kernel) (args : List Word) : List (Nat × BitVec 512) :=
  k.rel4.foldl (fun l r =>
    let old := aget noLayout l r.1
    let a := BitVec.ofInt 56 (((args.getD r.2.1 0).toNat : Int) + r.2.2)
    aset l r.1 ((old &&& ~~~((BitVec.ofNat 512 (ones 56)) <<< 80)) ||| (a.setWidth 512 <<< 80))) k.layouts
/-- T depends on U (R329). -/
def Task.dependsOn (t u : Task) : Bool :=
  u.state != 0 && u.state != 6 && t.part == u.part &&
  (u.writes.any (fun w => (t.reads ++ t.writes).any (hullsMeet w)) || u.reads.any fun r => t.writes.any (hullsMeet r))
/-- The task as it enters a die. -/
def State.enterTask (s : State) (die q : Nat) (k : Kernel) : Task :=
  let t := s.launchTask q
  let lay := k.copy t.args
  let rg (w : Bool) := (k.ranges.filter fun r => r.2.1 == w).map fun r => s.hull t.part (aget noLayout lay r.1)
  let d := s.die die
  let t := { t with taskno := (s.queue q).task, quant := BitVec.ofNat 32 (natBits (s.part t.part).ctl.toNat 0 16), layout := lay,
                    reads := rg false, writes := rg true, order := d.order, left := t.share die }
  let deps := (d.tasks.filter fun u => t.dependsOn u.2).map (·.1)
  { t with deps := deps, state := if !deps.isEmpty then 1 else if t.left = 0 then 4 else 2 }
/-- The task of a queue that entered a die last, still in flight. -/
def Die.lastOf (d : Die) (q : Nat) : Option (Nat × Task) :=
  (d.tasks.filter fun p => p.2.queue == q && p.2.state != 0 && p.2.state != 6).foldl (fun (a : Option (Nat × Task)) p =>
    match a with | none => some p | some b => if b.2.order < p.2.order then some p else some b) none
def Die.modTask (d : Die) (n : Nat) (f : Task → Task) : Die := { d with tasks := aset d.tasks n (f (d.task n)) }
/-- The linker's early refusals (R259, codes 14, 13 and 12). A trap that struck the pair on another die counts too. -/
def State.linkBar (s : State) (die : Nat) (prev : Nat) (t : Task) : Option Nat :=
  let d := s.die die
  let l := d.chainSlots prev
  let head := d.task (l.headD prev)
  firstCause [(14, (d.task prev).bcast || t.bcast),
    (13, s.dies.any fun x => x.2.tasks.any fun u => u.2.struck && u.2.taskno == t.taskno),
    (12, head.share die == 0 || (l.any fun n => (d.task n).started) || decide (4 < l.length + 1))]
/-- The linker decides on the task that has entered at `slot` behind `prev`, while the hold lasts (R332, R264). Once the hold has ended it
only records the codes of `linkBar`. -/
def State.link (s : State) (die prev slot : Nat) : State :=
  let d := s.die die
  let l := d.chainSlots prev
  let head := l.headD prev
  let r := match s.linkBar die prev (d.task slot) with
    | some c => some (Except.error c)
    | none => if ((d.task head).holdLeft.getD 0) = 0 then none else some (s.buildChain die (l ++ [slot]))
  match r with
  | none => s
  | some (.error c) => s.modDie die fun d => (d.modTask head fun t => { t with holdLeft := none }).modTask slot fun t => { t with splr := c }
  | some (.ok s) =>
    let n := l.length
    s.modDie die fun d =>
      let d := d.modTask head fun t => { t with chain := some (head, 0), holdLeft := if n + 1 = 4 then none else some 8192 }
      d.modTask slot fun t =>
        let deps := t.deps.filter fun k => !l.contains k
        { t with chain := some (head, n), splr := 1, deps := deps, holdLeft := none,
                 state := if t.state = 1 ∧ deps.isEmpty then 2 else t.state }
/-- A die fetches an accepted launch and enters it. -/
def execLaunchFetch (die q : Nat) (s : State) : Out :=
  let c := s.queue q
  let here := (s.die die).fetched.any fun f => f.1 == q && f.2 == c.ci.toNat
  .next <|
    match c.handled, (s.die die).freeSlot, s.taskKernel (s.launchTask q) with
    | some (1, _), some slot, some k =>
      if here || 4 ≤ die then s
      else
        let t := s.enterTask die q k
        let prev := (s.die die).lastOf q
        let t := { t with holdLeft := if k.splice && t.left != 0 then some 8192 else none }
        let s := s.modDie die fun d => { d with tasks := aset d.tasks slot t, order := d.order + 1, fetched := d.fetched ++ [(q, c.ci.toNat)] }
        let s := match prev with
          | some (n, u) => if ((s.taskKernel u).map Kernel.splice).getD false then s.link die n slot else s
          | none => s
        s.passCI q
    | _, _, _ => s
/-- A hold of 8,192 master cycles ends without the next task. -/
def execSpliceHoldExpiry (die : Nat) (s : State) : Out :=
  .next (s.modDie die fun d =>
    { d with tasks := d.tasks.map fun (p : Nat × Task) => if p.2.holdLeft = some 0 then (p.1, { p.2 with holdLeft := none }) else p })

/-! ## Share done and completion (R330, R321) -/

/-- Engine commands that instances of some tasks have issued are still to complete, as R251 has it (R330). An instance that has moved
to another die issues there. -/
def State.busyFor (s : State) (l : List Word) : Bool :=
  s.cmds.any (fun r => l.contains r.task && !r.ordered) || s.dies.any fun d => d.2.stage.queue.any fun o => l.contains o.task && !o.ordered
/-- A share has nothing left to run: it is done, or was empty at entry (R330). -/
def Task.over (t : Task) : Bool := t.state == 4 || ((t.state == 1 || t.state == 2) && t.left == 0)
/-- A die's share of a task is done: the other dies are told, with the task's first fault when it was abandoned; (0, 0) stands for an
abandoned share that holds no fault of its own. -/
def execShareDone (die slot : Nat) (s : State) : Out :=
  let d := s.die die
  let t := d.task slot
  let l := (d.chainSlots slot).map fun n => (d.task n).taskno
  let told := (s.die 0).shares.any fun x => x.1 == t.taskno.toNat && x.2.1 == die
  .next <|
    if !t.over || told || s.busyFor l then s
    else
      let f := if t.abandoned then some (t.first.getD (0, 0)) else none
      s.modDie 0 fun d => { d with shares := d.shares ++ [(t.taskno.toNat, die, f)] }
/-- Some die still holds a task back behind one of others: it has not spliced the two. -/
def State.waitsOn (s : State) (l : List Word) (n : Word) : Bool :=
  s.dies.any fun d => d.2.tasks.any fun p =>
    p.2.taskno == n && p.2.state != 0 && p.2.state != 6 && p.2.deps.any fun k => l.contains (d.2.task k).taskno
/-- Task numbers that complete together: those whose chains meet on any die, where no die waits for one before it runs another (R332). -/
def State.together (s : State) : Nat → List Word → List Word
  | 0, l => l
  | n + 1, l =>
    let more := ((List.range 4).map fun d =>
      (((s.die d).tasks.filter fun p => l.contains p.2.taskno && p.2.state == 4).map fun p =>
        ((s.die d).chainSlots p.1).map fun k => ((s.die d).task k).taskno).flatten).flatten
    s.together n (l ++ more.filter fun n => !s.waitsOn l n).eraseDups
/-- The share reports of a task, by die. -/
def State.sharesOf (s : State) (t : Word) : List (Nat × Option (Nat × Nat)) :=
  (List.range 4).filterMap fun d => ((s.die 0).shares.find? fun x => x.1 == t.toNat && x.2.1 == d).map (·.2)
/-- A task whose last dependence has resolved is ready; an empty share is then done (R334). -/
def Task.resolve (t : Task) (gone : List Nat) : Task :=
  let deps := t.deps.filter fun k => !gone.contains k
  { t with deps := deps, state := if t.state = 1 ∧ deps.isEmpty then (if t.left = 0 then 4 else 2) else t.state }
/-- A completed task leaves a die, and its dependants' dependences on it resolve. What is left of its chain, all of it done, stands
alone. -/
def Die.finish (d : Die) (l : List Word) : Die :=
  let gone := (d.tasks.filter fun p => p.2.over && l.contains p.2.taskno).map (·.1)
  let kin := (gone.map d.chainSlots).flatten
  { d with tasks := d.tasks.map fun (p : Nat × Task) =>
      if gone.contains p.1 then (p.1, { p.2 with state := 6, chain := none, prog := none, seg := 0 })
      else if kin.contains p.1 then (p.1, { p.2 with chain := none, prog := none, seg := 0 })
      else (p.1, p.2.resolve gone) }
/-- Raises the TASKDONE event of a die-0 slot and keeps its task's completion record for the event's handling. -/
def State.taskDone (s : State) (slot : Nat) : State :=
  let t := (s.die 0).task slot
  let l := (s.sharesOf t.taskno).filterMap (·.2)
  let f := (l.find? (· != (0, 0))).getD (0, 0)
  let (st, code, kind) := if l.isEmpty then (0, 0, 0) else (2, f.2, f.1)
  let r := completion t.hseq st code t.queue t.taskno kind
  { s with svc := { s.svc with taskDone := s.svc.taskDone ++ [(slot, t.queue, r)] } }.hwEvent 2 0 slot
/-- Die 0 holds share-done from all four dies, and every write of the task's partition has performed (R257): the task, and
every task chained with it, is complete on every die. -/
def execTaskCompletion (slot : Nat) (s : State) : Out :=
  let t := (s.die 0).task slot
  let l := s.together 256 [t.taskno]
  .next <|
    if !t.over || l.any (fun n => (s.sharesOf n).length != 4) ||
        (s.fab.reqs.any fun r => r.part == t.part && r.kind != 0 && !r.done && !r.dropped) then s
    else
      let slots := ((s.die 0).tasks.filter fun p => p.2.over && l.contains p.2.taskno).map (·.1)
      let s := slots.foldl (fun s n => s.taskDone n) s
      let s := (List.range 4).foldl (fun s d => s.modDie d fun x => x.finish l) s
      s.modDie 0 fun d => { d with shares := d.shares.filter fun x => !l.any fun n => n.toNat == x.1 }

/-! ## Overrun (R335, R336, R218) -/

/-- The lowest free slot of a die's save area, and its address. -/
def State.saveSlot (s : State) (die part : Nat) : Option (Nat × Nat) :=
  let v := (s.part part).save.toNat
  let n := natBits v 56 8
  ((List.range n).find? fun k => !(s.die die).saves.contains (part, k)).map fun k =>
    (k, natBits v 12 44 * 4096 + (n * die + k) * 0xCB000)
def Ctx.freshQuantum (c : Ctx) : Ctx := { c with preReq := false, inst := c.inst.map fun i => { i with held := 0 } }
/-- The slot of an instance's task on a die: the instance may have come from another one, whose slot is its own (R328, R358). -/
def Die.slotOf (d : Die) (slot : Nat) (task : Word) : Nat :=
  if (d.task slot).taskno = task then slot else ((d.tasks.find? fun t => t.2.taskno == task && t.2.state != 0 && t.2.state != 6).map (·.1)).getD slot
/-- An overrun instance, or one that has yielded, is pre-empted when another is ready and the save area has room; otherwise
it runs on. A translation fault of the snapshot abandons the pre-emption. -/
def execQuantumOverrun (who : Nat) (s : State) : Out :=
  let c := s.ctx who
  match c.inst with
  | none => .next s
  | some i =>
    let prio := if c.preReq then 0 else ((s.die i.die).task i.slot).prio
    if isFw who || !(c.preReq || s.overrun i) then .next s
    else
      match (if s.otherReady who prio then s.saveSlot (dieOfWho who) i.part else none) with
      | none => .next (s.modCtx who Ctx.freshQuantum)
      | some (k, addr) =>
        match s.stop who with
        | none => .next s
        | some t =>
          if !t.drained who then .next t
          else
          match t.saveTo who i.part addr with
          | .ok u => .next ((u.modDie (dieOfWho who) fun d =>
              let n := d.slotOf i.slot i.taskno
              { d with saves := d.saves ++ [(i.part, k)],
                       tasks := aset d.tasks n { d.task n with saved := (d.task n).saved ++ [(coreOf who, k, addr)] } }).modCtx who
              fun c => { c with spent := some addr })
          | .error (.gone a) => .fault (.noSuchAddress a)
          | .error (.trap _) => .next ((t.modCtx who Ctx.freshQuantum).askResume who)

/-! ## Rerun and abandon (R340, R403) -/

/-- Inserts a number in ascending order, once. -/
def insertUp (n : Nat) : List Nat → List Nat
  | [] => [n]
  | a :: r => if n < a then n :: a :: r else if n = a then a :: r else a :: insertUp n r
/-- The member of a chain that dispenses for another. -/
def Die.leader (d : Die) (n : Nat) : Nat :=
  match (d.task n).chain with
  | none => n
  | some _ => ((d.chainSlots n)[(d.task n).seg]?).getD n
/-- The faulted instances of a chain are dispensed again. -/
def Die.rerun (d : Die) (n : Nat) : Die :=
  let l := d.chainSlots n
  let work := (l.map fun k => (d.task k).faulted).flatten
  let d := work.foldl (fun (d : Die) w =>
    let d := w.2.foldl (fun (d : Die) k => d.modTask k fun t => { t with left := t.left + 1 }) d
    ((w.2.map d.leader).eraseDups).foldl (fun (d : Die) k => d.modTask k fun t => { t with again := insertUp w.1 t.again }) d) d
  l.foldl (fun d k => d.modTask k fun t => { t with nfault := 0, faulted := [], first := none, act := 0, state := 3 }) d
/-- Preloads of a die's cores go when their tasks read what some ranges write (R339); a W part is part of the first read range. -/
def State.dropPreloads (s : State) (die : Nat) (writes : List (Option (Nat × Nat))) : State :=
  { s with cores := s.cores.map fun (p : Nat × Core) =>
      match p.2.preload with
      | some x =>
        if p.1 / 64 = die && ((s.die die).task x.slot).reads.any fun r => writes.any (hullsMeet r) then
          (p.1, { p.2 with preload := none })
        else p
      | none => p }
/-- Firmware has written ACT = 1 into a held record. -/
def execTaskRerun (die slot : Nat) (s : State) : Out :=
  let t := (s.die die).task slot
  .next <|
    if t.state = 5 ∧ t.act = 1 then
      let w := (((s.die die).chainSlots slot).map fun n => ((s.die die).task n).writes).flatten
      (s.modDie die fun d => d.rerun slot).dropPreloads die w
    else s
/-- Firmware has written ACT = 2: the share is done with its fault. -/
def execTaskAbandon (die slot : Nat) (s : State) : Out :=
  let t := (s.die die).task slot
  .next <|
    if t.state = 5 ∧ t.act = 2 then
      s.modDie die fun d => (d.chainSlots slot).foldl (fun d n => d.modTask n fun t => { t with act := 0, state := 4, abandoned := true }) d
    else s

/-! ## Speculative preload (R337, R339) -/

/-- The shape in a RINGCFG image (R63). -/
def ringImage (v : Nat) : Ring := { buf := natBits v 35 2, base := natBits v 18 17, slotlog := natBits v 14 4, countm1 := natBits v 6 8 }
/-- Coordinates of element `k` of an entry's box, dimension 0 innermost. -/
def Lay.coordsOf (l : Lay) (k : Nat) : List Int :=
  ((List.range l.rank).foldl (fun (a : Nat × List Int) i => (a.1 / l.ext.getD i 1, a.2 ++ [((a.1 % l.ext.getD i 1 : Nat) : Int)])) (k, [])).2
/-- The first `n` bytes of an entry's box in element order: bit addresses, the element width, and the elements, where each can be read. -/
def State.firstBytes (s : State) (core part : Nat) (l : Lay) (n : Nat) : Option (List Int × Nat × List Elem) :=
  match s.translate core part [] l.base with
  | .error _ => none
  | .ok p =>
    let d := s.desc part p.fmt
    let w := dWidth d
    let k := 8 * n / w
    let bits := l.bits l.base w ((List.range k).map l.coordsOf)
    if !s.descOk part p.fmt || decide ((l.ext.take l.rank).foldl (· * ·) 1 < k) then none
    else
      match collect (bits.map fun b => s.memElem core part l.space false false [] p.fmt p.geo w b) with
      | .ok r => some (bits, w, r.map (·.1))
      | .error _ => none
/-- The W part: the lowest W ring that the kernel declares, and its slot's size of bytes of the kernel's first read range. -/
def State.preloadW (s : State) (core : Nat) (t : Task) (k : Kernel) : Option PreW :=
  let die := s.die (dieOf core)
  let w := (k.rings.filter fun r => natBits r.2.2 35 2 == 0).foldl (fun (a : Option (Nat × Nat)) r =>
    match a with | some b => if r.1 < b.1 then some (r.1, r.2.2) else some b | none => some (r.1, r.2.2)) none
  match w, (k.ranges.find? fun r => !r.2.1) with
  | some (n, v), some r =>
    let g := ringImage v
    let meets (a na b nb : Nat) : Bool := decide (a < b + nb) && decide (b < a + na)
    let covered := (s.core core).rings.any fun x =>
      x.2.en && x.2.buf == 0 && meets (x.2.base * 64) (x.2.slotSize * x.2.count) (g.base * 64) (g.slotSize * g.count)
    (match s.firstBytes core t.part (layOf (aget noLayout t.layout r.1)) g.slotSize with
     | none => none
     | some (bits, w, es) =>
       let written := die.tasks.any fun u =>
         u.2.state != 0 && u.2.state != 6 && decide (u.2.order < t.order) &&
         u.2.writes.any fun x => bits.any fun b => hullsMeet (some ((b / 8).toNat, ((b + w + 7) / 8).toNat)) x
       if covered || written || es.any s.spoilt then none else some { ring := n, elems := es, vals := es.map s.elem })
  | _, _ => none
/-- Slots of the tasks that R331 would offer next to some contexts of a core, pre-empted instances apart. -/
def State.nextSlots (s : State) (core : Nat) (p : Nat → Bool) : List Nat :=
  (List.range 4).filterMap fun n =>
    if p n then (s.offer (core * 4 + n)).bind fun o => match o with | .saved .. => none | o => some o.slot else none
/-- A preload whose task would no longer be offered next to any context of its core goes (R339). -/
def State.dropStale (s : State) (core : Nat) : State :=
  match (s.core core).preload with
  | some p => if (s.nextSlots core fun _ => true).contains p.slot then s else s.modCore core fun c => { c with preload := none }
  | none => s
/-- A core with a running context keeps a preload of the task that would be offered next to that context. -/
def execSpeculativePreload (core : Nat) (s : State) : Out :=
  let s := s.dropStale core
  let d := s.die (dieOf core)
  .next <|
    match (s.core core).preload, s.nextSlots core fun n => (s.ctx (core * 4 + n)).inst.isSome with
    | none, n :: _ =>
      (match s.taskKernel (d.task n) with
       | some k =>
         let x : Preload := { slot := n, pc := k.first, code := k.code.take 512, w := s.preloadW core (d.task n) k }
         s.modCore core fun c => { c with preload := some x }
       | none => s)
    | _, _ => s

end Sys2Proof.Machine
end

