-- ==== Sys2Proof/Machine/Host.lean ====
section
/-! DEFINITION. What the host does through its ports, and the commands that open and close queues and report the package's
state (R254, R315, R318 to R322, R389, R393, R394). -/

namespace Sys2Proof.Machine

/-! ## Ports (R254, R315, R318) -/

/-- A host write lands at an offset of near memory, and reads back under whatever key its unit has (log 7). -/
def execHostWrite (port : Nat) (_rod : Bool) (addr : Nat) (bytes : List Byte) (s : State) : Out :=
  .next <|
    if !s.svc.ports.getLsbD port || nearSize < addr + bytes.length then s
    else { s with mem := s.mem.write addr bytes.length (bytesNat bytes) }
/-- A host read: the port sends the bytes. -/
def execHostRead (port addr n : Nat) (s : State) : Out :=
  .next <|
    if !s.svc.ports.getLsbD port || nearSize < addr + n then s
    else { s with svc := { s.svc with hostOut := (port, addr, natBytes n (s.mem.read addr n)) :: s.svc.hostOut } }
/-- A session is refused when it asks for receiver credit or for unreliable delivery. -/
def execSessionSetup (port : Nat) (receiverCredit reliable : Bool) (s : State) : Out :=
  .next (if s.svc.ports.getLsbD port then { s with svc := { s.svc with sessions := aset s.svc.sessions port (!receiverCredit && reliable) } } else s)
/-- A port's next token arises 62.5 ns after its last, 16 M in a second (R315). The oldest packet that waits takes it, or the port keeps
it; it keeps one (log 64). -/
def execOutboundPacketToken (port : Nat) (s : State) : Out :=
  let v := s.svc
  .next <|
    if !s.svc.ports.getLsbD port || decide (s.cyc < aget 0 v.tokAt port + s.mhz / 16) then s
    else
      let v := { v with tokAt := aset v.tokAt port s.cyc }
      match v.hostWait.find? fun x => x.1 == port with
      | some x => { s with svc := { v with hostOut := x :: v.hostOut, hostWait := v.hostWait.erase x } }
      | none => { s with svc := { v with tokens := aset v.tokens port 1 } }

/-! ## Queues (R319, R320, R322) -/

/-- The first failing check of an OPENQ. The code 16 of a completion ring is the spec's; the model gives the same code to a
count, a partition or a queue number that cannot be, and to a command ring outside near memory (log 32). -/
def State.openCause (s : State) (n part base count cbase : Nat) : Option Nat :=
  firstCause [
    (16, n == 0 || decide (4095 ≤ n) || (s.queue n).opened || decide (48 ≤ part) || !prtEn (s.part part).ctl ||
         !((List.range 13).any fun k => count == 2 ^ (k + 4))),
    (16, cbase % 32 != 0 || !s.nearOk part cbase (32 * count)),
    (16, !s.nearOk part base (64 * count))]
def execOpenq (q : Nat) (s : State) : Out :=
  .next (s.command q 4 fun s =>
    let p := s.packet q
    let n := p 64 2
    let part := p 66 1
    let base := p 72 8
    let count := p 80 4
    let cbase := p 88 8
    match s.openCause n part base count cbase with
    | some c => s.answer q 1 c
    | none =>
      let c : CmdQ := { part := part, opened := true, base := base, count := count, cbase := cbase, evSeq := (s.queue n).evSeq }
      (s.setQueue n c).answer q 0 0)
/-- CLOSEQ is taken at once and takes effect when the queue's CI equals its PI. -/
def execCloseq (q : Nat) (s : State) : Out :=
  .next (s.command q 5 fun s =>
    let n := s.packet q 8 2
    if n = 0 ∨ !(s.queue n).opened then s.answer q 1 16
    else ((s.setQueue n { s.queue n with closing := true }).closeDue n).answer q 0 0)

/-! ## The summary (R393, R394) -/

/-- A value at an offset: bytes and value. -/
abbrev Piece := Nat × Nat × Nat
/-- One 8-byte field per word, from an offset up. -/
def words (o : Nat) (l : List Word) : List Piece := l.zipIdx.map fun w => (o + 8 * w.2, 8, w.1.toNat)
/-- A system register as a word; what is no register reads 0. -/
def State.word (s : State) (group place w : Nat) : Word := (s.regRead (srnOf (group * 2 ^ 24 + place + w))).getD 0
/-- The sections of the summary but for attestation; `scope` is the queue's partition, or none for the whole package. -/
def State.summary' (s : State) (scope : Option Nat) : List Piece :=
  let mine (p : Nat) : Bool := match scope with | some q => p == q | none => true
  let rowMine (r : Nat) : Bool := match scope with | some q => (s.part q).own.getLsbD r | none => true
  [(0, 4, 0x4E595352), (4, 2, 1), (6, 1, scope.getD 0xFF)] ++
  words 0x40 ((List.range 17).map fun w => s.word gBOOT 0 w) ++
  words 0x100 (((List.range 4).map fun d => (List.range 20).map fun w => s.word gPWR (d * 2 ^ 22) w).flatten) ++
  words 0x400 (((List.range 16).map fun r => (List.range 2).map fun w => s.word gCLK (r / 4 * 2 ^ 22 + r % 4 * 2 ^ 20) w).flatten) ++
  words 0x500 ((List.range 128).map (fun p => s.word gLNK 0 (0x200 + p)) ++ [s.word gSWQ 0 0, s.word gLNK 0 0x280]) ++
  words 0xA00 (((List.range 48).map fun p =>
    [0x42, 0x43, 0x40, 0x41].map fun r => if mine p then s.word gPRT 0 (256 * p + r) else 0).flatten) ++
  words 0x1000 (((List.range 1024).map fun k =>
    [0, 1, 2, 3].map fun w => if rowMine (rowOf (coreOf k)) then s.word gFLT (srnPlace k) w else 0).flatten) ++
  (List.range 1024).map (fun k =>
    let t := (s.die (k / 256)).task (k % 256)
    (0x9000 + 32 * k, 32, if mine t.part then t.record else 0)) ++
  ((List.range 4096).map fun n =>
    let c := s.queue n
    let o := 0x11000 + 16 * n
    if scope.isNone || (c.opened && mine c.part) then
      [(o, 2, n), (o + 2, 1, c.part), (o + 3, 1, c.opened.toNat), (o + 4, 4, c.pi.toNat), (o + 8, 4, c.ci.toNat), (o + 12, 4, c.cpi.toNat)]
    else []).flatten
/-- The attested block's bytes: nonce, the digests of the summary and of the firmware image, and the leaf index. -/
def State.attested (s : State) (nonce v : Nat) : List Byte :=
  natBytes 32 nonce ++ natBytes 32 (shake256 (natBytes 0x21000 v)).toNat ++ natBytes 32 s.svc.fwHash.toNat ++ natBytes 4 s.svc.leaf
/-- RESYNC: refused in the order of R393, or the summary is written at DEST, signed with the next leaf when asked. -/
def execResync (q : Nat) (s : State) : Out :=
  .next (s.command q 6 fun s =>
    let p := s.packet q
    let dest := p 8 8
    let size := p 16 4
    let attest := p 1 1 % 2 == 1
    let part := (s.queue q).part
    let n := if attest then 0x21C00 else 0x21000
    match firstCause [(1, decide (size < n)), (2, attest && decide (2 ^ 20 ≤ s.svc.leaf)),
        (3, dest % 4096 != 0 || !s.nearOk part dest n)] with
    | some c => s.answer q 1 c
    | none =>
      let v := layBytes (s.summary' (if q = 0 then none else some part))
      if attest then
        let block := s.attested (p 24 32) v
        let all := block ++ xmssSign s.svc.leaf block
        let t := { s with svc := { s.svc with leaf := s.svc.leaf + 1 } }
        (t.nearWrite part dest n (v + bytesNat (all.take 2920) * 2 ^ (8 * 0x21000))).reply q (s.hseq q) (s.len q) 0 0
      else (s.nearWrite part dest n v).reply q (s.hseq q) (s.len q) 0 0)

end Sys2Proof.Machine
end

