-- ==== Sys2Proof/Machine/Boot.lean ====
section
/-! DEFINITION. Bring-up (R7, R388, R390 to R392, R404). -/

namespace Sys2Proof.Machine

/-! ## The record (R391) -/

/-- Fields of a BOOT.STEP word. -/
def stepState (w : Word) : Nat := natBits w.toNat 0 4
def stepLast (w : Word) : Nat := natBits w.toNat 4 4
def stepOpt (w : Word) : Bool := w.getLsbD 8
def stepAlt (w : Word) : Bool := w.getLsbD 9
def setStepState (w : Word) (n : Nat) : Word := (w &&& (~~~0xF : Word)) ||| BitVec.ofNat 64 (n % 16)
def setStepCode (w : Word) (c : BitVec 8) : Word := (w &&& (~~~0xFF000000 : Word)) ||| (c.setWidth 64 <<< 24)
/-- LAST takes STATE. -/
def keepLast (w : Word) : Word := (w &&& (~~~0xF0 : Word)) ||| BitVec.ofNat 64 (stepState w * 16)
/-- One more run, saturating. -/
def moreTries (w : Word) : Word := (w &&& (~~~0xFF0000 : Word)) ||| BitVec.ofNat 64 (Nat.min 255 (natBits w.toNat 16 8 + 1) * 65536)
def State.step' (s : State) (n : Nat) : Word := aget 0 s.svc.steps n
def State.setStep (s : State) (n : Nat) (w : Word) : State := { s with svc := { s.svc with steps := aset s.svc.steps n w } }

/-! ## What a reset leaves (R7, R391) -/

/-- A core keeps its fuses, and binds its slots to live instances: V0 and LD to the lowest, V1 and ST to the highest (R112). -/
def Core.cold (c : Core) : Core :=
  let live (k : Nat) : Bool := c.sltmap.getLsbD k
  let v0 := !live 0 && live 1
  let ld := !live 2 && live 3
  let m : BitVec 4 := BitVec.ofNat 4 (v0.toNat + 2 * (live 1).toNat + 4 * ld.toNat + 8 * (live 3).toNat)
  { sltmap := m ++ c.sltmap.setWidth 8, bind := m }
def Die.cold (d : Die) : Die := { diemax := d.diemax, tcrit := d.tcrit, talert := d.talert }
/-- Everything at its reset value but the persistent record, the fuses, the device key's leaf and, unless power was lost,
memory. The moves to come are no part of the device. -/
def State.cold (s : State) (lost : Bool) : State :=
  { mem := if lost then [] else s.mem, keyed := if lost then [] else s.keyed, bad := if lost then [] else s.bad,
    cores := s.cores.map fun c => (c.1, c.2.cold), dies := s.dies.map fun d => (d.1, d.2.cold),
    fab := { lasercap := s.fab.lasercap, minper := s.fab.minper },
    svc := { steps := s.svc.steps, boots := s.svc.boots, svn := s.svc.svn, leaf := s.svc.leaf },
    sched := s.sched, fresh := s.fresh, ids := s.ids }

/-! ## Firmware images (R388) -/

/-- The header's security version, when an image is well formed and its signature and key verify. -/
def imageSvn (b : List Byte) (floor : BitVec 32) : Option (BitVec 32) :=
  let n := field b 8 8
  let svn := BitVec.ofNat 32 (field b 16 4)
  let signed := b.take (64 + n)
  let zero (o k : Nat) : Bool := field b o k == 0
  if b.length = 64 + n + 2820 + 64 ∧ field b 0 4 = 0x3157465A ∧ zero 4 4 ∧ zero 20 44 ∧
      xmssVerify signed ((b.drop (64 + n)).take 2820) (b.drop (64 + n + 2820)) ∧
      shake256 (b.drop (64 + n + 2820)) = Config.fusedDigest ∧ floor ≤ svn then some svn
  else none
/-- The firmware of a verified image, which ends with the signature; the key stands after it. -/
def State.loadFw (s : State) (b : List Byte) (svn : BitVec 32) : State :=
  let (code, lay) := Config.fwImage ((b.drop 64).take (field b 8 8))
  { s with svc := { s.svc with svn := if s.svc.svn < svn then svn else s.svc.svn, fwHash := shake256 (b.take (b.length - 64)), fwCode := code,
                               fwLay := lay, winOff := Config.fwWindow.1, winSize := Config.fwWindow.2 } }

/-! ## The steps (R390, R404) -/

/-- A firmware core enters service at bundle 0, with the default views of its 64 KiB window. -/
def State.startFw (s : State) (n : Nat) : State :=
  s.modCtx (1024 + n) fun c =>
    let ctl := { c.ctl with pc := 0, vv := defView 65536 .v, vw := defView 65536 .w, vt := defView 65536 .t, va := defView 65536 .a }
    { c with ctl := ctl, shadow := ctl, service := true, hold := false }
/-- The rail of a die after the rail step: voter 0 at the least voltage of 16 pulses. -/
def State.railUp (s : State) (die : Nat) : State :=
  let v := vmin s.svc.slow 16
  (s.modDie die fun d => { d with votes := [(0, BitVec.ofNat 16 v)], tgt := v, vnow := v }).setPulses die
/-- Trains pairs from `lo`: which of them lock, and the phase error of each, are free; peer pairs are realigned. -/
def State.trainFrom (s : State) (lo : Nat) (realign : Bool) : State :=
  let (m, s) := s.draw 64
  (List.range 64).foldl (fun s k =>
    let p := lo + k
    if m.getLsbD k then
      let (e, s) := s.draw 12
      let e : BitVec 12 := if realign then (if e.getLsbD 0 then 1 else if e.getLsbD 1 then -1 else 0) else if e = 0x800 then 0x801 else e
      let s := s.setLink p 2 fun x => { x.measured p e with errc := 0, parkidle := 0 }
      { s with fab := s.fab.trainRings p }
    else s.modPair p fun x => { x with fail := 1 }) s
/-- The work of a step by its main or its alternate path, once it has succeeded. By the alternate path of the port step, which ports
fail is free, but one is up (R390). -/
def State.stepWork (s : State) (flash : List (List Byte)) (n : Nat) (alt : Bool) : Option State :=
  match n with
  | 1 =>
    let b := flash.getD (if alt then 1 else 0) []
    (imageSvn b s.svc.svn).map fun v => s.loadFw b v
  | 2 =>
    let (m, s) := s.draw 12
    let pass (k : Nat) : Bool := !alt || m.getLsbD k || decide (((List.range 12).filter m.getLsbD).length < 8)
    some ((List.range 12).foldl (fun s k => if pass k then s.startFw k else s.hwEvent 6 0 k) s)
  | 3 =>
    let s := { s with svc := { s.svc with slow := alt } }
    some ((List.range 4).foldl (fun s d => s.railUp d) s)
  | 6 =>
    let (m, s) := s.draw 8
    let (k, s) := s.draw 3
    some { s with svc := { s.svc with ports := if alt then m ||| (1#8 <<< k.toNat) else 0xFF } }
  | 7 =>
    let c : CmdQ := { part := 48, opened := true, base := Config.queue0.1, cbase := Config.queue0.2.1, count := 2 ^ (Config.queue0.2.2.val + 4) }
    some (s.setQueue 0 c)
  | 8 => some (s.trainFrom 0 false)
  | 9 => some (s.trainFrom 64 true)
  | 10 => some ((List.range 4).foldl (fun s d => s.captured d) s)
  | _ => some s

/-- Bring-up from step `n`, with what each run reports. A link step that fails has trained what it could (R404). Where the reports end, the boot was interrupted. -/
def State.bringUp (s : State) (flash : List (List Byte)) : Nat → Nat → List StepRun → State
  | 0, _, _ => { s with svc := { s.svc with bst := 1 } }
  | fuel + 1, n, runs =>
    let w := s.step' n
    let bad := stepLast w = 1 ∨ stepLast w = 3 ∨ stepLast w = 5
    if bad ∧ stepOpt w then (s.setStep n (setStepState w 4)).bringUp flash fuel (n + 1) runs
    else
      let alt : Bool := stepAlt w && (decide bad || stepLast w == 6)
      let s := s.setStep n (moreTries (setStepState w (if alt then 5 else 1)))
      match runs with
      | [] => s
      | r :: rest =>
        let w := s.step' n
        match (if r.ok then s.stepWork flash n alt else none) with
        | some t => (t.setStep n (setStepState w (if alt then 6 else 2))).bringUp flash fuel (n + 1) rest
        | none =>
          let s := if n = 8 then s.trainFrom 0 false else if n = 9 then s.trainFrom 64 true else s
          let t := s.setStep n (setStepCode (setStepState w 3) r.code)
          if stepOpt w then t.bringUp flash fuel (n + 1) rest else { t with svc := { t.svc with bst := 2 } }
/-- A cold reset and the boot that follows it. -/
def execColdReset (runs : List StepRun) (flash : List (List Byte)) (s : State) : Out :=
  let s := s.cold false
  let steps := (List.range 16).map fun n => (n, keepLast (s.step' n))
  let b := if s.svc.boots = 255 then s.svc.boots else s.svc.boots + 1
  .next (({ s with svc := { s.svc with steps := steps, boots := b } }).bringUp flash 11 0 runs)
/-- Power is lost: what is not persistent is gone, and nothing runs before the next cold reset. -/
def execPowerLoss (s : State) : Out := .next (s.cold true)

end Sys2Proof.Machine
end

