-- ==== Sys2Proof/Machine/Progress.lean ====
section
/-! DEFINITION. What work in progress does as it ends: matrix operations (R173 to R189) and engine commands (R203 to R208). -/

namespace Sys2Proof.Machine

/-! ## Matrix operations (R180, R183 to R189) -/

def Ctx.mop (c : Ctx) (k : Nat) : Option MOp := c.mops.find? fun m => m.id == k
def Ctx.setMop (c : Ctx) (m : MOp) : Ctx := { c with mops := c.mops.map fun x => if x.id = m.id then m else x }
/-- The operation is over: its rings' credits arise. -/
def State.endMop (s : State) (who : Nat) (m : MOp) : State :=
  (s.creditM m).modCtx who fun c => { c with mops := c.mops.filter fun x => x.id != m.id }
/-- Plane that an operation uses. -/
def MOp.plane (m : MOp) : Option Nat := if m.live then (arrOf m.op).map (·.x) else none
/-- Contexts of a core in the order in which their matrix operations take a free path: the primary, then by number (R173). -/
def State.matrixAhead (s : State) (who : Nat) : List Nat :=
  let p := (s.core (coreOf who)).prim
  if p == some (ctxOf who) then [] else (List.range 4).filter fun n => n != ctxOf who && (p == some n || decide (n < ctxOf who))
/-- An operation is ready to start on its path. -/
def State.startReady (s : State) (who : Nat) (m : MOp) : Bool :=
  let c := s.ctx who
  m.stage == 0 && !c.frozen && aget 0 (s.core (coreOf who)).mbusy m.path == 0 && opsAllow (c.mops.takeWhile fun x => x.id != m.id) m &&
  (match m.plane with | some x => (c.plane x).loaded | none => true) && c.flightRoom (m.writes.foldl (fun a p => a + 16 + p.2) 0)
/-- An operation may start: none of a context that goes first is ready for the path. -/
def State.canStart (s : State) (who : Nat) (m : MOp) : Bool :=
  s.startReady who m && (s.matrixAhead who).all fun n =>
    let w := coreOf who * 4 + n
    (s.ctx w).mops.all fun x => x.path != m.path || !s.startReady w x
/-- A fired operation starts: it reads its registers, and its path is taken for its occupancy, whatever its guard (the model's choice,
log 99). -/
def execMatrixPathStart (who k : Nat) (s : State) : Out :=
  .next <|
    match (s.ctx who).mop k with
    | none => s
    | some m =>
      if !s.canStart who m then s
      else
        let (occ, res) := s.mTimes who m
        (s.takePath (coreOf who) m.path occ).modCtx who fun c => c.setMop { s.mCompute who m with stage := 1, left := res }
/-- Plane that an operation loads. -/
def MOp.loads (m : MOp) : Option Nat :=
  match m.op with | .mpre _ x _ _ _ => some x.toNat | .mmulp _ _ x _ _ _ _ _ _ _ _ => some x.toNat | _ => none
/-- A plane load ends: LOADED is set, and an `mpre` has completed; an `mmulp` goes on to its array part. -/
def execPlaneLoadEnd (who x : Nat) (s : State) : Out :=
  .next <|
    match (s.ctx who).mops.find? fun m => m.stage == 2 && m.left == 0 && m.loads == some x with
    | none => s
    | some m =>
      let s := if m.live then
          s.modCtx who fun c => c.setPlane x { c.plane x with data := m.runB, scale := m.sclB, loaded := true }
        else s
      match m.op with
      | .mpre .. => s.endMop who m
      | _ =>
        let s := match m.peer with | some (c, n) => s.modRing c n fun r => r.endPeer m.id | none => s
        s.modCtx who fun c => c.setMop { m with stage := 0, peer := none }
/-- The array has read a peer's A rows: the peer read is over. -/
def execPeerReadEnd (who k : Nat) (s : State) : Out :=
  .next <|
    match (s.ctx who).mop k with
    | some m =>
      (match m.peer with
       | some (c, n) =>
         if m.stage = 1 && decide (m.left ≤ 24) then
           (s.modRing c n fun r => r.endPeer m.id).modCtx who fun c => c.setMop { m with peer := none }
         else s
       | none => s)
    | none => s
/-- Register pieces of a result are written, without what a higher slot of the group has written. -/
def State.putPieces (s : State) (who : Nat) (m : MOp) : State :=
  m.res.foldl (fun s p =>
    let f : Fly := { id := 0, left := 0, dst := .win p.1, bm := ones (8 * p.2.1), size := p.2.1, grp := m.ent.grp, slot := .m }
    let bm := f.bm &&& (f.bm ^^^ ((s.ctx who).covered f &&& f.bm))
    (s.writeWin who p.1 p.2.1 p.2.2 bm).modCtx who fun c =>
      { c with flt := { c.flt with wawp := c.flt.wawp || c.twoWriters 3 m.ent.grp f.dst f.size },
               landed := c.landed ++ [{ slot := 3, grp := m.ent.grp, dst := f.dst, size := f.size, bm := f.bm }] }) s
/-- Undo images that a result still needs. -/
def Ctx.newBlocks (c : Ctx) (l : List (Nat × Nat × Nat)) : Nat :=
  (((l.map fun p => blocksOf p.1 p.2.1).flatten.eraseDups).filter fun b => !c.undo.any fun u => u.1 == b).length
def execMatrixResultWrite (who k : Nat) (s : State) : Out :=
  let c := s.ctx who
  .next <|
    match c.mop k with
    | none => s
    | some m =>
      if m.stage != 1 || m.left != 0 || m.path == pathReg && (match m.op with | .mdrain .. => true | _ => false) || c.frozen then s
      else if decide (64 < c.undo.length + c.newBlocks m.res) then s.takeTrap who ⟨21, 0, 0⟩ 3 m.ent.pc
      else
        let s := match m.peer with | some (c, n) => s.modRing c n fun r => r.endPeer m.id | none => s
        let s := (s.putPieces who m).modCtx who fun c => { c with ctl := c.ctl.flag m.flags }
        s.endMop who m
/-- A drain pushes its output slot. -/
def execDrainPush (who k : Nat) (s : State) : Out :=
  let c := s.ctx who
  .next <|
    match c.mop k with
    | none => s
    | some m =>
      let drain := match m.op with | .mdrain .. => true | _ => false
      if !drain || m.stage != 1 || m.left != 0 || c.frozen then s
      else ((s.putBytes m.out m.outn m.outv).modCtx who fun c => { c with ctl := c.ctl.flag m.flags }).endMop who m

/-! ## Engine commands (R204 to R208) -/

/-- Every drawer request of a command has been answered or dropped. -/
def State.gated (s : State) (r : ECmdRec) : Bool := s.fab.reqs.all fun q => !r.gates.contains q.id || q.done || q.dropped
/-- Units with an uncorrectable error among a command's sources. -/
def State.badSource (s : State) (r : ECmdRec) : Option Nat := (unitsOf (r.moves.map (·.1))).find? fun u => s.bad.contains u
/-- The moves that no drawer write has made. -/
def State.moveNear (s : State) (r : ECmdRec) : State := s.moveAll r (r.moves.filter fun m => (drawerOf (m.2.addr / 8)).isNone)
/-- Status of a command whose moves are made, with the record of a data error (R353). -/
def State.judge (s : State) (r : ECmdRec) : Nat × State :=
  match s.badSource r with
  | some u => (if r.status = 0 then 4 else r.status, s.noteData r.who (u * 64 % 2 ^ 44))
  | none => (r.status, s)
/-- A copy, a prefetch or a refused `exf` completes: its ring slot is pushed or freed, and its record goes out. -/
def execEngineCommandComplete (id : Nat) (s : State) : Out :=
  .next <|
    match s.cmd id with
    | none => s
    | some r =>
      let mine := r.opc = 1 ∨ r.opc = 2 ∨ r.opc = 3 ∨ r.opc = 4 ∨ (r.opc = 0x18 ∧ r.resolved ∧ !r.closed)
      if !mine || !s.gated r then s
      else
        let (st, s) := s.judge r
        (s.moveNear r).endCmd r st
/-- An `exf` whose block has landed within its deadline: the destination slot is pushed, the fallback slot returned. The deadline's last
tick is the one before D ticks have passed (the model's choice, log 100). -/
def execExfBlockLands (id : Nat) (s : State) : Out :=
  .next <|
    match s.cmd id with
    | none => s
    | some r =>
      if r.opc ≠ 0x18 || r.resolved || r.deadline == some 0 || !s.gated r then s
      else
        let (st, s) := s.judge r
        let s := s.moveNear r
        let s := match r.dstRing with | some (c, n) => s.modRing c n (fun q => q.land id) | none => s
        let s := match r.fallback with | some (c, n, _) => s.modRing c n Ring.unreserve | none => s
        s.endCmd { r with dstRing := none } st
/-- The deadline passes first: the destination slot is returned, and a token with status 1 goes to the fallback. -/
def execExfDeadline (id : Nat) (s : State) : Out :=
  .next <|
    match s.cmd id with
    | none => s
    | some r =>
      if r.opc ≠ 0x18 || r.resolved || r.deadline != some 0 then s
      else
        let s := match r.dstRing with | some (c, n) => s.modRing c n Ring.unreserve | none => s
        let s := match r.fallback with | some (c, n, a) => s.giveToken c n a r.token id | none => s
        let s := if r.nq then s.quietDone id else s.deliver r.who 2 r.id ({ r with units := 0 }.record 1)
        s.setCmd { r with resolved := true, closed := true, dstRing := none }
/-- A block that arrives after its deadline is discarded. -/
def execLateBlockDiscard (id : Nat) (s : State) : Out :=
  .next <|
    match s.cmd id with
    | some r => if r.closed && s.gated r then s.endCmd { r with nq := true } 1 else s
    | none => s

end Sys2Proof.Machine
end

