-- ==== Sys2Proof/Machine/Start.lean ====
section
/-! DEFINITION. The start and the end of an instance (R20, R81, R131, R155, R173, R266, R285, R289, R314, R331), the fetch
of a bundle, and the row sequencer of a broadcast launch (R25, R26, R327). -/

namespace Sys2Proof.Machine

/-! ## Fetch (R87, R129) -/

/-- The bundle at a context's program counter. -/
def State.fetch (s : State) (who : Nat) : Except Stop (BitVec 512) :=
  let pc := (s.ctx who).ctl.pc
  let out : Except Stop (BitVec 512) := .error (.trap ⟨12, 2, pc⟩)
  if isFw who then (match s.svc.fwCode[pc.toNat]? with | some b => .ok b | none => out)
  else
    match (s.ctx who).inst with
    | none => out
    | some i =>
      -- a handler runs from the partition's code space (R295)
      if (s.ctx who).priv ≠ 0 then s.codeAt (coreOf who) i.part pc.toNat
      else match i.spl with
      | some _ => (match (s.spliced who i).bind fun p => p.code[pc.toNat]? with | some b => .ok b | none => out)
      | none =>
        let n := (pc - i.first).toNat
        if i.nb ≤ n then out else s.codeAt (coreOf who) i.part pc.toNat

/-! ## Rings of an instance (R289) -/

/-- A ring that KEEP leaves as it is: enabled with the same shape and owner. -/
def Ring.keeps (r : Ring) (own : Nat) (keep : Bool) (g : Ring) : Bool :=
  keep && r.en && r.owner == own && r.buf == g.buf && r.base == g.base && r.slotlog == g.slotlog && r.countm1 == g.countm1
/-- Enabled rings that an instance on context `own` clears: its own that it does not declare, and each it declares. -/
def Core.toClear (c : Core) (own : Nat) (decl : List (Nat × Bool × Nat)) : List Nat :=
  (c.rings.filter fun r => r.2.en &&
    (match decl.find? fun d => d.1 == r.1 with
     | some d => !r.2.keeps own d.2.1 (ringImage d.2.2)
     | none => r.2.owner == own)).map (·.1)
/-- A declared ring still has firings in flight. -/
def Core.ringsPend (c : Core) (decl : List (Nat × Bool × Nat)) : Bool := decl.any fun d => (c.ring d.1).pend
/-- The declared rings as the loader leaves them. -/
def Core.prepare (c : Core) (own : Nat) (decl : List (Nat × Bool × Nat)) : Core :=
  decl.foldl (fun c d =>
    let g := ringImage d.2.2
    if (c.ring d.1).keeps own d.2.1 g then c
    else c.setRing d.1 ({ g with owner := own, en := g.shapeOk, free := g.count } : Ring).endTick) c

/-! ## The start (R289, R331) -/

/-- The latches of a new instance: every code 127, K 0 (R155, R173). -/
def freshLatches : Latches :=
  let l (n : Nat) : Nat := packElems 8 (List.replicate n 127)
  { v0 := BitVec.ofNat 512 (l 64), v1 := BitVec.ofNat 512 (l 64), mr := BitVec.ofNat 1024 (l 128), mc := BitVec.ofNat 1024 (l 128) }
/-- The control state of a new instance: registers keep what they hold (R46), the loader's writes over them. -/
def Ctl.begin (c : Ctl) (views : List (BitVec 32)) (nbv : Bool) (pc wid : Word) : Ctl :=
  { c with ibf := c.ib, vv := views.getD 0 0, vw := views.getD 1 0, vt := views.getD 2 0, va := views.getD 3 0, mxcfg := 0, pc := pc,
           fstat := 0, nbv := nbv, srseed := wid, sridx := 0, lat := freshLatches, latw := [], seq := 0, grp := 0 }
/-- Limit of a kernel's power levels (R285). -/
def Kernel.limit (k : Kernel) (ctl : Word) : Nat :=
  match k.sub 10 with
  | p :: _ => Nat.min (field p 0 1) (prtPcap ctl)
  | [] => prtDeflvl ctl
/-- A context with a new instance. -/
def Ctx.begin (c : Ctx) (i : Inst) (ctl : Ctl) (lay : List (Nat × BitVec 512)) (level : Nat) : Ctx :=
  Ctx.mark
  { c with ctl := ctl, shadow := ctl, ticks := 0, bundles := 0, p0 := { c.p0 with loaded := false, read := false, fresh := false },
           p1 := { c.p1 with loaded := false, read := false, fresh := false }, layout := lay, inst := some i, level := level,
           idle := 0, due := false, spent := none, priv := 0, nest := false }
/-- What a start sets up: the slot's kernels, the spliced program, and whether the program had to be built first. -/
def State.program (s : State) (die slot : Nat) : Option (State × Option Spliced) :=
  let l := (s.die die).segment slot
  if l.length < 2 then some (s, none)
  else
    let find (s : State) : Option Spliced :=
      ((s.die die).task slot).prog.bind fun id => (s.die die).cache.find? fun p => p.id == id
    match find s with
    | some p => some (s, some p)
    | none => match s.buildChain die l with | .ok t => (find t).map fun p => (t, some p) | .error _ => none
/-- A pair's first start on a die fixes which transient stores it suppresses, whatever program runs it later (R266). -/
def State.fixPairs (s : State) (die : Nat) (p : Spliced) : State :=
  (List.range p.slots.length).foldl (fun s k =>
    let n := p.slots.getD k 0
    if ((s.die die).task n).supp.isSome || p.slots.length ≤ k + 1 then s
    else let l := s.suppressible die p k; s.modTask die n fun t => { t with supp := some l }) s
/-- Bundles of a program whose store its pairs suppress. -/
def State.suppressOf (s : State) (die : Nat) (p : Spliced) : List Nat :=
  ((List.range p.slots.length).map fun k =>
    let l := (((s.die die).task (p.slots.getD k 0)).supp).getD []
    ((p.transients k).filter fun n => l.contains n.2).map (·.1)).flatten
/-- An instance starts in a spliced program. -/
def State.startProg (s : State) (die : Nat) (p : Spliced) : State :=
  let s := s.fixPairs die p
  let q := { p with started := true, lastUse := s.cyc, suppress := if p.started then p.suppress else s.suppressOf die p }
  s.modDie die fun d => { d with cache := d.cache.map fun x => if x.id = p.id then q else x }
/-- The dispenser has handed out an index: new ones go on, faulted ones leave the list. -/
def Task.handOut (t : Task) (idx : Nat) (rerun : Bool) (core : Nat) : Task :=
  if rerun then { t with again := t.again.filter (· != idx) }
  else { t with next := aset t.next (if t.bcast then 1024 + rowOf core else core) (idx + 1) }
def Task.begun (t : Task) : Task := { t with started := true, state := if t.state = 2 then 3 else t.state }
/-- Places an instance on a context of a core. The VIEW records of its image are written as they stand, also one that breaks R42 (the model's
choice, log 111). -/
def State.place' (s : State) (who slot idx : Nat) (t : Task) (k : Kernel) (ks : List Kernel) (p : Option Spliced) : State :=
  let ctl := (s.part t.part).ctl
  let lim := (ks.map fun k => k.limit ctl).foldl Nat.max 0
  let i : Inst := { die := dieOfWho who, slot := slot, taskno := t.taskno, wid := t.wid idx, widths := t.widths, counts := t.counts,
                    part := t.part, img := t.img, ksym := t.ksym, first := k.first, nb := k.nb, idx := idx, win512 := k.win512,
                    bcast := t.bcast, bcore := coreOf who, spl := p.map (·.id), limit := lim }
  let views := if p.isSome then allViews.map (defView (s.winSize who)) else k.views (s.winSize who)
  let pc := if p.isSome then 0 else k.first
  let lay := match p with | some p => p.layout | none => t.layout
  let c := s.ctx who
  let s := s.setCtx who (c.begin i (c.ctl.begin views (!k.nbv0) pc (t.wid idx)) lay (prtDeflvl ctl))
  let core := coreOf who
  let s := s.modCore core fun c =>
    let c := c.prepare (ctxOf who) ((ks.map Kernel.rings).flatten)
    { c with bbuf := if t.bcast then [] else c.bbuf, bind := c.sltmap.extractLsb' 8 4, preload := c.preload.filter fun x => x.slot != slot,
             preW := match c.preload with
               | some x => if x.slot = slot then x.w.map fun w => (ctxOf who, w) else c.preW
               | none => c.preW }
  s.elect core
/-- Contexts that an offered instance starts on: its own, or context 0 of the row's cores in a broadcast launch (R327). -/
def State.places (t : Task) (who : Nat) : List Nat :=
  if t.bcast then (t.ranksOn (rowOf (coreOf who))).map fun k => (rowOf (coreOf who) * 16 + k) * 4 else [who]
/-- The row sequencer of a new broadcast instance. -/
def State.openBcast (s : State) (who slot idx : Nat) (t : Task) (first : Word) : State :=
  if !t.bcast then s
  else
    let r := rowOf (coreOf who)
    let b : Bcast := { slot := slot, wid := t.wid idx, ranks := t.ranksOn r, skew := t.skew, pc := first, live := t.ranksOn r }
    s.setRow r { s.row r with bcast := some b }
/-- Starts a task's instance on a context; rings that have to be cleared first are cleared, and the start waits. -/
def State.startOn (s : State) (who slot idx : Nat) (rerun : Bool) : State :=
  let die := dieOfWho who
  match s.program die slot with
  | none => s
  | some (s, p) =>
    let t := (s.die die).task slot
    let ks := s.slotKernels die slot
    match ks with
    | [] => s
    | k :: _ =>
      let decl := (ks.map Kernel.rings).flatten
      let at' := State.places t who
      let clears (w : Nat) : List Nat := (s.core (coreOf w)).toClear (ctxOf w) decl
      if at'.any fun w => !ks.all fun k => s.ringsFree w k then s
      else if at'.any fun w => !(clears w).isEmpty then
        at'.foldl (fun s w => (clears w).foldl (fun s n => s.modRing (coreOf w) n Ring.clear) s) s
      else if at'.any fun w => (s.core (coreOf w)).ringsPend decl then s
      else
        let s := match p with | some p => s.startProg die p | none => s
        let s := at'.foldl (fun s w => s.place' w slot idx t k ks p) s
        let s := s.openBcast who slot idx t k.first
        s.modDie die fun d =>
          let d := d.modTask slot fun t => t.handOut idx rerun (coreOf who)
          (d.chainSlots slot).foldl (fun d n => d.modTask n Task.begun) d
/-- What the dispenser offers a context, started. -/
def State.startOffer (s : State) (who : Nat) : State :=
  if !s.freeCtx who then s
  else
    match s.offer who with
    | some (.fresh slot idx) => s.startOn who slot idx false
    | some (.rerun slot idx) => s.startOn who slot idx true
    | _ => s
def execInstanceStart (who : Nat) (s : State) : Out := .next (s.startOffer who)

/-! ## The end (R131, R314) -/

/-- Nothing that the context has dispatched is still to complete. -/
def State.quiet (s : State) (who : Nat) : Bool :=
  let c := s.ctx who
  s.idleSpan who && !c.ckDue && c.rq.all (fun q => q.2.all fun e => e.arrived) &&
  !s.cmds.any (fun r => r.who == who && (c.inst.map (·.taskno)).getD 0 == r.task) &&
  !(s.die (dieOfWho who)).stage.queue.any fun o => o.who == who && (c.inst.map (·.taskno)).getD 0 == o.task
/-- A firmware core goes on at bundle 0 with its next event. -/
def Ctx.nextEvent (c : Ctx) : Ctx :=
  let ctl := { c.ctl with pc := 0 }
  { c with ctl := ctl, shadow := ctl, rq := [], halting := false, trapped := false }
/-- A free context whose dispenser has an instance for it. -/
def State.awaited (s : State) (who : Nat) : Bool := s.freeCtx who && (s.offer who).isSome
/-- A halted context whose work is complete ends its instance; its dispenser may hand it the next at once, and then it keeps
its turn, as primary or as secondary, also while the instance still waits for a ring or its snapshot; else the turn passes on (R23). -/
def execInstanceEnd (who : Nat) (s : State) : Out :=
  .next <|
    if !(s.ctx who).halting || !s.quiet who then s
    else if isFw who then s.modCtx who Ctx.nextEvent
    else
      let t := (s.endInst who none).startOffer who
      (t.modCtx who fun c => { c with due := t.awaited who }).elect (coreOf who)
/-- Contexts that kept their turn for an instance which is not offered to them any more give it up (R23). -/
def State.dropDue (s : State) (core : Nat) : State :=
  let gone := (List.range 4).filter fun n => (s.ctx (core * 4 + n)).due && !s.awaited (core * 4 + n)
  if gone.isEmpty then s else (gone.foldl (fun s n => s.modCtx (core * 4 + n) fun c => { c with due := false }) s).elect core

/-! ## The row sequencer (R25, R26) -/

/-- A bundle after which the sequencer waits for the outcome of the lowest rank. -/
def turns (b : BitVec 512) : Bool :=
  match decode .s (splitBundle b).s with
  | .ok (.br ..) | .ok (.bc ..) | .ok (.call ..) | .ok (.ret ..) | .ok (.jmpi ..) | .ok (.loop ..) | .ok (.halt ..) | .ok (.eret ..) => true
  | _ => false
/-- The sequencer goes on where the lowest rank stands, once that core has nothing left of what was delivered. -/
def State.unstall (s : State) (row : Nat) (b : Bcast) : Bcast :=
  match b.ranks with
  | [] => b
  | k :: _ =>
    let c := s.ctx ((row * 16 + k) * 4)
    if b.stall && (s.core (row * 16 + k)).bbuf.isEmpty && b.todo.all (fun t => t.1 != k) && c.waiting.isEmpty && !c.halting && !c.ckDue then
      { b with stall := false, pc := c.ctl.pc }
    else b
/-- Room in every participating core's buffer for one more bundle; a bundle that SKEW still holds back has its place in it already (the
model's choice, log 115). -/
def State.bcastRoom (s : State) (row : Nat) (b : Bcast) : Bool :=
  b.ranks.all fun k => decide ((s.core (row * 16 + k)).bbuf.length + (b.todo.filter fun t => t.1 == k).length < 32)
/-- The next bundle of the sequencer, for every participating core: the core of rank k gets it k · SKEW ticks after rank 0. Code that
cannot be fetched is no bundle: each core faults there by itself (R129). -/
def State.bcastFetch (s : State) (row : Nat) (b : Bcast) : Option Bcast :=
  match b.ranks with
  | [] => none
  | k :: _ =>
    let core := row * 16 + k
    match (s.ctx (core * 4)).inst with
    | none => none
    | some i =>
      if b.stall || !s.bcastRoom row b || i.nb ≤ (b.pc - i.first).toNat then none
      else
        match s.codeAt core i.part b.pc.toNat with
        | .ok v => some { b with pc := b.pc + 1, stall := turns v, todo := b.todo ++ b.ranks.map fun r => (r, b.pc, v, r * b.skew) }
        | .error _ => none
/-- The bundles whose skew has passed reach their cores' broadcast buffers. -/
def State.bcastLand (s : State) (row : Nat) : State :=
  match (s.row row).bcast with
  | none => s
  | some b =>
    let due := b.todo.filter fun t => t.2.2.2 == 0
    let s := s.setRow row { s.row row with bcast := some { b with todo := b.todo.filter fun t => t.2.2.2 != 0 } }
    due.foldl (fun s t => s.modCore (row * 16 + t.1) fun c => { c with bbuf := c.bbuf ++ [(t.2.1, t.2.2.1)] }) s
/-- The sequencer fetches for the lowest rank, and what no skew holds back is delivered at once. -/
def execBroadcastDelivery (row rank : Nat) (s : State) : Out :=
  .next <|
    match (s.row row).bcast with
    | none => s
    | some b =>
      if b.ranks.head? != some rank then s.bcastLand row
      else
        match s.bcastFetch row (s.unstall row b) with
        | some b => (s.setRow row { s.row row with bcast := some b }).bcastLand row
        | none => s

end Sys2Proof.Machine
end

