-- ==== Sys2Proof/Machine/Pipeline.lean ====
section
/-! DEFINITION. The dispatch of a bundle (R22, R27 to R34, R78, R87 to R90, R110 to R114, R220) and the readiness of an operation
to issue (R27 to R31, R81, R140, R180, R190, R205, R212, R214, R299). -/

namespace Sys2Proof.Machine

/-! ## The operations of a bundle -/

/-- A non-empty slot of a bundle: its operation, or none where its bits are no legal encoding, and its queue entry. -/
structure DOp where
  sl  : Slot
  op  : Option Instr
  ent : Ent
  deriving DecidableEq, Repr

/-- The queue entry of a slot's bits in the bundle that a context dispatches next (R27, R31, R44, R86). -/
def Ctx.entOf (c : Ctx) (raw : BitVec 80) (spo : Bool) (sridx : BitVec 32) : Ent :=
  let k := c.ctl
  { raw := raw, seq := k.seq, grp := k.grp, pc := k.pc, vv := k.vv, vw := k.vw, vt := k.vt, va := k.va, ib := k.ibf, nbv := k.nbv,
    sridx := sridx, spo := spo }
/-- The operations of the non-empty slots in slot order, each `.rs` operation with a stochastic index of its own, and the next
index (R78). -/
def Ctx.opsOf (c : Ctx) (b : Bundle) : List DOp × BitVec 32 :=
  allSlots.foldl (fun (a : List DOp × BitVec 32) sl =>
    let raw := b.slot sl
    if raw = 0 then a
    else
      let op := (decode sl.kind raw).toOption
      let rs := match op with | some i => roundsRs sl raw i | none => false
      (a.1 ++ [{ sl := sl, op := op, ent := c.entOf raw b.spo a.2 }], if rs then a.2 + 1 else a.2)) ([], c.ctl.sridx)

/-! ## What an operation names (R29, R91, R142) -/

/-- A register of the space that R29 judges: scalars, predicates, lane masks, bases and 512 B blocks of the window. -/
def keyS (n : Nat) : Nat := n
def keyP (n : Nat) : Nat := 64 + n
def keyM (n : Nat) : Nat := 80 + n
def keyI (n : Nat) : Nat := 88 + n
/-- The core's pip counters (R168). -/
def keyPip : Nat := 120
def keyB (n : Nat) : Nat := 128 + n
def keysAt (off n : Nat) : List Nat := (blocksOf off n).map keyB
/-- The registers of a destination. -/
def Dest.keys (d : Dest) (size : Nat) : List Nat :=
  match d with
  | .scalar n => [keyS n] | .pred n => [keyP n] | .mask n => [keyM n] | .win off => keysAt off size | .mxcfg => []
/-- The registers that a field names; s0 and p0 are none (R45). -/
def Field.keys (e : Ent) (rank : Nat → Nat) (f : Field) : List Nat :=
  let v := f.val e.raw
  match f.kind with
  | .scalar _ | .run .. => ((List.range (f.len rank e.raw)).map fun i => keyS (v + i)).filter fun k => k != 0 && decide (k < 64)
  | .pred => if v = 0 then [] else [keyP v]
  | .mask => [keyM v]
  | .ib => [keyI v]
  | .name vw n => ((List.range n).map fun u => keysAt (e.off vw (BitVec.ofNat 11 v) u) vw.size).flatten
  | .layout | .ring _ => []
/-- The index base that a field reads (R47). -/
def Field.base (e : Ent) (f : Field) : Option Nat :=
  match f.kind with
  | .name .. => if f.val e.raw / 1024 % 2 = 1 then some (keyI (f.val e.raw / 128 % 8)) else none
  | _ => none
/-- Layout entries that an operation's fields name. -/
def entriesOf (cw : Nat → Nat) (d : DOp) (i : Instr) : List Nat :=
  (fieldsOf cw d.sl.kind d.ent.raw i).filterMap fun f => if f.kind = .layout then some (f.val d.ent.raw) else none
/-- An E command. -/
def isEng : Instr → Bool
  | .cpIn .. | .cpOut .. | .cpPeer .. | .cpPf .. | .send .. | .recvArm .. | .exf .. | .ofx .. | .ofm .. | .ofcCap .. | .ofcRd .. | .ofcTab ..
  | .ofr .. => true
  | _ => false
/-- Rings that an operation names. -/
def ringsOf (cw : Nat → Nat) (d : DOp) (i : Instr) : List Nat :=
  ((fieldsOf cw d.sl.kind d.ent.raw i).map fun f =>
    match f.kind with | .ring n => (List.range n).map fun k => f.val d.ent.raw + k | _ => []).flatten
/-- Rings bound to the entries an operation names. -/
def State.boundOf (s : State) (who : Nat) (l : List Nat) : List Nat := l.filterMap fun n => (s.lay who n).ring
def State.cw (s : State) (who : Nat) : Nat → Nat := s.cwidth (s.partOf who)
/-- The pip counters as a register that an operation reads or updates. -/
def pipRead : Instr → List Nat | .vpipRead .. => [keyPip] | _ => []
def pipWrite : Instr → List Nat | .vpip .. | .vpipBy .. => [keyPip] | _ => []
/-- Registers and rings of an operation: a ring counts where it is pushed or popped, a result queue n as 64 + n. -/
def State.foot (s : State) (who : Nat) (d : DOp) (i : Instr) : Foot :=
  let fs := fieldsOf (s.cw who) d.sl.kind d.ent.raw i
  let ks (l : List Field) : List Nat := (l.map fun f => f.keys d.ent fun n => (s.lay who n).rank).flatten
  let rings := match i with
    | .rwait .. | .rpeek .. => []
    | .qpop _ _ _ q _ => [64 + q.toNat]
    | .vqpop _ _ _ q5 _ => [64 + (if q5 then 5 else 4)]
    | i => ringsOf (s.cw who) d i ++ (if isEng i then s.boundOf who (entriesOf (s.cw who) d i) else [])
  { slot := d.sl.num, seq := d.ent.seq, pred := natBits d.ent.raw.toNat (guardPos d.sl.kind) 4 != 0,
    rd := ks (fs.filter (·.rd)) ++ fs.filterMap (·.base d.ent) ++ pipRead i, wr := ks (fs.filter (·.wr)) ++ pipWrite i, rings := rings }
def meets (a b : List Nat) : Bool := a.any fun x => b.contains x

/-! ## The checks of R110, in its order -/

/-- The first slot that a check refuses. -/
def firstBad (l : List DOp) (f : DOp → Option Trap) : Option (Trap × Nat) := l.findSome? fun d => (f d).map fun t => (t, d.sl.num)
/-- A check of the decoded operation. -/
def onOp (f : DOp → Instr → Option Trap) (d : DOp) : Option Trap := d.op.bind (f d)

/-- Row 1: the header (R88 to R90). -/
def State.badHeader (s : State) (who : Nat) (b : Bundle) : Bool :=
  b.hdr.extractLsb' 11 5 != 0 || b.occ != b.occOf || (b.spo && (isFw who || (s.ctx who).splId.isNone))
/-- Row 2: a slot without a unit (R111, R114). -/
def State.noUnit (s : State) (who : Nat) (sl : Slot) : Bool :=
  let m := (s.core (coreOf who)).sltmap
  let live := match sl with
    | .s => m.getLsbD 4 | .v0 | .v1 => m.getLsbD 0 || m.getLsbD 1 | .m => m.getLsbD 5 | .ld | .st => m.getLsbD 2 || m.getLsbD 3
    | .e => m.getLsbD 6 | .y => m.getLsbD 7
  let fw := match sl with | .v0 | .v1 | .m | .e => isFw who | _ => false
  fw || !live
/-- Row 3, beyond the encoding: a descriptor that the operation itself forbids (R154, R156, R189); one that R71 forbids counts with it
(the model's choice, log 98). -/
def State.badDesc (s : State) (who : Nat) : Instr → Bool
  | .vqcvt _ k .. | .vdeq _ k .. => !s.descOk (s.partOf who) k.toNat || dKind (s.desc (s.partOf who) k.toNat) != 0
  | .mdrain _ _ k .. => !s.descOk (s.partOf who) k.toNat || !([0, 1, 2, 3, 6, 9] : List Nat).contains (dKind (s.desc (s.partOf who) k.toNat))
  | _ => false
/-- Row 5: a name beyond its view (R44, R47, R176), or, under a view setting that R42 forbids and an image's VIEW record holds, beyond the
window, which no name may leave (R40, log 111). -/
def badName (window : Nat) (cw : Nat → Nat) (d : DOp) (i : Instr) : Option Trap :=
  let past (vw : View) (k : Nat) : Bool := decide (window < viewBase (d.ent.view vw) * 512 + (k + 1) * vw.size)
  (opFields cw i).findSome? fun f =>
    match f.kind with
    | .name vw n =>
      let v := f.val d.ent.raw
      if (List.range n).any fun u => (d.ent.name vw (BitVec.ofNat 11 v) u).all (past vw) then some ⟨4, 0, BitVec.ofNat 64 v⟩ else none
    | _ => none
/-- Row 6: a run of scalars that passes s63 (R99, R203); for `sig`, `wait` and `bar`, of which R213 does not say it, too (the model's
choice, log 112). -/
def State.badRun (s : State) (who : Nat) (cw : Nat → Nat) (d : DOp) (i : Instr) : Bool :=
  (opFields cw i).any fun f =>
    match f.kind with
    | .scalar _ | .run .. => decide (64 < f.val d.ent.raw + f.len (fun n => (s.lay who n).rank) d.ent.raw)
    | _ => false
/-- A local entry that cannot hold a flag (R213). -/
def State.badFlag (s : State) (who : Nat) (a : YArg) : Bool :=
  let l := s.lay who a.le.toNat
  !l.isMem && (!([4, 5, 6].contains l.space) || !flagKind (s.desc (s.partOf who) l.fmt))
/-- Row 6, what an operation asks of its entries (R192, R194, R198, R203, R208, R213). -/
def State.badEntry (s : State) (who : Nat) (i : Instr) : Option Nat :=
  let l (n : BitVec 8) : Lay := s.lay who n.toNat
  let dec (m : MemArg) (dc : Bool) : Option Nat := if dc && (l m.le).spv && !isFw who then some m.le.toNat else none
  let rows (m : MemArg) (h : BitVec 2) : Option Nat := if h != 0 && (l m.le).rank == 1 then some m.le.toNat else none
  let pair (c : ECmd) : Option Nat := if (l c.la).rank != (l c.lb).rank then some c.lb.toNat else none
  match i with
  | .ldT _ _ _ m _ _ h => rows m h
  | .stT _ _ _ m _ dc h => (dec m dc).or (rows m h)
  | .stV _ _ _ m _ dc | .stS _ _ _ m _ dc => dec m dc
  | .amo _ _ _ _ _ m => if !(l m.le).isMem && !amoKind (s.desc (s.partOf who) (l m.le).fmt) then some m.le.toNat else none
  | .cpIn c | .cpOut c | .cpPeer c _ => pair c
  | .exf c _ => if ((l c.lb).space == 3 || (l c.lb).space == 4) && (l c.lb).ring.isNone then some c.lb.toNat else pair c
  | .sig a _ | .wait a _ | .bar a => if s.badFlag who a then some a.le.toNat else none
  | _ => none
def State.row6 (s : State) (who : Nat) (cw : Nat → Nat) (d : DOp) (i : Instr) : Option Trap :=
  let es := entriesOf cw d i
  match es.find? fun n => !s.layLegal who n with
  | some n => some (tLayout n)
  | none => if s.badRun who cw d i then some (tLayout (es.headD 0)) else (s.badEntry who i).map tLayout
/-- Row 7: the spaces that an operation may name (R55, R198, R206 to R210, R233). -/
def spacesOf : Instr → List (BitVec 8 × List Nat)
  | .ldT _ _ _ m .. | .ldV _ _ _ m .. | .ldS _ _ _ m .. | .ldG _ _ m => [(m.le, [0, 1, 2, 3, 4, 5, 6])]
  | .tch _ le .. => [(le, [0, 1, 2, 3, 4, 5, 6])]
  | .stT _ _ _ m .. | .stV _ _ _ m .. | .stS _ _ _ m .. | .stSc _ _ m | .amo _ _ _ _ _ m => [(m.le, [0, 1, 2, 4, 5, 6])]
  | .cpIn c => [(c.la, [0, 1, 2, 6]), (c.lb, [3, 4, 6])]
  | .cpOut c => [(c.la, [4, 5, 6]), (c.lb, [0, 1, 2, 6])]
  | .cpPeer c _ => [(c.la, [4, 5, 6]), (c.lb, [7, 8])]
  | .cpPf c => [(c.la, [0, 1, 2])]
  | .exf c _ => [(c.la, [0, 1, 2]), (c.lb, [3, 4])]
  | .send c => [(c.la, [4, 5, 6])]
  | .recvArm c => [(c.lb, [0, 1, 2, 4, 6])]
  | .ofx c => [(c.la, [6]), (c.lb, [6])]
  | .ofm c _ => [(c.la, [6])]
  | .ofcRd c | .ofcTab c => [(c.lb, [6])]
  | _ => []
/-- Buffers that the rings of an operation must lie in (R55, R177, R202, R208). -/
def buffersOf : Instr → List (Nat × List Nat)
  | .mpre _ _ _ ra rb => (ra.toNat, [0]) :: (if rb = 0 then [] else [(rb.toNat, [0])])
  | .mmul _ _ _ _ _ _ ra rb | .mmulz _ _ _ _ _ _ ra rb | .mcmul _ _ _ _ _ _ _ ra rb =>
    (ra.toNat, [1]) :: (if rb = 0 then [] else [(rb.toNat, [1])])
  | .mmulp _ _ _ _ _ _ pw _ _ _ rb => if pw then [(rb.toNat, [1])] else []
  | .mdrain _ _ _ add _ ra rb => (rb.toNat, [2]) :: (if add then [(ra.toNat, [2])] else [])
  | .vbin _ k _ _ _ b => (List.range (k.toNat + 1)).map fun j => (b.toNat + j, [1, 2, 3])
  | .vmovPush _ b _ => [(b.toNat, [1, 2, 3])]
  | .rpush _ _ rn _ => [(rn.toNat, [1, 2, 3])]
  | .exf _ rn => [(rn.toNat, [1, 2, 3])]
  | _ => []
def isOpt : Instr → Bool
  | .ofx .. | .ofm .. | .ofcCap .. | .ofcRd .. | .ofcTab .. | .ofr .. => true
  | _ => false
/-- The scale entry of a load that applies its block scales (R61). -/
def State.scaleEntry (s : State) (who : Nat) : Instr → Option Nat
  | .ldT _ _ _ m _ dc _ | .ldV _ _ _ m _ dc | .ldS _ _ _ m _ dc _ =>
    let l := s.lay who m.le.toNat
    if dc && l.spv && !isFw who then some l.spl else none
  | _ => none
/-- The layout entries that an operation uses: those its fields name, and the scale plane's of a load that decodes. -/
def State.entries (s : State) (who : Nat) (d : DOp) (i : Instr) : List Nat :=
  entriesOf (s.cw who) d i ++ (s.scaleEntry who i).toList
/-- The field buffer belongs, like its stage, to one partition at a time (R17, R222): what names it from another one traps as an optical
command does (log 93). The number is that of the entry or the ring. -/
def State.strangeField (s : State) (who : Nat) (d : DOp) (i : Instr) : Option Nat :=
  if (s.part (s.partOf who)).own.getLsbD (16 + dieOfWho who) then none
  else if isOpt i then some ((entriesOf (s.cw who) d i).headD 0)
  else
    ((s.entries who d i).find? fun n => (s.lay who n).space == 6).or
      ((ringsOf (s.cw who) d i).find? fun n => (s.ring (coreOf who) n).buf == 3)
def State.row7 (s : State) (who : Nat) (d : DOp) (i : Instr) : Option Trap :=
  let t (n : Nat) : Trap := ⟨6, 0, BitVec.ofNat 64 n⟩
  match (spacesOf i).find? fun p => !p.2.contains (s.lay who p.1.toNat).space with
  | some p => some (t p.1.toNat)
  | none =>
    match (s.scaleEntry who i).filter fun n => decide (6 < (s.lay who n).space) with
    | some n => some (t n)
    | none =>
      match (buffersOf i).find? fun p => !p.2.contains (s.ring (coreOf who) p.1).buf with
      | some p => some (t p.1)
      | none => (s.strangeField who d i).map t
/-- Least slot size of the rings that an operation's own fields name (R141, R202). -/
def slotNeed : Instr → Nat
  | .vbin .. | .vmovPop .. | .vmovPush .. => 512
  | .rpop _ z .. | .rsel _ z .. | .rpeek _ z .. | .rpush _ z .. => (ringView z).size
  | _ => 0
/-- Row 8: a ring that is disabled, another context's, or too small (R63, R141, R202). -/
def State.row8 (s : State) (who : Nat) (d : DOp) (i : Instr) : Option Trap :=
  let bad (need n : Nat) : Bool :=
    let r := s.ring (coreOf who) n
    !r.en || r.owner != ctxOf who || decide (r.slotSize < need)
  ((ringsOf (s.cw who) d i).find? (bad (slotNeed i))).or ((s.boundOf who (s.entries who d i)).find? (bad 0))
    |>.map fun n => ⟨7, 0, BitVec.ofNat 64 n⟩
/-- Row 9: `f` may not stand in one group with `g` of another slot (R29, R142). The reader, or either of two writers, offends. Two updates
of the pip counters are no such writers (log 94). -/
def Foot.offends (f g : Foot) : Bool :=
  f.slot != g.slot &&
  (meets f.rd g.wr || (!(f.pred && g.pred) && meets (f.wr.filter (· != keyPip)) g.wr) || meets f.rings g.rings)
/-- The lowest slot that breaks R29, among the bundle's own operations and those of the group before it. -/
def groupBreak (old new : List Foot) : Option Nat :=
  (new.find? fun f => old.any (fun g => f.offends g || g.offends f) || new.any fun g => f.offends g).map (·.slot)
/-- Weight of an operation (R220). -/
def weight (d : DOp) : Nat :=
  match d.sl with
  | .s | .y => 1
  | .v0 | .v1 => if natBits d.ent.raw.toNat 16 4 = 11 then 8 else 4
  | .m => (match d.op with | some (.mmul ..) | some (.mmulz ..) | some (.mmulp ..) | some (.mcmul ..) => 64 | _ => 8)
  | .ld | .st => 2
  | .e => 3
/-- The bundle's transient store is suppressed: it performs no access (R266). -/
def State.mute (s : State) (who : Nat) (d : DOp) : Bool :=
  match d.op with
  | some (.stT ..) => { s with cur := { who := who, slot := d.sl, ent := d.ent } }.suppressed
  | _ => false
/-- The trap of a bundle with the slot its record names, 8 for the header and 15 for none. Row 10 holds for contexts with a power level; a
firmware core has none (the model's choice, log 116). -/
def State.verdict (s : State) (who : Nat) (b : Bundle) (l : List DOp) : Option (Trap × Nat) :=
  let cw := s.cw who
  if s.badHeader who b then some (⟨1, 0, 0⟩, 8)
  else
    (firstBad l fun d => if s.noUnit who d.sl then some ⟨2, 0, 0⟩ else none) <|>
    (firstBad l fun d => match d.op with
      | none => some ⟨1, 0, 0⟩ | some i => if s.badDesc who i then some ⟨1, 0, 0⟩ else none) <|>
    (firstBad l (onOp fun _ i => if s.level who < leastLevel i then some ⟨3, 1, 0⟩ else none)) <|>
    (firstBad l (onOp (badName (s.winSize who) cw))) <|>
    (firstBad (l.filter fun d => !s.mute who d) (onOp (s.row6 who cw))) <|>
    (firstBad (l.filter fun d => !s.mute who d) (onOp (s.row7 who))) <|>
    (firstBad l (onOp (s.row8 who))) <|>
    ((groupBreak (s.ctx who).foots (l.filterMap fun d => d.op.map (s.foot who d))).map fun k => (⟨8, 0, 0⟩, k)) <|>
    (let w := l.foldl (fun a d => a + weight d) 0
     if !isFw who && decide ((s.ctx who).level < w) then some (⟨16, 0, BitVec.ofNat 64 w⟩, 15) else none)

/-! ## When a context may dispatch (R22, R27, R31, R33, R34, R81, R127, R130, R133, R299) -/

/-- An operation that cannot be undone (R34, R299). -/
def isIrrev : Instr → Bool
  | .amo .. | .sig .. | .bar .. | .pwrAcq .. | .pwrRel .. | .realign .. | .sleep .. => true
  | .sysrd .. => false
  | .tstate _ _ _ clr => clr
  | i => isEng i || decide (0 < leastLevel i)
def isSoft : Instr → Option Guard
  | .brk g _ | .trap g _ => some g
  | _ => none
/-- An operation of the S slot that holds dispatch until it has issued. -/
def holdsDispatch (i : Instr) : Bool :=
  isBranch i || decide (0 < leastLevel i) ||
  match i with | .brk .. | .trap .. | .halt .. | .csrr .. | .csrw .. | .vwr .. => true | _ => false
def Ent.opIn (e : Ent) (sl : Slot) : Option Instr := if e.ghost then none else (decode sl.kind e.raw).toOption
/-- A stop or checkpoint bundle stands behind an unissued `ibw` (R31). -/
def Ctx.ibHeld (c : Ctx) : Bool :=
  (c.q .s).any fun e => decide (e.grp < c.ctl.grp) && (match e.opIn .s with | some (.ibw ..) => true | _ => false)
/-- A `yield` is still to issue, or the scheduler is still to answer it: the boundary behind its bundle (R218). -/
def Ctx.yielding (c : Ctx) : Bool := c.preReq || (c.q .y).any fun e => match e.opIn .y with | some (.yield ..) => true | _ => false
/-- The context could dispatch a bundle, whatever it holds. -/
def State.mayDispatch (s : State) (who : Nat) : Bool :=
  let c := s.ctx who
  let k := s.core (coreOf who)
  (if isFw who then c.service && s.svc.bst != 2 && c.blk.isNone && !c.susp
   else s.ready who && (k.prim == some (ctxOf who) || k.sec == some (ctxOf who))) &&
  !c.halting && !c.ckDue && c.soft.isNone && c.wait.isNone && !(k.tick.any fun t => t.1 == ctxOf who) &&
  !((c.q .s).any fun e => match e.opIn .s with | some i => holdsDispatch i | none => false) && !c.ibHeld && !c.yielding &&
  c.waiting.all fun e => decide (c.ctl.seq < e.seq + 16)
/-- Stores of masked classes that are withheld, or that have still to issue (R212). -/
def Ctx.maskedHeld (c : Ctx) (mask : BitVec 16) : Bool := c.held.any fun e => decide (e.cls < 16) && mask.getLsbD e.cls
/-- The bundle waits until everything before it has completed; a checkpoint is then released before it where `now` says so. A fence counts
for that only where its guard is true (R193). -/
def Ctx.bracket (c : Ctx) (l : List DOp) : Bool × Bool :=
  let ops := l.filterMap (·.op)
  let irrev := ops.any isIrrev
  let soft := ops.any fun i => match isSoft i with | some _ => true | none => false
  let softOn := ops.any fun i => match isSoft i with | some g => c.ctl.guard g | none => false
  let mask (on : Guard → Bool) : BitVec 16 := ops.foldl (fun a i => match i with | .fence g m => if on g then a ||| m else a | _ => a) 0
  let fence := mask (fun _ => true) != 0 && (c.maskedHeld (mask fun _ => true) || !(c.q .st).isEmpty)
  (irrev || soft || fence, irrev || softOn || c.maskedHeld (mask c.ctl.guard))
/-- The next bundle of a context; none while its broadcast buffer holds none (R25), unless its own fetch fails (R129). -/
def State.nextBundle (s : State) (who : Nat) : Option (Except Stop (BitVec 512)) :=
  match (s.ctx who).inst with
  | some i =>
    if i.bcast && !i.left then
      match (s.core (coreOf who)).bbuf with
      | e :: _ => if e.1 = (s.ctx who).ctl.pc then some (.ok e.2) else none
      | [] => match s.fetch who with | .error x => some (.error x) | .ok _ => none
    else some (s.fetch who)
  | none => some (s.fetch who)
/-- Unissued operations of a group older than the one a context dispatched last. -/
def Ctx.olderThan (c : Ctx) (grp : Nat) : Bool := c.waiting.any fun e => decide (e.grp < grp)
/-- A bundle waits for nothing that stands before it (R34, R130, R193). -/
def State.unwaited (s : State) (who : Nat) (b : Bundle) : Bool :=
  !((s.ctx who).bracket ((s.ctx who).opsOf b).1).1 || s.idleSpan who
/-- A context dispatches in this tick when no other stands in its way. -/
def State.able (s : State) (who : Nat) : Bool :=
  (s.ctx who).split.isSome || (s.mayDispatch who &&
    match s.nextBundle who with | some (.ok b) => s.unwaited who (splitBundle b) | some (.error _) => true | none => false)
/-- A context's bundle beside the one that another has dispatched in the tick (R22). `occ` and `stop` are the bundle's. The primary goes
first when it is able to (log 28), and no third bundle goes with two. -/
def State.beside (s : State) (who : Nat) (occ : BitVec 8) (stop : Bool) : Bool :=
  let k := s.core (coreOf who)
  if isFw who then true
  else
    decide (k.tick.length < 2) &&
    (k.tick.all fun t => t.1 == ctxOf who ||
      (t.2.1 &&& occ == 0 && !(t.2.2.1 && (s.ctx who).olderThan (s.ctx who).ctl.grp) &&
        !(stop && (s.ctx (coreOf who * 4 + t.1)).olderThan t.2.2.2))) &&
    match k.prim with
    | none => true
    | some p =>
      let pw := coreOf who * 4 + p
      p == ctxOf who || k.tick.any (fun t => t.1 == p) || !s.able pw
/-- The context dispatches this bundle now. -/
def State.turn (s : State) (who : Nat) (b : Bundle) : Bool :=
  s.mayDispatch who && s.beside who b.occ b.stop && s.unwaited who b

/-! ## Dispatch (R27, R28, R32, R37, R113, R263, R384) -/

/-- Ends the group that is open (R28). -/
def Ctx.endGroup (c : Ctx) : Ctx := { c with ctl := { c.ctl with grp := c.ctl.grp + 1 }, foots := [] }
/-- The higher slot of a pair that shares one unit (R113). -/
def Core.shares (k : Core) (sl : Slot) (l : List DOp) : Bool :=
  let has (x : Slot) : Bool := l.any fun d => d.sl == x
  match sl with
  | .v1 => has .v0 && k.bind.getLsbD 0 == k.bind.getLsbD 1
  | .st => has .ld && k.bind.getLsbD 2 == k.bind.getLsbD 3
  | _ => false
/-- Entries join their queues. -/
def Ctx.enqueue (c : Ctx) (l : List (Slot × Ent)) : Ctx := l.foldl (fun c p => c.setQ p.1 (c.q p.1 ++ [p.2])) c
/-- What the stop and checkpoint bits do once the whole bundle is dispatched. -/
def Ctx.close (c : Ctx) (stop ckpt : Bool) : Ctx :=
  let c := if stop || ckpt then c.endGroup else c
  { c with ckDue := c.ckDue || ckpt }
/-- The entry of a load that the linker removed from a spliced bundle (R263, R268). -/
def State.ghostOf (s : State) (who : Nat) (c : Ctx) : List (Slot × Ent) :=
  match s.spliceEntry who c.ctl.pc with
  | some (_, m, _) =>
    if m.getLsbD 32 then [(.ld, { c.entOf ((m.extractLsb' 64 64).setWidth 80) true c.ctl.sridx with ghost := true })] else []
  | none => []
/-- The context takes its bundles from its row's broadcast (R25). -/
def State.inBcast (s : State) (who : Nat) : Bool := match (s.ctx who).inst with | some i => i.bcast && !i.left | none => false
/-- The bundle's tick: what R22 compares, the broadcast buffer, the watchdog's bit (R384). -/
def State.ticked (s : State) (who : Nat) (occ : BitVec 8) (stop : Bool) (grp : Nat) : State :=
  let core := coreOf who
  let s := s.modCore core fun k => { k with tick := k.tick ++ [(ctxOf who, occ, stop, grp)] }
  let r := s.row (rowOf core)
  if isFw who then s else s.setRow (rowOf core) { r with wdog := r.wdog &&& ~~~(1#64 <<< (4 * rankOf core + ctxOf who)) }
/-- The bundle has passed its checks and enters the queues. -/
def State.enter (s : State) (who : Nat) (b : Bundle) (l : List DOp) (sridx : BitVec 32) : State :=
  let core := coreOf who
  let k := s.core core
  let c := s.ctx who
  let irrev := l.any fun d => match d.op with | some i => isIrrev i | none => false
  let ckpt := b.ckpt || irrev
  let late := l.filter fun d => k.shares d.sl l
  let first := (l.filter fun d => !k.shares d.sl l).map fun d => (d.sl, d.ent)
  let foots := l.filterMap fun d => d.op.map (s.foot who d)
  let c1 := (c.enqueue (first ++ s.ghostOf who c))
  let ctl := { c1.ctl with pc := c.ctl.pc + 1, seq := c.ctl.seq + 1, sridx := sridx }
  let c2 := { c1 with ctl := ctl, foots := c.foots ++ foots, bundles := c.bundles + 1, idle := 0,
                      irrev := if irrev then some c.ctl.seq else c.irrev, acted := if irrev then 0 else c.acted,
                      wins := c.wins.map fun w => { w with left := w.left - 1 },
                      split := if late.isEmpty then none
                               else some { ents := late.map fun d => (d.sl, d.ent), occ := b.occ, stop := b.stop, ckpt := ckpt } }
  let c3 := if late.isEmpty then c2.close b.stop ckpt else c2
  let bc := s.inBcast who
  let s := (s.setCtx who c3).modCore core fun k => { k with bbuf := if bc then k.bbuf.tail else k.bbuf }
  s.ticked who b.occ b.stop c.ctl.grp
/-- Checks the next bundle of a context, after the checkpoint it may need before it, and dispatches it or traps. -/
def State.dispatch (s : State) (who : Nat) (b : Bundle) : State :=
  let c := s.ctx who
  let (_, now) := c.bracket (c.opsOf b).1
  let s := if now then (s.modCtx who Ctx.endGroup).release who else s
  let s := s.modCtx who fun c => if c.foots.isEmpty then { c with ctl := { c.ctl with ibf := c.ctl.ib } } else c
  let (l, ix) := (s.ctx who).opsOf b
  match s.verdict who b l with
  | some (t, k) => s.takeTrap who t k c.ctl.pc
  | none => s.enter who b l ix
/-- The second tick of a split bundle (R113). -/
def State.secondHalf (s : State) (who : Nat) (p : Split) : State :=
  (s.modCtx who fun c => ({ c with split := none }.enqueue p.ents).close p.stop p.ckpt).ticked who p.occ p.stop (s.ctx who).ctl.grp
/-- A context dispatches a bundle, or the second half of the one it has begun; when it may not, nothing happens. -/
def execBundleDispatch (b : BitVec 512) (s : State) : Out :=
  let who := s.cur.who
  .next <|
    match (s.ctx who).split with
    | some p =>
      if ((s.core (coreOf who)).tick.any fun t => t.1 == ctxOf who) || !s.beside who p.occ p.stop then s else s.secondHalf who p
    | none => if s.turn who (splitBundle b) then (s.claimCode who (s.ctx who).ctl.pc.toNat).dispatch who (splitBundle b) else s

/-! ## When an operation may issue -/

/-- The unit that a slot's operations go to. -/
def Core.unit (k : Core) : Slot → Nat
  | .s => 0 | .m => 3 | .e => 6 | .y => 7
  | .v0 => 1 + (k.bind.getLsbD 0).toNat | .v1 => 1 + (k.bind.getLsbD 1).toNat
  | .ld => 4 + (k.bind.getLsbD 2).toNat | .st => 4 + (k.bind.getLsbD 3).toNat
/-- Operations that read their registers when their path starts them, not at issue (R180). -/
def onPath : Instr → Bool
  | .mpre .. | .mmul .. | .mmulz .. | .mmulp .. | .mcmul .. | .mclr .. | .mbias .. | .mdrain .. | .mtr .. => true
  | _ => false
def spanKeys (l : List (Nat × Nat)) : List Nat := (l.map fun p => keysAt p.1 p.2).flatten
/-- The scoreboard lets an operation with this footprint issue (R31, R180). -/
def Ctx.clear (c : Ctx) (i : Instr) (f : Foot) : Bool :=
  c.fly.all (fun x => let d := x.dst.keys x.size; !meets d f.rd && !meets d f.wr) &&
  (onPath i || c.mops.all fun m =>
    !meets (spanKeys m.writes) (f.rd ++ f.wr) && !(m.stage != 1 && meets (spanKeys m.reads) f.wr))
/-- The class of an access to a layout entry, or of a command (R99, R100, R205, R213); the releases wait for every class on their own. -/
def State.accCls (s : State) (who : Nat) : Instr → Option Nat
  | .ldT _ _ _ m .. | .ldV _ _ _ m .. | .ldS _ _ _ m .. | .ldG _ _ m | .stT _ _ _ m .. | .stV _ _ _ m .. | .stS _ _ _ m ..
  | .stSc _ _ m | .amo _ _ _ _ _ m => some (memCls m (s.lay who m.le.toNat))
  | .wait a _ => some (s.lay who a.le.toNat).cls
  | .cpIn c | .cpOut c | .cpPeer c _ | .cpPf c | .send c | .recvArm c | .exf c _ | .ofx c | .ofm c _ | .ofcCap c | .ofcRd c | .ofcTab c
  | .ofr c _ => some (cmdCls c (s.lay who c.la.toNat))
  | _ => none
/-- An access of the LD or ST slot, to spill memory or a ring's slot too. -/
def isMemOp : Instr → Bool
  | .ldT .. | .ldV .. | .ldS .. | .ldG .. | .ldSp .. | .rpop .. | .rsel .. | .rpeek .. | .stT .. | .stV .. | .stS .. | .stSc .. | .stSp ..
  | .amo .. | .rpush .. => true
  | _ => false
/-- An unissued `fence` or acquire of an earlier bundle holds an access of this class (R212, R214, R216). -/
def Ctx.fenceHolds (c : Ctx) (seq cls : Nat) : Bool :=
  (c.q .y).any fun y => decide (y.seq < seq) &&
    (match y.opIn .y with | some (.fence _ m) => m.getLsbD cls | some (.wait ..) | some (.bar ..) => true | _ => false)
/-- An unissued acquire of an earlier bundle holds every access, one to a ring's slot or to a plane's ring too (R214, R216, R400). -/
def Ctx.acquireHolds (c : Ctx) (seq : Nat) : Bool :=
  (c.q .y).any fun y => decide (y.seq < seq) && (match y.opIn .y with | some (.wait ..) | some (.bar ..) => true | _ => false)
/-- An operation that accesses memory, a local buffer or a ring. -/
def accesses (i : Instr) : Bool :=
  isMemOp i || isEng i ||
  match i with
  | .vmovPop .. | .vmovPush .. | .vbin .. | .mpre .. | .mmul .. | .mmulz .. | .mmulp .. | .mcmul .. | .mdrain .. | .tch .. => true
  | _ => false
/-- Ordering of an access: program order against the other memory slot (R190), class order behind the context's commands and
drawer accesses (R205, R364), fences and acquires. -/
def State.ordered (s : State) (who : Nat) (sl : Slot) (e : Ent) (i : Instr) : Bool :=
  let c := s.ctx who
  (!isMemOp i ||
    match sl with
    | .ld => (c.q .st).all fun x => decide (e.seq ≤ x.seq)
    | .st => (c.q .ld).all fun x => decide (e.seq < x.seq)
    | _ => true) && !(accesses i && c.acquireHolds e.seq) &&
  match s.accCls who i with
  | none => true
  | some k =>
    !(s.engineOpen who fun cls => cls == k) &&
    !(s.fab.reqs.any fun r => r.open who && r.cls == k) && !c.fenceHolds e.seq k
/-- `csrr` and `csrw`, and system instructions, issue after all else (R81, R136, R299). -/
def drains : Instr → Bool
  | .csrr .. | .csrw .. => true
  | i => decide (0 < leastLevel i)
/-- Every engine command of the context has completed (R81, R299). -/
def State.enginesDone (s : State) (who : Nat) : Bool :=
  !(s.engineOpen who fun _ => true) && (s.ctx who).rq.all fun p => p.2.all (·.arrived)
/-- Nothing that issued is still to complete, records of engine commands apart. -/
def Ctx.settled (c : Ctx) : Bool :=
  c.fly.isEmpty && c.mops.isEmpty && c.split.isNone && c.wait.isNone &&
  c.rq.all fun p => p.2.all fun e => e.arrived || p.1 == 2 || p.1 == 3
/-- What has to complete before an operation that is performed late in its bundle (R34, R130, R299): first what can be undone, then reads
of registers, then what cannot be undone, a system instruction last (log 95). -/
def State.gate (s : State) (who : Nat) (sl : Slot) (e : Ent) (i : Instr) : Bool :=
  let c := s.ctx who
  let last (j : Instr) : Bool := isIrrev j || (isSoft j).isSome
  let others (p : Slot → Ent → Bool) : Bool := allSlots.all fun x => (c.q x).all fun y => (x == sl && y.seq == e.seq) || p x y
  let left (x : Slot) (y : Ent) : Bool := match y.opIn x with | some j => last j | none => false
  let done := c.settled && !s.stepOpen who
  if decide (0 < leastLevel i) && isIrrev i then done && s.enginesDone who && others fun _ _ => false
  else if drains i then done && s.enginesDone who && others fun x y => y.seq == e.seq && left x y
  else if last i then done && others left
  else true
/-- Bytes that the results of an operation, an entry of a result queue among them, may take in a snapshot, at most (R357). -/
def resultBytes (d : DOp) (cw : Nat → Nat) (i : Instr) : Nat :=
  if onPath i then 0
  else
    (match d.sl.kind with | .s => 32 | .v => 1056 | _ => 0) +
    ((fieldsOf cw d.sl.kind d.ent.raw i).filter (·.wr)).foldl (fun a f =>
      a + match f.kind with | .name vw n => n * (16 + 2 * vw.size) | .mask => 272 | _ => 64) 0
/-- The head of a slot queue is ready to issue: its unit is free, and nothing of its own context holds it. -/
def State.issueReady (s : State) (who : Nat) (sl : Slot) (e : Ent) (i : Instr) : Bool :=
  let c := s.ctx who
  let k := s.core (coreOf who)
  let d : DOp := { sl := sl, op := some i, ent := e }
  !c.susp && !c.woke && (c.blk.isNone || c.blkSl != sl.num) &&
  (match c.wait with
   | none => true
   -- what stands before a `wait`, or beside it, still issues
   | some (.wait ..) => sl != .y && (c.q .y).all fun y => decide (e.seq ≤ y.seq)
   | some _ => false) &&
  c.waiting.all (fun x => decide (e.grp ≤ x.grp)) && !k.issued.contains (k.unit sl) &&
  (match sl with | .v0 | .v1 => aget 0 k.vbusy (k.unitOf sl) == 0 | _ => true) &&
  c.clear i (s.foot who d i) && s.ordered who sl e i && s.gate who sl e i && c.flightRoom (resultBytes d (s.cw who) i)
/-- The head of a slot's queue is ready, and a test holds of its operation. -/
def State.headReady (s : State) (who : Nat) (sl : Slot) (p : Instr → Bool) : Bool :=
  match (s.ctx who).q sl with
  | e :: _ => (match e.opIn sl with | some j => p j && s.issueReady who sl e j | none => false)
  | [] => false
/-- What an operation that cannot be undone does, it does where its guard is true. -/
def Ent.acts (c : Ctx) (sl : Slot) (e : Ent) (i : Instr) : Bool :=
  isIrrev i && c.ctl.guard ⟨BitVec.ofNat 4 (natBits e.raw.toNat (guardPos sl.kind) 4), e.raw.getLsbD (guardPos sl.kind + 4)⟩
/-- The head of a slot queue has left it and is issuing on its unit. -/
def State.issuing (s : State) (who : Nat) (sl : Slot) (e : Ent) : State :=
  let acts := match e.opIn sl with | some i => e.acts (s.ctx who) sl i | none => false
  let s := (s.modCtx who fun c => { c.popQ sl with acted := c.acted + acts.toNat }).modCore (coreOf who) fun k =>
    { k with issued := k.issued ++ [k.unit sl] }
  { s with cur := { who := who, slot := sl, ent := e, irrev := acts } }

/-! ## Firing on rings (R65) -/

/-- A ring operation that waits at the head of its queue, performed; none is no ring operation. -/
def issueRing (i : Instr) (s : State) : Option Out :=
  match i with
  | .rpop g z rg rn => some (execRpop g z rg rn s)
  | .rsel g z rg pd rn rn2 => some (execRsel g z rg pd rn rn2 s)
  | .rpush g z rn rg => some (execRpush g z rn rg s)
  | .rwait g f k b => some (execRwait g f k b s)
  | .vmovPop c vd b => some (execVmovPop c vd b s)
  | .vmovPush c b va => some (execVmovPush c b va s)
  | .vbin c k vd va vb b => some (execVbin c k vd va vb b s)
  | .mpre g x n ra rb => some (execMpre g x n ra rb s)
  | .mmul g rm x y n od ra rb => some (execMmul g rm x y n od ra rb s)
  | .mmulz g rm x y n od ra rb => some (execMmulz g rm x y n od ra rb s)
  | .mmulp g rm x y p pr pw n od ra rb => some (execMmulp g rm x y p pr pw n od ra rb s)
  | .mcmul g rm x y z n od ra rb => some (execMcmul g rm x y z n od ra rb s)
  | .mdrain g rm k add os ra rb => some (execMdrain g rm k add os ra rb s)
  | .cpIn c => some (execCpIn c s)
  | .cpOut c => some (execCpOut c s)
  | .cpPeer c mc => some (execCpPeer c mc s)
  | .send c => some (execSend c s)
  | .recvArm c => some (execRecvArm c s)
  | .exf c rn => some (execExf c rn s)
  | .ofx c => some (execOfx c s)
  | .ofm c x => some (execOfm c x s)
  | .ofcRd c => some (execOfcRd c s)
  | .ofcTab c => some (execOfcTab c s)
  | _ => none
/-- A ready operation of a slot's head fires: it does not block its context. -/
def State.fires (s : State) (who : Nat) (sl : Slot) (e : Ent) (i : Instr) : Bool :=
  match issueRing i (s.issuing who sl e) with
  | some (.next t) => (t.ctx who).blk.isNone
  | _ => true
/-- The owner of a peer's ring has an operation ready that takes slots of it: the reader of the same tick comes behind (R62, R66). -/
def State.ownerAhead (s : State) (who : Nat) : Instr → Bool
  | .mmulp _ _ _ _ peer prel _ _ _ ra _ =>
    let pc := peerCore (coreOf who) (if prel then (rankOf (coreOf who) + peer.toNat) % 16 else peer.toNat)
    let w := pc * 4 + (s.ring pc ra.toNat).owner
    allSlots.any fun sl =>
      match (s.ctx w).q sl with
      | e :: _ =>
        (match e.opIn sl with
         | some j => (ringsOf (s.cw w) { sl := sl, op := some j, ent := e } j).contains ra.toNat && s.issueReady w sl e j && s.fires w sl e j
         | none => false)
      | [] => false
  | _ => false
/-- Contexts that go first have optical commands ready for all the entries that the stage's queue has left (R223). -/
def State.stageAhead (s : State) (who : Nat) (i : Instr) : Bool :=
  let g := (s.die (dieOfWho who)).stage
  isOpt i && decide (32 ≤ g.queue.length +
    s.ctxs.countP fun c => dieOfWho c.1 == dieOfWho who && decide (c.1 < who) &&
      match c.2.q .e with | e :: _ => (match e.opIn .e with | some j => isOpt j && s.issueReady c.1 .e e j | none => false) | [] => false)
/-- A matrix operation of a context that goes first is ready for the path that another wants (R173). -/
def State.pathWanted (s : State) (who : Nat) (i : Instr) : Bool :=
  match matrixPath i with
  | none => false
  | some p => (s.matrixAhead who).any fun n =>
      let w := coreOf who * 4 + n
      match (s.ctx w).q .m with
      | e :: _ => (match e.opIn .m with | some j => matrixPath j == some p && s.issueReady w .m e j && s.fires w .m e j | none => false)
      | [] => false
/-- One context's system accesses go ahead of another's in a tick: firmware cores first, then by number (R299). -/
def sysAhead (a b : Nat) : Bool := (isFw a && !isFw b) || (isFw a == isFw b && decide (a < b))
/-- The head of a slot queue may issue: no context that goes first has an operation ready for its matrix path (R173), for the
peer's ring that it reads (R66), for the stage's last entries (R223), or an access to a system register or queue (R299). -/
def State.mayIssue (s : State) (who : Nat) (sl : Slot) (e : Ent) (i : Instr) : Bool :=
  s.issueReady who sl e i &&
  !s.pathWanted who i && !s.ownerAhead who i && !s.stageAhead who i &&
  (leastLevel i == 0 || s.ctxs.all fun c => !sysAhead c.1 who || !s.headReady c.1 .s fun j => leastLevel j != 0)
/-- A removed load stands for its coordinates alone (R263): it issues when its scalars have been written. -/
def State.mayGhost (s : State) (who : Nat) (e : Ent) (i : Instr) : Bool :=
  let c := s.ctx who
  !c.susp && !c.woke && c.wait.isNone && c.waiting.all (fun x => decide (e.grp ≤ x.grp)) &&
  c.clear i { s.foot who { sl := .ld, op := some i, ent := e } i with wr := [] } &&
  (c.q .st).all fun x => decide (e.seq ≤ x.seq)

/-- A ring operation that blocked its context fires in a tick in which its credits have been published. -/
def execOperationFires (who : Nat) (sl : Slot) (s : State) : Out :=
  match (s.ctx who).q sl with
  | [] => .next s
  | e :: _ =>
    match e.opIn sl with
    | none => .next s
    | some i =>
      match (s.ctx who).blk with
      | some b =>
        if (s.ctx who).blkSl != sl.num || !s.blockClear who b then .next s
        else
          let t := (s.modCtx who fun c => { c with blk := none }).elect (coreOf who)
          if t.mayIssue who sl e i then (issueRing i (t.issuing who sl e)).getD (.next s) else .next s
      | none => if s.mayIssue who sl e i then (issueRing i (s.issuing who sl e)).getD (.next s) else .next s

end Sys2Proof.Machine
end

