-- ==== Sys2Proof/Machine/Clock.lean ====
section
/-! DEFINITION. What one master cycle counts (R66, R136, R140, R312, R335, R366, R377, R384, R399), and the order in which the model
tries everything that can happen next (log 3). -/

namespace Sys2Proof.Machine

/-! ## One tick of a core -/

/-- A count comes one tick nearer; a result queue's producers of fixed latency are those of q1, q4 and q5 (R49). -/
def QEnt.nearer (e : QEnt) : QEnt := { e with left := e.left - 1 }
def Fly.nearer (f : Fly) : Fly := { f with left := f.left - 1 }
def MOp.nearer (m : MOp) : MOp := if m.stage = 0 then m else { m with left := m.left - 1 }
def Hold.nearer : Hold → Hold
  | .sleep n => .sleep (n - 1)
  | h => h
/-- Work of a context that is not stopped goes on; matrix operations go on until all are in flight (R38). -/
def Ctx.work (c : Ctx) : Ctx :=
  { c with fly := c.fly.map Fly.nearer, mops := c.mops.map MOp.nearer, wait := c.wait.map Hold.nearer,
           rq := c.rq.map fun (p : Nat × List QEnt) => if p.1 = 1 ∨ 4 ≤ p.1 then (p.1, p.2.map QEnt.nearer) else p }
/-- TICKS, the quantum and the watchdog count while an instance holds the context. -/
def Ctx.tick (c : Ctx) : Ctx :=
  let c := { (if c.frozen then c else if c.susp then { c with mops := c.mops.map MOp.nearer } else c.work) with woke := false }
  match c.inst with
  | some i => { c with ticks := c.ticks + 1, idle := c.idle + 1, inst := some { i with held := i.held + 1 } }
  | none => if c.service then { c with ticks := c.ticks + 1 } else c
def lessOne (l : List (Nat × Nat)) : List (Nat × Nat) := l.map fun p => (p.1, p.2 - 1)
def Core.endTick (k : Core) : Core :=
  { k with tick := [], issued := [], vbusy := lessOne k.vbusy, mbusy := lessOne k.mbusy,
           rings := k.rings.map fun (p : Nat × Ring) => (p.1, p.2.endTick) }
def Bcast.nearer (b : Bcast) : Bcast :=
  { b with todo := b.todo.map fun (t : Nat × Word × BitVec 512 × Nat) => (t.1, t.2.1, t.2.2.1, t.2.2.2 - 1) }
/-- The present master cycle ends a tick of a core: its row's pulse, or the firmware cores' nanosecond. -/
def State.beats (s : State) (core : Nat) : Bool :=
  if 256 ≤ core then s.cyc * 1000 / s.mhz != (s.cyc + 1) * 1000 / s.mhz else s.pulse (rowOf core)
def State.counted (s : State) : State :=
  { s with ctxs := s.ctxs.map fun (p : Nat × Ctx) => if s.beats (coreOf p.1) then (p.1, p.2.tick) else p,
           cores := s.cores.map fun (p : Nat × Core) => if s.beats p.1 then (p.1, p.2.endTick) else p,
           rows := s.rows.map fun (p : Nat × Row) => if s.pulse p.1 then (p.1, { p.2 with bcast := p.2.bcast.map Bcast.nearer }) else p,
           cmds := s.cmds.map fun (r : ECmdRec) => if s.beats (coreOf r.who) then { r with deadline := r.deadline.map (· - 1) } else r }
/-- The ticks of the cores: register writes take effect (R301), the counts move, bundles reach their cores (R25), cores without a primary
elect one (R23), and preloads that no longer rank first go (R339). -/
def State.coreTicks (s : State) : State :=
  let cores := (s.cores.map (·.1)).filter s.beats
  let rows := (s.rows.map (·.1)).filter s.pulse
  let held := (s.cores.filter fun k => k.2.preload.isSome).map (·.1)
  let s := ((s.regw.map fun w => coreOf w.1).eraseDups.filter s.beats).foldl State.landRegs s
  let s := rows.foldl State.bcastLand s.counted
  held.foldl State.dropStale (cores.foldl (fun s c => (s.dropDue c).electEnd c) s)

/-! ## One master cycle -/

/-- The 64 µs of a realignment. -/
def Hold.realigning : Hold → Hold
  | .realign p left pc => .realign p (left - 1) pc
  | h => h
/-- Times of a link pair; flit errors are counted anew in each rondel. -/
def State.pairTick (s : State) (p : Nat) (x : Pair) : Pair :=
  { x with since := x.since + 1, idle := if x.state == 2 && s.queued p == 0 && s.queuedFar p == 0 then x.idle + 1 else 0,
           errs := if s.ltime / 8192 = (s.cyc + 1) * 1000 / s.mhz / 8192 then x.errs else 0 }
/-- A request waits on a pair that is not up (R366, R367). -/
def State.reqTick (s : State) (r : DReq) : DReq :=
  let st := (s.pair (reqPair r)).state
  if decide (r.drawer < 2) && r.left.isNone && !r.done && !r.dropped && (st == 0 || st == 5 || (st == 6 && r.kind == 0)) then
    { r with stall := r.stall + 1 }
  else r
def State.fabTick (s : State) : State :=
  let f := s.fab
  { s with
    fab := { f with
      pairs := f.pairs.map fun (p : Nat × Pair) => (p.1, s.pairTick p.1 p.2), reqs := f.reqs.map s.reqTick,
      ctls := f.ctls.map (fun (c : CtlFlit) => { c with age := c.age + 1 }), swPop := f.swPop - 1 },
    ctxs := s.ctxs.map fun (p : Nat × Ctx) => (p.1, { p.2 with wait := p.2.wait.map Hold.realigning }),
    cmds := s.cmds.map fun (r : ECmdRec) => if r.opc = 8 then { r with waited := r.waited + 1 } else r }
/-- The linker's holds count master cycles, from when the head is ready (R332). -/
def Die.tick (d : Die) : Die :=
  { d with tasks := d.tasks.map fun (p : Nat × Task) =>
      if p.2.state = 2 then (p.1, { p.2 with holdLeft := p.2.holdLeft.map (· - 1) }) else p }
/-- Each microsecond the ages grow, and the stage's temperature is a new free value (R232, R312). -/
def State.microTick (s : State) (die : Nat) : State :=
  let (t, s) := s.draw 16
  s.modDie die fun d => { d.ageTick with stage := { d.stage with temp := t } }
/-- The head of an optical queue starts, a pass apart; `ofr`, `ofc.rd` and `ofc.tab` need no frame and are performed. -/
def State.stageTick (s : State) (die : Nat) : State :=
  let s := s.startHead die fun o => o.op != 0x10
  match (s.die die).stage.queue with
  | o :: _ => if o.op == 0x13 || (o.op == 0x12 && o.fn != 0) then s.opticalDone die o.id else s
  | [] => s
def fourDies : List Nat := [0, 1, 2, 3]
/-- Every master cycle: the ticks of the cores whose pulse it is, the links, the dies, the rails, and what the ports send. -/
def State.tick (s : State) : State :=
  let n := (s.cyc + 1) * 1000 / s.mhz
  let sends := s.ltime / 32 != n / 32
  let s := (s.coreTicks).fabTick
  let s := ((s.fab.pairs.filter fun p => p.2.state == 5).map (·.1)).foldl (fun s p => s.stallAll p) s
  let s := fourDies.foldl (fun s d => ((s.modDie d Die.tick).stageTick d).railTick d) s
  let s := if (s.cyc + 1) % s.mhz = 0 then fourDies.foldl (fun s d => s.microTick d) s.monitorTick else s
  let s := s.serveXfers
  let s := { s with cyc := s.cyc + 1 }
  if sends then s.transmit else s

/-! ## The default order (log 3) -/

/-- Events of one context that can be near: results, queues, latches, matrix work, windows, checkpoints, blocks, holds. -/
def State.ctxEvents (s : State) (who : Nat) : List (State → Out) :=
  let c := s.ctx who
  ((c.fly.filter fun f => f.left == 0 || c.susp).map fun f => execResultWrite who f.id) ++
  (((c.rqGet 1).filter fun e => !e.arrived && e.left == 0).map fun e => execDivisionResultPush who e.id) ++
  ([4, 5].map fun q => ((c.rqGet q).filter fun e => !e.arrived && e.left == 0).map fun e => execVectorQueueEntryPush who q e.id).flatten ++
  (if c.ctl.latw.isEmpty then [] else [execLatchWriteLands who 0]) ++
  (if c.mops.isEmpty then [] else [execPlaneLoadEnd who 0, execPlaneLoadEnd who 1]) ++
  (c.mops.map fun m =>
    [execMatrixResultWrite who m.id, execDrainPush who m.id, execPeerReadEnd who m.id]).flatten ++
  ((c.wins.filter fun w => w.left == 0).map fun w => execTouchWindowExpiry who w.n) ++
  (if c.ckDue then [execCheckpointRelease who] else []) ++ (if c.blk.isSome then [execContextReady who] else []) ++
  (match c.wait with
    | some (.wait ..) => [execWaitSatisfied who] | some (.bar ..) => [execBarrierPass who] | some (.sleep _) => [execSleepExpiry who]
    | some (.realign ..) => [execRealignTimeout who, execRealignDone who] | some (.lock ..) => [execOrderingLockGrant who] | _ => []) ++
  (if c.halting then [execInstanceEnd who] else []) ++
  (if isFw who then []
   else [execContextResume who, execInstanceStart who, execWatchdogExpiry who])
def State.fabEvents (s : State) : List (State → Out) :=
  [execDrawerSlot 0, execDrawerSlot 1] ++
  (s.fab.reqs.map fun r => [execStallTimeout r.id, execDrawerReadDataPlaced r.id, execDrawerWritePerforms r.id]).flatten ++
  (s.cmds.map fun r =>
    [execExfBlockLands r.id, execExfDeadline r.id, execLateBlockDiscard r.id, execEngineCommandComplete r.id, execSendTimeout r.id]).flatten ++
  (s.fab.pairs.map fun p =>
    [execTrainTimeout p.1, execRetrainTimeout p.1, execControlTimeout p.1, execParkIdle p.1, execWakeComplete p.1] ++
    (if p.2.failing then [execRetrainTrigger p.1] else []) ++ (if s.wakes p.1 then [execWakeThreshold p.1] else [])).flatten ++
  [execSwitchCommandPop, execRotationEnd, execRotationStart, execCircuitSlotGuard, execCircuitSlotConnect] ++
  (s.fab.chg.map fun c => execModulatorChangeover c.1 c.2.1) ++
  ((s.fab.rings.filter fun r => aget 0 s.fab.heat r.1 != r.2.heat).map fun r => execHeaterApply r.1)
def State.dieEvents (s : State) (d : Nat) : List (State → Out) :=
  [execFrameBoundary d, execRailVminCrossing d, execRailReachesTarget d, execRowsFitted d, execRailHoldExpiry d, execPowerGrant d,
   execOpticalWindowWrite d, execMaskLoadComplete d, execCaptureComplete d true, execOpticalPassStart d, execSpliceHoldExpiry d] ++
  ((s.die d).tasks.map fun t => [execTaskRerun d t.1, execTaskAbandon d t.1, execShareDone d t.1]).flatten
def State.svcEvents (s : State) : List (State → Out) :=
  (s.svc.queues.map fun q =>
    [execLaunch q.1, execLoadimg q.1, execUnload q.1, execOpenq q.1, execCloseq q.1, execResync q.1] ++
    fourDies.map fun d => execLaunchFetch d q.1).flatten ++
  ((s.svc.images.filter fun i => i.unload).map fun i => execUnloadEffect i.id) ++
  ((s.die 0).tasks.map fun t => execTaskCompletion t.1) ++ (List.range 8).map execOutboundPacketToken
def State.rowEvents (r : Nat × Row) : List (State → Out) :=
  match r.2.bcast with
  | some b => b.ranks.head?.toList.map fun k => execBroadcastDelivery r.1 k
  | none => []
def State.ringEvents (c : Nat × Core) : List (State → Out) :=
  (c.2.rings.filter fun r => r.2.pend).map fun r => execRingClearComplete c.1 r.1

/-! ## Translation caches (R346) -/

/-- A core keeps the translation of an address. -/
def State.fill (s : State) (core part va : Nat) : State :=
  match s.walk part va with
  | .ok p => if s.tlb.contains (core, part, p) then s else { s with tlb := s.tlb ++ [(core, part, p)] }
  | .error _ => s
def State.evict (s : State) (core va : Nat) : State := { s with tlb := s.tlb.filter fun e => !(e.1 == core && e.2.2.covers va) }

/-! ## Moves -/

/-- The memory operand of a load. -/
def memOf : Instr → Option MemArg
  | .ldT _ _ _ m .. | .ldV _ _ _ m .. | .ldS _ _ _ m .. | .ldG _ _ m => some m
  | _ => none
/-- The head of a slot's queue issues when it may: a removed load stands for its coordinates, else `run` gives the operation its
effect. -/
def State.issueHead (s : State) (who : Nat) (sl : Slot) (run : Instr → State → Out) : Out :=
  match (s.ctx who).q sl with
  | [] => .next s
  | e :: _ =>
    match decode sl.kind e.raw with
    | .error _ => .next s
    | .ok i =>
      if e.ghost then .next (if s.mayGhost who e i then (match memOf i with | some m => (s.issuing who sl e).ghostLoad m | none => s.issuing who sl e) else s)
      else if s.mayIssue who sl e i then run i (s.issuing who sl e)
      else .next s
/-- A context's next bundle: the second half of a split one, or what it fetches; a failed fetch traps when its turn has come. -/
def State.dispatchNext (s : State) (who : Nat) (run : Instr → State → Out) : Out :=
  let t := { s with cur := { who := who } }
  if (s.ctx who).split.isSome then run (.bundleDispatch 0) t
  else
    match s.nextBundle who with
    | none => .next s
    | some (.ok b) => run (.bundleDispatch b) t
    | some (.error (.trap x)) =>
      .next (if s.mayDispatch who && s.beside who 0 false then s.takeTrap who x 15 (s.ctx who).ctl.pc else s)
    | some (.error (.gone a)) => if s.mayDispatch who && s.beside who 0 false then .fault (.noSuchAddress a) else .next s
/-- Bundle of the head of a slot's queue. -/
def Ctx.headSeq (c : Ctx) (sl : Slot) : Word := match c.q sl with | e :: _ => e.seq | [] => 0
/-- Issues of a context's slots: the oldest bundle first, and within it the lowest slot, as a fault's record names them (R350). -/
def State.issues (s : State) (run : Instr → State → Out) (who : Nat) : List (State → Out) :=
  let c := s.ctx who
  ((allSlots.filter fun sl => !(c.q sl).isEmpty).insertionSort fun a b => c.headSeq a ≤ c.headSeq b).map fun sl t => t.issueHead who sl run
/-- Firmware contexts, then the others, each by its number (R299). -/
def State.inLine (s : State) : List Nat := ((s.ctxs.map (·.1)).filter isFw) ++ ((s.ctxs.map (·.1)).filter fun w => !isFw w)
/-- Peer reads that stood behind the owner's operation of their tick come after it (R62, R66). -/
def State.peerIssues (s : State) (run : Instr → State → Out) : List (State → Out) :=
  (s.inLine.filter fun w => match (s.ctx w).q .m with | e :: _ => (match e.opIn .m with | some (.mmulp ..) => true | _ => false) | [] => false).map
    fun w t => t.issueHead w .m run
/-- Matrix operations whose path is free start in the tick in which they have fired (R180). -/
def State.pathStarts (s : State) : List (State → Out) :=
  (s.ctxs.map fun c => (c.2.mops.filter fun m => m.stage == 0).map fun m => execMatrixPathStart c.1 m.id).flatten
/-- A quantum that is over and a request to stop come after every trap of their tick (R39). -/
def State.stops (s : State) : List (State → Out) :=
  ((s.ctxs.filter fun c => !isFw c.1 && c.2.inst.isSome).map fun c => [execQuantumOverrun c.1, execPreemption c.1]).flatten
/-- The primary dispatches ahead of the secondary (R22). -/
def State.dispatches (s : State) (run : Instr → State → Out) (core : Nat) : List (State → Out) :=
  ((s.core core).prim.toList ++ (s.core core).sec.toList).map fun n t => t.dispatchNext (core * 4 + n) run
/-- Performs a list of actions in turn, up to a stop. -/
def inTurn : List (State → Out) → State → Out
  | [], s => .next s
  | f :: r, s => match f s with | .next t => inTurn r t | o => o
/-- The groups of a default master cycle; each lists its actions from the state it finds. -/
def groups (run : Instr → State → Out) : List (State → List (State → Out)) :=
  [fun s => (fourDies.map s.dieEvents).flatten, State.fabEvents, fun s => (s.ctxs.map fun c => s.ctxEvents c.1).flatten,
   State.svcEvents, fun s => (s.rows.map State.rowEvents).flatten, fun s => (s.inLine.map fun w => s.issues run w).flatten,
   fun s => s.peerIssues run, State.pathStarts,
   fun s => ((s.cores.filter fun c => decide (c.1 < 256)).map fun c => s.dispatches run c.1).flatten,
   fun s => (s.ctxs.filter fun c => isFw c.1).map fun c t => t.dispatchNext c.1 run, State.stops,
   fun s => (s.cores.map State.ringEvents).flatten]
/-- Performs groups of actions in turn. -/
def inGroups : List (State → List (State → Out)) → State → Out
  | [], s => .next s
  | g :: r, s => match inTurn (g s) s with | .next t => inGroups r t | o => o
/-- What a step does when `sched` names nothing: everything that the state gives cause for, in the model's order, and then one
master cycle. What an external agent does, and what else happens at a time of its own, comes through `sched` alone. -/
def State.cycle (s : State) (run : Instr → State → Out) : Out :=
  match inGroups (groups run) s with
  | .next t => .next t.tick
  | o => o

/-- One move; `run` gives an instruction its meaning. -/
def State.move (s : State) (m : Move) (run : Instr → State → Out) : Out :=
  match m with
  | .tick => .next s.tick
  | .fill core part va => .next (s.fill core part va)
  | .evict core va => .next (s.evict core va)
  | .issue who sl => s.issueHead who sl run
  | .dispatch who => s.dispatchNext who run
  | .event i => if (kindOf i).isNone && (match i with | .bundleDispatch _ => false | _ => true) then run i s else .next s

end Sys2Proof.Machine
end

