-- ==== Sys2Proof/Machine/Control.lean ====
section
/-! DEFINITION. Control transfer (R127 to R131), with the branch outcomes of a broadcast launch (R26). -/

namespace Sys2Proof.Machine

/-- The bundle dispatched next. -/
def Ctx.goto (c : Ctx) (pc : Word) : Ctx := { c with ctl := { c.ctl with pc := pc } }
/-- The broadcast that the operation's core takes part in. -/
def State.myBcast (s : State) : Option (Inst × Bcast) :=
  match s.me.inst with
  | some i => if i.bcast && !i.left then ((s.row (rowOf (coreOf s.cur.who))).bcast).map fun b => (i, b) else none
  | none => none
/-- The core leads its broadcast. -/
def State.leads (s : State) (b : Bcast) : Bool := b.ranks.head? == some (rankOf (coreOf s.cur.who))
def State.followed (s : State) (i : Inst) : State := s.modMe fun c => { c with inst := some { i with bidx := i.bidx + 1 } }

/-- A branch resolves to its next bundle. In a broadcast the lowest rank's outcome leads: another core waits for it, and
leaves the broadcast through its trap when its own differs (R26). -/
def State.resolve (s : State) (next : Word) : State :=
  match s.myBcast with
  | none => s.modMe fun c => c.goto next
  | some (i, b) =>
    match b.trace[i.bidx]? with
    | some o => if o.2 = next then (s.followed i).modMe fun c => c.goto next else s.trap ⟨9, 0, 0⟩
    | none =>
      let row := rowOf (coreOf s.cur.who)
      if s.leads b then
        ((s.setRow row { s.row row with bcast := some { b with trace := b.trace ++ [(s.cur.ent.pc, next)], pc := next, stall := false } }).followed
          i).modMe fun c => c.goto next
      else s.unissue

/-- The lowest rank has not resolved this branch yet. -/
def State.mustFollow (s : State) : Bool :=
  match s.myBcast with
  | none => false
  | some (i, b) => !s.leads b && decide (b.trace.length ≤ i.bidx)
/-- Resolves a branch with its guard and condition, after its register write. -/
def branch (g : Guard) (taken : Bool) (target : Word) (s : State) (write : State → State := id) : State :=
  if s.mustFollow then s.unissue
  else (if s.guard g then write s else s).resolve (if s.guard g && taken then target else s.cur.ent.pc + 1)
/-- PC + OFF. -/
def State.rel (s : State) (off : BitVec 28) : Word := s.cur.ent.pc + off.signExtend 64

def execBr (g : Guard) (off : BitVec 28) (s : State) : Out := .next (branch g true (s.rel off) s)
def execBc (g : Guard) (c : ICond) (sa sb : BitVec 6) (off : BitVec 28) (s : State) : Out :=
  .next (branch g (icond c (s.sreg sa) (s.sreg sb)) (s.rel off) s)
def execCall (g : Guard) (sd : BitVec 6) (off : BitVec 28) (s : State) : Out :=
  .next (branch g true (s.rel off) s fun t => t.postS 1 sd (s.cur.ent.pc + 1))
def execLoop (g : Guard) (sd : BitVec 6) (off : BitVec 28) (s : State) : Out :=
  let v := s.sreg sd - 1
  .next (branch g (v != 0) (s.rel off) s fun t => t.postS 1 sd v)
def execRet (g : Guard) (sa : BitVec 6) (s : State) : Out := .next (branch g true (s.sreg sa) s)
def execJmpi (g : Guard) (sa sb : BitVec 6) (s : State) : Out := .next (branch g true (s.sreg sa + s.sreg sb) s)

/-- `brk` and `trap` are raised after their bundle has completed and its checkpoint has been released (R130). -/
def execBrk (g : Guard) (imm : BitVec 40) (s : State) : Out :=
  .next (if s.guard g then s.modMe fun c => { c with soft := some (18, imm.setWidth 64, s.cur.ent.pc), ckDue := true } else s)
def execTrap (g : Guard) (imm : BitVec 40) (s : State) : Out :=
  .next (if s.guard g then s.modMe fun c => { c with soft := some (19, imm.setWidth 64, s.cur.ent.pc), ckDue := true } else s)

/-- No later bundle is dispatched; the instance ends once everything dispatched has completed (R131). -/
def execHalt (g : Guard) (s : State) : Out :=
  .next (if s.guard g then s.modMe fun c => { c with halting := true, ckDue := true } else s)

end Sys2Proof.Machine
end

