-- ==== Sys2Proof/Machine/Dispatch.lean ====
section
/-! DEFINITION. One arm per constructor of `Instr`: its meaning, or its rejection by name. -/

namespace Sys2Proof.Machine

def exec (i : Instr) (s : State) : Host.Outcome State Fault Refusal :=
  match i with
  | .nop k => Sys2Proof.Machine.execNop k s
  | .add g sd sa sb => Sys2Proof.Machine.execAdd g sd sa sb s
  | .sub g sd sa sb => Sys2Proof.Machine.execSub g sd sa sb s
  | .mul g sd sa sb => Sys2Proof.Machine.execMul g sd sa sb s
  | .mulh g sd sa sb => Sys2Proof.Machine.execMulh g sd sa sb s
  | .mulhn g sd sa sb => Sys2Proof.Machine.execMulhn g sd sa sb s
  | .div g sa sb => Sys2Proof.Machine.execDiv g sa sb s
  | .divn g sa sb => Sys2Proof.Machine.execDivn g sa sb s
  | .rem g sa sb => Sys2Proof.Machine.execRem g sa sb s
  | .remn g sa sb => Sys2Proof.Machine.execRemn g sa sb s
  | .and g sd sa sb => Sys2Proof.Machine.execAnd g sd sa sb s
  | .or g sd sa sb => Sys2Proof.Machine.execOr g sd sa sb s
  | .xor g sd sa sb => Sys2Proof.Machine.execXor g sd sa sb s
  | .andn g sd sa sb => Sys2Proof.Machine.execAndn g sd sa sb s
  | .shl g sd sa sb => Sys2Proof.Machine.execShl g sd sa sb s
  | .shr g sd sa sb => Sys2Proof.Machine.execShr g sd sa sb s
  | .sar g sd sa sb => Sys2Proof.Machine.execSar g sd sa sb s
  | .min g sd sa sb => Sys2Proof.Machine.execMin g sd sa sb s
  | .max g sd sa sb => Sys2Proof.Machine.execMax g sd sa sb s
  | .minn g sd sa sb => Sys2Proof.Machine.execMinn g sd sa sb s
  | .maxn g sd sa sb => Sys2Proof.Machine.execMaxn g sd sa sb s
  | .clz g sd sa => Sys2Proof.Machine.execClz g sd sa s
  | .popc g sd sa => Sys2Proof.Machine.execPopc g sd sa s
  | .sext g sd sa w => Sys2Proof.Machine.execSext g sd sa w s
  | .zext g sd sa w => Sys2Proof.Machine.execZext g sd sa w s
  | .mov g sd sa => Sys2Proof.Machine.execMov g sd sa s
  | .sel g sd pc sa sb => Sys2Proof.Machine.execSel g sd pc sa sb s
  | .cmp g c pd sa sb => Sys2Proof.Machine.execCmp g c pd sa sb s
  | .pand g pd pa pb => Sys2Proof.Machine.execPand g pd pa pb s
  | .por g pd pa pb => Sys2Proof.Machine.execPor g pd pa pb s
  | .pxor g pd pa pb => Sys2Proof.Machine.execPxor g pd pa pb s
  | .pnot g pd pa => Sys2Proof.Machine.execPnot g pd pa s
  | .addi g sd sa imm => Sys2Proof.Machine.execAddi g sd sa imm s
  | .li g sd imm => Sys2Proof.Machine.execLi g sd imm s
  | .lih g sd sa imm => Sys2Proof.Machine.execLih g sd sa imm s
  | .fadd g rm t sd sa sb => Sys2Proof.Machine.execFadd g rm t sd sa sb s
  | .fsub g rm t sd sa sb => Sys2Proof.Machine.execFsub g rm t sd sa sb s
  | .fmul g rm t sd sa sb => Sys2Proof.Machine.execFmul g rm t sd sa sb s
  | .ffma g rm t sd sa sb sc => Sys2Proof.Machine.execFfma g rm t sd sa sb sc s
  | .fcmp g c t pd sa sb => Sys2Proof.Machine.execFcmp g c t pd sa sb s
  | .fcvt g rm t u sd sa => Sys2Proof.Machine.execFcvt g rm t u sd sa s
  | .br g off => Sys2Proof.Machine.execBr g off s
  | .bc g c sa sb off => Sys2Proof.Machine.execBc g c sa sb off s
  | .call g sd off => Sys2Proof.Machine.execCall g sd off s
  | .ret g sa => Sys2Proof.Machine.execRet g sa s
  | .jmpi g sa sb => Sys2Proof.Machine.execJmpi g sa sb s
  | .loop g sd off => Sys2Proof.Machine.execLoop g sd off s
  | .brk g imm => Sys2Proof.Machine.execBrk g imm s
  | .trap g imm => Sys2Proof.Machine.execTrap g imm s
  | .halt g => Sys2Proof.Machine.execHalt g s
  | .ibw g ib sa => Sys2Proof.Machine.execIbw g ib sa s
  | .vwr g v sa => Sys2Proof.Machine.execVwr g v sa s
  | .wid g sd n => Sys2Proof.Machine.execWid g sd n s
  | .rank g sd n => Sys2Proof.Machine.execRank g sd n s
  | .qpop g sd pd q eb => Sys2Proof.Machine.execQpop g sd pd q eb s
  | .csrr g sd csr => Sys2Proof.Machine.execCsrr g sd csr s
  | .csrw g csr sa => Sys2Proof.Machine.execCsrw g csr sa s
  | .sysrd g sd sa off => Sys2Proof.Machine.execSysrd g sd sa off s
  | .syswr g sa sb off => Sys2Proof.Machine.execSyswr g sa sb off s
  | .eret g => Sys2Proof.Machine.execEret g s
  | .tlbinv g k sa sb sc => Sys2Proof.Machine.execTlbinv g k sa sb sc s
  | .keyld g sa sb => Sys2Proof.Machine.execKeyld g sa sb s
  | .keyldErase g sa sb => Sys2Proof.Machine.execKeyldErase g sa sb s
  | .slotmap g pd sa sb => Sys2Proof.Machine.execSlotmap g pd sa sb s
  | .ctxsave g pd sa sb => Sys2Proof.Machine.execCtxsave g pd sa sb s
  | .ctxrest g pd sa sb => Sys2Proof.Machine.execCtxrest g pd sa sb s
  | .swpat g pd sa sb => Sys2Proof.Machine.execSwpat g pd sa sb s
  | .vote g sa sb => Sys2Proof.Machine.execVote g sa sb s
  | .swq g sa sb => Sys2Proof.Machine.execSwq g sa sb s
  | .lnkTrain g pd sa => Sys2Proof.Machine.execLnkTrain g pd sa s
  | .lnkPark g pd sa => Sys2Proof.Machine.execLnkPark g pd sa s
  | .lnkWake g pd sa => Sys2Proof.Machine.execLnkWake g pd sa s
  | .lnkRetrain g pd sa => Sys2Proof.Machine.execLnkRetrain g pd sa s
  | .lnkDown g pd sa => Sys2Proof.Machine.execLnkDown g pd sa s
  | .lnkEnable g pd sa => Sys2Proof.Machine.execLnkEnable g pd sa s
  | .evqPop g sd pd eb => Sys2Proof.Machine.execEvqPop g sd pd eb s
  | .olkAcq g sa => Sys2Proof.Machine.execOlkAcq g sa s
  | .olkRel g sa => Sys2Proof.Machine.execOlkRel g sa s
  | .tstate g sd sa clr => Sys2Proof.Machine.execTstate g sd sa clr s
  | .vadd c vd va vb => Sys2Proof.Machine.execVadd c vd va vb s
  | .vsub c vd va vb => Sys2Proof.Machine.execVsub c vd va vb s
  | .vmul c vd va vb => Sys2Proof.Machine.execVmul c vd va vb s
  | .vmulh c vd va vb => Sys2Proof.Machine.execVmulh c vd va vb s
  | .vfma c vd va vb vc => Sys2Proof.Machine.execVfma c vd va vb vc s
  | .vfms c vd va vb vc => Sys2Proof.Machine.execVfms c vd va vb vc s
  | .vabs c vd va => Sys2Proof.Machine.execVabs c vd va s
  | .vneg c vd va => Sys2Proof.Machine.execVneg c vd va s
  | .vmin c vd va vb => Sys2Proof.Machine.execVmin c vd va vb s
  | .vmax c vd va vb => Sys2Proof.Machine.execVmax c vd va vb s
  | .vaddsat c vd va vb => Sys2Proof.Machine.execVaddsat c vd va vb s
  | .vsubsat c vd va vb => Sys2Proof.Machine.execVsubsat c vd va vb s
  | .vand c vd va vb => Sys2Proof.Machine.execVand c vd va vb s
  | .vor c vd va vb => Sys2Proof.Machine.execVor c vd va vb s
  | .vxor c vd va vb => Sys2Proof.Machine.execVxor c vd va vb s
  | .vnot c vd va => Sys2Proof.Machine.execVnot c vd va s
  | .vshl c vd va vb => Sys2Proof.Machine.execVshl c vd va vb s
  | .vshr c vd va vb => Sys2Proof.Machine.execVshr c vd va vb s
  | .vsar c vd va vb => Sys2Proof.Machine.execVsar c vd va vb s
  | .vcmp c cond md va vb => Sys2Proof.Machine.execVcmp c cond md va vb s
  | .vsel c vd va vb mc => Sys2Proof.Machine.execVsel c vd va vb mc s
  | .vcvt c u vd va => Sys2Proof.Machine.execVcvt c u vd va s
  | .vwiden c u vd va => Sys2Proof.Machine.execVwiden c u vd va s
  | .vnarrow c u t vd va => Sys2Proof.Machine.execVnarrow c u t vd va s
  | .vmaxe c z x va => Sys2Proof.Machine.execVmaxe c z x va s
  | .vqcvt c k vd va vb ss => Sys2Proof.Machine.execVqcvt c k vd va vb ss s
  | .vdeq c k vd va vb ss => Sys2Proof.Machine.execVdeq c k vd va vb ss s
  | .vexp2 c va => Sys2Proof.Machine.execVexp2 c va s
  | .vlog2 c va => Sys2Proof.Machine.execVlog2 c va s
  | .vrcp c va => Sys2Proof.Machine.execVrcp c va s
  | .vrsq c va => Sys2Proof.Machine.execVrsq c va s
  | .vsqrt c va => Sys2Proof.Machine.execVsqrt c va s
  | .vtanh c va => Sys2Proof.Machine.execVtanh c va s
  | .vsincos c va => Sys2Proof.Machine.execVsincos c va s
  | .vcmul c cj vd va vb => Sys2Proof.Machine.execVcmul c cj vd va vb s
  | .vcmac c cj vd va vb => Sys2Proof.Machine.execVcmac c cj vd va vb s
  | .vred c op va => Sys2Proof.Machine.execVred c op va s
  | .vscan c op va => Sys2Proof.Machine.execVscan c op va s
  | .vperm c vd va vb => Sys2Proof.Machine.execVperm c vd va vb s
  | .vbcast c vd ss => Sys2Proof.Machine.execVbcast c vd ss s
  | .vbcastLane c vd va ss => Sys2Proof.Machine.execVbcastLane c vd va ss s
  | .vrot c vd va ss => Sys2Proof.Machine.execVrot c vd va ss s
  | .vtrn c vd va => Sys2Proof.Machine.execVtrn c vd va s
  | .vzip c vd va vb => Sys2Proof.Machine.execVzip c vd va vb s
  | .vunzip c vd va => Sys2Proof.Machine.execVunzip c vd va s
  | .vbin c k vd va vb b => Sys2Proof.Machine.execVbin c k vd va vb b s
  | .vpip c va => Sys2Proof.Machine.execVpip c va s
  | .vpipBy c va vb => Sys2Proof.Machine.execVpipBy c va vb s
  | .vpipRead c vd => Sys2Proof.Machine.execVpipRead c vd s
  | .vmov c vd va => Sys2Proof.Machine.execVmov c vd va s
  | .vmovPop c vd b => Sys2Proof.Machine.execVmovPop c vd b s
  | .vmovPush c b va => Sys2Proof.Machine.execVmovPush c b va s
  | .vmovi c vd imm => Sys2Proof.Machine.execVmovi c vd imm s
  | .vqpop c vd pd q5 eb => Sys2Proof.Machine.execVqpop c vd pd q5 eb s
  | .vlane c vd ss => Sys2Proof.Machine.execVlane c vd ss s
  | .vpmov c vd ma => Sys2Proof.Machine.execVpmov c vd ma s
  | .vpmovTomask c md va => Sys2Proof.Machine.execVpmovTomask c md va s
  | .mcfg g sk => Sys2Proof.Machine.execMcfg g sk s
  | .mpre g x n ra rb => Sys2Proof.Machine.execMpre g x n ra rb s
  | .mxs g w os => Sys2Proof.Machine.execMxs g w os s
  | .mmul g rm x y n od ra rb => Sys2Proof.Machine.execMmul g rm x y n od ra rb s
  | .mmulz g rm x y n od ra rb => Sys2Proof.Machine.execMmulz g rm x y n od ra rb s
  | .mmulp g rm x y peer prel pw n od ra rb => Sys2Proof.Machine.execMmulp g rm x y peer prel pw n od ra rb s
  | .mcmul g rm x y z n od ra rb => Sys2Proof.Machine.execMcmul g rm x y z n od ra rb s
  | .mclr g n od => Sys2Proof.Machine.execMclr g n od s
  | .mbias g od os => Sys2Proof.Machine.execMbias g od os s
  | .mdrain g rm k add os ra rb => Sys2Proof.Machine.execMdrain g rm k add os ra rb s
  | .mtr g od os => Sys2Proof.Machine.execMtr g od os s
  | .ldT g rm rg m dt dc h => Sys2Proof.Machine.execLdT g rm rg m dt dc h s
  | .ldV g rm rg m dt dc => Sys2Proof.Machine.execLdV g rm rg m dt dc s
  | .ldS g rm sd m d64 dc sx => Sys2Proof.Machine.execLdS g rm sd m d64 dc sx s
  | .ldG g rg m => Sys2Proof.Machine.execLdG g rg m s
  | .tch g le cb imm w => Sys2Proof.Machine.execTch g le cb imm w s
  | .ldSp g sz rg off => Sys2Proof.Machine.execLdSp g sz rg off s
  | .rpop g z rg rn => Sys2Proof.Machine.execRpop g z rg rn s
  | .rsel g z rg pd rn rn2 => Sys2Proof.Machine.execRsel g z rg pd rn rn2 s
  | .rpeek g z rg pd rn => Sys2Proof.Machine.execRpeek g z rg pd rn s
  | .stT g rm rg m dt dc h => Sys2Proof.Machine.execStT g rm rg m dt dc h s
  | .stV g rm rg m dt dc => Sys2Proof.Machine.execStV g rm rg m dt dc s
  | .stS g rm sk m d64 dc => Sys2Proof.Machine.execStS g rm sk m d64 dc s
  | .stSc g rg m => Sys2Proof.Machine.execStSc g rg m s
  | .amo g op nq sc sk m => Sys2Proof.Machine.execAmo g op nq sc sk m s
  | .stSp g sz rg off => Sys2Proof.Machine.execStSp g sz rg off s
  | .rpush g z rn rg => Sys2Proof.Machine.execRpush g z rn rg s
  | .cpIn c => Sys2Proof.Machine.execCpIn c s
  | .cpOut c => Sys2Proof.Machine.execCpOut c s
  | .cpPeer c mc => Sys2Proof.Machine.execCpPeer c mc s
  | .cpPf c => Sys2Proof.Machine.execCpPf c s
  | .send c => Sys2Proof.Machine.execSend c s
  | .recvArm c => Sys2Proof.Machine.execRecvArm c s
  | .exf c rn => Sys2Proof.Machine.execExf c rn s
  | .ofx c => Sys2Proof.Machine.execOfx c s
  | .ofm c x => Sys2Proof.Machine.execOfm c x s
  | .ofcCap c => Sys2Proof.Machine.execOfcCap c s
  | .ofcRd c => Sys2Proof.Machine.execOfcRd c s
  | .ofcTab c => Sys2Proof.Machine.execOfcTab c s
  | .ofr c add => Sys2Proof.Machine.execOfr c add s
  | .fence g mask => Sys2Proof.Machine.execFence g mask s
  | .sig a set => Sys2Proof.Machine.execSig a set s
  | .wait a c => Sys2Proof.Machine.execWait a c s
  | .bar a => Sys2Proof.Machine.execBar a s
  | .rwait g free k b => Sys2Proof.Machine.execRwait g free k b s
  | .yield g => Sys2Proof.Machine.execYield g s
  | .sleep g sa => Sys2Proof.Machine.execSleep g sa s
  | .pwrAcq g sa => Sys2Proof.Machine.execPwrAcq g sa s
  | .pwrRel g => Sys2Proof.Machine.execPwrRel g s
  | .realign g sa => Sys2Proof.Machine.execRealign g sa s
  | .bundleDispatch b => Sys2Proof.Machine.execBundleDispatch b s
  | .checkpointRelease who => Sys2Proof.Machine.execCheckpointRelease who s
  | .resultWrite who k => Sys2Proof.Machine.execResultWrite who k s
  | .latchWriteLands who k => Sys2Proof.Machine.execLatchWriteLands who k s
  | .divisionResultPush who k => Sys2Proof.Machine.execDivisionResultPush who k s
  | .vectorQueueEntryPush who q k => Sys2Proof.Machine.execVectorQueueEntryPush who q k s
  | .contextReady who => Sys2Proof.Machine.execContextReady who s
  | .operationFires who sl => Sys2Proof.Machine.execOperationFires who sl s
  | .broadcastDelivery row rank => Sys2Proof.Machine.execBroadcastDelivery row rank s
  | .touchWindowExpiry who n => Sys2Proof.Machine.execTouchWindowExpiry who n s
  | .preemption who => Sys2Proof.Machine.execPreemption who s
  | .contextResume who => Sys2Proof.Machine.execContextResume who s
  | .instanceStart who => Sys2Proof.Machine.execInstanceStart who s
  | .instanceEnd who => Sys2Proof.Machine.execInstanceEnd who s
  | .ringClearComplete core n => Sys2Proof.Machine.execRingClearComplete core n s
  | .orderingLockGrant who => Sys2Proof.Machine.execOrderingLockGrant who s
  | .matrixPathStart who k => Sys2Proof.Machine.execMatrixPathStart who k s
  | .planeLoadEnd who x => Sys2Proof.Machine.execPlaneLoadEnd who x s
  | .matrixResultWrite who k => Sys2Proof.Machine.execMatrixResultWrite who k s
  | .drainPush who k => Sys2Proof.Machine.execDrainPush who k s
  | .peerReadEnd who k => Sys2Proof.Machine.execPeerReadEnd who k s
  | .engineCommandComplete id => Sys2Proof.Machine.execEngineCommandComplete id s
  | .exfBlockLands id => Sys2Proof.Machine.execExfBlockLands id s
  | .exfDeadline id => Sys2Proof.Machine.execExfDeadline id s
  | .lateBlockDiscard id => Sys2Proof.Machine.execLateBlockDiscard id s
  | .waitSatisfied who => Sys2Proof.Machine.execWaitSatisfied who s
  | .barrierPass who => Sys2Proof.Machine.execBarrierPass who s
  | .sleepExpiry who => Sys2Proof.Machine.execSleepExpiry who s
  | .powerGrant die => Sys2Proof.Machine.execPowerGrant die s
  | .realignDone who => Sys2Proof.Machine.execRealignDone who s
  | .realignTimeout who => Sys2Proof.Machine.execRealignTimeout who s
  | .opticalPassStart die => Sys2Proof.Machine.execOpticalPassStart die s
  | .opticalWindowWrite die => Sys2Proof.Machine.execOpticalWindowWrite die s
  | .maskLoadComplete die => Sys2Proof.Machine.execMaskLoadComplete die s
  | .captureComplete die ok => Sys2Proof.Machine.execCaptureComplete die ok s
  | .ringcfgWrite core n v => Sys2Proof.Machine.execRingcfgWrite core n v s
  | .ringstWrite core n v => Sys2Proof.Machine.execRingstWrite core n v s
  | .ctxCfgWrite who v => Sys2Proof.Machine.execCtxCfgWrite who v s
  | .ctxCcfgWrite core v => Sys2Proof.Machine.execCtxCcfgWrite core v s
  | .pipclr core v => Sys2Proof.Machine.execPipclr core v s
  | .pipWrite core j v => Sys2Proof.Machine.execPipWrite core j v s
  | .tchOpenWrite who v => Sys2Proof.Machine.execTchOpenWrite who v s
  | .prtOwnWrite part v => Sys2Proof.Machine.execPrtOwnWrite part v s
  | .prtCtlWrite part v => Sys2Proof.Machine.execPrtCtlWrite part v s
  | .drawerSlotWrite d t v => Sys2Proof.Machine.execDrawerSlotWrite d t v s
  | .lnkRingWrite n v => Sys2Proof.Machine.execLnkRingWrite n v s
  | .heaterApply n => Sys2Proof.Machine.execHeaterApply n s
  | .monitorUpdate n mhi mlo => Sys2Proof.Machine.execMonitorUpdate n mhi mlo s
  | .modulatorChangeover p j => Sys2Proof.Machine.execModulatorChangeover p j s
  | .bootCtlWrite v => Sys2Proof.Machine.execBootCtlWrite v s
  | .sysregWrite srn v => Sys2Proof.Machine.execSysregWrite srn v s
  | .taskRerun die slot => Sys2Proof.Machine.execTaskRerun die slot s
  | .taskAbandon die slot => Sys2Proof.Machine.execTaskAbandon die slot s
  | .commandDoorbell q pi => Sys2Proof.Machine.execCommandDoorbell q pi s
  | .completionDoorbell q cci => Sys2Proof.Machine.execCompletionDoorbell q cci s
  | .hostWrite port rod addr bytes => Sys2Proof.Machine.execHostWrite port rod addr bytes s
  | .sessionSetup port receiverCredit reliable => Sys2Proof.Machine.execSessionSetup port receiverCredit reliable s
  | .launch q => Sys2Proof.Machine.execLaunch q s
  | .loadimg q => Sys2Proof.Machine.execLoadimg q s
  | .unload q => Sys2Proof.Machine.execUnload q s
  | .unloadEffect img => Sys2Proof.Machine.execUnloadEffect img s
  | .openq q => Sys2Proof.Machine.execOpenq q s
  | .closeq q => Sys2Proof.Machine.execCloseq q s
  | .resync q => Sys2Proof.Machine.execResync q s
  | .launchFetch die q => Sys2Proof.Machine.execLaunchFetch die q s
  | .spliceHoldExpiry die => Sys2Proof.Machine.execSpliceHoldExpiry die s
  | .shareDone die slot => Sys2Proof.Machine.execShareDone die slot s
  | .taskCompletion slot => Sys2Proof.Machine.execTaskCompletion slot s
  | .quantumOverrun who => Sys2Proof.Machine.execQuantumOverrun who s
  | .speculativePreload core => Sys2Proof.Machine.execSpeculativePreload core s
  | .drawerSlot d => Sys2Proof.Machine.execDrawerSlot d s
  | .drawerReadDataPlaced id => Sys2Proof.Machine.execDrawerReadDataPlaced id s
  | .drawerWritePerforms id => Sys2Proof.Machine.execDrawerWritePerforms id s
  | .stallTimeout id => Sys2Proof.Machine.execStallTimeout id s
  | .lockAchieved p pherr => Sys2Proof.Machine.execLockAchieved p pherr s
  | .trainTimeout p => Sys2Proof.Machine.execTrainTimeout p s
  | .parkIdle p => Sys2Proof.Machine.execParkIdle p s
  | .wakeThreshold p => Sys2Proof.Machine.execWakeThreshold p s
  | .wakeComplete p => Sys2Proof.Machine.execWakeComplete p s
  | .retrainTrigger p => Sys2Proof.Machine.execRetrainTrigger p s
  | .retrainLock p => Sys2Proof.Machine.execRetrainLock p s
  | .retrainTimeout p => Sys2Proof.Machine.execRetrainTimeout p s
  | .rxLightLoss p => Sys2Proof.Machine.execRxLightLoss p s
  | .txLightLoss p => Sys2Proof.Machine.execTxLightLoss p s
  | .switchCommandPop => Sys2Proof.Machine.execSwitchCommandPop s
  | .rotationStart => Sys2Proof.Machine.execRotationStart s
  | .circuitSlotGuard => Sys2Proof.Machine.execCircuitSlotGuard s
  | .circuitSlotConnect => Sys2Proof.Machine.execCircuitSlotConnect s
  | .sendTimeout id => Sys2Proof.Machine.execSendTimeout id s
  | .flitArrival port pair rq seq flit data crcOk slack arr => Sys2Proof.Machine.execFlitArrival port pair rq seq flit data crcOk slack arr s
  | .completionNotice port rq seq flits => Sys2Proof.Machine.execCompletionNotice port rq seq flits s
  | .sendAcknowledgement id => Sys2Proof.Machine.execSendAcknowledgement id s
  | .controlFlit port seq crcOk resend => Sys2Proof.Machine.execControlFlit port seq crcOk resend s
  | .controlTimeout p => Sys2Proof.Machine.execControlTimeout p s
  | .railVminCrossing die => Sys2Proof.Machine.execRailVminCrossing die s
  | .railReachesTarget die => Sys2Proof.Machine.execRailReachesTarget die s
  | .rowsFitted die => Sys2Proof.Machine.execRowsFitted die s
  | .railHoldExpiry die => Sys2Proof.Machine.execRailHoldExpiry die s
  | .frameBoundary die => Sys2Proof.Machine.execFrameBoundary die s
  | .thermalAlert die n temp => Sys2Proof.Machine.execThermalAlert die n temp s
  | .thermalTrip die n temp => Sys2Proof.Machine.execThermalTrip die n temp s
  | .telemetryPoll die pavg vavg => Sys2Proof.Machine.execTelemetryPoll die pavg vavg s
  | .watchdogExpiry who => Sys2Proof.Machine.execWatchdogExpiry who s
  | .coldReset runs flash => Sys2Proof.Machine.execColdReset runs flash s
  | .hostRead port addr n => Sys2Proof.Machine.execHostRead port addr n s
  | .rotationEnd => Sys2Proof.Machine.execRotationEnd s
  | .sensorBelowThreshold die n temp => Sys2Proof.Machine.execSensorBelowThreshold die n temp s
  | .outboundPacketToken port => Sys2Proof.Machine.execOutboundPacketToken port s
  | .powerLoss => Sys2Proof.Machine.execPowerLoss s

end Sys2Proof.Machine
end

