-- ==== Sys2Proof/Machine/Step.lean ====
section
/-! DEFINITION. The step: the next move of `sched`, or one master cycle in the default order when it names nothing (log 3). -/

namespace Sys2Proof.Machine

def step (s : State) : Host.Outcome State Fault Refusal :=
  match s.sched with
  | [] => s.cycle exec
  | m :: r => { s with sched := r }.move m exec

/-! ## Placing one instruction (log 4) -/

/-- The instance that stands on context 0 when the state has none there. -/
def plainInst (pc : Word) : Inst :=
  { die := 0, slot := 0, taskno := 0, wid := 0, widths := [], counts := [], part := 0, img := 0, ksym := 0, first := pc, nb := 1 }
/-- Context 0 at a bundle boundary with nothing queued, in flight, blocked or held. -/
def Ctx.atRest (c : Ctx) : Ctx :=
  { c with queues := [], fly := [], mops := [], rq := [], foots := [], blk := none, wait := none, split := none, ckDue := false,
           soft := none, halting := false, susp := false, woke := false, inst := some (c.inst.getD (plainInst c.ctl.pc)) }
/-- Context 0 and its core can take the instruction at once: no command, drawer access or unit of the context's is busy. -/
def State.atRest (s : State) : State :=
  let s := (s.modCtx 0 Ctx.atRest).modCore 0 fun k => { k with prim := some 0, tick := [], issued := [], vbusy := [], mbusy := [] }
  { s with cmds := s.cmds.filter fun r => r.who != 0, fab := { s.fab with reqs := s.fab.reqs.filter fun r => r.who != 0 } }.modDie 0
    fun d => { d with stage := { d.stage with queue := d.stage.queue.filter fun o => o.who != 0 } }
/-- An operation at the head of a slot's queue, which issues next. -/
def State.queueUp (s : State) (sl : Slot) (w : Nat) : State :=
  let s := s.atRest.modCtx 0 fun c => c.setQ sl [c.entOf (BitVec.ofNat 80 w) false c.ctl.sridx]
  { s with sched := [.issue 0 sl] }
/-- Near offset of the page that holds a placed bundle, away from the task records. -/
def codePage (s : State) : Nat := if s.svc.winOff < 2 ^ 32 then 2 ^ 33 else 0
/-- A bundle at the program counter of context 0, in a page that the core has translated, which the context dispatches next. -/
def State.placeBundle (s : State) (w : Nat) : State :=
  let s := s.atRest
  let pc := (s.ctx 0).ctl.pc
  let s := s.modCtx 0 fun c => { c with priv := 0, inst := c.inst.map fun i => { i with spl := none, bcast := false, first := pc, nb := 1 } }
  let va := pc.toNat * 64
  let p : Page := { base := va / 65536 * 65536, size := 65536, tier := 0, off := codePage s, w := false, fmt := 0, geo := 0, key := 0 }
  let s := { s with tlb := (0, s.partOf 0, p) :: s.tlb, svc := { s.svc with keys := (0, 0, s.partOf 0) :: s.svc.keys }, sched := [.dispatch 0] }
  s.writeUnit 1 (p.flat va / 64) w (ones 512)
/-- The state with one instruction where the next step takes it: slots of 32, 48, 64 and 80 bits are Y, E, S and V. -/
def State.withFetchWord (s : State) (nbits w : Nat) : State :=
  match nbits with
  | 32 => s.queueUp .y w
  | 48 => s.queueUp .e w
  | 64 => s.queueUp .s w
  | 80 => s.queueUp .v0 w
  | _ => s.placeBundle w

end Sys2Proof.Machine
end

