-- ==== Sys2Proof/Safety.lean ====
section
/-! DEFINITION. The terms in which claims are stated: the invariant of every step, what an operation leaves unchanged, and
the results it puts in flight. -/

namespace Sys2Proof.Machine

/-- Memory is in its canonical form. -/
def State.Inv (s : State) : Prop := s.mem.wf = true

/-- Nothing outside context `w` differs, but for the identifiers given. -/
structure State.OnlyCtx (s t : State) (w : Nat) : Prop where
  rest   : t = { s with ctxs := t.ctxs, ids := t.ids }
  others : ∀ v, v ≠ w → t.ctx v = s.ctx v

/-- Nothing but context `w` becomes other than it was: it becomes `c`. -/
def State.Becomes (s t : State) (w : Nat) (c : Ctx) : Prop := s.OnlyCtx t w ∧ t.ctx w = c

/-- A result of the operation that issues: it lands `left` ticks later in `dst` (R31). -/
def State.result (s : State) (id left : Nat) (dst : Dest) (val : Nat) (bm : Nat := 0) (size : Nat := 0) : Fly :=
  { id := id, left := left, dst := dst, val := val, bm := bm, size := size, seq := s.cur.ent.seq, grp := s.cur.ent.grp,
    pc := s.cur.ent.pc, slot := s.cur.slot }

/-- The mark of two writers after results `fs`: set when another slot of the group writes one of the places too (R29). -/
def State.marks (s : State) (fs : List Fly) : Bool :=
  s.me.flt.wawp || fs.any (fun f => s.me.twoWriters s.cur.slot.num s.cur.ent.grp f.dst f.size)

/-- The operation has issued with results `fs` in flight and control state `k`; nothing else differs. -/
def State.Issued (s t : State) (k : Ctl) (fs : List Fly) : Prop :=
  s.Becomes t s.cur.who { s.me with ctl := k, fly := s.me.fly ++ fs, flt := { s.me.flt with wawp := s.marks fs } }

/-- The operation has issued with one scalar result. -/
def State.Yields (s t : State) (left : Nat) (sd : BitVec 6) (v : Word) : Prop :=
  s.Issued t s.me.ctl [s.result s.ids left (.scalar sd.toNat) v.toNat]

/-- The operation has issued with one predicate result. -/
def State.YieldsP (s t : State) (left : Nat) (pd : BitVec 4) (b : Bool) : Prop :=
  s.Issued t s.me.ctl [s.result s.ids left (.pred pd.toNat) b.toNat]

/-- The rational number that a finite value stands for. -/
def FVal.rat : FVal → ℚ
  | .fin n m e => (if n then -1 else 1) * m * 2 ^ e
  | _ => 0
/-- One value that is not a NaN lies below another; an infinity lies beyond every number. -/
def FVal.Below : FVal → FVal → Prop
  | .inf n, b => n = true ∧ b ≠ .inf true
  | a, .inf n => n = false ∧ a ≠ .inf false
  | a, b => a.rat < b.rat
/-- Two values that are not NaNs are the same number or the same infinity: -0 is +0. -/
def FVal.Same : FVal → FVal → Prop
  | .inf n, b => b = .inf n
  | a, .inf n => a = .inf n
  | a, b => a.rat = b.rat

/-- What an access to entry `le` does before any element: the stop of the page that gives its element size, or `k` of that size. -/
def State.Sized (s : State) (i : Instr) (le : Nat) (write : Bool) (shape : Nat → List (List Int)) (k : BitVec 32 → Prop) : Prop :=
  match s.esize s.cur.who le write shape with
  | .error (.trap x) => exec i s = .next (s.trap x)
  | .error (.gone a) => exec i s = .fault (.noSuchAddress a)
  | .ok d => k d

/-- What a load does with its access: its trap or its missing frame; a result that waits for the drawer units it asked for, with the
elements by which its value and flags will be known; the data-error trap of a bad unit; or a result in flight. The value and the
flags, of the result or of the memory as it stands, satisfy `p`. Units that no key has written are under the load's from then on (log 7). -/
def State.Loads (s : State) (i : Instr) (r : Except Stop Acc) (left : Nat) (dst : Dest) (bm size : Nat)
    (p : Acc → Nat → BitVec 7 → Prop) : Prop :=
  match r with
  | .error (.trap x) => exec i s = .next (s.trap x)
  | .error (.gone a) => exec i s = .fault (.noSuchAddress a)
  | .ok a =>
    let us := unitsOf (a.elems ++ a.scales.filterMap id)
    if us.any fun u => (drawerOf (u * 64)).isSome then
      ∃ t f l, exec i s = .next t ∧
        t.ctx s.cur.who = { s.me with fly := s.me.fly ++ [f], flt := { s.me.flt with wawp := s.marks [f] } } ∧
        (∀ w, w ≠ s.cur.who → t.ctx w = s.ctx w) ∧ t.mem = s.mem ∧ f.dst = dst ∧ f.bm = bm ∧ f.size = size ∧
        (∀ u ∈ us, (drawerOf (u * 64)).isSome = true → ∃ q ∈ t.fab.reqs, q.id ∈ f.gate ∧ q.unit = u ∧ q.kind = 0 ∧ q.done = false) ∧
        f.late = some l ∧ p a (s.lateValue s.cur.who l).1 (s.lateValue s.cur.who l).2
    else
      match s.badUnit (a.elems ++ a.scales.filterMap id) with
      | some x => exec i s = .next (s.trap x)
      | none => ∃ t v f, exec i s = .next t ∧ (s.claim (a.elems ++ a.scales.filterMap id)).Issued t (s.me.ctl.flag f) [s.result s.ids left dst v bm size] ∧ p a v f

/-- What a store does with its access: its trap or its missing frame, the layout-bounds trap of a conversion onto a page with
block scales, the trap of a full withholding buffer, or `n` elements withheld in order, element `k` with the value `val a k`
and the flags `fl a k`. A firmware store into a completion ring sends a packet: it stays in its queue while its port has no
token, and spends it. Memory is as it was until the release. -/
def State.Stores (s : State) (i : Instr) (m : MemArg) (conv : Bool) (r : Except Stop Acc) (val : Acc → Nat → Nat)
    (fl : Acc → Nat → BitVec 7) : Prop :=
  let l := s.lay s.cur.who m.le.toNat
  match r with
  | .error (.trap x) => exec i s = .next (s.trap x)
  | .error (.gone a) => exec i s = .fault (.noSuchAddress a)
  | .ok a =>
    let port := s.packetPort s.cur.who a.elems
    if conv && l.isMem && a.geo != 0 then exec i s = .next (s.trap (tBounds m.le.toNat))
    else if port.any fun p => aget 0 s.svc.tokens p == 0 then exec i s = .next s.unissue
    else
      let u := (port.map s.spendToken).getD s
      let es := ((List.range a.elems.length).map fun k =>
        storeEnts (s.partOf s.cur.who) (memCls m l) (a.elems.getD k ⟨0, 0, 0⟩) (val a k)).flatten
      let held := es.foldl (fun h e => holdEntry e h) s.me.held
      let flags := (List.range a.elems.length).foldl (fun f k => f ||| fl a k) (0 : BitVec 7)
      if 128 < held.length then exec i s = .next (s.trap ⟨21, 0, 0⟩)
      else ∃ t, exec i s = .next t ∧ u.Becomes t s.cur.who { s.me with held := held, ctl := s.me.ctl.flag flags }

/-- Exactly the flags that the `n` results `f i` with `p i` set between them. -/
def flagsOf (n : Nat) (p : Nat → Bool) (f : Nat → Nat × BitVec 7) (fl : BitVec 7) : Prop :=
  ∀ k, fl.getLsbD k = true ↔ ∃ i, i < n ∧ p i = true ∧ (f i).2.getLsbD k = true

/-- A vector operation has issued under a true guard: its unit is taken for `occ` ticks, and one result is in flight that
writes the lanes that are on, and no other bit. Lane `i` of the `n` lanes of width `w` receives the code of `f i`; the flags of
the on lanes are set (R138, R140, R144). -/
def State.Lanes (s t : State) (c : VC) (lat occ : Nat) (vw : View) (vd : BitVec 11) (w n : Nat) (f : Nat → Nat × BitVec 7) : Prop :=
  ∃ v bm fl, (s.occupy occ).Issued t (s.me.ctl.flag fl) [s.result s.ids lat (.win (s.cur.ent.off vw vd)) v bm vw.size] ∧
    bm < 2 ^ (w * n) ∧ flagsOf n (s.on c) f fl ∧
    ∀ i, i < n → elemAt bm w i = (if s.on c i then ones w else 0) ∧ (s.on c i = true → elemAt v w i = (f i).1 % 2 ^ w)
/-- What a vector operation on lanes does: under a false guard it takes its unit and nothing else. -/
def State.LaneOp (s : State) (i : Instr) (c : VC) (lat occ : Nat) (vw : View) (vd : BitVec 11) (w n : Nat)
    (f : Nat → Nat × BitVec 7) : Prop :=
  (s.guard c.g = false → exec i s = .next (s.occupy occ)) ∧
  (s.guard c.g = true → ∃ t, exec i s = .next t ∧ s.Lanes t c lat occ vw vd w n f)
/-- What a vector operation on a mask does: bit `k` of an on lane receives `f k`, the bits of off lanes stay, and the bits from
`n` up are written as zero (R46, R149). -/
def State.MaskOp (s : State) (i : Instr) (c : VC) (lat occ : Nat) (md : BitVec 3) (n : Nat) (f : Nat → Bool) : Prop :=
  (s.guard c.g = false → exec i s = .next (s.occupy occ)) ∧
  (s.guard c.g = true → ∃ t v bm, exec i s = .next t ∧
    (s.occupy occ).Issued t s.me.ctl [s.result s.ids lat (.mask md.toNat) v bm] ∧
    ∀ k, k < 1024 → bm.testBit k = (decide (n ≤ k) || s.on c k) ∧ (n ≤ k → v.testBit k = false) ∧
      (k < n → s.on c k = true → v.testBit k = f k))
/-- What a vector operation with `m` queue entries does: with too little room in its slot's queue it stays in its slot queue;
else its entries stand behind the others, to arrive after `lat` ticks, and `p` says what they and the flags are (R49, R159). -/
def State.EntryOp (s : State) (i : Instr) (lat occ m : Nat) (p : List Nat → BitVec 7 → Prop) : Prop :=
  let q := if s.cur.slot = .v1 then 5 else 4
  (16 < (s.me.rqGet q).length + m → exec i s = .next s.unissue) ∧
  ((s.me.rqGet q).length + m ≤ 16 → ∃ (t : State) (data : List Nat) (fl : BitVec 7), exec i s = .next t ∧ data.length = m ∧ p data fl ∧
    (s.occupy occ).Becomes t s.cur.who { s.me with ctl := s.me.ctl.flag fl, rq := (t.ctx s.cur.who).rq } ∧
    (t.ctx s.cur.who).rqGet q = s.me.rqGet q ++ (List.range m).map (fun k =>
      { id := s.ids + k, left := lat, data := data.getD k 0, seq := s.cur.ent.seq, fresh := true }) ∧
    ∀ r, r ≠ q → (t.ctx s.cur.who).rqGet r = s.me.rqGet r)

/-- The exact sum of a group's products under NBV 1 (R83): a NaN for a NaN product or infinities of both signs, an infinity where
one sign of it stands alone, and else the sum of the rational products, whose zero is -0 for products that are all negative and
for products that cancel where `down`, and +0 otherwise. -/
def GroupSum (down : Bool) (ps : List (FVal × FVal)) (x : FVal) : Prop :=
  let l := ps.map fun p => (p.1.mul p.2).1
  let both := FVal.inf false ∈ l ∧ FVal.inf true ∈ l
  ((∃ y ∈ l, y.isNaN = true) ∨ both → x.isNaN = true) ∧
  ((∀ y ∈ l, y.isNaN = false) → ¬ both →
    (∀ n, FVal.inf n ∈ l → x = .inf n) ∧
    ((∀ n, FVal.inf n ∉ l) → ∃ n m e, x = .fin n m e ∧ x.rat = (ps.map fun p => p.1.rat * p.2.rat).sum ∧
      (m = 0 → (n = true ↔ (∀ y ∈ l, y.sign = true) ∨ (down = true ∧ ∃ y ∈ l, y.rat ≠ 0)))))
/-- The running sum of a group under NBV 0 (R86): rounded toward zero to fp32 after each product. -/
def RunningSum (ps : List (FVal × FVal)) (x : FVal) : Prop :=
  let once (y : FVal) : FVal := fmtF32.decode true (fmtF32.round true 1 0 y).1
  let prod (k : Nat) : FVal := let p := ps.getD k (.zero false, .zero false); (p.1.mul p.2).1
  ∃ r : Nat → FVal, r 0 = once (prod 0) ∧ (∀ k, k + 1 < ps.length → r (k + 1) = once ((r k).add false (prod (k + 1))).1) ∧
    x = r (ps.length - 1)
/-- The accumulator word `fin` that 256 products make of `start`, group by group (R83 to R86, R185): in s32 each exact group sum is
added and held to the range; in fp32 each group sum, times its edge scales, is rounded, then added and rounded again. `p` is the
element's position. -/
def Accumulates (nbv acc32 : Bool) (rm : Nat) (rs : Nat → Nat) (p : Nat) (edge : Option (FVal × FVal)) (ps : List (FVal × FVal))
    (start fin : Nat) : Prop :=
  let n := if nbv then 16 else 8
  let grp (g : Nat) : List (FVal × FVal) := (ps.drop (n * g)).take n
  let f32 (k : Nat) (x : FVal) : Nat := (fmtF32.round true rm (rs (p + 2 ^ 16 * k)) x).1
  let scaled (x : FVal) : FVal := match edge with | none => x | some (a, b) => ((x.mul a).1.mul b).1
  ∃ a : Nat → Nat, a 0 = start ∧ a (256 / n) = fin ∧ ∀ g, g < 256 / n →
    (acc32 = true → (∀ q ∈ grp g, (∃ i, q.1 = FVal.ofInt i) ∧ ∃ j, q.2 = FVal.ofInt j) →
      (((BitVec.ofNat 32 (a (g + 1))).toInt : Int) : ℚ) =
        max (-(2 ^ 31)) (min (2 ^ 31 - 1) (((BitVec.ofNat 32 (a g)).toInt : ℚ) + ((grp g).map fun q => q.1.rat * q.2.rat).sum))) ∧
    (acc32 = false → ∃ x, (if nbv then GroupSum (rm == 2) (grp g) x else RunningSum (grp g) x) ∧
      a (g + 1) = f32 (2 * g + 1) ((fmtF32.decode true (a g)).add (rm == 2) (fmtF32.decode true (f32 (2 * g) (scaled x)))).1)

/-- Operations of the scalar slot under guard `g` that are no branches. -/
def ScalarOp (g : Guard) : Instr → Prop
  | .add h .. | .sub h .. | .mul h .. | .mulh h .. | .mulhn h .. | .div h .. | .divn h .. | .rem h .. | .remn h .. | .and h ..
  | .or h .. | .xor h .. | .andn h .. | .shl h .. | .shr h .. | .sar h .. | .min h .. | .max h .. | .minn h .. | .maxn h ..
  | .clz h .. | .popc h .. | .sext h .. | .zext h .. | .mov h .. | .sel h .. | .cmp h .. | .pand h .. | .por h .. | .pxor h ..
  | .pnot h .. | .addi h .. | .li h .. | .lih h .. | .fadd h .. | .fsub h .. | .fmul h .. | .ffma h .. | .fcmp h .. | .fcvt h ..
  | .brk h .. | .trap h .. | .halt h | .ibw h .. | .vwr h .. | .wid h .. | .rank h .. | .qpop h .. | .csrr h .. | .csrw h ..
  | .sysrd h .. | .syswr h .. | .eret h | .tlbinv h .. | .keyld h .. | .keyldErase h .. | .slotmap h .. | .ctxsave h ..
  | .ctxrest h .. | .swpat h .. | .vote h .. | .swq h .. | .lnkTrain h .. | .lnkPark h .. | .lnkWake h .. | .lnkRetrain h ..
  | .lnkDown h .. | .lnkEnable h .. | .evqPop h .. | .olkAcq h .. | .olkRel h .. | .tstate h .. => h = g
  | _ => False

end Sys2Proof.Machine
end

