-- ==== Sys2Proof/Certificates/Slice0/Obligations.lean ====
section
/-! DEFINITION. The statements for the provers. -/

open Sys2Proof Sys2Proof.Machine


/-- Under a true guard each of the nine operations answers a next state in which one result is in flight to s(SD), one
tick later (three for the multiplications), with the value of the arithmetic on integers: sums, differences and
products modulo 2^64, the high half of the signed and of the unsigned product, and the signed and unsigned minimum and
maximum. Nothing else of the machine differs, except the identifiers given and the two-writer mark of the fault
record, which R29 sets. (R31, R115, R118) -/
def Obligations.ScalarSumsProductsExtremes : Prop :=
  ∀ (g : Guard) (sd sa sb : BitVec 6) (s : State), s.guard g = true →
    let a := s.sreg sa
    let b := s.sreg sb
    (∃ t v, exec (.add g sd sa sb) s = .next t ∧ s.Yields t 1 sd v ∧ v.toNat = (a.toNat + b.toNat) % 2 ^ 64) ∧
    (∃ t v, exec (.sub g sd sa sb) s = .next t ∧ s.Yields t 1 sd v ∧ (v.toNat : Int) = ((a.toNat : Int) - b.toNat) % 2 ^ 64) ∧
    (∃ t v, exec (.mul g sd sa sb) s = .next t ∧ s.Yields t 3 sd v ∧ v.toNat = a.toNat * b.toNat % 2 ^ 64) ∧
    (∃ t v, exec (.mulh g sd sa sb) s = .next t ∧ s.Yields t 3 sd v ∧ v.toInt = a.toInt * b.toInt / 2 ^ 64) ∧
    (∃ t v, exec (.mulhn g sd sa sb) s = .next t ∧ s.Yields t 3 sd v ∧ v.toNat = a.toNat * b.toNat / 2 ^ 64) ∧
    (∃ t v, exec (.min g sd sa sb) s = .next t ∧ s.Yields t 1 sd v ∧ v.toInt = Min.min a.toInt b.toInt) ∧
    (∃ t v, exec (.max g sd sa sb) s = .next t ∧ s.Yields t 1 sd v ∧ v.toInt = Max.max a.toInt b.toInt) ∧
    (∃ t v, exec (.minn g sd sa sb) s = .next t ∧ s.Yields t 1 sd v ∧ v.toNat = Min.min a.toNat b.toNat) ∧
    (∃ t v, exec (.maxn g sd sa sb) s = .next t ∧ s.Yields t 1 sd v ∧ v.toNat = Max.max a.toNat b.toNat)

/-- Under a true guard each of the seven operations answers a next state with one result in flight to s(SD) one tick
later. Bit k of the logic operations is the operation on bits k. A left shift is the product by 2^b modulo 2^64, a
logical right shift the quotient by 2^b and an arithmetic one the quotient of the signed value rounded down, where b
is the whole 64-bit amount. Nothing else differs, except the identifiers given and R29's two-writer mark. (R82, R118) -/
def Obligations.ScalarLogicAndShifts : Prop :=
  ∀ (g : Guard) (sd sa sb : BitVec 6) (s : State), s.guard g = true →
    let a := s.sreg sa
    let b := s.sreg sb
    (∃ t v, exec (.and g sd sa sb) s = .next t ∧ s.Yields t 1 sd v ∧ ∀ k, v.getLsbD k = (a.getLsbD k && b.getLsbD k)) ∧
    (∃ t v, exec (.or g sd sa sb) s = .next t ∧ s.Yields t 1 sd v ∧ ∀ k, v.getLsbD k = (a.getLsbD k || b.getLsbD k)) ∧
    (∃ t v, exec (.xor g sd sa sb) s = .next t ∧ s.Yields t 1 sd v ∧ ∀ k, v.getLsbD k = (a.getLsbD k).xor (b.getLsbD k)) ∧
    (∃ t v, exec (.andn g sd sa sb) s = .next t ∧ s.Yields t 1 sd v ∧ ∀ k, v.getLsbD k = (a.getLsbD k && !b.getLsbD k)) ∧
    (∃ t v, exec (.shl g sd sa sb) s = .next t ∧ s.Yields t 1 sd v ∧ v.toNat = a.toNat * 2 ^ b.toNat % 2 ^ 64) ∧
    (∃ t v, exec (.shr g sd sa sb) s = .next t ∧ s.Yields t 1 sd v ∧ v.toNat = a.toNat / 2 ^ b.toNat) ∧
    (∃ t v, exec (.sar g sd sa sb) s = .next t ∧ s.Yields t 1 sd v ∧ v.toInt = a.toInt / 2 ^ b.toNat)

/-- Under a true guard each of the nine operations answers a next state with one result in flight to s(SD) one tick later:
the number of leading zero bits (64 for zero), the number of set bits, the low W bits with their sign or with zeros
for W from 1 to 64, the source, the source that the predicate selects, the sum with the signed immediate modulo 2^64,
the signed immediate, and the immediate above the low 40 bits of the source. Nothing else differs, except the
identifiers given and R29's two-writer mark. (R118, R120, R122) -/
def Obligations.ScalarMovesCountsImmediates : Prop :=
  ∀ (g : Guard) (sd sa sb : BitVec 6) (w : BitVec 8) (pc : BitVec 4) (imm : BitVec 40) (hi : BitVec 24) (s : State),
    s.guard g = true → 1 ≤ w.toNat → w.toNat ≤ 64 →
    let a := s.sreg sa
    (∃ t v, exec (.clz g sd sa) s = .next t ∧ s.Yields t 1 sd v ∧
      (a = 0 → v = 64) ∧ (a ≠ 0 → v.toNat < 64 ∧ 2 ^ (63 - v.toNat) ≤ a.toNat ∧ a.toNat < 2 ^ (64 - v.toNat))) ∧
    (∃ t v, exec (.popc g sd sa) s = .next t ∧ s.Yields t 1 sd v ∧
      v.toNat = ((Finset.range 64).filter fun k => a.getLsbD k = true).card) ∧
    (∃ t v, exec (.sext g sd sa w) s = .next t ∧ s.Yields t 1 sd v ∧ v.toInt = (a.toNat : Int).bmod (2 ^ w.toNat)) ∧
    (∃ t v, exec (.zext g sd sa w) s = .next t ∧ s.Yields t 1 sd v ∧ v.toNat = a.toNat % 2 ^ w.toNat) ∧
    (∃ t, exec (.mov g sd sa) s = .next t ∧ s.Yields t 1 sd a) ∧
    (∃ t, exec (.sel g sd pc sa sb) s = .next t ∧ s.Yields t 1 sd (if s.me.ctl.pget pc.toNat then a else s.sreg sb)) ∧
    (∃ t v, exec (.addi g sd sa imm) s = .next t ∧ s.Yields t 1 sd v ∧ (v.toNat : Int) = (a.toInt + imm.toInt) % 2 ^ 64) ∧
    (∃ t v, exec (.li g sd imm) s = .next t ∧ s.Yields t 1 sd v ∧ v.toInt = imm.toInt) ∧
    (∃ t v, exec (.lih g sd sa hi) s = .next t ∧ s.Yields t 1 sd v ∧ v.toNat = hi.toNat * 2 ^ 40 + a.toNat % 2 ^ 40)

/-- Under a true guard, with fewer than 16 entries and producers in q1, each division answers a next state whose q1 has
one more entry at its end, which arrives 66 ticks later with the quotient rounded toward zero or the remainder with
the sign of the dividend, signed or unsigned; a zero divisor gives a quotient of all ones and the dividend as
remainder. The other result queues, the registers and everything outside the context stay as they were. (R49, R119) -/
def Obligations.DivisionsQueueTheirResult : Prop :=
  ∀ (g : Guard) (sa sb : BitVec 6) (s : State), s.guard g = true → (s.me.rqGet 1).length < 16 →
    let a := s.sreg sa
    let b := s.sreg sb
    let pushes (i : Instr) (v : Word) : Prop := ∃ t, exec i s = .next t ∧
      s.Becomes t s.cur.who { s.me with rq := (t.ctx s.cur.who).rq } ∧
      (t.ctx s.cur.who).rqGet 1 = s.me.rqGet 1 ++ [{ id := s.ids, left := 66, data := v.toNat, seq := s.cur.ent.seq, fresh := true }] ∧
      ∀ q, q ≠ 1 → (t.ctx s.cur.who).rqGet q = s.me.rqGet q
    (∃ v, pushes (.div g sa sb) v ∧ (b = 0 → v.toNat = 2 ^ 64 - 1) ∧ (b ≠ 0 → v = BitVec.ofInt 64 (a.toInt.tdiv b.toInt))) ∧
    (∃ v, pushes (.divn g sa sb) v ∧ (b = 0 → v.toNat = 2 ^ 64 - 1) ∧ (b ≠ 0 → v.toNat = a.toNat / b.toNat)) ∧
    (∃ v, pushes (.rem g sa sb) v ∧ (b = 0 → v = a) ∧ (b ≠ 0 → v.toInt = a.toInt.tmod b.toInt)) ∧
    (∃ v, pushes (.remn g sa sb) v ∧ (b = 0 → v = a) ∧ (b ≠ 0 → v.toNat = a.toNat % b.toNat))

/-- Under a true guard each operation answers a next state with one predicate result in flight to p(PD) one tick later:
the integer comparison of the two scalars (equal, unequal, less, less unsigned, less or equal, less or equal
unsigned), the logic of the named predicates, and for fcmp equal, unequal, less, less or equal and unordered of the two
decoded values as rational numbers or infinities, -0 being +0, where a NaN is unequal and unordered and nothing else;
sel puts the source that its predicate selects in flight to s(SD). Nothing else differs, except the identifiers given
and R29's two-writer mark. A word of these opcodes that decodes is the operation with its condition, type and operands
in the fields of form S.R, and a condition, a type or an unused field that the rules forbid is refused. (R121, R122, R125) -/
def Obligations.PredicateResults : Prop :=
  (∀ (g : Guard) (pd pa pb : BitVec 4) (sd sa sb : BitVec 6) (ty : ETy) (s : State), s.guard g = true →
    let a := s.sreg sa
    let b := s.sreg sb
    let p := s.me.ctl.pget pa.toNat
    let q := s.me.ctl.pget pb.toNat
    (∃ t, exec (.cmp g .eq pd sa sb) s = .next t ∧ s.YieldsP t 1 pd (decide (a = b))) ∧
    (∃ t, exec (.cmp g .ne pd sa sb) s = .next t ∧ s.YieldsP t 1 pd (decide (a ≠ b))) ∧
    (∃ t, exec (.cmp g .lt pd sa sb) s = .next t ∧ s.YieldsP t 1 pd (decide (a.toInt < b.toInt))) ∧
    (∃ t, exec (.cmp g .ltn pd sa sb) s = .next t ∧ s.YieldsP t 1 pd (decide (a.toNat < b.toNat))) ∧
    (∃ t, exec (.cmp g .le pd sa sb) s = .next t ∧ s.YieldsP t 1 pd (decide (a.toInt ≤ b.toInt))) ∧
    (∃ t, exec (.cmp g .len pd sa sb) s = .next t ∧ s.YieldsP t 1 pd (decide (a.toNat ≤ b.toNat))) ∧
    (∃ t, exec (.sel g sd pa sa sb) s = .next t ∧ s.Yields t 1 sd (if p then a else b)) ∧
    (∃ t, exec (.pand g pd pa pb) s = .next t ∧ s.YieldsP t 1 pd (p && q)) ∧
    (∃ t, exec (.por g pd pa pb) s = .next t ∧ s.YieldsP t 1 pd (p || q)) ∧
    (∃ t, exec (.pxor g pd pa pb) s = .next t ∧ s.YieldsP t 1 pd (decide (p ≠ q))) ∧
    (∃ t, exec (.pnot g pd pa) s = .next t ∧ s.YieldsP t 1 pd (!p)) ∧
    (∀ c, ∃ t r, exec (.fcmp g c ty pd sa sb) s = .next t ∧ s.YieldsP t 1 pd r ∧
      let x := s.fval ty sa
      let y := s.fval ty sb
      ((x.isNaN = true ∨ y.isNaN = true) → (r = true ↔ c = .ne ∨ c = .un)) ∧
      (x.isNaN = false → y.isNaN = false → (r = true ↔ match c with
        | .eq => x.Same y | .ne => ¬ x.Same y | .lt => x.Below y | .le => x.Below y ∨ x.Same y | .un => False)))) ∧
  (∀ w : BitVec 80,
    let f (lo n : Nat) : BitVec n := w.extractLsb' lo n
    let g : Guard := ⟨f 7 4, w.getLsbD 11⟩
    let fn := (f 39 8).toNat
    let refused := ∀ i, decode .s w ≠ .ok i
    (∀ i, decode .s w = .ok i →
      (f 0 7 = 0x1A → i = .sel g (f 12 6) (f 39 4) (f 18 6) (f 24 6)) ∧
      (f 0 7 = 0x1B → ∃ c, [ICond.eq, .ne, .lt, .ltn, .le, .len][fn]? = some c ∧ i = .cmp g c (f 12 4) (f 18 6) (f 24 6)) ∧
      (f 0 7 = 0x1C → i = .pand g (f 12 4) (f 18 4) (f 24 4)) ∧ (f 0 7 = 0x1D → i = .por g (f 12 4) (f 18 4) (f 24 4)) ∧
      (f 0 7 = 0x1E → i = .pxor g (f 12 4) (f 18 4) (f 24 4)) ∧ (f 0 7 = 0x1F → i = .pnot g (f 12 4) (f 18 4)) ∧
      (f 0 7 = 0x2C → ∃ c t, [FCond.eq, .ne, .lt, .le, .un][fn / 16]? = some c ∧ [ETy.fp16, .bf16, .fp32, .fp64][fn % 16 - 8]? = some t ∧
        i = .fcmp g c t (f 12 4) (f 18 6) (f 24 6))) ∧
    (f 0 7 = 0x1A → 16 ≤ fn → refused) ∧ (f 0 7 = 0x1B → 6 ≤ fn → refused) ∧ (f 0 7 = 0x1F → f 24 6 ≠ 0 → refused) ∧
    (f 0 7 = 0x2C → 5 ≤ fn / 16 ∨ fn % 16 < 8 ∨ 12 ≤ fn % 16 ∨ f 36 3 ≠ 0 → refused))

/-- Under a true guard each operation answers a next state in which the code of the exact result, rounded once in the
operation's mode to its format, is in flight to s(SD): four ticks for the arithmetic, two for fcvt, whose signed
32-bit result fills the register with its sign. The flags of the exact operation and of the rounding are set in FSTAT,
where no flag is cleared. Nothing else differs, except the identifiers given and R29's two-writer mark. (R77, R123,
R126) -/
def Obligations.FloatScalarResults : Prop :=
  ∀ (g : Guard) (rm : BitVec 3) (ty u : ETy) (sd sa sb sc : BitVec 6) (s : State), s.guard g = true →
    let a := s.fval ty sa
    let b := s.fval ty sb
    let down := rm == 2
    let gives (i : Instr) (x : FVal × BitVec 7) : Prop :=
      let r := (etFmt ty).round true rm.toNat (s.rb 0) x.1
      ∃ t, exec i s = .next t ∧
        s.Issued t (s.me.ctl.flag (x.2 ||| r.2)) [s.result s.ids 4 (.scalar sd.toNat) (BitVec.ofNat 64 r.1).toNat]
    gives (.fadd g rm ty sd sa sb) (a.add down b) ∧
    gives (.fsub g rm ty sd sa sb) (a.add down b.neg) ∧
    gives (.fmul g rm ty sd sa sb) (a.mul b) ∧
    gives (.ffma g rm ty sd sa sb sc) (FVal.fma down a b (s.fval ty sc)) ∧
    (∃ t v, exec (.fcvt g rm ty u sd sa) s = .next t ∧
      s.Issued t (s.me.ctl.flag ((etFmt ty).round true rm.toNat (s.rb 0) (s.fval u sa)).2) [s.result s.ids 2 (.scalar sd.toNat) v] ∧
      (ty ≠ .s32 → v = ((etFmt ty).round true rm.toNat (s.rb 0) (s.fval u sa)).1 % 2 ^ 64) ∧
      (ty = .s32 → (BitVec.ofNat 64 v).toInt =
        (((etFmt ty).round true rm.toNat (s.rb 0) (s.fval u sa)).1 : Int).bmod (2 ^ 32)))

/-- Outside a broadcast each control transfer answers a next state. With a false guard the next bundle is the one after
the branch's own and nothing else changes. With a true guard the next bundle is the branch's target: the sum of its
own bundle number and the signed offset, the register, or the sum of two registers; bc goes there when its condition
holds and loop when the decremented counter is not zero, and both fall through otherwise. call puts the number of the
next bundle, and loop the decremented counter, in flight to s(SD). Nothing else differs, except the identifiers given
and R29's two-writer mark. (R127, R128, R129) -/
def Obligations.BranchesResolve : Prop :=
  ∀ (g : Guard) (c : ICond) (sd sa sb : BitVec 6) (off : BitVec 28) (s : State), s.myBcast = none →
    let pc := s.cur.ent.pc
    let tgt : Word := pc + BitVec.ofInt 64 off.toInt
    let goes (i : Instr) (n : Word) (fs : List Fly) : Prop := ∃ t, exec i s = .next t ∧ s.Issued t { s.me.ctl with pc := n } fs
    (s.guard g = false →
      goes (.br g off) (pc + 1) [] ∧ goes (.bc g c sa sb off) (pc + 1) [] ∧ goes (.call g sd off) (pc + 1) [] ∧
      goes (.loop g sd off) (pc + 1) [] ∧ goes (.ret g sa) (pc + 1) [] ∧ goes (.jmpi g sa sb) (pc + 1) []) ∧
    (s.guard g = true →
      goes (.br g off) tgt [] ∧
      goes (.bc g c sa sb off) (if icond c (s.sreg sa) (s.sreg sb) then tgt else pc + 1) [] ∧
      goes (.call g sd off) tgt [s.result s.ids 1 (.scalar sd.toNat) (pc + 1).toNat] ∧
      goes (.loop g sd off) (if s.sreg sd = 1 then pc + 1 else tgt) [s.result s.ids 1 (.scalar sd.toNat) (s.sreg sd - 1).toNat] ∧
      goes (.ret g sa) (s.sreg sa) [] ∧
      goes (.jmpi g sa sb) (s.sreg sa + s.sreg sb) [])

/-- Under a true guard: ibw writes the low 16 bits of the scalar to its index base and leaves the bases in force alone;
csrw writes its numeric register; vwr with a setting below 2^21 that is legal in the window writes its view, and an
illegal one takes the illegal-view trap; wid puts a field of the instance's identity, the whole of it, a count or a
width in flight; rank the place of the core; csrr the register; qpop the oldest arrived entry of its queue, which it
removes and keeps for a rollback, with a true predicate, and on an empty queue with EB zero and a false predicate. An
all-zero slot changes nothing. (R42, R50, R132, R133, R134, R135, R136) -/
def Obligations.ContextRegistersAndQueues : Prop :=
  ∀ (g : Guard) (sd sa : BitVec 6) (pd : BitVec 4) (ib : BitVec 3) (n : BitVec 8) (q : BitVec 2) (sel : ViewSel) (k : Kind)
      (e : QEnt) (i : Inst) (s : State), s.guard g = true →
    let x := s.sreg sa
    exec (.nop k) s = .next s ∧
    (∃ t c, exec (.ibw g ib sa) s = .next t ∧ s.Issued t { s.me.ctl with ib := c } [] ∧
      ∀ j, aget 0 c j = if j = ib.toNat then x.setWidth 16 else aget 0 s.me.ctl.ib j) ∧
    (x.toNat < 2 ^ 21 → viewOk (selView sel).size (s.winSize s.cur.who) (x.setWidth 32) = true →
      ∃ t, exec (.vwr g sel sa) s = .next t ∧ s.Issued t (s.me.ctl.setView sel (x.setWidth 32)) []) ∧
    ((2 ^ 21 ≤ x.toNat ∨ viewOk (selView sel).size (s.winSize s.cur.who) (x.setWidth 32) = false) →
      ∃ a, exec (.vwr g sel sa) s = .next (s.trap ⟨4, 0, a⟩)) ∧
    (∃ t, exec (.csrw g n sa) s = .next t ∧ s.Issued t (s.me.ctl.csrSet n.toNat x) []) ∧
    (∃ t, exec (.csrr g sd n) s = .next t ∧ s.Yields t 1 sd (s.me.csr n.toNat)) ∧
    (∃ t, exec (.rank g sd n) s = .next t ∧ s.Yields t 1 sd (BitVec.ofNat 64 (rankValue s.cur.who n.toNat))) ∧
    (s.me.inst = some i → ∃ t, exec (.wid g sd n) s = .next t ∧ s.Yields t 1 sd (widValue i n.toNat)) ∧
    (s.me.rqHead q.toNat = some e → ∀ eb, ∃ t, exec (.qpop g sd pd q eb) s = .next t ∧
      (t.ctx s.cur.who).rqGet q.toNat = (s.me.rqGet q.toNat).tail ∧ (t.ctx s.cur.who).popped = (q.toNat, e) :: s.me.popped ∧
      (t.ctx s.cur.who).fly =
        s.me.fly ++ [s.result s.ids 1 (.scalar sd.toNat) (e.data % 2 ^ 64), s.result (s.ids + 1) 1 (.pred pd.toNat) 1] ∧
      (t.ctx s.cur.who).ctl = s.me.ctl ∧ t.mem = s.mem ∧ s.OnlyCtx t s.cur.who) ∧
    (s.me.rqHead q.toNat = none → ∃ t, exec (.qpop g sd pd q true) s = .next t ∧
      s.Issued t s.me.ctl [s.result s.ids 1 (.scalar sd.toNat) 0, s.result (s.ids + 1) 1 (.pred pd.toNat) 0])

/-- Under a true guard, brk and trap leave the fault kind 18 or 19 with the immediate and their bundle to be raised when
the release they make due is done, and halt stops dispatch and makes the release due that ends the instance; nothing
else of the machine differs. What the release then does is in SpansAndBlocksClear. (R130, R131) -/
def Obligations.SoftTrapsAndHalt : Prop :=
  ∀ (g : Guard) (imm : BitVec 40) (s : State), s.guard g = true →
    (∃ t, exec (.brk g imm) s = .next t ∧
      s.Becomes t s.cur.who { s.me with soft := some (18, BitVec.ofNat 64 imm.toNat, s.cur.ent.pc), ckDue := true }) ∧
    (∃ t, exec (.trap g imm) s = .next t ∧
      s.Becomes t s.cur.who { s.me with soft := some (19, BitVec.ofNat 64 imm.toNat, s.cur.ent.pc), ckDue := true }) ∧
    (∃ t, exec (.halt g) s = .next t ∧ s.Becomes t s.cur.who { s.me with halting := true, ckDue := true })

/-- For each integer, predicate, immediate, floating-point, view, queue and register operation of the scalar slot, and for
each system operation issued at its least level or above, exec answers the state it was given when the guard is false.
(R92, R116) -/
def Obligations.FalseGuardDoesNothing : Prop :=
  ∀ (g : Guard) (i : Instr) (s : State), s.guard g = false → ScalarOp g i → leastLevel i ≤ s.level s.cur.who → exec i s = .next s

/-- A context or firmware core runs at a level; a system instruction that needs a higher level than its issuer's takes the
privileged-instruction trap (kind 3) with cause 1 whatever its guard, and so does a performing sysrd or syswr of a
register whose group needs a higher level to read or write than its issuer's with every register write performed so far.
Every firmware core runs at level 2, and a compute context at the level of CTX.TRAP.PRIV. (R291) -/
def Obligations.PrivilegedInstructionTrap : Prop :=
  (∀ (i : Instr) (s : State), s.level s.cur.who < leastLevel i → exec i s = .next (s.trap ⟨3, 1, 0⟩)) ∧
  (∀ (g : Guard) (sd sa sb : BitVec 6) (off : BitVec 8) (s : State), s.guard g = true → 1 ≤ s.level s.cur.who →
    let v := (s.sreg sa).toNat % 2 ^ 32 + off.toNat
    let n := srnOf (v % 2 ^ 32)
    let l := s.written.level s.cur.who
    1 ≤ n.group → n.group ≤ 12 →
    (l < readLevel n.group → exec (.sysrd g sd sa off) s = .next (s.trap ⟨3, 1, BitVec.ofNat 64 (v % 2 ^ 32)⟩)) ∧
    (l < writeLevel n.group → exec (.syswr g sa sb off) s = .next (s.trap ⟨3, 1, BitVec.ofNat 64 (v % 2 ^ 32)⟩))) ∧
  (∀ (s : State) (who : Nat), (1024 ≤ who → s.level who = 2) ∧ (who < 1024 → s.level who = (s.ctx who).priv.toNat))

/-- Under a true guard at level 1 or more: sysrd of a register that the issuer may read puts in flight to SD what it reads
as, every register write performed so far included; syswr of a register that it may write performs the write, which in
the model waits for the end of the issuer's tick (one that clears a ring's EN is at once; log 96), and that end makes
exactly the register's write (for CTX.TVEC, bits 49:0 become the vector and nothing else changes); an access with a cause takes the
privileged-instruction trap with that cause and the register's number. eret goes to the bundle in CTX.EPC at level EPRIV
and clears NEST when that is level 0; nothing else changes. (R63, R294, R296, R299, R301, R302) -/
def Obligations.SystemRegisterAccess : Prop :=
  ∀ (g : Guard) (sd sa sb : BitVec 6) (off : BitVec 8) (s : State), s.guard g = true → 1 ≤ s.level s.cur.who →
    let v := ((s.sreg sa).toNat % 2 ^ 32 + off.toNat) % 2 ^ 32
    let n := srnOf v
    let u := s.written
    let x := s.sreg sb
    let clearsEN := n.group = 1 ∧ 0x100 ≤ n.word ∧ n.word < 0x140 ∧ (s.ring n.core (n.word - 0x100)).en = true ∧ x.getLsbD 37 = false
    (∀ x, u.regCause s.cur.who n false = none → u.regRead n = some x →
      ∃ t, exec (.sysrd g sd sa off) s = .next t ∧ s.Yields t 1 sd x) ∧
    (∀ c, u.regCause s.cur.who n false = some c → exec (.sysrd g sd sa off) s = .next (s.trap ⟨3, c, BitVec.ofNat 64 v⟩)) ∧
    (∀ t, u.regCause s.cur.who n true = none → u.regWrite n x = .ok t → ¬ clearsEN →
      exec (.syswr g sa sb off) s = .next { s with regw := s.regw ++ [(s.cur.who, v, x)] }) ∧
    (u.regCause s.cur.who n true = none → clearsEN →
      ∃ r, s.regWrite n x = .ok r ∧ exec (.syswr g sa sb off) s = .next r) ∧
    (∀ c, u.regCause s.cur.who n true = some c → exec (.syswr g sa sb off) s = .next (s.trap ⟨3, c, BitVec.ofNat 64 v⟩)) ∧
    (∀ w r, s.regw = [(w, v, x)] → ({ s with regw := [] } : State).regWrite n x = .ok r → s.landRegs (coreOf w) = r) ∧
    (∀ w, s.regw = [(w, v, x)] → n.group = 1 → n.word = 3 →
      (({ s with regw := [] } : State).Becomes (s.landRegs (coreOf w)) n.who { s.ctx n.who with tvec := x.extractLsb' 0 50 })) ∧
    (∃ t, exec (.eret g) s = .next t ∧ s.Becomes t s.cur.who { s.me with
        ctl := { s.me.ctl with pc := s.me.epc.setWidth 64 }, priv := s.me.epriv,
        nest := if s.me.epriv = 0 then false else s.me.nest })

/-- Under a true guard at the operation's level, over the stage with every write performed so far: keyld sets the key slot that s(SA) names to the staged key pair, STAGE0
lowest, owned by s(SB)[5:0], keyld.e empties it, both clear the stage, leave every other slot and every other part of
the machine alone, and trap with cause 3 on a slot number of 8192 or more. slotmap writes a permitted binding
s(SB)[11:8] over the top four bits of SLT.MAP and sets its predicate, and takes the illegal-slot trap on a forbidden
one. tstate puts age, maximum and reading of the sensor in flight to SD, and with CLR makes the reading the maximum.
The trap of tstate on an operand of 64 or more is the model's choice (log 40). (R304, R305, R312) -/
def Obligations.KeysSlotsAndSensors : Prop :=
  ∀ (g : Guard) (sd sa sb : BitVec 6) (pd : BitVec 4) (s : State), s.guard g = true → s.level s.cur.who = 2 →
    let v := (s.sreg sa).toNat
    let r := s.landWhere fun n => n.group == 11
    let key : BitVec 512 := BitVec.ofNat 512 (packElems 64 ((List.range 8).map fun i => (aget 0 r.svc.stage i).toNat))
    let keyAt (t : State) (k : Nat) : Option (Nat × BitVec 512 × Nat) := t.svc.keys.find? fun e => e.1 == k
    (v < 8192 → ∃ t, exec (.keyld g sa sb) s = .next t ∧ keyAt t v = some (v, key, (s.sreg sb).toNat % 64) ∧
      (∀ k, k ≠ v → keyAt t k = keyAt r k) ∧ t = { r with svc := { r.svc with keys := t.svc.keys, stage := [] } }) ∧
    (v < 8192 → ∃ t, exec (.keyldErase g sa sb) s = .next t ∧ keyAt t v = none ∧
      (∀ k, k ≠ v → keyAt t k = keyAt r k) ∧ t = { r with svc := { r.svc with keys := t.svc.keys, stage := [] } }) ∧
    (8192 ≤ v → exec (.keyld g sa sb) s = .next (s.trap ⟨3, 3, 0⟩) ∧ exec (.keyldErase g sa sb) s = .next (s.trap ⟨3, 3, 0⟩)) ∧
    (let core := (srnOf (v % 2 ^ 32)).core
     let b := (s.sreg sb).extractLsb' 8 4
     let u := s.setCore core { s.core core with sltmap := b ++ (s.core core).sltmap.extractLsb' 0 8 }
     ((s.core core).badBinding b = false → ∃ t, exec (.slotmap g pd sa sb) s = .next t ∧ u.YieldsP t 1 pd true) ∧
     ((s.core core).badBinding b = true → exec (.slotmap g pd sa sb) s = .next (s.trap ⟨2, 0, 0⟩))) ∧
    (let die := v / 16 % 4
     let n := v % 16
     ∀ temp tmax age armed, aget (0, 0, 0, true) (s.die die).sens n = (temp, tmax, age, armed) →
      let w : Word := BitVec.ofNat 64 (temp.toNat + tmax.toNat * 2 ^ 16 + age.toNat * 2 ^ 32)
      (v < 64 → ∃ t, exec (.tstate g sd sa false) s = .next t ∧ s.Yields t 1 sd w) ∧
      (v < 64 → ∃ t u, exec (.tstate g sd sa true) s = .next t ∧ s.Yields u 1 sd w ∧
        t = u.setDie die { s.die die with sens := aset (s.die die).sens n (temp, temp, age, armed) }) ∧
      (64 ≤ v → exec (.tstate g sd sa false) s = .next (s.trap ⟨3, 3, 0⟩)))

/-- Under a true guard at level 2, or at level 1 for the issuer's own partition, with none of the issuer's drawer writes
open, tlbinv answers a next state whose translation caches hold exactly the entries of before that are of another
partition or of pages that the operand does not name: the page that holds s(SB), the pages that meet s(SB) to s(SB) +
s(SC) - 1, or every page. Memory, contexts and cores stay as they were. At level 1 another partition raises cause 2.
(R303, R347) -/
def Obligations.TranslationsInvalidated : Prop :=
  ∀ (g : Guard) (k : BitVec 2) (sa sb sc : BitVec 6) (s : State), s.guard g = true → 1 ≤ s.level s.cur.who →
    let part := (s.sreg sa).toNat % 64
    let a := (s.sreg sb).toNat
    let n := (s.sreg sc).toNat
    let named (p : Page) : Prop := (k = 0 ∧ p.base ≤ a ∧ a < p.base + p.size) ∨ (k = 1 ∧ 0 < n ∧ p.base < a + n ∧ a < p.base + p.size) ∨
      (k ≠ 0 ∧ k ≠ 1)
    ((s.level s.cur.who = 1 → part = s.partOf s.cur.who) → s.fab.reqs = [] →
      ∃ t, exec (.tlbinv g k sa sb sc) s = .next t ∧ t.mem = s.mem ∧ t.ctxs = s.ctxs ∧ t.cores = s.cores ∧
        ∀ e, e ∈ t.tlb ↔ e ∈ s.tlb ∧ (e.2.1 ≠ part ∨ ¬ named e.2.2)) ∧
    (s.level s.cur.who = 1 → part ≠ s.partOf s.cur.who → exec (.tlbinv g k sa sb sc) s = .next (s.trap ⟨3, 2, 0⟩))

/-- At level 1 or more, under a true guard, for a place of the issuer's that is another context and a 4 KiB-aligned
address: where the target holds an instance, its snapshot's place may be written, it stops and no load of its waits for
data, ctxsave answers the state in which the snapshot is written with a true predicate in flight, and the target then
holds no instance; where it holds none, nothing is written and the predicate is false. Where the target is empty and
held, the header at the address allows the return and no store of the context and no want of cache room holds it up,
ctxrest answers the restored state with a true predicate; a target that holds an instance or is not held, or a header
that does not allow it, leaves everything alone with a false one. Register writes of the target performed so far stand
first (R299). A misaligned address takes the layout-bounds trap, and takes it ahead of every other cause, which is the
model's order (log 51). (R256, R270, R306, R355, R358) -/
def Obligations.ContextsMove : Prop :=
  ∀ (g : Guard) (pd : BitVec 4) (sa sb : BitVec 6) (s : State), s.guard g = true → 1 ≤ s.level s.cur.who →
    let n := srnOf ((s.sreg sa).toNat % 2 ^ 32)
    let w := n.who
    let addr := (s.sreg sb).toNat
    (addr % 4096 ≠ 0 → exec (.ctxsave g pd sa sb) s = .next (s.trap ⟨11, 0, 0⟩) ∧ exec (.ctxrest g pd sa sb) s = .next (s.trap ⟨11, 0, 0⟩)) ∧
    let part := s.snapPart n
    let l := s.landWhere fun m => m.who == w && m.group == 1
    (addr % 4096 = 0 → s.foreign n = false → w ≠ s.cur.who →
      (∀ ps t u, (l.ctx w).inst ≠ none → l.snapPlace w part addr = .ok ps →
        (l.modCtx w fun c => { c with hold := true }).stop w = some t → t.drained w = true → t.saveTo w part addr = .ok u →
        ∃ r, exec (.ctxsave g pd sa sb) s = .next r ∧ u.YieldsP r 1 pd true ∧ (u.ctx w).inst = none) ∧
      ((l.ctx w).inst = none → ∃ r, exec (.ctxsave g pd sa sb) s = .next r ∧ l.YieldsP r 1 pd false) ∧
      (∀ h id, (l.ctx w).inst = none → (l.ctx w).hold = true →
        l.snapRead (coreOf w) part addr 0 6 = .ok h → l.snapRead (coreOf w) part addr 0x1A680 1 = .ok id →
        let sn := l.snapOf part addr h (bytesAt id 0x18 8)
        (∀ u, l.mayRestore w h sn = true → l.restoreWaits w sn = false → l.restoreTo w part addr sn = .ok u →
          ∃ r, exec (.ctxrest g pd sa sb) s = .next r ∧ u.YieldsP r 1 pd true) ∧
        (l.mayRestore w h sn = false → ∃ r, exec (.ctxrest g pd sa sb) s = .next r ∧ l.YieldsP r 1 pd false)) ∧
      (((l.ctx w).inst ≠ none ∨ (l.ctx w).hold = false) → ∃ r, exec (.ctxrest g pd sa sb) s = .next r ∧ l.YieldsP r 1 pd false))

/-- At level 2 under a true guard: swpat writes PAT of its row and sets its predicate when the pattern is not empty and
has at most PMAXN pulses (16 for 0), and otherwise only clears the predicate; vote sets the named vote of the named
die to the value clamped into 550 to 850 mV, or to 0, marks whether it was clamped, and changes no other vote or die;
swq puts its command behind the others while the queue holds fewer than 64. Nothing else changes. (R307, R308, R309) -/
def Obligations.PatternsVotesSwitchQueue : Prop :=
  ∀ (g : Guard) (pd : BitVec 4) (sa sb : BitVec 6) (s : State), s.guard g = true → s.level s.cur.who = 2 →
    let a := (s.sreg sa).toNat
    (let r := (srnOf (a % 2 ^ 32)).rowN
     let p := (s.sreg sb).extractLsb' 0 16
     let fits := p ≠ 0 ∧ popc16 p ≤ if (s.row r).pmaxn = 0 then 16 else (s.row r).pmaxn.toNat
     (fits → ∃ t, exec (.swpat g pd sa sb) s = .next t ∧ (s.setRow r { s.row r with pat := p }).YieldsP t 1 pd true) ∧
     (¬ fits → ∃ t, exec (.swpat g pd sa sb) s = .next t ∧ s.YieldsP t 1 pd false)) ∧
    (let v := a % 16
     let d := a / 16 % 4
     let m := (s.sreg sb).toNat % 2 ^ 16
     let c := if m = 0 then 0 else if m < 550 then 550 else if 850 < m then 850 else m
     ∃ t, exec (.vote g sa sb) s = .next t ∧ t = { s with dies := t.dies } ∧ (∀ e, e ≠ d → t.die e = s.die e) ∧
       t.die d = { s.die d with votes := (t.die d).votes, clamped := (t.die d).clamped } ∧
       (aget 0 (t.die d).votes v).toNat = c ∧ aget false (t.die d).clamped v = decide (m ≠ 0 ∧ c ≠ m) ∧
       ∀ w, w ≠ v → aget 0 (t.die d).votes w = aget 0 (s.die d).votes w) ∧
    (s.fab.swq.length < 64 →
      exec (.swq g sa sb) s = .next { s with fab := { s.fab with swq := s.fab.swq ++ [(s.sreg sa, s.sreg sb)] } })

/-- At level 2 under a true guard, for a pair below 128: train starts from down, park asks for parking from up, wake from
parked, retrain from up, parked or waking, enable from receive-dark, down from every state but down. Then the pair's
state is the table's (training 1, waking 4, retraining 5, down 0 with failure code 4, park requested), and a true
predicate is in flight. From any other state, and for a pair that does not exist, the state is unchanged but for a
false predicate in flight. (R309, R362) -/
def Obligations.LinkCommands : Prop :=
  ∀ (g : Guard) (pd : BitVec 4) (sa : BitVec 6) (s : State), s.guard g = true → s.level s.cur.who = 2 →
    let p := (s.sreg sa).toNat % 256
    let st := (s.pair p).state
    let does (i : Instr) (may : Prop) (now : Pair → Prop) : Prop :=
      (p < 128 → may → ∃ (t u : State), exec i s = .next t ∧ u.YieldsP t 1 pd true ∧ now (t.pair p) ∧ t.mem = s.mem) ∧
      ((128 ≤ p ∨ ¬ may) → ∃ t, exec i s = .next t ∧ s.YieldsP t 1 pd false)
    does (.lnkTrain g pd sa) (st = 0) (fun q => q.state = 1) ∧
    does (.lnkPark g pd sa) (st = 2) (fun q => q = { s.pair p with parkReq := true }) ∧
    does (.lnkWake g pd sa) (st = 3) (fun q => q.state = 4) ∧
    does (.lnkRetrain g pd sa) (st = 2 ∨ st = 3 ∨ st = 4) (fun q => q.state = 5) ∧
    does (.lnkDown g pd sa) (st ≠ 0) (fun q => q.state = 0 ∧ q.fail = 4) ∧
    does (.lnkEnable g pd sa) (st = 6) (fun q => q.state = 5)

/-- At level 2 under a true guard: evq.pop with an event waiting takes it out of the queue and puts it and a true
predicate in flight, and with EB on an empty queue zero and a false one. olk.acq holds the lock when NS of its queue
is the token's number, and otherwise makes the issuer wait, until ORDERING_LOCK_GRANT finds the number reached and
gives it. olk.rel by the holder at the token's number raises NS by one modulo 2^20, frees the lock and changes no other lock,
for every queue, 4095 of the hardware events among them, where nothing else changes when no completion waits for the
event's handling; for a queue other than 4095 it also marks the packet at CI released, and lets CI pass, when the token is that of the packet's event, and
has no other effect when it is not. By anyone else, or at another number, it traps with cause 4. (R310, R311, R317,
R319) -/
def Obligations.EventsAndOrderingLocks : Prop :=
  ∀ (g : Guard) (sd sa : BitVec 6) (pd : BitVec 4) (eb : Bool) (s : State), s.guard g = true → s.level s.cur.who = 2 →
    let q := (s.sreg sa).toNat / 2 ^ 20 % 2 ^ 12
    let n := (s.sreg sa).extractLsb' 0 20
    (∀ e l, s.svc.events = e :: l → ∃ t v, exec (.evqPop g sd pd eb) s = .next t ∧ t = { s with svc := v, ctxs := t.ctxs, ids := t.ids } ∧
      (s.svc.cmdWait = [] → v.events = l) ∧
      (t.ctx s.cur.who).fly = s.me.fly ++ [s.result s.ids 1 (.scalar sd.toNat) e.toNat, s.result (s.ids + 1) 1 (.pred pd.toNat) 1]) ∧
    (s.svc.events = [] → ∃ t, exec (.evqPop g sd pd true) s = .next t ∧
      s.Issued t s.me.ctl [s.result s.ids 1 (.scalar sd.toNat) 0, s.result (s.ids + 1) 1 (.pred pd.toNat) 0]) ∧
    ((s.svc.lock q).1 = n → exec (.olkAcq g sa) s = .next { s with svc := s.svc.setLock q (n, some s.cur.who) }) ∧
    ((s.svc.lock q).1 ≠ n → ∃ t, exec (.olkAcq g sa) s = .next t ∧ s.Becomes t s.cur.who { s.me with wait := some (.lock q n.toNat) }) ∧
    (∀ w k, (s.ctx w).wait = some (.lock q k) → (s.svc.lock q).1.toNat = k →
      ∃ t, exec (.orderingLockGrant w) s = .next t ∧ (t.ctx w).wait = none ∧ t.svc.lock q = (BitVec.ofNat 20 k, some w) ∧
        t = { s with svc := { s.svc with locks := t.svc.locks }, ctxs := t.ctxs }) ∧
    (s.svc.lock q = (n, some s.cur.who) →
      ∃ t, exec (.olkRel g sa) s = .next t ∧ t.svc.lock q = (n + 1, none) ∧ (∀ k, k ≠ q → t.svc.lock k = s.svc.lock k) ∧
        t.ctxs = s.ctxs ∧
        (q = 4095 → (∀ h ∈ s.svc.handling, h.1 ≠ n.toNat) → (s.queue q).eventIs n = false →
          t = { s with svc := s.svc.setLock q (n + 1, none) })) ∧
    (s.svc.lock q = (n, some s.cur.who) → q ≠ 4095 →
      let u := { s with svc := s.svc.setLock q (n + 1, none) }
      ((s.queue q).eventIs n = false → exec (.olkRel g sa) s = .next u) ∧
      ((s.queue q).eventIs n = true → exec (.olkRel g sa) s = .next ((u.setQueue q { s.queue q with rel := true }).passCI q))) ∧
    (s.svc.lock q ≠ (n, some s.cur.who) → exec (.olkRel g sa) s = .next (s.trap ⟨3, 4, 0⟩))

/-- Under its condition each link event answers a next state in which its pair is where the table puts it: a lock in time
up, with its phase error noted; a train timeout down with code 1; parking at a slot boundary parked; enough units
queued at an end waking; 1.024 us of waking, at a boundary, up; eight unanswered control attempts or 256 flit errors
of a lit pair retraining; a lock in time of a retraining pair up; its timeout down with code 2; receive light lost
receive-dark with code 3; transmit light lost down with code 3. The queue at a peer's end, and the attempts and errors
between the interposer and a drawer, reach the model as the event itself (log 97). Every other pair and all of memory
stay as they were. (R360, R362, R363, R366) -/
def Obligations.LinkPairTransitions : Prop :=
  ∀ (p : Nat) (e : BitVec 12) (s : State),
    let q := s.pair p
    let goes (i : Instr) (st : BitVec 3) (also : Pair → Prop) : Prop :=
      ∃ t, exec i s = .next t ∧ (t.pair p).state = st ∧ also (t.pair p) ∧ (∀ k, k ≠ p → t.pair k = s.pair k) ∧ t.mem = s.mem
    let any (_ : Pair) : Prop := True
    (q.state = 1 → s.ns q.since ≤ 50000 → p < 128 → goes (.lockAchieved p e) 2 fun x => x.pherr = (if e = 0x800 then 0x801 else e) ∧ x.errc = 0) ∧
    (q.state = 1 → 50000 ≤ s.ns q.since → goes (.trainTimeout p) 0 fun x => x.fail = 1) ∧
    (q.state = 2 → (q.parkReq = true ∨ (q.parkidle ≠ 0 ∧ q.parkidle.toNat * 8192 ≤ s.ns q.idle)) → s.atSlot p = true →
      goes (.parkIdle p) 3 any) ∧
    (q.state = 3 → (64 ≤ p ∨ q.wakeq.toNat ≤ s.queued p ∨ q.wakeq.toNat ≤ s.queuedFar p) → goes (.wakeThreshold p) 4 any) ∧
    (q.state = 4 → 1024 ≤ s.ns q.since → s.atSlot p = true → goes (.wakeComplete p) 2 any) ∧
    (q.lit = true → (p < 64 ∨ 8 ≤ q.tries ∨ 256 ≤ q.errs) → goes (.retrainTrigger p) 5 any) ∧
    (q.state = 5 → s.ns q.since ≤ 524288 → goes (.retrainLock p) 2 any) ∧
    (q.state = 5 → 524288 ≤ s.ns q.since → goes (.retrainTimeout p) 0 fun x => x.fail = 2) ∧
    (q.state ≠ 0 → q.state ≠ 6 → goes (.rxLightLoss p) 6 fun x => x.fail = 3) ∧
    (q.state ≠ 0 → goes (.txLightLoss p) 0 fun x => x.fail = 3)

/-- When a slot of drawer d begins, the slot count rises, every request of that drawer that was granted comes one slot
nearer, and no request comes or goes or changes but by this or by being granted 48 slots (a read) or 49; the request
that reached the drawer first, the lower die first within a link cycle, is granted when it qualifies under the entry
in force, its pair has a lit lane and, for a write, no wavelength of its lane group corrupts its data. A read that may
perform is marked answered, and a load that waited for it alone performs: its value and flags, with the unit as it
stands now, are fixed (lanes that arrival mode writes at once apart). A context's drained store that may perform
is written to its unit under its key, and leaves the rondel. An access that has waited STALLTO on a pair that is down
or retraining, or for a read receive-dark, is dropped: a load, and in the model a test of a flag (log 58), takes the
link trap with cause 2 and its pair, a store's context is marked with the pair, and a command gets status 5. (R190, R363, R364, R367) -/
def Obligations.DrawerAccesses : Prop :=
  (∀ (d : Nat) (s : State), d < 2 → 32 * aget 0 s.fab.dslot d ≤ s.ltime →
    let n := aget 0 s.fab.dslot d
    ∃ t, exec (.drawerSlot d) s = .next t ∧ aget 0 t.fab.dslot d = n + 1 ∧ t = { s with fab := t.fab, fresh := t.fresh } ∧
      (t.fab.reqs.map (·.id)).Perm (s.fab.reqs.map (·.id)) ∧
      (∀ x ∈ t.fab.reqs, ∃ r ∈ s.fab.reqs, ((r.drawer ≠ d ∨ r.left = none) ∧ x = r) ∨
        (∃ k, r.drawer = d ∧ r.left = some k ∧ x = { r with left := some (k - 1) }) ∨
        (r.drawer = d ∧ r.left = none ∧ x = { r with left := some (if r.kind = 0 then 48 else 49) })) ∧
      (∀ r ∈ s.fab.reqs, (∀ q ∈ s.fab.reqs, q = r ∨ s.noLater q r = false) → r.left = none →
        s.qualifies d (aget 0 (if d = 0 then t.fab.d0slot else t.fab.d1slot) (n % 256)) r = true →
        0 < (s.pair (reqPair r)).lanes → (r.kind ≠ 0 → ∀ b, s.lostBits (reqPair r) (laneOf r.unit % 4) b = 0) →
        t.fab.reqs.head? = some { r with left := some (if r.kind = 0 then 48 else 49) })) ∧
  (∀ (id : Nat) (r : DReq) (s : State), s.req id = some r → s.mayPerform r = true →
    (r.kind = 0 → (∀ f ∈ (s.ctx r.who).fly, f.arr = true → id ∉ f.gate) →
      ∃ t, exec (.drawerReadDataPlaced id) s = .next t ∧ t.req id = some { r with done := true } ∧
        t = { s with fab := t.fab, ctxs := t.ctxs, fresh := t.fresh } ∧ (∀ w, w ≠ r.who → t.ctx w = s.ctx w) ∧
        ∀ f ∈ (s.ctx r.who).fly, ∀ l, f.late = some l → f.fixed = false → f.gate = [id] →
          let now := s.taken (l.elems.filterMap (fun o => o) ++ l.scales.filterMap fun o => o) fun u => u == r.unit
          let l := { l with got := l.got ++ now }
          { f with late := some l, val := (s.lateValue r.who l).1, flg := (s.lateValue r.who l).2, fixed := true } ∈ (t.ctx r.who).fly) ∧
    (r.kind = 1 → r.cmd = none → ∃ t, exec (.drawerWritePerforms id) s = .next t ∧ t.req id = none ∧
      t.mem = (s.writeUnit r.key r.unit r.val r.mask).mem ∧ t.ctxs = s.ctxs)) ∧
  (∀ (id : Nat) (r : DReq) (s : State), s.req id = some r →
    (let st := (s.pair (reqPair r)).state; st = 0 ∨ st = 5 ∨ (st = 6 ∧ r.kind = 0)) →
    r.left = none → r.done = false → r.dropped = false → s.fab.stallto.toNat * 1024 ≤ r.stall →
    (r.kind = 0 → r.cmd = none → r.amo = none → ∃ (t u : State), exec (.stallTimeout id) s = .next t ∧ u.req id = none ∧
      t = u.takeTrap r.who (tLink 2 (reqPair r)) r.sl r.pc) ∧
    (r.kind = 1 → r.cmd = none → ∃ t, exec (.stallTimeout id) s = .next t ∧ t.req id = none ∧
      (t.ctx r.who).flt.lrs = true ∧ (t.ctx r.who).flt.addr = BitVec.ofNat 64 (reqPair r)) ∧
    (∀ k c, r.cmd = some k → s.cmd k = some c → s.fab.xfers = [] → ∃ t, exec (.stallTimeout id) s = .next t ∧
      t.req id = some { r with dropped := true } ∧ t.cmd k = some { c with status := 5 }))

/-- With the pop timer at 0 the switch takes the oldest command: a refused one sets the error bit, a legal LOAD writes its
slot while no rotation runs and waits for its start while one does, a RUN arms the rotation with its last slot,
reference pair and start count, a STOP is remembered; while a rotation is armed and not yet running, a LOAD writes at
once and a second RUN replaces the first, which is the model's reading (log 87). An armed rotation starts with slot 0 in its guard when the
reference pair's counter is the start count. A guard that is over connects its slot, a connected interval that is over
begins the next slot's guard (slot 0 after the last), and after a STOP the rotation ends with its last slot. Memory
and contexts stay as they were, but for what a connected slot sends. (R368, R369, R370) -/
def Obligations.SwitchRotates : Prop :=
  ∀ (s : State),
    let f := s.fab
    (∀ w0 w1 l, f.swq = (w0, w1) :: l → f.swPop = 0 →
      let j := w0.toNat / 2 ^ 8 % 8
      let c := w0.toNat % 16
      ∃ t, exec .switchCommandPop s = .next t ∧ t = { s with fab := t.fab } ∧ t.fab.swq = l ∧
        (f.refused w0 w1 = true → t.fab.swErr = true ∧ t.fab.swslots = f.swslots ∧ t.fab.swRun = f.swRun) ∧
        (f.refused w0 w1 = false → c = 1 → f.swRun = false → t.fab.swslots = aset f.swslots j w1) ∧
        (f.refused w0 w1 = false → c = 1 → f.swRun = true → t.fab.swslots = f.swslots ∧ t.fab.swload = f.swload ++ [(j, w1)]) ∧
        (f.refused w0 w1 = false → c = 2 → t.fab.swArm = true ∧ t.fab.swN = j ∧ t.fab.swRef = w0.toNat / 2 ^ 16 % 256 ∧
          t.fab.swT0.toNat = w1.toNat % 2 ^ 32) ∧
        (f.refused w0 w1 = false → c = 3 → t.fab.swStop = true)) ∧
    (f.swArm = true → f.swRun = false → s.counter f.swRef = f.swT0 → ∃ t, exec .rotationStart s = .next t ∧ t = { s with fab := t.fab } ∧
      t.fab.swRun = true ∧ t.fab.swGd = true ∧ t.fab.swCur = 0 ∧ t.fab.swArm = false) ∧
    (f.swRun = true → f.swGd = true → slotGuard f.curSlot * 125 ≤ s.inPhase → ∃ t, exec .circuitSlotConnect s = .next t ∧
      t.fab.swGd = false ∧ t.fab.swCur = f.swCur ∧ t.fab.swT0 = f.swT0 + BitVec.ofNat 32 (slotGuard f.curSlot * 125)) ∧
    (f.swRun = true → f.swGd = false → slotLen f.curSlot * 125 ≤ s.inPhase →
      (¬ (f.swCur = f.swN ∧ f.swStop = true) → ∃ t, exec .circuitSlotGuard s = .next t ∧ t = { s with fab := t.fab } ∧ t.fab.swGd = true ∧
        t.fab.swCur = (if f.swCur = f.swN then 0 else f.swCur + 1) ∧ t.fab.swT0 = f.swT0 + BitVec.ofNat 32 (slotLen f.curSlot * 125)) ∧
      (f.swCur = f.swN → f.swStop = true → ∃ t, exec .rotationEnd s = .next t ∧ t = { s with fab := t.fab } ∧ t.fab.swRun = false))

/-- A send whose flits are out ends at its acknowledgement with its status, and one that has waited STALLTO, and not one that
has waited less, ends with status 5: it leaves the commands, and its record arrives in q2 unless it asked for none. A
good flit that arrives in time is held once: in a transfer that waits for an arm, or placed in the box of its arm, the
oldest free one of its queue, where what lies beyond the box is dropped with status 6; a second copy changes nothing.
A flit that is lost or has an error counts against its pair and is asked for again. A notice that makes the next
transfer of its port whole completes the arm's command and is acknowledged; another is held, and one whose arm has
completed is discarded. A new good control flit is accepted once, and a request in it is queued and counted by the pair
that carried the flit; a bad or a second copy changes nothing. Queues of arms that the package has once (log 55), and
the attempts of control flits with an acknowledgement put out at once (log 56), are the model's choice. The oldest control flit of a
pair that has gone unanswered for CTLTO waits to leave again, and the pair counts the attempt; one that waits leaves
on the two lowest pairs of its port when the port sends. A corrected flit counts in ERRC, and whether one was is free.
(R209, R210, R363, R371, R372, R373, R374) -/
def Obligations.SendsAndReceives : Prop :=
  (∀ (id : Nat) (r : ECmdRec) (s : State), s.cmd id = some r → r.opc = 8 →
    let ends (i : Instr) (st : Nat) : Prop := ∃ t, exec i s = .next t ∧ t.cmd id = none ∧
      (r.nq = false → (t.ctx r.who).rqGet 2 =
        arrive id (r.tag.toNat * 2 ^ 48 + Nat.min r.units (2 ^ 32 - 1) * 2 ^ 16 + 8 * 256 + st) ((s.ctx r.who).rqGet 2)) ∧
      (r.nq = true → t.ctxs = s.ctxs)
    (r.flits ≤ r.sent → ends (.sendAcknowledgement id) r.status) ∧
    (s.fab.stallto.toNat * 1024 ≤ r.waited → ends (.sendTimeout id) 5) ∧
    (r.waited < s.fab.stallto.toNat * 1024 → exec (.sendTimeout id) s = .next s)) ∧
  (∀ (port pair rq flit slack arr : Nat) (seq : BitVec 32) (data : BitVec 512) (ok : Bool) (s : State),
    let i : Instr := .flitArrival port pair rq seq flit data ok slack arr
    let x : Xfer := { port := port, rq := rq, seq := seq.toNat }
    let here (y : Xfer) : Prop := y.port = port ∧ y.seq = seq.toNat
    let has (y : Xfer) : Prop := flit ∈ y.got ∨ ∃ f ∈ y.flits, f.1 = flit
    let places (t : State) (id : Nat) (r : ECmdRec) : Prop :=
      (r.moves = [] → t.mem = s.mem ∧ t.cmd id = some { r with status := 6, placed := r.placed ++ [flit] }) ∧
      (∀ m l, r.moves = m :: l → (∀ e ∈ r.moves, drawerOf (e.1.addr / 8) = none) →
        let k := 512 / m.1.w
        let es := (((r.moves.drop (flit * k)).take k).map (·.1)).zip (List.range k)
        t.cmd id = some { r with status := if es.length < k then 6 else r.status, placed := r.placed ++ [flit] } ∧
        t.mem = (es.foldl (fun s e => s.putElem e.1 (elemAt data.toNat m.1.w e.2)) s).mem)
    let past : Prop := s.fab.past port seq = true
    ((ok = true ∧ s.fab.accepts port slack arr = true) → ¬ past → (∀ y ∈ s.fab.xfers, y.notice = none) →
      (∃ t, exec i s = .next t ∧ (∃ y ∈ t.fab.xfers, here y ∧ has y) ∧ (t.pair pair).idle = 0 ∧
        ((t.pair pair).errc = (s.pair pair).errc ∨ (t.pair pair).errc = satInc (s.pair pair).errc)) ∧
      (s.fab.xfers = [] → aget [] s.fab.recvs rq = [] → ∃ t, exec i s = .next t ∧
        t.fab.xfers = [{ x with flits := [(flit, data)] }] ∧ t.mem = s.mem ∧ t.cmds = s.cmds) ∧
      (∀ id r, s.fab.xfers = [] → (aget [] s.fab.recvs rq).head? = some id → s.cmd id = some r → ∃ t, exec i s = .next t ∧
        t.fab.xfers = [{ x with arm := some id, got := [flit] }] ∧ places t id r) ∧
      (∀ y id r, s.fab.xfers = [y] → here y → y.arm = some id → s.cmd id = some r → ¬ has y → ∃ t, exec i s = .next t ∧
        t.fab.xfers = [{ y with got := y.got ++ [flit] }] ∧ places t id r) ∧
      (∀ y, s.fab.xfers = [y] → here y → has y → ∃ t, exec i s = .next t ∧ t.fab.xfers = [y] ∧ t.mem = s.mem ∧ t.cmds = s.cmds)) ∧
    ((ok = false ∨ s.fab.accepts port slack arr = false) → ¬ past → ∃ t, exec i s = .next t ∧
      t.pair pair = { s.pair pair with errc := satInc (s.pair pair).errc, errs := (s.pair pair).errs + 1, idle := 0 } ∧
      t.fab.xfers = s.fab.xfers ∧ t.mem = s.mem ∧ t.cmds = s.cmds ∧
      ∃ c, t.fab.ctls = s.fab.ctls ++ [c] ∧ c.kind = 3 ∧ c.port = port ∧ c.xseq = seq.toNat ∧ c.flit = flit ∧ c.path = 128) ∧
    (past → (∀ n, exec (.completionNotice port rq seq n) s = .next s) ∧
      ∃ t, exec i s = .next t ∧ t.fab.xfers = s.fab.xfers ∧ t.mem = s.mem ∧ t.cmds = s.cmds ∧ t.ctxs = s.ctxs) ∧
    (∀ n, ¬ past → s.fab.xfers = [] → aget [] s.fab.recvs rq = [] → ∃ t, exec (.completionNotice port rq seq n) s = .next t ∧
      t.fab.xfers = [{ x with notice := some n }] ∧ t.mem = s.mem ∧ t.cmds = s.cmds) ∧
    (∀ id r n, s.fab.xfers = [{ x with arm := some id, got := List.range n }] → s.cmd id = some r → seq.toNat = aget 0 s.fab.recvSeq port →
      (∀ q ∈ s.fab.reqs, q.cmd ≠ some id) →
      ∃ t, exec (.completionNotice port rq seq n) s = .next t ∧ t.cmd id = none ∧ t.fab.xfers = [] ∧
        (r.nq = false → (t.ctx r.who).rqGet 2 = arrive id (ECmdRec.record { r with units := n } r.status) ((s.ctx r.who).rqGet 2)) ∧
        aget 0 t.fab.recvSeq port = (seq.toNat + 1) % 2 ^ 32 ∧ t.fab.out.head? = some (2, port, seq.toNat, 0, 0))) ∧
  (∀ (port : Nat) (seq : BitVec 32) (ok : Bool) (ask : Option (Nat × Nat)) (s : State),
    ((ok = true ∧ (port, seq.toNat) ∉ s.fab.ctlSeen) →
      let u := { s with fab := { s.fab with
        ctlSeen := (port, seq.toNat) :: s.fab.ctlSeen, resends := s.fab.resends ++ (ask.map fun a => (port, a.1, a.2)).toList } }
      ((∀ a, ask = some a → ∀ c ∈ s.fab.carried, ¬ (c.1 = port ∧ c.2.1 = a.1 ∧ c.2.2.1 = a.2)) →
        exec (.controlFlit port seq ok ask) s = .next u) ∧
      (∀ a p l, ask = some a → s.fab.carried = (port, a.1, a.2, p) :: l →
        ∃ t, exec (.controlFlit port seq ok ask) s = .next t ∧ t.fab.resends = u.fab.resends ∧ t.mem = s.mem ∧ t.ctxs = s.ctxs ∧
          t.pair p = { s.pair p with errc := satInc (s.pair p).errc, errs := (s.pair p).errs + 1, idle := 0 } ∧
          ∀ k, k ≠ p → t.pair k = s.pair k)) ∧
    ((ok = false ∨ (port, seq.toNat) ∈ s.fab.ctlSeen) → exec (.controlFlit port seq ok ask) s = .next s)) ∧
  (∀ (p : Nat) (s : State),
    let due (c : CtlFlit) : Prop := c.path = p ∧ p < 128 ∧ s.fab.ctlto.toNat * 1024 ≤ c.age
    ((∀ c ∈ s.fab.ctls, ¬ due c) → exec (.controlTimeout p) s = .next s) ∧
    (∀ a c b, s.fab.ctls = a ++ c :: b → (∀ d ∈ a, ¬ due d) → due c → ∃ t, exec (.controlTimeout p) s = .next t ∧
      t.fab.ctls = s.fab.ctls.map (fun d => if d = c then { c with path := 128, age := 0, tries := c.tries + 1 } else d) ∧
      (t.pair p).tries = Nat.max (s.pair p).tries (c.tries + 1) ∧ t.mem = s.mem ∧ t.ctxs = s.ctxs)) ∧
  (∀ (c : CtlFlit) (p q : Nat) (ps : List Nat) (s : State), s.fab.ctls = [c] → c.path = 128 →
    let t := s.sendControls c.port (p :: q :: ps)
    let e := (c.kind, c.port, c.xseq, c.flit, (0 : BitVec 512))
    t.fab.ctls = [{ c with path := p, age := 0 }] ∧ t.fab.out = e :: e :: s.fab.out)

/-- Under a true guard each load takes the stop of the page that gives its element size, or resolves its elements and stops
as its access does, or asks its drawers for their units and waits, or takes the data-error trap of a bad unit, or puts
one value in flight: without conversion the packed elements in coordinate order, as memory or the context's own
withheld stores give them (a gather's off elements are zero), with no flag; with conversion each element, times its
block scale where the entry carries one, rounded once into the decode type, with the flags of all of them; ld.s with SX
fills the register above a negative integer element with ones. A tile load writes the T name, a vector load the V name,
ld.s its scalar, and a gather the second half of its pair, where only the bits of the elements moved are written (the
model's choice, log 22); its latency is that of log 5. An access to a missing frame stops in a fault (log 84). Nothing else
differs, except the identifiers given, R29's two-writer mark, and units that no key has written, which are under the
load's key from then on (log 7). (R57, R190,
R191, R192, R194, R195, R353, R364) -/
def Obligations.LoadsPutElementsInFlight : Prop :=
  ∀ (g : Guard) (rm : BitVec 3) (rg : BitVec 11) (sd : BitVec 6) (m : MemArg) (dt dc sx : Bool) (h : BitVec 2) (s : State),
    s.guard g = true →
    let who := s.cur.who
    let le := m.le.toNat
    let l := s.lay who le
    let c := s.memCoords m l
    let ty := decTy dt
    let tyS := decTyS dt
    let cell (ty : ETy) (a : Acc) (k : Nat) : Nat × BitVec 7 :=
      decodeTo ty a.fmt a.sfmt s.cur.ent.nbv rm.toNat (s.rb k) (s.elemBy who (a.elems.getD k ⟨0, 0, 0⟩))
        ((a.scales.getD k none).map (s.elemBy who))
    let plain (a : Acc) (v : Nat) (f : BitVec 7) : Prop := f = 0 ∧ v = packElems (dWidth a.fmt) (a.elems.map (s.elemBy who))
    let conv (a : Acc) (v : Nat) (f : BitVec 7) : Prop :=
      (∀ k, k < a.elems.length → elemAt v ty.width k = (cell ty a k).1 % 2 ^ ty.width) ∧
      flagsOf a.elems.length (fun _ => true) (cell ty a) f
    let what (a : Acc) (v : Nat) (f : BitVec 7) : Prop := (dc = false → plain a v f) ∧ (dc = true → conv a v f)
    let minus (a : Acc) : Prop := sx = true ∧ (dFmt a.fmt).int = true ∧
      ∃ m e, (dFmt a.fmt).decode s.cur.ent.nbv (s.elemBy who (a.elems.getD 0 ⟨0, 0, 0⟩)) = .fin true m e ∧ m ≠ 0
    let shT := accShape c 16384 (rowCount h) (if dc then some ty.width else none)
    let shV := accShape c 4096 1 (if dc then some ty.width else none)
    let idx (k : Nat) : Nat := elemAt (s.vreg .w rg) 16 k
    let on (w : Nat) : List Nat := (List.range (Nat.min 256 (4096 / w))).filter fun k => idx k != 0xFFFF
    let shG (w : Nat) : List (List Int) := (on w).map fun k => addDim c 0 (idx k : Int)
    s.Sized (.ldT g rm rg m dt dc h) le false shT (fun d =>
      s.Loads (.ldT g rm rg m dt dc h) (s.access who le false dc (shT (dWidth d))) (loadTicks l.space)
        (.win (s.cur.ent.off .t rg)) (ones 16384) 2048 what) ∧
    s.Sized (.ldV g rm rg m dt dc) le false shV (fun d =>
      s.Loads (.ldV g rm rg m dt dc) (s.access who le false dc (shV (dWidth d))) (loadTicks l.space)
        (.win (s.cur.ent.off .v rg)) (ones 4096) 512 what) ∧
    s.Loads (.ldS g rm sd m dt dc sx) (s.access who le false dc [c]) (loadTicks l.space) (.scalar sd.toNat) (ones 64) 0
      (fun a v f => (dc = false → plain a v f) ∧ (dc = true → a.elems.length = 1 → f = (cell tyS a 0).2 ∧
        v % 2 ^ tyS.width = (cell tyS a 0).1 % 2 ^ tyS.width ∧
        (minus a → v / 2 ^ tyS.width = (2 ^ 64 - 1) / 2 ^ tyS.width) ∧ (¬ minus a → v < 2 ^ tyS.width))) ∧
    s.Sized (.ldG g rg m) le false shG (fun d =>
      let w := dWidth d
      s.Loads (.ldG g rg m) (s.access who le false false (shG w)) (loadTicks l.space)
        (.win (s.cur.ent.off .w rg + 512)) (ones (Nat.min 256 (4096 / w) * w)) 512
        (fun a v f => f = 0 ∧ ∀ k, k < Nat.min 256 (4096 / w) → (idx k = 0xFFFF → elemAt v (dWidth a.fmt) k = 0) ∧
          (∀ (j : Nat) (e : Elem), (on w)[j]? = some k → a.elems[j]? = some e →
            elemAt v (dWidth a.fmt) k = s.elemBy who e % 2 ^ dWidth a.fmt)))

/-- Under a true guard, and for st.t in code that is not spliced, each store takes the stop of the page that gives its
element size, or resolves its elements and stops as its access does, takes the layout-bounds trap where it converts
onto a page with block scales, takes the trap of R36 when a 129th entry would be needed, or withholds every element in
order under its unit, class and key (in a local space under the words of its bytes' places, two where it passes a
word's end): the element of the source register or, with conversion, its value rounded once into the page's format,
with the flags set in FSTAT. Memory, the other contexts and every register stay as they were. A firmware store into a
completion ring waits for the token of its queue's port and spends it, the one that a port keeps (log 64). An access to a
missing frame stops in a fault (log 84). A spliced tile store that the die suppresses withholds
nothing. (R32, R36, R57, R191, R192, R195, R266, R315) -/
def Obligations.StoresAreWithheld : Prop :=
  ∀ (g : Guard) (rm : BitVec 3) (rg : BitVec 11) (sk : BitVec 6) (m : MemArg) (dt dc : Bool) (h : BitVec 2) (s : State),
    s.guard g = true →
    let who := s.cur.who
    let le := m.le.toNat
    let c := s.memCoords m (s.lay who le)
    let ty := decTy dt
    let out (ty : ETy) (x src : Nat) (a : Acc) (k : Nat) : Nat × BitVec 7 :=
      if dc then (dFmt a.fmt).round s.cur.ent.nbv rm.toNat (s.rb k) ((etFmt ty).decode true (elemAt src x k)) else (elemAt src x k, 0)
    let shT := accShape c 16384 (rowCount h) (if dc then some ty.width else none)
    let shV := accShape c 4096 1 (if dc then some ty.width else none)
    let idx (k : Nat) : Nat := elemAt (s.vreg .w rg) 16 k
    let on (w : Nat) : List Nat := (List.range (Nat.min 256 (4096 / w))).filter fun k => idx k != 0xFFFF
    let shG (w : Nat) : List (List Int) := (on w).map fun k => addDim c 0 (idx k : Int)
    (s.me.splId = none → s.Sized (.stT g rm rg m dt dc h) le true shT fun d =>
      let x := if dc then ty.width else dWidth d
      s.Stores (.stT g rm rg m dt dc h) m dc (s.access who le true false (shT (dWidth d)))
        (fun a k => (out ty x (s.vreg .t rg) a k).1) (fun a k => (out ty x (s.vreg .t rg) a k).2)) ∧
    (s.Sized (.stV g rm rg m dt dc) le true shV fun d =>
      let x := if dc then ty.width else dWidth d
      s.Stores (.stV g rm rg m dt dc) m dc (s.access who le true false (shV (dWidth d)))
        (fun a k => (out ty x (s.vreg .v rg) a k).1) (fun a k => (out ty x (s.vreg .v rg) a k).2)) ∧
    (let x := if dc then (decTyS dt).width else 64
     s.Stores (.stS g rm sk m dt dc) m dc (s.access who le true false [c])
      (fun a k => (out (decTyS dt) x (s.sreg sk).toNat a k).1) (fun a k => (out (decTyS dt) x (s.sreg sk).toNat a k).2)) ∧
    (s.Sized (.stSc g rg m) le true shG fun d =>
      let w := dWidth d
      s.Stores (.stSc g rg m) m false (s.access who le true false (shG w))
        (fun _ j => elemAt (s.vreg .w rg >>> 4096) w ((on w).getD j 0)) (fun _ _ => 0)) ∧
    (s.suppressed = true → exec (.stT g rm rg m dt dc h) s = .next (s.noteStore m))

/-- Under a true guard: a tch whose registers end at s63, whose extents are positive and whose box translates, no window
sparing it, opens a window on the bytes of that box (none in a local space) for 256 bundles, with the pages it
translated, under the lowest free number, and with 32 open in the place of the one with the fewest bundles left, the
lower number first; a box that does not translate takes its trap; a tch with an extent of zero or less does nothing;
one whose registers pass s63 takes the illegal-layout trap. ld.sp puts 512 or 8 bytes of the context's
spill memory, as the context sees them, in flight to its register. st.sp withholds its bytes under class 16 where the buffer has room, in eight units or in one. (R37, R48, R196, R197) -/
def Obligations.TouchWindowsAndSpill : Prop :=
  ∀ (g : Guard) (le : BitVec 8) (cb : BitVec 6) (imm : BitVec 16) (w : Bool) (rg : BitVec 11) (off : BitVec 14) (s : State),
    s.guard g = true →
    let who := s.cur.who
    let l := s.lay who le.toNat
    let ext := (List.range l.rank).map fun k => (s.me.ctl.sget (cb.toNat + l.rank + k)).toInt
    let base := spillBase who + off.toNat
    let holds (v : WEnt → Prop) (i : Instr) (n : Nat) : Prop := ∀ es : List WEnt, es.length = n → (∀ e ∈ es, v e) →
      (es.foldl (fun h e => holdEntry e h) s.me.held).length ≤ 128 →
      (es.map (·.unit) = (List.range n).map fun k => base / 64 + k) → es.Pairwise (fun a b => a.unit < b.unit) →
      ∃ t, exec i s = .next t ∧ s.Becomes t who { s.me with held := es.foldl (fun h e => holdEntry e h) s.me.held }
    (63 < cb.toNat + 2 * l.rank - 1 → exec (.tch g le cb imm w) s = .next (s.trap (tLayout le.toNat))) ∧
    (cb.toNat + 2 * l.rank - 1 ≤ 63 → (∃ e ∈ ext, e ≤ 0) → exec (.tch g le cb imm w) s = .next s) ∧
    (let org := s.coords who cb.toNat l.rank imm.toInt
     let cs := boxCoords org (ext.map Int.toNat)
     let found := (s.modMe fun c => { c with wins := [] }).access1 who le.toNat w false cs
     let win (a : Acc) (n : Nat) : TWin :=
       { n := n, w := w, left := 256, pages := a.pages, le := le.toNat, org := org, ext := ext.map Int.toNat,
         bytes := if l.isMem then (l.bits (s.memOrigin (coreOf who) l w) (dWidth a.fmt) cs).map fun b => ((b / 8).toNat, (dWidth a.fmt + 7) / 8)
                  else [] }
     cb.toNat + 2 * l.rank - 1 ≤ 63 → (∀ e ∈ ext, 0 < e) →
      (∀ a, found = .ok a → (∃ n, n < 32 ∧ ∀ x ∈ s.me.wins, x.n ≠ n) →
        ∃ t n, exec (.tch g le cb imm w) s = .next t ∧ n < 32 ∧ (∀ x ∈ s.me.wins, x.n ≠ n) ∧
          (∀ k, k < n → ∃ x ∈ s.me.wins, x.n = k) ∧ s.Becomes t who { s.me with wins := s.me.wins ++ [win a n] }) ∧
      (∀ a y, found = .ok a → (∀ k, k < 32 → ∃ x ∈ s.me.wins, x.n = k) → y ∈ s.me.wins →
        (∀ x ∈ s.me.wins, y.left < x.left ∨ (y.left = x.left ∧ y.n ≤ x.n)) →
        ∃ t, exec (.tch g le cb imm w) s = .next t ∧ (∀ v, v ≠ who → t.ctx v = s.ctx v) ∧ t.mem = s.mem ∧
          t.ctx who = { s.me with wins := s.me.wins.filter (fun x => x.n != y.n) ++ [win a y.n] }) ∧
      (∀ x, found = .error (.trap x) → exec (.tch g le cb imm w) s = .next (s.trap x))) ∧
    (∃ t, exec (.ldSp g true rg off) s = .next t ∧
      s.Issued t s.me.ctl [s.result s.ids 1 (.win (s.cur.ent.off .v rg)) (s.spillRead off.toNat 512) (ones 4096) 512]) ∧
    (∃ t, exec (.ldSp g false rg off) s = .next t ∧
      s.Issued t s.me.ctl [s.result s.ids 1 (.scalar (rg.toNat % 64)) (s.spillRead off.toNat 8 % 2 ^ 64)]) ∧
    holds (fun e => e = ⟨16, e.unit, ones 512, elemAt (s.vreg .v rg) 512 (e.unit - base / 64), 0, none, 0⟩)
      (.stSp g true rg off) 8 ∧
    holds (fun e => e = ⟨16, e.unit, ones 64 <<< (8 * (base % 64)), (s.sreg (rg.extractLsb' 0 6)).toNat <<< (8 * (base % 64)), 0, none, 0⟩)
      (.stSp g false rg off) 1

/-- Under a true guard, with its element outside the drawers, of a kind that an amo takes and free of error, and no own
access of its unit open, an amo writes the new value of its step to the element and nothing else to memory: sum, signed
or unsigned minimum and maximum, exchange, compare and exchange, and, or. With a return asked for and room in q0, one
entry with the old value, sign-extended where the kind is signed, stands behind the others of q0; without one, no queue
changes. With q0 full it stays in its queue. An amo on a drawer's element changes no memory: its step joins the requests
of that drawer, ungranted, and its q0 entry waits; when the request may perform, the step is made in memory as above and
the entry has arrived with the old value. (R49, R198, R199, R364) -/
def Obligations.AtomicStepsPerform : Prop :=
  ∀ (g : Guard) (op sc : BitVec 3) (nq : Bool) (sk : BitVec 6) (m : MemArg) (a : Acc) (e : Elem) (s : State),
    s.guard g = true →
    let who := s.cur.who
    let step := exec (.amo g op nq sc sk m) s
    let makes (op w : Nat) (sgn : Prop) [Decidable sgn] (old v v2 new : Nat) : Prop :=
      let num (x : Nat) : Int := if sgn ∧ 2 ^ w / 2 ≤ x then (x : Int) - 2 ^ w else x
      (op = 0 → new = (old + v) % 2 ^ w) ∧ (op = 1 → new = if num v < num old then v else old) ∧
      (op = 2 → new = if num old < num v then v else old) ∧ (op = 3 → new = v) ∧
      (op = 4 → new = if old = v then v2 else old) ∧ (op = 5 → new = old &&& v) ∧ (op = 6 → new = old ||| v)
    let back (w : Nat) (sgn : Prop) [Decidable sgn] (old : Nat) : Nat := if sgn ∧ 2 ^ (w - 1) ≤ old then (old + (2 ^ 64 - 2 ^ w)) % 2 ^ 64 else old
    (nq = false → 16 ≤ (s.me.rqGet 0).length → step = .next s.unissue) ∧
    (s.access who m.le.toNat true false [s.memCoords m (s.lay who m.le.toNat)] = .ok a → a.elems = [e] → amoKind a.fmt = true →
      (∀ u ∈ e.units, u ∉ s.bad) → (nq = false → (s.me.rqGet 0).length < 16) → (∀ x ∈ s.me.rqGet 0, x.id ≠ s.ids) →
      let old := s.elem e
      let v2 := s.me.ctl.sget (sk.toNat + 1)
      let sgn := dKind a.fmt = 6 ∨ dKind a.fmt = 7
      (drawerOf (e.addr / 8) = none → (∀ q ∈ s.fab.reqs, q.open who = true → q.cmd = none → q.unit ∉ e.units) →
        ∃ t new, step = .next t ∧ t.mem = (s.putElem e new).mem ∧
          makes op.toNat e.w sgn old ((s.sreg sk).toNat % 2 ^ e.w) (v2.toNat % 2 ^ e.w) new ∧ (nq = true → t.ctxs = s.ctxs) ∧
          (nq = false → (t.ctx who).rqGet 0 =
            s.me.rqGet 0 ++ [{ id := s.ids, arrived := true, data := back e.w sgn old, seq := s.cur.ent.seq }])) ∧
      (∀ d, drawerOf (e.addr / 8) = some d → ∃ t q b, step = .next t ∧ t.mem = s.mem ∧ t.fab.reqs = s.fab.reqs ++ [q] ∧
        q.drawer = d ∧ q.kind = 2 ∧ q.left = none ∧ q.done = false ∧ q.dropped = false ∧ q.who = who ∧ q.key = e.key ∧
        some q.unit = e.units.head? ∧ q.cls = memCls m (s.lay who m.le.toNat) ∧ q.amo = some b ∧ b.addr = e.addr ∧ b.w = e.w ∧
        b.op = op.toNat ∧ b.v = s.sreg sk ∧ b.v2 = v2 ∧ (b.sgn = true ↔ sgn) ∧ b.bar = 0 ∧
        (nq = true → b.qid = none ∧ t.ctxs = s.ctxs) ∧
        (nq = false → b.qid = some s.ids ∧ (t.ctx who).rqGet 0 = s.me.rqGet 0 ++ [{ id := s.ids, seq := s.cur.ent.seq }]))) ∧
    (∀ (id : Nat) (r : DReq) (b : AmoOp), s.req id = some r → r.kind = 2 → r.amo = some b → b.bar = 0 → s.mayPerform r = true →
      let f : Elem := ⟨b.addr, b.w, r.key⟩
      let old := s.elem f
      ∃ t new, exec (.drawerWritePerforms id) s = .next t ∧ t.req id = none ∧ t.mem = (s.putElem f new).mem ∧
        makes b.op b.w (b.sgn = true) old (b.v.toNat % 2 ^ b.w) (b.v2.toNat % 2 ^ b.w) new ∧
        (b.qid = none → t.ctxs = s.ctxs) ∧
        (∀ k, b.qid = some k → (t.ctx r.who).rqGet 0 = arrive k (back b.w (b.sgn = true) old) ((s.ctx r.who).rqGet 0)))

/-- While its ring is enabled and was filled, as the tick began, by more slots than firings of the tick have taken, rpop takes
the oldest one whatever its guard, and under a true guard its bytes are in flight to the register of its size; rsel
does so with its first ring, or with its second when only that one allows it, and puts in flight which; rpeek puts the
bytes of the slot that was oldest as the tick began and a true predicate in flight and takes nothing, or zero and a
false one when the ring was empty then. While its ring is enabled, was free by more slots than the tick's firings have
taken and no exf holds a slot of it, rpush writes the register (zero under a false guard) to the first bytes of the
slot at the tail and takes that slot. The ring's counters move at once and its credit is withheld. Otherwise each of
the taking and pushing forms blocks its context and leaves the rings alone. (R63, R65, R66, R200, R201, R202, R208) -/
def Obligations.RingInstructions : Prop :=
  ∀ (g : Guard) (z : BitVec 2) (rg : BitVec 11) (pd : BitVec 4) (rn rn2 : BitVec 6) (s : State),
    let core := coreOf s.cur.who
    let vw := ringView z
    let reg := s.cur.ent.off vw rg
    let r (n : BitVec 6) : Ring := s.ring core n.toNat
    let pops (n : BitVec 6) : Prop := (r n).en = true ∧ 1 + (r n).tPop ≤ (r n).old.filled
    let pushes (n : BitVec 6) : Prop := (r n).en = true ∧ 1 + (r n).tPush ≤ (r n).old.free ∧ (r n).old.exf = false ∧ (r n).exf = none
    let bytes (n : BitVec 6) : Nat := s.ownBytes (ringSlot core (r n) (r n).head) vw.size
    let taken (n : BitVec 6) : State := s.modRing core n.toNat fun q => (q.pop 1 true).credit 1 0 true
    let lat (n : BitVec 6) : Nat := if (r n).buf = 3 then 16 else 4
    let val (u : State) (id n v : Nat) : Fly := u.result id n (.win reg) v (ones (8 * vw.size)) vw.size
    let blocks (i : Instr) : Prop := ∃ b, exec i s = .next (s.block b) ∧ (s.block b).mem = s.mem ∧ ∀ k, (s.block b).ring core k = s.ring core k
    (pops rn → ∃ t, exec (.rpop g z rg rn) s = .next t ∧
      (s.guard g = true → (taken rn).Issued t s.me.ctl [val (taken rn) s.ids (lat rn) (bytes rn)]) ∧ (s.guard g = false → t = taken rn)) ∧
    (¬ pops rn → blocks (.rpop g z rg rn)) ∧
    (∀ n : BitVec 6, (pops rn ∧ n = rn ∨ ¬ pops rn ∧ pops rn2 ∧ n = rn2) →
      ∃ t, exec (.rsel g z rg pd rn rn2) s = .next t ∧ (s.guard g = false → t = taken n) ∧
        (s.guard g = true → ∃ b : Bool, (b = true ↔ pops rn) ∧ (taken n).Issued t s.me.ctl [val (taken n) s.ids (lat n) (bytes n),
          (taken n).result (s.ids + 1) (lat n) (.pred pd.toNat) b.toNat])) ∧
    (¬ pops rn → ¬ pops rn2 → blocks (.rsel g z rg pd rn rn2)) ∧
    (s.guard g = true → ∃ t, exec (.rpeek g z rg pd rn) s = .next t ∧ s.Issued t s.me.ctl
      [val s s.ids (lat rn) (if (r rn).old.filled = 0 then 0 else s.ownBytes (ringSlot core (r rn) (r rn).old.head) vw.size),
       s.result (s.ids + 1) (lat rn) (.pred pd.toNat) (decide (1 ≤ (r rn).old.filled)).toNat]) ∧
    (pushes rn → exec (.rpush g z rn rg) s = .next
      ((s.putBytes (ringSlot core (r rn) (r rn).tail) vw.size (if s.guard g then s.vreg vw rg else 0)).modRing core rn.toNat
        fun q => (q.push true).credit 0 1 true)) ∧
    (¬ pushes rn → blocks (.rpush g z rn rg))

/-- Under a true guard: a fence issues with no effect once its mask is zero or everything before it in the masked classes
is ordered, and stays in its queue until then. sig and bar stay in their queue until everything before them is
ordered. Then, with a flag of kind s64 or n64 outside the drawers, sig adds s(SA + RANK) to it modulo 2^64, or stores
it, at once and changes nothing else; bar adds 1, and its context waits for the next multiple of the party count above
the counter it found, a signed one where the flag is signed. On a drawer's flag the step of sig and bar joins the
drawer's requests and memory is as it was; when a bar's step performs, its context waits for that target. A wait whose
condition (signed difference not negative, equal, unequal) the flag meets issues with no effect; otherwise, and on a
drawer's flag, where a read of its unit is asked for, it stays in its queue and the context waits. A flag's unit that no
key has written is under the wait's key from then on (log 7). (R212, R213, R214, R216, R364) -/
def Obligations.FencesFlagsAndBarriers : Prop :=
  ∀ (g : Guard) (mask : BitVec 16) (a : YArg) (c : BitVec 2) (e : Elem) (cls : Nat) (sg : Bool) (s : State),
    s.guard g = true → s.guard a.g = true →
    let who := s.cur.who
    let flag : Elem := ⟨e.addr, 64, e.key⟩
    let v := s.flagArg a
    let p := Nat.max (v.toNat % 2 ^ 32) 1
    let f := s.flagValue who e.addr e.key
    let met := c = 0 ∧ 0 ≤ (f - v).toInt ∨ c = 1 ∧ f = v ∨ c = 2 ∧ f ≠ v
    (mask = 0 ∨ s.fenced mask = true → exec (.fence g mask) s = .next s) ∧
    (mask ≠ 0 → s.fenced mask = false → exec (.fence g mask) s = .next s.unissue) ∧
    (s.released = false → exec (.sig a false) s = .next s.unissue ∧ exec (.sig a true) s = .next s.unissue ∧
      exec (.bar a) s = .next s.unissue) ∧
    let next (sg : Bool) (old p : Nat) : Word := BitVec.ofInt 64 (((if sg then (BitVec.ofNat 64 old).toInt else (old : Int)) / p + 1) * p)
    let asks (i : Instr) (d : Nat) (b : AmoOp) (w : Option Hold) : Prop := ∃ t q, exec i s = .next t ∧ t.mem = s.mem ∧
      t.fab.reqs = s.fab.reqs ++ [q] ∧ q.drawer = d ∧ q.kind = 2 ∧ q.left = none ∧ q.done = false ∧ q.dropped = false ∧ q.who = who ∧
      q.cls = cls ∧ q.key = e.key ∧ some q.unit = flag.units.head? ∧ q.amo = some b ∧ t.ctx who = { s.me with wait := w }
    (s.released = true → s.flag a true = .ok (e, cls, sg) → ∀ d, drawerOf (e.addr / 8) = some d →
      asks (.sig a false) d { addr := e.addr, w := 64, op := 0, v := v } s.me.wait ∧
      asks (.sig a true) d { addr := e.addr, w := 64, op := 3, v := v } s.me.wait ∧
      asks (.bar a) d { addr := e.addr, w := 64, op := 0, v := 1, sgn := sg, bar := p } (some (.bar e.addr e.key cls [] none))) ∧
    (∀ (id : Nat) (r : DReq) (b : AmoOp) (g : List Nat), s.req id = some r → r.kind = 2 → r.amo = some b → b.bar ≠ 0 → b.op = 0 → b.w = 64 →
      b.v = 1 → b.qid = none → s.mayPerform r = true → (s.ctx r.who).wait = some (.bar b.addr r.key cls g none) →
      let f : Elem := ⟨b.addr, 64, r.key⟩
      ∃ t, exec (.drawerWritePerforms id) s = .next t ∧ t.req id = none ∧ t.mem = (s.putElem f ((s.elem f + 1) % 2 ^ 64)).mem ∧
        t.ctx r.who = { s.ctx r.who with wait := some (.bar b.addr r.key cls g (some (next b.sgn (s.elem f) b.bar))) }) ∧
    (s.released = true → s.flag a true = .ok (e, cls, sg) → drawerOf (e.addr / 8) = none →
      exec (.sig a false) s = .next (s.putElem flag ((s.elem flag + v.toNat) % 2 ^ 64)) ∧
      exec (.sig a true) s = .next (s.putElem flag v.toNat) ∧
      ∃ t, exec (.bar a) s = .next t ∧ t.mem = (s.putElem flag ((s.elem flag + 1) % 2 ^ 64)).mem ∧
        t.ctx who = { s.me with wait := some (.bar e.addr e.key cls [] (some (next sg (s.elem flag) p))) }) ∧
    (s.flag a false = .ok (e, cls, sg) → drawerOf (e.addr / 8) = none → c ≠ 3 →
      (met → exec (.wait a c) s = .next (s.claim [e])) ∧
      (¬ met → ∃ t, exec (.wait a c) s = .next t ∧
        (s.claim [e]).Becomes t who { s.unissue.me with wait := some (.wait e.addr e.key cls [] c.toNat v) })) ∧
    (s.flag a false = .ok (e, cls, sg) → ∀ d, drawerOf (e.addr / 8) = some d → ∃ t q, exec (.wait a c) s = .next t ∧ t.mem = s.mem ∧
      t.fab.reqs = s.fab.reqs ++ [q] ∧ q.drawer = d ∧ q.kind = 0 ∧ q.left = none ∧ q.done = false ∧ q.who = who ∧ q.cls = cls ∧
      q.unit = e.addr / 512 ∧ t.ctx who = { s.unissue.me with wait := some (.wait e.addr e.key cls [q.id] c.toNat v) })

/-- Under a true guard: rwait issues with no effect when the ring had K + 1 slots filled, or free, as the tick began, and
otherwise blocks its context. yield ends the quantum when the core has another instance to run, and does nothing
otherwise. sleep holds the context for the low 32 bits of the register in ticks, none for zero. pwr.acq takes a level up
to the instance's limit: at once when it lowers, else the context waits behind the die's other requests, but for those
of the same tick from contexts after it; a level above the limit traps with kind 16 and the level. pwr.rel asks for the partition's default level in the same way. realign of a lit pair that
the partition owns holds the context for up to 64 µs; another pair traps with kind 17, cause 1, a pair that is not lit
with cause 3. (R217, R218, R219, R221) -/
def Obligations.RingWaitsQuantaSleepPower : Prop :=
  ∀ (g : Guard) (free : Bool) (k : BitVec 4) (b sa : BitVec 6) (s : State), s.guard g = true →
    let who := s.cur.who
    let r := s.ring (coreOf who) b.toNat
    let have' := if free then r.old.free else r.old.filled
    let x := (s.sreg sa).toNat
    let deflvl := (s.part (s.partOf who)).ctl.toNat / 2 ^ 24 % 256
    let asks (i : Instr) (l : Nat) : Prop :=
      (l ≤ s.me.level → ∃ t, exec i s = .next t ∧ s.Becomes t who { s.me with level := l }) ∧
      (s.me.level < l → ∃ t, exec i s = .next t ∧ t.ctx who = { s.me with wait := some (.power l) } ∧
        (∀ w, w ≠ who → t.ctx w = s.ctx w) ∧
        ∃ a b, (s.die (dieOfWho who)).pwrq = a ++ b ∧
          t.die (dieOfWho who) = { s.die (dieOfWho who) with pwrq := a ++ (who, l, s.cyc) :: b } ∧
          (∀ x ∈ a, ¬ (x.2.2 = s.cyc ∧ who < x.1)) ∧ ∀ x, b.head? = some x → x.2.2 = s.cyc ∧ who < x.1)
    (k.toNat + 1 ≤ have' → exec (.rwait g free k b) s = .next s) ∧
    (have' < k.toNat + 1 →
      exec (.rwait g free k b) s = .next (s.block (.count (coreOf who * 64 + b.toNat) free (k.toNat + 1)))) ∧
    (s.otherReady who 0 = true → ∃ t, exec (.yield g) s = .next t ∧ s.Becomes t who { s.me with preReq := true }) ∧
    (s.otherReady who 0 = false → exec (.yield g) s = .next s) ∧
    (x % 2 ^ 32 = 0 → exec (.sleep g sa) s = .next s) ∧
    (x % 2 ^ 32 ≠ 0 → ∃ t, exec (.sleep g sa) s = .next t ∧ s.Becomes t who { s.me with wait := some (.sleep (x % 2 ^ 32)) }) ∧
    (∀ i, s.me.inst = some i →
      (i.limit < x % 256 → exec (.pwrAcq g sa) s = .next (s.trap ⟨16, 0, BitVec.ofNat 64 (x % 256)⟩)) ∧
      (x % 256 ≤ i.limit → asks (.pwrAcq g sa) (x % 256))) ∧
    asks (.pwrRel g) deflvl ∧
    (128 ≤ x % 256 ∨ s.ownsPair (s.partOf who) (x % 256) = false →
      exec (.realign g sa) s = .next (s.trap ⟨17, 1, BitVec.ofNat 64 (x % 256)⟩)) ∧
    (x % 256 < 128 → s.ownsPair (s.partOf who) (x % 256) = true →
      let st := (s.pair (x % 256)).state
      (st ≠ 2 → st ≠ 3 → st ≠ 4 → exec (.realign g sa) s = .next (s.trap ⟨17, 3, BitVec.ofNat 64 (x % 256)⟩)) ∧
      (st = 2 ∨ st = 3 ∨ st = 4 → ∃ t, exec (.realign g sa) s = .next t ∧
        s.Becomes t who { s.me with wait := some (.realign (x % 256) (64 * s.mhz) s.cur.ent.pc) }))

/-- The event of a wait that the flag meets, a drawer's once the read asked for is answered, takes the wait off its queue and
ends the hold; an unmet one changes nothing, but that a drawer's flag is asked for anew. A barrier's hold ends so when
the counter has reached its target. A sleep's hold ends with its last
tick, not before. The oldest raise of a die whose context waits for it is granted as soon as the die's and the
partition's sums allow the difference: the context has the level and no hold, and the request leaves the queue. A
realignment of a lit pair within its 64 µs leaves an error of at most 1 ns (which one is free) in PHERR, steps the
package end's counter for a drawer's pair and the far end's for a peer's (or the package end's, when the peer realigns
at once and its count is the larger, counts compared as a signed difference, which is the model's reading, log 61), and ends the hold; after the 64 µs, or with
the pair not lit, the context takes the link trap of cause 3 at the bundle of its realign. (R214, R216, R218, R221, R382) -/
def Obligations.EventsEndHolds : Prop :=
  ∀ (who addr key cls cond die l n left : Nat) (v pc : Word) (r : List (Nat × Nat × Nat)) (s : State),
    let c := s.ctx who
    let f := s.flagValue who addr key
    let met := cond = 0 ∧ 0 ≤ (f - v).toInt ∨ cond = 1 ∧ f = v ∨ cond = 2 ∧ f ≠ v
    let lit := (s.pair n).state = 2 ∨ (s.pair n).state = 3 ∨ (s.pair n).state = 4
    let free (i : Instr) (q : Ctx) : Prop := ∃ t, exec i s = .next t ∧ s.Becomes t who q
    (c.wait = some (.wait addr key cls [] cond v) → cond < 3 →
      (met → free (.waitSatisfied who) { c with queues := aset c.queues Slot.y.num (c.q .y).tail, wait := none }) ∧
      (¬ met → exec (.waitSatisfied who) s = .next s)) ∧
    (c.wait = some (.bar addr key cls [] (some v)) → drawerOf (addr / 8) = none →
      (0 ≤ (f - v).toInt → free (.barrierPass who) { c with wait := none }) ∧
      ((f - v).toInt < 0 → exec (.barrierPass who) s = .next s)) ∧
    (∀ g d k, drawerOf (addr / 8) = some d → s.answered (k :: g) = true →
      let again (i : Instr) (h : List Nat → Hold) : Prop := ∃ t q l, exec i s = .next t ∧ t.fab.reqs = l ++ [q] ∧ q.kind = 0 ∧ q.drawer = d ∧
        q.unit = addr / 512 ∧ q.who = who ∧ q.cls = cls ∧ q.done = false ∧ q.left = none ∧ t.ctx who = { c with wait := some (h [q.id]) } ∧
        t.mem = s.mem
      let ends (i : Instr) (q : Ctx) : Prop := ∃ t, exec i s = .next t ∧ t.ctx who = q ∧ t.mem = s.mem ∧ ∀ w, w ≠ who → t.ctx w = s.ctx w
      (c.wait = some (.wait addr key cls (k :: g) cond v) → cond < 3 →
        (met → ends (.waitSatisfied who) { c with queues := aset c.queues Slot.y.num (c.q .y).tail, wait := none }) ∧
        (¬ met → again (.waitSatisfied who) fun g => .wait addr key cls g cond v)) ∧
      (c.wait = some (.bar addr key cls (k :: g) (some v)) →
        (0 ≤ (f - v).toInt → ends (.barrierPass who) { c with wait := none }) ∧
        ((f - v).toInt < 0 → again (.barrierPass who) fun g => .bar addr key cls g (some v)))) ∧
    (c.wait = some (.sleep left) →
      (left = 0 → free (.sleepExpiry who) { c with wait := none }) ∧ (0 < left → exec (.sleepExpiry who) s = .next s)) ∧
    (∀ at', (s.die die).pwrq = (who, l, at') :: r → c.wait = some (.power l) → c.susp = false →
      s.mayGrant die (s.partOf who) (l - c.level) = true →
      ∃ t, exec (.powerGrant die) s = .next t ∧ t.ctx who = { c with level := l, wait := none } ∧
        t.die die = { s.die die with pwrq := r } ∧ t.mem = s.mem) ∧
    (c.wait = some (.realign n left pc) →
      (lit → left ≠ 0 → ∃ t, exec (.realignDone who) s = .next t ∧ t.ctx who = { c with wait := none } ∧
        ((t.pair n).pherr = 0 ∨ (t.pair n).pherr = 1 ∨ (t.pair n).pherr = -1) ∧
        (n < 64 → (t.pair n).far = (s.pair n).far) ∧ (64 ≤ n → (t.pair n).phase = (s.pair n).phase ∨
          (t.pair n).far = (s.pair n).far ∧ 0 < ((s.pair n).far - (s.pair n).phase).toInt) ∧ t.mem = s.mem) ∧
      (¬ lit ∨ left = 0 → exec (.realignTimeout who) s = .next (s.takeTrap who ⟨17, 3, BitVec.ofNat 64 n⟩ 7 pc)))

/-- Each operation takes its unit for its occupancy and, under a true guard, puts one register write in flight that writes
the on lanes and no other bit. On integer types a lane is the sum, difference, product, high half of the exact
product, product plus or minus the third source, absolute value or negation modulo 2^w, the smaller or the larger, or
the sum or difference clamped to the type's range, with ST when it clamps and no other flag. On float types sums,
differences, products and fused sums are the exact value rounded once, with its flags; vabs and vneg change the sign
bit alone, and vmin and vmax return the bits of an input (the other one's when one is a NaN, the canonical NaN when
both are), with no flag. (R82, R124, R138, R140, R144, R145, R146, R147) -/
def Obligations.VectorArithmetic : Prop :=
  ∀ (c : VC) (vd va vc : BitVec 11) (vb : VSrc) (s : State),
    let w := c.et.width
    let a (k : Nat) : Nat := elemAt (s.vreg .v va) w k
    let b := s.src w vb
    let ia (k : Nat) : Int := ival c.et (a k)
    let ib (k : Nat) : Int := ival c.et (b k)
    let iz (k : Nat) : Int := ival c.et (elemAt (s.vreg .v vc) w k)
    let fa (k : Nat) : FVal := dval c.et (a k)
    let fb (k : Nat) : FVal := dval c.et (b k)
    let fz (k : Nat) : FVal := dval c.et (elemAt (s.vreg .v vc) w k)
    let wrap (v : Nat → Int) (k : Nat) : Nat × BitVec 7 := ((v k % 2 ^ w).toNat, 0)
    let clamp (v : Nat → Int) (k : Nat) : Nat × BitVec 7 :=
      let lo : Int := if c.et.signed then -(2 ^ (w - 1)) else 0
      let hi : Int := if c.et.signed then 2 ^ (w - 1) - 1 else 2 ^ w - 1
      ((Max.max lo (Min.min hi (v k)) % 2 ^ w).toNat, if v k < lo ∨ hi < v k then fST else 0)
    let once (x : Nat → FVal × BitVec 7) (k : Nat) : Nat × BitVec 7 := s.rnd c.et c.rm k 0 (x k)
    let ext (larger : Bool) (k : Nat) : Nat × BitVec 7 :=
      (if (fa k).isNaN && (fb k).isNaN then (etFmt c.et).nanCode else if (fa k).isNaN then b k else if (fb k).isNaN then a k
       else if below (fa k) (fb k) != larger then a k else b k, 0)
    let op (i : Instr) (lat occ : Nat) (f : Nat → Nat × BitVec 7) : Prop := s.LaneOp i c lat occ .v vd w (lanes w) f
    (c.et.isI = true →
      op (.vadd c vd va vb) 2 1 (wrap fun k => ia k + ib k) ∧ op (.vsub c vd va vb) 2 1 (wrap fun k => ia k - ib k) ∧
      op (.vmul c vd va vb) 3 1 (wrap fun k => ia k * ib k) ∧ op (.vmulh c vd va vb) 3 1 (wrap fun k => ia k * ib k / 2 ^ w) ∧
      op (.vfma c vd va vb vc) 3 1 (wrap fun k => ia k * ib k + iz k) ∧
      op (.vfms c vd va vb vc) 3 1 (wrap fun k => ia k * ib k - iz k) ∧
      op (.vabs c vd va) 2 1 (wrap fun k => (ia k).natAbs) ∧ op (.vneg c vd va) 2 1 (wrap fun k => -ia k) ∧
      op (.vmin c vd va vb) 2 1 (fun k => (if ia k < ib k then a k else b k, 0)) ∧
      op (.vmax c vd va vb) 2 1 (fun k => (if ia k < ib k then b k else a k, 0)) ∧
      op (.vaddsat c vd va vb) 2 1 (clamp fun k => ia k + ib k) ∧ op (.vsubsat c vd va vb) 2 1 (clamp fun k => ia k - ib k)) ∧
    (c.et.isI = false →
      let lat := if c.et = .fp64 then 6 else 4
      let occ := if c.et = .fp64 then 2 else 1
      op (.vadd c vd va vb) lat occ (once fun k => (fa k).add (c.rm == 2) (fb k)) ∧
      op (.vsub c vd va vb) lat occ (once fun k => (fa k).add (c.rm == 2) (fb k).neg) ∧
      op (.vmul c vd va vb) lat occ (once fun k => (fa k).mul (fb k)) ∧
      op (.vfma c vd va vb vc) lat occ (once fun k => FVal.fma (c.rm == 2) (fa k) (fb k) (fz k)) ∧
      op (.vfms c vd va vb vc) lat occ (once fun k => FVal.fma (c.rm == 2) (fa k) (fb k) (fz k).neg)) ∧
    (c.et.isF = true →
      op (.vabs c vd va) 4 1 (fun k => (a k % 2 ^ (w - 1), 0)) ∧ op (.vneg c vd va) 4 1 (fun k => (a k ^^^ 2 ^ (w - 1), 0)) ∧
      op (.vmin c vd va vb) 4 1 (ext false) ∧ op (.vmax c vd va vb) 4 1 (ext true))

/-- Each operation takes its unit for its occupancy and, under a true guard, puts one register write in flight that writes
the on lanes and no other bit, with no flag: the bitwise operations; shifts by the whole amount, a lane of VB or all
64 bits of the scalar, to zero or sign bits from the width on; the lane that the mask bit selects; a copy; the
immediate extended by the type's sign; the scalar's low bits, a named lane, a rotation, the scalar plus the lane
number, all ones or zero by a mask's bit; the lane an index names or zero; the transpose, the interleaving and the
separation of two registers' lanes. (R138, R140, R148, R150, R163, R164, R165, R169, R170, R172) -/
def Obligations.VectorBitsMovesPermutations : Prop :=
  ∀ (c : VC) (vd va vbr : BitVec 11) (vb : VSrc) (ss : BitVec 6) (m : BitVec 3) (imm : BitVec 32) (s : State),
    let w := c.et.width
    let n := lanes w
    let a (k : Nat) : Nat := elemAt (s.vreg .v va) w k
    let br (k : Nat) : Nat := elemAt (s.vreg .v vbr) w k
    let b := s.src w vb
    let x := (s.sreg ss).toNat
    let amt (k : Nat) : Nat := match vb with | .reg f => elemAt (s.vreg .v f) w k | .sc r => (s.sreg r).toNat
    let bit (k : Nat) : Bool := (s.me.ctl.mget m.toNat).getLsbD k
    let op (i : Instr) (lat occ : Nat) (vw : View) (l : Nat) (f : Nat → Nat) : Prop :=
      s.LaneOp i c lat occ vw vd w l (fun k => (f k, 0))
    let op1 (i : Instr) (f : Nat → Nat) : Prop := op i 2 1 .v n f
    op1 (.vand c vd va vb) (fun k => a k &&& b k) ∧ op1 (.vor c vd va vb) (fun k => a k ||| b k) ∧
    op1 (.vxor c vd va vb) (fun k => a k ^^^ b k) ∧ op1 (.vnot c vd va) (fun k => 2 ^ w - 1 - a k) ∧
    op1 (.vshl c vd va vb) (fun k => a k * 2 ^ amt k % 2 ^ w) ∧ op1 (.vshr c vd va vb) (fun k => a k / 2 ^ amt k) ∧
    op1 (.vsar c vd va vb) (fun k => (ival c.et (a k) / 2 ^ amt k % 2 ^ w).toNat) ∧
    op1 (.vsel c vd va vbr m) (fun k => if bit k then a k else br k) ∧ op1 (.vmov c vd va) a ∧
    op1 (.vmovi c vd imm) (fun _ => (if c.et.signed then imm.signExtend 64 else imm.setWidth 64).toNat % 2 ^ w) ∧
    op1 (.vbcast c vd ss) (fun _ => x % 2 ^ w) ∧ op1 (.vbcastLane c vd va ss) (fun _ => a (x % n)) ∧
    op1 (.vrot c vd va ss) (fun k => a ((k + x) % n)) ∧ op1 (.vlane c vd ss) (fun k => (x + k) % 2 ^ w) ∧
    op1 (.vpmov c vd m) (fun k => if bit k then 2 ^ w - 1 else 0) ∧
    (let blocks := if w = 4 then 4 else if w = 8 then 2 else 1
     let idx := s.vreg (if w = 4 then .t else if w = 8 then .w else .v) vbr
     op (.vperm c vd va vbr) 4 blocks .v n (fun k => if elemAt idx 16 k < n then a (elemAt idx 16 k) else 0)) ∧
    (w = 8 → op (.vtrn c vd va) 4 2 .w 1024 (fun k => elemAt (s.vreg .w va) 8 (k % 32 * 32 + k / 32))) ∧
    (w = 16 → op (.vtrn c vd va) 4 4 .t 1024 (fun k => elemAt (s.vreg .t va) 16 (k % 32 * 32 + k / 32))) ∧
    (w = 32 → op (.vtrn c vd va) 4 8 .a 1024 (fun k => elemAt (s.vreg .a va) 32 (k % 32 * 32 + k / 32))) ∧
    (w = 64 → op (.vtrn c vd va) 4 4 .t 256 (fun k => elemAt (s.vreg .t va) 64 (k % 16 * 16 + k / 16))) ∧
    op (.vzip c vd va vbr) 4 2 .w (2 * n) (fun k => if k % 2 = 0 then a (k / 2) else br (k / 2)) ∧
    op (.vunzip c vd va) 4 2 .w (2 * n) (fun k => elemAt (s.vreg .w va) w (if k < n then 2 * k else 2 * (k - n) + 1))

/-- Each operation takes its unit for its occupancy and, under a true guard, puts one register write in flight that writes
the on lanes and no other bit. vcvt rounds the value of the source type into the destination type; vwiden extends an
integer by its own sign and converts to a float; vnarrow keeps the low bits with T, clamps between integers with ST,
and rounds otherwise; vdeq decodes a narrow code under its descriptor, multiplies it by its block's scale when the
geometry asks for one, and rounds once. vcmul and vcmac round the real and the imaginary part of the product, with CJ
of the product by the conjugate, and with the old lane added for vcmac, once each from the exact sum. Flags are those
of the on lanes. (R75, R77, R126, R140, R144, R151, R152, R153, R154, R161) -/
def Obligations.VectorConversionsAndComplex : Prop :=
  ∀ (c : VC) (u : ETy) (cj : Bool) (kd : BitVec 6) (vd va vb : BitVec 11) (vs : VSrc) (ss : BitVec 6) (s : State),
    let w := c.et.width
    let r := u.width
    let src (vw : View) (wd k : Nat) : Nat := elemAt (s.vreg vw va) wd k
    let view (blocks : Nat) : View := if blocks = 1 then .v else if blocks = 2 then .w else if blocks = 4 then .t else .a
    let once (x : Nat → FVal) (k : Nat) : Nat × BitVec 7 := s.rnd c.et c.rm k 0 (x k, 0)
    let d64 := c.et = .fp64 ∨ u = .fp64
    (w = r → s.LaneOp (.vcvt c u vd va) c (if d64 then 6 else 4) (if d64 then 2 else 1) .v vd w (lanes w)
      (once fun k => aval u (src .v w k))) ∧
    (r < w → s.LaneOp (.vwiden c u vd va) c (if d64 then 6 else 4) (w / r) (view (w / r)) vd w (lanes r)
      (fun k => if c.et.isI then ((ival u (src .v r k) % 2 ^ w).toNat, 0)
        else (((etFmt c.et).round true 0 0 (aval u (src .v r k))).1, 0))) ∧
    (w < r →
      s.LaneOp (.vnarrow c u true vd va) c (if d64 then 6 else 4) (r / w) .v vd w (lanes w)
        (fun k => (src (view (r / w)) r k % 2 ^ w, 0)) ∧
      s.LaneOp (.vnarrow c u false vd va) c (if d64 then 6 else 4) (r / w) .v vd w (lanes w)
        (fun k => if c.et.isI && u.isI then clampI c.et (ival u (src (view (r / w)) r k))
          else s.rnd c.et c.rm k 0 (aval u (src (view (r / w)) r k), 0))) ∧
    (let d := s.desc (s.partOf s.cur.who) kd.toNat
     let cw := dWidth d
     let geo := (s.sreg ss).toNat % 4
     let x (k : Nat) : FVal := (dFmt d).decode s.cur.ent.nbv (src .v cw k)
     let sc (k : Nat) : FVal := (dFmt (s.desc (s.partOf s.cur.who) (dSfmt d))).decode s.cur.ent.nbv
       (elemAt (s.vreg .v vb) 8 (k / (8 * 2 ^ geo)))
     s.LaneOp (.vdeq c kd vd va vb ss) c 4 (w / cw) (view (w / cw)) vd w (lanes cw)
       (fun k => s.rnd c.et c.rm k 0 (if geo = 0 then (x k, 0) else scaled (x k) (sc k)))) ∧
    (let re (k : Nat) : FVal := dval c.et (src .v w (k / 2 * 2))
     let im (k : Nat) : FVal := dval c.et (src .v w (k / 2 * 2 + 1))
     let part (k : Nat) : FVal := dval c.et
       (match vs with | .reg f => elemAt (s.vreg .v f) w k | .sc f => elemAt (s.sreg f).toNat w (k % 2))
     let bre (k : Nat) : FVal := part (k / 2 * 2)
     let bim (k : Nat) : FVal := if cj then (part (k / 2 * 2 + 1)).neg else part (k / 2 * 2 + 1)
     let sum (add : Option FVal) (k : Nat) : FVal × BitVec 7 :=
       if k % 2 = 0 then csum (c.rm == 2) (re k) (bre k) (im k) (bim k) true add
       else csum (c.rm == 2) (re k) (bim k) (im k) (bre k) false add
     s.LaneOp (.vcmul c cj vd va vs) c 4 1 .v vd w (lanes w) (fun k => s.rnd c.et c.rm k 0 (sum none k)) ∧
     s.LaneOp (.vcmac c cj vd va vs) c 4 1 .v vd w (lanes w)
       (fun k => s.rnd c.et c.rm k 0 (sum (some (dval c.et (elemAt (s.vreg .v vd) w k))) k)))

/-- Under a true guard vmaxe adds to the latch writes under way one for its own slot's latch, at its own bundle position,
with the block code K and, for each of the 64 blocks, the largest exponent of an on finite non-zero element plus 127,
held between 0 and 254, or 0 where the block has none. vqcvt reads its own slot's latch as it stands for its bundle
position, divides each element by 2^se of its block, rounds once into the descriptor's codes, and writes the on codes;
with s(SS)[0] = 0 it also writes the register VB with the sign-0 scale code of 2^se of each block and zero elsewhere,
where se is the latch code less 127 and less the format's largest exponent, held to the exponents the scale format
has. Under a false guard each only takes its unit. (R31, R53, R155, R156, R157, R158) -/
def Obligations.QuantisationPair : Prop :=
  ∀ (c : VC) (z x : BitVec 2) (kd : BitVec 6) (vd va vb : BitVec 11) (ss : BitVec 6) (s : State),
    let w := c.et.width
    let view (blocks : Nat) : View := if blocks = 1 then .v else if blocks = 2 then .w else if blocks = 4 then .t else .a
    let g := 2 ^ x.toNat
    let bs := 16 * 2 ^ z.toNat
    let e (k : Nat) : Option Int := exponent (dval c.et (elemAt (s.vreg (view g) va) w k))
    let has (j : Nat) (v : Int) : Prop := ∃ k, j * bs ≤ k ∧ k < j * bs + bs ∧ s.on c k = true ∧ e k = some v
    let sel : LatSel := if s.cur.slot = .v1 then .v1 else .v0
    (s.guard c.g = false → exec (.vmaxe c z x va) s = .next (s.occupy g)) ∧
    (s.guard c.g = true → ∃ (t : State) (v : BitVec 2048), exec (.vmaxe c z x va) s = .next t ∧
      (s.occupy g).Becomes t s.cur.who
        { s.me with ctl := { s.me.ctl with latw := insLatch { seq := s.cur.ent.seq, sel := sel, val := v, k := z } s.me.ctl.latw } } ∧
      ∀ j, j < 64 →
        ((g * lanes w ≤ j * bs ∨ ∀ m, ¬ has j m) → elemAt v.toNat 8 j = 0) ∧
        (∀ m, j * bs < g * lanes w → has j m → (∀ m', has j m' → m' ≤ m) →
          (elemAt v.toNat 8 j : Int) = Min.min 254 (Max.max 0 (m + 127)))) ∧
    (let d := s.desc (s.partOf s.cur.who) kd.toNat
     let cw := dWidth d
     let nbv := s.cur.ent.nbv
     let lt := s.me.ctl.latchesAt s.cur.ent.seq
     let bsz := 16 * 2 ^ (if s.cur.slot = .v1 then lt.k1 else lt.k0).toNat
     let code (j : Nat) : Nat := ((if s.cur.slot = .v1 then lt.v1 else lt.v0).extractLsb' (8 * j) 8).toNat
     let pows := powCodes (dFmt (s.desc (s.partOf s.cur.who) (dSfmt d))) nbv
     let plain := (s.sreg ss).getLsbD 0
     ∀ lo hi : Int, (∀ p ∈ pows, lo ≤ p.1 ∧ p.1 ≤ hi) → (∃ p ∈ pows, p.1 = lo) → (∃ p ∈ pows, p.1 = hi) →
     let se (j : Nat) : Int := if plain then 0 else Min.min hi (Max.max lo ((code j : Int) - 127 - (dFmt d).emax))
     let out (k : Nat) : Nat × BitVec 7 := (dFmt d).round nbv c.rm.toNat (s.rb k)
       (match dval c.et (elemAt (s.vreg (view (w / cw)) va) w k) with | .fin n m e => .fin n m (e - se (k / bsz)) | y => y)
     (s.guard c.g = false → exec (.vqcvt c kd vd va vb ss) s = .next (s.occupy (w / cw))) ∧
     (s.guard c.g = true → ∃ t u : State, exec (.vqcvt c kd vd va vb ss) s = .next u ∧
       s.Lanes t c 4 (w / cw) .v vd cw (lanes cw) out ∧
       (plain = true → t.Issued u t.me.ctl [t.result t.ids 4 (.win (t.cur.ent.off .v vb)) 0 0 512]) ∧
       (plain = false → ∃ v, t.Issued u t.me.ctl [t.result t.ids 4 (.win (t.cur.ent.off .v vb)) v (ones 4096) 512] ∧
         ∀ j, j < 512 → (j < lanes cw / bsz → (∃ p ∈ pows, p.1 = se j) → ∃ p ∈ pows, p.1 = se j ∧ elemAt v 8 j = p.2) ∧
           (lanes cw / bsz ≤ j → elemAt v 8 j = 0))))

/-- With room in its slot's queue, each special function pushes one entry (vsincos two, the cosine first) whose on lanes
hold the function's value rounded once and whose off lanes are zero, to arrive 12 ticks later; vred pushes one whose
first element is the sum modulo 2^64 of the on integer elements, the tree sum of R85 for floats, or the least or
greatest element, off lanes counting as identities; vscan one whose on lanes hold the running value; both to arrive 8
ticks later. Without room each stays in its slot queue. vqpop removes the oldest arrived entry of its queue whatever
its guard, and under a true one writes its on lanes and a true predicate; on an empty queue with EB it writes zero and
a false predicate, and without EB it blocks. Identities of float extremes are the model's choice (log 19). (R49, R50,
R85, R138, R159, R160, R162, R171) -/
def Obligations.VectorQueueResults : Prop :=
  ∀ (c : VC) (va vd : BitVec 11) (pd : BitVec 4) (q5 : Bool) (e : QEnt) (s : State),
    let w := c.et.width
    let n := lanes w
    let q := if q5 then 5 else 4
    let a (k : Nat) : Nat := elemAt (s.vreg .v va) w k
    let lane (i : Nat) (g : FVal → FVal × BitVec 7) (k : Nat) : Nat × BitVec 7 := s.rnd c.et c.rm k i (g (dval c.et (a k)))
    let holds (x : Nat) (f : Nat → Nat × BitVec 7) : Prop := ∀ k, k < n → elemAt x w k = if s.on c k then (f k).1 % 2 ^ w else 0
    let special (i : Instr) (g : FVal → FVal × BitVec 7) : Prop :=
      s.EntryOp i 12 1 1 (fun data fl => holds (data.getD 0 0) (lane 0 g) ∧ flagsOf n (s.on c) (lane 0 g) fl)
    let xs (op : Nat) : List Nat := s.redLanes c op va
    let next (op : BitVec 2) (k acc x : Nat) : Nat × BitVec 7 :=
      if op = 0 then
        (if c.et.isI then ((acc + x) % 2 ^ w, 0) else s.rnd c.et c.rm k 0 ((dval c.et acc).add (c.rm == 2) (dval c.et x)))
      else (pick c.et (op == 2) acc x, 0)
    special (.vexp2 c va) spExp2 ∧ special (.vlog2 c va) spLog2 ∧ special (.vrcp c va) spRcp ∧ special (.vrsq c va) spRsq ∧
    special (.vsqrt c va) spSqrt ∧ special (.vtanh c va) spTanh ∧
    s.EntryOp (.vsincos c va) 12 2 2 (fun data fl =>
      holds (data.getD 0 0) (lane 0 fun x => (spSincos x).1) ∧ holds (data.getD 1 0) (lane 1 fun x => (spSincos x).2) ∧
      ∃ f0 f1, fl = f0 ||| f1 ∧ flagsOf n (s.on c) (lane 0 fun x => (spSincos x).1) f0 ∧
        flagsOf n (s.on c) (lane 1 fun x => (spSincos x).2) f1) ∧
    (c.et.isI = true → s.EntryOp (.vred c 0 va) 8 1 1 (fun data fl => fl = 0 ∧
      ((data.getD 0 0 : Nat) : Int) = (∑ k ∈ Finset.range n, if s.on c k then ival c.et (a k) else 0) % 2 ^ 64)) ∧
    (c.et.isI = false → s.EntryOp (.vred c 0 va) 8 1 1 (fun data fl => (data.getD 0 0, fl) = treeSum s c 11 1 (xs 0))) ∧
    (∀ op : BitVec 2, op = 1 ∨ op = 2 → s.EntryOp (.vred c op va) 8 1 1 (fun data fl => fl = 0 ∧
      data.getD 0 0 = (xs op.toNat).tail.foldl (pick c.et (op == 2)) ((xs op.toNat).headD 0))) ∧
    (∀ op : BitVec 2, op ≠ 3 → s.EntryOp (.vscan c op va) 8 1 1 (fun data fl => ∃ y : Nat → Nat × BitVec 7,
      y 0 = ((xs op.toNat).headD 0, 0) ∧ (∀ k, k + 1 < n → y (k + 1) = next op (k + 1) (y k).1 ((xs op.toNat).getD (k + 1) 0)) ∧
      holds (data.getD 0 0) y ∧ flagsOf n (s.on c) y fl)) ∧
    (s.me.rqHead q = some e → ∀ eb, ∃ t u : State, exec (.vqpop c vd pd q5 eb) s = .next u ∧
      (let p := s.modMe fun x => x.rqPop q
       (s.guard c.g = false → u = p.occupy 1) ∧
       (s.guard c.g = true → p.Lanes t c 1 1 .v vd w n (fun k => (elemAt e.data w k, 0)) ∧ t.YieldsP u 1 pd true))) ∧
    (s.me.rqHead q = none →
      exec (.vqpop c vd pd q5 false) s = .next (s.block (.queue q)) ∧
      ∃ t u : State, exec (.vqpop c vd pd q5 true) s = .next u ∧ (s.guard c.g = false → u = s.occupy 1) ∧
        (s.guard c.g = true → s.Lanes t c 1 1 .v vd w n (fun _ => (0, 0)) ∧ t.YieldsP u 1 pd false))

/-- vcmp and vpmov.tomask write the on bits of their mask with the lane's comparison, or with whether it is non-zero, and
bits from the lane count up with zero. vbin, when all its rings have a free slot, pushes to ring m + j the on lanes of
VA with key j, in order and zero-filled, and under a true guard counts them in VD, lane 16 counting the on lanes with
larger keys; vmov.pop takes the oldest slot of its ring and writes its on lanes; vmov.push pushes VA with off lanes
zero; without the slots each blocks. vpip withholds one update per on lane of the counter its element names modulo
256, by 1 or by VB's element modulo 2^32, sixteen counters to an entry, each held to 32 bits, and completes after two
ticks; ST when a counter would pass its largest count is set at issue, which is the model's choice (log 47); vpip.read puts each counter, with the
context's own withheld updates added, in its lane. (R46, R141, R149, R166, R167, R168, R169, R172) -/
def Obligations.VectorMasksRingsPips : Prop :=
  ∀ (c : VC) (cond : FCond) (md : BitVec 3) (k : BitVec 4) (vd va vbr : BitVec 11) (vb : VSrc) (b : BitVec 6) (s : State),
    let w := c.et.width
    let n := lanes w
    let core := coreOf s.cur.who
    let a (i : Nat) : Nat := elemAt (s.vreg .v va) w i
    let y (i : Nat) : Nat := elemAt (s.vreg .v vbr) w i
    let x := s.src w vb
    let on := (List.range n).filter (s.on c)
    let rings := (List.range (k.toNat + 1)).map fun j => b.toNat + j
    let keyed (j : Nat) : List Nat := (on.filter fun i => y i == j).map a
    let pushed := (List.range (k.toNat + 1)).foldl (fun u j => u.pushSlot (b.toNat + j) 512 (packElems w (keyed j))) s
    let sumOf (adds : List (Nat × Nat)) (j : Nat) : Nat := ((adds.filter fun p => p.1 == j).map (·.2)).sum
    let counts (i : Instr) (adds : List (Nat × Nat)) : Prop := ∀ es : List WEnt,
      es.map (·.unit) = (List.range 16).filter (fun u => adds.any fun p => p.1 / 16 == u) →
      (∀ e ∈ es, e.cls = 17 ∧ e.mask = 0 ∧ e.key = 0 ∧ e.drawer = none ∧ e.part = 0 ∧
        e.val = packElems 32 ((List.range 16).map fun j => Nat.min (sumOf adds (e.unit * 16 + j)) (2 ^ 32 - 1))) →
      (es.foldl (fun h e => holdEntry e h) s.me.held).length ≤ 128 →
      let f := s.result s.ids 2 (.win 0) 0
      ∃ t fl, exec i s = .next t ∧ (fl = 0 ∨ fl = fST) ∧ (fl = fST ↔ ∃ p ∈ adds, 2 ^ 32 ≤ s.pipSeen p.1 + sumOf adds p.1) ∧
        (s.occupy 1).Becomes t s.cur.who { s.me with
          held := es.foldl (fun h e => holdEntry e h) s.me.held, ctl := s.me.ctl.flag fl, fly := s.me.fly ++ [f],
          flt := { s.me.flt with wawp := s.marks [f] } }
    (c.et.isI = true → s.MaskOp (.vcmp c cond md va vb) c 2 1 md n (fun i => ncond cond (ival c.et (a i)) (ival c.et (x i)))) ∧
    (c.et.isI = false → s.MaskOp (.vcmp c cond md va vb) c (if c.et = .fp64 then 6 else 4) (if c.et = .fp64 then 2 else 1) md n
      (fun i => fcond cond (dval c.et (a i)) (dval c.et (x i)))) ∧
    s.MaskOp (.vpmovTomask c md va) c 2 1 md n (fun i => decide (a i ≠ 0)) ∧
    ((∃ r ∈ rings, s.freeSlot r = false) →
      exec (.vbin c k vd va vbr b) s = .next (s.block (.ring [rings.map fun r => (core * 64 + r, 0, 1)]))) ∧
    ((∀ r ∈ rings, s.freeSlot r = true) → ∃ t, exec (.vbin c k vd va vbr b) s = .next t ∧
      (s.guard c.g = false → t = pushed.occupy 1) ∧
      (s.guard c.g = true → ∃ v, (pushed.occupy 1).Issued t pushed.me.ctl
          [pushed.result pushed.ids 4 (.win (s.cur.ent.off .v vd)) v (ones 4096) 512] ∧
        ∀ j, j < 128 → elemAt v 32 j = if j = 16 then (on.filter fun i => decide (k.toNat < y i)).length
          else if j ≤ k.toNat then (keyed j).length else 0)) ∧
    (s.filled b.toNat = false → exec (.vmovPop c vd b) s = .next (s.block (.ring [[(core * 64 + b.toNat, 1, 0)]]))) ∧
    (s.filled b.toNat = true →
      let r := s.ring core b.toNat
      let u := s.modRing core b.toNat fun q => (q.pop 1 true).credit 1 0 true
      let e := s.ownBytes (ringSlot core r r.head) 512
      ∃ t, exec (.vmovPop c vd b) s = .next t ∧ (s.guard c.g = false → t = u.occupy 1) ∧
        (s.guard c.g = true → u.Lanes t c 2 1 .v vd w n (fun i => (elemAt e w i, 0)))) ∧
    (s.freeSlot b.toNat = false → exec (.vmovPush c b va) s = .next (s.block (.ring [[(core * 64 + b.toNat, 0, 1)]]))) ∧
    (s.freeSlot b.toNat = true → ∃ v, exec (.vmovPush c b va) s = .next (((s.pushSlot b.toNat 512 v).occupy 1).pace 2) ∧
      ∀ i, i < n → elemAt v w i = if s.on c i then a i else 0) ∧
    counts (.vpip c va) (on.map fun i => (a i % 256, 1)) ∧
    counts (.vpipBy c va vbr) (on.map fun i => (a i % 256, y i % 2 ^ 32)) ∧
    s.LaneOp (.vpipRead c vd) c 4 2 .w vd 32 256 (fun j => (s.pipSeen j, 0))

/-- mcfg of an illegal word takes the matrix-use trap with cause 2 whatever its guard, and a legal one under a true guard
sets MXCFG with VLD. mxs queues a latch write of the named register. With VLD, an operation of the register path joins
the context's operations under a true guard. mpre and the array operations, with their plane ready or unread, scale
rings where the geometry asks for them, slots of the right size, a free path and filled rings, pop their slots
whatever the guard (the data's and then the scales' from a ring named for both, log 91) and join the operations with
those slots' bytes, the settings and latches in force and the plane marked; mmulp reads its peer's ring without popping it. mdrain takes its output slot and the slot of partial sums.
Without VLD each traps with cause 1, an array operation without its plane with cause 3, ahead of every other cause (log
21). An operation with a false guard joins too, to take its path and time and free its slots (log 99). (R174, R175, R177, R178, R181,
R182, R183, R185, R186, R187, R188, R189) -/
def Obligations.MatrixOperationsFire : Prop :=
  ∀ (g : Guard) (rm : BitVec 3) (x : BitVec 1) (y : BitVec 2) (z prel add : Bool) (n peer : BitVec 4) (m3 : BitVec 3) (kd : BitVec 6)
    (w2 : BitVec 2) (od os : BitVec 11) (sk ra rb : BitVec 6) (s : State),
    let who := s.cur.who
    let core := coreOf who
    let live := s.guard g
    let v := s.me.ctl.mxcfg
    let lt := s.me.ctl.latchesAt s.cur.ent.seq
    let tab := s.desc (s.partOf who)
    let cnt := n.toNat + 1
    let free (p : Nat) : Prop := aget 0 (s.core core).mbusy p = 0
    let slots (r : BitVec 6) : Nat := cnt * (s.ring core r.toNat).slotSize
    let pops (q : Ring) (k : Nat) : Prop := q.en = true ∧ k + q.tPop ≤ q.old.filled
    let one := rb ≠ 0 ∧ rb = ra
    let two (data scale geo : Nat) : Prop := (rb = 0 ↔ geo = 0) ∧ slots ra = data ∧ (rb ≠ 0 → scale ≤ slots rb) ∧
      (one → pops (s.ring core ra.toNat) (2 * cnt)) ∧
      (¬ one → pops (s.ring core ra.toNat) cnt ∧ (rb ≠ 0 → pops (s.ring core rb.toNat) cnt))
    let popped (t : State) : Prop :=
      (one → t.ring core ra.toNat = (s.ring core ra.toNat).pop (2 * cnt) true) ∧
      (¬ one → t.ring core ra.toNat = (s.ring core ra.toNat).pop cnt true ∧
        (rb ≠ 0 → t.ring core rb.toNat = (s.ring core rb.toNat).pop cnt true))
    let scales (v : Nat) : Prop := (rb ≠ 0 → ¬ one → v = s.ringRun core rb.toNat cnt) ∧
      (one → v = s.ringRun core ra.toNat (2 * cnt) / 2 ^ (8 * slots ra))
    let joins (i : Instr) (t : State) (m : MOp) (pl : Plane → Plane) : Prop := exec i s = .next t ∧ t.mem = s.mem ∧
      (t.ctx who).mops = s.me.mops ++ [m] ∧ (t.ctx who).ctl = s.me.ctl ∧ m.id = s.ids ∧ m.op = i ∧ m.ent = s.cur.ent ∧ m.live = live ∧
      m.cfg = v ∧ m.mr = lt.mr ∧ m.mc = lt.mc ∧
      (t.ctx who).plane x.toNat = (if live then pl (s.me.plane x.toNat) else s.me.plane x.toNat)
    let array (i : Instr) : Prop :=
      (v.getLsbD 36 = true → s.me.planeReady x.toNat = false → exec i s = .next (s.trap ⟨14, 3, 0⟩)) ∧
      (v.getLsbD 36 = true → s.me.planeReady x.toNat = true →
        two (rowBytes (cfgRows v) (tab (cfgAfd v))) (cfgRows v * 256 / geoSize (cfgAgeo v)) (cfgAgeo v) → free 0 →
        ∃ t m, joins i t m (fun p => { p with read := true }) ∧ popped t ∧ m.stage = 0 ∧ m.runA = s.ringRun core ra.toNat cnt ∧
          scales m.sclA)
    let pr := s.ring (peerCore core (if prel then (rankOf core + peer.toNat) % 16 else peer.toNat)) ra.toNat
    let peerOk (buf : Nat) : Prop := s.peerOk who (if prel then (rankOf core + peer.toNat) % 16 else peer.toNat) = true ∧
      pr.en = true ∧ pr.buf = buf
    ((s.sreg sk).toNat % 2 ^ 10 ≠ 0 ∨ 2 ^ 36 ≤ (s.sreg sk).toNat ∨ cfgLegal tab (s.sreg sk) = false →
      exec (.mcfg g sk) s = .next (s.trap ⟨14, 2, 0⟩)) ∧
    ((s.sreg sk).toNat % 2 ^ 10 = 0 → (s.sreg sk).toNat < 2 ^ 36 → cfgLegal tab (s.sreg sk) = true →
      (live = false → exec (.mcfg g sk) s = .next s) ∧
      (live = true → ∃ t, exec (.mcfg g sk) s = .next t ∧
        s.Becomes t who { s.me with ctl := { s.me.ctl with mxcfg := s.sreg sk ||| 0x1000000000 } })) ∧
    (live = true → w2 ≠ 0 → ∃ t, exec (.mxs g w2 os) s = .next t ∧ s.Becomes t who { s.me with ctl := { s.me.ctl with
      latw := insLatch ⟨s.cur.ent.seq, if w2 = 1 then .mr else if w2 = 2 then .mc else .mrc, BitVec.ofNat 2048 (s.vreg .v os), 0⟩ s.me.ctl.latw } }) ∧
    (∀ i, i = .mclr g m3 od ∨ i = .mbias g od os ∨ i = .mtr g od os →
      (v.getLsbD 36 = true → live = true → free 2 → ∃ t m, joins i t m id ∧ m.stage = 0)) ∧
    (∀ i, i = .mpre g x n ra rb ∨ i = .mmul g rm x y n od ra rb ∨ i = .mmulz g rm x y n od ra rb ∨ i = .mcmul g rm x y z n od ra rb ∨
        i = .mclr g m3 od ∨ i = .mbias g od os ∨ i = .mtr g od os ∨ i = .mdrain g rm kd add os ra rb →
      v.getLsbD 36 = false → exec i s = .next (s.trap ⟨14, 1, 0⟩)) ∧
    (v.getLsbD 36 = true → (s.me.plane x.toNat).read = false →
      two (planeBytes (tab (cfgBfd v))) (32768 / geoSize (cfgBgeo v)) (cfgBgeo v) → free 1 →
      ∃ t m, joins (.mpre g x n ra rb) t m (fun p => { p with loaded := false, fresh := true, bfd := cfgBfd v, bgeo := cfgBgeo v }) ∧
        popped t ∧ m.stage = 2 ∧ m.left = planeBytes (tab (cfgBfd v)) / 1024 ∧ m.runB = s.ringRun core ra.toNat cnt ∧
        scales m.sclB) ∧
    array (.mmul g rm x y n od ra rb) ∧ array (.mmulz g rm x y n od ra rb) ∧ array (.mcmul g rm x y z n od ra rb) ∧
    (v.getLsbD 36 = true → cfgAgeo v = 0 → peerOk 1 → s.me.planeReady x.toNat = true → free 0 →
      cnt * pr.slotSize = rowBytes (cfgRows v) (tab (cfgAfd v)) → cnt + pr.tPop ≤ pr.old.filled →
      ∃ t m, joins (.mmulp g rm x y peer prel false n od ra rb) t m (fun p => { p with read := true }) ∧ m.stage = 0 ∧
        m.runA = s.ringRun (peerCore core (if prel then (rankOf core + peer.toNat) % 16 else peer.toNat)) ra.toNat cnt ∧
        t.ring (peerCore core (if prel then (rankOf core + peer.toNat) % 16 else peer.toNat)) ra.toNat =
          { pr with peers := pr.peers ++ [(s.ids, (List.range cnt).map fun j => (pr.head + j) % pr.count)] }) ∧
    (v.getLsbD 36 = true → cfgAgeo v = 0 → cfgBgeo v = 0 → peerOk 0 → (s.me.plane x.toNat).read = false → free 1 →
      let nb := planeBytes (tab (cfgBfd v))
      let j := nb / pr.slotSize
      nb % pr.slotSize = 0 → j ≤ pr.count → j + pr.tPop ≤ pr.old.filled → slots rb = rowBytes (cfgRows v) (tab (cfgAfd v)) →
      pops (s.ring core rb.toNat) cnt →
      ∃ t m, joins (.mmulp g rm x y peer prel true n od ra rb) t m
          (fun p => { p with loaded := false, fresh := true, read := true, bfd := cfgBfd v, bgeo := 0 }) ∧ m.stage = 2 ∧
        m.left = nb / 1024 ∧ m.runA = s.ringRun core rb.toNat cnt ∧
        m.runB = s.ringRun (peerCore core (if prel then (rankOf core + peer.toNat) % 16 else peer.toNat)) ra.toNat j ∧
        t.ring core rb.toNat = (s.ring core rb.toNat).pop cnt true ∧
        t.ring (peerCore core (if prel then (rankOf core + peer.toNat) % 16 else peer.toNat)) ra.toNat =
          { pr with peers := pr.peers ++ [(s.ids, (List.range j).map fun k => (pr.head + k) % pr.count)] }) ∧
    (v.getLsbD 36 = true →
      let out := s.ring core rb.toNat
      let bytes := cfgRows v * 128 * dWidth (tab kd.toNat) / 8
      bytes ≤ out.slotSize → out.en = true → 1 + out.tPush ≤ out.old.free → out.old.exf = false → out.exf = none → free 2 →
      (add = true → ra ≠ rb ∧ cfgRows v * 512 ≤ (s.ring core ra.toNat).slotSize ∧ pops (s.ring core ra.toNat) 1) →
      ∃ t m, joins (.mdrain g rm kd add os ra rb) t m id ∧ m.stage = 0 ∧ m.out = ringSlot core out out.tail ∧
        m.outn = (if live then bytes else out.slotSize) ∧ t.ring core rb.toNat = out.push true ∧
        (add = true → m.sclA = s.ringRun core ra.toNat 1 ∧ t.ring core ra.toNat = (s.ring core ra.toNat).pop 1 true))

/-- A fired operation that may start takes its path for its occupancy and computes its result from the registers as they
stand, to be written when its ticks are over: zeros for mclr, the bias row repeated for mbias, the transpose for mtr;
for the array operations each word from its start through the group sums of its 256 products, in the order of R185 or
R187, each element decoded and scaled; for mdrain each accumulator, with its partial sum where asked for, rounded once
into the descriptor's code, with the flags of all. One that may not start stays as it is. When a plane's last tick is
over the plane holds the data and scales and is loaded; an mpre then leaves, and an mmulp goes on to the array with its
peer read ended. A result whose ticks are over reaches its registers, with its flags set, and the operation leaves; a
drain's output reaches its slot in the same way. A leaving operation's slots, alone on their ring, are marked complete
and neither FREE nor FILLED moves: the credits are withheld until the release. When the array has read its peer's rows
the peer read ends. (R66, R75, R83, R84, R86, R180, R183, R185, R186, R187, R188, R189) -/
def Obligations.MatrixWorkEnds : Prop :=
  ∀ (who k x : Nat) (m : MOp) (s : State),
    let c := s.ctx who
    let core := coreOf who
    let tab := s.desc (s.partOf who)
    let nbv := m.ent.nbv
    let rs (q : Nat) : Nat := rbits c.ctl.srseed q m.ent.sridx.toNat
    let dec (fd geo run scl r q : Nat) : FVal :=
      let v := (dFmt (tab fd)).decode nbv (elemAt run (dWidth (tab fd)) (256 * r + q))
      if geo = 0 then v
      else (scaled v ((dFmt (tab (dSfmt (tab fd)))).decode nbv (elemAt scl 8 (256 * r / geoSize geo + q / geoSize geo)))).1
    let withheld (t : State) : Prop := m.peer = none → ∀ n a b, m.rings = [(core, n, a, b)] →
      (s.ring core n).pops = List.replicate a { own := true } → (s.ring core n).pushes = List.replicate b { own := true } →
      t.ring core n = { s.ring core n with
        pops := List.replicate a { own := true, done := true }, pushes := List.replicate b { own := true, done := true } }
    let ends (t : State) (u : State) : Prop := (t.ctx who).mops = c.mops.filter (fun y => y.id != m.id) ∧ t.mem = u.mem ∧
      (t.ctx who).ctl = c.ctl.flag (if m.stage = 2 then 0 else m.flags) ∧ withheld t
    (c.mop k = some m → s.canStart who m = true →
      ∃ t, exec (.matrixPathStart who k) s = .next t ∧ t.mem = s.mem ∧
        aget 0 (t.core core).mbusy m.path = (s.mTimes who m).1 ∧
        (t.ctx who).mop k = some { s.mCompute who m with stage := 1, left := (s.mTimes who m).2 }) ∧
    (c.mop k = some m → s.canStart who m = false → exec (.matrixPathStart who k) s = .next s) ∧
    (m.live = true →
      (∀ g n od, m.op = .mclr g n od → (s.mCompute who m).res = m.writes.map fun p => (p.1, p.2, 0)) ∧
      (∀ g od os, m.op = .mbias g od os → ∀ u r q, u < 4 → r < cfgRows m.cfg → q < 32 →
        ∃ p, (s.mCompute who m).res[u]? = some p ∧ p.1 = accOff m.ent od u ∧ p.2.1 = cfgRows m.cfg * 128 ∧
          elemAt p.2.2 32 (32 * r + q) = elemAt (s.bytes (s.winBase who + m.ent.off .v os) 512) 32 (32 * u + q)) ∧
      (∀ g od os, m.op = .mtr g od os → ∃ v, (s.mCompute who m).res = [(accOff m.ent od 0, 4096, v)] ∧
        ∀ i j, i < 32 → j < 32 → elemAt v 32 (32 * i + j) = elemAt (s.bytes (s.winBase who + m.ent.off .a os) 4096) 32 (32 * j + i)) ∧
      (∀ g rm kd add os ra rb, m.op = .mdrain g rm kd add os ra rb →
        let d := tab kd.toNat
        let val (v : Nat) : FVal := if cfgAcc m.cfg then FVal.ofInt (BitVec.ofNat 32 v).toInt else fmtF32.decode true v
        let word (q : Nat) : FVal := val (s.accum who m.ent os (q / 128) (q % 128))
        let sum (q : Nat) : FVal × BitVec 7 := if add then (word q).add (rm == 2) (val (elemAt m.sclA 32 q)) else (word q, 0)
        let out (q : Nat) : Nat × BitVec 7 :=
          let r := (dFmt d).round nbv rm.toNat (rs q) (sum q).1
          (r.1, (sum q).2 ||| r.2)
        (∀ q, q < cfgRows m.cfg * 128 → elemAt (s.mCompute who m).outv (dWidth d) q = (out q).1 % 2 ^ dWidth d) ∧
          flagsOf (cfgRows m.cfg * 128) (fun _ => true) out (s.mCompute who m).flags) ∧
      (∀ a, arrOf m.op = some a →
        let pl := c.plane a.x
        let A (i q : Nat) : FVal := dec (cfgAfd m.cfg) (cfgAgeo m.cfg) m.runA m.sclA i q
        let B (q j : Nat) : FVal := dec pl.bfd pl.bgeo pl.data pl.scale j q
        let ps (i j : Nat) : List (FVal × FVal) :=
          if a.cplx then ((List.range 128).map fun q =>
            if j % 2 = 0 then [(A i (2 * q), B (2 * q) (j / 2)), ((A i (2 * q + 1)).neg, B (2 * q + 1) (j / 2))]
            else [(A i (2 * q), B (2 * q + 1) (j / 2)), (A i (2 * q + 1), B (2 * q) (j / 2))]).flatten
          else (List.range 256).map fun q => (A i q, B q j)
        let code (v : BitVec 1024) (j : Nat) : FVal := (dFmt (tab (cfgEsd m.cfg))).decode nbv (v.extractLsb' (8 * j) 8).toNat
        let edge (i j : Nat) : Option (FVal × FVal) := if cfgEse m.cfg then some (code m.mr (32 * a.y + i), code m.mc j) else none
        let start (i j : Nat) : Nat := if a.zero then (if cfgAcc m.cfg then 0 else 2 ^ 31) else s.accum who m.ent a.od i j
        ∀ u i q, u < 4 → i < cfgRows m.cfg → q < 32 → ∃ p fin, (s.mCompute who m).res[u]? = some p ∧ p.1 = accOff m.ent a.od u ∧
          p.2.1 = cfgRows m.cfg * 128 ∧ elemAt p.2.2 32 (32 * i + q) = fin % 2 ^ 32 ∧
          Accumulates nbv (cfgAcc m.cfg) a.rm.toNat rs (128 * i + (32 * u + q)) (edge i (32 * u + q)) (ps i (32 * u + q))
            (start i (32 * u + q)) fin)) ∧
    ((c.mops.find? fun y => y.stage == 2 && y.left == 0 && y.loads == some x) = some m → m.live = true →
      (∀ g x1 n ra rb, m.op = .mpre g x1 n ra rb → ∃ t, exec (.planeLoadEnd who x) s = .next t ∧ ends t s ∧
        (t.ctx who).plane x = { c.plane x with data := m.runB, scale := m.sclB, loaded := true }) ∧
      (∀ g rm x1 y peer prel pw n od ra rb, m.op = .mmulp g rm x1 y peer prel pw n od ra rb → ∃ t, exec (.planeLoadEnd who x) s = .next t ∧
        t.mem = s.mem ∧ (t.ctx who).mop m.id = some { m with stage := 0, peer := none } ∧
        (∀ p, m.peer = some p → t.ring p.1 p.2 = (s.ring p.1 p.2).endPeer m.id) ∧
        (t.ctx who).plane x = { c.plane x with data := m.runB, scale := m.sclB, loaded := true })) ∧
    (c.mop k = some m → m.stage = 1 → m.left = 0 → c.frozen = false → (∀ g rm kd add os ra rb, m.op ≠ .mdrain g rm kd add os ra rb) →
      (c.undo.length + c.newBlocks m.res ≤ 64 → ∃ t, exec (.matrixResultWrite who k) s = .next t ∧
        ends t ((match m.peer with | some p => s.modRing p.1 p.2 fun r => r.endPeer m.id | none => s).putPieces who m)) ∧
      (64 < c.undo.length + c.newBlocks m.res → exec (.matrixResultWrite who k) s = .next (s.takeTrap who ⟨21, 0, 0⟩ 3 m.ent.pc))) ∧
    (∀ g rm kd add os ra rb, c.mop k = some m → m.op = .mdrain g rm kd add os ra rb → m.stage = 1 → m.left = 0 → c.frozen = false →
      ∃ t, exec (.drainPush who k) s = .next t ∧ ends t (s.putBytes m.out m.outn m.outv)) ∧
    (∀ p, c.mop k = some m → m.peer = some p → m.stage = 1 → m.left ≤ 24 →
      ∃ t, exec (.peerReadEnd who k) s = .next t ∧ t.mem = s.mem ∧ t.ring p.1 p.2 = (s.ring p.1 p.2).endPeer m.id ∧
        (t.ctx who).mop k = some { m with peer := none })

/-- Under a true guard and with a record asked for only while q2 has room: a copy whose rings have their slots, whose
source and destination resolve and have elements of one width, joins the commands with one move for each element and
destination, the pages of both, the number of 64 B units (its elements times its copies, rounded up: log 45), its tag and
class, and its ring slots taken at once. The first cp.in of a context whose core keeps a preload of a W slot for it takes
the preload with it, and one that moves exactly those bytes into slot 0 of that ring, where memory still holds them and
none is bad, writes them at once and reads no memory (log 71). cp.pf joins with status 0, or 3 when its box faults. A send of 1 to 16384 whole units with a slack, through an owned port that the running
rotation connects, joins its port's queue with the next sequence number. recv.arm joins its receive queue while that
holds fewer than 16. exf with a slot free in both rings reserves both and starts its deadline; with none free in its
destination it delivers a token with status 2 at once; one ring for both gives both slots (log 46). A record's entry stands behind the others of q2. Without queue room a
command stays in its slot queue. (R203, R204, R205, R206, R207, R208, R209, R210) -/
def Obligations.EngineCommandsAccepted : Prop :=
  ∀ (c : ECmd) (rn : BitVec 6) (a b : Acc) (ds : List (List Elem)) (fmt : BitVec 32) (dp : List Page) (s : State),
    s.guard c.g = true →
    let who := s.cur.who
    let la := s.lay who c.la.toNat
    let lb := s.lay who c.lb.toNat
    let room := c.nq = true ∨ (s.me.rqGet 2).length < 16
    let arg (i : Nat) : Word := s.me.ctl.sget (c.sa.toNat + i)
    let org := (List.range la.rank).map fun i => (arg i).toInt
    let joins (i : Instr) (t : State) (r : ECmdRec) (opc : Nat) (l : Lay) (tag : Word) : Prop :=
      exec i s = .next t ∧ t.cmds = s.cmds ++ [r] ∧ r.id = s.ids ∧ r.who = who ∧ r.part = s.partOf who ∧ r.opc = opc ∧
        r.cls = (if c.cx then c.cl.toNat else l.cls) ∧ r.nq = c.nq ∧ r.tag = tag.setWidth 16 ∧
        (c.nq = true → (t.ctx who).rq = s.me.rq) ∧
        (c.nq = false → (t.ctx who).rqGet 2 = s.me.rqGet 2 ++ [{ id := s.ids, seq := s.cur.ent.seq }])
    let moves := (ds.map fun d => a.elems.zip d).flatten
    let core := coreOf who
    let pushes (q : Ring) : Prop := q.en = true ∧ 1 + q.tPush ≤ q.old.free ∧ q.old.exf = false ∧ q.exf = none
    let copies (i : Instr) (opc : Nat) (u : State) (tag : Word) (mv : List (Elem × Elem)) (mem : Memory) : Prop :=
      ∃ t r, joins i t r opc la tag ∧ t.mem = mem ∧ r.moves = mv ∧ r.pages = (a.pages ++ dp).eraseDups ∧ r.units = (a.elems.length * ds.length * dWidth a.fmt + 511) / 512 ∧
      r.status = 0 ∧ r.srcRing = la.ring.map (fun k => (coreOf who, k)) ∧ r.dstRing = lb.ring.map (fun k => (coreOf who, k)) ∧
      t.cores = (u.takeRings la.ring lb.ring s.ids).cores
    let boxLA := boxCoords org (la.ext.take la.rank)
    let boxLB := boxCoords org (lb.ext.take lb.rank)
    let bits := a.elems.length * dWidth a.fmt
    let port := (arg 0).toNat % 16
    let slack := (arg 1).toNat % 65536
    let fb := s.ring (coreOf who) rn.toNat
    let dn := lb.ring.getD 0
    let dst := s.ring (coreOf who) dn
    (c.nq = false → 16 ≤ (s.me.rqGet 2).length → ∀ i, i = .cpIn c ∨ i = .cpOut c ∨ i = .cpPeer c true ∨ i = .cpPeer c false ∨ i = .cpPf c ∨
      i = .send c ∨ i = .recvArm c ∨ i = .exf c rn → exec i s = .next s.unissue) ∧
    (room → s.credits la.ring lb.ring = true → s.engAccess c.la.toNat false boxLB = .ok a →
      oneDst c lb.box s = .ok (ds, fmt, dp) → dWidth a.fmt = dWidth fmt →
      ((∀ w, (s.core core).preW ≠ some (ctxOf who, w)) → copies (.cpIn c) 1 s (arg la.rank) moves s.mem) ∧
      (∀ w, (s.core core).preW = some (ctxOf who, w) →
        let u := s.modCore core fun k => { k with preW := none }
        let all := lb.ring = some w.ring ∧ (s.ring core w.ring).tail = 0 ∧ (∀ m ∈ moves, m.1 ∈ w.elems) ∧
          (∀ e ∈ w.elems, ∃ m ∈ moves, m.1 = e) ∧ w.elems.map s.elem = w.vals ∧ ∀ e ∈ w.elems, s.spoilt e = false
        let put (s : State) (m : Elem × Elem) : State := ((w.elems.zip w.vals).find? fun p => p.1 == m.1).elim s fun p => s.putElem m.2 p.2
        (all → copies (.cpIn c) 1 u (arg la.rank) [] (moves.foldl put s).mem) ∧
        (¬ all → copies (.cpIn c) 1 u (arg la.rank) moves s.mem))) ∧
    (room → s.credits la.ring lb.ring = true → s.engAccess c.la.toNat false la.box = .ok a → dWidth a.fmt = dWidth fmt →
      (oneDst c boxLA s = .ok (ds, fmt, dp) →
        copies (.cpOut c) 2 s (arg la.rank) moves s.mem ∧ copies (.cpPeer c false) 3 s (arg la.rank) moves s.mem) ∧
      (manyDst c boxLA (arg la.rank) s = .ok (ds, fmt, dp) → copies (.cpPeer c true) 3 s (arg (la.rank + 1)) moves s.mem)) ∧
    (room → ∃ t r, joins (.cpPf c) t r 4 la (arg (2 * la.rank)) ∧ r.moves = [] ∧ t.mem = s.mem ∧
      (let box := boxCoords org ((List.range la.rank).map fun i => (arg (la.rank + i)).toInt.toNat)
       (∀ x, s.engAccess c.la.toNat false box = .ok x → r.status = 0) ∧
       (∀ x, s.engAccess c.la.toNat false box = .error x → r.status = 3))) ∧
    (room → s.credits la.ring none = true → s.engAccess c.la.toNat false la.box = .ok a → bits % 512 = 0 → bits ≤ 2 ^ 23 → slack ≠ 0 →
      s.ownsPort (s.partOf who) port = true → s.fab.connects port = true →
      ∃ t r, joins (.send c) t r 8 la (arg 2) ∧ r.port = port ∧ r.rqn = (arg 0).toNat / 256 % 256 ∧ r.slack = slack ∧
        r.flits = bits / 512 ∧ r.sq = aget 0 s.fab.sendSeq port ∧ aget 0 t.fab.sendSeq port = (aget 0 s.fab.sendSeq port + 1) % 2 ^ 32 ∧
        aget [] (t.die (dieOfWho who)).sends port = aget [] (s.die (dieOfWho who)).sends port ++ [s.ids] ∧ t.mem = s.mem) ∧
    (room → s.credits none lb.ring = true → s.engAccess c.lb.toNat true lb.box = .ok b →
      (aget [] s.fab.recvs ((arg 0).toNat % 256)).length < 16 →
      ∃ t r, joins (.recvArm c) t r 9 la (arg 1) ∧ r.moves = b.elems.map (fun e => (e, e)) ∧ t.mem = s.mem ∧
        aget [] t.fab.recvs ((arg 0).toNat % 256) = aget [] s.fab.recvs ((arg 0).toNat % 256) ++ [s.ids]) ∧
    (room → pushes fb → s.engAccess c.la.toNat false boxLB = .ok a →
      s.engAccess c.lb.toNat true lb.box = .ok b → dWidth a.fmt = dWidth b.fmt →
      let left := dst.old.free - dst.tPush - if dn = rn.toNat then 1 else 0
      (1 ≤ left → (dn ≠ rn.toNat → pushes dst) → ∃ t r, joins (.exf c rn) t r 24 la (arg la.rank) ∧ r.moves = a.elems.zip b.elems ∧
        r.deadline = some ((arg (la.rank + 1)).toNat % 2 ^ 32) ∧ r.resolved = false ∧ t.mem = s.mem ∧
        (dn ≠ rn.toNat → t.ring core rn.toNat = fb.reserve s.ids ∧ t.ring core dn = dst.reserve s.ids) ∧
        (dn = rn.toNat → t.ring core dn = (fb.reserve s.ids).reserve s.ids)) ∧
      (left = 0 → ∃ t r, joins (.exf c rn) t r 24 la (arg la.rank) ∧ r.status = 2 ∧ r.resolved = true ∧ r.moves = [] ∧
        t.mem = (s.putBytes (ringSlot core fb fb.tail) 64 (exfToken (arg la.rank) 2 org)).mem ∧
        t.ring core rn.toNat = (fb.reserve s.ids).land s.ids))

/-- A copy whose drawer requests are answered makes its moves and leaves the commands; its record, with its tag, units,
opcode and status, reaches its entry of q2 (none with .nq), where a bad source unit gives status 4, and the queue is
otherwise as it was; memory is written nowhere else unless a saved context waits for the command. An exf's block that
lands before the deadline (counted as log 100 says) is written, pushes the destination slot and returns the fallback's. A
deadline that passes first returns the destination slot, writes the token with status 1 into the fallback slot and pushes
that, and reports status 1 with no units (log 45); its late block changes nothing in memory (log 46) and the command then
leaves. (R204, R205, R207, R208, R353) -/
def Obligations.EngineCommandsEnd : Prop :=
  ∀ (id : Nat) (r : ECmdRec) (s : State), s.cmd id = some r →
    let reports (t : State) (units st : Nat) : Prop :=
      (r.nq = true → t.ctx r.who = s.ctx r.who) ∧
      (r.nq = false → (t.ctx r.who).rqGet 2 =
        arrive id (r.tag.toNat * 2 ^ 48 + Nat.min units (2 ^ 32 - 1) * 2 ^ 16 + r.opc * 256 + st) ((s.ctx r.who).rqGet 2))
    let gone (t : State) : Prop := ∀ x ∈ t.cmds, x.id ≠ id
    let writes (t u : State) : Prop := (∀ n ∈ s.svc.snaps, id + 1 ∉ n.quiet ∧ ∀ e ∈ n.ctx.rqGet 2, e.id ≠ id) → t.mem = u.mem
    ((r.opc = 1 ∨ r.opc = 2 ∨ r.opc = 3 ∨ r.opc = 4) → s.gated r = true → s.badSource r = none →
      ∃ t, exec (.engineCommandComplete id) s = .next t ∧ gone t ∧ writes t (s.moveNear r) ∧ reports t r.units r.status) ∧
    (∀ u, (r.opc = 1 ∨ r.opc = 2 ∨ r.opc = 3) → s.gated r = true → s.badSource r = some u → r.status = 0 → r.nq = false →
      ∃ t, exec (.engineCommandComplete id) s = .next t ∧ gone t ∧ reports t r.units 4 ∧ (t.ctx r.who).flt.derr = true ∧
        (t.ctx r.who).flt.derra = BitVec.ofNat 64 (u * 64 % 2 ^ 44)) ∧
    (r.opc = 24 → r.resolved = false → r.srcRing = none →
      ∀ d f : Nat × Nat, ∀ adr : Nat, r.dstRing = some d → r.fallback = some (f.1, f.2, adr) → d ≠ f →
        (r.deadline ≠ some 0 → s.gated r = true → s.badSource r = none →
          ∃ t, exec (.exfBlockLands id) s = .next t ∧ gone t ∧ writes t (s.moveNear r) ∧ reports t r.units r.status ∧
            t.ring d.1 d.2 = (s.ring d.1 d.2).land id ∧ t.ring f.1 f.2 = (s.ring f.1 f.2).unreserve) ∧
        (r.deadline = some 0 →
          ∃ t, exec (.exfDeadline id) s = .next t ∧ writes t (s.putBytes adr 64 r.token) ∧ reports t 0 1 ∧
            t.ring d.1 d.2 = (s.ring d.1 d.2).unreserve ∧ t.ring f.1 f.2 = (s.ring f.1 f.2).land id ∧
            t.cmd id = some { r with resolved := true, closed := true, dstRing := none })) ∧
    (r.closed = true → s.gated r = true → ∃ t, exec (.lateBlockDiscard id) s = .next t ∧ gone t ∧ writes t s ∧
      t.ctx r.who = s.ctx r.who) ∧
    (r.opc = 24 → r.resolved = true → r.closed = false → s.gated r = true → s.badSource r = none →
      ∃ t, exec (.engineCommandComplete id) s = .next t ∧ gone t ∧ reports t r.units r.status)

/-- Under a true guard, with room in the stage's queue of 32 and, unless .nq, in q3: ofx, with rings and boxes that fit
its control word and a calibration within its limits, joins with its input and output elements; with a stale
calibration it takes the optical trap with the cause of R237, and none while a capture stands ahead of it. ofm joins with
its 32768 fp16 elements; ofc.cap joins; ofc.rd joins with a box of 64 bytes and ofc.tab with one of 65536; ofr joins with
its phase. An entry that is no RANK 1 fp16 entry with STR0 = 1, a box of another size or a control word that does not fit
takes the layout-bounds trap of its entry, the control word's with LB's number (log 114). Each joins
behind the others, but for unstarted ones of the same tick from a context that goes after its own in the order of row,
rank and context, with its tag, class, partition and task, its ring slots taken, and, unless .nq, a pending entry stands
behind the others of q3; nothing in memory changes. Without room a command stays in its slot queue. (R223, R233, R234, R236, R237, R239, R240,
R241, R242, R243) -/
def Obligations.OpticalCommandsAccepted : Prop :=
  ∀ (c : ECmd) (x : BitVec 1) (add : Bool) (a b : Acc) (s : State), s.guard c.g = true →
    let who := s.cur.who
    let la := s.lay who c.la.toNat
    let lb := s.lay who c.lb.toNat
    let g := (s.die (dieOfWho who)).stage
    let arg (i : Nat) : Word := s.me.ctl.sget (c.sa.toNat + i)
    let w := arg 0
    let room := g.queue.length < 32 ∧ (c.nq = true ∨ (s.me.rqGet 3).length < 16)
    let frame (l : Lay) : Prop := l.rank = 1 ∧ l.str.getD 0 0 = 1 ∧ dKind (s.desc (s.partOf who) l.fmt) = 1
    let bounds (i : Instr) (n : BitVec 8) : Prop := exec i s = .next (s.trap (tBounds n.toNat))
    let joins (i : Instr) (op fn : Nat) (l : Lay) (tag : Word) (src dst : Option Nat) (p : OCmd → Prop) : Prop :=
      ∃ t o f h, exec i s = .next t ∧ p o ∧ t.cores = (s.takeRings src dst s.ids).cores ∧
      (t.die (dieOfWho who)).stage = { g with queue := f ++ o :: h } ∧ g.queue = f ++ h ∧ o.cyc = s.cyc ∧
      (∀ q ∈ f, q.cyc ≠ s.cyc ∨ q.started = true ∨ q.who ≤ who) ∧
      (∀ q, h.head? = some q → q.cyc = s.cyc ∧ q.started = false ∧ who < q.who) ∧ o.id = s.ids ∧ o.who = who ∧ o.part = s.partOf who ∧
      o.op = op ∧ o.fn = fn ∧ o.nq = c.nq ∧ o.cls = (if c.cx then c.cl.toNat else l.cls) ∧ o.tag = tag.setWidth 16 ∧
      o.started = false ∧ o.task = (s.me.inst.map fun j => j.taskno).getD 0 ∧ t.mem = s.mem ∧
      (c.nq = true → (t.ctx who).rq = s.me.rq) ∧
      (c.nq = false → (t.ctx who).rqGet 3 = s.me.rqGet 3 ++ [{ id := s.ids, seq := s.cur.ent.seq }])
    let fits := 7 ≥ oOWX w + oOSX w ∧ 7 ≥ oOWY w + oOSY w ∧ (oPR w = 3 → oPERY w ≤ 6 ∧ oOWY w + oOSY w ≤ 6) ∧ ¬ (oINV w = true ∧ o4F w = true)
    (32 ≤ g.queue.length ∨ c.nq = false ∧ 16 ≤ (s.me.rqGet 3).length → ∀ i, i = .ofx c ∨ i = .ofm c x ∨ i = .ofcCap c ∨ i = .ofcRd c ∨
      i = .ofcTab c ∨ i = .ofr c add → exec i s = .next s.unissue) ∧
    let srcFits := frame la ∧ la.ext.getD 0 0 = 2 ^ (oPERX w + oPERY w + 1)
    let dstFits := frame lb ∧ lb.ext.getD 0 0 = 2 ^ (oOWX w + oOWY w + 1) ∧ fits
    (room → s.credits la.ring lb.ring = true → (¬ srcFits → bounds (.ofx c) c.la) ∧ (srcFits → ¬ dstFits → bounds (.ofx c) c.lb)) ∧
    (room → s.credits la.ring lb.ring = true → srcFits → dstFits →
      s.engAccess c.la.toNat false la.box = .ok a → s.engAccess c.lb.toNat true lb.box = .ok b →
      (s.staleCause g (arg 1) = none → joins (.ofx c) 16 0 la (arg 2) la.ring lb.ring (fun o => o.src = a.elems ∧ o.dst = b.elems ∧ o.ctl = w ∧
        o.srcRing = la.ring.map (fun k => (coreOf who, k)) ∧ o.dstRing = lb.ring.map (fun k => (coreOf who, k)))) ∧
      (∀ k, s.staleCause g (arg 1) = some k → exec (.ofx c) s = .next (s.trap ⟨13, k, 0⟩))) ∧
    ((∃ o ∈ g.queue, o.op = 18 ∧ o.fn = 0 ∧ (o.cyc ≠ s.cyc ∨ o.who ≤ who)) → s.staleCause g (arg 1) = none) ∧
    ((∀ o ∈ g.queue, ¬ (o.op = 18 ∧ o.fn = 0)) →
      (g.calgen = 0 → s.staleCause g (arg 1) = some 1) ∧
      (g.calgen ≠ 0 → (arg 1).toNat % 2 ^ 32 * 256 < s.calAge g → s.staleCause g (arg 1) = some 2) ∧
      (g.calgen ≠ 0 → s.calAge g ≤ (arg 1).toNat % 2 ^ 32 * 256 → (arg 1).toNat / 2 ^ 32 % 256 < g.dT.natAbs →
        s.staleCause g (arg 1) = some 3)) ∧
    (room → s.credits la.ring none = true → ¬ (frame la ∧ la.ext.getD 0 0 = 32768) → bounds (.ofm c x) c.la) ∧
    (room → s.credits la.ring none = true → frame la → la.ext.getD 0 0 = 32768 →
      s.engAccess c.la.toNat false la.box = .ok a →
      joins (.ofm c x) 17 x.toNat la w la.ring none (fun o => o.src = a.elems ∧ o.srcRing = la.ring.map (fun k => (coreOf who, k)))) ∧
    (room → joins (.ofcCap c) 18 0 la w none none (fun _ => True)) ∧
    (room → s.credits none lb.ring = true → s.engAccess c.lb.toNat true lb.box = .ok b →
      (b.elems.length * dWidth b.fmt ≠ 512 → bounds (.ofcRd c) c.lb) ∧
      (b.elems.length * dWidth b.fmt ≠ 524288 → bounds (.ofcTab c) c.lb) ∧
      (b.elems.length * dWidth b.fmt = 512 → joins (.ofcRd c) 18 1 la w none lb.ring (fun o => o.dst = b.elems)) ∧
      (b.elems.length * dWidth b.fmt = 524288 → joins (.ofcTab c) 18 2 la w none lb.ring (fun o => o.dst = b.elems))) ∧
    (room → joins (.ofr c add) 19 add.toNat la (arg 1) none none (fun o => o.ctl = w))

/-- The oldest pass that has not started, with only started passes ahead, reads its input, zero for bad units, which drives
the modulators, and its record takes the calibration generation, temperature difference and age of that moment. The
oldest pass, started, writes fp16 codes to its output elements and leaves the queue; the codes come from free
estimates, turned by the reference phase less the measured one, which keep the stated accuracy where R229's conditions
hold and some report on the grid has it (log 9). A mask load at the head replaces its store by the elements read and
leaves. A capture at the head that succeeds advances the generation, which skips zero, takes the present temperature
as CALTEMP, measures free values, which the mask modulators take up, and leaves with flags 0; one that fails changes no
calibration and leaves with the flag 16. An ofr, ofc.rd or ofc.tab at the head is performed in the tick: REFPH takes its
phase or adds it, the 64-byte summary or the 64 KiB tables are written, and the calibration stays. The record of each,
unless .nq, reaches its entry of q3, with tag, opcode and flags. Memory changes nowhere else unless a saved context waits
for the record. (R223, R228, R229, R231, R232, R234, R238, R239, R240, R241, R242) -/
def Obligations.OpticalStageWorks : Prop :=
  ∀ (die : Nat) (o : OCmd) (l : List OCmd) (s : State),
    let g := (s.die die).stage
    let reports (t : State) (rec flags : Nat) : Prop :=
      (o.nq = true → t.ctx o.who = s.ctx o.who) ∧
      (o.nq = false → (t.ctx o.who).rqGet 3 = arrive o.id (o.tag.toNat * 2 ^ 48 + rec + o.op * 256 + flags) ((s.ctx o.who).rqGet 3))
    let leaves (t : State) : Prop := ∀ q ∈ (t.die die).stage.queue, q.id ≠ o.id
    let writes (t u : State) : Prop := (∀ n ∈ s.svc.snaps, o.id + 1 ∉ n.quiet ∧ ∀ e ∈ n.ctx.rqGet 3, e.id ≠ o.id) → t.mem = u.mem
    let old := o.cyc < s.cyc
    let u := s.stageTick die
    let w := (o.dst.headD ⟨0, 8, 0⟩).w
    let wrote (v : Nat) : Prop := writes u (s.putCodes o.dst ((List.range o.dst.length).map fun i => elemAt v w i))
    let z := framePairs (o.src.map s.frameCode)
    let start := g.calgen.toNat % 65536 * 2 ^ 32 + (BitVec.ofInt 8 (Max.max (-128) (Min.min 127 g.dT))).toNat * 2 ^ 24 +
      Nat.min 255 (s.calAge g / 2 ^ 24) * 2 ^ 16
    let began := if o.started then o.rec0 else start
    ((g.queue.find? fun q => !(q.op == 16 && q.started)) = some o → o.op = 16 → old →
      ∃ t p, exec (.opticalPassStart die) s = .next t ∧ p ∈ (t.die die).stage.queue ∧
        p = { o with started := true, input := z, rec0 := start, flags := p.flags, good := p.good, turn := g.refph - g.rho } ∧
        (t.die die).stage.drive = g.driven o.ctl z ∧
        (p.good = true ↔ g.calgen ≠ 0 ∧ s.calAge g ≤ 2 ^ 32 ∧ g.dT.natAbs ≤ 48 ∧ g.refph = g.rho ∧ (o4F o.ctl = true →
          ∀ i, i < 128 * (if oPR o.ctl = 3 then 64 else 128) → let m := (g.mask (oMSEL o.ctl) i).toNat; largeElem m = false ∧ badElem m = false)) ∧
        (p.flags.testBit 2 = true ↔ ∃ v ∈ z, badElem v = true) ∧ (p.flags.testBit 0 = true ↔ ∃ v ∈ z, largeElem v = true) ∧
        (p.flags.testBit 3 = true ↔ ∃ e ∈ o.src, ∃ u ∈ e.units, u ∈ s.bad) ∧ t.mem = s.mem) ∧
    (g.queue = o :: l → o.op = 16 → o.started = true →
      let d := modelD g o.ctl o.input
      let near := d.map (nearReport o.ctl)
      ∃ t es fl, exec (.opticalWindowWrite die) s = .next t ∧ leaves t ∧ reports t o.rec0 fl ∧ es.length = d.length ∧
        (o.good = true → o.flags = 0 → accurate o.ctl d es = true ∨ (∃ k ∈ es, beyond k = true) ∨ accurate o.ctl d near = false) ∧
        (fl = if ∃ k ∈ es, beyond (rotated o.ctl o.turn k) = true then o.flags + 2 else o.flags) ∧
        writes t (s.putCodes o.dst (es.map fun k => [reportCode o.ctl (rotated o.ctl o.turn k).1,
          reportCode o.ctl (rotated o.ctl o.turn k).2]).flatten)) ∧
    (g.queue = o :: l → o.op = 17 → old →
      ∃ t, exec (.maskLoadComplete die) s = .next t ∧ leaves t ∧ reports t began (s.inputFlags o.src z) ∧ writes t s ∧
        (if o.fn = 0 then (t.die die).stage.code0 else (t.die die).stage.code1) = g.coded z ∧
        (∀ i, i < z.length → (t.die die).stage.mask (if o.fn = 0 then 0 else 1) i = BitVec.ofNat 32 (z.getD i 0)) ∧
        (o.fn = 0 → (t.die die).stage.mask1 = g.mask1) ∧ (o.fn ≠ 0 → (t.die die).stage.mask0 = g.mask0)) ∧
    (g.queue = o :: l → o.op = 18 → o.fn = 0 → old →
      (∃ t, exec (.captureComplete die true) s = .next t ∧ leaves t ∧ reports t began 0 ∧ writes t s ∧
        (∀ m ∈ g.code0, (m.1, m.2.1, m.2.2 - g.mbias + (t.die die).stage.mbias) ∈ (t.die die).stage.code0) ∧
        (∀ m ∈ g.code1, (m.1, m.2.1, m.2.2 - g.mbias + (t.die die).stage.mbias) ∈ (t.die die).stage.code1) ∧
        (t.die die).stage.calgen = (if g.calgen = 0xFFFFFFFF then 1 else g.calgen + 1) ∧ (t.die die).stage.caltemp = g.temp ∧
        (t.die die).stage.rho = (t.die die).stage.refph ∧ t.calAge (t.die die).stage = 0) ∧
      (∃ t, exec (.captureComplete die false) s = .next t ∧ leaves t ∧ reports t began 16 ∧ writes t s ∧
        (t.die die).stage = { g with queue := (t.die die).stage.queue })) ∧
    (g.queue = o :: l → o.op = 19 → leaves u ∧ reports u began 0 ∧ writes u s ∧
      (u.die die).stage = { g with queue := (u.die die).stage.queue, refph := (if o.fn = 1 then g.refph else 0) + o.ctl.setWidth 10 }) ∧
    (g.queue = o :: l → o.op = 18 → o.fn = 1 → leaves u ∧ reports u began 0 ∧ (u.die die).stage = { g with queue := (u.die die).stage.queue } ∧
      ∃ v : BitVec 512, wrote v.toNat ∧ v.extractLsb' 0 32 = g.calgen ∧ v.extractLsb' 32 64 = BitVec.ofNat 64 (s.calAge g) ∧
        v.extractLsb' 96 16 = g.caltemp ∧ v.extractLsb' 112 16 = g.temp ∧ v.extractLsb' 128 10 = g.refph ∧ v.extractLsb' 144 10 = g.mbias ∧
        v.extractLsb' 160 16 = g.detoff ∧ v.extractLsb' 176 16 = g.detgain ∧ v.extractLsb' 192 320 = 0 ∧ v.extractLsb' 138 6 = 0 ∧
        v.extractLsb' 154 6 = 0) ∧
    (g.queue = o :: l → o.op = 18 → o.fn = 2 → leaves u ∧ reports u began 0 ∧ (u.die die).stage = { g with queue := (u.die die).stage.queue } ∧
      ∃ v : Nat, wrote v ∧ (∀ i, i < 16384 → elemAt v 16 i = (g.gain i).toNat ∧ elemAt v 16 (16384 + i) = (g.phc i).toNat) ∧
        (g.tables = none → ∀ i, i < 16384 → elemAt v 16 i = 0x8000 ∧ elemAt v 16 (16384 + i) = 0))

/-- When no wait, drawer access or later slot of its group stands in the way, a due result leaves the results in flight
and reaches its place: a scalar, a predicate, the marked bits of a lane mask, MXCFG, or the marked bits of window
bytes (each 512 B block that they touch first kept in the undo file). A scalar result for s0 and a predicate for p0 change no
register; the flags that it carries are set. Nothing else of the context but the record of the landing, and no other context, changes. A due entry of q1,
q4 or q5 arrives with its data. The oldest latch write lands once no operation left, of a split bundle's second half
either, can still see the old latch. (R29,
R31, R38, R45, R49, R53) -/
def Obligations.ResultsLand : Prop :=
  ∀ (who k : Nat) (s : State),
    let c := s.ctx who
    let base := s.winBase who
    let lands (f : Fly) (mem : Memory) (p : Ctx → Prop) : Prop := ∃ t, exec (.resultWrite who k) s = .next t ∧
      t = { s with ctxs := t.ctxs, mem := mem } ∧ (∀ v, v ≠ who → t.ctx v = s.ctx v) ∧ p (t.ctx who) ∧
      t.ctx who = { c with ctl := (t.ctx who).ctl, undo := (t.ctx who).undo, fly := c.fly.filter (fun g => g.id != k),
                           landed := c.landed ++ [{ slot := f.slot.num, grp := f.grp, dst := f.dst, size := f.size, bm := f.bits }] }
    (∀ f, c.fly.find? (fun g => g.id == k) = some f → c.susp = false → f.left = 0 → f.gate = [] → f.late = none →
      (∀ l ∈ c.landed, l.slot ≤ f.slot.num ∨ l.grp ≠ f.grp) →
      (∀ n, f.dst = .scalar n → lands f s.mem fun d => d.undo = c.undo ∧ d.ctl = { c.ctl.flag f.flg with s := d.ctl.s } ∧
        ∀ m, d.ctl.sget m = if m = n ∧ n ≠ 0 then BitVec.ofNat 64 f.val else c.ctl.sget m) ∧
      (∀ n, f.dst = .pred n → lands f s.mem fun d => d.undo = c.undo ∧ d.ctl = { c.ctl.flag f.flg with p := d.ctl.p } ∧
        ∀ m, d.ctl.pget m = if m = n ∧ n ≠ 0 then f.val != 0 else c.ctl.pget m) ∧
      (∀ n, f.dst = .mask n → lands f s.mem fun d => d.undo = c.undo ∧ d.ctl = { c.ctl.flag f.flg with m := d.ctl.m } ∧ ∀ m i, i < 1024 → (d.ctl.mget m).getLsbD i =
        if m = n ∧ f.bm.testBit i = true then f.val.testBit i else (c.ctl.mget m).getLsbD i) ∧
      (f.dst = .mxcfg → lands f s.mem fun d => d.undo = c.undo ∧
        d.ctl = { c.ctl.flag f.flg with mxcfg := BitVec.ofNat 64 f.val }) ∧
      (∀ off, f.dst = .win off → s.undoFull who off f.size f.bm = false →
        lands f (s.mem.writeMask (base + off) f.size f.val f.bm) fun d => d.ctl = c.ctl.flag f.flg ∧
          d.undo = c.undo ++ ((touched off f.size f.bm).filter fun b => !c.undo.any fun u => u.1 == b).map fun b =>
            (b, s.mem.read (base + b * 512) 512))) ∧
    (∀ q e, (c.rqGet q).find? (fun e => e.id == k && !e.arrived && e.left == 0) = some e → c.susp = false →
      let got (i : Instr) : Prop := ∃ t, exec i s = .next t ∧ s.Becomes t who (c.rqSet q (arrive k e.data (c.rqGet q)))
      (q = 1 → got (.divisionResultPush who k)) ∧ (q = 4 ∨ q = 5 → got (.vectorQueueEntryPush who q k))) ∧
    (∀ w r, c.ctl.latw = w :: r →
      let see := w.seq + (match w.sel with | .v0 | .v1 => 3 | _ => 2)
      see ≤ c.ctl.seq → (∀ sl, sl = Slot.v0 ∨ sl = .v1 ∨ sl = .m → ∀ e ∈ c.pendingOps sl, see ≤ e.seq) →
      ∃ t, exec (.latchWriteLands who 0) s = .next t ∧
        s.Becomes t who { c with ctl := { c.ctl with lat := c.ctl.lat.put w, latw := r } })

/-- Once every operation of a span that ends at a checkpoint has completed, the release makes the context's control state
the shadow, empties the undo file, the withholding buffer and the popped entries, publishes the withheld credits of
the context's own rings and of no other ring, in the order of the firings (log 109; where a store to a local space still
waits behind a drawer access, the credits wait with it: log 36), and performs each withheld store: a single one to near or
local memory with no drawer access open is in memory after it, and with none memory stays as it was. A `brk` or `trap`
that the span's bundle marked is then raised: the trap of kind 18 or 19, with its code, of slot 0, at its bundle. A touch window with no bundle
left closes, alone. A context whose block has cleared is unblocked. A cleared ring with no firing in flight has PEND
0. An instance that has dispatched nothing for 2^30 ticks sets its own watchdog bit and no other. (R23, R32, R33, R37,
R63, R65, R66, R68, R130, R384) -/
def Obligations.SpansAndBlocksClear : Prop :=
  (∀ (who : Nat) (s : State),
    let c := s.ctx who
    (c.ckDue = true → s.idleSpan who = true → c.susp = false →
      ∃ t, exec (.checkpointRelease who) s = .next (match c.soft with | none => t | some (k, m, pc) => t.takeTrap who ⟨k, 0, m⟩ 0 pc) ∧
        let d := t.ctx who
        let waits := t.fab.reqs.any fun r => r.open who && r.kind == 1 && decide (localBase ≤ r.unit * 64)
        d.shadow = d.ctl ∧ d.undo = [] ∧ d.held = [] ∧ d.popped = [] ∧ d.ckDue = false ∧ d.irrev = none ∧
        (∀ v, v ≠ who → t.ctx v = s.ctx v) ∧
        (∀ n, let r := s.ring (coreOf who) n
          ¬ r.owner = ctxOf who → t.ring (coreOf who) n = r) ∧
        (∀ n, let r := s.ring (coreOf who) n
          let out (o : Owed) : Owed := { o with own := false, wait := o.wait || (o.own && waits) }
          let first (l : List Owed) (k : Nat) : Prop := (∀ o ∈ l.take k, o.ready = true) ∧ ∀ o, (l.drop k).head? = some o → o.ready = false
          r.owner = ctxOf who → ∃ a b, first (r.pops.map out) a ∧ first (r.pushes.map out) b ∧ t.ring (coreOf who) n =
            { r with free := r.free + a, pops := (r.pops.map out).drop a, filled := r.filled + b, pushes := (r.pushes.map out).drop b }) ∧
        (c.held = [] → t.mem = s.mem ∧ d.ctl = c.ctl) ∧
        (∀ e, c.held = [e] → e.cls ≠ 17 → e.mask ≠ 0 → e.drawer = none → s.fab.reqs = [] →
          t.mem = (s.writeUnit e.key e.unit e.val e.mask).mem ∧ d.ctl = c.ctl)) ∧
    (∀ n, (∃ w ∈ c.wins, w.n = n ∧ w.left = 0) → ∃ t, exec (.touchWindowExpiry who n) s = .next t ∧
      t.ctx who = { c with wins := c.wins.filter fun w => !(w.n == n && w.left == 0) } ∧ (∀ v, v ≠ who → t.ctx v = s.ctx v) ∧
      t.mem = s.mem) ∧
    (∀ b, c.blk = some b → s.blockClear who b = true → ∃ t, exec (.contextReady who) s = .next t ∧
      t = (s.modCtx who fun c => { c with blk := none }).elect (coreOf who) ∧ t.ctx who = { c with blk := none } ∧
      (∀ v, v ≠ who → t.ctx v = s.ctx v) ∧ t.mem = s.mem) ∧
    (isFw who = false → c.inst.isSome = true → 2 ^ 30 ≤ c.idle →
      let w := rowOf (coreOf who)
      let bit := 4 * rankOf (coreOf who) + ctxOf who
      ∃ t, exec (.watchdogExpiry who) s = .next t ∧ t = { s with rows := t.rows } ∧
        ∀ k, k < 64 → (t.row w).wdog.getLsbD k = (decide (k = bit) || (s.row w).wdog.getLsbD k))) ∧
  (∀ (core n : Nat) (s : State),
    let r := s.ring core n
    r.pend = true → (∀ o ∈ r.pops, o.done = true ∧ o.readers = []) → (∀ o ∈ r.pushes, o.done = true) → ∃ t, exec (.ringClearComplete core n) s = .next t ∧
      t = { s with cores := t.cores } ∧ ∀ m, t.ring core m = if m = n then { r with pend := false } else s.ring core m)

/-- A context whose turn it is (log 28), with no checkpoint to release first (log 14): its bundle's first failing check of
R110 is taken as a trap of that slot; a bundle with none moves the pc and the counts of bundles on by one, and each non-empty slot's
operation joins the end of its queue (with both units of each kind bound; the second half of a split bundle joins in
its own tick). A ring operation at the head of its queue that may issue has its effect; one that blocked its context
unblocks it and then has its effect, once what it waits for is there. A row's broadcast bundles whose skew has passed
are put into the buffers of their cores; with room in every buffer the sequencer fetches the next bundle for every
participating core, that of rank k to come k times SKEW ticks after rank 0's, and stalls at a control transfer (log 82).
The room counts what is still on its way (log 115). A unit of code that no key has written is under the fetch's (log 7). (R22, R25, R27, R28, R31, R65, R110, R113) -/
def Obligations.BundlesDispatchAndFire : Prop :=
  (∀ (bits : BitVec 512) (s : State),
    let who := s.cur.who
    let c := s.ctx who
    let b := splitBundle bits
    let joins (t : State) (ents : List (Slot × Ent)) : Prop := ∀ sl, (t.ctx who).q sl = c.q sl ++ (ents.filter fun p => p.1 == sl).map (·.2)
    (c.split = none → s.turn who b = true → (c.bracket (c.opsOf b).1).2 = false →
      let u := (s.claimCode who c.ctl.pc.toNat).modCtx who fun c => if c.foots.isEmpty then { c with ctl := { c.ctl with ibf := c.ctl.ib } } else c
      let l := ((u.ctx who).opsOf b).1
      (∀ tr k, u.verdict who b l = some (tr, k) → exec (.bundleDispatch bits) s = .next (u.takeTrap who tr k c.ctl.pc)) ∧
      (u.verdict who b l = none → (s.core (coreOf who)).bind = 0xA → c.splId = none → ∃ t, exec (.bundleDispatch bits) s = .next t ∧
        joins t (l.map fun d => (d.sl, d.ent)) ∧ (t.ctx who).ctl.pc = c.ctl.pc + 1 ∧ (t.ctx who).bundles = c.bundles + 1 ∧
        (t.ctx who).ctl.s = c.ctl.s ∧ (∀ v, v ≠ who → t.ctx v = s.ctx v) ∧ t.mem = s.mem)) ∧
    (∀ p, c.split = some p → (∀ x ∈ (s.core (coreOf who)).tick, x.1 ≠ ctxOf who) → s.beside who p.occ p.stop = true →
      ∃ t, exec (.bundleDispatch bits) s = .next t ∧ joins t p.ents ∧ (t.ctx who).split = none ∧ (t.ctx who).ctl.pc = c.ctl.pc ∧
        t.mem = s.mem)) ∧
  (∀ (who : Nat) (sl : Slot) (e : Ent) (r : List Ent) (i : Instr) (s : State), (s.ctx who).q sl = e :: r → e.opIn sl = some i →
    (issueRing i s).isSome = true →
    let fires (t : State) : Prop := exec (.operationFires who sl) s = exec i (t.issuing who sl e) ∧
      ∀ g z rg rn, i = .rpop g z rg rn → (t.ring (coreOf who) rn.toNat).en = true →
        1 + (t.ring (coreOf who) rn.toNat).tPop ≤ (t.ring (coreOf who) rn.toNat).old.filled → ∃ v, exec (.operationFires who sl) s = .next v ∧
        v.ring (coreOf who) rn.toNat = ((t.ring (coreOf who) rn.toNat).pop 1 true).credit 1 0 true
    ((s.ctx who).blk = none → s.mayIssue who sl e i = true → fires s) ∧
    (∀ b, (s.ctx who).blk = some b → (s.ctx who).blkSl = sl.num → s.blockClear who b = true →
      let t := (s.modCtx who fun c => { c with blk := none }).elect (coreOf who)
      t.mayIssue who sl e i = true → fires t)) ∧
  (∀ (row rank : Nat) (b : Bcast) (s : State), (s.row row).bcast = some b →
    let lands (x : Bcast) : Prop := ∃ t, exec (.broadcastDelivery row rank) s = .next t ∧
      (t.row row).bcast = some { x with todo := x.todo.filter fun e => e.2.2.2 != 0 } ∧
      (∀ k, (t.core (row * 16 + k)).bbuf = (s.core (row * 16 + k)).bbuf ++
        (x.todo.filter fun e => e.2.2.2 == 0 && e.1 == k).map fun e => (e.2.1, e.2.2.1)) ∧ t.ctxs = s.ctxs ∧ t.mem = s.mem
    (b.ranks.head? ≠ some rank → lands b) ∧
    (∀ r i v, b.ranks = rank :: r → b.stall = false → s.bcastRoom row b = true → (s.ctx ((row * 16 + rank) * 4)).inst = some i →
      (b.pc - i.first).toNat < i.nb → s.codeAt (row * 16 + rank) i.part b.pc.toNat = .ok v →
      lands { b with pc := b.pc + 1, stall := turns v, todo := b.todo ++ b.ranks.map fun r => (r, b.pc, v, r * b.skew) }))

/-- A free context that is offered a new instance of a task that stands alone, with no ring to prepare, holds it: task
number, WID, partition, the kernel's first bundle, FSTAT 0, the default level, the task's layouts, its scalar
registers as they were; the dispenser goes on to the next index. A halted context with all its work complete and
nothing offered holds none, has level 0 and no window, and its task counts one instance less; a halted firmware core
goes on at bundle 0. HOLD stops a running context with its work kept. With HOLD clear a stopped context goes on, or
first asks for its level; a pre-empted instance is restored and its save slot freed. An overrun instance with no other
ready starts a new quantum; with another ready and a free save slot it is saved and its context holds none, once no
load of it is without its data; the next instance there is another one (log 113). A core with a running context preloads the first bundles of the task offered next to
it, and drops them once that task is next for no context of the core. (R20, R23, R38,
R131, R289, R296, R331, R335, R336, R337) -/
def Obligations.InstancesComeAndGo : Prop :=
  ∀ (who : Nat) (s : State),
    let c := s.ctx who
    let die := dieOfWho who
    (∀ slot idx k, s.freeCtx who = true → s.offer who = some (.fresh slot idx) →
      let a := (s.die die).task slot
      a.chain = none → s.taskKernel a = some k → a.bcast = false → k.rings = [] → (∀ r ∈ (s.core (coreOf who)).rings, r.2.en = false) →
      ∃ t i, exec (.instanceStart who) s = .next t ∧ (t.ctx who).inst = some i ∧ i.taskno = a.taskno ∧ i.wid = a.wid idx ∧
        i.part = a.part ∧ i.idx = idx ∧ (t.ctx who).ctl.pc = k.first ∧ (t.ctx who).ctl.fstat = 0 ∧ (t.ctx who).ctl.s = c.ctl.s ∧
        (t.ctx who).level = (s.part a.part).ctl.toNat / 2 ^ 24 % 256 ∧ (t.ctx who).layout = a.layout ∧
        aget 0 ((t.die die).task slot).next (coreOf who) = idx + 1 ∧ (∀ v, v ≠ who → t.ctx v = s.ctx v) ∧ t.mem = s.mem) ∧
    (c.halting = true → s.quiet who = true →
      (isFw who = true → ∃ t, exec (.instanceEnd who) s = .next t ∧ s.Becomes t who
        { c with ctl := { c.ctl with pc := 0 }, shadow := { c.ctl with pc := 0 }, rq := [], halting := false, trapped := false }) ∧
      (∀ i, isFw who = false → c.inst = some i → i.bcast = false → i.spl = none → (s.endInst who none).offer who = none →
        ∃ t, exec (.instanceEnd who) s = .next t ∧ (t.ctx who).inst = none ∧ (t.ctx who).level = 0 ∧ (t.ctx who).wins = [] ∧
          ((t.die i.die).task i.slot).left = ((s.die i.die).task i.slot).left - 1 ∧ t.mem = s.mem)) ∧
    (c.hold = true → c.inst.isSome = true → isFw who = false → c.susp = false → c.split = none →
      (∀ e ∈ c.rqGet 0, e.arrived = true) → c.wait = none →
      (c.irrev = none ∨ s.holding who = true) →
      ∃ t, exec (.preemption who) s = .next t ∧ t.ctx who =
        { c with susp := true, blk := none, level := 0, inst := c.inst.map fun i => { i with lvl := c.level } } ∧
        (∀ v, v ≠ who → t.ctx v = s.ctx v) ∧ t.mem = s.mem) ∧
    (c.hold = false → c.susp = true → ∀ i, c.inst = some i → ((c.preReq = true ∨ s.overrun i = true) → s.drained who = true) →
      (i.lvl = 0 → ∃ t, exec (.contextResume who) s = .next t ∧ t.ctx who = { c with susp := false, woke := true } ∧ t.mem = s.mem) ∧
      (i.lvl ≠ 0 → (∀ r ∈ (s.die die).pwrq, r.1 ≠ who) → ∃ t, exec (.contextResume who) s = .next t ∧ t.ctxs = s.ctxs ∧
        ∃ a b, (s.die die).pwrq = a ++ b ∧ (t.die die).pwrq = a ++ (who, i.lvl, s.cyc) :: b ∧
          (∀ x ∈ a, ¬ (x.2.2 = s.cyc ∧ who < x.1)) ∧ ∀ x, b.head? = some x → x.2.2 = s.cyc ∧ who < x.1)) ∧
    (∀ slot k addr n u, s.freeCtx who = true → s.offer who = some (.saved slot k addr) →
      s.snap ((s.die die).task slot).part addr = some n → c.hold = false → c.inst = none → s.restoreWaits who n = false → s.restoreTo who ((s.die die).task slot).part addr n = .ok u →
      ∃ t, exec (.contextResume who) s = .next t ∧ t.ctxs = u.ctxs ∧ t.mem = u.mem ∧
        (t.die die).saves = (u.die die).saves.filter fun x => x != (((s.die die).task slot).part, k)) ∧
    (∀ i, isFw who = false → c.inst = some i → c.preReq = false → s.overrun i = true →
      let prio := ((s.die i.die).task i.slot).prio
      (s.otherReady who prio = false → ∃ t, exec (.quantumOverrun who) s = .next t ∧
        s.Becomes t who { c with preReq := false, inst := some { i with held := 0 } }) ∧
      (∀ k addr t u, s.otherReady who prio = true → s.saveSlot die i.part = some (k, addr) → s.stop who = some t →
        (t.drained who = false → exec (.quantumOverrun who) s = .next t) ∧
        (t.drained who = true → t.saveTo who i.part addr = .ok u → ∃ v, exec (.quantumOverrun who) s = .next v ∧
          v.ctx who = { u.ctx who with spent := some addr } ∧ (∀ w, w ≠ who → v.ctx w = u.ctx w) ∧ (v.ctx who).inst = none ∧
          v.mem = u.mem ∧ (v.die die).saves = (u.die die).saves ++ [(i.part, k)]))) ∧
    (∀ core : Nat,
      (∀ n l k, (s.core core).preload = none → s.nextSlots core (fun j => (s.ctx (core * 4 + j)).inst.isSome) = n :: l →
        s.taskKernel ((s.die (dieOf core)).task n) = some k → ∃ t x, exec (.speculativePreload core) s = .next t ∧
          (t.core core).preload = some x ∧ x.slot = n ∧ x.pc = k.first ∧ x.code = k.code.take 512 ∧ t = { s with cores := t.cores }) ∧
      (∀ p, (s.core core).preload = some p → p.slot ∈ s.nextSlots core (fun _ => true) → exec (.speculativePreload core) s = .next s) ∧
      (∀ p, (s.core core).preload = some p → p.slot ∉ s.nextSlots core (fun _ => true) → ∃ t, exec (.speculativePreload core) s = .next t ∧
        (∀ x, (t.core core).preload = some x → x.slot ≠ p.slot) ∧ t = { s with cores := t.cores }))

/-- RINGCFG: ignored while PEND is 1; on an enabled ring only EN can change, and clearing it sets PEND; on a disabled ring
every field is written, and EN is set only for a legal shape. RINGST: ignored while EN or PEND is 1, else its counters
are written. CTX.CFG sets HOLD and ARR; CCFG sets TWO unless the core holds an instance; PIPCLR clears every pip
counter; a pip counter takes 32 bits; a 1 written to TCH.OPEN closes that window alone. PRT.CTL keeps DEFLVL within
PCAP and its reserved bits 0; PRT.OWN is written when no rule holds it back, and not when another enabled partition
holds one of its bits. BOOT.CTL clears the STATE of the steps it marks once boot has ended. EPC, TVEC and the saved
scalars are written through their system register numbers; a number that names no register writes nothing. (R63, R167,
R296, R301, R347, R385, R386, R391) -/
def Obligations.CoreRegisterWrites : Prop :=
  (∀ (core n : Nat) (v : Word) (s : State),
    let r := s.ring core n
    let f (lo w : Nat) : Nat := v.toNat / 2 ^ lo % 2 ^ w
    let size (log : Nat) : Nat := 64 * 2 ^ log
    let legal := f 14 4 ≤ 10 ∧ 1 ≤ f 6 8 ∧ f 18 17 * 64 % Nat.min (size (f 14 4)) 4096 = 0 ∧
      f 18 17 * 64 + size (f 14 4) * (f 6 8 + 1) ≤ bufSize (f 35 2)
    let puts (i : Instr) (q : Ring) : Prop := ∃ t, exec i s = .next t ∧ t = { s with cores := t.cores } ∧
      (∀ m, t.ring core m = if m = n then q else s.ring core m) ∧ ∀ c, c ≠ core → t.core c = s.core c
    (r.pend = true → puts (.ringcfgWrite core n v) r) ∧
    (r.pend = false → r.en = true →
      puts (.ringcfgWrite core n v) (if v.getLsbD 37 then r else { r with en := false, pend := true })) ∧
    (r.pend = false → r.en = false → ∃ en : Bool, (en = true ↔ v.getLsbD 37 = true ∧ legal) ∧
      puts (.ringcfgWrite core n v) { r with owner := f 38 2, en := en, buf := f 35 2, base := f 18 17, slotlog := f 14 4, countm1 := f 6 8 }) ∧
    puts (.ringstWrite core n v)
      (if r.en = true ∨ r.pend = true then r else { r with free := f 25 9, filled := f 16 9, tail := f 8 8, head := f 0 8 })) ∧
  (∀ (who core j : Nat) (v : Word) (s : State),
    let c := s.ctx who
    let k := s.core core
    let busy := ∃ n, n < 4 ∧ (s.ctx (core * 4 + n)).inst.isSome = true
    let puts (i : Instr) (q : Core) : Prop := ∃ t, exec i s = .next t ∧ t = { s with cores := t.cores } ∧
      ∀ m, t.core m = if m = core then q else s.core m
    (∃ t, exec (.ctxCfgWrite who v) s = .next t ∧ s.Becomes t who { c with hold := v.getLsbD 1, arr := v.getLsbD 0 }) ∧
    (busy → exec (.ctxCcfgWrite core v) s = .next s) ∧ (¬ busy → puts (.ctxCcfgWrite core v) { k with two := v.getLsbD 0 }) ∧
    (v.getLsbD 0 = true → puts (.pipclr core v) { k with pips := [] }) ∧ (v.getLsbD 0 = false → exec (.pipclr core v) s = .next s) ∧
    (∃ t, exec (.pipWrite core j v) s = .next t ∧ t = { s with cores := t.cores } ∧ ∀ m,
      aget 0 (t.core core).pips m = if m = j % 256 then v.setWidth 32 else aget 0 k.pips m) ∧
    (∃ t, exec (.tchOpenWrite who v) s = .next t ∧ t.ctx who = { c with wins := c.wins.filter fun w => !v.getLsbD w.n } ∧
      (∀ w, w ≠ who → t.ctx w = s.ctx w) ∧ t.mem = s.mem)) ∧
  (∀ (part : Nat) (v : Word) (s : State),
    let own := v &&& 0xFFFFF
    let ch := (s.part part).own ^^^ own
    let f (x : Word) (lo w : Nat) : Nat := x.toNat / 2 ^ lo % 2 ^ w
    (∃ t, exec (.prtCtlWrite part v) s = .next t ∧ t = { s with parts := t.parts } ∧ (∀ p, p ≠ part → t.part p = s.part p) ∧
      let ctl := (t.part part).ctl
      t.part part = { s.part part with ctl := ctl } ∧ f ctl 0 16 = f v 0 16 ∧ f ctl 16 8 = 0 ∧ f ctl 32 26 = f v 32 26 ∧ f ctl 58 6 = 0 ∧
      f ctl 24 8 = Nat.min (f v 24 8) (f v 32 8)) ∧
    ((∀ p ∈ s.parts, p.1 ≠ part → prtEn p.2.ctl = true → p.2.own &&& own = 0) →
      (∀ p ∈ s.ctxs, isFw p.1 = false → p.2.inst.isSome = true → ch.getLsbD (rowOf (coreOf p.1)) = false) →
      (∀ n ∈ s.svc.snaps, ch.getLsbD (rowOf (coreOf n.place)) = false) →
      (∀ d, d < 4 → ch.getLsbD (16 + d) = true → (s.die d).stage.queue = []) →
      ∃ t, exec (.prtOwnWrite part v) s = .next t ∧ t = { s with parts := t.parts } ∧
        ∀ p, t.part p = if p = part then { s.part part with own := own } else s.part p) ∧
    ((∃ p ∈ s.parts, p.1 ≠ part ∧ prtEn p.2.ctl = true ∧ p.2.own &&& own ≠ 0) → exec (.prtOwnWrite part v) s = .next s)) ∧
  (∀ (v : Word) (s : State),
    (s.svc.bst = 0 → exec (.bootCtlWrite v) s = .next s) ∧
    (s.svc.bst ≠ 0 → ∃ t, exec (.bootCtlWrite v) s = .next t ∧ t = { s with svc := { s.svc with steps := t.svc.steps } } ∧
      ∀ k, k < 16 → aget 0 t.svc.steps k =
        if v.getLsbD (48 + k) then aget 0 s.svc.steps k &&& ~~~0xF else aget 0 s.svc.steps k)) ∧
  (∀ (srn : BitVec 32) (v : Word) (s : State),
    let n := srnOf srn.toNat
    let c := s.ctx n.who
    let puts (d : Ctx) : Prop := ∃ t, exec (.sysregWrite srn v) s = .next t ∧ s.Becomes t n.who d
    (n.group = 1 → n.word = 2 → puts { c with epc := v.setWidth 50 }) ∧ (n.group = 1 → n.word = 3 → puts { c with tvec := v.setWidth 50 }) ∧
    (n.group = 2 → n.word = 0x10 → puts { c with flt := { c.flt with sav0 := v } }) ∧
    (n.group = 2 → n.word = 0x11 → puts { c with flt := { c.flt with sav1 := v } }) ∧
    (n.group = 0 ∨ 12 < n.group → exec (.sysregWrite srn v) s = .next s))

/-- A drawer slot register reads as last written at once, while the entry in force stays as it was (log 52); no other slot
register changes. A write of a ring modulator sets its wavelength, service bit and heater code; a new code empties its monitor
reading, the same code leaves it; its lane group has a changeover waiting. The heater then takes the register's code.
At the end of a microsecond whose whole span ran at the present code, two averages that lie within 8 codes of twice the
detuning, or any while that is above 512, are set with MV; others do not come (log 106). At a changeover, once a flit
boundary of the lane group has passed since the write, each wavelength of the group is modulated by the highest-numbered
ring in service on it, or by none, and the changeover waits no more. (R361, R363, R396, R397, R398) -/
def Obligations.FabricRegisterWrites : Prop :=
  ∀ (s : State),
    let f := s.fab
    let ring (f : Fabric) (n : Nat) : MRing := aget {} f.rings n
    (∀ d k v, d < 2 → k < 256 → ∃ t, exec (.drawerSlotWrite d k v) s = .next t ∧ t = { s with fab := t.fab } ∧
      t.fab.d0slot = f.d0slot ∧ t.fab.d1slot = f.d1slot ∧
      ∀ e j, t.fab.slotReg e j = if e = d ∧ j = k then v.setWidth 12 else f.slotReg e j) ∧
    (∀ (n : Nat) (v : Word), ∃ t, exec (.lnkRingWrite n v) s = .next t ∧ t = { s with fab := t.fab } ∧
      (∀ m, m ≠ n → ring t.fab m = ring f m) ∧ (∃ x, (n / 64, n / 16 % 4, x) ∈ t.fab.chg) ∧
      ((∀ x, (n / 64, n / 16 % 4, x) ∉ f.chg) → (n / 64, n / 16 % 4, s.ltime) ∈ t.fab.chg) ∧
      let r := ring t.fab n
      r.heat = v.setWidth 12 ∧ r.wl = v.extractLsb' 32 3 ∧ r.svc = v.getLsbD 31 ∧
      (v.setWidth 12 = (ring f n).heat → r.mhi = (ring f n).mhi ∧ r.mlo = (ring f n).mlo ∧ r.mv = (ring f n).mv) ∧
      (v.setWidth 12 ≠ (ring f n).heat → r.mhi = 0 ∧ r.mlo = 0 ∧ r.mv = false ∧ r.since = s.cyc)) ∧
    (∀ n, ∃ t, exec (.heaterApply n) s = .next t ∧ t = { s with fab := t.fab } ∧ t.fab.rings = f.rings ∧
      ∀ m, aget 0 t.fab.heat m = if m = n then (ring f n).heat else aget 0 f.heat m) ∧
    (∀ n a b,
      let d : Int := (ring f n).centre.toInt - (ring f n).heat.toNat
      let comes := s.cyc % s.mhz = 0 ∧ (ring f n).since + s.mhz ≤ s.cyc ∧ (512 < d.natAbs ∨ ((a.toNat : Int) - b.toNat - 2 * d).natAbs ≤ 8)
      (comes → ∃ t, exec (.monitorUpdate n a b) s = .next t ∧ t = { s with fab := t.fab } ∧
        ∀ m, ring t.fab m = if m = n then { ring f n with mhi := a, mlo := b, mv := true } else ring f m) ∧
      (¬ comes → exec (.monitorUpdate n a b) s = .next s)) ∧
    (∀ p j x,
      let flit (ns : Nat) : Nat := (BitVec.ofNat 32 ns + (s.pair p).phase).toNat / (8 / (s.pair p).lanes)
      (p, j, x) ∈ f.chg → (8 / (s.pair p).lanes = 0 ∨ flit x ≠ flit s.ltime) → ∃ t, exec (.modulatorChangeover p j) s = .next t ∧ t = { s with fab := t.fab } ∧
      (∀ y, (p, j, y) ∉ t.fab.chg) ∧ t.fab.rings = f.rings ∧ ∀ w, w < 8 →
        let on (r : Nat) : Prop := (ring f (64 * p + 16 * j + r)).svc = true ∧ (ring f (64 * p + 16 * j + r)).wl.toNat = w
        let m := aget 0 t.fab.heatw ((p * 4 + j) * 8 + w)
        (m = 0 → ∀ r, r < 9 → ¬ on r) ∧ (0 < m → m ≤ 9 ∧ on (m - 1) ∧ ∀ r, m ≤ r → r < 9 → ¬ on r))

/-- Through a port that is up, a write inside near memory puts its bytes, as they are (log 7), at rising addresses and changes
no other byte, and a read sends the bytes that stand there; through another port, or beyond near memory, nothing happens
(log 85). A session comes up only when it asks for reliable delivery and for no
receiver credit. A port's token arises 62.5 ns after its last: the oldest packet that waits for it leaves, or the port
keeps it. A command doorbell within the queue's entries makes PI
its value; one that claims more leaves PI as it was and answers with status 3 through the completion ring; one that
meets waiting completions is held. A completion doorbell in range makes CCI its value, and the oldest waiting record
then goes into the ring. A record's packet leaves by the queue's port with the token that the port keeps, or waits
for the next. (Which port serves a queue, and that a port keeps one token, is the model's choice of log 64.) (R2, R254, R315, R318, R319, R321, R322, R387) -/
def Obligations.HostPortsAndDoorbells : Prop :=
  (∀ (port addr n : Nat) (rod : Bool) (bytes : List Byte) (s : State), s.svc.ports.getLsbD port = true →
    (addr + bytes.length ≤ nearSize → ∃ t, exec (.hostWrite port rod addr bytes) s = .next t ∧ t = { s with mem := t.mem } ∧
      (∀ i, i < bytes.length → t.mem.byte (addr + i) = bytes.getD i 0) ∧
      ∀ a, (a < addr ∨ addr + bytes.length ≤ a) → t.mem.byte a = s.mem.byte a) ∧
    (s.Inv → addr + n ≤ nearSize → exec (.hostRead port addr n) s = .next { s with svc := { s.svc with
      hostOut := (port, addr, (List.range n).map fun i => s.mem.byte (addr + i)) :: s.svc.hostOut } }) ∧
    (∀ credit reliable, ∃ t, exec (.sessionSetup port credit reliable) s = .next t ∧ t = { s with svc := { s.svc with sessions := t.svc.sessions } } ∧
      ∀ p, aget false t.svc.sessions p = if p = port then (!credit && reliable) else aget false s.svc.sessions p) ∧
    (s.cyc < aget 0 s.svc.tokAt port + s.mhz / 16 → exec (.outboundPacketToken port) s = .next s) ∧
    (aget 0 s.svc.tokAt port + s.mhz / 16 ≤ s.cyc → ∃ t, exec (.outboundPacketToken port) s = .next t ∧
      (∀ p, aget 0 t.svc.tokAt p = if p = port then s.cyc else aget 0 s.svc.tokAt p) ∧
      (∀ l x r, s.svc.hostWait = l ++ x :: r → x.1 = port → (∀ y ∈ l, y.1 ≠ port) →
        t = { s with svc := { s.svc with tokAt := t.svc.tokAt, hostOut := x :: s.svc.hostOut, hostWait := l ++ r } }) ∧
      ((∀ x ∈ s.svc.hostWait, x.1 ≠ port) → t = { s with svc := { s.svc with tokAt := t.svc.tokAt, tokens := t.svc.tokens } } ∧
        ∀ p, aget 0 t.svc.tokens p = if p = port then 1 else aget 0 s.svc.tokens p))) ∧
  (∀ (q : Nat) (x : BitVec 32) (s : State),
    let c := s.queue q
    let rec' (h : BitVec 32) (st : Nat) : Nat := (completion h st 0 q 0 0).toNat + c.cpi.toNat / c.count % 2 * 2 ^ 128
    let port := s.svc.portOf q
    let sends (t : State) (addr : Nat) (b : List Byte) : Prop :=
      if aget 0 s.svc.tokens port = 0 then t.svc.hostWait = s.svc.hostWait ++ [(port, addr, b)]
      else t.svc.hostOut = (port, addr, b) :: s.svc.hostOut ∧ aget 0 t.svc.tokens port = 0
    (s.svc.ports = 0xFF → port = q % 8) ∧ (s.svc.ports ≠ 0 → s.svc.ports.getLsbD port = true) ∧ (
    c.opened = true →
    (c.store = [] → (x - c.ci).toNat ≤ c.count → ∃ t, exec (.commandDoorbell q x) s = .next t ∧ (t.queue q).pi = x ∧ (t.queue q).ci = c.ci ∧
      t.mem = s.mem) ∧
    (c.store = [] → c.count < (x - c.ci).toNat → (c.cpi - c.cci).toNat < c.count → ∃ t, exec (.commandDoorbell q x) s = .next t ∧
      t.queue q = { c with cpi := c.cpi + 1 } ∧
      sends t (c.cbase + 32 * (c.cpi.toNat % c.count)) (natBytes 32 (rec' 0 3))) ∧
    (c.store ≠ [] → ∃ t, exec (.commandDoorbell q x) s = .next t ∧ t = { s with svc := { s.svc with queues := t.svc.queues } } ∧
      t.queue q = { c with heldPi := some x }) ∧
    (c.store = [] → c.heldPi = none → c.handled = none → (c.cpi - x).toNat ≤ c.count → ∃ t, exec (.completionDoorbell q x) s = .next t ∧
      (t.queue q).cci = x ∧ (t.queue q).cpi = c.cpi ∧ t.mem = s.mem) ∧
    (∀ r, c.store = [r] → c.heldPi = none → c.handled = none → (c.cpi - x).toNat < c.count → ∃ t, exec (.completionDoorbell q x) s = .next t ∧
      (t.queue q).cci = x ∧ (t.queue q).cpi = c.cpi + 1 ∧ (t.queue q).store = [] ∧
      sends t (c.cbase + 32 * (c.cpi.toNat % c.count)) (natBytes 32 (r.toNat + c.cpi.toNat / c.count % 2 * 2 ^ 128))))) ∧
  (∀ (port addr n : Nat) (a b rod : Bool) (bytes : List Byte) (s : State),
    (s.svc.ports.getLsbD port = false ∨ nearSize < addr + bytes.length → exec (.hostWrite port rod addr bytes) s = .next s) ∧
    (s.svc.ports.getLsbD port = false ∨ nearSize < addr + n → exec (.hostRead port addr n) s = .next s) ∧
    (s.svc.ports.getLsbD port = false → exec (.sessionSetup port a b) s = .next s ∧ exec (.outboundPacketToken port) s = .next s))

/-- A well-formed packet at CI of a queue with no completion waiting is handled once. LAUNCH: refused with status 1 and
the first failing code of R324, or given the next task number and held for the dies to fetch once every die has a free
slot. LOADIMG: refused with the first failing code of R287, or the image is placed, stands first among the images and
status 0 is sent, once nothing uses a loaded image of the same number (the model's choice of log 76). UNLOAD: code 1 for
an unknown image, else the image is marked and status 0 sent; it leaves once nothing uses it. OPENQ, on queue 0: code 16,
or the queue is open with its rings at index 0. CLOSEQ: code 16, or the queue closes at once when CI equals PI and
otherwise waits. (Code 16 of OPENQ and CLOSEQ, code 1 of UNLOAD and the answers at once are log 32, the port log 64.) RESYNC: refused with the first failing code, or the
summary is written at DEST and, when attested, the next signature leaf is used. The record carries the packet's tag,
its status, code and queue, and the phase of its ring position. (R287, R290, R319, R321, R322, R324, R393, R394) -/
def Obligations.CommandsAreAnswered : Prop :=
  ∀ (q : Nat) (s : State),
    let c := s.queue q
    let P := s.packet q
    let record (st code : Nat) : Nat := (completion (s.hseq q) st code q 0 0).toNat + c.cpi.toNat / c.count % 2 * 2 ^ 128
    let slot := c.cbase + 32 * (c.cpi.toNat % c.count)
    let port := s.svc.portOf q
    let tells (t : State) (st code : Nat) : Prop :=
      (if aget 0 s.svc.tokens port = 0 then t.svc.hostWait.getLast? = some (port, slot, natBytes 32 (record st code))
       else t.svc.hostOut.head? = some (port, slot, natBytes 32 (record st code))) ∧ (t.queue q).cpi = c.cpi + 1
    s.packetReady q = true → c.posted = true → c.handled = none → c.rel = false → c.store = [] → (c.cpi - c.cci).toNat < c.count →
    s.malformed q = none →
    (s.opc q = 1 → ∃ t, exec (.launch q) s = .next t ∧
      (∀ x, s.launchCause (s.launchTask q) = some x → tells t 1 x) ∧
      (s.launchCause (s.launchTask q) = none → (∀ d, d < 4 → (s.die d).freeSlot.isSome = true) → t.svc.taskno = s.svc.taskno + 1 ∧
        t.queue q = { c with task := s.svc.taskno, handled := some (1, 4) } ∧ t.mem = s.mem) ∧
      (s.launchCause (s.launchTask q) = none → (∃ d, d < 4 ∧ (s.die d).freeSlot = none) → t = s)) ∧
    (s.opc q = 2 →
      let f : File := fun o n => if o + n ≤ P 72 8 then s.nearRead c.part (P 64 8 + o) n else 0
      let l := secsOf f
      let p : Parsed := { secs := l, syms := symsOf f l, rels := relsOf f l, base := secBase c.part (P 80 2) l, f := f }
      let mine (i : Image) : Prop := i.id = P 80 2 ∧ i.part = c.part
      ∃ t, exec (.loadimg q) s = .next t ∧ (∀ x, s.imageCause c.part (P 80 2) (P 72 8) p = some x → tells t 1 x) ∧
        (s.imageCause c.part (P 80 2) (P 72 8) p = none → (∃ i ∈ s.svc.images, mine i ∧ s.imageUsed i = true) → t = s) ∧
        (s.imageCause c.part (P 80 2) (P 72 8) p = none → (∀ i ∈ s.svc.images, mine i → s.imageUsed i = false) →
          t.svc.images.head? = some { id := P 80 2, part := c.part, size := P 72 8, kernels := p.kernels, spans := p.spans } ∧
          (∀ i, i ∈ t.svc.images.tail ↔ i ∈ s.svc.images ∧ ¬ mine i) ∧
          t.mem = ((s.placeImage c.part p).nearWrite c.part slot 32 (record 0 0)).mem ∧ tells t 0 0)) ∧
    (s.opc q = 3 → ∃ t, exec (.unload q) s = .next t ∧
      (s.image c.part (P 8 2) = none → tells t 1 1) ∧
      (∀ i, s.image c.part (P 8 2) = some i → t.image c.part (P 8 2) = some { i with unload := true } ∧ tells t 0 0)) ∧
    (s.opc q = 4 → ∃ t, exec (.openq q) s = .next t ∧
      (∀ x, s.openCause (P 64 2) (P 66 1) (P 72 8) (P 80 4) (P 88 8) = some x → x = 16 ∧ tells t 1 16) ∧
      (s.openCause (P 64 2) (P 66 1) (P 72 8) (P 80 4) (P 88 8) = none → t.queue (P 64 2) =
        { part := P 66 1, opened := true, base := P 72 8, count := P 80 4, cbase := P 88 8, evSeq := (s.queue (P 64 2)).evSeq } ∧
        tells t 0 0)) ∧
    (s.opc q = 5 → ∃ t, exec (.closeq q) s = .next t ∧
      let n := P 8 2
      (n = 0 ∨ (s.queue n).opened = false → tells t 1 16) ∧
      (n ≠ 0 → (s.queue n).opened = true → tells t 0 0 ∧
        ((s.queue n).ci = (s.queue n).pi → (t.queue n).opened = false) ∧
        ((s.queue n).ci ≠ (s.queue n).pi → (t.queue n).opened = true ∧ (t.queue n).closing = true))) ∧
    (s.opc q = 6 → ∃ t, exec (.resync q) s = .next t ∧
      let attest := P 1 1 % 2 = 1
      let n := if attest then 0x21C00 else 0x21000
      let dest := P 8 8
      (P 16 4 < n → tells t 1 1) ∧ (n ≤ P 16 4 → attest → 2 ^ 20 ≤ s.svc.leaf → tells t 1 2) ∧
      (n ≤ P 16 4 → (attest → s.svc.leaf < 2 ^ 20) → dest % 4096 ≠ 0 ∨ s.nearOk c.part dest n = false → tells t 1 3) ∧
      (n ≤ P 16 4 → (attest → s.svc.leaf < 2 ^ 20) → dest % 4096 = 0 → s.nearOk c.part dest n = true →
        tells t 0 0 ∧ t.svc.leaf = (if attest then s.svc.leaf + 1 else s.svc.leaf) ∧ ∃ (u : State) (v : Nat),
          u = { s with svc := u.svc } ∧ v % 2 ^ (8 * 0x21000) = layBytes (s.summary' (if q = 0 then none else some c.part)) % 2 ^ (8 * 0x21000) ∧
          t.mem = ((u.nearWrite c.part dest n v).nearWrite c.part slot 32 (record 0 0)).mem)) ∧
    (∀ img, ∃ t, exec (.unloadEffect img) s = .next t ∧ t = { s with svc := { s.svc with images := t.svc.images } } ∧
      ∀ i, i ∈ t.svc.images ↔ i ∈ s.svc.images ∧ ¬ (i.id = img ∧ i.unload = true ∧ s.imageUsed i = false))

/-- A die that has not fetched an accepted launch enters it in its lowest free slot, with the launch's task number, its
share of the instances, its dependences on earlier tasks in flight, waiting while it has one, else ready, or done when
the share is empty (the lowest slot is log 66). A linker hold whose count is over ends, and no other. A share with nothing left to run and no
command under way is reported to die 0, with its fault if it was abandoned ((0, 0) where it holds none, log 67). With the
reports of all four dies and no drawer write of its partition open, a task that stands alone completes: a TASKDONE
event is raised for its slot, its record is kept for that event (log 65), and the slot's state is 6. ACT 1 of a held task
runs its faulted instances again; ACT 2 makes the share done as abandoned. (R321, R325, R329, R330, R332, R340, R403) -/
def Obligations.TasksEnterAndLeave : Prop :=
  (∀ (die q n slot : Nat) (k : Kernel) (s : State),
    let c := s.queue q
    let d := s.die die
    let a := s.launchTask q
    die < 4 → c.handled = some (1, n) → d.freeSlot = some slot → s.taskKernel a = some k → k.splice = false → d.lastOf q = none →
    (∀ f ∈ d.fetched, f ≠ (q, c.ci.toNat)) →
    ∃ t, exec (.launchFetch die q) s = .next t ∧
      let x := (t.die die).task slot
      x.taskno = c.task ∧ x.part = a.part ∧ x.counts = a.counts ∧ x.left = a.share die ∧ x.order = d.order ∧
      x.deps = ((d.tasks.filter fun u => ({ a with taskno := x.taskno, layout := x.layout, reads := x.reads, writes := x.writes } : Task).dependsOn u.2)).map (·.1) ∧
      x.state = (if x.deps ≠ [] then 1 else if a.share die = 0 then 4 else 2) ∧
      (∀ m, m ≠ slot → (t.die die).task m = d.task m) ∧ t.mem = s.mem) ∧
  (∀ (die : Nat) (s : State), ∃ t, exec (.spliceHoldExpiry die) s = .next t ∧ (∀ e, e ≠ die → t.die e = s.die e) ∧
    ∀ n, (t.die die).task n =
      if ((s.die die).task n).holdLeft = some 0 then { (s.die die).task n with holdLeft := none } else (s.die die).task n) ∧
  (∀ (die slot : Nat) (s : State),
    let a := (s.die die).task slot
    (a.state = 4 ∨ (a.state = 1 ∨ a.state = 2) ∧ a.left = 0) → a.chain = none →
    (∀ x ∈ (s.die 0).shares, ¬ (x.1 = a.taskno.toNat ∧ x.2.1 = die)) → s.busyFor [a.taskno] = false →
    ∃ t, exec (.shareDone die slot) s = .next t ∧
      t.die 0 = { s.die 0 with shares := (s.die 0).shares ++
        [(a.taskno.toNat, die, if a.abandoned then some (a.first.getD (0, 0)) else none)] }) ∧
  (∀ (slot : Nat) (a : Task) (s : State), (s.die 0).tasks = [(slot, a)] → a.state = 4 → s.together 256 [a.taskno] = [a.taskno] →
    (s.sharesOf a.taskno).map (·.2) = [none, none, none, none] → s.fab.reqs = [] →
    ∃ t, exec (.taskCompletion slot) s = .next t ∧ ((t.die 0).task slot).state = 6 ∧
      t.svc.taskDone = s.svc.taskDone ++ [(slot, a.queue, completion a.hseq 0 0 a.queue a.taskno 0)] ∧
      (∃ e ∈ t.svc.events, e.toNat / 2 ^ 32 = 2 * 2 ^ 24 + slot % 2 ^ 16 ∧ e.toNat / 2 ^ 20 % 4096 = 4095) ∧
      (∀ x ∈ (t.die 0).shares, x.1 ≠ a.taskno.toNat) ∧ t.mem = s.mem) ∧
  (∀ (die slot : Nat) (s : State),
    let a := (s.die die).task slot
    a.state = 5 → a.chain = none →
    (a.act = 1 → (∀ w ∈ a.faulted, w.2 = [slot]) → ∃ t, exec (.taskRerun die slot) s = .next t ∧
      (t.die die).task slot = { a with nfault := 0, faulted := [], first := none, act := 0, state := 3, left := a.left + a.faulted.length,
                                       again := a.faulted.foldl (fun l w => insertUp w.1 l) a.again } ∧
      (∀ m, m ≠ slot → (t.die die).task m = (s.die die).task m) ∧ t.ctxs = s.ctxs ∧ t.mem = s.mem) ∧
    (a.act = 2 → ∃ t, exec (.taskAbandon die slot) s = .next t ∧
      (t.die die).task slot = { a with act := 0, state := 4, abandoned := true } ∧
      (∀ m, m ≠ slot → (t.die die).task m = (s.die die).task m) ∧ t.ctxs = s.ctxs ∧ t.mem = s.mem))

/-- While the rail rises, passing a threshold sets every row's PMAXN to what its voltage permits; at its target a rising
or falling rail is steady, with PMAXN set by its voltage. In FIT the rail goes on to HOLD once every row has reported
fitted, and a hold of 2 ms ends in SLEW. Votes and voltages stay as they were. At a frame boundary each row of the die
puts in force the lowest-numbered pulses of PAT, at most PMAXN of them (16 when PMAXN is 0), and reports fitted.
(R307, R377, R378, R379, R380) -/
def Obligations.RailsAndPatterns : Prop :=
  ∀ (die : Nat) (s : State),
    let d := s.die die
    let permits (x : Nat) : Nat :=
      let n := (List.range 15).foldl (fun m i => if (if s.svc.slow then 16 else 20) * (i + 1) + 550 ≤ x then i + 2 else m) 1
      if d.sens.any (fun p => decide (d.tcrit ≤ p.2.1)) then Nat.min n 4 else n
    let goes (i : Instr) (st timer : Nat) (set : Option Nat) : Prop := ∃ t, exec i s = .next t ∧
      t.die die = { d with rstate := st, timer := timer } ∧ (∀ e, e ≠ die → t.die e = s.die e) ∧
      (∀ r, (t.row r).pat = (s.row r).pat ∧ (t.row r).patcur = (s.row r).patcur) ∧
      (∀ n, set = some n → ∀ r, r < 4 → (t.row (die * 4 + r)).pmaxn = BitVec.ofNat 4 n) ∧ (set = none → t.rows = s.rows) ∧
      t.ctxs = s.ctxs ∧ t.mem = s.mem
    (d.rstate = 1 → goes (.railVminCrossing die) 1 d.timer (some (permits d.vnow))) ∧
    (d.rstate = 1 ∨ d.rstate = 4 → d.vnow = d.tgt → goes (.railReachesTarget die) 0 0 (some (permits d.vnow))) ∧
    (d.rstate = 2 → (∀ r, r < 4 → (s.row (die * 4 + r)).fitted = true) → goes (.rowsFitted die) 3 0 none) ∧
    (d.rstate = 3 → 2000 * s.mhz ≤ d.timer → goes (.railHoldExpiry die) 4 0 none) ∧
    (s.cyc % 16 = 0 → ∃ t, exec (.frameBoundary die) s = .next t ∧ t = { s with rows := t.rows } ∧ ∀ k, k < 4 →
      let r := s.row (die * 4 + k)
      let most := if r.pmaxn = 0 then 16 else r.pmaxn.toNat
      ∃ p : BitVec 16, t.row (die * 4 + k) = { r with patcur := p, fitted := true } ∧ ∀ i, i < 16 →
        p.getLsbD i = (r.pat.getLsbD i && decide (((List.range i).filter fun j => r.pat.getLsbD j).length < most)))

/-- A reading at or above TALERT of an armed sensor is stored with its maximum, disarms the sensor and raises the thermal
event of its die with the sensor's number; one at or above TCRIT leaves every row at most four pulses; one more than
64 units below TALERT arms the sensor again. A telemetry poll sets both averages and age 0. A cold reset keeps memory (log
2), the schedule (log 3), the fuses and the persistent record, counts the boot, moves each step's STATE to LAST and leaves every context and
partition at its reset value; it starts step 0, and a step 0 that fails is in state 3 with its code and the boot has
failed. After a power loss memory reads zero everywhere (log 2) and nothing runs. (R7, R312, R317, R381, R388, R390, R391) -/
def Obligations.SensorsTelemetryResets : Prop :=
  (∀ (die n : Nat) (temp pavg vavg : BitVec 16) (s : State), n < 16 →
    let d := s.die die
    let (_, top, _, armed) := aget (0, 0, 0, true) d.sens n
    let top' := if top < temp then temp else top
    let reads (i : Instr) (arm : Bool) : Prop := ∃ t, exec i s = .next t ∧ aget (0, 0, 0, true) (t.die die).sens n = (temp, top', 0, arm) ∧
      (∀ m, m ≠ n → aget (0, 0, 0, true) (t.die die).sens m = aget (0, 0, 0, true) d.sens m) ∧ t.ctxs = s.ctxs ∧ t.mem = s.mem ∧
      (d.talert ≤ temp → armed = true → ∃ e ∈ t.svc.events, e.toNat / 2 ^ 56 = 4 ∧ e.toNat / 2 ^ 48 % 256 = die * 64 % 256 ∧ e.toNat / 2 ^ 32 % 2 ^ 16 = n)
    (d.talert ≤ temp → die < 4 → reads (.thermalAlert die n temp) false) ∧
    (d.tcrit ≤ temp → die < 4 → ∃ t, exec (.thermalTrip die n temp) s = .next t ∧ (t.die die).hot = true ∧ t.mem = s.mem ∧
      (d.hot = false → ∀ r, r < 4 → 1 ≤ (t.row (die * 4 + r)).pmaxn ∧ (t.row (die * 4 + r)).pmaxn ≤ 4)) ∧
    (temp.toNat + 64 < d.talert.toNat → reads (.sensorBelowThreshold die n temp) true) ∧
    (∃ t, exec (.telemetryPoll die pavg vavg) s = .next t ∧ t = { s with dies := t.dies } ∧
      t.die die = { d with pavg := pavg, vavg := vavg, tage := 0 })) ∧
  (∀ (flash : List (List Byte)) (code : BitVec 8) (s : State),
    let w (n : Nat) : Word := aget 0 s.svc.steps n
    let kept (t : State) (mem : Memory) : Prop := t.mem = mem ∧ t.ctxs = [] ∧ t.parts = [] ∧ t.cmds = [] ∧ t.sched = s.sched ∧ t.cyc = 0 ∧
      t.svc.svn = s.svc.svn ∧ t.svc.leaf = s.svc.leaf ∧ (∀ d, (t.die d).diemax = (s.die d).diemax ∧ (t.die d).tasks = []) ∧
      ∀ c, (t.core c).sltmap.toNat % 256 = (s.core c).sltmap.toNat % 256 ∧ (t.core c).rings = []
    let field (x : Word) (lo n : Nat) : Nat := x.toNat / 2 ^ lo % 2 ^ n
    let began (t : State) : Prop := t.svc.boots.toNat = Nat.min 255 (s.svc.boots.toNat + 1) ∧
      ∀ n, n < 16 → 0 < n → aget 0 t.svc.steps n = (w n &&& ~~~0xF0) ||| BitVec.ofNat 64 (field (w n) 0 4 * 16)
    (w 0).getLsbD 8 = false → (w 0).getLsbD 9 = false →
    (∃ t, exec (.coldReset [] flash) s = .next t ∧ kept t s.mem ∧ began t ∧ t.svc.bst = 0 ∧ field (aget 0 t.svc.steps 0) 0 4 = 1 ∧
      field (aget 0 t.svc.steps 0) 4 4 = field (w 0) 0 4 ∧ field (aget 0 t.svc.steps 0) 16 8 = Nat.min 255 (field (w 0) 16 8 + 1)) ∧
    (∃ t, exec (.coldReset [⟨false, code⟩] flash) s = .next t ∧ kept t s.mem ∧ began t ∧ t.svc.bst = 2 ∧
      field (aget 0 t.svc.steps 0) 0 4 = 3 ∧ field (aget 0 t.svc.steps 0) 24 8 = code.toNat) ∧
    (∃ t, exec .powerLoss s = .next t ∧ kept t [] ∧ t.svc.boots = s.svc.boots ∧ ∀ n, aget 0 t.svc.steps n = w n))

/-- At level 0, for a kind that does not end the instance, a trap leaves the context at level 1, NEST set, EPRIV 0, EPC
the bundle of the last checkpoint, the next bundle CTX.TVEC, s62 the fault word and s63 the number of its FLT word 0;
SAV0 and SAV1 hold s62 and s63 as they stood at the checkpoint, every other scalar and the rest of the control shadow
are as at the checkpoint. Queues, results in flight, withheld stores and undo images are gone. FLT holds the cause,
the slot, the address and, outside spliced code, the bundle in the kernel and the task. The captured blocks read as
captured and no other byte differs. At level 1 the context holds no instance, HOLD is set, and an event of kind 3 with
its core and number waits; so too at level 0 for a kind that ends the instance, HOLD as it was. A firmware core's first trap goes to bundle 1 with the word and the bundle in s62 and s63;
its second takes it out of service. (R35, R292, R296, R316, R351, R352) -/
def Obligations.TrapEntry : Prop :=
  (∀ (who : Nat) (x : Trap) (slot : Nat) (pc : Word) (s : State), isFw who = false →
    let c := s.ctx who
    let t := s.takeTrap who x slot pc
    let d := t.ctx who
    (c.priv = 0 → x.kind ≠ 21 → x.kind ≠ 22 →
      d.priv = 1 ∧ d.epriv = 0 ∧ d.nest = true ∧ d.epc = c.shadow.pc.setWidth 50 ∧ d.ctl.pc = c.tvec.setWidth 64 ∧
      d.ctl.sget 62 = BitVec.ofNat 64 (x.kind * 256 + x.cause) ∧ d.ctl.sget 63 = BitVec.ofNat 64 (2 ^ 25 + srnPlace who) ∧
      d.flt.sav0 = c.shadow.sget 62 ∧ d.flt.sav1 = c.shadow.sget 63 ∧ (∀ n, n ≠ 62 → n ≠ 63 → d.ctl.sget n = c.shadow.sget n) ∧
      d.ctl = { c.shadow with s := d.ctl.s, pc := d.ctl.pc } ∧ d.shadow = d.ctl ∧
      d.queues = [] ∧ d.fly = [] ∧ d.mops = [] ∧ d.held = [] ∧ d.undo = [] ∧ d.blk = none ∧ d.wait = none ∧ d.hold = c.hold ∧
      d.flt.addr = x.addr ∧ (s.spliceEntry who pc = none →
        d.flt.cause = BitVec.ofNat 64 (2 ^ 32 + x.kind * 256 + x.cause + slot * 2 ^ 36) ∧
        ∀ i, c.inst = some i → d.flt.bundle = (pc - i.first) &&& 0xFFFFFFF ∧ d.flt.task = i.taskno) ∧
      (∀ w, w ≠ who → t.ctx w = s.ctx w) ∧ t.keyed = s.keyed ∧ t.bad = s.bad ∧ t.svc = s.svc ∧
      (s.Inv → (c.undo.map (·.1)).Nodup →
        (∀ b ∈ c.undo, t.bytes (s.winBase who + b.1 * 512) 512 = b.2 % 2 ^ 4096) ∧
        ∀ a, (∀ b ∈ c.undo, a < s.winBase who + b.1 * 512 ∨ s.winBase who + b.1 * 512 + 512 ≤ a) → t.mem.byte a = s.mem.byte a)) ∧
    (c.priv ≠ 0 ∨ x.kind = 21 ∨ x.kind = 22 → d.hold = (c.hold || decide (c.priv ≠ 0)) ∧ d.inst = none ∧
      (s.spliceEntry who pc = none → d.flt.cause = BitVec.ofNat 64 (2 ^ 32 + x.kind * 256 + x.cause + slot * 2 ^ 36)) ∧
      ∃ e ∈ t.svc.events, e.toNat / 2 ^ 32 = eventHigh 3 (eventSrc (coreOf who)) (ctxOf who))) ∧
  (∀ (who : Nat) (x : Trap) (slot : Nat) (pc : Word) (s : State), isFw who = true →
    let c := s.ctx who
    let d := (s.takeTrap who x slot pc).ctx who
    (c.trapped = false → d.trapped = true ∧ d.service = c.service ∧ d.ctl.pc = 1 ∧
      d.ctl.sget 62 = BitVec.ofNat 64 (x.kind * 256 + x.cause) ∧ d.ctl.sget 63 = pc ∧
      (∀ n, n ≠ 62 → n ≠ 63 → d.ctl.sget n = c.shadow.sget n) ∧ d.shadow = d.ctl ∧ d.queues = [] ∧ d.fly = []) ∧
    (c.trapped = true → d.service = false))

/-- At reset the invariant holds, no context holds an instance, every context has HOLD 1, level 0, NBV 1 and no flag, FLT
0; every core has TWO 0 and every ring disabled with no credit; every row has PAT and PATCUR 0xFFFF and PMAXN 0; every
rail is steady at 0x226 with no vote, telemetry age 0xFFFF; PRT.CTL holds DEFQUANT 0x100 and PCAP and DEFLVL 0x60; a
pair has WAKEQ 0x10 and is down; STALLTO is 0x400 and CTLTO 0x20; the event queue and the command queues are empty.
The scalar, predicate and mask registers, the program counter and memory read zero and every unit is live with the
binding 0, 1, 0, 1: the specification gives no value there, and the choice is the model's (log 1, log 2). (R7, R80,
R112, R296, R307, R308, R317, R322, R363, R379, R391) -/
def Obligations.ResetState : Prop :=
  let s := State.reset
  s.Inv ∧
  (∀ w, let c := s.ctx w
    c.inst = none ∧ c.hold = true ∧ c.arr = false ∧ c.priv = 0 ∧ c.epriv = 0 ∧ c.nest = false ∧ c.ctl.nbv = true ∧ c.ctl.fstat = 0 ∧
    c.ctl.srseed = 0 ∧ c.ctl.sridx = 0 ∧ c.ctl.mxcfg = 0 ∧ c.flt = {} ∧ c.queues = [] ∧ c.service = false ∧
    (∀ n, c.ctl.sget n = 0) ∧ c.ctl.pget 0 = true ∧ (∀ n, n ≠ 0 → c.ctl.pget n = false) ∧ (∀ n, c.ctl.mget n = 0) ∧ c.ctl.pc = 0) ∧
  (∀ k, (s.core k).two = false ∧ (s.core k).sltmap = 0xAFF ∧ (s.core k).pips = [] ∧
    ∀ n, ((s.core k).ring n).en = false ∧ ((s.core k).ring n).owner = 0 ∧ ((s.core k).ring n).pops = [] ∧ ((s.core k).ring n).pushes = [] ∧
      ((s.core k).ring n).free = 0 ∧ ((s.core k).ring n).filled = 0) ∧
  (∀ r, (s.row r).pat = 0xFFFF ∧ (s.row r).patcur = 0xFFFF ∧ (s.row r).pmaxn = 0 ∧ (s.row r).wdog = 0) ∧
  (∀ d, (s.die d).rstate = 0 ∧ (s.die d).tgt = 0x226 ∧ (s.die d).vnow = 0x226 ∧ (s.die d).votes = [] ∧ (s.die d).tage = 0xFFFF ∧
    (s.die d).pavg = 0 ∧ (s.die d).vavg = 0 ∧ (s.die d).tasks = []) ∧
  (∀ p, (s.part p).ctl = 0x6060000100 ∧ (s.part p).own = 0 ∧ (s.part p).save = 0 ∧ (s.part p).defer = []) ∧
  (∀ p, (s.pair p).wakeq = 0x10 ∧ (s.pair p).state = 0 ∧ (s.pair p).errc = 0 ∧ (s.pair p).fail = 0) ∧
  s.fab.stallto = 0x400 ∧ s.fab.ctlto = 0x20 ∧ s.fab.laser = 0 ∧ s.fab.swq = [] ∧
  s.svc.events = [] ∧ s.svc.queues = [] ∧ s.svc.bst = 0 ∧ s.svc.ports = 0 ∧ s.cmds = [] ∧ (∀ a, s.mem.byte a = 0)

/-- Whatever the state, if its memory lists rising addresses with no zero byte and the step answers a next state, then the
next state's memory does too: no instruction, event, checkpoint, rollback, transfer or cycle breaks the one form in
which equal memories are equal data (log 2). (R2, R7, R32, R35, R190) -/
def Obligations.InvariantKept : Prop :=
  ∀ s t : State, s.Inv → step s = .next t → t.Inv

/-- For every operation with a slot kind and legal fields, whatever its operands, the decoder of that kind reads its
encoding as that operation. Conversely a word that a slot's decoder accepts is the encoding of the operation it gives,
whose fields are legal: so every reserved bit counts and no two words mean one operation. (R87, R92, R95, R96, R97,
R98, R99, R100, R101, R109) -/
def Obligations.DecodeEncodeRoundTrip : Prop :=
  (∀ (i : Instr) (k : Kind), kindOf i = some k → wf i = true → decode k (encode i) = .ok i) ∧
  (∀ (k : Kind) (w : BitVec 80) (i : Instr), decode k w = .ok i → wf i = true ∧ encode i = w)

/-- Which slot or context moves next is the schedule's first entry (log 3). When it names a slot of a context whose head
decodes to an operation that may issue, the step is that operation's effect, its entry taken from the queue and its
unit marked; when the operation may not issue yet, nothing but the schedule changes. When it names a context that is
not between the halves of a split bundle, the step dispatches the bundle fetched at its program counter. When it names
an event, the step is the event's effect; a tick passes time; with an empty schedule a step is a whole master cycle in
the default order. (R21, R22, R25, R87, R89) -/
def Obligations.StepRunsScheduled : Prop :=
  ∀ (s : State) (rest : List Move),
    let u := { s with sched := rest }
    (∀ who sl e es i, s.sched = .issue who sl :: rest → (u.ctx who).q sl = e :: es → e.ghost = false → decode sl.kind e.raw = .ok i →
      (u.mayIssue who sl e i = true → step s = exec i (u.issuing who sl e)) ∧
      (u.mayIssue who sl e i = false → step s = .next u)) ∧
    (∀ who b, s.sched = .dispatch who :: rest → (u.ctx who).split = none →
      (∀ i, (u.ctx who).inst = some i → i.bcast = false ∨ i.left = true) → u.fetch who = .ok b →
      step s = exec (.bundleDispatch b) { u with cur := { who := who } }) ∧
    (∀ i, s.sched = .event i :: rest → kindOf i = none → (∀ b, i ≠ .bundleDispatch b) → step s = exec i u) ∧
    (s.sched = .tick :: rest → step s = .next u.tick) ∧
    (s.sched = [] → step s = s.cycle exec)

/-- The words the specification writes out for an S, a V, an M, an LD, an E and a Y operation decode to the operation and
operands it names, and an unassigned opcode, a guard of p0 negated and a set reserved bit are refused by name. (R96,
R97, R99, R100, R101) -/
def Obligations.DecodeWords : Prop :=
  let z : Guard := ⟨0, false⟩
  decode .s 0x0000000001145020 = .ok (.addi z 5 5 1) ∧
  decode .v 0x000000141414828A0201 = .ok (.vadd ⟨⟨2, false⟩, 0, .fp32, false, 0⟩ 40 41 (.reg 0x505)) ∧
  decode .m 0x0010280000000003 = .ok (.mxs z 1 20) ∧
  decode .ld 0x0001000201819002 = .ok (.ldV z 0 50 ⟨6, 8, false, 0, 128⟩ false false) ∧
  decode .st 0x0001012201814002 = .ok (.stV z 0 40 ⟨6, 8, true, 2, 128⟩ false false) ∧
  decode .e 0x002815149810 = .ok (.ofx ⟨z, 0x14, 0x15, 40, true, 3, false⟩) ∧
  decode .y 0x0000C001 = .ok (.fence z 6) ∧
  decode .s 0x48 = .error .unassigned ∧ decode .s 0x820 = .error .guardForm ∧ decode .y 0x8000C001 = .error .reservedBits

/-- In canonical memory, a read of n bytes is the sum of the bytes at rising addresses weighted by rising powers of 256,
and after a write of n bytes the byte at offset i is byte i of the value and every other byte is as before: this one
memory holds near and drawer memory, local buffers, ring slots and register windows (one flat memory for all of them is
the model's choice, log 16). An element of n bytes in any
space is the same sum of its byte elements; a four-bit element at an even place is the low half of its byte and at an
odd place the high half; and an element written reads back. (R2) -/
def Obligations.MemoryReadsBack : Prop :=
  (∀ (s : State) (a n v b : Nat), s.Inv →
    s.mem.read a n = (List.range n).foldl (fun x i => x + (s.mem.byte (a + i)).toNat * 256 ^ i) 0 ∧
    (s.mem.write a n v).byte b = (if a ≤ b ∧ b < a + n then BitVec.ofNat 8 (v / 256 ^ (b - a)) else s.mem.byte b)) ∧
  (∀ (s : State) (key a n : Nat), s.Inv → (keyedAddr a = true → a % 64 + n ≤ 64) →
    s.elem ⟨a * 8, n * 8, key⟩ = (List.range n).foldl (fun x i => x + s.elem ⟨(a + i) * 8, 8, key⟩ * 256 ^ i) 0 ∧
    s.elem ⟨a * 8, 4, key⟩ = s.elem ⟨a * 8, 8, key⟩ % 16 ∧ s.elem ⟨a * 8 + 4, 4, key⟩ = s.elem ⟨a * 8, 8, key⟩ / 16) ∧
  (∀ (s : State) (e : Elem) (v : Nat), s.Inv → (keyedAddr (e.addr / 8) = true → e.addr % 512 + e.w ≤ 512 ∧ s.taskUnit (e.addr / 512) = none) →
    (keyedAddr (e.addr / 8) = false → e.w % 8 = 0 ∧ e.addr % 8 = 0 ∨ e.addr % 8 + e.w ≤ 8) → (s.putElem e v).elem e = v % 2 ^ e.w)
end

