-- ==== Sys2Proof/Laws/Forms.lean ====
section
/-! SUPPORT. Reading back the fields of a packed form gives the form. -/

namespace Sys2Proof

variable {m n w lo : Nat}

/-- A field above the low part of a packed word stands in the high part. -/
theorem fld_high (a : BitVec m) (b : BitVec n) (h : n ≤ lo) (hw : m + n ≤ 80) :
    fld (pad (a ++ b)) lo w = fld (pad a) (lo - n) w := by
  apply BitVec.eq_of_getLsbD_eq
  intro i hi
  simp only [fld, pad, BitVec.getLsbD_extractLsb', BitVec.getLsbD_setWidth, BitVec.getLsbD_append]
  have h1 : ¬ lo + i < n := by omega
  have h2 : lo - n + i = lo + i - n := by omega
  simp only [h1, h2, hi, decide_true, Bool.true_and]
  by_cases h3 : lo + i < 80
  · have : lo + i - n < 80 := by omega
    simp [h3, this]
  · have : a.getLsbD (lo + i - n) = false := BitVec.getLsbD_of_ge _ _ (by omega)
    simp [this]
/-- A field within the low part of a packed word stands there. -/
theorem fld_low (a : BitVec m) (b : BitVec n) (h : lo + w ≤ n) : fld (pad (a ++ b)) lo w = fld (pad b) lo w := by
  apply BitVec.eq_of_getLsbD_eq
  intro i hi
  have h1 : lo + i < n := by omega
  simp [fld, pad, BitVec.getLsbD_append, h1]
/-- A word of the field's width is the field. -/
theorem fld_self (a : BitVec w) (hl : lo = 0) (h : w ≤ 80) : fld (pad a) lo w = a := by
  subst hl
  apply BitVec.eq_of_getLsbD_eq
  intro i hi
  have : i < 80 := by omega
  simp [fld, pad, hi, this]
theorem fldB_high (a : BitVec m) (b : BitVec n) (h : n ≤ lo) (hw : m + n ≤ 80) : fldB (pad (a ++ b)) lo = fldB (pad a) (lo - n) := by
  have h1 : ¬ lo < n := by omega
  simp only [fldB, pad, BitVec.getLsbD_setWidth, BitVec.getLsbD_append, h1]
  by_cases h3 : lo < 80
  · have : lo - n < 80 := by omega
    simp [h3, this]
  · have : a.getLsbD (lo - n) = false := BitVec.getLsbD_of_ge _ _ (by omega)
    simp [this]
theorem fldB_low (a : BitVec m) (b : BitVec n) (h : lo < n) : fldB (pad (a ++ b)) lo = fldB (pad b) lo := by
  simp [fldB, pad, BitVec.getLsbD_append, h]
theorem fldB_self (b : Bool) (hl : lo = 0) : fldB (pad (bit1 b)) lo = b := by subst hl; cases b <;> rfl

@[simp] theorem unSR_pkSR (r : SR) : unSR (pkSR r) = r := by
  cases r; simp (disch := omega) only [unSR, pkSR, fld_high, fld_low, fld_self, fldB_high, fldB_low, fldB_self, -Nat.reduceAdd, -Nat.reduceSub]
@[simp] theorem unSI_pkSI (r : SI) : unSI (pkSI r) = r := by
  cases r; simp (disch := omega) only [unSI, pkSI, fld_high, fld_low, fld_self, fldB_high, fldB_low, fldB_self, -Nat.reduceAdd, -Nat.reduceSub]
@[simp] theorem unSB_pkSB (r : SB) : unSB (pkSB r) = r := by
  cases r; simp (disch := omega) only [unSB, pkSB, fld_high, fld_low, fld_self, fldB_high, fldB_low, fldB_self, -Nat.reduceAdd, -Nat.reduceSub]
@[simp] theorem unVR_pkVR (r : VR) : unVR (pkVR r) = r := by
  cases r; simp (disch := omega) only [unVR, pkVR, fld_high, fld_low, fld_self, fldB_high, fldB_low, fldB_self, -Nat.reduceAdd, -Nat.reduceSub]
@[simp] theorem unMR_pkMR (r : MR) : unMR (pkMR r) = r := by
  cases r; simp (disch := omega) only [unMR, pkMR, fld_high, fld_low, fld_self, fldB_high, fldB_low, fldB_self, -Nat.reduceAdd, -Nat.reduceSub]
@[simp] theorem unLM_pkLM (r : LM) : unLM (pkLM r) = r := by
  cases r; simp (disch := omega) only [unLM, pkLM, fld_high, fld_low, fld_self, fldB_high, fldB_low, fldB_self, -Nat.reduceAdd, -Nat.reduceSub]
@[simp] theorem unLR_pkLR (r : LR) : unLR (pkLR r) = r := by
  cases r; simp (disch := omega) only [unLR, pkLR, fld_high, fld_low, fld_self, fldB_high, fldB_low, fldB_self, -Nat.reduceAdd, -Nat.reduceSub]
@[simp] theorem unLS_pkLS (r : LS) : unLS (pkLS r) = r := by
  cases r; simp (disch := omega) only [unLS, pkLS, fld_high, fld_low, fld_self, fldB_high, fldB_low, fldB_self, -Nat.reduceAdd, -Nat.reduceSub]
@[simp] theorem unEC_pkEC (r : EC) : unEC (pkEC r) = r := by
  cases r; simp (disch := omega) only [unEC, pkEC, fld_high, fld_low, fld_self, fldB_high, fldB_low, fldB_self, -Nat.reduceAdd, -Nat.reduceSub]
@[simp] theorem unYS_pkYS (r : YS) : unYS (pkYS r) = r := by
  cases r; simp (disch := omega) only [unYS, pkYS, fld_high, fld_low, fld_self, fldB_high, fldB_low, fldB_self, -Nat.reduceAdd, -Nat.reduceSub]
@[simp] theorem unYF_pkYF (r : YF) : unYF (pkYF r) = r := by
  cases r; simp (disch := omega) only [unYF, pkYF, fld_high, fld_low, fld_self, fldB_high, fldB_low, fldB_self, -Nat.reduceAdd, -Nat.reduceSub]

theorem unSR_pkSI (r : SI) :
    unSR (pkSI r) = { unSR (pkSI r) with op := r.op, g := r.g, sd := r.sd, sa := r.sa } := by
  cases r; simp (disch := omega) only [unSR, pkSI, fld_high, fld_low, fld_self, fldB_high, fldB_low, fldB_self, -Nat.reduceAdd, -Nat.reduceSub]
theorem unSR_pkSB (r : SB) :
    unSR (pkSB r) = { unSR (pkSB r) with op := r.op, g := r.g, sd := r.sd, sa := r.sa, sb := r.sb } := by
  cases r; simp (disch := omega) only [unSR, pkSB, fld_high, fld_low, fld_self, fldB_high, fldB_low, fldB_self, -Nat.reduceAdd, -Nat.reduceSub]
theorem unVR_pkVI (r : VI) :
    unVR (pkVI r) = { unVR (pkVI r) with op := r.op, g := r.g, rm := r.rm, et := r.et, vd := r.vd, ms := r.ms, me := r.me } := by
  cases r; simp (disch := omega) only [unVR, pkVI, fld_high, fld_low, fld_self, fldB_high, fldB_low, fldB_self, -Nat.reduceAdd, -Nat.reduceSub]
theorem unVI_pkVI (r : VI) : unVI (pkVI r) = r := by
  cases r; simp (disch := omega) only [unVI, pkVI, fld_high, fld_low, fld_self, fldB_high, fldB_low, fldB_self, -Nat.reduceAdd, -Nat.reduceSub]
theorem unLM_pkLR (r : LR) :
    unLM (pkLR r) = { unLM (pkLR r) with op := r.op, g := r.g } := by
  cases r; simp (disch := omega) only [unLM, pkLR, fld_high, fld_low, fld_self, fldB_high, fldB_low, fldB_self, -Nat.reduceAdd, -Nat.reduceSub]
theorem unLM_pkLS (r : LS) :
    unLM (pkLS r) = { unLM (pkLS r) with op := r.op, g := r.g } := by
  cases r; simp (disch := omega) only [unLM, pkLS, fld_high, fld_low, fld_self, fldB_high, fldB_low, fldB_self, -Nat.reduceAdd, -Nat.reduceSub]
theorem unYS_pkYF (r : YF) :
    unYS (pkYF r) = { unYS (pkYF r) with op := r.op, g := r.g } := by
  cases r; simp (disch := omega) only [unYS, pkYF, fld_high, fld_low, fld_self, fldB_high, fldB_low, fldB_self, -Nat.reduceAdd, -Nat.reduceSub]

/-! ## Codes -/

@[simp] theorem low_self (b : BitVec n) : low n b = b := by simp [low]
@[simp] theorem low_low (a : BitVec n) (h : n ≤ m) : low n (low m a) = a := by
  apply BitVec.eq_of_getLsbD_eq
  intro i hi
  have : i < m := by omega
  simp [low, hi, this]
@[simp] theorem etOf_bits (t : ETy) : etOf t.bits = some t := by cases t <;> rfl
theorem etOf_low8 (t : ETy) : etOf (low 4 (low 8 t.bits)) = some t := by cases t <;> rfl
theorem etOf_low6 (t : ETy) : etOf (low 4 (low 6 t.bits)) = some t := by cases t <;> rfl
theorem icOf_bits (c : ICond) : icOf c.bits = some c := by cases c <;> rfl
theorem fcOf_bits (c : FCond) : fcOf c.bits = some c := by cases c <;> rfl

end Sys2Proof
end

