-- ==== Sys2Proof/Laws/State.lean ====
section
/-! SUPPORT. One lemma per field and update of the state, and what an access reads after an update. -/

namespace Sys2Proof

@[simp] theorem aget_aset_self {α : Type} (d : α) (l : List (Nat × α)) (n : Nat) (v : α) : aget d (aset l n v) n = v := by
  induction l with
  | nil => simp [aset, aget]
  | cons p r ih =>
    obtain ⟨k, w⟩ := p
    simp only [aset]
    split
    · simp [aget]
    · split
      · simp [aget]
      · next h => simp [aget, Ne.symm h, ih]

@[simp] theorem aget_aset_ne {α : Type} (d : α) (l : List (Nat × α)) {n m : Nat} (v : α) (h : m ≠ n) :
    aget d (aset l n v) m = aget d l m := by
  induction l with
  | nil => simp [aset, aget, Ne.symm h]
  | cons p r ih =>
    obtain ⟨k, w⟩ := p
    simp only [aset]
    split
    · simp [aget, Ne.symm h]
    · split
      · next hk => subst hk; simp [aget, Ne.symm h]
      · simp [aget, ih]

theorem aget_aset {α : Type} (d : α) (l : List (Nat × α)) (n m : Nat) (v : α) :
    aget d (aset l n v) m = if m = n then v else aget d l m := by
  split
  · next h => subst h; simp
  · next h => simp [h]

namespace Machine

variable (s : State)

/-! ## Fields that an update leaves alone -/

@[simp] theorem State.setCtx_mem (w : Nat) (c : Ctx) : (s.setCtx w c).mem = s.mem := rfl
@[simp] theorem State.setCtx_keyed (w : Nat) (c : Ctx) : (s.setCtx w c).keyed = s.keyed := rfl
@[simp] theorem State.setCtx_bad (w : Nat) (c : Ctx) : (s.setCtx w c).bad = s.bad := rfl
@[simp] theorem State.setCtx_cores (w : Nat) (c : Ctx) : (s.setCtx w c).cores = s.cores := rfl
@[simp] theorem State.setCtx_rows (w : Nat) (c : Ctx) : (s.setCtx w c).rows = s.rows := rfl
@[simp] theorem State.setCtx_dies (w : Nat) (c : Ctx) : (s.setCtx w c).dies = s.dies := rfl
@[simp] theorem State.setCtx_parts (w : Nat) (c : Ctx) : (s.setCtx w c).parts = s.parts := rfl
@[simp] theorem State.setCtx_cmds (w : Nat) (c : Ctx) : (s.setCtx w c).cmds = s.cmds := rfl
@[simp] theorem State.setCtx_fab (w : Nat) (c : Ctx) : (s.setCtx w c).fab = s.fab := rfl
@[simp] theorem State.setCtx_svc (w : Nat) (c : Ctx) : (s.setCtx w c).svc = s.svc := rfl
@[simp] theorem State.setCtx_tlb (w : Nat) (c : Ctx) : (s.setCtx w c).tlb = s.tlb := rfl
@[simp] theorem State.setCtx_sched (w : Nat) (c : Ctx) : (s.setCtx w c).sched = s.sched := rfl
@[simp] theorem State.setCtx_cur (w : Nat) (c : Ctx) : (s.setCtx w c).cur = s.cur := rfl
@[simp] theorem State.setCtx_fresh (w : Nat) (c : Ctx) : (s.setCtx w c).fresh = s.fresh := rfl
@[simp] theorem State.setCtx_ids (w : Nat) (c : Ctx) : (s.setCtx w c).ids = s.ids := rfl
@[simp] theorem State.setCtx_cyc (w : Nat) (c : Ctx) : (s.setCtx w c).cyc = s.cyc := rfl
@[simp] theorem State.setCtx_regw (w : Nat) (c : Ctx) : (s.setCtx w c).regw = s.regw := rfl
@[simp] theorem State.setCore_mem (n : Nat) (c : Core) : (s.setCore n c).mem = s.mem := rfl
@[simp] theorem State.setCore_keyed (n : Nat) (c : Core) : (s.setCore n c).keyed = s.keyed := rfl
@[simp] theorem State.setCore_bad (n : Nat) (c : Core) : (s.setCore n c).bad = s.bad := rfl
@[simp] theorem State.setCore_ctxs (n : Nat) (c : Core) : (s.setCore n c).ctxs = s.ctxs := rfl
@[simp] theorem State.setCore_rows (n : Nat) (c : Core) : (s.setCore n c).rows = s.rows := rfl
@[simp] theorem State.setCore_dies (n : Nat) (c : Core) : (s.setCore n c).dies = s.dies := rfl
@[simp] theorem State.setCore_parts (n : Nat) (c : Core) : (s.setCore n c).parts = s.parts := rfl
@[simp] theorem State.setCore_cmds (n : Nat) (c : Core) : (s.setCore n c).cmds = s.cmds := rfl
@[simp] theorem State.setCore_fab (n : Nat) (c : Core) : (s.setCore n c).fab = s.fab := rfl
@[simp] theorem State.setCore_svc (n : Nat) (c : Core) : (s.setCore n c).svc = s.svc := rfl
@[simp] theorem State.setCore_tlb (n : Nat) (c : Core) : (s.setCore n c).tlb = s.tlb := rfl
@[simp] theorem State.setCore_sched (n : Nat) (c : Core) : (s.setCore n c).sched = s.sched := rfl
@[simp] theorem State.setCore_cur (n : Nat) (c : Core) : (s.setCore n c).cur = s.cur := rfl
@[simp] theorem State.setCore_fresh (n : Nat) (c : Core) : (s.setCore n c).fresh = s.fresh := rfl
@[simp] theorem State.setCore_ids (n : Nat) (c : Core) : (s.setCore n c).ids = s.ids := rfl
@[simp] theorem State.setCore_cyc (n : Nat) (c : Core) : (s.setCore n c).cyc = s.cyc := rfl
@[simp] theorem State.setCore_regw (n : Nat) (c : Core) : (s.setCore n c).regw = s.regw := rfl
@[simp] theorem State.setRow_mem (n : Nat) (r : Row) : (s.setRow n r).mem = s.mem := rfl
@[simp] theorem State.setRow_keyed (n : Nat) (r : Row) : (s.setRow n r).keyed = s.keyed := rfl
@[simp] theorem State.setRow_bad (n : Nat) (r : Row) : (s.setRow n r).bad = s.bad := rfl
@[simp] theorem State.setRow_ctxs (n : Nat) (r : Row) : (s.setRow n r).ctxs = s.ctxs := rfl
@[simp] theorem State.setRow_cores (n : Nat) (r : Row) : (s.setRow n r).cores = s.cores := rfl
@[simp] theorem State.setRow_dies (n : Nat) (r : Row) : (s.setRow n r).dies = s.dies := rfl
@[simp] theorem State.setRow_parts (n : Nat) (r : Row) : (s.setRow n r).parts = s.parts := rfl
@[simp] theorem State.setRow_cmds (n : Nat) (r : Row) : (s.setRow n r).cmds = s.cmds := rfl
@[simp] theorem State.setRow_fab (n : Nat) (r : Row) : (s.setRow n r).fab = s.fab := rfl
@[simp] theorem State.setRow_svc (n : Nat) (r : Row) : (s.setRow n r).svc = s.svc := rfl
@[simp] theorem State.setRow_tlb (n : Nat) (r : Row) : (s.setRow n r).tlb = s.tlb := rfl
@[simp] theorem State.setRow_sched (n : Nat) (r : Row) : (s.setRow n r).sched = s.sched := rfl
@[simp] theorem State.setRow_cur (n : Nat) (r : Row) : (s.setRow n r).cur = s.cur := rfl
@[simp] theorem State.setRow_fresh (n : Nat) (r : Row) : (s.setRow n r).fresh = s.fresh := rfl
@[simp] theorem State.setRow_ids (n : Nat) (r : Row) : (s.setRow n r).ids = s.ids := rfl
@[simp] theorem State.setRow_cyc (n : Nat) (r : Row) : (s.setRow n r).cyc = s.cyc := rfl
@[simp] theorem State.setRow_regw (n : Nat) (r : Row) : (s.setRow n r).regw = s.regw := rfl
@[simp] theorem State.setDie_mem (n : Nat) (d : Die) : (s.setDie n d).mem = s.mem := rfl
@[simp] theorem State.setDie_keyed (n : Nat) (d : Die) : (s.setDie n d).keyed = s.keyed := rfl
@[simp] theorem State.setDie_bad (n : Nat) (d : Die) : (s.setDie n d).bad = s.bad := rfl
@[simp] theorem State.setDie_ctxs (n : Nat) (d : Die) : (s.setDie n d).ctxs = s.ctxs := rfl
@[simp] theorem State.setDie_cores (n : Nat) (d : Die) : (s.setDie n d).cores = s.cores := rfl
@[simp] theorem State.setDie_rows (n : Nat) (d : Die) : (s.setDie n d).rows = s.rows := rfl
@[simp] theorem State.setDie_parts (n : Nat) (d : Die) : (s.setDie n d).parts = s.parts := rfl
@[simp] theorem State.setDie_cmds (n : Nat) (d : Die) : (s.setDie n d).cmds = s.cmds := rfl
@[simp] theorem State.setDie_fab (n : Nat) (d : Die) : (s.setDie n d).fab = s.fab := rfl
@[simp] theorem State.setDie_svc (n : Nat) (d : Die) : (s.setDie n d).svc = s.svc := rfl
@[simp] theorem State.setDie_tlb (n : Nat) (d : Die) : (s.setDie n d).tlb = s.tlb := rfl
@[simp] theorem State.setDie_sched (n : Nat) (d : Die) : (s.setDie n d).sched = s.sched := rfl
@[simp] theorem State.setDie_cur (n : Nat) (d : Die) : (s.setDie n d).cur = s.cur := rfl
@[simp] theorem State.setDie_fresh (n : Nat) (d : Die) : (s.setDie n d).fresh = s.fresh := rfl
@[simp] theorem State.setDie_ids (n : Nat) (d : Die) : (s.setDie n d).ids = s.ids := rfl
@[simp] theorem State.setDie_cyc (n : Nat) (d : Die) : (s.setDie n d).cyc = s.cyc := rfl
@[simp] theorem State.setDie_regw (n : Nat) (d : Die) : (s.setDie n d).regw = s.regw := rfl
@[simp] theorem State.setPart_mem (n : Nat) (p : Part) : (s.setPart n p).mem = s.mem := rfl
@[simp] theorem State.setPart_keyed (n : Nat) (p : Part) : (s.setPart n p).keyed = s.keyed := rfl
@[simp] theorem State.setPart_bad (n : Nat) (p : Part) : (s.setPart n p).bad = s.bad := rfl
@[simp] theorem State.setPart_ctxs (n : Nat) (p : Part) : (s.setPart n p).ctxs = s.ctxs := rfl
@[simp] theorem State.setPart_cores (n : Nat) (p : Part) : (s.setPart n p).cores = s.cores := rfl
@[simp] theorem State.setPart_rows (n : Nat) (p : Part) : (s.setPart n p).rows = s.rows := rfl
@[simp] theorem State.setPart_dies (n : Nat) (p : Part) : (s.setPart n p).dies = s.dies := rfl
@[simp] theorem State.setPart_cmds (n : Nat) (p : Part) : (s.setPart n p).cmds = s.cmds := rfl
@[simp] theorem State.setPart_fab (n : Nat) (p : Part) : (s.setPart n p).fab = s.fab := rfl
@[simp] theorem State.setPart_svc (n : Nat) (p : Part) : (s.setPart n p).svc = s.svc := rfl
@[simp] theorem State.setPart_tlb (n : Nat) (p : Part) : (s.setPart n p).tlb = s.tlb := rfl
@[simp] theorem State.setPart_sched (n : Nat) (p : Part) : (s.setPart n p).sched = s.sched := rfl
@[simp] theorem State.setPart_cur (n : Nat) (p : Part) : (s.setPart n p).cur = s.cur := rfl
@[simp] theorem State.setPart_fresh (n : Nat) (p : Part) : (s.setPart n p).fresh = s.fresh := rfl
@[simp] theorem State.setPart_ids (n : Nat) (p : Part) : (s.setPart n p).ids = s.ids := rfl
@[simp] theorem State.setPart_cyc (n : Nat) (p : Part) : (s.setPart n p).cyc = s.cyc := rfl
@[simp] theorem State.setPart_regw (n : Nat) (p : Part) : (s.setPart n p).regw = s.regw := rfl
@[simp] theorem State.setPair_mem (n : Nat) (p : Pair) : (s.setPair n p).mem = s.mem := rfl
@[simp] theorem State.setPair_keyed (n : Nat) (p : Pair) : (s.setPair n p).keyed = s.keyed := rfl
@[simp] theorem State.setPair_bad (n : Nat) (p : Pair) : (s.setPair n p).bad = s.bad := rfl
@[simp] theorem State.setPair_ctxs (n : Nat) (p : Pair) : (s.setPair n p).ctxs = s.ctxs := rfl
@[simp] theorem State.setPair_cores (n : Nat) (p : Pair) : (s.setPair n p).cores = s.cores := rfl
@[simp] theorem State.setPair_rows (n : Nat) (p : Pair) : (s.setPair n p).rows = s.rows := rfl
@[simp] theorem State.setPair_dies (n : Nat) (p : Pair) : (s.setPair n p).dies = s.dies := rfl
@[simp] theorem State.setPair_parts (n : Nat) (p : Pair) : (s.setPair n p).parts = s.parts := rfl
@[simp] theorem State.setPair_cmds (n : Nat) (p : Pair) : (s.setPair n p).cmds = s.cmds := rfl
@[simp] theorem State.setPair_svc (n : Nat) (p : Pair) : (s.setPair n p).svc = s.svc := rfl
@[simp] theorem State.setPair_tlb (n : Nat) (p : Pair) : (s.setPair n p).tlb = s.tlb := rfl
@[simp] theorem State.setPair_sched (n : Nat) (p : Pair) : (s.setPair n p).sched = s.sched := rfl
@[simp] theorem State.setPair_cur (n : Nat) (p : Pair) : (s.setPair n p).cur = s.cur := rfl
@[simp] theorem State.setPair_fresh (n : Nat) (p : Pair) : (s.setPair n p).fresh = s.fresh := rfl
@[simp] theorem State.setPair_ids (n : Nat) (p : Pair) : (s.setPair n p).ids = s.ids := rfl
@[simp] theorem State.setPair_cyc (n : Nat) (p : Pair) : (s.setPair n p).cyc = s.cyc := rfl
@[simp] theorem State.setPair_regw (n : Nat) (p : Pair) : (s.setPair n p).regw = s.regw := rfl
@[simp] theorem State.setQueue_mem (n : Nat) (q : CmdQ) : (s.setQueue n q).mem = s.mem := rfl
@[simp] theorem State.setQueue_keyed (n : Nat) (q : CmdQ) : (s.setQueue n q).keyed = s.keyed := rfl
@[simp] theorem State.setQueue_bad (n : Nat) (q : CmdQ) : (s.setQueue n q).bad = s.bad := rfl
@[simp] theorem State.setQueue_ctxs (n : Nat) (q : CmdQ) : (s.setQueue n q).ctxs = s.ctxs := rfl
@[simp] theorem State.setQueue_cores (n : Nat) (q : CmdQ) : (s.setQueue n q).cores = s.cores := rfl
@[simp] theorem State.setQueue_rows (n : Nat) (q : CmdQ) : (s.setQueue n q).rows = s.rows := rfl
@[simp] theorem State.setQueue_dies (n : Nat) (q : CmdQ) : (s.setQueue n q).dies = s.dies := rfl
@[simp] theorem State.setQueue_parts (n : Nat) (q : CmdQ) : (s.setQueue n q).parts = s.parts := rfl
@[simp] theorem State.setQueue_cmds (n : Nat) (q : CmdQ) : (s.setQueue n q).cmds = s.cmds := rfl
@[simp] theorem State.setQueue_fab (n : Nat) (q : CmdQ) : (s.setQueue n q).fab = s.fab := rfl
@[simp] theorem State.setQueue_tlb (n : Nat) (q : CmdQ) : (s.setQueue n q).tlb = s.tlb := rfl
@[simp] theorem State.setQueue_sched (n : Nat) (q : CmdQ) : (s.setQueue n q).sched = s.sched := rfl
@[simp] theorem State.setQueue_cur (n : Nat) (q : CmdQ) : (s.setQueue n q).cur = s.cur := rfl
@[simp] theorem State.setQueue_fresh (n : Nat) (q : CmdQ) : (s.setQueue n q).fresh = s.fresh := rfl
@[simp] theorem State.setQueue_ids (n : Nat) (q : CmdQ) : (s.setQueue n q).ids = s.ids := rfl
@[simp] theorem State.setQueue_cyc (n : Nat) (q : CmdQ) : (s.setQueue n q).cyc = s.cyc := rfl
@[simp] theorem State.setQueue_regw (n : Nat) (q : CmdQ) : (s.setQueue n q).regw = s.regw := rfl
@[simp] theorem State.modCtx_mem (w : Nat) (f : Ctx → Ctx) : (s.modCtx w f).mem = s.mem := rfl
@[simp] theorem State.modCtx_keyed (w : Nat) (f : Ctx → Ctx) : (s.modCtx w f).keyed = s.keyed := rfl
@[simp] theorem State.modCtx_bad (w : Nat) (f : Ctx → Ctx) : (s.modCtx w f).bad = s.bad := rfl
@[simp] theorem State.modCtx_cores (w : Nat) (f : Ctx → Ctx) : (s.modCtx w f).cores = s.cores := rfl
@[simp] theorem State.modCtx_rows (w : Nat) (f : Ctx → Ctx) : (s.modCtx w f).rows = s.rows := rfl
@[simp] theorem State.modCtx_dies (w : Nat) (f : Ctx → Ctx) : (s.modCtx w f).dies = s.dies := rfl
@[simp] theorem State.modCtx_parts (w : Nat) (f : Ctx → Ctx) : (s.modCtx w f).parts = s.parts := rfl
@[simp] theorem State.modCtx_cmds (w : Nat) (f : Ctx → Ctx) : (s.modCtx w f).cmds = s.cmds := rfl
@[simp] theorem State.modCtx_fab (w : Nat) (f : Ctx → Ctx) : (s.modCtx w f).fab = s.fab := rfl
@[simp] theorem State.modCtx_svc (w : Nat) (f : Ctx → Ctx) : (s.modCtx w f).svc = s.svc := rfl
@[simp] theorem State.modCtx_tlb (w : Nat) (f : Ctx → Ctx) : (s.modCtx w f).tlb = s.tlb := rfl
@[simp] theorem State.modCtx_sched (w : Nat) (f : Ctx → Ctx) : (s.modCtx w f).sched = s.sched := rfl
@[simp] theorem State.modCtx_cur (w : Nat) (f : Ctx → Ctx) : (s.modCtx w f).cur = s.cur := rfl
@[simp] theorem State.modCtx_fresh (w : Nat) (f : Ctx → Ctx) : (s.modCtx w f).fresh = s.fresh := rfl
@[simp] theorem State.modCtx_ids (w : Nat) (f : Ctx → Ctx) : (s.modCtx w f).ids = s.ids := rfl
@[simp] theorem State.modCtx_cyc (w : Nat) (f : Ctx → Ctx) : (s.modCtx w f).cyc = s.cyc := rfl
@[simp] theorem State.modCtx_regw (w : Nat) (f : Ctx → Ctx) : (s.modCtx w f).regw = s.regw := rfl
@[simp] theorem State.modCore_mem (n : Nat) (f : Core → Core) : (s.modCore n f).mem = s.mem := rfl
@[simp] theorem State.modCore_keyed (n : Nat) (f : Core → Core) : (s.modCore n f).keyed = s.keyed := rfl
@[simp] theorem State.modCore_bad (n : Nat) (f : Core → Core) : (s.modCore n f).bad = s.bad := rfl
@[simp] theorem State.modCore_ctxs (n : Nat) (f : Core → Core) : (s.modCore n f).ctxs = s.ctxs := rfl
@[simp] theorem State.modCore_rows (n : Nat) (f : Core → Core) : (s.modCore n f).rows = s.rows := rfl
@[simp] theorem State.modCore_dies (n : Nat) (f : Core → Core) : (s.modCore n f).dies = s.dies := rfl
@[simp] theorem State.modCore_parts (n : Nat) (f : Core → Core) : (s.modCore n f).parts = s.parts := rfl
@[simp] theorem State.modCore_cmds (n : Nat) (f : Core → Core) : (s.modCore n f).cmds = s.cmds := rfl
@[simp] theorem State.modCore_fab (n : Nat) (f : Core → Core) : (s.modCore n f).fab = s.fab := rfl
@[simp] theorem State.modCore_svc (n : Nat) (f : Core → Core) : (s.modCore n f).svc = s.svc := rfl
@[simp] theorem State.modCore_tlb (n : Nat) (f : Core → Core) : (s.modCore n f).tlb = s.tlb := rfl
@[simp] theorem State.modCore_sched (n : Nat) (f : Core → Core) : (s.modCore n f).sched = s.sched := rfl
@[simp] theorem State.modCore_cur (n : Nat) (f : Core → Core) : (s.modCore n f).cur = s.cur := rfl
@[simp] theorem State.modCore_fresh (n : Nat) (f : Core → Core) : (s.modCore n f).fresh = s.fresh := rfl
@[simp] theorem State.modCore_ids (n : Nat) (f : Core → Core) : (s.modCore n f).ids = s.ids := rfl
@[simp] theorem State.modCore_cyc (n : Nat) (f : Core → Core) : (s.modCore n f).cyc = s.cyc := rfl
@[simp] theorem State.modCore_regw (n : Nat) (f : Core → Core) : (s.modCore n f).regw = s.regw := rfl
@[simp] theorem State.modDie_mem (n : Nat) (f : Die → Die) : (s.modDie n f).mem = s.mem := rfl
@[simp] theorem State.modDie_keyed (n : Nat) (f : Die → Die) : (s.modDie n f).keyed = s.keyed := rfl
@[simp] theorem State.modDie_bad (n : Nat) (f : Die → Die) : (s.modDie n f).bad = s.bad := rfl
@[simp] theorem State.modDie_ctxs (n : Nat) (f : Die → Die) : (s.modDie n f).ctxs = s.ctxs := rfl
@[simp] theorem State.modDie_cores (n : Nat) (f : Die → Die) : (s.modDie n f).cores = s.cores := rfl
@[simp] theorem State.modDie_rows (n : Nat) (f : Die → Die) : (s.modDie n f).rows = s.rows := rfl
@[simp] theorem State.modDie_parts (n : Nat) (f : Die → Die) : (s.modDie n f).parts = s.parts := rfl
@[simp] theorem State.modDie_cmds (n : Nat) (f : Die → Die) : (s.modDie n f).cmds = s.cmds := rfl
@[simp] theorem State.modDie_fab (n : Nat) (f : Die → Die) : (s.modDie n f).fab = s.fab := rfl
@[simp] theorem State.modDie_svc (n : Nat) (f : Die → Die) : (s.modDie n f).svc = s.svc := rfl
@[simp] theorem State.modDie_tlb (n : Nat) (f : Die → Die) : (s.modDie n f).tlb = s.tlb := rfl
@[simp] theorem State.modDie_sched (n : Nat) (f : Die → Die) : (s.modDie n f).sched = s.sched := rfl
@[simp] theorem State.modDie_cur (n : Nat) (f : Die → Die) : (s.modDie n f).cur = s.cur := rfl
@[simp] theorem State.modDie_fresh (n : Nat) (f : Die → Die) : (s.modDie n f).fresh = s.fresh := rfl
@[simp] theorem State.modDie_ids (n : Nat) (f : Die → Die) : (s.modDie n f).ids = s.ids := rfl
@[simp] theorem State.modDie_cyc (n : Nat) (f : Die → Die) : (s.modDie n f).cyc = s.cyc := rfl
@[simp] theorem State.modDie_regw (n : Nat) (f : Die → Die) : (s.modDie n f).regw = s.regw := rfl
@[simp] theorem State.modPair_mem (n : Nat) (f : Pair → Pair) : (s.modPair n f).mem = s.mem := rfl
@[simp] theorem State.modPair_keyed (n : Nat) (f : Pair → Pair) : (s.modPair n f).keyed = s.keyed := rfl
@[simp] theorem State.modPair_bad (n : Nat) (f : Pair → Pair) : (s.modPair n f).bad = s.bad := rfl
@[simp] theorem State.modPair_ctxs (n : Nat) (f : Pair → Pair) : (s.modPair n f).ctxs = s.ctxs := rfl
@[simp] theorem State.modPair_cores (n : Nat) (f : Pair → Pair) : (s.modPair n f).cores = s.cores := rfl
@[simp] theorem State.modPair_rows (n : Nat) (f : Pair → Pair) : (s.modPair n f).rows = s.rows := rfl
@[simp] theorem State.modPair_dies (n : Nat) (f : Pair → Pair) : (s.modPair n f).dies = s.dies := rfl
@[simp] theorem State.modPair_parts (n : Nat) (f : Pair → Pair) : (s.modPair n f).parts = s.parts := rfl
@[simp] theorem State.modPair_cmds (n : Nat) (f : Pair → Pair) : (s.modPair n f).cmds = s.cmds := rfl
@[simp] theorem State.modPair_svc (n : Nat) (f : Pair → Pair) : (s.modPair n f).svc = s.svc := rfl
@[simp] theorem State.modPair_tlb (n : Nat) (f : Pair → Pair) : (s.modPair n f).tlb = s.tlb := rfl
@[simp] theorem State.modPair_sched (n : Nat) (f : Pair → Pair) : (s.modPair n f).sched = s.sched := rfl
@[simp] theorem State.modPair_cur (n : Nat) (f : Pair → Pair) : (s.modPair n f).cur = s.cur := rfl
@[simp] theorem State.modPair_fresh (n : Nat) (f : Pair → Pair) : (s.modPair n f).fresh = s.fresh := rfl
@[simp] theorem State.modPair_ids (n : Nat) (f : Pair → Pair) : (s.modPair n f).ids = s.ids := rfl
@[simp] theorem State.modPair_cyc (n : Nat) (f : Pair → Pair) : (s.modPair n f).cyc = s.cyc := rfl
@[simp] theorem State.modPair_regw (n : Nat) (f : Pair → Pair) : (s.modPair n f).regw = s.regw := rfl
@[simp] theorem State.modRing_mem (n k : Nat) (f : Ring → Ring) : (s.modRing n k f).mem = s.mem := rfl
@[simp] theorem State.modRing_keyed (n k : Nat) (f : Ring → Ring) : (s.modRing n k f).keyed = s.keyed := rfl
@[simp] theorem State.modRing_bad (n k : Nat) (f : Ring → Ring) : (s.modRing n k f).bad = s.bad := rfl
@[simp] theorem State.modRing_ctxs (n k : Nat) (f : Ring → Ring) : (s.modRing n k f).ctxs = s.ctxs := rfl
@[simp] theorem State.modRing_rows (n k : Nat) (f : Ring → Ring) : (s.modRing n k f).rows = s.rows := rfl
@[simp] theorem State.modRing_dies (n k : Nat) (f : Ring → Ring) : (s.modRing n k f).dies = s.dies := rfl
@[simp] theorem State.modRing_parts (n k : Nat) (f : Ring → Ring) : (s.modRing n k f).parts = s.parts := rfl
@[simp] theorem State.modRing_cmds (n k : Nat) (f : Ring → Ring) : (s.modRing n k f).cmds = s.cmds := rfl
@[simp] theorem State.modRing_fab (n k : Nat) (f : Ring → Ring) : (s.modRing n k f).fab = s.fab := rfl
@[simp] theorem State.modRing_svc (n k : Nat) (f : Ring → Ring) : (s.modRing n k f).svc = s.svc := rfl
@[simp] theorem State.modRing_tlb (n k : Nat) (f : Ring → Ring) : (s.modRing n k f).tlb = s.tlb := rfl
@[simp] theorem State.modRing_sched (n k : Nat) (f : Ring → Ring) : (s.modRing n k f).sched = s.sched := rfl
@[simp] theorem State.modRing_cur (n k : Nat) (f : Ring → Ring) : (s.modRing n k f).cur = s.cur := rfl
@[simp] theorem State.modRing_fresh (n k : Nat) (f : Ring → Ring) : (s.modRing n k f).fresh = s.fresh := rfl
@[simp] theorem State.modRing_ids (n k : Nat) (f : Ring → Ring) : (s.modRing n k f).ids = s.ids := rfl
@[simp] theorem State.modRing_cyc (n k : Nat) (f : Ring → Ring) : (s.modRing n k f).cyc = s.cyc := rfl
@[simp] theorem State.modRing_regw (n k : Nat) (f : Ring → Ring) : (s.modRing n k f).regw = s.regw := rfl
@[simp] theorem State.modMe_mem (f : Ctx → Ctx) : (s.modMe f).mem = s.mem := rfl
@[simp] theorem State.modMe_keyed (f : Ctx → Ctx) : (s.modMe f).keyed = s.keyed := rfl
@[simp] theorem State.modMe_bad (f : Ctx → Ctx) : (s.modMe f).bad = s.bad := rfl
@[simp] theorem State.modMe_cores (f : Ctx → Ctx) : (s.modMe f).cores = s.cores := rfl
@[simp] theorem State.modMe_rows (f : Ctx → Ctx) : (s.modMe f).rows = s.rows := rfl
@[simp] theorem State.modMe_dies (f : Ctx → Ctx) : (s.modMe f).dies = s.dies := rfl
@[simp] theorem State.modMe_parts (f : Ctx → Ctx) : (s.modMe f).parts = s.parts := rfl
@[simp] theorem State.modMe_cmds (f : Ctx → Ctx) : (s.modMe f).cmds = s.cmds := rfl
@[simp] theorem State.modMe_fab (f : Ctx → Ctx) : (s.modMe f).fab = s.fab := rfl
@[simp] theorem State.modMe_svc (f : Ctx → Ctx) : (s.modMe f).svc = s.svc := rfl
@[simp] theorem State.modMe_tlb (f : Ctx → Ctx) : (s.modMe f).tlb = s.tlb := rfl
@[simp] theorem State.modMe_sched (f : Ctx → Ctx) : (s.modMe f).sched = s.sched := rfl
@[simp] theorem State.modMe_cur (f : Ctx → Ctx) : (s.modMe f).cur = s.cur := rfl
@[simp] theorem State.modMe_fresh (f : Ctx → Ctx) : (s.modMe f).fresh = s.fresh := rfl
@[simp] theorem State.modMe_ids (f : Ctx → Ctx) : (s.modMe f).ids = s.ids := rfl
@[simp] theorem State.modMe_cyc (f : Ctx → Ctx) : (s.modMe f).cyc = s.cyc := rfl
@[simp] theorem State.modMe_regw (f : Ctx → Ctx) : (s.modMe f).regw = s.regw := rfl
@[simp] theorem State.putBytes_keyed (a n v : Nat) : (s.putBytes a n v).keyed = s.keyed := rfl
@[simp] theorem State.putBytes_bad (a n v : Nat) : (s.putBytes a n v).bad = s.bad := rfl
@[simp] theorem State.putBytes_ctxs (a n v : Nat) : (s.putBytes a n v).ctxs = s.ctxs := rfl
@[simp] theorem State.putBytes_cores (a n v : Nat) : (s.putBytes a n v).cores = s.cores := rfl
@[simp] theorem State.putBytes_rows (a n v : Nat) : (s.putBytes a n v).rows = s.rows := rfl
@[simp] theorem State.putBytes_dies (a n v : Nat) : (s.putBytes a n v).dies = s.dies := rfl
@[simp] theorem State.putBytes_parts (a n v : Nat) : (s.putBytes a n v).parts = s.parts := rfl
@[simp] theorem State.putBytes_cmds (a n v : Nat) : (s.putBytes a n v).cmds = s.cmds := rfl
@[simp] theorem State.putBytes_fab (a n v : Nat) : (s.putBytes a n v).fab = s.fab := rfl
@[simp] theorem State.putBytes_svc (a n v : Nat) : (s.putBytes a n v).svc = s.svc := rfl
@[simp] theorem State.putBytes_tlb (a n v : Nat) : (s.putBytes a n v).tlb = s.tlb := rfl
@[simp] theorem State.putBytes_sched (a n v : Nat) : (s.putBytes a n v).sched = s.sched := rfl
@[simp] theorem State.putBytes_cur (a n v : Nat) : (s.putBytes a n v).cur = s.cur := rfl
@[simp] theorem State.putBytes_fresh (a n v : Nat) : (s.putBytes a n v).fresh = s.fresh := rfl
@[simp] theorem State.putBytes_ids (a n v : Nat) : (s.putBytes a n v).ids = s.ids := rfl
@[simp] theorem State.putBytes_cyc (a n v : Nat) : (s.putBytes a n v).cyc = s.cyc := rfl
@[simp] theorem State.putBytes_regw (a n v : Nat) : (s.putBytes a n v).regw = s.regw := rfl
@[simp] theorem State.putMask_keyed (a n v bm : Nat) : (s.putMask a n v bm).keyed = s.keyed := rfl
@[simp] theorem State.putMask_bad (a n v bm : Nat) : (s.putMask a n v bm).bad = s.bad := rfl
@[simp] theorem State.putMask_ctxs (a n v bm : Nat) : (s.putMask a n v bm).ctxs = s.ctxs := rfl
@[simp] theorem State.putMask_cores (a n v bm : Nat) : (s.putMask a n v bm).cores = s.cores := rfl
@[simp] theorem State.putMask_rows (a n v bm : Nat) : (s.putMask a n v bm).rows = s.rows := rfl
@[simp] theorem State.putMask_dies (a n v bm : Nat) : (s.putMask a n v bm).dies = s.dies := rfl
@[simp] theorem State.putMask_parts (a n v bm : Nat) : (s.putMask a n v bm).parts = s.parts := rfl
@[simp] theorem State.putMask_cmds (a n v bm : Nat) : (s.putMask a n v bm).cmds = s.cmds := rfl
@[simp] theorem State.putMask_fab (a n v bm : Nat) : (s.putMask a n v bm).fab = s.fab := rfl
@[simp] theorem State.putMask_svc (a n v bm : Nat) : (s.putMask a n v bm).svc = s.svc := rfl
@[simp] theorem State.putMask_tlb (a n v bm : Nat) : (s.putMask a n v bm).tlb = s.tlb := rfl
@[simp] theorem State.putMask_sched (a n v bm : Nat) : (s.putMask a n v bm).sched = s.sched := rfl
@[simp] theorem State.putMask_cur (a n v bm : Nat) : (s.putMask a n v bm).cur = s.cur := rfl
@[simp] theorem State.putMask_fresh (a n v bm : Nat) : (s.putMask a n v bm).fresh = s.fresh := rfl
@[simp] theorem State.putMask_ids (a n v bm : Nat) : (s.putMask a n v bm).ids = s.ids := rfl
@[simp] theorem State.putMask_cyc (a n v bm : Nat) : (s.putMask a n v bm).cyc = s.cyc := rfl
@[simp] theorem State.putMask_regw (a n v bm : Nat) : (s.putMask a n v bm).regw = s.regw := rfl

/-! ## What an access reads after an update -/

@[simp] theorem State.ctx_setCtx (w : Nat) (c : Ctx) : (s.setCtx w c).ctx w = c := aget_aset_self ..
@[simp] theorem State.ctx_setCtx_ne {w v : Nat} (c : Ctx) (h : v ≠ w) : (s.setCtx w c).ctx v = s.ctx v := aget_aset_ne _ _ _ h
@[simp] theorem State.ctx_modCtx (w : Nat) (f : Ctx → Ctx) : (s.modCtx w f).ctx w = f (s.ctx w) := aget_aset_self ..
@[simp] theorem State.ctx_modCtx_ne {w v : Nat} (f : Ctx → Ctx) (h : v ≠ w) : (s.modCtx w f).ctx v = s.ctx v := aget_aset_ne _ _ _ h
@[simp] theorem State.me_modMe (f : Ctx → Ctx) : (s.modMe f).me = f s.me := aget_aset_self ..
@[simp] theorem State.ctx_modMe (f : Ctx → Ctx) : (s.modMe f).ctx s.cur.who = f s.me := aget_aset_self ..
@[simp] theorem State.ctx_modMe_ne {v : Nat} (f : Ctx → Ctx) (h : v ≠ s.cur.who) : (s.modMe f).ctx v = s.ctx v := aget_aset_ne _ _ _ h
@[simp] theorem State.core_setCore (n : Nat) (c : Core) : (s.setCore n c).core n = c := aget_aset_self ..
@[simp] theorem State.core_setCore_ne {n m : Nat} (c : Core) (h : m ≠ n) : (s.setCore n c).core m = s.core m := aget_aset_ne _ _ _ h
@[simp] theorem State.core_modCore (n : Nat) (f : Core → Core) : (s.modCore n f).core n = f (s.core n) := aget_aset_self ..
@[simp] theorem State.core_modCore_ne {n m : Nat} (f : Core → Core) (h : m ≠ n) : (s.modCore n f).core m = s.core m := aget_aset_ne _ _ _ h
@[simp] theorem State.row_setRow (n : Nat) (r : Row) : (s.setRow n r).row n = r := aget_aset_self ..
@[simp] theorem State.row_setRow_ne {n m : Nat} (r : Row) (h : m ≠ n) : (s.setRow n r).row m = s.row m := aget_aset_ne _ _ _ h
@[simp] theorem State.die_setDie (n : Nat) (d : Die) : (s.setDie n d).die n = d := aget_aset_self ..
@[simp] theorem State.die_setDie_ne {n m : Nat} (d : Die) (h : m ≠ n) : (s.setDie n d).die m = s.die m := aget_aset_ne _ _ _ h
@[simp] theorem State.die_modDie (n : Nat) (f : Die → Die) : (s.modDie n f).die n = f (s.die n) := aget_aset_self ..
@[simp] theorem State.die_modDie_ne {n m : Nat} (f : Die → Die) (h : m ≠ n) : (s.modDie n f).die m = s.die m := aget_aset_ne _ _ _ h
@[simp] theorem State.part_setPart (n : Nat) (p : Part) : (s.setPart n p).part n = p := aget_aset_self ..
@[simp] theorem State.part_setPart_ne {n m : Nat} (p : Part) (h : m ≠ n) : (s.setPart n p).part m = s.part m := aget_aset_ne _ _ _ h
@[simp] theorem State.pair_setPair (n : Nat) (p : Pair) : (s.setPair n p).pair n = p := aget_aset_self ..
@[simp] theorem State.pair_setPair_ne {n m : Nat} (p : Pair) (h : m ≠ n) : (s.setPair n p).pair m = s.pair m := aget_aset_ne _ _ _ h
@[simp] theorem State.pair_modPair (n : Nat) (f : Pair → Pair) : (s.modPair n f).pair n = f (s.pair n) := aget_aset_self ..
@[simp] theorem State.pair_modPair_ne {n m : Nat} (f : Pair → Pair) (h : m ≠ n) : (s.modPair n f).pair m = s.pair m := aget_aset_ne _ _ _ h
@[simp] theorem State.queue_setQueue (n : Nat) (q : CmdQ) : (s.setQueue n q).queue n = q := aget_aset_self ..
@[simp] theorem State.queue_setQueue_ne {n m : Nat} (q : CmdQ) (h : m ≠ n) : (s.setQueue n q).queue m = s.queue m := aget_aset_ne _ _ _ h
@[simp] theorem Core.ring_setRing (c : Core) (n : Nat) (r : Ring) : (c.setRing n r).ring n = r := aget_aset_self ..
@[simp] theorem Core.ring_setRing_ne (c : Core) {n m : Nat} (r : Ring) (h : m ≠ n) : (c.setRing n r).ring m = c.ring m :=
  aget_aset_ne _ _ _ h
@[simp] theorem State.ring_modRing (n k : Nat) (f : Ring → Ring) : (s.modRing n k f).ring n k = f (s.ring n k) := by
  simp [State.ring, State.modRing]

/-! ## What an access reads after an update of another part -/

@[simp] theorem State.core_modCtx (w : Nat) (f : Ctx → Ctx) (v : Nat) : (s.modCtx w f).core v = s.core v := rfl
@[simp] theorem State.row_modCtx (w : Nat) (f : Ctx → Ctx) (v : Nat) : (s.modCtx w f).row v = s.row v := rfl
@[simp] theorem State.die_modCtx (w : Nat) (f : Ctx → Ctx) (v : Nat) : (s.modCtx w f).die v = s.die v := rfl
@[simp] theorem State.part_modCtx (w : Nat) (f : Ctx → Ctx) (v : Nat) : (s.modCtx w f).part v = s.part v := rfl
@[simp] theorem State.pair_modCtx (w : Nat) (f : Ctx → Ctx) (v : Nat) : (s.modCtx w f).pair v = s.pair v := rfl
@[simp] theorem State.queue_modCtx (w : Nat) (f : Ctx → Ctx) (v : Nat) : (s.modCtx w f).queue v = s.queue v := rfl
@[simp] theorem State.core_modMe (f : Ctx → Ctx) (v : Nat) : (s.modMe f).core v = s.core v := rfl
@[simp] theorem State.row_modMe (f : Ctx → Ctx) (v : Nat) : (s.modMe f).row v = s.row v := rfl
@[simp] theorem State.die_modMe (f : Ctx → Ctx) (v : Nat) : (s.modMe f).die v = s.die v := rfl
@[simp] theorem State.part_modMe (f : Ctx → Ctx) (v : Nat) : (s.modMe f).part v = s.part v := rfl
@[simp] theorem State.pair_modMe (f : Ctx → Ctx) (v : Nat) : (s.modMe f).pair v = s.pair v := rfl
@[simp] theorem State.queue_modMe (f : Ctx → Ctx) (v : Nat) : (s.modMe f).queue v = s.queue v := rfl
@[simp] theorem State.ctx_setCore (n : Nat) (c : Core) (v : Nat) : (s.setCore n c).ctx v = s.ctx v := rfl
@[simp] theorem State.row_setCore (n : Nat) (c : Core) (v : Nat) : (s.setCore n c).row v = s.row v := rfl
@[simp] theorem State.die_setCore (n : Nat) (c : Core) (v : Nat) : (s.setCore n c).die v = s.die v := rfl
@[simp] theorem State.part_setCore (n : Nat) (c : Core) (v : Nat) : (s.setCore n c).part v = s.part v := rfl
@[simp] theorem State.pair_setCore (n : Nat) (c : Core) (v : Nat) : (s.setCore n c).pair v = s.pair v := rfl
@[simp] theorem State.queue_setCore (n : Nat) (c : Core) (v : Nat) : (s.setCore n c).queue v = s.queue v := rfl
@[simp] theorem State.ctx_modCore (n : Nat) (f : Core → Core) (v : Nat) : (s.modCore n f).ctx v = s.ctx v := rfl
@[simp] theorem State.row_modCore (n : Nat) (f : Core → Core) (v : Nat) : (s.modCore n f).row v = s.row v := rfl
@[simp] theorem State.die_modCore (n : Nat) (f : Core → Core) (v : Nat) : (s.modCore n f).die v = s.die v := rfl
@[simp] theorem State.part_modCore (n : Nat) (f : Core → Core) (v : Nat) : (s.modCore n f).part v = s.part v := rfl
@[simp] theorem State.pair_modCore (n : Nat) (f : Core → Core) (v : Nat) : (s.modCore n f).pair v = s.pair v := rfl
@[simp] theorem State.queue_modCore (n : Nat) (f : Core → Core) (v : Nat) : (s.modCore n f).queue v = s.queue v := rfl
@[simp] theorem State.ctx_setRow (n : Nat) (r : Row) (v : Nat) : (s.setRow n r).ctx v = s.ctx v := rfl
@[simp] theorem State.core_setRow (n : Nat) (r : Row) (v : Nat) : (s.setRow n r).core v = s.core v := rfl
@[simp] theorem State.die_setRow (n : Nat) (r : Row) (v : Nat) : (s.setRow n r).die v = s.die v := rfl
@[simp] theorem State.part_setRow (n : Nat) (r : Row) (v : Nat) : (s.setRow n r).part v = s.part v := rfl
@[simp] theorem State.pair_setRow (n : Nat) (r : Row) (v : Nat) : (s.setRow n r).pair v = s.pair v := rfl
@[simp] theorem State.queue_setRow (n : Nat) (r : Row) (v : Nat) : (s.setRow n r).queue v = s.queue v := rfl
@[simp] theorem State.ctx_modDie (n : Nat) (f : Die → Die) (v : Nat) : (s.modDie n f).ctx v = s.ctx v := rfl
@[simp] theorem State.core_modDie (n : Nat) (f : Die → Die) (v : Nat) : (s.modDie n f).core v = s.core v := rfl
@[simp] theorem State.row_modDie (n : Nat) (f : Die → Die) (v : Nat) : (s.modDie n f).row v = s.row v := rfl
@[simp] theorem State.part_modDie (n : Nat) (f : Die → Die) (v : Nat) : (s.modDie n f).part v = s.part v := rfl
@[simp] theorem State.pair_modDie (n : Nat) (f : Die → Die) (v : Nat) : (s.modDie n f).pair v = s.pair v := rfl
@[simp] theorem State.queue_modDie (n : Nat) (f : Die → Die) (v : Nat) : (s.modDie n f).queue v = s.queue v := rfl
@[simp] theorem State.ctx_setPart (n : Nat) (p : Part) (v : Nat) : (s.setPart n p).ctx v = s.ctx v := rfl
@[simp] theorem State.core_setPart (n : Nat) (p : Part) (v : Nat) : (s.setPart n p).core v = s.core v := rfl
@[simp] theorem State.row_setPart (n : Nat) (p : Part) (v : Nat) : (s.setPart n p).row v = s.row v := rfl
@[simp] theorem State.die_setPart (n : Nat) (p : Part) (v : Nat) : (s.setPart n p).die v = s.die v := rfl
@[simp] theorem State.pair_setPart (n : Nat) (p : Part) (v : Nat) : (s.setPart n p).pair v = s.pair v := rfl
@[simp] theorem State.queue_setPart (n : Nat) (p : Part) (v : Nat) : (s.setPart n p).queue v = s.queue v := rfl
@[simp] theorem State.ctx_modPair (n : Nat) (f : Pair → Pair) (v : Nat) : (s.modPair n f).ctx v = s.ctx v := rfl
@[simp] theorem State.core_modPair (n : Nat) (f : Pair → Pair) (v : Nat) : (s.modPair n f).core v = s.core v := rfl
@[simp] theorem State.row_modPair (n : Nat) (f : Pair → Pair) (v : Nat) : (s.modPair n f).row v = s.row v := rfl
@[simp] theorem State.die_modPair (n : Nat) (f : Pair → Pair) (v : Nat) : (s.modPair n f).die v = s.die v := rfl
@[simp] theorem State.part_modPair (n : Nat) (f : Pair → Pair) (v : Nat) : (s.modPair n f).part v = s.part v := rfl
@[simp] theorem State.queue_modPair (n : Nat) (f : Pair → Pair) (v : Nat) : (s.modPair n f).queue v = s.queue v := rfl
@[simp] theorem State.ctx_setQueue (n : Nat) (q : CmdQ) (v : Nat) : (s.setQueue n q).ctx v = s.ctx v := rfl
@[simp] theorem State.core_setQueue (n : Nat) (q : CmdQ) (v : Nat) : (s.setQueue n q).core v = s.core v := rfl
@[simp] theorem State.row_setQueue (n : Nat) (q : CmdQ) (v : Nat) : (s.setQueue n q).row v = s.row v := rfl
@[simp] theorem State.die_setQueue (n : Nat) (q : CmdQ) (v : Nat) : (s.setQueue n q).die v = s.die v := rfl
@[simp] theorem State.part_setQueue (n : Nat) (q : CmdQ) (v : Nat) : (s.setQueue n q).part v = s.part v := rfl
@[simp] theorem State.pair_setQueue (n : Nat) (q : CmdQ) (v : Nat) : (s.setQueue n q).pair v = s.pair v := rfl
@[simp] theorem State.ctx_modRing (n k : Nat) (f : Ring → Ring) (v : Nat) : (s.modRing n k f).ctx v = s.ctx v := rfl
@[simp] theorem State.row_modRing (n k : Nat) (f : Ring → Ring) (v : Nat) : (s.modRing n k f).row v = s.row v := rfl
@[simp] theorem State.die_modRing (n k : Nat) (f : Ring → Ring) (v : Nat) : (s.modRing n k f).die v = s.die v := rfl
@[simp] theorem State.part_modRing (n k : Nat) (f : Ring → Ring) (v : Nat) : (s.modRing n k f).part v = s.part v := rfl
@[simp] theorem State.pair_modRing (n k : Nat) (f : Ring → Ring) (v : Nat) : (s.modRing n k f).pair v = s.pair v := rfl
@[simp] theorem State.queue_modRing (n k : Nat) (f : Ring → Ring) (v : Nat) : (s.modRing n k f).queue v = s.queue v := rfl
@[simp] theorem State.ctx_putBytes (a n v : Nat) (x : Nat) : (s.putBytes a n v).ctx x = s.ctx x := rfl
@[simp] theorem State.core_putBytes (a n v : Nat) (x : Nat) : (s.putBytes a n v).core x = s.core x := rfl
@[simp] theorem State.row_putBytes (a n v : Nat) (x : Nat) : (s.putBytes a n v).row x = s.row x := rfl
@[simp] theorem State.die_putBytes (a n v : Nat) (x : Nat) : (s.putBytes a n v).die x = s.die x := rfl
@[simp] theorem State.part_putBytes (a n v : Nat) (x : Nat) : (s.putBytes a n v).part x = s.part x := rfl
@[simp] theorem State.pair_putBytes (a n v : Nat) (x : Nat) : (s.putBytes a n v).pair x = s.pair x := rfl
@[simp] theorem State.queue_putBytes (a n v : Nat) (x : Nat) : (s.putBytes a n v).queue x = s.queue x := rfl
@[simp] theorem State.ctx_putMask (a n v bm : Nat) (x : Nat) : (s.putMask a n v bm).ctx x = s.ctx x := rfl
@[simp] theorem State.core_putMask (a n v bm : Nat) (x : Nat) : (s.putMask a n v bm).core x = s.core x := rfl
@[simp] theorem State.row_putMask (a n v bm : Nat) (x : Nat) : (s.putMask a n v bm).row x = s.row x := rfl
@[simp] theorem State.die_putMask (a n v bm : Nat) (x : Nat) : (s.putMask a n v bm).die x = s.die x := rfl
@[simp] theorem State.part_putMask (a n v bm : Nat) (x : Nat) : (s.putMask a n v bm).part x = s.part x := rfl
@[simp] theorem State.pair_putMask (a n v bm : Nat) (x : Nat) : (s.putMask a n v bm).pair x = s.pair x := rfl
@[simp] theorem State.queue_putMask (a n v bm : Nat) (x : Nat) : (s.putMask a n v bm).queue x = s.queue x := rfl

/-! ## Registers of a control state -/

@[simp] theorem Ctl.sget_zero (c : Ctl) : c.sget 0 = 0 := rfl
@[simp] theorem Ctl.sset_zero (c : Ctl) (v : Word) : c.sset 0 v = c := rfl
@[simp] theorem Ctl.pget_zero (c : Ctl) : c.pget 0 = true := rfl
@[simp] theorem Ctl.pset_zero (c : Ctl) (b : Bool) : c.pset 0 b = c := rfl
theorem Ctl.sget_sset (c : Ctl) (n m : Nat) (v : Word) : (c.sset n v).sget m = if m = n ∧ n ≠ 0 then v else c.sget m := by
  unfold Ctl.sset Ctl.sget
  by_cases hn : n = 0
  · simp [hn]
  · by_cases hm : m = n
    · subst hm; simp [hn]
    · simp [hn, hm]
theorem Ctl.pget_pset (c : Ctl) (n m : Nat) (b : Bool) : (c.pset n b).pget m = if m = n ∧ n ≠ 0 then b else c.pget m := by
  unfold Ctl.pset Ctl.pget
  by_cases hn : n = 0
  · simp [hn]
  · by_cases hm : m = n
    · subst hm; simp [hn]
    · simp [hn, hm]
theorem Ctl.mget_mset (c : Ctl) (n m : Nat) (v : BitVec 1024) : (c.mset n v).mget m = if m = n then v else c.mget m := by
  simp [Ctl.mset, Ctl.mget, aget_aset]

/-! ## Results in flight -/

/-- An update of one context makes nothing else other than it was. -/
theorem State.becomes_modCtx (w : Nat) (f : Ctx → Ctx) : s.Becomes (s.modCtx w f) w (f (s.ctx w)) :=
  ⟨⟨rfl, fun _ h => State.ctx_modCtx_ne _ _ h⟩, aget_aset_self ..⟩

/-- What putting a result in flight does, once and whole. -/
theorem State.post_issued (left : Nat) (dst : Dest) (val bm size : Nat) :
    s.Issued (s.post left dst val bm size) s.me.ctl [s.result s.ids left dst val bm size] := by
  refine ⟨⟨rfl, fun v h => ?_⟩, ?_⟩
  · exact State.ctx_modCtx_ne _ _ h
  · exact (aget_aset_self ..).trans (by simp only [State.marks, List.any_cons, List.any_nil, Bool.or_false]; rfl)
/-- The same with flags set on the way. -/
theorem State.setFlags_post_issued (f : BitVec 7) (left : Nat) (dst : Dest) (val bm size : Nat) :
    s.Issued ((s.setFlags f).post left dst val bm size) (s.me.ctl.flag f) [s.result s.ids left dst val bm size] := by
  refine ⟨⟨rfl, fun v h => ?_⟩, ?_⟩
  · exact (aget_aset_ne _ _ _ h).trans (aget_aset_ne _ _ _ h)
  · refine (aget_aset_self ..).trans ?_
    have h : ∀ x, State.ctx { s.setFlags f with ids := x } s.cur.who = { s.me with ctl := s.me.ctl.flag f } := fun _ => aget_aset_self ..
    simp only [State.marks, List.any_cons, List.any_nil, Bool.or_false]
    exact congrArg (fun c : Ctx => ({ c with
      flt := { c.flt with wawp := c.flt.wawp || c.twoWriters s.cur.slot.num s.cur.ent.grp dst size },
      fly := c.fly ++ [s.result s.ids left dst val bm size] } : Ctx)) (h _)
theorem State.postS_yields (left : Nat) (d : BitVec 6) (v : Word) : s.Yields (s.postS left d v) left d v := s.post_issued ..
theorem State.postP_yields (left : Nat) (p : BitVec 4) (b : Bool) : s.YieldsP (s.postP left p b) left p b := s.post_issued ..

end Machine

end Sys2Proof
end

