-- ==== Sys2Proof/Laws/Memory.lean ====
section
/-! SUPPORT. The laws of memory (R2, log 2): what reads give after writes, and that every operation on memory keeps the
canonical form. -/

namespace Sys2Proof.Machine

/-! ## The canonical form -/

theorem Memory.wf_iff (m : Memory) : m.wf = true ↔ m.Pairwise (fun a b => a.1 < b.1) ∧ ∀ c ∈ m, c.2 ≠ 0 := by
  induction m with
  | nil => simp [Memory.wf]
  | cons c r ih =>
    cases r with
    | nil => simp [Memory.wf]
    | cons d r =>
      simp only [Memory.wf, Bool.and_eq_true, bne_iff_ne, ne_eq, decide_eq_true_eq, ih]
      constructor
      · rintro ⟨⟨h1, h2⟩, h3, h4⟩
        refine ⟨List.pairwise_cons.2 ⟨?_, h3⟩, ?_⟩
        · intro x hx
          rcases List.mem_cons.1 hx with rfl | hx
          · exact h2
          · exact Nat.lt_trans h2 ((List.pairwise_cons.1 h3).1 x hx)
        · intro x hx
          rcases List.mem_cons.1 hx with rfl | hx
          · exact h1
          · exact h4 x hx
      · rintro ⟨h1, h2⟩
        exact ⟨⟨h2 c (by simp), (List.pairwise_cons.1 h1).1 d (by simp)⟩, (List.pairwise_cons.1 h1).2,
          fun x hx => h2 x (List.mem_cons_of_mem _ hx)⟩

theorem cellsOf_mem {a n v : Nat} {c : Host.Cell} (h : c ∈ cellsOf a n v) : a ≤ c.1 ∧ c.1 < a + n ∧ c.2 ≠ 0 := by
  induction n generalizing a v with
  | zero => simp [cellsOf] at h
  | succ n ih =>
    simp only [cellsOf] at h
    split at h
    · have := ih h; exact ⟨by omega, by omega, this.2.2⟩
    · next hv =>
      rcases List.mem_cons.1 h with rfl | h
      · refine ⟨by simp, by simp, fun h0 => hv ?_⟩
        have := congrArg BitVec.toNat h0
        simpa using this
      · have := ih h; exact ⟨by omega, by omega, this.2.2⟩

theorem cellsOf_pairwise (a n v : Nat) : (cellsOf a n v).Pairwise (fun x y => x.1 < y.1) := by
  induction n generalizing a v with
  | zero => simp [cellsOf]
  | succ n ih =>
    simp only [cellsOf]
    split
    · exact ih ..
    · exact List.pairwise_cons.2 ⟨fun x hx => by have := cellsOf_mem hx; simp only; omega, ih ..⟩

/-- A write keeps the canonical form. -/
theorem Memory.wf_write {m : Memory} (h : m.wf = true) (a n v : Nat) : (m.write a n v).wf = true := by
  rw [Memory.wf_iff] at h ⊢
  obtain ⟨h1, h2⟩ := h
  constructor
  · simp only [Memory.write, List.pairwise_append]
    refine ⟨⟨h1.filter _, cellsOf_pairwise .., ?_⟩, h1.filter _, ?_⟩
    · intro x hx y hy
      have := cellsOf_mem hy
      simp only [List.mem_filter, decide_eq_true_eq] at hx
      omega
    · intro x hx y hy
      simp only [List.mem_filter, decide_eq_true_eq, List.mem_append] at hx hy
      rcases hx with hx | hx
      · omega
      · have := cellsOf_mem hx; omega
  · intro c hc
    simp only [Memory.write, List.mem_append, List.mem_filter, decide_eq_true_eq] at hc
    rcases hc with (⟨hc, -⟩ | hc) | ⟨hc, -⟩
    · exact h2 c hc
    · exact (cellsOf_mem hc).2.2
    · exact h2 c hc

theorem Memory.wf_writeMask {m : Memory} (h : m.wf = true) (a n v bm : Nat) : (m.writeMask a n v bm).wf = true :=
  Memory.wf_write h ..

/-! ## Bytes after a write -/

theorem Memory.byte_append (m r : Memory) (x : Nat) :
    Memory.byte (m ++ r) x = if m.any (fun c => c.1 == x) then m.byte x else Memory.byte r x := by
  induction m with
  | nil => simp
  | cons c m ih =>
    obtain ⟨k, b⟩ := c
    simp only [List.cons_append, Memory.byte, List.any_cons]
    by_cases hk : k = x
    · simp [hk]
    · simp [hk, ih, beq_iff_eq]

theorem Memory.byte_absent {m : Memory} {x : Nat} (h : ∀ c ∈ m, c.1 ≠ x) : m.byte x = 0 := by
  induction m with
  | nil => rfl
  | cons c m ih =>
    obtain ⟨k, b⟩ := c
    simp only [Memory.byte]
    rw [if_neg (h (k, b) (by simp)), ih fun d hd => h d (List.mem_cons_of_mem _ hd)]

theorem Memory.byte_filter (m : Memory) (p : Nat → Bool) (x : Nat) :
    Memory.byte (m.filter fun c => p c.1) x = if p x then m.byte x else 0 := by
  induction m with
  | nil => simp [Memory.byte]
  | cons c m ih =>
    obtain ⟨k, b⟩ := c
    by_cases hp : p k
    · simp only [List.filter_cons, hp, if_true, Memory.byte]
      by_cases hk : k = x
      · simp [← hk, hp]
      · simp [hk, ih]
    · simp only [List.filter_cons, hp, Memory.byte]
      by_cases hk : k = x
      · subst hk; simpa [hp] using ih
      · simp [hk, ih]

theorem byte_cellsOf (a n v x : Nat) :
    Memory.byte (cellsOf a n v) x = if a ≤ x ∧ x < a + n then BitVec.ofNat 8 (v / 256 ^ (x - a)) else 0 := by
  induction n generalizing a v with
  | zero => simp only [cellsOf, Memory.byte]; rw [if_neg (by omega)]
  | succ n ih =>
    have key : Memory.byte (cellsOf (a + 1) n (v / 256)) x =
        if a + 1 ≤ x ∧ x < a + (n + 1) then BitVec.ofNat 8 (v / 256 ^ (x - a)) else 0 := by
      rw [ih]
      by_cases h : a + 1 ≤ x ∧ x < a + (n + 1)
      · rw [if_pos (by omega), if_pos h, Nat.div_div_eq_div_mul, ← Nat.pow_succ', show (x - (a + 1)).succ = x - a by omega]
      · rw [if_neg (by omega), if_neg h]
    simp only [cellsOf]
    split
    · next h0 =>
      rw [key]
      by_cases hx : x = a
      · subst hx
        rw [if_neg (by omega), if_pos (by omega)]
        simp only [Nat.sub_self, Nat.pow_zero, Nat.div_one]
        apply BitVec.eq_of_toNat_eq
        simp [h0]
      · simp only [show (a + 1 ≤ x ∧ x < a + (n + 1)) = (a ≤ x ∧ x < a + (n + 1)) from propext (by omega)]
    · simp only [Memory.byte]
      by_cases hx : a = x
      · subst hx; rw [if_pos rfl, if_pos (by omega)]; simp
      · rw [if_neg hx, key]
        simp only [show (a + 1 ≤ x ∧ x < a + (n + 1)) = (a ≤ x ∧ x < a + (n + 1)) from propext (by omega)]

/-- After a write of `n` bytes, byte `i` of them is byte `i` of the value, and every other byte is as before. -/
theorem Memory.byte_write (m : Memory) (a n v x : Nat) :
    (m.write a n v).byte x = if a ≤ x ∧ x < a + n then BitVec.ofNat 8 (v / 256 ^ (x - a)) else m.byte x := by
  unfold Memory.write
  rw [Memory.byte_append, Memory.byte_append, List.any_append]
  by_cases h1 : x < a
  · have hc : (cellsOf a n v).any (fun c => c.1 == x) = false := by
      rw [List.any_eq_false]; intro c hc; have := cellsOf_mem hc; simp; omega
    rw [if_neg (show ¬ (a ≤ x ∧ x < a + n) by omega), hc, Bool.or_false]
    rw [Memory.byte_filter m (fun k => decide (k < a)), Memory.byte_filter m (fun k => decide (a + n ≤ k))]
    by_cases h : (List.filter (fun c => decide (c.1 < a)) m).any (fun c => c.1 == x) = true
    · simp [h, h1]
    · have hm : m.byte x = 0 := Memory.byte_absent fun c hc hx => h <| by
        rw [List.any_eq_true]; exact ⟨c, by simp [List.mem_filter, hc, hx, h1], by simp [hx]⟩
      simp [h, hm]
  · have hf : (List.filter (fun c => decide (c.1 < a)) m).any (fun c => c.1 == x) = false := by
      rw [List.any_eq_false]; intro c hc; simp only [List.mem_filter, decide_eq_true_eq] at hc; simp; omega
    simp only [hf, Bool.false_or, Bool.false_eq_true, if_false]
    rw [byte_cellsOf, Memory.byte_filter m (fun k => decide (a + n ≤ k))]
    by_cases h2 : x < a + n
    · have h3 : a ≤ x ∧ x < a + n := by omega
      simp only [if_pos h3]
      by_cases h : (cellsOf a n v).any (fun c => c.1 == x) = true
      · rw [if_pos h]
      · rw [if_neg h]
        simp only [show decide (a + n ≤ x) = false by simp; omega]
        have hz : Memory.byte (cellsOf a n v) x = 0 := Memory.byte_absent fun c hc hx => h <| by
          rw [List.any_eq_true]; exact ⟨c, hc, by simp [hx]⟩
        rw [byte_cellsOf, if_pos h3] at hz
        simp [hz]
    · have hc : (cellsOf a n v).any (fun c => c.1 == x) = false := by
        rw [List.any_eq_false]; intro c hc; have := cellsOf_mem hc; simp; omega
      rw [hc, if_neg (by simp), if_neg (show ¬ (a ≤ x ∧ x < a + n) by omega)]
      simp; omega

/-! ## Reads -/

/-- `n` bytes as a number, byte by byte. -/
theorem Memory.read_cons (c : Host.Cell) (m : Memory) (a n : Nat) :
    Memory.read (c :: m) a n = if a ≤ c.1 ∧ c.1 < a + n then m.read a n + c.2.toNat * 2 ^ (8 * (c.1 - a)) else m.read a n := rfl

theorem Memory.read_zero (m : Memory) (a : Nat) : m.read a 0 = 0 := by
  induction m with
  | nil => rfl
  | cons c m ih => rw [Memory.read_cons, if_neg (by omega), ih]

/-- A read is the first bytes and the last byte at its weight. -/
theorem Memory.read_succ {m : Memory} (h : m.wf = true) (a n : Nat) :
    m.read a (n + 1) = m.read a n + (m.byte (a + n)).toNat * 2 ^ (8 * n) := by
  rw [Memory.wf_iff] at h
  obtain ⟨h, -⟩ := h
  induction m with
  | nil => simp [Memory.read, Memory.byte]
  | cons c m ih =>
    obtain ⟨k, b⟩ := c
    have ih := ih (List.pairwise_cons.1 h).2
    rw [Memory.read_cons, Memory.read_cons]
    simp only [Memory.byte]
    by_cases hk : k = a + n
    · have h0 : Memory.byte m (a + n) = 0 := Memory.byte_absent fun d hd => by
        have := (List.pairwise_cons.1 h).1 d hd
        simp only at this; omega
      rw [if_pos (by omega), if_neg (by omega), if_pos hk, ih, h0, hk]
      simp
    · by_cases hr : a ≤ k ∧ k < a + n
      · rw [if_pos (by omega), if_pos hr, if_neg hk, ih, Nat.add_right_comm]
      · rw [if_neg (by omega), if_neg hr, if_neg hk, ih]

/-- A read is the sum of its bytes, the lowest address least significant (R2). -/
theorem Memory.read_sum {m : Memory} (h : m.wf = true) (a n : Nat) :
    m.read a n = (List.range n).foldl (fun x i => x + (m.byte (a + i)).toNat * 256 ^ i) 0 := by
  induction n with
  | zero => exact Memory.read_zero ..
  | succ n ih =>
    rw [Memory.read_succ h, ih, List.range_succ, List.foldl_append, Nat.pow_mul]
    rfl

theorem Memory.read_lt {m : Memory} (h : m.wf = true) (a n : Nat) : m.read a n < 2 ^ (8 * n) := by
  induction n with
  | zero => rw [Memory.read_zero]; exact Nat.two_pow_pos _
  | succ n ih =>
    rw [Memory.read_succ h, show 8 * (n + 1) = 8 * n + 8 by omega, Nat.pow_add]
    have h1 : (m.byte (a + n)).toNat < 256 := (m.byte (a + n)).isLt
    have h2 : (m.byte (a + n)).toNat * 2 ^ (8 * n) ≤ 255 * 2 ^ (8 * n) := Nat.mul_le_mul_right _ (by omega)
    omega

/-- Two canonical memories that agree on the bytes of a range read the same there. -/
theorem Memory.read_congr {m r : Memory} (hm : m.wf = true) (hr : r.wf = true) (a n : Nat)
    (h : ∀ i, i < n → m.byte (a + i) = r.byte (a + i)) : m.read a n = r.read a n := by
  induction n with
  | zero => rw [Memory.read_zero, Memory.read_zero]
  | succ n ih => rw [Memory.read_succ hm, Memory.read_succ hr, ih fun i hi => h i (by omega), h n (by omega)]

theorem Memory.read_write_go {m : Memory} (h : m.wf = true) (a n v k : Nat) (hk : k ≤ n) :
    (m.write a n v).read a k = v % 2 ^ (8 * k) := by
  induction k with
  | zero => rw [Memory.read_zero]; simp [Nat.mod_one]
  | succ k ih =>
    rw [Memory.read_succ (Memory.wf_write h ..), ih (by omega), Memory.byte_write, if_pos (by omega)]
    rw [show a + k - a = k by omega, show (256 : Nat) = 2 ^ 8 from rfl, ← Nat.pow_mul]
    rw [show 8 * (k + 1) = 8 * k + 8 by omega, Nat.pow_add, Nat.mod_mul, BitVec.toNat_ofNat]
    rw [Nat.mul_comm (2 ^ (8 * k))]

/-- What a write put there reads back. -/
theorem Memory.read_write_self {m : Memory} (h : m.wf = true) (a n v : Nat) : (m.write a n v).read a n = v % 2 ^ (8 * n) :=
  Memory.read_write_go h a n v n (Nat.le_refl n)

/-- A write leaves every disjoint range as it reads. -/
theorem Memory.read_write_other {m : Memory} (h : m.wf = true) {a n b k : Nat} (v : Nat) (d : b + k ≤ a ∨ a + n ≤ b) :
    (m.write a n v).read b k = m.read b k :=
  Memory.read_congr (Memory.wf_write h ..) h b k fun i hi => by rw [Memory.byte_write, if_neg (by omega)]

/-- A masked write leaves every byte outside its range. -/
theorem Memory.byte_writeMask_other (m : Memory) {a n x : Nat} (v bm : Nat) (d : x < a ∨ a + n ≤ x) :
    (m.writeMask a n v bm).byte x = m.byte x := by
  unfold Memory.writeMask; rw [Memory.byte_write, if_neg (by omega)]

/-! ## The operations of the state -/

variable {s : State}

theorem State.Inv.putBytes (h : s.Inv) (a n v : Nat) : (s.putBytes a n v).Inv := Memory.wf_write h ..
theorem State.Inv.putMask (h : s.Inv) (a n v bm : Nat) : (s.putMask a n v bm).Inv := Memory.wf_writeMask h ..
theorem State.Inv.setMem (h : s.Inv) {t : State} (e : t.mem = s.mem) : t.Inv := by unfold State.Inv; rw [e]; exact h
theorem State.Inv.storeTasks (h : s.Inv) (d k v bm : Nat) : (s.storeTasks d k v bm).Inv := h.setMem rfl
theorem State.Inv.writeUnit (h : s.Inv) (key u v bm : Nat) : (s.writeUnit key u v bm).Inv := by
  unfold State.writeUnit
  split
  · exact Memory.wf_writeMask h ..
  · split
    · exact h.storeTasks ..
    · exact Memory.wf_write h ..
/-- An invariant that each step of a fold keeps holds at its end. -/
theorem State.Inv.foldl {α : Type} {f : State → α → State} (hf : ∀ s a, s.Inv → (f s a).Inv) (l : List α) :
    ∀ s : State, s.Inv → (l.foldl f s).Inv := by
  induction l with
  | nil => exact fun _ h => h
  | cons a l ih => exact fun s h => ih _ (hf s a h)
theorem State.Inv.putElem (h : s.Inv) (e : Elem) (v : Nat) : (s.putElem e v).Inv := by
  unfold State.putElem
  split
  · exact h.writeUnit ..
  · exact State.Inv.foldl (fun s i h => h.putMask ..) _ s h
theorem State.Inv.capture (h : s.Inv) (who b : Nat) : (s.capture who b).Inv := by
  unfold State.capture
  split
  · exact h
  · exact h.setMem rfl
theorem State.Inv.writeWin (h : s.Inv) (who off n v bm : Nat) : (s.writeWin who off n v bm).Inv := by
  unfold State.writeWin
  exact State.Inv.putMask (State.Inv.foldl (fun s b h => h.capture who b) _ s h) ..
theorem State.Inv.undoWindow (h : s.Inv) (who : Nat) : (s.undoWindow who).Inv := by
  unfold State.undoWindow
  exact State.Inv.foldl (fun s b h => h.putBytes ..) _ s h
theorem State.Inv.nearWrite (h : s.Inv) (part a n v : Nat) : (s.nearWrite part a n v).Inv := by
  unfold State.nearWrite
  refine State.Inv.foldl (fun s i h => ?_) _ s h
  simp only
  split
  · exact h.writeUnit ..
  · exact Memory.wf_writeMask h ..
  · exact h

/-! ## Places of bytes in local buffers (R60) -/

theorem banksAt_cases (p : Nat) : banksAt p = 8 ∨ banksAt p = 16 ∨ banksAt p = 32 := by
  unfold banksAt; simp only; split
  · exact .inl rfl
  · split
    · exact .inr (.inr rfl)
    · exact .inr (.inl rfl)

/-- A permutation leaves a byte in its row of words and at its offset in the word. -/
theorem bankPlace_row {swz p : Nat} (h : localBase ≤ p) :
    (bankPlace swz p - localBase) / (64 * banksAt p) = (p - localBase) / (64 * banksAt p) ∧ bankPlace swz p % 64 = p % 64 ∧
    localBase ≤ bankPlace swz p := by
  unfold bankPlace
  split
  · exact ⟨rfl, rfl, h⟩
  · simp only
    have hx : ((p - localBase) / 64 % banksAt p ^^^ (p - localBase) / 64 / banksAt p / 2 ^ (swz - 1) % banksAt p) < banksAt p := by
      rcases banksAt_cases p with hb | hb | hb <;> rw [hb]
      · exact Nat.xor_lt_two_pow (n := 3) (by omega) (by omega)
      · exact Nat.xor_lt_two_pow (n := 4) (by omega) (by omega)
      · exact Nat.xor_lt_two_pow (n := 5) (by omega) (by omega)
    generalize ((p - localBase) / 64 % banksAt p ^^^ (p - localBase) / 64 / banksAt p / 2 ^ (swz - 1) % banksAt p) = x at hx ⊢
    have h0 : localBase = 2 ^ 46 := rfl
    rw [h0] at h ⊢
    rcases banksAt_cases p with hb | hb | hb <;> rw [hb] at hx ⊢ <;> omega

/-- The place of a byte lies in the buffer of the byte. -/
theorem banksAt_bankPlace {swz p : Nat} (h : localBase ≤ p) : banksAt (bankPlace swz p) = banksAt p := by
  have e : (bankPlace swz p - localBase) / 2 ^ 32 = (p - localBase) / 2 ^ 32 := by
    have hr := (bankPlace_row (swz := swz) h).1
    rcases banksAt_cases p with hb | hb | hb <;> rw [hb] at hr <;> omega
  unfold banksAt; rw [e]

/-- Two bytes never share a place. -/
theorem bankPlace_inj {swz p q : Nat} (hp : localBase ≤ p) (hq : localBase ≤ q) (e : bankPlace swz p = bankPlace swz q) : p = q := by
  have hb : banksAt p = banksAt q := by rw [← banksAt_bankPlace hp, e, banksAt_bankPlace hq]
  have rp := bankPlace_row (swz := swz) hp
  have rq := bankPlace_row (swz := swz) hq
  rw [e, hb, rq.1] at rp
  rw [rq.2.1] at rp
  have hrow : (p - localBase) / 64 / banksAt q = (q - localBase) / 64 / banksAt q := by
    rw [Nat.div_div_eq_div_mul, Nat.div_div_eq_div_mul]; exact rp.1.symm
  have hw : (p - localBase) / 64 % banksAt q = (q - localBase) / 64 % banksAt q := by
    unfold bankPlace at e
    split at e
    · rw [e]
    · simp only [hb, hrow] at e
      have hc : ∀ x y z : Nat, x ^^^ z = y ^^^ z → x = y := fun x y z h => by
        rw [← Nat.xor_xor_cancel_right x z, h, Nat.xor_xor_cancel_right]
      have hm := rp.2.1
      exact hc _ _ ((q - localBase) / 64 / banksAt q / 2 ^ (swz - 1) % banksAt q) (by omega)
  have h0 : localBase = 2 ^ 46 := rfl
  rw [h0] at hp hq hrow hw
  have hm := rp.2.1
  rcases banksAt_cases q with hx | hx | hx <;> rw [hx] at hrow hw <;> omega

/-- An element of a local space that is one byte is the byte at its place. -/
theorem State.elem_byte_local {a : Nat} (hk : keyedAddr a = false) (key : Nat) :
    s.elem ⟨a * 8, 8, key⟩ = (s.mem.byte (bankPlace key a)).toNat := by
  have h8 : a * 8 / 8 = a := by omega
  have h1 : (s.mem.byte (bankPlace key a)).toNat < 256 := (s.mem.byte (bankPlace key a)).isLt
  simp [State.elem, Elem.bytes, Elem.place, hk, packElems]
  omega

end Sys2Proof.Machine
end

