-- ==== Sys2Proof/Laws/PerInstr.lean ====
section
/-! SUPPORT. What holds of each instruction as syntax: the fields of its encoding read back give it (R96 to R101). -/

set_option Elab.async false

namespace Sys2Proof.Laws.Encode

/-- Reading the fields that the encoder writes gives the operation; an empty slot and an event have no fields. -/
def Statement (i : Instr) : Prop := ∀ k, kindOf i = some k → i ≠ .nop k → parse k (encode i) = some i

theorem low_append (a : BitVec 4) (b : BitVec 4) : low 4 (a ++ b) = b := by revert a b; decide
theorem low_shift (a : BitVec 4) (b : BitVec 4) : low 4 ((a ++ b) >>> 4) = a := by revert a b; decide
theorem high_append (a : BitVec 4) (b : BitVec 4) : (a ++ b).toNat / 16 = a.toNat := by revert a b; decide
theorem low_bit (b : Bool) (n : BitVec 3) : low 2 (bit1 b ++ n) = low 2 n := by revert b n; decide
theorem bit_top (b : Bool) (n : BitVec 3) : (bit1 b ++ n).getLsbD 3 = b := by revert b n; decide
theorem low_code (c : FCond) : fcOf (low 3 (BitVec.ofNat 6 c.bits)).toNat = some c := by cases c <;> decide
theorem low_code_sc (c : FCond) : fcOf (low 3 (BitVec.ofNat 6 c.bits ||| 32#6)).toNat = some c := by cases c <;> decide
theorem code_reg (c : FCond) : (BitVec.ofNat 6 c.bits)[5] = false := by cases c <;> decide
theorem low_narrow (b : Bool) (t : ETy) : etOf (low 4 (low 6 (bit1 b ++ t.bits))) = some t := by cases b <;> cases t <;> decide
theorem narrow_top (b : Bool) (t : ETy) : (low 6 (bit1 b ++ t.bits))[4] = b := by cases b <;> cases t <;> decide

theorem nop (k : Kind) : Statement (.nop k) := fun l h g => (g (by cases h; rfl)).elim
theorem add (g : Guard) (sd sa sb : BitVec 6) : Statement (.add g sd sa sb) := by
  intro k h _; cases h; (show parseS (pkSR _) = _; rw [parseS, unSR_pkSR]; rfl)
theorem sub (g : Guard) (sd sa sb : BitVec 6) : Statement (.sub g sd sa sb) := by
  intro k h _; cases h; (show parseS (pkSR _) = _; rw [parseS, unSR_pkSR]; rfl)
theorem mul (g : Guard) (sd sa sb : BitVec 6) : Statement (.mul g sd sa sb) := by
  intro k h _; cases h; (show parseS (pkSR _) = _; rw [parseS, unSR_pkSR]; rfl)
theorem mulh (g : Guard) (sd sa sb : BitVec 6) : Statement (.mulh g sd sa sb) := by
  intro k h _; cases h; (show parseS (pkSR _) = _; rw [parseS, unSR_pkSR]; rfl)
theorem mulhn (g : Guard) (sd sa sb : BitVec 6) : Statement (.mulhn g sd sa sb) := by
  intro k h _; cases h; (show parseS (pkSR _) = _; rw [parseS, unSR_pkSR]; rfl)
theorem div (g : Guard) (sa sb : BitVec 6) : Statement (.div g sa sb) := by
  intro k h _; cases h; (show parseS (pkSR _) = _; rw [parseS, unSR_pkSR]; rfl)
theorem divn (g : Guard) (sa sb : BitVec 6) : Statement (.divn g sa sb) := by
  intro k h _; cases h; (show parseS (pkSR _) = _; rw [parseS, unSR_pkSR]; rfl)
theorem rem (g : Guard) (sa sb : BitVec 6) : Statement (.rem g sa sb) := by
  intro k h _; cases h; (show parseS (pkSR _) = _; rw [parseS, unSR_pkSR]; rfl)
theorem remn (g : Guard) (sa sb : BitVec 6) : Statement (.remn g sa sb) := by
  intro k h _; cases h; (show parseS (pkSR _) = _; rw [parseS, unSR_pkSR]; rfl)
theorem and (g : Guard) (sd sa sb : BitVec 6) : Statement (.and g sd sa sb) := by
  intro k h _; cases h; (show parseS (pkSR _) = _; rw [parseS, unSR_pkSR]; rfl)
theorem or (g : Guard) (sd sa sb : BitVec 6) : Statement (.or g sd sa sb) := by
  intro k h _; cases h; (show parseS (pkSR _) = _; rw [parseS, unSR_pkSR]; rfl)
theorem xor (g : Guard) (sd sa sb : BitVec 6) : Statement (.xor g sd sa sb) := by
  intro k h _; cases h; (show parseS (pkSR _) = _; rw [parseS, unSR_pkSR]; rfl)
theorem andn (g : Guard) (sd sa sb : BitVec 6) : Statement (.andn g sd sa sb) := by
  intro k h _; cases h; (show parseS (pkSR _) = _; rw [parseS, unSR_pkSR]; rfl)
theorem shl (g : Guard) (sd sa sb : BitVec 6) : Statement (.shl g sd sa sb) := by
  intro k h _; cases h; (show parseS (pkSR _) = _; rw [parseS, unSR_pkSR]; rfl)
theorem shr (g : Guard) (sd sa sb : BitVec 6) : Statement (.shr g sd sa sb) := by
  intro k h _; cases h; (show parseS (pkSR _) = _; rw [parseS, unSR_pkSR]; rfl)
theorem sar (g : Guard) (sd sa sb : BitVec 6) : Statement (.sar g sd sa sb) := by
  intro k h _; cases h; (show parseS (pkSR _) = _; rw [parseS, unSR_pkSR]; rfl)
theorem min (g : Guard) (sd sa sb : BitVec 6) : Statement (.min g sd sa sb) := by
  intro k h _; cases h; (show parseS (pkSR _) = _; rw [parseS, unSR_pkSR]; rfl)
theorem max (g : Guard) (sd sa sb : BitVec 6) : Statement (.max g sd sa sb) := by
  intro k h _; cases h; (show parseS (pkSR _) = _; rw [parseS, unSR_pkSR]; rfl)
theorem minn (g : Guard) (sd sa sb : BitVec 6) : Statement (.minn g sd sa sb) := by
  intro k h _; cases h; (show parseS (pkSR _) = _; rw [parseS, unSR_pkSR]; rfl)
theorem maxn (g : Guard) (sd sa sb : BitVec 6) : Statement (.maxn g sd sa sb) := by
  intro k h _; cases h; (show parseS (pkSR _) = _; rw [parseS, unSR_pkSR]; rfl)
theorem clz (g : Guard) (sd sa : BitVec 6) : Statement (.clz g sd sa) := by
  intro k h _; cases h; (show parseS (pkSR _) = _; rw [parseS, unSR_pkSR]; rfl)
theorem popc (g : Guard) (sd sa : BitVec 6) : Statement (.popc g sd sa) := by
  intro k h _; cases h; (show parseS (pkSR _) = _; rw [parseS, unSR_pkSR]; rfl)
theorem sext (g : Guard) (sd sa : BitVec 6) (w : BitVec 8) : Statement (.sext g sd sa w) := by
  intro k h _; cases h; (show parseS (pkSR _) = _; rw [parseS, unSR_pkSR]; rfl)
theorem zext (g : Guard) (sd sa : BitVec 6) (w : BitVec 8) : Statement (.zext g sd sa w) := by
  intro k h _; cases h; (show parseS (pkSR _) = _; rw [parseS, unSR_pkSR]; rfl)
theorem mov (g : Guard) (sd sa : BitVec 6) : Statement (.mov g sd sa) := by
  intro k h _; cases h; (show parseS (pkSR _) = _; rw [parseS, unSR_pkSR]; rfl)
theorem sel (g : Guard) (sd : BitVec 6) (pc : BitVec 4) (sa sb : BitVec 6) : Statement (.sel g sd pc sa sb) := by
  intro k h _; cases h; (show parseS (pkSR _) = _; rw [parseS, unSR_pkSR]; ((conv_lhs => whnf); simp [low_low]))
theorem cmp (g : Guard) (c : ICond) (pd : BitVec 4) (sa sb : BitVec 6) : Statement (.cmp g c pd sa sb) := by
  intro k h _; cases h; (show parseS (pkSR _) = _; rw [parseS, unSR_pkSR]; (cases c <;> ((conv_lhs => whnf); simp [low_low])))
theorem pand (g : Guard) (pd pa pb : BitVec 4) : Statement (.pand g pd pa pb) := by
  intro k h _; cases h; (show parseS (pkSR _) = _; rw [parseS, unSR_pkSR]; ((conv_lhs => whnf); simp [low_low]))
theorem por (g : Guard) (pd pa pb : BitVec 4) : Statement (.por g pd pa pb) := by
  intro k h _; cases h; (show parseS (pkSR _) = _; rw [parseS, unSR_pkSR]; ((conv_lhs => whnf); simp [low_low]))
theorem pxor (g : Guard) (pd pa pb : BitVec 4) : Statement (.pxor g pd pa pb) := by
  intro k h _; cases h; (show parseS (pkSR _) = _; rw [parseS, unSR_pkSR]; ((conv_lhs => whnf); simp [low_low]))
theorem pnot (g : Guard) (pd pa : BitVec 4) : Statement (.pnot g pd pa) := by
  intro k h _; cases h; (show parseS (pkSR _) = _; rw [parseS, unSR_pkSR]; ((conv_lhs => whnf); simp [low_low]))
theorem addi (g : Guard) (sd sa : BitVec 6) (imm : BitVec 40) : Statement (.addi g sd sa imm) := by
  intro k h _; cases h; (show parseS (pkSI _) = _; rw [parseS, unSR_pkSI]; simp only [unSI_pkSI]; rfl)
theorem li (g : Guard) (sd : BitVec 6) (imm : BitVec 40) : Statement (.li g sd imm) := by
  intro k h _; cases h; (show parseS (pkSI _) = _; rw [parseS, unSR_pkSI]; simp only [unSI_pkSI]; rfl)
theorem lih (g : Guard) (sd sa : BitVec 6) (imm : BitVec 24) : Statement (.lih g sd sa imm) := by
  intro k h _; cases h; (show parseS (pkSI _) = _; rw [parseS, unSR_pkSI]; simp only [unSI_pkSI]; ((conv_lhs => whnf); simp [low_low]))
theorem fadd (g : Guard) (rm : BitVec 3) (t : ETy) (sd sa sb : BitVec 6) : Statement (.fadd g rm t sd sa sb) := by
  intro k h _; cases h; (show parseS (pkSR _) = _; rw [parseS, unSR_pkSR]; (cases t <;> rfl))
theorem fsub (g : Guard) (rm : BitVec 3) (t : ETy) (sd sa sb : BitVec 6) : Statement (.fsub g rm t sd sa sb) := by
  intro k h _; cases h; (show parseS (pkSR _) = _; rw [parseS, unSR_pkSR]; (cases t <;> rfl))
theorem fmul (g : Guard) (rm : BitVec 3) (t : ETy) (sd sa sb : BitVec 6) : Statement (.fmul g rm t sd sa sb) := by
  intro k h _; cases h; (show parseS (pkSR _) = _; rw [parseS, unSR_pkSR]; (cases t <;> rfl))
theorem ffma (g : Guard) (rm : BitVec 3) (t : ETy) (sd sa sb sc : BitVec 6) : Statement (.ffma g rm t sd sa sb sc) := by
  intro k h _; cases h; (show parseS (pkSR _) = _; rw [parseS, unSR_pkSR]; (cases t <;> rfl))
theorem fcmp (g : Guard) (c : FCond) (t : ETy) (pd : BitVec 4) (sa sb : BitVec 6) : Statement (.fcmp g c t pd sa sb) := by
  intro k h _; cases h; show parseS (pkSR _) = _; rw [parseS, unSR_pkSR]
  show ((etOf (low 4 (BitVec.ofNat 4 c.bits ++ t.bits))).bind fun t' => (fcOf ((BitVec.ofNat 4 c.bits ++ t.bits).toNat / 16)).map fun c' => Instr.fcmp g c' t' (low 4 (low 6 pd)) sa sb) = _
  rw [low_append, high_append, etOf_bits, low_low _ (by decide)]; cases c <;> rfl
theorem fcvt (g : Guard) (rm : BitVec 3) (t u : ETy) (sd sa : BitVec 6) : Statement (.fcvt g rm t u sd sa) := by
  intro k h _; cases h; show parseS (pkSR _) = _; rw [parseS, unSR_pkSR]
  show ((etOf (low 4 (u.bits ++ t.bits))).bind fun t' => (etOf (low 4 ((u.bits ++ t.bits) >>> 4))).map fun u' => Instr.fcvt g rm t' u' sd sa) = _
  rw [low_append, low_shift, etOf_bits]; show Option.map _ _ = _; rw [etOf_bits]; rfl
theorem br (g : Guard) (off : BitVec 28) : Statement (.br g off) := by
  intro k h _; cases h; (show parseS (pkSB _) = _; rw [parseS, unSR_pkSB]; simp only [unSB_pkSB]; rfl)
theorem bc (g : Guard) (c : ICond) (sa sb : BitVec 6) (off : BitVec 28) : Statement (.bc g c sa sb off) := by
  intro k h _; cases h; (show parseS (pkSB _) = _; rw [parseS, unSR_pkSB]; simp only [unSB_pkSB]; (cases c <;> rfl))
theorem call (g : Guard) (sd : BitVec 6) (off : BitVec 28) : Statement (.call g sd off) := by
  intro k h _; cases h; (show parseS (pkSB _) = _; rw [parseS, unSR_pkSB]; simp only [unSB_pkSB]; rfl)
theorem ret (g : Guard) (sa : BitVec 6) : Statement (.ret g sa) := by
  intro k h _; cases h; (show parseS (pkSR _) = _; rw [parseS, unSR_pkSR]; rfl)
theorem jmpi (g : Guard) (sa sb : BitVec 6) : Statement (.jmpi g sa sb) := by
  intro k h _; cases h; (show parseS (pkSR _) = _; rw [parseS, unSR_pkSR]; rfl)
theorem loop (g : Guard) (sd : BitVec 6) (off : BitVec 28) : Statement (.loop g sd off) := by
  intro k h _; cases h; (show parseS (pkSB _) = _; rw [parseS, unSR_pkSB]; simp only [unSB_pkSB]; rfl)
theorem brk (g : Guard) (imm : BitVec 40) : Statement (.brk g imm) := by
  intro k h _; cases h; (show parseS (pkSI _) = _; rw [parseS, unSR_pkSI]; simp only [unSI_pkSI]; rfl)
theorem trap (g : Guard) (imm : BitVec 40) : Statement (.trap g imm) := by
  intro k h _; cases h; (show parseS (pkSI _) = _; rw [parseS, unSR_pkSI]; simp only [unSI_pkSI]; rfl)
theorem halt (g : Guard) : Statement (.halt g) := by
  intro k h _; cases h; (show parseS (pkSR _) = _; rw [parseS, unSR_pkSR]; rfl)
theorem ibw (g : Guard) (ib : BitVec 3) (sa : BitVec 6) : Statement (.ibw g ib sa) := by
  intro k h _; cases h; (show parseS (pkSR _) = _; rw [parseS, unSR_pkSR]; ((conv_lhs => whnf); simp [low_low]))
theorem vwr (g : Guard) (v : ViewSel) (sa : BitVec 6) : Statement (.vwr g v sa) := by
  intro k h _; cases h; (show parseS (pkSR _) = _; rw [parseS, unSR_pkSR]; (cases v <;> rfl))
theorem wid (g : Guard) (sd : BitVec 6) (n : BitVec 8) : Statement (.wid g sd n) := by
  intro k h _; cases h; (show parseS (pkSR _) = _; rw [parseS, unSR_pkSR]; rfl)
theorem rank (g : Guard) (sd : BitVec 6) (n : BitVec 8) : Statement (.rank g sd n) := by
  intro k h _; cases h; (show parseS (pkSR _) = _; rw [parseS, unSR_pkSR]; rfl)
theorem qpop (g : Guard) (sd : BitVec 6) (pd : BitVec 4) (q : BitVec 2) (eb : Bool) : Statement (.qpop g sd pd q eb) := by
  intro k0 h0 u0; cases h0; clear u0; (show parseS (pkSR _) = _; rw [parseS, unSR_pkSR]; (conv_lhs => whnf); simp [low_low]; revert q eb; decide)
theorem csrr (g : Guard) (sd : BitVec 6) (csr : BitVec 8) : Statement (.csrr g sd csr) := by
  intro k h _; cases h; (show parseS (pkSR _) = _; rw [parseS, unSR_pkSR]; rfl)
theorem csrw (g : Guard) (csr : BitVec 8) (sa : BitVec 6) : Statement (.csrw g csr sa) := by
  intro k h _; cases h; (show parseS (pkSR _) = _; rw [parseS, unSR_pkSR]; rfl)
theorem sysrd (g : Guard) (sd sa : BitVec 6) (off : BitVec 8) : Statement (.sysrd g sd sa off) := by
  intro k h _; cases h; (show parseS (pkSR _) = _; rw [parseS, unSR_pkSR]; rfl)
theorem syswr (g : Guard) (sa sb : BitVec 6) (off : BitVec 8) : Statement (.syswr g sa sb off) := by
  intro k h _; cases h; (show parseS (pkSR _) = _; rw [parseS, unSR_pkSR]; rfl)
theorem eret (g : Guard) : Statement (.eret g) := by
  intro k h _; cases h; (show parseS (pkSR _) = _; rw [parseS, unSR_pkSR]; rfl)
theorem tlbinv (g : Guard) (k : BitVec 2) (sa sb sc : BitVec 6) : Statement (.tlbinv g k sa sb sc) := by
  intro k h _; cases h; (show parseS (pkSR _) = _; rw [parseS, unSR_pkSR]; ((conv_lhs => whnf); simp [low_low]))
theorem keyld (g : Guard) (sa sb : BitVec 6) : Statement (.keyld g sa sb) := by
  intro k h _; cases h; (show parseS (pkSR _) = _; rw [parseS, unSR_pkSR]; ((conv_lhs => whnf); simp))
theorem keyldErase (g : Guard) (sa sb : BitVec 6) : Statement (.keyldErase g sa sb) := by
  intro k h _; cases h; (show parseS (pkSR _) = _; rw [parseS, unSR_pkSR]; ((conv_lhs => whnf); simp))
theorem slotmap (g : Guard) (pd : BitVec 4) (sa sb : BitVec 6) : Statement (.slotmap g pd sa sb) := by
  intro k h _; cases h; (show parseS (pkSR _) = _; rw [parseS, unSR_pkSR]; ((conv_lhs => whnf); simp [low_low]))
theorem ctxsave (g : Guard) (pd : BitVec 4) (sa sb : BitVec 6) : Statement (.ctxsave g pd sa sb) := by
  intro k h _; cases h; (show parseS (pkSR _) = _; rw [parseS, unSR_pkSR]; ((conv_lhs => whnf); simp [low_low]))
theorem ctxrest (g : Guard) (pd : BitVec 4) (sa sb : BitVec 6) : Statement (.ctxrest g pd sa sb) := by
  intro k h _; cases h; (show parseS (pkSR _) = _; rw [parseS, unSR_pkSR]; ((conv_lhs => whnf); simp [low_low]))
theorem swpat (g : Guard) (pd : BitVec 4) (sa sb : BitVec 6) : Statement (.swpat g pd sa sb) := by
  intro k h _; cases h; (show parseS (pkSR _) = _; rw [parseS, unSR_pkSR]; ((conv_lhs => whnf); simp [low_low]))
theorem vote (g : Guard) (sa sb : BitVec 6) : Statement (.vote g sa sb) := by
  intro k h _; cases h; (show parseS (pkSR _) = _; rw [parseS, unSR_pkSR]; rfl)
theorem swq (g : Guard) (sa sb : BitVec 6) : Statement (.swq g sa sb) := by
  intro k h _; cases h; (show parseS (pkSR _) = _; rw [parseS, unSR_pkSR]; rfl)
theorem lnkTrain (g : Guard) (pd : BitVec 4) (sa : BitVec 6) : Statement (.lnkTrain g pd sa) := by
  intro k h _; cases h; (show parseS (pkSR _) = _; rw [parseS, unSR_pkSR]; ((conv_lhs => whnf); simp [low_low]))
theorem lnkPark (g : Guard) (pd : BitVec 4) (sa : BitVec 6) : Statement (.lnkPark g pd sa) := by
  intro k h _; cases h; (show parseS (pkSR _) = _; rw [parseS, unSR_pkSR]; ((conv_lhs => whnf); simp [low_low]))
theorem lnkWake (g : Guard) (pd : BitVec 4) (sa : BitVec 6) : Statement (.lnkWake g pd sa) := by
  intro k h _; cases h; (show parseS (pkSR _) = _; rw [parseS, unSR_pkSR]; ((conv_lhs => whnf); simp [low_low]))
theorem lnkRetrain (g : Guard) (pd : BitVec 4) (sa : BitVec 6) : Statement (.lnkRetrain g pd sa) := by
  intro k h _; cases h; (show parseS (pkSR _) = _; rw [parseS, unSR_pkSR]; ((conv_lhs => whnf); simp [low_low]))
theorem lnkDown (g : Guard) (pd : BitVec 4) (sa : BitVec 6) : Statement (.lnkDown g pd sa) := by
  intro k h _; cases h; (show parseS (pkSR _) = _; rw [parseS, unSR_pkSR]; ((conv_lhs => whnf); simp [low_low]))
theorem lnkEnable (g : Guard) (pd : BitVec 4) (sa : BitVec 6) : Statement (.lnkEnable g pd sa) := by
  intro k h _; cases h; (show parseS (pkSR _) = _; rw [parseS, unSR_pkSR]; ((conv_lhs => whnf); simp [low_low]))
theorem evqPop (g : Guard) (sd : BitVec 6) (pd : BitVec 4) (eb : Bool) : Statement (.evqPop g sd pd eb) := by
  intro k h _; cases h; (show parseS (pkSR _) = _; rw [parseS, unSR_pkSR]; (cases eb <;> ((conv_lhs => whnf); simp [low_low]; decide)))
theorem olkAcq (g : Guard) (sa : BitVec 6) : Statement (.olkAcq g sa) := by
  intro k h _; cases h; (show parseS (pkSR _) = _; rw [parseS, unSR_pkSR]; rfl)
theorem olkRel (g : Guard) (sa : BitVec 6) : Statement (.olkRel g sa) := by
  intro k h _; cases h; (show parseS (pkSR _) = _; rw [parseS, unSR_pkSR]; rfl)
theorem tstate (g : Guard) (sd sa : BitVec 6) (clr : Bool) : Statement (.tstate g sd sa clr) := by
  intro k h _; cases h; (show parseS (pkSR _) = _; rw [parseS, unSR_pkSR]; (cases clr <;> ((conv_lhs => whnf); simp; decide)))
theorem vadd (c : VC) (vd va : BitVec 11) (vb : VSrc) : Statement (.vadd c vd va vb) := by
  intro k h _; cases h; obtain ⟨g, rm, t, me, ms⟩ := c; cases vb <;> (show parseV (pkVR _) = _; rw [parseV, unVR_pkVR]; show Option.bind (etOf t.bits) _ = _; rw [etOf_bits]; ((conv_lhs => whnf); simp [srcOf]))
theorem vsub (c : VC) (vd va : BitVec 11) (vb : VSrc) : Statement (.vsub c vd va vb) := by
  intro k h _; cases h; obtain ⟨g, rm, t, me, ms⟩ := c; cases vb <;> (show parseV (pkVR _) = _; rw [parseV, unVR_pkVR]; show Option.bind (etOf t.bits) _ = _; rw [etOf_bits]; ((conv_lhs => whnf); simp [srcOf]))
theorem vmul (c : VC) (vd va : BitVec 11) (vb : VSrc) : Statement (.vmul c vd va vb) := by
  intro k h _; cases h; obtain ⟨g, rm, t, me, ms⟩ := c; cases vb <;> (show parseV (pkVR _) = _; rw [parseV, unVR_pkVR]; show Option.bind (etOf t.bits) _ = _; rw [etOf_bits]; ((conv_lhs => whnf); simp [srcOf]))
theorem vmulh (c : VC) (vd va : BitVec 11) (vb : VSrc) : Statement (.vmulh c vd va vb) := by
  intro k h _; cases h; obtain ⟨g, rm, t, me, ms⟩ := c; cases vb <;> (show parseV (pkVR _) = _; rw [parseV, unVR_pkVR]; show Option.bind (etOf t.bits) _ = _; rw [etOf_bits]; ((conv_lhs => whnf); simp [srcOf]))
theorem vfma (c : VC) (vd va : BitVec 11) (vb : VSrc) (vc : BitVec 11) : Statement (.vfma c vd va vb vc) := by
  intro k h _; cases h; obtain ⟨g, rm, t, me, ms⟩ := c; cases vb <;> (show parseV (pkVR _) = _; rw [parseV, unVR_pkVR]; show Option.bind (etOf t.bits) _ = _; rw [etOf_bits]; ((conv_lhs => whnf); simp [srcOf]))
theorem vfms (c : VC) (vd va : BitVec 11) (vb : VSrc) (vc : BitVec 11) : Statement (.vfms c vd va vb vc) := by
  intro k h _; cases h; obtain ⟨g, rm, t, me, ms⟩ := c; cases vb <;> (show parseV (pkVR _) = _; rw [parseV, unVR_pkVR]; show Option.bind (etOf t.bits) _ = _; rw [etOf_bits]; ((conv_lhs => whnf); simp [srcOf]))
theorem vabs (c : VC) (vd va : BitVec 11) : Statement (.vabs c vd va) := by
  intro k h _; cases h; obtain ⟨g, rm, t, me, ms⟩ := c; (show parseV (pkVR _) = _; rw [parseV, unVR_pkVR]; show Option.bind (etOf t.bits) _ = _; rw [etOf_bits]; rfl)
theorem vneg (c : VC) (vd va : BitVec 11) : Statement (.vneg c vd va) := by
  intro k h _; cases h; obtain ⟨g, rm, t, me, ms⟩ := c; (show parseV (pkVR _) = _; rw [parseV, unVR_pkVR]; show Option.bind (etOf t.bits) _ = _; rw [etOf_bits]; rfl)
theorem vmin (c : VC) (vd va : BitVec 11) (vb : VSrc) : Statement (.vmin c vd va vb) := by
  intro k h _; cases h; obtain ⟨g, rm, t, me, ms⟩ := c; cases vb <;> (show parseV (pkVR _) = _; rw [parseV, unVR_pkVR]; show Option.bind (etOf t.bits) _ = _; rw [etOf_bits]; ((conv_lhs => whnf); simp [srcOf]))
theorem vmax (c : VC) (vd va : BitVec 11) (vb : VSrc) : Statement (.vmax c vd va vb) := by
  intro k h _; cases h; obtain ⟨g, rm, t, me, ms⟩ := c; cases vb <;> (show parseV (pkVR _) = _; rw [parseV, unVR_pkVR]; show Option.bind (etOf t.bits) _ = _; rw [etOf_bits]; ((conv_lhs => whnf); simp [srcOf]))
theorem vaddsat (c : VC) (vd va : BitVec 11) (vb : VSrc) : Statement (.vaddsat c vd va vb) := by
  intro k h _; cases h; obtain ⟨g, rm, t, me, ms⟩ := c; cases vb <;> (show parseV (pkVR _) = _; rw [parseV, unVR_pkVR]; show Option.bind (etOf t.bits) _ = _; rw [etOf_bits]; ((conv_lhs => whnf); simp [srcOf]))
theorem vsubsat (c : VC) (vd va : BitVec 11) (vb : VSrc) : Statement (.vsubsat c vd va vb) := by
  intro k h _; cases h; obtain ⟨g, rm, t, me, ms⟩ := c; cases vb <;> (show parseV (pkVR _) = _; rw [parseV, unVR_pkVR]; show Option.bind (etOf t.bits) _ = _; rw [etOf_bits]; ((conv_lhs => whnf); simp [srcOf]))
theorem vand (c : VC) (vd va : BitVec 11) (vb : VSrc) : Statement (.vand c vd va vb) := by
  intro k h _; cases h; obtain ⟨g, rm, t, me, ms⟩ := c; cases vb <;> (show parseV (pkVR _) = _; rw [parseV, unVR_pkVR]; show Option.bind (etOf t.bits) _ = _; rw [etOf_bits]; ((conv_lhs => whnf); simp [srcOf]))
theorem vor (c : VC) (vd va : BitVec 11) (vb : VSrc) : Statement (.vor c vd va vb) := by
  intro k h _; cases h; obtain ⟨g, rm, t, me, ms⟩ := c; cases vb <;> (show parseV (pkVR _) = _; rw [parseV, unVR_pkVR]; show Option.bind (etOf t.bits) _ = _; rw [etOf_bits]; ((conv_lhs => whnf); simp [srcOf]))
theorem vxor (c : VC) (vd va : BitVec 11) (vb : VSrc) : Statement (.vxor c vd va vb) := by
  intro k h _; cases h; obtain ⟨g, rm, t, me, ms⟩ := c; cases vb <;> (show parseV (pkVR _) = _; rw [parseV, unVR_pkVR]; show Option.bind (etOf t.bits) _ = _; rw [etOf_bits]; ((conv_lhs => whnf); simp [srcOf]))
theorem vnot (c : VC) (vd va : BitVec 11) : Statement (.vnot c vd va) := by
  intro k h _; cases h; obtain ⟨g, rm, t, me, ms⟩ := c; (show parseV (pkVR _) = _; rw [parseV, unVR_pkVR]; show Option.bind (etOf t.bits) _ = _; rw [etOf_bits]; rfl)
theorem vshl (c : VC) (vd va : BitVec 11) (vb : VSrc) : Statement (.vshl c vd va vb) := by
  intro k h _; cases h; obtain ⟨g, rm, t, me, ms⟩ := c; cases vb <;> (show parseV (pkVR _) = _; rw [parseV, unVR_pkVR]; show Option.bind (etOf t.bits) _ = _; rw [etOf_bits]; ((conv_lhs => whnf); simp [srcOf]))
theorem vshr (c : VC) (vd va : BitVec 11) (vb : VSrc) : Statement (.vshr c vd va vb) := by
  intro k h _; cases h; obtain ⟨g, rm, t, me, ms⟩ := c; cases vb <;> (show parseV (pkVR _) = _; rw [parseV, unVR_pkVR]; show Option.bind (etOf t.bits) _ = _; rw [etOf_bits]; ((conv_lhs => whnf); simp [srcOf]))
theorem vsar (c : VC) (vd va : BitVec 11) (vb : VSrc) : Statement (.vsar c vd va vb) := by
  intro k h _; cases h; obtain ⟨g, rm, t, me, ms⟩ := c; cases vb <;> (show parseV (pkVR _) = _; rw [parseV, unVR_pkVR]; show Option.bind (etOf t.bits) _ = _; rw [etOf_bits]; ((conv_lhs => whnf); simp [srcOf]))
theorem vcmp (c : VC) (cond : FCond) (md : BitVec 3) (va : BitVec 11) (vb : VSrc) : Statement (.vcmp c cond md va vb) := by
  intro k h _; cases h; obtain ⟨g, rm, t, me, ms⟩ := c; cases vb <;> (show parseV (pkVR _) = _; rw [parseV, unVR_pkVR]; show Option.bind (etOf t.bits) _ = _; rw [etOf_bits]; (conv_lhs => whnf); simp [low_low, srcOf, low_code, low_code_sc, code_reg])
theorem vsel (c : VC) (vd va vb : BitVec 11) (mc : BitVec 3) : Statement (.vsel c vd va vb mc) := by
  intro k h _; cases h; obtain ⟨g, rm, t, me, ms⟩ := c; (show parseV (pkVR _) = _; rw [parseV, unVR_pkVR]; show Option.bind (etOf t.bits) _ = _; rw [etOf_bits]; ((conv_lhs => whnf); simp [low_low]))
theorem vcvt (c : VC) (u : ETy) (vd va : BitVec 11) : Statement (.vcvt c u vd va) := by
  intro k h _; cases h; obtain ⟨g, rm, t, me, ms⟩ := c; (show parseV (pkVR _) = _; rw [parseV, unVR_pkVR]; show Option.bind (etOf t.bits) _ = _; rw [etOf_bits]; (cases u <;> rfl))
theorem vwiden (c : VC) (u : ETy) (vd va : BitVec 11) : Statement (.vwiden c u vd va) := by
  intro k h _; cases h; obtain ⟨g, rm, t, me, ms⟩ := c; (show parseV (pkVR _) = _; rw [parseV, unVR_pkVR]; show Option.bind (etOf t.bits) _ = _; rw [etOf_bits]; (cases u <;> rfl))
theorem vnarrow (c : VC) (u : ETy) (t : Bool) (vd va : BitVec 11) : Statement (.vnarrow c u t vd va) := by
  intro k h _; cases h; obtain ⟨g, rm, t, me, ms⟩ := c; show parseV (pkVR _) = _; rw [parseV, unVR_pkVR]; show Option.bind (etOf t.bits) _ = _; rw [etOf_bits]; (conv_lhs => whnf); simp [low_narrow, narrow_top]
theorem vmaxe (c : VC) (z x : BitVec 2) (va : BitVec 11) : Statement (.vmaxe c z x va) := by
  intro k0 h0 u0; cases h0; clear u0; obtain ⟨g, rm, t, me, ms⟩ := c; (show parseV (pkVR _) = _; rw [parseV, unVR_pkVR]; show Option.bind (etOf t.bits) _ = _; rw [etOf_bits]; (conv_lhs => whnf); simp; revert z x; decide)
theorem vqcvt (c : VC) (k : BitVec 6) (vd va vb : BitVec 11) (ss : BitVec 6) : Statement (.vqcvt c k vd va vb ss) := by
  intro k h _; cases h; obtain ⟨g, rm, t, me, ms⟩ := c; (show parseV (pkVR _) = _; rw [parseV, unVR_pkVR]; show Option.bind (etOf t.bits) _ = _; rw [etOf_bits]; rfl)
theorem vdeq (c : VC) (k : BitVec 6) (vd va vb : BitVec 11) (ss : BitVec 6) : Statement (.vdeq c k vd va vb ss) := by
  intro k h _; cases h; obtain ⟨g, rm, t, me, ms⟩ := c; (show parseV (pkVR _) = _; rw [parseV, unVR_pkVR]; show Option.bind (etOf t.bits) _ = _; rw [etOf_bits]; rfl)
theorem vexp2 (c : VC) (va : BitVec 11) : Statement (.vexp2 c va) := by
  intro k h _; cases h; obtain ⟨g, rm, t, me, ms⟩ := c; (show parseV (pkVR _) = _; rw [parseV, unVR_pkVR]; show Option.bind (etOf t.bits) _ = _; rw [etOf_bits]; rfl)
theorem vlog2 (c : VC) (va : BitVec 11) : Statement (.vlog2 c va) := by
  intro k h _; cases h; obtain ⟨g, rm, t, me, ms⟩ := c; (show parseV (pkVR _) = _; rw [parseV, unVR_pkVR]; show Option.bind (etOf t.bits) _ = _; rw [etOf_bits]; rfl)
theorem vrcp (c : VC) (va : BitVec 11) : Statement (.vrcp c va) := by
  intro k h _; cases h; obtain ⟨g, rm, t, me, ms⟩ := c; (show parseV (pkVR _) = _; rw [parseV, unVR_pkVR]; show Option.bind (etOf t.bits) _ = _; rw [etOf_bits]; rfl)
theorem vrsq (c : VC) (va : BitVec 11) : Statement (.vrsq c va) := by
  intro k h _; cases h; obtain ⟨g, rm, t, me, ms⟩ := c; (show parseV (pkVR _) = _; rw [parseV, unVR_pkVR]; show Option.bind (etOf t.bits) _ = _; rw [etOf_bits]; rfl)
theorem vsqrt (c : VC) (va : BitVec 11) : Statement (.vsqrt c va) := by
  intro k h _; cases h; obtain ⟨g, rm, t, me, ms⟩ := c; (show parseV (pkVR _) = _; rw [parseV, unVR_pkVR]; show Option.bind (etOf t.bits) _ = _; rw [etOf_bits]; rfl)
theorem vtanh (c : VC) (va : BitVec 11) : Statement (.vtanh c va) := by
  intro k h _; cases h; obtain ⟨g, rm, t, me, ms⟩ := c; (show parseV (pkVR _) = _; rw [parseV, unVR_pkVR]; show Option.bind (etOf t.bits) _ = _; rw [etOf_bits]; rfl)
theorem vsincos (c : VC) (va : BitVec 11) : Statement (.vsincos c va) := by
  intro k h _; cases h; obtain ⟨g, rm, t, me, ms⟩ := c; (show parseV (pkVR _) = _; rw [parseV, unVR_pkVR]; show Option.bind (etOf t.bits) _ = _; rw [etOf_bits]; rfl)
theorem vcmul (c : VC) (cj : Bool) (vd va : BitVec 11) (vb : VSrc) : Statement (.vcmul c cj vd va vb) := by
  intro k h _; cases h; obtain ⟨g, rm, t, me, ms⟩ := c; cases vb <;> (show parseV (pkVR _) = _; rw [parseV, unVR_pkVR]; show Option.bind (etOf t.bits) _ = _; rw [etOf_bits]; (cases cj <;> ((conv_lhs => whnf); simp [srcOf]; decide)))
theorem vcmac (c : VC) (cj : Bool) (vd va : BitVec 11) (vb : VSrc) : Statement (.vcmac c cj vd va vb) := by
  intro k h _; cases h; obtain ⟨g, rm, t, me, ms⟩ := c; cases vb <;> (show parseV (pkVR _) = _; rw [parseV, unVR_pkVR]; show Option.bind (etOf t.bits) _ = _; rw [etOf_bits]; (cases cj <;> ((conv_lhs => whnf); simp [srcOf]; decide)))
theorem vred (c : VC) (op : BitVec 2) (va : BitVec 11) : Statement (.vred c op va) := by
  intro k h _; cases h; obtain ⟨g, rm, t, me, ms⟩ := c; (show parseV (pkVR _) = _; rw [parseV, unVR_pkVR]; show Option.bind (etOf t.bits) _ = _; rw [etOf_bits]; ((conv_lhs => whnf); simp [low_low]))
theorem vscan (c : VC) (op : BitVec 2) (va : BitVec 11) : Statement (.vscan c op va) := by
  intro k h _; cases h; obtain ⟨g, rm, t, me, ms⟩ := c; (show parseV (pkVR _) = _; rw [parseV, unVR_pkVR]; show Option.bind (etOf t.bits) _ = _; rw [etOf_bits]; ((conv_lhs => whnf); simp [low_low]))
theorem vperm (c : VC) (vd va vb : BitVec 11) : Statement (.vperm c vd va vb) := by
  intro k h _; cases h; obtain ⟨g, rm, t, me, ms⟩ := c; (show parseV (pkVR _) = _; rw [parseV, unVR_pkVR]; show Option.bind (etOf t.bits) _ = _; rw [etOf_bits]; rfl)
theorem vbcast (c : VC) (vd : BitVec 11) (ss : BitVec 6) : Statement (.vbcast c vd ss) := by
  intro k h _; cases h; obtain ⟨g, rm, t, me, ms⟩ := c; (show parseV (pkVR _) = _; rw [parseV, unVR_pkVR]; show Option.bind (etOf t.bits) _ = _; rw [etOf_bits]; ((conv_lhs => whnf); simp))
theorem vbcastLane (c : VC) (vd va : BitVec 11) (ss : BitVec 6) : Statement (.vbcastLane c vd va ss) := by
  intro k h _; cases h; obtain ⟨g, rm, t, me, ms⟩ := c; (show parseV (pkVR _) = _; rw [parseV, unVR_pkVR]; show Option.bind (etOf t.bits) _ = _; rw [etOf_bits]; ((conv_lhs => whnf); simp))
theorem vrot (c : VC) (vd va : BitVec 11) (ss : BitVec 6) : Statement (.vrot c vd va ss) := by
  intro k h _; cases h; obtain ⟨g, rm, t, me, ms⟩ := c; (show parseV (pkVR _) = _; rw [parseV, unVR_pkVR]; show Option.bind (etOf t.bits) _ = _; rw [etOf_bits]; rfl)
theorem vtrn (c : VC) (vd va : BitVec 11) : Statement (.vtrn c vd va) := by
  intro k h _; cases h; obtain ⟨g, rm, t, me, ms⟩ := c; (show parseV (pkVR _) = _; rw [parseV, unVR_pkVR]; show Option.bind (etOf t.bits) _ = _; rw [etOf_bits]; rfl)
theorem vzip (c : VC) (vd va vb : BitVec 11) : Statement (.vzip c vd va vb) := by
  intro k h _; cases h; obtain ⟨g, rm, t, me, ms⟩ := c; (show parseV (pkVR _) = _; rw [parseV, unVR_pkVR]; show Option.bind (etOf t.bits) _ = _; rw [etOf_bits]; rfl)
theorem vunzip (c : VC) (vd va : BitVec 11) : Statement (.vunzip c vd va) := by
  intro k h _; cases h; obtain ⟨g, rm, t, me, ms⟩ := c; (show parseV (pkVR _) = _; rw [parseV, unVR_pkVR]; show Option.bind (etOf t.bits) _ = _; rw [etOf_bits]; rfl)
theorem vbin (c : VC) (k : BitVec 4) (vd va vb : BitVec 11) (b : BitVec 6) : Statement (.vbin c k vd va vb b) := by
  intro k h _; cases h; obtain ⟨g, rm, t, me, ms⟩ := c; (show parseV (pkVR _) = _; rw [parseV, unVR_pkVR]; show Option.bind (etOf t.bits) _ = _; rw [etOf_bits]; ((conv_lhs => whnf); simp [low_low]))
theorem vpip (c : VC) (va : BitVec 11) : Statement (.vpip c va) := by
  intro k h _; cases h; obtain ⟨g, rm, t, me, ms⟩ := c; (show parseV (pkVR _) = _; rw [parseV, unVR_pkVR]; show Option.bind (etOf t.bits) _ = _; rw [etOf_bits]; rfl)
theorem vpipBy (c : VC) (va vb : BitVec 11) : Statement (.vpipBy c va vb) := by
  intro k h _; cases h; obtain ⟨g, rm, t, me, ms⟩ := c; (show parseV (pkVR _) = _; rw [parseV, unVR_pkVR]; show Option.bind (etOf t.bits) _ = _; rw [etOf_bits]; rfl)
theorem vpipRead (c : VC) (vd : BitVec 11) : Statement (.vpipRead c vd) := by
  intro k h _; cases h; obtain ⟨g, rm, t, me, ms⟩ := c; (show parseV (pkVR _) = _; rw [parseV, unVR_pkVR]; show Option.bind (etOf t.bits) _ = _; rw [etOf_bits]; rfl)
theorem vmov (c : VC) (vd va : BitVec 11) : Statement (.vmov c vd va) := by
  intro k h _; cases h; obtain ⟨g, rm, t, me, ms⟩ := c; (show parseV (pkVR _) = _; rw [parseV, unVR_pkVR]; show Option.bind (etOf t.bits) _ = _; rw [etOf_bits]; rfl)
theorem vmovPop (c : VC) (vd : BitVec 11) (b : BitVec 6) : Statement (.vmovPop c vd b) := by
  intro k h _; cases h; obtain ⟨g, rm, t, me, ms⟩ := c; (show parseV (pkVR _) = _; rw [parseV, unVR_pkVR]; show Option.bind (etOf t.bits) _ = _; rw [etOf_bits]; rfl)
theorem vmovPush (c : VC) (b : BitVec 6) (va : BitVec 11) : Statement (.vmovPush c b va) := by
  intro k h _; cases h; obtain ⟨g, rm, t, me, ms⟩ := c; (show parseV (pkVR _) = _; rw [parseV, unVR_pkVR]; show Option.bind (etOf t.bits) _ = _; rw [etOf_bits]; rfl)
theorem vmovi (c : VC) (vd : BitVec 11) (imm : BitVec 32) : Statement (.vmovi c vd imm) := by
  intro k h _; cases h; obtain ⟨g, rm, t, me, ms⟩ := c; (show parseV (pkVI _) = _; rw [parseV, unVR_pkVI]; show Option.bind (etOf t.bits) _ = _; rw [etOf_bits]; simp only [unVI_pkVI]; rfl)
theorem vqpop (c : VC) (vd : BitVec 11) (pd : BitVec 4) (q5 eb : Bool) : Statement (.vqpop c vd pd q5 eb) := by
  intro k h _; cases h; obtain ⟨g, rm, t, me, ms⟩ := c; (show parseV (pkVR _) = _; rw [parseV, unVR_pkVR]; show Option.bind (etOf t.bits) _ = _; rw [etOf_bits]; (cases q5 <;> cases eb <;> ((conv_lhs => whnf); simp [low_low]; decide)))
theorem vlane (c : VC) (vd : BitVec 11) (ss : BitVec 6) : Statement (.vlane c vd ss) := by
  intro k h _; cases h; obtain ⟨g, rm, t, me, ms⟩ := c; (show parseV (pkVR _) = _; rw [parseV, unVR_pkVR]; show Option.bind (etOf t.bits) _ = _; rw [etOf_bits]; rfl)
theorem vpmov (c : VC) (vd : BitVec 11) (ma : BitVec 3) : Statement (.vpmov c vd ma) := by
  intro k h _; cases h; obtain ⟨g, rm, t, me, ms⟩ := c; (show parseV (pkVR _) = _; rw [parseV, unVR_pkVR]; show Option.bind (etOf t.bits) _ = _; rw [etOf_bits]; ((conv_lhs => whnf); simp [low_low]))
theorem vpmovTomask (c : VC) (md : BitVec 3) (va : BitVec 11) : Statement (.vpmovTomask c md va) := by
  intro k h _; cases h; obtain ⟨g, rm, t, me, ms⟩ := c; (show parseV (pkVR _) = _; rw [parseV, unVR_pkVR]; show Option.bind (etOf t.bits) _ = _; rw [etOf_bits]; ((conv_lhs => whnf); simp [low_low]))
theorem mcfg (g : Guard) (sk : BitVec 6) : Statement (.mcfg g sk) := by
  intro k h _; cases h; (show parseM (pkMR _) = _; rw [parseM, unMR_pkMR]; ((conv_lhs => whnf); simp [low_low]))
theorem mpre (g : Guard) (x : BitVec 1) (n : BitVec 4) (ra rb : BitVec 6) : Statement (.mpre g x n ra rb) := by
  intro k h _; cases h; (show parseM (pkMR _) = _; rw [parseM, unMR_pkMR]; ((conv_lhs => whnf); simp [low_low]))
theorem mxs (g : Guard) (w : BitVec 2) (os : BitVec 11) : Statement (.mxs g w os) := by
  intro k h _; cases h; (show parseM (pkMR _) = _; rw [parseM, unMR_pkMR]; ((conv_lhs => whnf); simp [low_low]))
theorem mmul (g : Guard) (rm : BitVec 3) (x : BitVec 1) (y : BitVec 2) (n : BitVec 4) (od : BitVec 11) (ra rb : BitVec 6) : Statement (.mmul g rm x y n od ra rb) := by
  intro k0 h0 u0; cases h0; clear u0; (show parseM (pkMR _) = _; rw [parseM, unMR_pkMR]; (conv_lhs => whnf); simp; revert x y; decide)
theorem mmulz (g : Guard) (rm : BitVec 3) (x : BitVec 1) (y : BitVec 2) (n : BitVec 4) (od : BitVec 11) (ra rb : BitVec 6) : Statement (.mmulz g rm x y n od ra rb) := by
  intro k0 h0 u0; cases h0; clear u0; (show parseM (pkMR _) = _; rw [parseM, unMR_pkMR]; (conv_lhs => whnf); simp; revert x y; decide)
theorem mmulp (g : Guard) (rm : BitVec 3) (x : BitVec 1) (y : BitVec 2) (peer : BitVec 4) (prel pw : Bool) (n : BitVec 4) (od : BitVec 11) (ra rb : BitVec 6) : Statement (.mmulp g rm x y peer prel pw n od ra rb) := by
  intro k0 h0 u0; cases h0; clear u0; (show parseM (pkMR _) = _; rw [parseM, unMR_pkMR]; (conv_lhs => whnf); simp; revert x y peer prel pw; decide)
theorem mcmul (g : Guard) (rm : BitVec 3) (x : BitVec 1) (y : BitVec 2) (z : Bool) (n : BitVec 4) (od : BitVec 11) (ra rb : BitVec 6) : Statement (.mcmul g rm x y z n od ra rb) := by
  intro k0 h0 u0; cases h0; clear u0; (show parseM (pkMR _) = _; rw [parseM, unMR_pkMR]; (conv_lhs => whnf); simp; revert x y z; decide)
theorem mclr (g : Guard) (n : BitVec 3) (od : BitVec 11) : Statement (.mclr g n od) := by
  intro k h _; cases h; (show parseM (pkMR _) = _; rw [parseM, unMR_pkMR]; ((conv_lhs => whnf); simp [low_low]))
theorem mbias (g : Guard) (od os : BitVec 11) : Statement (.mbias g od os) := by
  intro k h _; cases h; (show parseM (pkMR _) = _; rw [parseM, unMR_pkMR]; rfl)
theorem mdrain (g : Guard) (rm : BitVec 3) (k : BitVec 6) (add : Bool) (os : BitVec 11) (ra rb : BitVec 6) : Statement (.mdrain g rm k add os ra rb) := by
  intro k0 h0 u0; cases h0; clear u0; (show parseM (pkMR _) = _; rw [parseM, unMR_pkMR]; (conv_lhs => whnf); simp; revert k add; decide)
theorem mtr (g : Guard) (od os : BitVec 11) : Statement (.mtr g od os) := by
  intro k h _; cases h; (show parseM (pkMR _) = _; rw [parseM, unMR_pkMR]; rfl)
theorem ldT (g : Guard) (rm : BitVec 3) (rg : BitVec 11) (m : MemArg) (dt dc : Bool) (h : BitVec 2) : Statement (.ldT g rm rg m dt dc h) := by
  intro k0 h0 u0; cases h0; clear u0; (show parseLD (pkLM _) = _; rw [parseLD, unLM_pkLM]; (conv_lhs => whnf); simp [memOf]; revert h dt dc; decide)
theorem ldV (g : Guard) (rm : BitVec 3) (rg : BitVec 11) (m : MemArg) (dt dc : Bool) : Statement (.ldV g rm rg m dt dc) := by
  intro k h _; cases h; (show parseLD (pkLM _) = _; rw [parseLD, unLM_pkLM]; (cases dt <;> cases dc <;> ((conv_lhs => whnf); simp [memOf]; decide)))
theorem ldS (g : Guard) (rm : BitVec 3) (sd : BitVec 6) (m : MemArg) (d64 dc sx : Bool) : Statement (.ldS g rm sd m d64 dc sx) := by
  intro k h _; cases h; (show parseLD (pkLM _) = _; rw [parseLD, unLM_pkLM]; (cases d64 <;> cases dc <;> cases sx <;> ((conv_lhs => whnf); simp [low_low, memOf]; decide)))
theorem ldG (g : Guard) (rg : BitVec 11) (m : MemArg) : Statement (.ldG g rg m) := by
  intro k h _; cases h; (show parseLD (pkLM _) = _; rw [parseLD, unLM_pkLM]; rfl)
theorem tch (g : Guard) (le : BitVec 8) (cb : BitVec 6) (imm : BitVec 16) (w : Bool) : Statement (.tch g le cb imm w) := by
  intro k h _; cases h; (show parseLD (pkLM _) = _; rw [parseLD, unLM_pkLM]; (cases w <;> ((conv_lhs => whnf); simp; decide)))
theorem ldSp (g : Guard) (sz : Bool) (rg : BitVec 11) (off : BitVec 14) : Statement (.ldSp g sz rg off) := by
  intro k h _; cases h; (show parseLD (pkLS _) = _; rw [parseLD, unLM_pkLS]; simp only [unLS_pkLS]; rfl)
theorem rpop (g : Guard) (z : BitVec 2) (rg : BitVec 11) (rn : BitVec 6) : Statement (.rpop g z rg rn) := by
  intro k h _; cases h; (show parseLD (pkLR _) = _; rw [parseLD, unLM_pkLR]; simp only [unLR_pkLR]; ((conv_lhs => whnf); simp [low_low]))
theorem rsel (g : Guard) (z : BitVec 2) (rg : BitVec 11) (pd : BitVec 4) (rn rn2 : BitVec 6) : Statement (.rsel g z rg pd rn rn2) := by
  intro k h _; cases h; (show parseLD (pkLR _) = _; rw [parseLD, unLM_pkLR]; simp only [unLR_pkLR]; ((conv_lhs => whnf); simp [low_low]))
theorem rpeek (g : Guard) (z : BitVec 2) (rg : BitVec 11) (pd : BitVec 4) (rn : BitVec 6) : Statement (.rpeek g z rg pd rn) := by
  intro k h _; cases h; (show parseLD (pkLR _) = _; rw [parseLD, unLM_pkLR]; simp only [unLR_pkLR]; ((conv_lhs => whnf); simp [low_low]))
theorem stT (g : Guard) (rm : BitVec 3) (rg : BitVec 11) (m : MemArg) (dt dc : Bool) (h : BitVec 2) : Statement (.stT g rm rg m dt dc h) := by
  intro k0 h0 u0; cases h0; clear u0; (show parseST (pkLM _) = _; rw [parseST, unLM_pkLM]; (conv_lhs => whnf); simp [memOf]; revert h dt dc; decide)
theorem stV (g : Guard) (rm : BitVec 3) (rg : BitVec 11) (m : MemArg) (dt dc : Bool) : Statement (.stV g rm rg m dt dc) := by
  intro k h _; cases h; (show parseST (pkLM _) = _; rw [parseST, unLM_pkLM]; (cases dt <;> cases dc <;> ((conv_lhs => whnf); simp [memOf]; decide)))
theorem stS (g : Guard) (rm : BitVec 3) (sk : BitVec 6) (m : MemArg) (d64 dc : Bool) : Statement (.stS g rm sk m d64 dc) := by
  intro k h _; cases h; (show parseST (pkLM _) = _; rw [parseST, unLM_pkLM]; (cases d64 <;> cases dc <;> ((conv_lhs => whnf); simp [low_low, memOf]; decide)))
theorem stSc (g : Guard) (rg : BitVec 11) (m : MemArg) : Statement (.stSc g rg m) := by
  intro k h _; cases h; (show parseST (pkLM _) = _; rw [parseST, unLM_pkLM]; rfl)
theorem amo (g : Guard) (op : BitVec 3) (nq : Bool) (sc : BitVec 3) (sk : BitVec 6) (m : MemArg) : Statement (.amo g op nq sc sk m) := by
  intro k0 h0 u0; cases h0; clear u0; (show parseST (pkLM _) = _; rw [parseST, unLM_pkLM]; (conv_lhs => whnf); simp [low_low, memOf]; revert op nq; decide)
theorem stSp (g : Guard) (sz : Bool) (rg : BitVec 11) (off : BitVec 14) : Statement (.stSp g sz rg off) := by
  intro k h _; cases h; (show parseST (pkLS _) = _; rw [parseST, unLM_pkLS]; simp only [unLS_pkLS]; rfl)
theorem rpush (g : Guard) (z : BitVec 2) (rn : BitVec 6) (rg : BitVec 11) : Statement (.rpush g z rn rg) := by
  intro k h _; cases h; (show parseST (pkLR _) = _; rw [parseST, unLM_pkLR]; simp only [unLR_pkLR]; ((conv_lhs => whnf); simp [low_low]))
theorem cpIn (c : ECmd) : Statement (.cpIn c) := by
  intro k h _; cases h; obtain ⟨g, la, lb, sa, cx, cl, nq⟩ := c; cases nq <;> (show parseE (pkEC _) = _; rw [parseE, unEC_pkEC]; (((conv_lhs => whnf); simp; decide)))
theorem cpOut (c : ECmd) : Statement (.cpOut c) := by
  intro k h _; cases h; obtain ⟨g, la, lb, sa, cx, cl, nq⟩ := c; cases nq <;> (show parseE (pkEC _) = _; rw [parseE, unEC_pkEC]; (((conv_lhs => whnf); simp; decide)))
theorem cpPeer (c : ECmd) (mc : Bool) : Statement (.cpPeer c mc) := by
  intro k h _; cases h; obtain ⟨g, la, lb, sa, cx, cl, nq⟩ := c; cases nq <;> (show parseE (pkEC _) = _; rw [parseE, unEC_pkEC]; (cases mc <;> ((conv_lhs => whnf); simp; decide)))
theorem cpPf (c : ECmd) : Statement (.cpPf c) := by
  intro k h _; cases h; obtain ⟨g, la, lb, sa, cx, cl, nq⟩ := c; cases nq <;> (show parseE (pkEC _) = _; rw [parseE, unEC_pkEC]; (((conv_lhs => whnf); simp; decide)))
theorem send (c : ECmd) : Statement (.send c) := by
  intro k h _; cases h; obtain ⟨g, la, lb, sa, cx, cl, nq⟩ := c; cases nq <;> (show parseE (pkEC _) = _; rw [parseE, unEC_pkEC]; (((conv_lhs => whnf); simp; decide)))
theorem recvArm (c : ECmd) : Statement (.recvArm c) := by
  intro k h _; cases h; obtain ⟨g, la, lb, sa, cx, cl, nq⟩ := c; cases nq <;> (show parseE (pkEC _) = _; rw [parseE, unEC_pkEC]; (((conv_lhs => whnf); simp; decide)))
theorem exf (c : ECmd) (rn : BitVec 6) : Statement (.exf c rn) := by
  intro k h _; cases h; obtain ⟨g, la, lb, sa, cx, cl, nq⟩ := c; cases nq <;> (show parseE (pkEC _) = _; rw [parseE, unEC_pkEC]; (((conv_lhs => whnf); simp; decide)))
theorem ofx (c : ECmd) : Statement (.ofx c) := by
  intro k h _; cases h; obtain ⟨g, la, lb, sa, cx, cl, nq⟩ := c; cases nq <;> (show parseE (pkEC _) = _; rw [parseE, unEC_pkEC]; (((conv_lhs => whnf); simp; decide)))
theorem ofm (c : ECmd) (x : BitVec 1) : Statement (.ofm c x) := by
  intro k0 h0 u0; cases h0; clear u0; obtain ⟨g, la, lb, sa, cx, cl, nq⟩ := c; cases nq <;> (show parseE (pkEC _) = _; rw [parseE, unEC_pkEC]; (conv_lhs => whnf); simp; revert x; decide)
theorem ofcCap (c : ECmd) : Statement (.ofcCap c) := by
  intro k h _; cases h; obtain ⟨g, la, lb, sa, cx, cl, nq⟩ := c; show parseE (pkEC _) = _; rw [parseE, unEC_pkEC]
  conv_lhs => whnf
  show (match (low 2 (bit1 nq ++ 0#3)).toNat with | 0 => some _ | 1 => some _ | 2 => some _ | _ => none) = _
  rw [low_bit]; show some (Instr.ofcCap { g := g, la := la, lb := lb, sa := sa, cx := cx, cl := cl, nq := (bit1 nq ++ 0#3).getLsbD 3 }) = _; rw [bit_top]
theorem ofcRd (c : ECmd) : Statement (.ofcRd c) := by
  intro k h _; cases h; obtain ⟨g, la, lb, sa, cx, cl, nq⟩ := c; show parseE (pkEC _) = _; rw [parseE, unEC_pkEC]
  conv_lhs => whnf
  show (match (low 2 (bit1 nq ++ 1#3)).toNat with | 0 => some _ | 1 => some _ | 2 => some _ | _ => none) = _
  rw [low_bit]; show some (Instr.ofcRd { g := g, la := la, lb := lb, sa := sa, cx := cx, cl := cl, nq := (bit1 nq ++ 1#3).getLsbD 3 }) = _; rw [bit_top]
theorem ofcTab (c : ECmd) : Statement (.ofcTab c) := by
  intro k h _; cases h; obtain ⟨g, la, lb, sa, cx, cl, nq⟩ := c; show parseE (pkEC _) = _; rw [parseE, unEC_pkEC]
  conv_lhs => whnf
  show (match (low 2 (bit1 nq ++ 2#3)).toNat with | 0 => some _ | 1 => some _ | 2 => some _ | _ => none) = _
  rw [low_bit]; show some (Instr.ofcTab { g := g, la := la, lb := lb, sa := sa, cx := cx, cl := cl, nq := (bit1 nq ++ 2#3).getLsbD 3 }) = _; rw [bit_top]
theorem ofr (c : ECmd) (add : Bool) : Statement (.ofr c add) := by
  intro k h _; cases h; obtain ⟨g, la, lb, sa, cx, cl, nq⟩ := c; cases nq <;> (show parseE (pkEC _) = _; rw [parseE, unEC_pkEC]; (cases add <;> ((conv_lhs => whnf); simp; decide)))
theorem fence (g : Guard) (mask : BitVec 16) : Statement (.fence g mask) := by
  intro k h _; cases h; (show parseY (pkYF _) = _; rw [parseY, unYS_pkYF]; simp only [unYF_pkYF]; rfl)
theorem sig (a : YArg) (set : Bool) : Statement (.sig a set) := by
  intro k h _; cases h; (show parseY (pkYS _) = _; rw [parseY, unYS_pkYS]; (cases set <;> ((conv_lhs => whnf); simp; decide)))
theorem wait (a : YArg) (c : BitVec 2) : Statement (.wait a c) := by
  intro k h _; cases h; (show parseY (pkYS _) = _; rw [parseY, unYS_pkYS]; ((conv_lhs => whnf); simp [low_low]))
theorem bar (a : YArg) : Statement (.bar a) := by
  intro k h _; cases h; (show parseY (pkYS _) = _; rw [parseY, unYS_pkYS]; rfl)
theorem rwait (g : Guard) (free : Bool) (k : BitVec 4) (b : BitVec 6) : Statement (.rwait g free k b) := by
  intro k0 h0 u0; cases h0; clear u0; (show parseY (pkYS _) = _; rw [parseY, unYS_pkYS]; (conv_lhs => whnf); simp [low_low]; revert k free; decide)
theorem yield (g : Guard) : Statement (.yield g) := by
  intro k h _; cases h; (show parseY (pkYS _) = _; rw [parseY, unYS_pkYS]; rfl)
theorem sleep (g : Guard) (sa : BitVec 6) : Statement (.sleep g sa) := by
  intro k h _; cases h; (show parseY (pkYS _) = _; rw [parseY, unYS_pkYS]; rfl)
theorem pwrAcq (g : Guard) (sa : BitVec 6) : Statement (.pwrAcq g sa) := by
  intro k h _; cases h; (show parseY (pkYS _) = _; rw [parseY, unYS_pkYS]; rfl)
theorem pwrRel (g : Guard) : Statement (.pwrRel g) := by
  intro k h _; cases h; (show parseY (pkYS _) = _; rw [parseY, unYS_pkYS]; rfl)
theorem realign (g : Guard) (sa : BitVec 6) : Statement (.realign g sa) := by
  intro k h _; cases h; (show parseY (pkYS _) = _; rw [parseY, unYS_pkYS]; rfl)
theorem bundleDispatch (b : BitVec 512) : Statement (.bundleDispatch b) := fun _ h => nomatch h
theorem checkpointRelease (who : Nat) : Statement (.checkpointRelease who) := fun _ h => nomatch h
theorem resultWrite (who k : Nat) : Statement (.resultWrite who k) := fun _ h => nomatch h
theorem latchWriteLands (who k : Nat) : Statement (.latchWriteLands who k) := fun _ h => nomatch h
theorem divisionResultPush (who k : Nat) : Statement (.divisionResultPush who k) := fun _ h => nomatch h
theorem vectorQueueEntryPush (who q k : Nat) : Statement (.vectorQueueEntryPush who q k) := fun _ h => nomatch h
theorem contextReady (who : Nat) : Statement (.contextReady who) := fun _ h => nomatch h
theorem operationFires (who : Nat) (sl : Slot) : Statement (.operationFires who sl) := fun _ h => nomatch h
theorem broadcastDelivery (row rank : Nat) : Statement (.broadcastDelivery row rank) := fun _ h => nomatch h
theorem touchWindowExpiry (who n : Nat) : Statement (.touchWindowExpiry who n) := fun _ h => nomatch h
theorem preemption (who : Nat) : Statement (.preemption who) := fun _ h => nomatch h
theorem contextResume (who : Nat) : Statement (.contextResume who) := fun _ h => nomatch h
theorem instanceStart (who : Nat) : Statement (.instanceStart who) := fun _ h => nomatch h
theorem instanceEnd (who : Nat) : Statement (.instanceEnd who) := fun _ h => nomatch h
theorem ringClearComplete (core n : Nat) : Statement (.ringClearComplete core n) := fun _ h => nomatch h
theorem orderingLockGrant (who : Nat) : Statement (.orderingLockGrant who) := fun _ h => nomatch h
theorem matrixPathStart (who k : Nat) : Statement (.matrixPathStart who k) := fun _ h => nomatch h
theorem planeLoadEnd (who x : Nat) : Statement (.planeLoadEnd who x) := fun _ h => nomatch h
theorem matrixResultWrite (who k : Nat) : Statement (.matrixResultWrite who k) := fun _ h => nomatch h
theorem drainPush (who k : Nat) : Statement (.drainPush who k) := fun _ h => nomatch h
theorem peerReadEnd (who k : Nat) : Statement (.peerReadEnd who k) := fun _ h => nomatch h
theorem engineCommandComplete (id : Nat) : Statement (.engineCommandComplete id) := fun _ h => nomatch h
theorem exfBlockLands (id : Nat) : Statement (.exfBlockLands id) := fun _ h => nomatch h
theorem exfDeadline (id : Nat) : Statement (.exfDeadline id) := fun _ h => nomatch h
theorem lateBlockDiscard (id : Nat) : Statement (.lateBlockDiscard id) := fun _ h => nomatch h
theorem waitSatisfied (who : Nat) : Statement (.waitSatisfied who) := fun _ h => nomatch h
theorem barrierPass (who : Nat) : Statement (.barrierPass who) := fun _ h => nomatch h
theorem sleepExpiry (who : Nat) : Statement (.sleepExpiry who) := fun _ h => nomatch h
theorem powerGrant (die : Nat) : Statement (.powerGrant die) := fun _ h => nomatch h
theorem realignDone (who : Nat) : Statement (.realignDone who) := fun _ h => nomatch h
theorem realignTimeout (who : Nat) : Statement (.realignTimeout who) := fun _ h => nomatch h
theorem opticalPassStart (die : Nat) : Statement (.opticalPassStart die) := fun _ h => nomatch h
theorem opticalWindowWrite (die : Nat) : Statement (.opticalWindowWrite die) := fun _ h => nomatch h
theorem maskLoadComplete (die : Nat) : Statement (.maskLoadComplete die) := fun _ h => nomatch h
theorem captureComplete (die : Nat) (ok : Bool) : Statement (.captureComplete die ok) := fun _ h => nomatch h
theorem ringcfgWrite (core n : Nat) (v : Word) : Statement (.ringcfgWrite core n v) := fun _ h => nomatch h
theorem ringstWrite (core n : Nat) (v : Word) : Statement (.ringstWrite core n v) := fun _ h => nomatch h
theorem ctxCfgWrite (who : Nat) (v : Word) : Statement (.ctxCfgWrite who v) := fun _ h => nomatch h
theorem ctxCcfgWrite (core : Nat) (v : Word) : Statement (.ctxCcfgWrite core v) := fun _ h => nomatch h
theorem pipclr (core : Nat) (v : Word) : Statement (.pipclr core v) := fun _ h => nomatch h
theorem pipWrite (core j : Nat) (v : Word) : Statement (.pipWrite core j v) := fun _ h => nomatch h
theorem tchOpenWrite (who : Nat) (v : Word) : Statement (.tchOpenWrite who v) := fun _ h => nomatch h
theorem prtOwnWrite (part : Nat) (v : Word) : Statement (.prtOwnWrite part v) := fun _ h => nomatch h
theorem prtCtlWrite (part : Nat) (v : Word) : Statement (.prtCtlWrite part v) := fun _ h => nomatch h
theorem drawerSlotWrite (d t : Nat) (v : Word) : Statement (.drawerSlotWrite d t v) := fun _ h => nomatch h
theorem lnkRingWrite (n : Nat) (v : Word) : Statement (.lnkRingWrite n v) := fun _ h => nomatch h
theorem heaterApply (n : Nat) : Statement (.heaterApply n) := fun _ h => nomatch h
theorem monitorUpdate (n : Nat) (mhi mlo : BitVec 12) : Statement (.monitorUpdate n mhi mlo) := fun _ h => nomatch h
theorem modulatorChangeover (p j : Nat) : Statement (.modulatorChangeover p j) := fun _ h => nomatch h
theorem bootCtlWrite (v : Word) : Statement (.bootCtlWrite v) := fun _ h => nomatch h
theorem sysregWrite (srn : BitVec 32) (v : Word) : Statement (.sysregWrite srn v) := fun _ h => nomatch h
theorem taskRerun (die slot : Nat) : Statement (.taskRerun die slot) := fun _ h => nomatch h
theorem taskAbandon (die slot : Nat) : Statement (.taskAbandon die slot) := fun _ h => nomatch h
theorem commandDoorbell (q : Nat) (pi : BitVec 32) : Statement (.commandDoorbell q pi) := fun _ h => nomatch h
theorem completionDoorbell (q : Nat) (cci : BitVec 32) : Statement (.completionDoorbell q cci) := fun _ h => nomatch h
theorem hostWrite (port : Nat) (rod : Bool) (addr : Nat) (bytes : List (BitVec 8)) : Statement (.hostWrite port rod addr bytes) := fun _ h => nomatch h
theorem sessionSetup (port : Nat) (receiverCredit reliable : Bool) : Statement (.sessionSetup port receiverCredit reliable) := fun _ h => nomatch h
theorem launch (q : Nat) : Statement (.launch q) := fun _ h => nomatch h
theorem loadimg (q : Nat) : Statement (.loadimg q) := fun _ h => nomatch h
theorem unload (q : Nat) : Statement (.unload q) := fun _ h => nomatch h
theorem unloadEffect (img : Nat) : Statement (.unloadEffect img) := fun _ h => nomatch h
theorem openq (q : Nat) : Statement (.openq q) := fun _ h => nomatch h
theorem closeq (q : Nat) : Statement (.closeq q) := fun _ h => nomatch h
theorem resync (q : Nat) : Statement (.resync q) := fun _ h => nomatch h
theorem launchFetch (die q : Nat) : Statement (.launchFetch die q) := fun _ h => nomatch h
theorem spliceHoldExpiry (die : Nat) : Statement (.spliceHoldExpiry die) := fun _ h => nomatch h
theorem shareDone (die slot : Nat) : Statement (.shareDone die slot) := fun _ h => nomatch h
theorem taskCompletion (slot : Nat) : Statement (.taskCompletion slot) := fun _ h => nomatch h
theorem quantumOverrun (who : Nat) : Statement (.quantumOverrun who) := fun _ h => nomatch h
theorem speculativePreload (core : Nat) : Statement (.speculativePreload core) := fun _ h => nomatch h
theorem drawerSlot (d : Nat) : Statement (.drawerSlot d) := fun _ h => nomatch h
theorem drawerReadDataPlaced (id : Nat) : Statement (.drawerReadDataPlaced id) := fun _ h => nomatch h
theorem drawerWritePerforms (id : Nat) : Statement (.drawerWritePerforms id) := fun _ h => nomatch h
theorem stallTimeout (id : Nat) : Statement (.stallTimeout id) := fun _ h => nomatch h
theorem lockAchieved (p : Nat) (pherr : BitVec 12) : Statement (.lockAchieved p pherr) := fun _ h => nomatch h
theorem trainTimeout (p : Nat) : Statement (.trainTimeout p) := fun _ h => nomatch h
theorem parkIdle (p : Nat) : Statement (.parkIdle p) := fun _ h => nomatch h
theorem wakeThreshold (p : Nat) : Statement (.wakeThreshold p) := fun _ h => nomatch h
theorem wakeComplete (p : Nat) : Statement (.wakeComplete p) := fun _ h => nomatch h
theorem retrainTrigger (p : Nat) : Statement (.retrainTrigger p) := fun _ h => nomatch h
theorem retrainLock (p : Nat) : Statement (.retrainLock p) := fun _ h => nomatch h
theorem retrainTimeout (p : Nat) : Statement (.retrainTimeout p) := fun _ h => nomatch h
theorem rxLightLoss (p : Nat) : Statement (.rxLightLoss p) := fun _ h => nomatch h
theorem txLightLoss (p : Nat) : Statement (.txLightLoss p) := fun _ h => nomatch h
theorem switchCommandPop : Statement .switchCommandPop := fun _ h => nomatch h
theorem rotationStart : Statement .rotationStart := fun _ h => nomatch h
theorem circuitSlotGuard : Statement .circuitSlotGuard := fun _ h => nomatch h
theorem circuitSlotConnect : Statement .circuitSlotConnect := fun _ h => nomatch h
theorem sendTimeout (id : Nat) : Statement (.sendTimeout id) := fun _ h => nomatch h
theorem flitArrival (port pair rq : Nat) (seq : BitVec 32) (flit : Nat) (data : BitVec 512) (crcOk : Bool) (slack arr : Nat) : Statement (.flitArrival port pair rq seq flit data crcOk slack arr) := fun _ h => nomatch h
theorem completionNotice (port rq : Nat) (seq : BitVec 32) (flits : Nat) : Statement (.completionNotice port rq seq flits) := fun _ h => nomatch h
theorem sendAcknowledgement (id : Nat) : Statement (.sendAcknowledgement id) := fun _ h => nomatch h
theorem controlFlit (port : Nat) (seq : BitVec 32) (crcOk : Bool) (resend : Option (Nat × Nat)) : Statement (.controlFlit port seq crcOk resend) := fun _ h => nomatch h
theorem controlTimeout (p : Nat) : Statement (.controlTimeout p) := fun _ h => nomatch h
theorem railVminCrossing (die : Nat) : Statement (.railVminCrossing die) := fun _ h => nomatch h
theorem railReachesTarget (die : Nat) : Statement (.railReachesTarget die) := fun _ h => nomatch h
theorem rowsFitted (die : Nat) : Statement (.rowsFitted die) := fun _ h => nomatch h
theorem railHoldExpiry (die : Nat) : Statement (.railHoldExpiry die) := fun _ h => nomatch h
theorem frameBoundary (die : Nat) : Statement (.frameBoundary die) := fun _ h => nomatch h
theorem thermalAlert (die n : Nat) (temp : BitVec 16) : Statement (.thermalAlert die n temp) := fun _ h => nomatch h
theorem thermalTrip (die n : Nat) (temp : BitVec 16) : Statement (.thermalTrip die n temp) := fun _ h => nomatch h
theorem telemetryPoll (die : Nat) (pavg vavg : BitVec 16) : Statement (.telemetryPoll die pavg vavg) := fun _ h => nomatch h
theorem watchdogExpiry (who : Nat) : Statement (.watchdogExpiry who) := fun _ h => nomatch h
theorem coldReset (runs : List StepRun) (flash : List (List (BitVec 8))) : Statement (.coldReset runs flash) := fun _ h => nomatch h
theorem hostRead (port addr n : Nat) : Statement (.hostRead port addr n) := fun _ h => nomatch h
theorem rotationEnd : Statement .rotationEnd := fun _ h => nomatch h
theorem sensorBelowThreshold (die n : Nat) (temp : BitVec 16) : Statement (.sensorBelowThreshold die n temp) := fun _ h => nomatch h
theorem outboundPacketToken (port : Nat) : Statement (.outboundPacketToken port) := fun _ h => nomatch h
theorem powerLoss : Statement .powerLoss := fun _ h => nomatch h

end Sys2Proof.Laws.Encode
end

