-- ==== Sys2Proof/Laws/Trap.lean ====
section
/-! SUPPORT. What a rollback and a trap can do to memory and to other contexts (R35, R292, R316). -/

namespace Sys2Proof.Machine

variable {s : State}

/-! ## Memory -/

/-- An update that each step of a fold leaves alone is left alone at its end. -/
theorem foldl_keeps {α β : Type} {p : State → β} {f : State → α → State} (h : ∀ s a, p (f s a) = p s) (l : List α) (s : State) :
    p (l.foldl f s) = p s := by
  induction l generalizing s with
  | nil => rfl
  | cons a l ih => exact (ih _).trans (h s a)

@[simp] theorem State.leaveBcast_mem (w : Nat) : (s.leaveBcast w).mem = s.mem := by
  unfold State.leaveBcast
  split
  · split
    · rfl
    · rfl
  · rfl
@[simp] theorem State.endPeers_mem (w : Nat) : (s.endPeers w).mem = s.mem := by
  unfold State.endPeers
  refine foldl_keeps (p := State.mem) (fun s m => ?_) _ s
  split <;> rfl
@[simp] theorem State.closeWins_mem (w : Nat) (k : TWin → Bool) : (s.closeWins w k).mem = s.mem := by
  simp only [State.closeWins, State.modCtx_mem]
  refine foldl_keeps (p := State.mem) (fun s m => ?_) _ s
  rfl
@[simp] theorem State.dropReads_mem (w : Nat) : (s.dropReads w).mem = s.mem := rfl
/-- A rollback changes memory by putting back the undo images alone. -/
theorem State.rollback_mem (w : Nat) : (s.rollback w).mem = ((s.leaveBcast w).undoWindow w).mem := by
  simp [State.rollback]
@[simp] theorem State.hwEvent_mem (k src arg : Nat) : (s.hwEvent k src arg).mem = s.mem := by
  unfold State.hwEvent; simp only; split <;> rfl
@[simp] theorem State.dropPreload_mem (w : Nat) (pc : Word) : (s.dropPreload w pc).mem = s.mem := by
  unfold State.dropPreload
  split
  · simp only; split <;> rfl
  · rfl
@[simp] theorem State.elect_mem (c : Nat) : (s.elect c).mem = s.mem := by
  unfold State.elect; split <;> rfl
@[simp] theorem State.vacate_mem (w : Nat) : (s.vacate w).mem = s.mem := by simp [State.vacate]
@[simp] theorem State.dropInst_mem (w : Nat) : (s.dropInst w).mem = s.mem := by simp [State.dropInst]
theorem State.endInst_mem (w : Nat) (f : Option (Nat × Nat)) (k : Option Nat) : (s.endInst w f k).mem = s.mem := by
  unfold State.endInst
  split
  · rfl
  · simp only [State.dropInst_mem, State.modDie_mem]
    split <;> rfl

theorem State.Inv.rollback (h : s.Inv) (w : Nat) : (s.rollback w).Inv :=
  State.Inv.setMem (State.Inv.undoWindow (h.setMem (State.leaveBcast_mem w)) w) (State.rollback_mem w)
/-- A trap keeps memory in its canonical form. -/
theorem State.Inv.takeTrap (h : s.Inv) (w : Nat) (t : Trap) (slot : Nat) (pc : Word) : (s.takeTrap w t slot pc).Inv := by
  have hd : (s.dropPreload w pc).Inv := h.setMem (by simp)
  unfold State.takeTrap
  split
  · have h1 := h.rollback w
    simp only; split
    · refine h1.setMem ?_; rw [State.hwEvent_mem, State.modCtx_mem]
    · refine h1.setMem ?_; rw [State.modCtx_mem]
  · have h1 := hd.rollback w
    simp only; split
    · refine h1.setMem ?_
      simp only [State.hwEvent_mem, State.elect_mem, State.endInst_mem, apply_ite State.mem, State.modDie_mem, State.modCtx_mem, ite_self]
    · split
      · refine h1.setMem ?_; simp only [State.modCtx_mem]
      · refine h1.setMem ?_
        simp only [State.hwEvent_mem, State.elect_mem, State.endInst_mem, State.modCtx_mem]
theorem State.Inv.trap (h : s.Inv) (t : Trap) : (s.trap t).Inv := h.takeTrap ..

/-! ## Other contexts -/

theorem State.leaveBcast_ctx_ne {w v : Nat} (h : v ≠ w) : (s.leaveBcast w).ctx v = s.ctx v := by
  unfold State.leaveBcast
  split
  · split
    · rfl
    · simp only [State.ctx_setRow, State.ctx_modCore]; exact State.ctx_modCtx_ne _ _ h
  · rfl
@[simp] theorem State.endPeers_ctx (w v : Nat) : (s.endPeers w).ctx v = s.ctx v := by
  unfold State.endPeers
  refine foldl_keeps (p := fun s => s.ctx v) (fun s m => ?_) _ s
  split <;> rfl
@[simp] theorem State.dropReads_ctx (w v : Nat) : (s.dropReads w).ctx v = s.ctx v := rfl
theorem State.closeWins_ctx_ne {w v : Nat} (k : TWin → Bool) (h : v ≠ w) : (s.closeWins w k).ctx v = s.ctx v := by
  simp only [State.closeWins]
  refine (State.ctx_modCtx_ne _ _ h).trans ?_
  refine foldl_keeps (p := fun s => s.ctx v) (fun s m => ?_) _ s
  rfl
@[simp] theorem State.undoWindow_ctx (w v : Nat) : (s.undoWindow w).ctx v = s.ctx v := by
  unfold State.undoWindow
  refine foldl_keeps (p := fun s => s.ctx v) (fun s m => ?_) _ s
  rfl
/-- A rollback leaves every other context as it was. -/
theorem State.rollback_ctx_ne {w v : Nat} (h : v ≠ w) : (s.rollback w).ctx v = s.ctx v := by
  simp only [State.rollback]
  rw [State.ctx_modCtx_ne _ _ h, State.dropReads_ctx, State.ctx_modCore, State.closeWins_ctx_ne _ h, State.endPeers_ctx,
    State.undoWindow_ctx, State.leaveBcast_ctx_ne h]

end Sys2Proof.Machine
end

