-- ==== Sys2Proof/Laws/Vector.lean ====
section
/-! SUPPORT. What the shared operations of the vector slots do: packed elements, writes of lanes, of masks and of queue
entries. -/

namespace Sys2Proof.Machine

/-! ## Packed elements -/

theorem packElems_lt (w : Nat) (l : List Nat) : packElems w l < 2 ^ (w * l.length) := by
  induction l with
  | nil => simp [packElems]
  | cons x r ih =>
    have h1 : x % 2 ^ w < 2 ^ w := Nat.mod_lt _ (Nat.two_pow_pos w)
    calc packElems w (x :: r) = x % 2 ^ w + packElems w r * 2 ^ w := rfl
      _ < 2 ^ w + packElems w r * 2 ^ w := by omega
      _ = (packElems w r + 1) * 2 ^ w := by ring
      _ ≤ 2 ^ (w * r.length) * 2 ^ w := Nat.mul_le_mul_right _ ih
      _ = 2 ^ (w * (x :: r).length) := by rw [← pow_add, List.length_cons]; ring_nf

/-- The element that packing put in a place. -/
theorem elemAt_packElems (w : Nat) (l : List Nat) (i : Nat) (h : i < l.length) : elemAt (packElems w l) w i = l[i] % 2 ^ w := by
  induction l generalizing i with
  | nil => simp at h
  | cons x r ih =>
    cases i with
    | zero => simp [elemAt, packElems]
    | succ i =>
      have hi : i < r.length := by simpa using h
      have hx : x % 2 ^ w < 2 ^ w := Nat.mod_lt _ (Nat.two_pow_pos w)
      have : packElems w (x :: r) >>> ((i + 1) * w) = packElems w r >>> (i * w) := by
        rw [Nat.add_mul, Nat.one_mul, Nat.add_comm, Nat.shiftRight_add]
        congr 1
        rw [Nat.shiftRight_eq_div_pow, packElems, Nat.add_mul_div_right _ _ (Nat.two_pow_pos w), Nat.div_eq_of_lt hx, Nat.zero_add]
      simpa [elemAt, this] using ih i hi
/-- The element that packing a function of the index put in a place. -/
theorem elemAt_pack_range (w n : Nat) (f : Nat → Nat) (i : Nat) (h : i < n) :
    elemAt (packElems w ((List.range n).map f)) w i = f i % 2 ^ w := by
  rw [elemAt_packElems _ _ _ (by simpa using h)]
  simp

/-- Which flags a run of results gathers. -/
theorem foldl_or_getLsbD (l : List (BitVec 7)) (a : BitVec 7) (k : Nat) :
    (l.foldl (fun x y => x ||| y) a).getLsbD k = true ↔ a.getLsbD k = true ∨ ∃ y ∈ l, y.getLsbD k = true := by
  induction l generalizing a with
  | nil => simp
  | cons x r ih => simp [ih, or_assoc]

/-! ## Writes of lanes -/

variable {s : State} {c : VC}

@[simp] theorem State.occupy_me (n : Nat) : (s.occupy n).me = s.me := rfl
@[simp] theorem State.occupy_guard (n : Nat) (g : Guard) : (s.occupy n).guard g = s.guard g := rfl
@[simp] theorem State.occupy_on (n i : Nat) : (s.occupy n).on c i = s.on c i := rfl
@[simp] theorem State.occupy_mem (n : Nat) : (s.occupy n).mem = s.mem := rfl
@[simp] theorem State.occupy_ctx (n v : Nat) : (s.occupy n).ctx v = s.ctx v := rfl

/-- A lane is off under a false guard. -/
theorem State.on_false (h : s.guard c.g = false) (i : Nat) : s.on c i = false := by simp [State.on, h]

/-- Under a false guard a write of lanes takes the unit and nothing else. -/
theorem vput_off (lat occ : Nat) (vw : View) (vd : BitVec 11) (w n : Nat) (f : Nat → Nat × BitVec 7) (h : s.guard c.g = false) :
    vput c lat occ vw vd w n f s = s.occupy occ := by
  simp [vput, h]
theorem laneBits_lt (w : Nat) (l : List Bool) : laneBits w l < 2 ^ (w * l.length) := by
  simpa [laneBits] using packElems_lt w (l.map fun b => if b then ones w else 0)
/-- The flags that a run of results sets. -/
theorem flagsOf_range (n : Nat) (p : Nat → Bool) (f : Nat → Nat × BitVec 7) :
    flagsOf n p f (((List.range n).map fun i => if p i then some (f i) else none).foldl
      (fun a o => match o with | some r => a ||| r.2 | none => a) 0) := by
  intro k
  have h : ∀ (l : List Nat) (a : BitVec 7), (((l.map fun i => if p i then some (f i) else none).foldl
      (fun a o => match o with | some r => a ||| r.2 | none => a) a).getLsbD k = true ↔
        a.getLsbD k = true ∨ ∃ i ∈ l, p i = true ∧ (f i).2.getLsbD k = true) := by
    intro l
    induction l with
    | nil => simp
    | cons x r ih =>
      intro a
      by_cases hx : p x = true
      · simp [ih, hx, or_assoc]
      · simp [ih, hx]
  simpa using h (List.range n) 0
/-- Under a true guard a write of lanes does exactly what `State.Lanes` says. -/
theorem vput_lanes (lat occ : Nat) (vw : View) (vd : BitVec 11) (w n : Nat) (f : Nat → Nat × BitVec 7) (h : s.guard c.g = true) :
    s.Lanes (vput c lat occ vw vd w n f s) c lat occ vw vd w n f := by
  simp only [vput, State.occupy_guard, State.occupy_on, h, Bool.not_true, Bool.false_eq_true, if_false]
  refine ⟨_, _, _, State.setFlags_post_issued (s.occupy occ) _ _ _ _ _ _, ?_, flagsOf_range n (s.on c) f, fun i hi => ⟨?_, fun ho => ?_⟩⟩
  · exact (laneBits_lt w _).trans_eq (by simp)
  · rw [laneBits, List.map_map, List.map_map, elemAt_pack_range _ _ _ _ hi]
    by_cases ho : s.on c i = true
    · simp only [Function.comp, ho, if_true, Option.isSome_some]
      exact Nat.mod_eq_of_lt (by simp [ones])
    · simp [ho]
  · rw [List.map_map, elemAt_pack_range _ _ _ _ hi]
    simp [ho]
/-- What an operation on lanes does, from its one equation. -/
theorem laneOp_of {i : Instr} {lat occ : Nat} {vw : View} {vd : BitVec 11} {w n : Nat} {f : Nat → Nat × BitVec 7}
    (h : exec i s = .next (vput c lat occ vw vd w n f s)) : s.LaneOp i c lat occ vw vd w n f :=
  ⟨fun g => by rw [h, vput_off _ _ _ _ _ _ _ g], fun g => ⟨_, h, vput_lanes _ _ _ _ _ _ _ g⟩⟩
/-- Lane functions that agree below the lane count are one. -/
theorem State.LaneOp.congr {i : Instr} {lat occ : Nat} {vw : View} {vd : BitVec 11} {w n : Nat} {f g : Nat → Nat × BitVec 7}
    (h : s.LaneOp i c lat occ vw vd w n f) (e : ∀ k, k < n → f k = g k) : s.LaneOp i c lat occ vw vd w n g := by
  refine ⟨h.1, fun hg => ?_⟩
  obtain ⟨t, ht, v, bm, fl, h1, h2, h3, h4⟩ := h.2 hg
  refine ⟨t, ht, v, bm, fl, h1, h2, fun k => (h3 k).trans ⟨?_, ?_⟩, fun k hk => ⟨(h4 k hk).1, fun ho => e k hk ▸ (h4 k hk).2 ho⟩⟩
  · rintro ⟨i, hi, h⟩; exact ⟨i, hi, e i hi ▸ h⟩
  · rintro ⟨i, hi, h⟩; exact ⟨i, hi, (e i hi).symm ▸ h⟩

end Sys2Proof.Machine
end

