-- ==== Sys2Proof/Tests/Slice0.lean ====
section
/-! SUPPORT. Tests: what is ill-formed is refused, words written out from the specification's encodings decode, the
hypotheses of every statement can be met, and small steps give what the specification's examples say. -/

set_option Elab.async false
set_option maxRecDepth 8000
set_option exponentiation.threshold 300000

namespace Sys2Proof.Tests

open Sys2Proof.Machine

/-! ## Well-formedness: one ill-formed term for each check -/

/-- A guard that always holds, the forbidden negated p0, and plain fields of each form. -/
abbrev on : Guard := ⟨0, false⟩
abbrev never : Guard := ⟨0, true⟩
abbrev vc (t : ETy) : VC := ⟨on, 0, t, false, 0⟩
abbrev at0 : MemArg := ⟨0, 0, false, 0, 0⟩
abbrev cmd0 : ECmd := ⟨on, 0, 0, 0, false, 0, false⟩
abbrev y0 : YArg := ⟨on, 0, 0, 0⟩
def illFormed (l : List Instr) : Bool := l.all fun i => !wf i

theorem test_wf_guard : illFormed [.add never 1 2 3, .fence never 1, .cpIn { cmd0 with g := never }, .vadd { vc .n8 with g := never } 1 2 (.reg 3),
  .mtr never 1 2, .rpop never 0 1 2, .bar { y0 with g := never }] = true := by decide
theorem test_wf_scalar_fields : illFormed [.sext on 1 2 0, .sext on 1 2 65, .zext on 1 2 0, .zext on 1 2 65, .wid on 1 7, .wid on 1 14,
  .wid on 1 22, .rank on 1 4, .csrr on 1 0, .csrr on 1 5, .csrw on 0x10 1] = true := by decide
theorem test_wf_scalar_floats : illFormed [.fadd on 5 .fp32 1 2 3, .fsub on 0 .n32 1 2 3, .fmul on 7 .fp16 1 2 3, .ffma on 6 .bf16 1 2 3 4,
  .fcmp on .eq .s32 1 2 3, .fcvt on 5 .fp32 .s64 1 2, .fcvt on 0 .n32 .s64 1 2, .fcvt on 0 .n16 .fp32 1 2] = true := by decide
theorem test_wf_system : illFormed [.tlbinv on 3 1 2 3] = true := by decide
theorem test_wf_vector_mask_and_rounding : illFormed [.vnot { vc .n8 with ms := 1 } 1 2, .vadd { vc .fp32 with rm := 5 } 1 2 (.reg 3),
  .vadd { vc .n8 with rm := 1 } 1 2 (.reg 3), .vabs { vc .s8 with rm := 1 } 1 2, .vexp2 { vc .fp32 with rm := 5 } 1] = true := by decide
theorem test_wf_vector_types : illFormed [.vmulh (vc .fp32) 1 2 (.reg 3), .vsar (vc .n8) 1 2 (.reg 3), .vabs (vc .n8) 1 2, .vabs (vc .fp64) 1 2,
  .vneg (vc .fp64) 1 2, .vcmp (vc .n8) .un 1 2 (.reg 3), .vsel (vc .fp32) 1 2 3 4, .vlog2 (vc .n32) 1, .vcmul (vc .fp64) false 1 2 (.reg 3),
  .vbin (vc .n4) 0 1 2 3 4, .vpip (vc .s4) 1, .vtrn (vc .n4) 1 2, .vlane (vc .fp16) 1 2, .vmov (vc .fp32) 1 2] = true := by decide
theorem test_wf_conversions : illFormed [.vcvt (vc .fp32) .s64 1 2, .vcvt (vc .n32) .n32 1 2, .vcvt { vc .n32 with rm := 1 } .s32 1 2,
  .vwiden (vc .n16) .n16 1 2, .vwiden (vc .n64) .n4 1 2, .vwiden (vc .n64) .fp32 1 2, .vwiden { vc .fp32 with rm := 1 } .fp16 1 2,
  .vnarrow (vc .n16) .n8 false 1 2, .vnarrow (vc .fp16) .fp32 true 1 2, .vnarrow { vc .n8 with rm := 1 } .n16 true 1 2,
  .vnarrow { vc .n8 with rm := 1 } .n16 false 1 2, .vnarrow { vc .fp16 with rm := 5 } .fp32 false 1 2,
  .vmaxe (vc .fp32) 3 0 1, .vmaxe (vc .fp16) 0 3 1, .vqcvt (vc .n8) 0 1 2 3 4, .vdeq { vc .fp16 with rm := 5 } 0 1 2 3 4] = true := by decide
theorem test_wf_vector_modifiers : illFormed [.vred (vc .n8) 3 1, .vscan { vc .n8 with rm := 1 } 0 1, .vred (vc .fp64) 0 1,
  .vred { vc .fp32 with rm := 1 } 1 2, .vscan { vc .fp32 with rm := 5 } 0 1, .vtrn { vc .n8 with me := true } 1 2,
  .vzip { vc .n8 with me := true } 1 2 3, .vunzip { vc .n8 with me := true } 1 2, .vbin (vc .n8) 15 1 2 3 49, .vpipRead (vc .s32) 1,
  .vpipRead { vc .n32 with me := true } 1, .vmovi (vc .n8) 1 256, .vmovi (vc .fp64) 1 0, .vqpop { vc .n8 with rm := 1 } 1 2 false false,
  .vqpop (vc .fp64) 1 2 false false] = true := by decide
theorem test_wf_matrix : illFormed [.mxs on 0 1, .mmul on 5 0 0 0 1 2 3, .mmulz on 5 0 0 0 1 2 3, .mcmul on 5 0 0 false 0 1 2 3,
  .mmulp on 5 0 0 0 false false 0 1 2 0, .mmulp on 0 0 0 0 false false 0 1 2 3, .mdrain on 5 0 false 1 0 3, .mdrain on 0 0 false 1 2 3] = true := by decide
theorem test_wf_memory : illFormed [.ldT on 0 1 { at0 with cl := 1 } false false 0, .ldT on 0 1 at0 true false 0, .ldV on 1 1 at0 false false,
  .ldV on 5 1 at0 false true, .ldS on 0 1 at0 true false false, .ldS on 0 1 at0 false false true, .stT on 1 1 at0 false false 0,
  .stV on 0 1 at0 true false, .stS on 0 1 at0 true false, .ldG on 1 { at0 with cl := 1 }, .stSc on 1 { at0 with cl := 1 },
  .amo on 7 false 0 1 at0, .amo on 0 false 6 1 at0, .amo on 0 false 0 1 { at0 with cl := 1 }, .ldSp on true 1 8, .ldSp on true 1 0x3F00,
  .ldSp on false 1 4, .stSp on false 64 8, .rsel on 0 1 2 3 3] = true := by decide
theorem test_wf_engine_and_sync : illFormed [.cpIn { cmd0 with cl := 1 }, .ofcCap { cmd0 with lb := 1 }, .ofr { cmd0 with la := 1 } false,
  .send { cmd0 with lb := 1 }, .recvArm { cmd0 with la := 1 }, .sig { y0 with sc := 6 } false, .wait y0 3, .wait { y0 with sc := 7 } 0,
  .bar { y0 with sc := 6 }] = true := by decide
/-- Plain forms of the same are well-formed. -/
theorem test_wf_accepts : [Instr.add on 1 2 3, .sext on 1 2 64, .wid on 1 21, .fadd on 4 .fp64 1 2 3, .vadd (vc .fp32) 1 2 (.reg 3), .vmaxe (vc .fp32) 2 3 1,
  .vbin (vc .n8) 15 1 2 3 48, .mmulp on 0 0 0 0 false true 0 1 2 3, .ldSp on true 1 0x3E00, .amo on 6 false 5 1 at0, .bar y0].all wf = true := by decide


/-! ## Decoding: words written out field by field from the encoding tables -/

abbrev g : Guard := ⟨6, true⟩
def reads (l : List (Kind × BitVec 80 × Instr)) : Bool := l.all fun p => (decode p.1 p.2.1).toOption == some p.2.2

theorem test_decode_scalar : reads
    [(.s, 0x0000000000002E445B01, .add g 5 17 46),
     (.s, 0x0000000000002E445B02, .sub g 5 17 46),
     (.s, 0x0000000000002E445B03, .mul g 5 17 46),
     (.s, 0x0000000000002E445B04, .mulh g 5 17 46),
     (.s, 0x0000000000002E445B05, .mulhn g 5 17 46),
     (.s, 0x0000000000002E445B0A, .and g 5 17 46),
     (.s, 0x0000000000002E445B0B, .or g 5 17 46),
     (.s, 0x0000000000002E445B0C, .xor g 5 17 46),
     (.s, 0x0000000000002E445B0D, .andn g 5 17 46),
     (.s, 0x0000000000002E445B0E, .shl g 5 17 46),
     (.s, 0x0000000000002E445B0F, .shr g 5 17 46),
     (.s, 0x0000000000002E445B10, .sar g 5 17 46),
     (.s, 0x0000000000002E445B11, .min g 5 17 46),
     (.s, 0x0000000000002E445B12, .max g 5 17 46),
     (.s, 0x0000000000002E445B13, .minn g 5 17 46),
     (.s, 0x0000000000002E445B14, .maxn g 5 17 46),
     (.s, 0x0000000000002E440B06, .div g 17 46),
     (.s, 0x0000000000002E440B07, .divn g 17 46),
     (.s, 0x0000000000002E440B08, .rem g 17 46),
     (.s, 0x0000000000002E440B09, .remn g 17 46),
     (.s, 0x00000000000000445B15, .clz g 5 17),
     (.s, 0x00000000000000445B16, .popc g 5 17),
     (.s, 0x00000000200000445B17, .sext g 5 17 64),
     (.s, 0x00000000108000445B18, .zext g 5 17 33),
     (.s, 0x00000000000000445B19, .mov g 5 17),
     (.s, 0x0000000004802E445B1A, .sel g 5 9 17 46),
     (.s, 0x0000000002802E44DB1B, .cmp g .len 13 17 46),
     (.s, 0x0000000000000E2CDB1C, .pand g 13 11 14),
     (.s, 0x0000000000000E2CDB1D, .por g 13 11 14),
     (.s, 0x0000000000000E2CDB1E, .pxor g 13 11 14),
     (.s, 0x000000000000002CDB1F, .pnot g 13 11),
     (.s, 0x00008123456789445B20, .addi g 5 17 0x8123456789),
     (.s, 0x00008123456789005B21, .li g 5 0x8123456789),
     (.s, 0x00000000FEDCBA445B22, .lih g 5 17 0xFEDCBA),
     (.s, 0x0000000005B02E445B28, .fadd g 3 .fp64 5 17 46),
     (.s, 0x0000000005402E445B29, .fsub g 4 .fp32 5 17 46),
     (.s, 0x0000000004902E445B2A, .fmul g 1 .bf16 5 17 46),
     (.s, 0x000000000428EE445B2B, .ffma g 2 .fp16 5 17 46 35),
     (.s, 0x0000000025002E44DB2C, .fcmp g .un .fp32 13 17 46),
     (.s, 0x000000003D2000445B2D, .fcvt g 2 .fp32 .s64 5 17)] = true := by decide

theorem test_decode_control : reads
    [(.s, 0x00008765432000000B30, .br g 0x8765432),
     (.s, 0x000087654320EE440B31, .bc g .ltn 17 46 0x8765432),
     (.s, 0x00008765432000005B32, .call g 5 0x8765432),
     (.s, 0x00000000000000440B33, .ret g 17),
     (.s, 0x0000000000002E440B34, .jmpi g 17 46),
     (.s, 0x00008765432000005B35, .loop g 5 0x8765432),
     (.s, 0x0000FEDCBA9876000B36, .brk g 0xFEDCBA9876),
     (.s, 0x0000FEDCBA9876000B37, .trap g 0xFEDCBA9876),
     (.s, 0x00000000000000000B38, .halt g),
     (.s, 0x00000000000000446B40, .ibw g 6 17),
     (.s, 0x00000000010000440B41, .vwr g .t 17),
     (.s, 0x000000000A8000005B42, .wid g 5 21),
     (.s, 0x00000000018000005B43, .rank g 5 3),
     (.s, 0x0000000005000D005B44, .qpop g 5 13 2 true),
     (.s, 0x00000000088000005B45, .csrr g 5 0x11),
     (.s, 0x00000000020000440B46, .csrw g 4 17)] = true := by decide

theorem test_decode_system : reads
    [(.s, 0x000000007F0000445B70, .sysrd g 5 17 0xFE),
     (.s, 0x000000007F002E440B71, .syswr g 17 46 0xFE),
     (.s, 0x00000000000000000B72, .eret g),
     (.s, 0x000000000108EE440B73, .tlbinv g 2 17 46 35),
     (.s, 0x0000000000002E440B74, .keyld g 17 46),
     (.s, 0x0000000000802E440B74, .keyldErase g 17 46),
     (.s, 0x0000000000002E44DB75, .slotmap g 13 17 46),
     (.s, 0x0000000000002E44DB76, .ctxsave g 13 17 46),
     (.s, 0x0000000000002E44DB77, .ctxrest g 13 17 46),
     (.s, 0x0000000000002E44DB78, .swpat g 13 17 46),
     (.s, 0x0000000000002E440B79, .vote g 17 46),
     (.s, 0x0000000000002E440B7A, .swq g 17 46),
     (.s, 0x0000000000000044DB7B, .lnkTrain g 13 17),
     (.s, 0x0000000000800044DB7B, .lnkPark g 13 17),
     (.s, 0x0000000001000044DB7B, .lnkWake g 13 17),
     (.s, 0x0000000001800044DB7B, .lnkRetrain g 13 17),
     (.s, 0x0000000002000044DB7B, .lnkDown g 13 17),
     (.s, 0x0000000002800044DB7B, .lnkEnable g 13 17),
     (.s, 0x0000000000800D005B7C, .evqPop g 5 13 true),
     (.s, 0x00000000000000440B7D, .olkAcq g 17),
     (.s, 0x00000000000000440B7E, .olkRel g 17),
     (.s, 0x00000000008000445B7F, .tstate g 5 17 true)] = true := by decide

theorem test_decode_vector : reads
    [(.v, 0x000D000B11D3D05B9601, .vadd ⟨g, 4, .fp64, true, 5⟩ 0x505 0x3A7 (.reg 0x2C4)),
     (.v, 0x82AD000001D3D0583602, .vsub ⟨g, 1, .fp16, true, 5⟩ 0x505 0x3A7 (.sc 42)),
     (.v, 0x000D000B11D3D0597603, .vmul ⟨g, 3, .bf16, true, 5⟩ 0x505 0x3A7 (.reg 0x2C4)),
     (.v, 0x000D000B11D3D0571604, .vmulh ⟨g, 0, .s64, true, 5⟩ 0x505 0x3A7 (.reg 0x2C4)),
     (.v, 0x000D222B11D3D05A5605, .vfma ⟨g, 2, .fp32, true, 5⟩ 0x505 0x3A7 (.reg 0x2C4) 0x111),
     (.v, 0x82AD222001D3D0511606, .vfms ⟨g, 0, .s8, true, 5⟩ 0x505 0x3A7 (.sc 42) 0x111),
     (.v, 0x000D000001D3D05C1607, .vabs ⟨g, 0, .s4, true, 5⟩ 0x505 0x3A7),
     (.v, 0x000D000001D3D05D1608, .vneg ⟨g, 0, .n4, true, 5⟩ 0x505 0x3A7),
     (.v, 0x000D000B11D3D0521609, .vmin ⟨g, 0, .n16, true, 5⟩ 0x505 0x3A7 (.reg 0x2C4)),
     (.v, 0x82AD000001D3D055160A, .vmax ⟨g, 0, .s32, true, 5⟩ 0x505 0x3A7 (.sc 42)),
     (.v, 0x000D000B11D3D050160B, .vaddsat ⟨g, 0, .n8, true, 5⟩ 0x505 0x3A7 (.reg 0x2C4)),
     (.v, 0x000D000B11D3D053160C, .vsubsat ⟨g, 0, .s16, true, 5⟩ 0x505 0x3A7 (.reg 0x2C4)),
     (.v, 0x000D000B11D3D0541610, .vand ⟨g, 0, .n32, true, 5⟩ 0x505 0x3A7 (.reg 0x2C4)),
     (.v, 0x000D000B11D3D0561611, .vor ⟨g, 0, .n64, true, 5⟩ 0x505 0x3A7 (.reg 0x2C4)),
     (.v, 0x82AD000001D3D0511612, .vxor ⟨g, 0, .s8, true, 5⟩ 0x505 0x3A7 (.sc 42)),
     (.v, 0x000D000001D3D0501613, .vnot ⟨g, 0, .n8, true, 5⟩ 0x505 0x3A7),
     (.v, 0x000D000B11D3D0521614, .vshl ⟨g, 0, .n16, true, 5⟩ 0x505 0x3A7 (.reg 0x2C4)),
     (.v, 0x82AD000001D3D0541615, .vshr ⟨g, 0, .n32, true, 5⟩ 0x505 0x3A7 (.sc 42)),
     (.v, 0x000D000B11D3D0531616, .vsar ⟨g, 0, .s16, true, 5⟩ 0x505 0x3A7 (.reg 0x2C4)),
     (.v, 0x0C0D000B11D3806A1618, .vcmp ⟨g, 0, .fp32, true, 5⟩ .le 6 0x3A7 (.reg 0x2C4)),
     (.v, 0x8AAD000001D380601618, .vcmp ⟨g, 0, .n8, true, 5⟩ .lt 6 0x3A7 (.sc 42)),
     (.v, 0x000D00EB11D3D0521619, .vsel ⟨g, 0, .n16, true, 5⟩ 0x505 0x3A7 0x2C4 7),
     (.v, 0x140D000001D3D05A9620, .vcvt ⟨g, 4, .fp32, true, 5⟩ .s32 0x505 0x3A7),
     (.v, 0x040D000001D3D0571621, .vwiden ⟨g, 0, .s64, true, 5⟩ .s8 0x505 0x3A7),
     (.v, 0x500D000001D3D0521622, .vnarrow ⟨g, 0, .n16, true, 5⟩ .n32 true 0x505 0x3A7),
     (.v, 0x2C0D000001D3D0597622, .vnarrow ⟨g, 3, .bf16, true, 5⟩ .fp64 false 0x505 0x3A7),
     (.v, 0x240D000001D3800A1623, .vmaxe ⟨g, 0, .fp32, true, 5⟩ 1 2 0x3A7),
     (.v, 0x96AD000B11D3D0585624, .vqcvt ⟨g, 2, .fp16, true, 5⟩ 37 0x505 0x3A7 0x2C4 42),
     (.v, 0xEAAD000B11D3D0593625, .vdeq ⟨g, 1, .bf16, true, 5⟩ 58 0x505 0x3A7 0x2C4 42),
     (.v, 0x000D000001D3800A1628, .vexp2 ⟨g, 0, .fp32, true, 5⟩ 0x3A7),
     (.v, 0x000D000001D3800A3629, .vlog2 ⟨g, 1, .fp32, true, 5⟩ 0x3A7),
     (.v, 0x000D000001D3800A562A, .vrcp ⟨g, 2, .fp32, true, 5⟩ 0x3A7),
     (.v, 0x000D000001D3800A762B, .vrsq ⟨g, 3, .fp32, true, 5⟩ 0x3A7),
     (.v, 0x000D000001D3800A962C, .vsqrt ⟨g, 4, .fp32, true, 5⟩ 0x3A7),
     (.v, 0x000D000001D3800A162D, .vtanh ⟨g, 0, .fp32, true, 5⟩ 0x3A7),
     (.v, 0x000D000001D3800A362E, .vsincos ⟨g, 1, .fp32, true, 5⟩ 0x3A7)] = true := by decide

theorem test_decode_vector2 : reads
    [(.v, 0x040D000B11D3D0583630, .vcmul ⟨g, 1, .fp16, true, 5⟩ true 0x505 0x3A7 (.reg 0x2C4)),
     (.v, 0x86AD000001D3D05A5631, .vcmac ⟨g, 2, .fp32, true, 5⟩ true 0x505 0x3A7 (.sc 42)),
     (.v, 0x080D000001D380051632, .vred ⟨g, 0, .s32, true, 5⟩ 2 0x3A7),
     (.v, 0x000D000001D3800A7633, .vscan ⟨g, 3, .fp32, true, 5⟩ 0 0x3A7),
     (.v, 0x000D000B11D3D05D1638, .vperm ⟨g, 0, .n4, true, 5⟩ 0x505 0x3A7 0x2C4),
     (.v, 0x02AD0000000050501639, .vbcast ⟨g, 0, .n8, true, 5⟩ 0x505 42),
     (.v, 0x06AD000001D3D0531639, .vbcastLane ⟨g, 0, .s16, true, 5⟩ 0x505 0x3A7 42),
     (.v, 0x02AD000001D3D056163A, .vrot ⟨g, 0, .n64, true, 5⟩ 0x505 0x3A7 42),
     (.v, 0x0000000001D3D052163B, .vtrn ⟨g, 0, .n16, false, 0⟩ 0x505 0x3A7),
     (.v, 0x0000000B11D3D051163C, .vzip ⟨g, 0, .s8, false, 0⟩ 0x505 0x3A7 0x2C4),
     (.v, 0x0000000001D3D054163D, .vunzip ⟨g, 0, .n32, false, 0⟩ 0x505 0x3A7),
     (.v, 0x3F0D000B11D3D0501640, .vbin ⟨g, 0, .n8, true, 5⟩ 15 0x505 0x3A7 0x2C4 48),
     (.v, 0x000D000001D380021641, .vpip ⟨g, 0, .n16, true, 5⟩ 0x3A7),
     (.v, 0x040D000B11D380051641, .vpipBy ⟨g, 0, .s32, true, 5⟩ 0x3A7 0x2C4),
     (.v, 0x08000000000050541641, .vpipRead ⟨g, 0, .n32, false, 0⟩ 0x505),
     (.v, 0x000D000001D3D0561648, .vmov ⟨g, 0, .n64, true, 5⟩ 0x505 0x3A7),
     (.v, 0x07FD0000000050501648, .vmovPop ⟨g, 0, .n8, true, 5⟩ 0x505 63),
     (.v, 0x0BFD000001D380001648, .vmovPush ⟨g, 0, .n8, true, 5⟩ 63 0x3A7),
     (.v, 0x000D7F6E5D4C50571649, .vmovi ⟨g, 0, .s64, true, 5⟩ 0x505 0xFEDCBA98),
     (.v, 0x0C0D00000006D058164A, .vqpop ⟨g, 0, .fp16, true, 5⟩ 0x505 13 true true),
     (.v, 0x02AD000000005052164B, .vlane ⟨g, 0, .n16, true, 5⟩ 0x505 42),
     (.v, 0x000D000000035050164C, .vpmov ⟨g, 0, .n8, true, 5⟩ 0x505 6),
     (.v, 0x040D000001D3806D164C, .vpmovTomask ⟨g, 0, .n4, true, 5⟩ 6 0x3A7)] = true := by decide

theorem test_decode_matrix : reads
    [(.m, 0x00000000520000000581, .mcfg g 41),
     (.m, 0x000000100000396A4582, .mpre g 1 14 41 22),
     (.m, 0x0000003A0A0000000583, .mxs g 3 0x505),
     (.m, 0x000000500141796A6584, .mmul g 4 1 2 14 0x505 41 22),
     (.m, 0x000000600141796A4D85, .mmulz g 1 0 3 14 0x505 41 22),
     (.m, 0x00000DD00341796A5586, .mmulp g 2 1 2 11 true true 14 0x505 41 22),
     (.m, 0x000000D00141796A5D87, .mcmul g 3 1 2 true 14 0x505 41 22),
     (.m, 0x00000070014140000588, .mclr g 7 0x505),
     (.m, 0x000000074F4140000589, .mbias g 0x505 0x3A7),
     (.m, 0x000006574E00016A558A, .mdrain g 2 37 true 0x3A7 41 22),
     (.m, 0x000000074F414000058B, .mtr g 0x505 0x3A7)] = true := by decide

theorem test_decode_memory : reads
    [(.ld, 0x0000E77DDFBA69682D81, .ldT g 3 0x505 ⟨0xA5, 41, true, 11, 0xBEEF⟩ true true 2),
     (.ld, 0x0000497DDFBA69682D82, .ldV g 4 0x505 ⟨0xA5, 41, true, 11, 0xBEEF⟩ false true),
     (.ld, 0x0000D17DDFBA69414D83, .ldS g 0 41 ⟨0xA5, 41, true, 11, 0xBEEF⟩ true true true),
     (.ld, 0x0000017DDFBA69682D84, .ldG g 0x505 ⟨0xA5, 41, true, 11, 0xBEEF⟩),
     (.ld, 0x0000117DDE0A69400585, .tch g 0xA5 41 0xBEEF true),
     (.ld, 0x00000000001F80282D86, .ldSp g true 0x505 0x3E00),
     (.ld, 0x0000000000800A682D88, .rpop g 2 0x505 41),
     (.ld, 0x0000000000F56A682D89, .rsel g 3 0x505 13 41 22),
     (.ld, 0x0000000000740A682D8A, .rpeek g 1 0x505 13 41),
     (.st, 0x0000F57DDFBA69682D81, .stT g 2 0x505 ⟨0xA5, 41, true, 11, 0xBEEF⟩ true true 3),
     (.st, 0x0000437DDFBA69682D82, .stV g 1 0x505 ⟨0xA5, 41, true, 11, 0xBEEF⟩ false true),
     (.st, 0x0000C97DDFBA69414D83, .stS g 4 41 ⟨0xA5, 41, true, 11, 0xBEEF⟩ true true),
     (.st, 0x0000017DDFBA69682D84, .stSc g 0x505 ⟨0xA5, 41, true, 11, 0xBEEF⟩),
     (.st, 0x0000CB7DDFBA69414D85, .amo g 4 true 5 41 ⟨0xA5, 41, true, 11, 0xBEEF⟩),
     (.st, 0x00000000000FFE014D86, .stSp g false 41 0x3FF8),
     (.st, 0x0000000000400A682D88, .rpush g 1 41 0x505)] = true := by decide

theorem test_decode_engine : reads
    [(.e, 0x0000000080295AA5DD81, .cpIn ⟨g, 165, 90, 41, true, 11, true⟩),
     (.e, 0x0000000000295AA5DD82, .cpOut ⟨g, 165, 90, 41, true, 11, false⟩),
     (.e, 0x0000000090295AA5DD83, .cpPeer ⟨g, 165, 90, 41, true, 11, true⟩ true),
     (.e, 0x00000000802900A5DD84, .cpPf ⟨g, 165, 0, 41, true, 11, true⟩),
     (.e, 0x00000000802900A5DD88, .send ⟨g, 165, 0, 41, true, 11, true⟩),
     (.e, 0x0000000080295A00DD89, .recvArm ⟨g, 0, 90, 41, true, 11, true⟩),
     (.e, 0x0000000085A95AA5DD98, .exf ⟨g, 165, 90, 41, true, 11, true⟩ 22),
     (.e, 0x0000000000295AA5DD90, .ofx ⟨g, 165, 90, 41, true, 11, false⟩),
     (.e, 0x00000000902900A5DD91, .ofm ⟨g, 165, 0, 41, true, 11, true⟩ 1),
     (.e, 0x0000000080290000DD92, .ofcCap ⟨g, 0, 0, 41, true, 11, true⟩),
     (.e, 0x0000000090295A00DD92, .ofcRd ⟨g, 0, 90, 41, true, 11, true⟩),
     (.e, 0x00000000A0295A00DD92, .ofcTab ⟨g, 0, 90, 41, true, 11, true⟩),
     (.e, 0x0000000090290000DD93, .ofr ⟨g, 0, 0, 41, true, 11, true⟩ true)] = true := by decide

theorem test_decode_sync : reads
    [(.y, 0x000000000000108422C1, .fence g 0x8421),
     (.y, 0x0000000000000D34B6C2, .sig ⟨g, 5, 0xA5, 41⟩ true),
     (.y, 0x0000000000001534B6C3, .wait ⟨g, 5, 0xA5, 41⟩ 2),
     (.y, 0x0000000000000534B6C4, .bar ⟨g, 5, 0xA5, 41⟩),
     (.y, 0x000000000000F00522C5, .rwait g true 14 41),
     (.y, 0x000000000000000002C6, .yield g),
     (.y, 0x000000000000052002C7, .sleep g 41),
     (.y, 0x000000000000052002C8, .pwrAcq g 41),
     (.y, 0x000000000000000002C9, .pwrRel g),
     (.y, 0x000000000000052002CA, .realign g 41)] = true := by decide

/-! ## The hypotheses of the statements can be met, each clause at the ends of its range -/

/-- A guard that never holds at reset. -/
abbrev off : Guard := ⟨1, false⟩
/-- Context 0 at a privilege level with these scalar registers. -/
def ctxAt (lvl : BitVec 2) (l : List (Nat × Word)) : Ctx := { priv := lvl, ctl := { s := l }, hold := false }
def user (l : List (Nat × Word)) : State := { ctxs := [(0, ctxAt 0 l)] }
def supervisor (l : List (Nat × Word)) : State := { ctxs := [(0, ctxAt 1 l)] }
/-- The firmware core with these scalar registers: level 2. -/
def firmware (l : List (Nat × Word)) : State := { ctxs := [(1024, ctxAt 0 l)], cur := { who := 1024 } }
/-- An instance as a launch leaves it, of task 7. -/
def inst0 : Inst := { plainInst 0 with taskno := 7, limit := 4 }
def entries (n : Nat) : List QEnt := (List.range n).map fun i => { id := i, arrived := true, data := 5 }

/-- True guards: ScalarSumsProductsExtremes, ScalarLogicAndShifts, PredicateResults, FloatScalarResults, SoftTrapsAndHalt,
LoadsPutElementsInFlight, StoresAreWithheld, TouchWindowsAndSpill, AtomicStepsPerform, RingInstructions, FencesFlagsAndBarriers,
RingWaitsQuantaSleepPower, EngineCommandsAccepted and OpticalCommandsAccepted ask for one; the lanes of the vector statements and
`MatrixOperationsFire` speak of both. -/
theorem test_meets_guards : State.reset.guard on = true ∧ State.reset.guard off = false ∧ State.reset.guard ⟨1, true⟩ = true := by decide
theorem test_meets_ScalarMovesCountsImmediates : ∃ w1 w2 : BitVec 8, State.reset.guard on = true ∧ 1 ≤ w1.toNat ∧ w1.toNat ≤ 64 ∧
    w1.toNat = 1 ∧ 1 ≤ w2.toNat ∧ w2.toNat ≤ 64 ∧ w2.toNat = 64 := ⟨1, 64, by decide⟩
/-- With an empty queue and with one place left; a divisor of 0 and of 1. -/
theorem test_meets_DivisionsQueueTheirResult : let s : State := { ctxs := [(0, { ctxAt 0 [(2, 1)] with rq := [(1, entries 15)] })] }
    State.reset.guard on = true ∧ (State.reset.me.rqGet 1).length < 16 ∧ State.reset.sreg 2 = 0 ∧ s.guard on = true ∧
    (s.me.rqGet 1).length = 15 ∧ s.sreg 2 = 1 := by decide
theorem test_meets_PredicateResults_nan : let s := user [(1, 0x7FC00000), (2, 0x3F800000)]
    ((s.fval .fp32 1).isNaN || (s.fval .fp32 2).isNaN) = true ∧ ((s.fval .fp32 2).isNaN || (s.fval .fp32 2).isNaN) = false := by decide
theorem test_meets_BranchesResolve : let s := user [(5, 1)]
    s.myBcast = none ∧ s.guard off = false ∧ s.guard on = true ∧ s.sreg 5 = 1 ∧ s.sreg 6 ≠ 1 := by decide
/-- A view of one register and of the most that the window holds; one register too many; a value of 22 bits. -/
theorem test_meets_ContextRegistersAndQueues : let s : State := { ctxs := [(0, { ctxAt 0 [(1, 0x400), (2, 0x80000), (3, 0x80001), (4, 0x200000)] with
      inst := some inst0, rq := [(2, entries 1)] })] }
    s.guard on = true ∧
    ((s.sreg 1).toNat < 2 ^ 21 ∧ viewOk (selView .v).size (s.winSize s.cur.who) ((s.sreg 1).setWidth 32) = true) ∧
    ((s.sreg 2).toNat < 2 ^ 21 ∧ viewOk (selView .v).size (s.winSize s.cur.who) ((s.sreg 2).setWidth 32) = true) ∧
    ((s.sreg 3).toNat < 2 ^ 21 ∧ viewOk (selView .v).size (s.winSize s.cur.who) ((s.sreg 3).setWidth 32) = false) ∧ 2 ^ 21 = (s.sreg 4).toNat ∧
    s.me.inst = some inst0 ∧ s.me.rqHead 2 = some { id := 0, arrived := true, data := 5 } ∧ s.me.rqHead 3 = none := by decide
theorem test_meets_FalseGuardDoesNothing : let s := user []
    s.guard off = false ∧ ScalarOp off (.add off 1 2 3) ∧ leastLevel (.add off 1 2 3) ≤ s.level s.cur.who ∧
    ScalarOp off (.swq off 1 2) ∧ leastLevel (.swq off 1 2) = (firmware []).level 1024 ∧ (firmware []).guard off = false :=
  ⟨by decide, rfl, by decide, rfl, by decide, by decide⟩

/-- Levels below, at and above; groups 1 and 12; who is level 2 and who is not. -/
theorem test_meets_PrivilegedInstructionTrap :
    let s := supervisor [(1, 0x0C000000), (2, 0x01000003), (3, 0x08000000)]
    (user []).level 0 < leastLevel (.eret on) ∧ s.level 0 < leastLevel (.swq on 1 2) ∧ s.guard on = true ∧ s.level s.cur.who = 1 ∧
    (srnOf (((s.sreg 1).toNat % 2 ^ 32 + 0) % 2 ^ 32)).group = 12 ∧ s.level s.cur.who < readLevel 12 ∧ s.level s.cur.who < writeLevel 12 ∧
    (srnOf (((s.sreg 2).toNat % 2 ^ 32 + 0) % 2 ^ 32)).group = 1 ∧
    (srnOf (((s.sreg 3).toNat % 2 ^ 32 + 255) % 2 ^ 32)).group = 8 ∧ s.level s.cur.who < writeLevel 8 ∧
    (1024 ≤ s.cur.who + 1024 ∧ s.cur.who + 1023 < 1024) := by decide
/-- CTX.CFG and CTX.TVEC of context 0 of core 0.0.0, group 13, and a register with no words of its group. -/
theorem test_meets_SystemRegisterAccess :
    let s := firmware [(1, 0x01000000), (2, 0x01000003), (3, 0x0D000000), (4, 0x01003FFF)]
    let n (i : Nat) : Srn := srnOf ((s.me.ctl.sget i).toNat % 2 ^ 32)
    s.guard on = true ∧ 1 ≤ s.level s.cur.who ∧
    (s.regCause s.cur.who (n 1) false = none ∧ (s.regRead (n 1)).isSome = true) ∧
    (s.regCause s.cur.who (n 1) true = none ∧ (s.regWrite (n 1) 2).isOk = true) ∧
    (s.regCause s.cur.who (n 2) true = none ∧ (n 2).group = 1 ∧ (n 2).word = 3) ∧
    (s.regCause s.cur.who (n 3) false).isSome = true ∧ (s.regCause s.cur.who (n 3) true).isSome = true ∧
    (s.regCause s.cur.who (n 4) false).isSome = true := by decide
/-- The last key slot and one too many, the sensor after the last, a binding that fits and one that does not. -/
theorem test_meets_KeysSlotsAndSensors :
    let s := firmware [(1, 8191), (2, 8192), (3, 63), (4, 64), (5, 0xA00), (6, 0)]
    s.guard on = true ∧ s.level s.cur.who = 2 ∧ (s.sreg 1).toNat < 8192 ∧ 8192 ≤ (s.sreg 2).toNat ∧ (s.sreg 3).toNat < 64 ∧
    64 ≤ (s.sreg 4).toNat ∧ (s.core 0).badBinding ((s.sreg 5).extractLsb' 8 4) = false ∧
    (s.core 0).badBinding ((s.sreg 6).extractLsb' 8 4) = true ∧
    aget (0, 0, 0, true) (s.die 3).sens 15 = ((0 : BitVec 16), (0 : BitVec 16), 0, true) := by decide
/-- The issuer's own partition (48 without an instance) and another. -/
theorem test_meets_TranslationsInvalidated : let s := supervisor [(1, 48), (2, 0)]
    s.guard on = true ∧ s.level s.cur.who = 1 ∧ (s.sreg 1).toNat % 64 = s.partOf s.cur.who ∧ s.fab.reqs = [] ∧
    (s.sreg 2).toNat % 64 ≠ s.partOf s.cur.who := by decide

theorem mapOk_isOk {α β ε : Type} (f : α → Except ε β) : ∀ l : List α, (∀ x ∈ l, ∃ y, f x = .ok y) → ∃ r, mapOk f l = .ok r
  | [], _ => ⟨[], rfl⟩
  | a :: l, h => by
    obtain ⟨y, hy⟩ := h a (by simp)
    obtain ⟨r, hr⟩ := mapOk_isOk f l fun x hx => h x (by simp [hx])
    exact ⟨y :: r, by simp [mapOk, hy, hr]⟩
/-- Descriptors: 0 e8m0, 1 fp32, 2 n32, 3 n64, 4 fp16. -/
abbrev fmts : List (Nat × BitVec 32) := [(0, 0xB1000000), (1, 0x31000000), (2, 0x91000000), (3, 0xA1000000), (4, 0x11000000)]
/-- A page of 16 MiB that core 0 has translated for partition 48, its key, and row 0 owned by partition 48. Context 1 is stopped
with an instance of partition 48, or empty with its snapshot in memory. -/
abbrev page0 : Page := { base := 0, size := 0x1000000, tier := 0, off := 0, w := true, fmt := 0, geo := 0, key := 0 }
abbrev movable (c1 : Ctx) (mem : Memory) (snaps : List Snap) : State :=
  { ctxs := [(0, ctxAt 1 [(1, 0x4000), (2, 4096), (3, 4097)]), (1, c1)], mem := mem, tlb := [(0, 48, page0)],
    parts := [(48, { own := 1, fmtd := fmts })], svc := { keys := [(0, 0, 48)], snaps := snaps } }
abbrev stopped : Ctx := { inst := some { inst0 with part := 48 }, susp := true }
abbrev full : State := movable stopped [] []
theorem page0_ok (s : State) (ht : s.tlb = [(0, 48, page0)]) (hk : s.svc.keys = [(0, 0, 48)]) (hd : s.descOk 48 0 = true) (va : Nat) (w : Bool)
    (h : va < 0x1000000) : ∃ p, s.unitAt 0 48 va w = .ok p := by
  have h1 : s.translate 0 48 [] va = .ok page0 := by
    have : page0.covers (va : Int) = true := by simp [Page.covers]; omega
    simp [State.translate, ht, this]
  have h2 : s.attr 48 0 w page0 0 0 = none := by simp [State.attr, State.keyId, hk, tierSuits]
  have h3 : page0.gone (va : Int) = false := by simp [Page.gone, nearSize]; omega
  exact ⟨_, by simp only [State.unitAt, h1, h2, h3, hd]; rfl⟩
theorem test_meets_ContextsMove_stops : let s := full
    let n := srnOf ((s.sreg 1).toNat % 2 ^ 32)
    s.guard on = true ∧ 1 ≤ s.level s.cur.who ∧ (s.sreg 2).toNat % 4096 = 0 ∧ (s.sreg 3).toNat % 4096 ≠ 0 ∧ s.foreign n = false ∧
    n.who ≠ s.cur.who ∧ (s.ctx n.who).inst ≠ none ∧ ((s.ctx n.who).inst ≠ none ∨ (s.ctx n.who).hold = false) ∧ s.snapPart n = 48 ∧
    (movable {} [] []).guard on = true ∧ ((movable {} [] []).ctx n.who).inst = none ∧ n.who = 1 := by decide
theorem snapPlace_ok (s : State) (who part addr : Nat)
    (hp : ∀ u, u < snapUnits (s.core (coreOf who)).two → ∃ p, s.unitAt (coreOf who) part (addr + 64 * u) true = .ok p) :
    ∃ ps, s.snapPlace who part addr = .ok ps := mapOk_isOk _ _ fun u hu => hp u (List.mem_range.mp hu)
theorem saveTo_ok (s : State) (who part addr : Nat) (i : Inst) (h : (s.leaveBcast who).settleM who = s) (hi : (s.ctx who).inst = some i)
    (hp : ∀ u, u < snapUnits (s.core (coreOf who)).two → ∃ p, s.unitAt (coreOf who) part (addr + 64 * u) true = .ok p) :
    ∃ u, s.saveTo who part addr = .ok u := by
  obtain ⟨ps, hps⟩ := snapPlace_ok s who part addr hp
  unfold State.saveTo
  simp only [h, hi, hps]
  exact ⟨_, rfl⟩
theorem snapRead_ok (s : State) (core part addr off n : Nat) (hp : ∀ u, u < n → ∃ p, s.unitAt core part (addr + off + 64 * u) false = .ok p) :
    ∃ x, s.snapRead core part addr off n = .ok x := by
  unfold State.snapRead
  split
  · rename_i e he
    obtain ⟨l, hl⟩ := mapOk_isOk (fun u => match s.unitAt core part (addr + off + 64 * u) false with
      | .error e => Except.error e
      | .ok p => .ok (s.unitUnder p.1 p.2)) (List.range n) fun u hu => by
        obtain ⟨p, hp⟩ := hp u (List.mem_range.mp hu)
        exact ⟨_, by rw [hp]⟩
    exact absurd (he.symm.trans hl) (by simp)
  · exact ⟨_, rfl⟩
theorem snapImage_ok (s : State) (core part addr : Nat)
    (hp : ∀ va, va < 0x100000 → ∃ p, s.unitAt core part (addr + va) false = .ok p) : ∃ m, s.snapImage core part addr 0x40000 = .ok m := by
  have hr (off k : Nat) (hk : off + 64 * k ≤ 0x100000) : ∃ x, s.snapRead core part addr off k = .ok x :=
    snapRead_ok s _ _ _ _ _ fun u hu => by rw [Nat.add_assoc]; exact hp _ (by omega)
  obtain ⟨l, hl⟩ := mapOk_isOk (fun (p : Nat × Nat) => s.snapRead core part addr p.1 p.2)
    [(0, 128), (0x2000, 256), (0x6000, 256), (0xA000, 512), (0x12000, 192), (0x15000, 320), (0x1A000, 64), (0x1B000, 128), (0x1D000, 896),
     (0x2B000, 2048), (0x4B000, 0x40000 / 64)] fun p hp => hr _ _ (by
      simp only [List.mem_cons, List.not_mem_nil, or_false] at hp; rcases hp with h | h | h | h | h | h | h | h | h | h | h <;> subst h <;> decide)
  unfold State.snapImage
  simp only [hl]
  exact ⟨_, rfl⟩
theorem restoreTo_ok (s : State) (who part addr : Nat) (n : Snap) (h : n.win512 = false)
    (hp : ∀ va, va < 0x100000 → ∃ p, s.unitAt (coreOf who) part (addr + va) false = .ok p) : ∃ u, s.restoreTo who part addr n = .ok u := by
  obtain ⟨m, hm⟩ := snapImage_ok s _ part addr hp
  unfold State.restoreTo
  simp only [h, Bool.false_eq_true, if_false, hm]
  exact ⟨_, rfl⟩
abbrev heldFull : State := full.modCtx 1 fun c => { c with hold := true }
theorem test_meets_ContextsMove_saves : ∃ ps t u, full.snapPlace 1 48 4096 = .ok ps ∧ heldFull.stop 1 = some t ∧ t.drained 1 = true ∧
    t.saveTo 1 48 4096 = .ok u := by
  have two (s : State) (h : (s.core (coreOf 1)).two = false) (u : Nat) (hu : u < snapUnits (s.core (coreOf 1)).two) :
      4096 + 64 * u < 0x1000000 := by
    simp only [h, snapUnits, Bool.false_eq_true, if_false] at hu; omega
  obtain ⟨u, hu⟩ := saveTo_ok heldFull 1 48 4096 { inst0 with part := 48 } rfl rfl fun u hu =>
    page0_ok heldFull rfl rfl (by decide) _ true (two _ rfl u hu)
  obtain ⟨ps, hps⟩ := snapPlace_ok full 1 48 4096 fun u hu => page0_ok full rfl rfl (by decide) _ true (two _ rfl u hu)
  exact ⟨ps, heldFull, u, hps, rfl, by decide, hu⟩
/-- A snapshot of 256 KiB of window, number 0, whose header begins with the mark and the version and whose credits hold its number. -/
abbrev snap0 : Snap := { id := 0, part := 48, addr := 4096, place := 1, ctx := stopped, win512 := false, bind := 0xA }
abbrev empty1 : State := movable {} [(4096, 0x5A), (4097, 0x53), (4098, 0x4E), (4099, 0x50), (4100, 1), (4096 + 0x1A698, 1)] [snap0]
theorem test_meets_ContextsMove_header : ∃ h id, (empty1.ctx 1).inst = none ∧ (empty1.ctx 1).hold = true ∧
    empty1.snapRead 0 48 4096 0 6 = .ok h ∧ empty1.snapRead 0 48 4096 0x1A680 1 = .ok id ∧
    empty1.snapOf 48 4096 h (bytesAt id 0x18 8) = snap0 ∧ empty1.mayRestore 1 h snap0 = true ∧ empty1.mayRestore 1 0 snap0 = false ∧
    empty1.restoreWaits 1 snap0 = false :=
  ⟨0x00000001504E535A, 1 <<< 192, rfl, rfl, by decide, by decide, by decide, by decide, by decide, by decide⟩
theorem test_meets_ContextsMove_restores : ∃ u, empty1.restoreTo 1 48 4096 snap0 = .ok u :=
  restoreTo_ok empty1 1 48 4096 snap0 rfl fun va h => page0_ok empty1 rfl rfl (by decide) (4096 + va) false (by omega)
/-- No pattern, every pulse, and the most that a row with PMAXN 1 takes. -/
theorem test_meets_PatternsVotesSwitchQueue : let s := firmware [(2, 0xFFFF), (3, 1)]
    let p (n : Nat) : BitVec 16 := (s.me.ctl.sget n).extractLsb' 0 16
    s.guard on = true ∧ s.level s.cur.who = 2 ∧ (s.row 0).pmaxn = 0 ∧ p 1 = 0 ∧ (p 2 ≠ 0 ∧ popc16 (p 2) ≤ 16) ∧ (p 3 ≠ 0 ∧ popc16 (p 3) ≤ 1) ∧
    s.fab.swq.length < 64 ∧ ((List.replicate 63 ((0 : Word), (0 : Word))).length < 64) := by decide
def linked (p : Nat) (st : BitVec 3) : State := { firmware [(1, BitVec.ofNat 64 p)] with fab := { pairs := [(p, { state := st })] } }
/-- The last pair and one too many; a pair in each state. -/
theorem test_meets_LinkCommands : (linked 127 0).guard on = true ∧ (linked 127 0).level (linked 127 0).cur.who = 2 ∧
    ((linked 127 0).sreg 1).toNat % 256 < 128 ∧ 128 ≤ ((linked 128 0).sreg 1).toNat % 256 ∧
    ((List.range 7).all fun st => ((linked 127 (BitVec.ofNat 3 st)).pair 127).state == BitVec.ofNat 3 st) = true := by decide
def locked (l : List (Nat × BitVec 20 × Option Nat)) (q n : Nat) : State :=
  { firmware [(1, BitVec.ofNat 64 (q * 2 ^ 20 + n))] with svc := { locks := l, events := [5] } }
theorem test_meets_EventsAndOrderingLocks :
    let s := locked [(1, 3, some 1024)] 1 3
    let u := locked [] 1 3
    let w : State := { locked [] 1 0 with ctxs := [(1024, { wait := some (.lock 1 0) })] }
    s.guard on = true ∧ s.level s.cur.who = 2 ∧ s.svc.events = [5] ∧ (firmware []).svc.events = [] ∧
    (s.svc.lock ((s.sreg 1).toNat / 2 ^ 20 % 2 ^ 12)).1 = (s.sreg 1).extractLsb' 0 20 ∧
    (u.svc.lock ((u.sreg 1).toNat / 2 ^ 20 % 2 ^ 12)).1 ≠ (u.sreg 1).extractLsb' 0 20 ∧
    ((w.ctx 1024).wait = some (.lock 1 0) ∧ (w.svc.lock 1).1.toNat = 0) ∧
    (s.svc.lock 1 = ((s.sreg 1).extractLsb' 0 20, some s.cur.who) ∧ (s.queue 1).handled = none) ∧
    u.svc.lock 1 ≠ ((u.sreg 1).extractLsb' 0 20, some u.cur.who) := by decide

/-- Pair `p` in a state for so many master cycles (2,000 a microsecond), its counter at a slot boundary. -/
def pairAt (p : Nat) (q : Pair) : State := { fab := { pairs := [(p, q)] } }
theorem test_meets_LinkPairTransitions_training : let s := pairAt 127 { state := 1, since := 100000 }
    (s.pair 127).state = 1 ∧ s.ns (s.pair 127).since = 50000 ∧ (127 : Nat) < 128 := by decide
theorem test_meets_LinkPairTransitions_parking : let s := pairAt 5 { state := 2, parkReq := true }
    let u := pairAt 5 { state := 2, parkidle := 15, idle := 245760 }
    ((s.pair 5).state = 2 ∧ (s.pair 5).parkReq = true ∧ (s.counter 5).toNat % 32 = 0) ∧
    ((u.pair 5).state = 2 ∧ (u.pair 5).parkidle ≠ 0 ∧ (u.pair 5).parkidle.toNat * 8192 = u.ns (u.pair 5).idle ∧ (u.counter 5).toNat % 32 = 0) := by decide
theorem test_meets_LinkPairTransitions_waking : let s := pairAt 5 { state := 3, wakeq := 0 }
    let u := pairAt 5 { state := 4, since := 2048 }
    ((s.pair 5).state = 3 ∧ (s.pair 5).wakeq.toNat = s.queued 5) ∧
    ((u.pair 5).state = 4 ∧ u.ns (u.pair 5).since = 1024 ∧ (u.counter 5).toNat % 32 = 0) := by decide
theorem test_meets_LinkPairTransitions_retraining : let s := pairAt 5 { state := 2, tries := 8 }
    let u := pairAt 5 { state := 3, errs := 256 }
    let v := pairAt 5 { state := 5, since := 1048576 }
    ((s.pair 5).lit = true ∧ (s.pair 5).tries = 8) ∧ ((u.pair 5).lit = true ∧ (u.pair 5).errs = 256) ∧
    ((v.pair 5).state = 5 ∧ v.ns (v.pair 5).since = 524288) ∧ ((s.pair 5).state ≠ 0 ∧ (s.pair 5).state ≠ 6) := by decide
/-- A request of partition 3 on drawer `d`, unit 0, and a rondel whose slots are all that partition's. -/
abbrev req0 : DReq := { id := 0, drawer := 0, unit := 0, part := 3, cls := 0, kind := 0, who := 0, die := 0 }
abbrev drawer (r : DReq) (st : BitVec 3) : State := { fab := { reqs := [r], d0slot := [(0, 0xC03)], pairs := [(0, { state := st })] } }
theorem test_meets_DrawerAccesses_slot : let s := drawer req0 2
    (1 < 2 ∧ 32 * aget 0 s.fab.dslot 0 = s.ltime) ∧ s.fab.reqs = [req0] ∧ s.qualifies 0 (aget 0 s.fab.d0slot 0) req0 = true ∧
    0 < (s.pair (reqPair req0)).lanes := by decide
theorem test_meets_DrawerAccesses_perform : let r := { req0 with left := some 0 }
    let w := { req0 with left := some 0, kind := 1, mask := 255, val := 7 }
    ((drawer r 2).req 0 = some r ∧ (drawer r 2).mayPerform r = true ∧ r.kind = 0) ∧
    ((drawer w 2).req 0 = some w ∧ (drawer w 2).mayPerform w = true ∧ w.kind = 1 ∧ w.cmd = none) := by decide
abbrev cmd8 : ECmdRec := { id := 0, who := 0, part := 3, opc := 8, cls := 0, nq := false, tag := 9 }
theorem test_meets_DrawerAccesses_timeout : let r := { req0 with stall := 0x400 * 1024 }
    let w := { r with kind := 1 }
    let c := { r with cmd := some 0 }
    let u := { drawer c 5 with cmds := [cmd8] }
    ((drawer r 0).req 0 = some r ∧ ((drawer r 0).pair (reqPair r)).state = 0 ∧ r.left = none ∧ r.done = false ∧ r.dropped = false ∧
      (drawer r 0).fab.stallto.toNat * 1024 = r.stall ∧ r.kind = 0 ∧ r.cmd = none ∧ r.amo = none) ∧
    ((drawer w 5).req 0 = some w ∧ ((drawer w 5).pair (reqPair w)).state = 5 ∧ w.kind = 1 ∧ w.cmd = none) ∧
    (u.req 0 = some c ∧ (u.pair (reqPair c)).state = 5 ∧ c.cmd = some 0 ∧ u.cmd 0 = some cmd8) := by decide
/-- Slot 0 of 32 slots of 125 ns behind a guard of 16, the peers' pairs 64 to 127 allotted to port 0. -/
abbrev circuit : Word := 0x0000000180010020
theorem test_meets_SwitchRotates_pop : let f : Fabric := { swq := [(0x0001, circuit), (0x400002, 0)], swslots := [] }
    let u : Fabric := { f with swRun := true }
    let a : Fabric := { swq := [(0x400002, 0)], swslots := [(0, circuit)] }
    let b : Fabric := { swq := [(3, 0)], swRun := true }
    (f.swq = [(0x0001, circuit), (0x400002, 0)] ∧ f.swPop = 0) ∧ f.refused 0x400002 0 = true ∧
    (f.refused 1 circuit = false ∧ f.swRun = false) ∧ (u.refused 1 circuit = false ∧ u.swRun = true) ∧
    a.refused 0x400002 0 = false ∧ b.refused 3 0 = false := by decide
theorem test_meets_SwitchRotates_phases : let f : Fabric := { swRef := 64, swslots := [(0, circuit)] }
    let arm : State := { fab := { f with swArm := true } }
    let gd : State := { fab := { f with swRun := true, swGd := true }, cyc := 4000 }
    let on : State := { fab := { f with swRun := true, swGd := false }, cyc := 8000 }
    (arm.fab.swArm = true ∧ arm.fab.swRun = false ∧ arm.counter arm.fab.swRef = arm.fab.swT0) ∧
    (gd.fab.swGd = true ∧ slotGuard gd.fab.curSlot * 125 = gd.inPhase) ∧
    (on.fab.swGd = false ∧ slotLen on.fab.curSlot * 125 = on.inPhase ∧ on.fab.swCur = on.fab.swN ∧
      ¬ (on.fab.swCur = on.fab.swN ∧ on.fab.swStop = true)) := by decide
theorem test_meets_SendsAndReceives_sends : let r := { cmd8 with flits := 3, sent := 3 }
    let w := { cmd8 with nq := true, flits := 3, sent := 1, waited := 0x400 * 1024 }
    let s (r : ECmdRec) : State := { cmds := [r] }
    ((s r).cmd 0 = some r ∧ r.opc = 8 ∧ r.flits = r.sent ∧ r.nq = false) ∧
    ((s w).cmd 0 = some w ∧ (s w).fab.stallto.toNat * 1024 = w.waited ∧ w.nq = true) := by decide
/-- Port 0 is connected from time 0 for 4 microseconds; the flit comes at its end, and 64 ns after it with slack 1. -/
theorem test_meets_SendsAndReceives_flits : let f : Fabric := { swRun := true, swGd := false, swRef := 64, swslots := [(0, circuit)] }
    let s : State := { fab := f }
    let u : State := { fab := { f with recvs := [(7, [0])] }, cmds := [{ cmd8 with opc := 9 }] }
    let x : Xfer := { port := 0, rq := 7, seq := (2 : BitVec 32).toNat, arm := some 0, got := List.range 1 }
    let v : State := { fab := { f with xfers := [x], recvSeq := [(0, 2)] }, cmds := [{ cmd8 with opc := 9 }] }
    (s.fab.accepts 0 1 4000 = true ∧ s.fab.accepts 0 1 4064 = true ∧ s.fab.accepts 0 1 4065 = false ∧ s.fab.xfers = [] ∧
      aget [] s.fab.recvs 7 = []) ∧
    ((aget [] u.fab.recvs 7).head? = some 0 ∧ u.cmd 0 = some { cmd8 with opc := 9 } ∧ u.fab.xfers = []) ∧
    (v.fab.xfers = [x] ∧
      v.cmd 0 = some { cmd8 with opc := 9 } ∧ (2 : BitVec 32).toNat = aget 0 v.fab.recvSeq 0 ∧ v.fab.reqs = []) ∧
    (0, (5 : BitVec 32).toNat) ∉ s.fab.ctlSeen := by decide
theorem test_meets_SendsAndReceives_control : let c : CtlFlit := { path := 70, seq := 0, kind := 3, port := 0, xseq := 4, age := 0x20 * 1024 }
    let s : State := { fab := { ctls := [c] } }
    let w : State := { fab := { ctls := [{ c with path := 128 }] } }
    (s.fab.ctls = [c] ∧ c.path = 70 ∧ 70 < 128 ∧ s.fab.ctlto.toNat * 1024 = c.age) ∧
    w.fab.ctls = [{ c with path := 128 }] := by decide

/-- An entry of rank 1 and stride 1. -/
def entry (space fmt base ext : Nat) : BitVec 512 := BitVec.ofNat 512 (space * 2 ^ 37 + 2 ^ 41 + fmt * 2 ^ 63 + base * 2 ^ 80 + ext * 2 ^ 136 + 2 ^ 296)
/-- Context 0 with entry 1 in memory at 4096 and entry 2 in its W buffer, on a page of a format and tier. -/
def onPage (p : Page) (f : Nat) (c : Ctx) : State :=
  { ctxs := [(0, { c with layout := [(1, entry 0 0 4096 8192), (2, entry 3 f 0 4)] })], tlb := [(0, 48, p)],
    parts := [(48, { own := 1, fmtd := fmts })], svc := { keys := [(0, 0, 48)] } }
abbrev pageOf (f : Nat) : Page := { page0 with fmt := f }
/-- Register 1 is the coordinate: 0, the last element, and one beyond. -/
abbrev atCoord (x : Word) : Ctx := ctxAt 0 [(1, x), (2, 3), (3, 9)]
/-- What `ld.s` and `st.s` access through an entry. -/
abbrev one (s : State) (le : Nat) (write : Bool) : Except Stop Acc := s.access 0 le write false [s.coords 0 1 (s.lay 0 le).rank 0]
def stopOf {α : Type} : Except Stop α → Option Stop
  | .error e => some e
  | .ok _ => none
/-- Elements of memory and of a buffer; out of bounds; beyond near memory; in a drawer; in a bad unit. -/
theorem test_meets_LoadsPutElementsInFlight :
    let s := onPage (pageOf 3) 3 (atCoord 0)
    let u := onPage (pageOf 3) 3 (atCoord 8191)
    let b := onPage (pageOf 3) 3 (atCoord 8192)
    let g := onPage { pageOf 3 with off := nearSize } 3 (atCoord 0)
    let d := onPage { pageOf 3 with tier := 1 } 3 (atCoord 0)
    let units (s : State) : List Nat := ((one s 1 false).toOption.map fun a => a.elems.map (·.addr)).getD []
    s.guard ⟨0, false⟩ = true ∧ (s.esize 0 1 false fun _ => [[]]).toOption = some 0xA1000000 ∧ (s.esize 0 2 false fun _ => [[]]).toOption = some 0xA1000000 ∧
    (one s 1 false).isOk = true ∧ (one s 2 false).isOk = true ∧ (one u 1 false).isOk = true ∧ stopOf (one b 1 false) = some (.trap ⟨11, 0, 1⟩) ∧
    stopOf (one g 1 false) = some (.gone (nearSize + 4096)) ∧ (units d).map (fun a => drawerOf (a / 8)) = [some 0] ∧
    units s = [4096 * 8] ∧ ({ s with bad := [64] } : State).badUnit [⟨4096 * 8, 64, 1⟩] ≠ none ∧ s.badUnit [⟨4096 * 8, 64, 1⟩] = none := by decide
/-- The same of stores; a page with scales; a full buffer; a transient store that the die suppresses. -/
theorem test_meets_StoresAreWithheld :
    let s := onPage (pageOf 3) 3 (atCoord 0)
    let b := onPage (pageOf 3) 3 (atCoord 8192)
    let q := onPage { pageOf 3 with geo := 1 } 3 (atCoord 0)
    let full := (List.range 128).map fun i : Nat => ({ cls := 0, unit := 1000 + i, mask := 1, val := 0 } : WEnt)
    let spl : Spliced := { id := 5, code := [], map := [BitVec.ofNat 128 (2 ^ 33)], slots := [0], layout := [], suppress := [0] }
    let z : State := { ctxs := [(0, { inst := some { inst0 with spl := some 5 } })], dies := [(0, { cache := [spl] })] }
    (one s 1 true).isOk = true ∧ (one s 2 true).isOk = true ∧ s.me.splId = none ∧ stopOf (one b 1 true) = some (.trap ⟨11, 0, 1⟩) ∧
    ((one q 1 true).toOption.map (·.geo)) = some 1 ∧ (s.lay 0 1).isMem = true ∧
    128 < ((storeEnts 48 0 ⟨4096 * 8, 64, 1⟩ 7).foldl (fun h e => holdEntry e h) full).length ∧ z.suppressed = true := by decide
/-- The last coordinate register that fits and one more; an extent of 0 and of 1; one window number left. -/
theorem test_meets_TouchWindowsAndSpill :
    let s := onPage (pageOf 3) 3 (ctxAt 0 [(62, 5), (63, 1)])
    let l := s.lay 0 1
    let ext (s : State) : List Int := (List.range l.rank).map fun k => (s.me.ctl.sget (62 + l.rank + k)).toInt
    let wins := (List.range 31).map fun n => ({ n := n, w := false, left := 9, bytes := [], pages := [] } : TWin)
    63 < 63 + 2 * l.rank - 1 ∧ 62 + 2 * l.rank - 1 ≤ 63 ∧ (∃ e ∈ ext (user []), e ≤ 0) ∧ (∀ e ∈ ext s, 0 < e) ∧
    (s.access1 0 1 true false (boxCoords (s.coords 0 62 l.rank 0) ((ext s).map Int.toNat))).isOk = true ∧
    ((31 : Nat) < 32 ∧ ∀ x ∈ wins, x.n ≠ 31) ∧ (∀ x ∈ s.me.wins, x.n ≠ 0) := by decide
theorem test_meets_TouchWindowsAndSpill_stores :
    let b := spillBase 0 + 0x3E00
    let c := spillBase 0 + 8
    let es := (List.range 8).map fun k : Nat => (⟨16, b / 64 + k, ones 512, elemAt 0 512 ((b / 64 + k) - b / 64), 0, none, 0⟩ : WEnt)
    let e : WEnt := ⟨16, c / 64, ones 64 <<< (8 * (c % 64)), 0 <<< (8 * (c % 64)), 0, none, 0⟩
    es.length = 8 ∧ (∀ e ∈ es, e = ⟨16, e.unit, ones 512, elemAt 0 512 (e.unit - b / 64), 0, none, 0⟩) ∧
    (es.foldl (fun h e => holdEntry e h) []).length ≤ 128 ∧ (es.map (·.unit) = (List.range 8).map fun k => b / 64 + k) ∧
    es.Pairwise (fun a b => a.unit < b.unit) ∧
    ([e].foldl (fun h e => holdEntry e h) []).length ≤ 128 ∧ ([e].map (·.unit) = (List.range 1).map fun k => c / 64 + k) ∧
    [e].Pairwise (fun a b => a.unit < b.unit) ∧ (user []).spillRead 0 8 = 0 := by decide
/-- An n64 and an n32 element; a queue with one place, and a full one. -/
theorem test_meets_AtomicStepsPerform :
    let s := onPage (pageOf 3) 3 { atCoord 0 with rq := [(0, entries 15)] }
    let t := onPage (pageOf 2) 3 { atCoord 8191 with rq := [(0, entries 16)] }
    let e : Elem := ⟨4096 * 8, 64, 1⟩
    s.guard on = true ∧ 16 = (t.me.rqGet 0).length ∧ ((one s 1 true).toOption.map fun a => (a.elems, amoKind a.fmt)) = some ([e], true) ∧
    (∀ u ∈ e.units, u ∉ s.bad) ∧ drawerOf (e.addr / 8) = none ∧ (s.me.rqGet 0).length = 15 ∧
    (∀ x ∈ ({ s with ids := 15 } : State).me.rqGet 0, x.id ≠ 15) ∧
    ((one t 1 true).toOption.map fun a => (a.elems, amoKind a.fmt)) = some ([⟨4096 * 8 + 8191 * 32, 32, 1⟩], true) := by decide
/-- Rings 0 empty, 1 with one filled slot, 2 with one free slot. -/
theorem test_meets_RingInstructions :
    let r (n m : Nat) : Ring := ({ en := true, filled := n, free := m, slotlog := 3 } : Ring).endTick
    let s : State := { cores := [(0, { rings := [(0, r 0 0), (1, r 1 0), (2, r 0 1)] })] }
    let pops (n : Nat) : Bool := (s.ring 0 n).en && decide (1 + (s.ring 0 n).tPop ≤ (s.ring 0 n).old.filled)
    let pushes (n : Nat) : Bool := (s.ring 0 n).en && decide (1 + (s.ring 0 n).tPush ≤ (s.ring 0 n).old.free) && !(s.ring 0 n).old.exf &&
      (s.ring 0 n).exf.isNone
    (pops 1 = true ∧ pops 0 = false ∧ pops 2 = false) ∧ (s.ring 0 0).old.filled = 0 ∧ (pushes 2 = true ∧ pushes 0 = false) ∧
    coreOf s.cur.who = 0 := by decide

/-- A flag in memory with value 5, compared with 5, one less and one more; a fence with a load before it; a `sig` with a store
before it. Register 2 is the value. -/
abbrev flagged (v : Word) : State := { onPage (pageOf 3) 3 (ctxAt 0 [(1, 0), (2, v)]) with mem := [(4096, 5)] }
abbrev arg1 : YArg := ⟨⟨0, false⟩, 0, 1, 1⟩
theorem test_meets_FencesFlagsAndBarriers :
    let s := flagged 5
    let f (s : State) : Word := s.flagValue 0 (4096 * 8) 1
    let late : State := { user [] with cur := { ent := { seq := 1 } } }
    let early : State := { ctxs := [(0, { ctxAt 0 [] with queues := [(Slot.ld.num, [{ seq := 0 }])] })], cur := { ent := { seq := 1 } } }
    let busy : State := { s with cmds := [{ cmd8 with opc := 1 }], cur := { ent := { seq := 1 } } }
    s.guard ⟨0, false⟩ = true ∧ late.fenced 1 = true ∧ early.fenced 1 = false ∧ s.released = true ∧ busy.released = false ∧
    (s.flag arg1 true).toOption = some (⟨4096 * 8, 64, 1⟩, 0) ∧ (s.flag arg1 false).toOption = some (⟨4096 * 8, 64, 1⟩, 0) ∧
    drawerOf (4096 * 8 / 8) = none ∧ s.flagArg arg1 = 5 ∧ f s = 5 ∧ 0 ≤ (f s - 5).toInt ∧ ¬ 0 ≤ (f s - 6).toInt ∧
    (f s - 0x8000000000000005).toInt < 0 ∧ f s ≠ 6 := by decide
/-- One slot more than asked for, and one less; levels at, above and below; a pair that is up, and one that is down. -/
theorem test_meets_RingWaitsQuantaSleepPower :
    let r : Ring := { en := true, filled := 16, free := 15 }
    let i : Inst := { inst0 with part := 3, limit := 4 }
    let s : State := { ctxs := [(0, { ctxAt 0 [(1, 0xFFFFFFFF), (2, 4), (3, 5), (4, 127), (5, 31), (6, 30)] with inst := some i, level := 4 })],
                       cores := [(0, { rings := [(0, r)] })], fab := { d0slot := [(0, 0x803)], pairs := [(31, { state := 2 }), (30, { state := 0 })] } }
    s.guard ⟨0, false⟩ = true ∧ (15 : BitVec 4).toNat + 1 ≤ (s.ring 0 0).filled ∧ (s.ring 0 0).free < (15 : BitVec 4).toNat + 1 ∧
    s.otherReady 0 0 = false ∧ (s.sreg 0).toNat % 2 ^ 32 = 0 ∧ (s.sreg 1).toNat % 2 ^ 32 ≠ 0 ∧ s.me.inst = some i ∧
    i.limit < (s.sreg 3).toNat % 256 ∧ (s.sreg 2).toNat % 256 = i.limit ∧ (s.sreg 2).toNat % 256 ≤ s.me.level ∧ s.me.level < 5 ∧
    (s.sreg 4).toNat % 256 < 128 ∧ s.ownsPair 3 ((s.sreg 4).toNat % 256) = false ∧ 128 ≤ (s.sreg 1).toNat % 256 ∧
    s.ownsPair 3 ((s.sreg 5).toNat % 256) = true ∧ (s.pair 31).state = 2 ∧ s.ownsPair 3 ((s.sreg 6).toNat % 256) = true ∧ (s.pair 30).state = 0 := by decide
theorem test_meets_EventsEndHolds :
    let s (h : Hold) : State := { ctxs := [(0, { wait := some h, inst := some { inst0 with part := 3 } })], mem := [(4096, 5)],
                                  fab := { pairs := [(31, { state := 4 }), (30, { state := 0 })] }, dies := [(0, { pwrq := [(0, 1, 0)] })], parts := [(3, { ctl := 2 ^ 40 })] }
    let f (h : Hold) : Word := (s h).flagValue 0 (4096 * 8) 1
    let w (c : Nat) (v : Word) : Hold := .wait (4096 * 8) 1 0 [] c v
    (((s (w 2 5)).ctx 0).wait = some (w 2 5) ∧ 2 < 3) ∧ 0 ≤ (f (w 0 5) - 5).toInt ∧ ¬ (0 ≤ (f (w 0 6) - 6).toInt) ∧ f (w 1 5) = 5 ∧ ¬ f (w 1 6) = 6 ∧
    f (w 2 6) ≠ 6 ∧ (f (.bar (4096 * 8) 1 0 [] (some 6)) - 6).toInt < 0 ∧ drawerOf (4096 * 8 / 8) = none ∧
    ((s (.sleep 0)).ctx 0).wait = some (.sleep 0) ∧ ((s (.sleep 1)).ctx 0).wait = some (.sleep 1) ∧
    (((s (.power 1)).die 0).pwrq = [(0, 1, 0)] ∧ ((s (.power 1)).ctx 0).susp = false ∧ (s (.power 1)).mayGrant 0 3 (1 - 0) = true) ∧
    (((s (.realign 31 1 0)).pair 31).state = 4 ∧ (1 : Nat) ≠ 0) ∧ ((s (.realign 30 1 0)).pair 30).state = 0 := by decide

/-- Element types of every case: integer of each width, class F, class D; widths that grow and shrink. Both values of a guard stand in
`test_meets_guards`. -/
theorem test_meets_VectorArithmetic : ETy.n4.isI = true ∧ ETy.s64.isI = true ∧ ETy.fp16.isI = false ∧ ETy.fp64.isI = false ∧
    ETy.bf16.isF = true ∧ ETy.fp32.isF = true ∧ ETy.fp64.isF = false := by decide
theorem test_meets_VectorBitsMovesPermutations : ETy.n8.width = 8 ∧ ETy.fp16.width = 16 ∧ ETy.n32.width = 32 ∧ ETy.fp64.width = 64 := by decide
theorem test_meets_VectorConversionsAndComplex : ETy.fp32.width = ETy.s32.width ∧ ETy.fp16.width < ETy.fp32.width ∧
    ETy.n4.width < ETy.n64.width := by decide
/-- Lane 0 of v0 holds 1, and the others 0, whose exponents do not count; powers of a scale format with their ends. -/
abbrev lanes0 : State := { onPage (pageOf 3) 4 { ctxAt 0 [(1, 1)] with ctl := { s := [(1, 1)], vv := 0x400 } } with
  mem := [(winAt + 2, 0x80), (winAt + 3, 0x3F)], cur := { ent := { vv := 0x400 } } }
where winAt : Nat := regBase 0
theorem test_meets_QuantisationPair :
    let e (k : Nat) : Option Int := exponent (dval .fp32 (elemAt (lanes0.vreg .v 0) 32 k))
    let pows := powCodes (dFmt (lanes0.desc 48 (dSfmt (lanes0.desc 48 4)))) true
    lanes0.guard on = true ∧ lanes0.guard off = false ∧ (0 * 16 ≤ 0 ∧ 0 < 0 * 16 + 16 ∧ lanes0.on (vc .fp32) 0 = true ∧ e 0 = some 0) ∧
    e 16 = none ∧ 1 * lanes 32 ≤ 8 * 16 ∧ (pows.all fun p => decide (-127 ≤ p.1) && decide (p.1 ≤ 127)) = true ∧
    (pows.any fun p => p.1 == -127) = true ∧ (pows.any fun p => p.1 == 127) = true ∧ (lanes0.sreg 1).getLsbD 0 = true ∧
    (lanes0.sreg 2).getLsbD 0 = false := by decide
theorem test_meets_VectorQueueResults :
    let s : State := { ctxs := [(0, { ctxAt 0 [] with rq := [(4, entries 16)] })] }
    ETy.n8.isI = true ∧ ETy.fp32.isI = false ∧ (1 : BitVec 2) ≠ 3 ∧ s.me.rqHead 4 = some { id := 0, arrived := true, data := 5 } ∧
    s.me.rqHead 5 = none ∧ 16 < (s.me.rqGet 4).length + 1 ∧ (s.me.rqGet 5).length + 2 ≤ 16 := by decide
/-- Rings 0 and 1 with a free slot, ring 2 with a filled one; all lanes of v0 are 0, so every lane counts in counter 0. -/
theorem test_meets_VectorMasksRingsPips :
    let r (n m : Nat) : Ring := ({ en := true, filled := n, free := m, slotlog := 3 } : Ring).endTick
    let s : State := { ctxs := [(0, { ctl := { vv := 0x400 } })], cores := [(0, { rings := [(0, r 0 1), (1, r 0 1), (2, r 1 0)] })] }
    let rings (k : BitVec 4) : List Nat := (List.range (k.toNat + 1)).map fun j => 0 + j
    (∃ r ∈ rings 2, s.freeSlot r = false) ∧ (∀ r ∈ rings 1, s.freeSlot r = true) ∧ s.filled 0 = false ∧ s.filled 2 = true ∧
    s.freeSlot 2 = false ∧ s.freeSlot 1 = true ∧ s.guard on = true ∧ s.guard off = false ∧ ETy.n8.isI = true ∧ ETy.fp64.isI = false := by decide
theorem test_meets_VectorMasksRingsPips_counts :
    let adds := ((List.range 512).filter (lanes0.on (vc .n8))).map fun _ : Nat => ((0 : Nat) % 256, 1)
    let sumOf (j : Nat) : Nat := ((adds.filter fun p => p.1 == j).map (·.2)).sum
    let e : WEnt := ⟨17, 0, 0, packElems 64 ((List.range 16).map fun j => sumOf (0 * 16 + j)), 0, none, 0⟩
    [e].map (·.unit) = (List.range 16).filter (fun u => adds.any fun p => p.1 / 16 == u) ∧ sumOf 0 = 512 ∧
    ([e].foldl (fun h e => holdEntry e h) []).length ≤ 128 := by decide
/-- fp16 rows and planes of 8 rows; ring 1 holds the rows, ring 2 a plane, ring 3 is free, ring 4 scales; core 1 has the same. -/
abbrev mcfg0 : Word := 0x1000101000
def matrix (cfg : Word) (c : Ctx) : State :=
  let r (buf log n m : Nat) : Ring := ({ en := true, buf := buf, filled := n, free := m, slotlog := log, countm1 := n } : Ring).endTick
  let k : Core := { rings := [(1, r 1 6 1 0), (2, r 0 10 1 0), (3, r 1 6 0 1), (4, r 1 1 1 0), (5, r 0 9 1 0), (6, r 1 6 2 0), (7, r 0 10 2 0)] }
  { ctxs := [(0, { c with ctl := { c.ctl with mxcfg := cfg } })], cores := [(0, k), (1, k)], parts := [(48, { own := 1, fmtd := fmts })] }
theorem test_meets_MatrixOperationsFire_settings :
    let s := matrix 0 (ctxAt 0 [(1, 0x101000), (2, 0x101001), (3, 0x1000101000), (4, 0)])
    let tab := s.desc (s.partOf s.cur.who)
    ((s.sreg 2).toNat % 2 ^ 10 ≠ 0) ∧ 2 ^ 36 ≤ (s.sreg 3).toNat ∧ cfgLegal tab (s.sreg 4) = false ∧
    ((s.sreg 1).toNat % 2 ^ 10 = 0 ∧ (s.sreg 1).toNat < 2 ^ 36 ∧ cfgLegal tab (s.sreg 1) = true) ∧ s.guard on = true ∧ s.guard off = false ∧
    (1 : BitVec 2) ≠ 0 ∧ s.me.ctl.mxcfg.getLsbD 36 = false := by decide
theorem test_meets_MatrixOperationsFire_array :
    let s := matrix mcfg0 { p0 := { loaded := true } }
    let u := matrix 0x1000111000 { p1 := { loaded := true } }
    let tab := s.desc (s.partOf s.cur.who)
    let slots (s : State) (r : Nat) : Nat := 1 * (s.ring 0 r).slotSize
    s.me.ctl.mxcfg.getLsbD 36 = true ∧ s.me.planeReady 1 = false ∧ s.me.planeReady 0 = true ∧ aget 0 (s.core 0).mbusy 0 = 0 ∧
    let pops (s : State) (r k : Nat) : Bool := (s.ring 0 r).en && decide (k + (s.ring 0 r).tPop ≤ (s.ring 0 r).old.filled)
    (cfgAgeo mcfg0 = 0 ∧ slots s 1 = rowBytes (cfgRows mcfg0) (tab (cfgAfd mcfg0)) ∧ pops s 1 1 = true) ∧
    (cfgAgeo u.me.ctl.mxcfg ≠ 0 ∧ u.me.planeReady 1 = true ∧ 4 ≠ 1 ∧ slots u 1 = rowBytes (cfgRows u.me.ctl.mxcfg) (tab (cfgAfd u.me.ctl.mxcfg)) ∧
      cfgRows u.me.ctl.mxcfg * 256 / geoSize (cfgAgeo u.me.ctl.mxcfg) ≤ slots u 4 ∧ pops u 4 1 = true) ∧
    (slots u 6 = slots u 1 ∧ cfgRows u.me.ctl.mxcfg * 256 / geoSize (cfgAgeo u.me.ctl.mxcfg) ≤ slots u 6 ∧ pops u 6 2 = true) := by decide
theorem test_meets_MatrixOperationsFire_planes :
    let s := matrix mcfg0 { p0 := { loaded := true } }
    let u := matrix 0x1001101000 {}
    let tab := s.desc (s.partOf s.cur.who)
    let pops (s : State) (r k : Nat) : Bool := (s.ring 0 r).en && decide (k + (s.ring 0 r).tPop ≤ (s.ring 0 r).old.filled)
    (s.me.plane 1).read = false ∧ aget 0 (s.core 0).mbusy 1 = 0 ∧ (cfgBgeo mcfg0 = 0 ∧ 1 * (s.ring 0 2).slotSize = planeBytes (tab (cfgBfd mcfg0)) ∧
      pops s 2 1 = true) ∧
    (cfgBgeo u.me.ctl.mxcfg ≠ 0 ∧ 5 ≠ 2 ∧ 32768 / geoSize (cfgBgeo u.me.ctl.mxcfg) ≤ 1 * (u.ring 0 5).slotSize ∧ pops u 5 1 = true) ∧
    (1 * (u.ring 0 7).slotSize = planeBytes (tab (cfgBfd u.me.ctl.mxcfg)) ∧ pops u 7 2 = true) ∧
    (s.peerOk 0 1 = true ∧ (s.ring (peerCore 0 1) 1).en = true ∧ (s.ring (peerCore 0 1) 1).buf = 1 ∧
      1 * (s.ring (peerCore 0 1) 1).slotSize = rowBytes (cfgRows mcfg0) (tab (cfgAfd mcfg0)) ∧
      1 + (s.ring (peerCore 0 1) 1).tPop ≤ (s.ring (peerCore 0 1) 1).old.filled) ∧
    ((s.ring (peerCore 0 1) 2).en = true ∧ (s.ring (peerCore 0 1) 2).buf = 0 ∧
      planeBytes (tab (cfgBfd mcfg0)) % (s.ring (peerCore 0 1) 2).slotSize = 0 ∧
      planeBytes (tab (cfgBfd mcfg0)) / (s.ring (peerCore 0 1) 2).slotSize ≤ (s.ring (peerCore 0 1) 2).count ∧
      planeBytes (tab (cfgBfd mcfg0)) / (s.ring (peerCore 0 1) 2).slotSize + (s.ring (peerCore 0 1) 2).tPop ≤ (s.ring (peerCore 0 1) 2).old.filled) := by decide
theorem test_meets_MatrixOperationsFire_drains :
    let s := matrix mcfg0 {}
    let tab := s.desc (s.partOf s.cur.who)
    aget 0 (s.core 0).mbusy 2 = 0 ∧ cfgRows mcfg0 * 128 * dWidth (tab 1) / 8 = (s.ring 0 3).slotSize ∧ (s.ring 0 3).en = true ∧
    1 + (s.ring 0 3).tPush ≤ (s.ring 0 3).old.free ∧ (s.ring 0 3).old.exf = false ∧ (s.ring 0 3).exf = none ∧
    (1 ≠ 3 ∧ cfgRows mcfg0 * 512 = (s.ring 0 1).slotSize ∧ (s.ring 0 1).canPop 1 = true) := by decide
theorem test_meets_MatrixWorkEnds :
    let m (op : Instr) (st : Nat) : MOp := { id := 0, op := op, ent := { vv := 0x400, va := 0x400 }, live := true, cfg := mcfg0, stage := st }
    let s (op : Instr) (st : Nat) (n : Nat) : State :=
      matrix mcfg0 { mops := [m op st], p0 := { loaded := true }, undo := (List.range n).map fun i => (1000 + i, 0) }
    let clr : Instr := .mclr on 0 0
    let pre : Instr := .mpre on 1 0 2 0
    let dr : Instr := .mdrain on 0 4 false 0 0 3
    ((s clr 0 0).ctx 0).mop 0 = some (m clr 0) ∧ (s clr 0 0).canStart 0 (m clr 0) = true ∧ (s clr 1 0).canStart 0 (m clr 1) = false ∧
    (arrOf (.mmul on 0 0 0 0 0 1 0)).isSome = true ∧
    ((s pre 2 0).ctx 0).mops.find? (fun y => y.stage == 2 && y.left == 0 && y.loads == some 1) = some (m pre 2) ∧
    ((m clr 1).stage = 1 ∧ (m clr 1).left = 0 ∧ ((s clr 1 64).ctx 0).susp = false ∧
      ((s clr 1 64).ctx 0).undo.length + ((s clr 1 64).ctx 0).newBlocks (m clr 1).res = 64) ∧
    64 < ((s clr 1 65).ctx 0).undo.length + ((s clr 1 65).ctx 0).newBlocks (m clr 1).res ∧
    ((s dr 1 0).ctx 0).mop 0 = some (m dr 1) ∧ (m dr 1).left = 0 := by decide
theorem test_meets_MatrixWorkEnds_peer :
    let m : MOp := { id := 0, op := .mmulp on 0 0 0 1 false false 0 0 1 0, ent := {}, live := true, cfg := mcfg0, stage := 1, left := 24, peer := some (1, 1) }
    ((matrix mcfg0 { mops := [m] }).ctx 0).mop 0 = some m ∧ m.peer = some (1, 1) ∧ m.stage = 1 ∧ m.left = 24 := by decide

/-- Entries 1 in memory, 2 in W, 3 in W in the slots of ring 1, 4 in F with 2 fp16 elements, 5 in F with 32,768; rings 1 and 2 with a
free and a filled slot, ring 3 full. The box begins at register 1; registers 2 and 3 are a tag and a deadline. -/
def ringed (e : BitVec 512) (n : Nat) : BitVec 512 := e ||| BitVec.ofNat 512 (2 ^ 62 + n * 2 ^ 56)
def engine (c : Ctx) (f : Fabric) : State :=
  let r (n m : Nat) : Ring := ({ en := true, filled := n, free := m, slotlog := 0, countm1 := 1 } : Ring).endTick
  { ctxs := [(0, { c with layout := [(1, entry 0 0 4096 8), (2, entry 3 3 0 8), (3, ringed (entry 3 3 0 8) 1), (4, entry 6 4 0 2),
                                     (5, entry 6 4 0 32768), (6, ringed (entry 3 3 0 8) 3), (7, entry 6 3 0 8)] })],
    cores := [(0, { rings := [(1, r 1 1), (2, r 1 1), (3, r 2 0)] })], fab := f, tlb := [(0, 48, pageOf 3)],
    parts := [(48, { own := 0x1000F, fmtd := fmts })], svc := { keys := [(0, 0, 48)] } }
abbrev regs : List (Nat × Word) := [(1, 0), (2, 9), (3, 0xFFFFFFFF), (4, 1)]
abbrev cmd (la lb : BitVec 8) (sa : BitVec 6) (nq : Bool) : ECmd := { cmd0 with la := la, lb := lb, sa := sa, nq := nq }
theorem test_meets_EngineCommandsAccepted_copies :
    let s := engine { ctxAt 0 regs with rq := [(2, entries 15)] } {}
    let u := engine { ctxAt 0 regs with rq := [(2, entries 16)] } {}
    let w : PreW := { ring := 1, elems := (List.range 8).map fun i : Nat => ⟨(4096 + 8 * i) * 8, 64, 1⟩, vals := List.replicate 8 7 }
    let p := s.modCore 0 fun k => { k with preW := some (0, w) }
    let box (n : Nat) : List (List Int) := boxCoords [0] [n]
    s.guard on = true ∧ 16 ≤ (u.me.rqGet 2).length ∧ (s.me.rqGet 2).length = 15 ∧ (s.core 0).preW = none ∧ s.credits (s.lay 0 1).ring (s.lay 0 3).ring = true ∧
    ((s.engAccess 1 false (box 8)).toOption.map fun a => dWidth a.fmt) = some 64 ∧
    ((oneDst (cmd 1 3 1 false) (s.lay 0 3).box s).toOption.map fun d => dWidth d.2.1) = some 64 ∧
    ((p.core 0).preW = some (ctxOf 0, w) ∧ p.credits (p.lay 0 1).ring (p.lay 0 3).ring = true ∧
      (p.engAccess 1 false (box 8)).toOption.map (·.elems) = some w.elems ∧ (oneDst (cmd 1 3 1 false) (p.lay 0 3).box p).isOk = true ∧
      (p.lay 0 3).ring = some w.ring ∧ (p.ring 0 w.ring).tail = 0) ∧
    s.credits (s.lay 0 2).ring (s.lay 0 1).ring = true ∧ (s.engAccess 2 false (s.lay 0 2).box).isOk = true ∧
    (oneDst (cmd 2 1 1 false) (box 8) s).isOk = true ∧ (manyDst (cmd 2 2 1 true) (box 8) 0x3 s).isOk = true ∧
    (s.engAccess 1 false (boxCoords [0] [9])).isOk = false := by decide
/-- A prefetch inside its entry and one beyond it; a send of one unit; the last arm that a receive queue takes; both outcomes of `exf`. -/
theorem test_meets_EngineCommandsAccepted_transfers :
    let f : Fabric := { swRun := true, swRef := 64, swslots := [(0, circuit)], pown := [(0, 0x70)], recvs := [(0, List.range 15)] }
    let s := engine (ctxAt 0 regs) f
    let z : State := { engine (ctxAt 0 [(1, 0), (2, 65535)]) f with parts := [(48, { own := 0x1000F, fmtd := fmts })] }
    (s.engAccess 1 false (boxCoords [0] [8])).isOk = true ∧ (s.engAccess 1 false (boxCoords [0] [9])).isOk = false ∧
    (z.credits none none = true ∧ ((z.engAccess 2 false (z.lay 0 2).box).toOption.map fun a => a.elems.length * dWidth a.fmt) = some 512 ∧
      (z.me.ctl.sget 2).toNat % 65536 = 65535 ∧ (z.me.ctl.sget 1).toNat % 16 = 0 ∧ z.ownsPort 48 0 = true ∧ z.fab.connects 0 = true) ∧
    ((s.credits none (s.lay 0 3).ring = true) ∧ (s.engAccess 3 true (s.lay 0 3).box).isOk = true ∧ (aget [] s.fab.recvs 0).length = 15) ∧
    ((s.ring 0 2).canPush = true ∧ (s.ring 0 1).canPush = true ∧ 1 ≠ 2 ∧ (s.ring 0 1).old.free - (s.ring 0 1).tPush = 1 ∧
      ((s.engAccess 1 false (boxCoords [0] [8])).toOption.map fun a => dWidth a.fmt) = ((s.engAccess 3 true (s.lay 0 3).box).toOption.map fun a => dWidth a.fmt)) ∧
    ((s.lay 0 6).ring.getD 0 = 3 ∧ (s.ring 0 3).old.free - (s.ring 0 3).tPush = 0 ∧ 3 ≠ 2 ∧ (s.engAccess 6 true (s.lay 0 6).box).isOk = true) := by decide
theorem test_meets_EngineCommandsEnd :
    let m : Elem × Elem := (⟨4096 * 8, 64, 1⟩, ⟨8192 * 8, 64, 1⟩)
    let r : ECmdRec := { cmd8 with opc := 1, moves := [m], units := 1 }
    let x : ECmdRec := { r with opc := 24, dstRing := some (0, 1), fallback := some (0, 2, 64), deadline := some 0 }
    let y : ECmdRec := { x with deadline := some 1 }
    let z : ECmdRec := { x with closed := true, resolved := true }
    let w : ECmdRec := { x with resolved := true }
    let s (r : ECmdRec) : State := { cmds := [r] }
    let b : State := { s r with bad := [64] }
    ((s r).cmd 0 = some r ∧ r.opc = 1 ∧ (s r).gated r = true ∧ (s r).badSource r = none) ∧
    (b.gated r = true ∧ b.badSource r = some 64 ∧ r.status = 0 ∧ r.nq = false) ∧
    (x.opc = 24 ∧ x.resolved = false ∧ x.srcRing = none ∧ x.dstRing = some (0, 1) ∧ x.fallback = some (0, 2, 64) ∧ ((0, 1) : Nat × Nat) ≠ (0, 2) ∧
      x.deadline = some 0) ∧
    (y.deadline ≠ some 0 ∧ (s y).gated y = true ∧ (s y).badSource y = none) ∧ (z.closed = true ∧ (s z).gated z = true) ∧
    (w.resolved = true ∧ w.closed = false ∧ (s w).gated w = true ∧ (s w).badSource w = none) := by decide
theorem mapOk_ok {α β ε : Type} (f : α → Except ε β) : ∀ l : List α, (∀ x ∈ l, ∃ y, f x = .ok y) → ∃ r, mapOk f l = .ok r ∧ r.length = l.length
  | [], _ => ⟨[], rfl, rfl⟩
  | a :: l, h => by
    obtain ⟨y, hy⟩ := h a (by simp)
    obtain ⟨r, hr, hn⟩ := mapOk_ok f l fun x hx => h x (by simp [hx])
    exact ⟨y :: r, by simp [mapOk, hy, hr], by simp [hn]⟩
/-- A pass over the smallest tile and window; a queue with one place, and a full one; every cause of R237, each at the end of its range. -/
theorem test_meets_OpticalCommandsAccepted_passes :
    let q : List OCmd := (List.range 31).map fun i => { id := i, who := 0, part := 48, op := 19, fn := 0, nq := true, tag := 0 }
    let g : Stage := { queue := q, calgen := 1, temp := 3 }
    let s : State := { engine (ctxAt 0 [(1, 0), (2, 0x300000000), (3, 7)]) {} with dies := [(0, { stage := g })] }
    let z : State := { s with dies := [(0, { stage := { g with calgen := 0 } })] }
    let full : State := { s with dies := [(0, { stage := { g with queue := q ++ q } })] }
    let late : State := { s with cyc := 1 }
    let w : Word := s.me.ctl.sget 1
    s.guard on = true ∧ (s.die (dieOfWho 0)).stage.queue.length = 31 ∧ 32 ≤ (full.die 0).stage.queue.length ∧ (s.me.rqGet 3).length < 16 ∧
    s.credits (s.lay 0 4).ring none = true ∧ s.frameEntry (s.lay 0 4) = true ∧ (s.lay 0 4).ext.getD 0 0 = 2 ^ (oPERX w + oPERY w + 1) ∧
    (s.lay 0 4).ext.getD 0 0 = 2 ^ (oOWX w + oOWY w + 1) ∧ (7 ≥ oOWX w + oOSX w ∧ 7 ≥ oOWY w + oOSY w ∧ oPR w ≠ 3 ∧ oINV w = false) ∧
    (s.engAccess 4 false (s.lay 0 4).box).isOk = true ∧ (s.engAccess 4 true (s.lay 0 4).box).isOk = true ∧
    s.staleCause g 0x300000000 = none ∧ z.staleCause { g with calgen := 0 } 0x300000000 = some 1 ∧ (s.staleCause g 0x200000000) = some 3 ∧
    (g.queue.all fun o => !(o.op == 18 && o.fn == 0)) = true ∧ g.calgen ≠ 0 ∧ 0 * 256 < late.calAge g ∧ s.calAge g = 0 ∧ 2 < g.dT.natAbs ∧
    ((s.engAccess 7 true (s.lay 0 7).box).toOption.map fun b => b.elems.length * dWidth b.fmt) = some 512 := by decide
abbrev wideLay : Lay := ⟨[1, 0, 0, 0, 0], [32768, 0, 0, 0, 0], 0, 0, false, 0, 4, none, 0, 0, false, 0, 1, 6, false⟩
theorem test_meets_OpticalCommandsAccepted_frames :
    let s := engine (ctxAt 0 []) {}
    s.credits (s.lay 0 5).ring none = true ∧ s.frameEntry (s.lay 0 5) = true ∧ (s.lay 0 5).ext.getD 0 0 = 32768 ∧
    ∀ write : Bool, ∃ a, s.engAccess 5 write (s.lay 0 5).box = .ok a ∧ a.elems.length * dWidth a.fmt = 524288 := by
  refine ⟨by decide, by decide, by decide, fun w => ?_⟩
  generalize hs : ((engine (ctxAt 0 []) {}).modMe (fun c => { c with wins := [] })).atFiring (coreOf 0) = u
  have hl : u.lay 0 5 = layOf (entry 6 4 0 32768) := by subst hs; decide
  have he : layOf (entry 6 4 0 32768) = wideLay := by decide
  have hd : u.desc (u.partOf 0) 4 = 0x11000000 := by subst hs; decide
  have hb : ((engine (ctxAt 0 []) {}).lay 0 5).box = (List.range 32768).map fun i : Nat => [(i : Int)] := by
    rw [show (engine (ctxAt 0 []) {}).lay 0 5 = layOf (entry 6 4 0 32768) from by decide, he]
    simp only [Lay.box, boxCoords, List.replicate, List.take, List.map_cons, List.map_nil, List.flatten_cons, List.flatten_nil,
      List.append_nil, Int.zero_add, List.bind_eq_flatMap, List.pure_def, ← List.map_eq_flatMap, List.map_map]
    rfl
  obtain ⟨r, hr, hn⟩ := mapOk_ok (u.localElem (coreOf 0) 5 (layOf (entry 6 4 0 32768))
      (peerCore (coreOf 0) ((layOf (entry 6 4 0 32768)).peerRank (coreOf 0))) w 16) ((List.range 32768).map fun i : Nat => [(i : Int)]) (by
    intro x hx
    obtain ⟨i, hi, rfl⟩ := List.mem_map.mp hx
    have hi := List.mem_range.mp hi
    have h1 : (layOf (entry 6 4 0 32768)).inBounds [(i : Int)] = true := by
      rw [he]; simp [Lay.inBounds]; omega
    have h2 : (layOf (entry 6 4 0 32768)).offset [(i : Int)] = i := by rw [he]; simp [Lay.offset]
    have h3 : u.slotWin (coreOf 0) (layOf (entry 6 4 0 32768)) w = none := by rw [he]; rfl
    have h4 : (layOf (entry 6 4 0 32768)).base = 0 := by rw [he]
    have h5 : (layOf (entry 6 4 0 32768)).space = 6 := by rw [he]
    simp only [State.localElem, h1, h2, h3, h4, h5, spaceSize]
    rw [if_neg (by simp), if_neg (by omega)]
    exact ⟨_, rfl⟩)
  refine ⟨{ elems := r, fmt := 0x11000000 }, ?_, ?_⟩
  · have hm : (layOf (entry 6 4 0 32768)).isMem = false := by rw [he]; rfl
    have ho : (layOf (entry 6 4 0 32768)).isLocal = true := by rw [he]; rfl
    have h6 : (layOf (entry 6 4 0 32768)).space = 6 := by rw [he]
    have h7 : (layOf (entry 6 4 0 32768)).fmt = 4 := by rw [he]
    have h8 : dWidth 0x11000000 = 16 := rfl
    rw [hb]
    simp only [State.engAccess, hs, show (engine (ctxAt 0 []) {}).cur.who = 0 from rfl]
    simp only [State.access1, hl, hm, ho, h6, h7, hd, h8, hr]
    rfl
  · rw [hn, List.length_map, List.length_range]; show 32768 * dWidth 0x11000000 = 524288; decide
theorem test_meets_OpticalStageWorks :
    let m (op fn : Nat) : OCmd := { id := 0, who := 0, part := 48, op := op, fn := fn, nq := false, tag := 9 }
    let s (o : OCmd) : State := { dies := [(0, { stage := { queue := [o], calgen := 0xFFFFFFFF } })] }
    let p : OCmd := { m 16 0 with started := true, good := true }
    let q (o : OCmd) : List OCmd := ((s o).die 0).stage.queue
    (((q (m 16 0)).find? fun q => !(q.op == 16 && q.started)) = some (m 16 0) ∧ (m 16 0).op = 16) ∧
    (q p = [p] ∧ p.started = true ∧ p.good = true ∧ p.flags = 0) ∧ (q (m 17 1) = [m 17 1] ∧ (m 17 1).fn ≠ 0) ∧ q (m 17 0) = [m 17 0] ∧
    (q (m 18 0) = [m 18 0] ∧ (m 18 0).fn = 0) := by decide

theorem test_meets_ResultsLand :
    let f (d : Dest) : Fly := { id := 3, left := 0, dst := d, val := 7, bm := 255, size := 512, slot := .v0, grp := 2 }
    let c (d : Dest) (n : Nat) : Ctx := { fly := [f d], landed := [{ slot := Slot.s.num, grp := 2, dst := .scalar 1, size := 0, bm := 0 }],
                                          undo := (List.range n).map fun i => (100 + i, 0), rq := [(1, [{ id := 3 }]), (5, [{ id := 3 }])] }
    let s (d : Dest) (n : Nat) : State := { ctxs := [(0, c d n)] }
    ((c (.scalar 63) 0).fly.find? (fun g => g.id == 3) = some (f (.scalar 63)) ∧ (c (.scalar 63) 0).susp = false ∧ (f (.scalar 63)).left = 0 ∧
      (f (.scalar 63)).gate = [] ∧ (f (.scalar 63)).late = none ∧ ∀ l ∈ (c (.scalar 63) 0).landed, l.slot ≤ (f (.scalar 63)).slot.num) ∧
    (f (.pred 0)).dst = .pred 0 ∧ (f (.mask 7)).dst = .mask 7 ∧ (f .mxcfg).dst = .mxcfg ∧
    ((f (.win 512)).dst = .win 512 ∧ (s (.win 512) 63).undoFull 0 512 512 255 = false ∧ (s (.win 512) 64).undoFull 0 512 512 255 = true ∧
      (s (.win 512) 64).undoFull 0 512 512 0 = false) ∧
    ((c .mxcfg 0).rqGet 1).find? (fun e => e.id == 3 && !e.arrived && e.left == 0) = some { id := 3 } ∧
    ((c .mxcfg 0).rqGet 5).find? (fun e => e.id == 3 && !e.arrived && e.left == 0) = some { id := 3 } := by decide
theorem test_meets_ResultsLand_latches :
    let w (sel : LatSel) : LatW := { seq := 5, sel := sel, val := 1 }
    let c (sel : LatSel) (n : Nat) : Ctx := { ctl := { latw := [w sel], seq := n }, queues := [(Slot.m.num, [{ seq := n }])] }
    ((c .v1 8).ctl.latw = [w .v1] ∧ 5 + 3 ≤ (c .v1 8).ctl.seq ∧ ∀ e ∈ (c .v1 8).q .m, 5 + 3 ≤ e.seq) ∧
    (5 + 2 ≤ (c .mr 7).ctl.seq ∧ ∀ e ∈ (c .mr 7).q .m, 5 + 2 ≤ e.seq) ∧ (c .mr 7).q .v0 = [] ∧ (c .mr 7).q .v1 = [] := by decide
theorem test_meets_SpansAndBlocksClear :
    let e : WEnt := ⟨3, 64, 255, 7, 1, none, 48⟩
    let c : Ctx := { ckDue := true, held := [e], inst := some inst0, idle := 2 ^ 30, blk := some (.count 0 false 1),
                     wins := [{ n := 31, w := true, left := 0, bytes := [], pages := [] }] }
    let s : State := { ctxs := [(0, c)], cores := [(0, { rings := [(0, ({ filled := 1, pend := true, owner := 0 } : Ring).endTick), (1, { owner := 1 })] })] }
    (c.ckDue = true ∧ s.idleSpan 0 = true ∧ c.susp = false ∧ c.soft = none ∧ ({ c with soft := some (19, 5, 128) } : Ctx).susp = false) ∧ (s.ring 0 0).owner = ctxOf 0 ∧ (s.ring 0 1).owner ≠ ctxOf 0 ∧
    ({ c with held := [] }).idleSpan = true ∧ (c.held = [e] ∧ e.cls ≠ 17 ∧ e.mask ≠ 0 ∧ e.drawer = none ∧ s.fab.reqs = []) ∧
    (∃ w ∈ c.wins, w.n = 31 ∧ w.left = 0) ∧ (c.blk = some (.count 0 false 1) ∧ s.blockClear 0 (.count 0 false 1) = true) ∧
    (isFw 0 = false ∧ c.inst.isSome = true ∧ 2 ^ 30 = c.idle) ∧
    ((s.ring 0 0).pend = true ∧ (∀ o ∈ (s.ring 0 0).pops, o.done = true ∧ o.readers = []) ∧ ∀ o ∈ (s.ring 0 0).pushes, o.done = true) := by decide
/-- A context that may dispatch: an empty bundle, and one whose OCC is wrong; a second part of a split bundle. -/
def running (c : Ctx) (k : Core) : State := { ctxs := [(0, { c with inst := some inst0 })], cores := [(0, { k with prim := some 0 })] }
theorem test_meets_BundlesDispatchAndFire_dispatch :
    let s := running {} {}
    let b (x : BitVec 512) : Bundle := splitBundle x
    let u := s.modCtx 0 fun c => if c.foots.isEmpty then { c with ctl := { c.ctl with ibf := c.ctl.ib } } else c
    let v (x : BitVec 512) : Option (Trap × Nat) := u.verdict 0 (b x) ((u.ctx 0).opsOf (b x)).1
    let p : Split := { ents := [(.v1, {})], occ := 4, stop := false, ckpt := false }
    (s.me.split = none ∧ s.turn 0 (b 0) = true ∧ (s.me.bracket (s.me.opsOf (b 0)).1).2 = false) ∧ s.turn 0 (b 4) = true ∧
    v 4 = some (⟨1, 0, 0⟩, 8) ∧ (v 0 = none ∧ (s.core (coreOf 0)).bind = 0xA ∧ s.me.splId = none) ∧
    ((running { split := some p } {}).me.split = some p ∧ (s.core (coreOf 0)).tick = [] ∧ s.beside 0 p.occ p.stop = true) := by decide
theorem test_meets_BundlesDispatchAndFire_fires :
    let pop : Instr := .rpop on 0 0 1
    let e : Ent := { raw := encode pop, vv := 0x400 }
    let r : Ring := ({ en := true, filled := 1, slotlog := 3 } : Ring).endTick
    let s (b : Option Blk) : State := running { queues := [(Slot.ld.num, [e])], blk := b, blkSl := Slot.ld.num } { rings := [(1, r)] }
    let blk : Blk := .ring [[(1, 1, 0)]]
    let t := ((s (some blk)).modCtx 0 fun c => { c with blk := none }).elect (coreOf 0)
    ((s none).ctx 0).q .ld = [e] ∧ e.opIn .ld = some pop ∧ (issueRing pop (s none)).isSome = true ∧ (s none).mayIssue 0 .ld e pop = true ∧
    (((s none).ring 0 (1 : BitVec 6).toNat).en = true ∧ 1 + ((s none).ring 0 1).tPop ≤ ((s none).ring 0 1).old.filled) ∧
    (((s (some blk)).ctx 0).blk = some blk ∧ ((s (some blk)).ctx 0).blkSl = Slot.ld.num ∧ (s (some blk)).blockClear 0 blk = true ∧
      t.mayIssue 0 .ld e pop = true) := by decide
theorem test_meets_BundlesDispatchAndFire_broadcasts :
    let b : Bcast := { slot := 0, wid := 0, ranks := [0, 1], skew := 1, pc := 0, todo := [(1, 0, 5, 0)] }
    let u : Bcast := { b with todo := [] }
    let s (b : Bcast) : State :=
      { onPage page0 3 {} with rows := [(0, { bcast := some b })], ctxs := [(0, { inst := some { inst0 with part := 48, bcast := true } })] }
    (((s b).row 0).bcast = some b ∧ b.todo = (1, 0, 5, 0) :: [] ∧ b.ranks.head? ≠ some 1) ∧
    (u.stall = false ∧ u.ranks = 0 :: [1] ∧ (s u).bcastRoom 0 u = true ∧
      ((s u).ctx ((0 * 16 + 0) * 4)).inst = some { inst0 with part := 48, bcast := true } ∧ (u.pc - inst0.first).toNat < inst0.nb ∧
      ((s u).codeAt 0 48 u.pc.toNat).isOk = true) := by decide
/-- Task 0 of die 0 with one instance, for core 0, and context 0 free. -/
abbrev task0 : Task := { part := 48, img := 1, ksym := 2, masks := 0x10000000000010001, place := 0xFFF, state := 2, left := 1, prio := 3, quant := 1,
                         widths := [1], counts := [1] }
abbrev kernel0 : Kernel := { sym := 2, flags := 0, first := 0, nb := 1, code := [0], subs := [], rel4 := [] }
def world (t : Task) (c : Ctx) (save : Word) (snaps : List Snap) : State :=
  { ctxs := [(0, c)], tlb := [(0, 48, page0)], dies := [(0, { tasks := [(0, t)] })],
    parts := [(48, { own := 1, fmtd := fmts, save := save, ctl := 0x6060000100 + 96 * 2 ^ 40 })],
    svc := { keys := [(0, 0, 48)], snaps := snaps, images := [{ id := 1, part := 48, size := 64, kernels := [kernel0] }] } }
theorem test_meets_InstancesComeAndGo_starts :
    let s := world task0 { hold := false } 0 []
    (s.freeCtx 0 = true ∧ s.offer 0 = some (.fresh 0 0)) ∧ task0.chain = none ∧ s.taskKernel ((s.die 0).task 0) = some kernel0 ∧
    task0.bcast = false ∧ kernel0.rings = [] ∧ (∀ r ∈ (s.core (coreOf 0)).rings, r.2.en = false) := by decide
theorem test_meets_InstancesComeAndGo_ends :
    let i : Inst := { inst0 with part := 48 }
    let s := world { task0 with left := 1, state := 4 } { halting := true, inst := some i } 0 []
    let f : State := { ctxs := [(1024, { halting := true })] }
    (s.me.halting = true ∧ s.quiet 0 = true ∧ isFw 0 = false ∧ s.me.inst = some i ∧ i.bcast = false ∧ i.spl = none ∧
      (s.endInst 0 none).offer 0 = none) ∧ ((f.ctx 1024).halting = true ∧ f.quiet 1024 = true ∧ isFw 1024 = true) := by decide
theorem test_meets_InstancesComeAndGo_stops :
    let m : MOp := { id := 0, op := .mtr on 0 0, ent := {}, live := true, cfg := 0, stage := 1 }
    let c : Ctx := { hold := true, inst := some inst0, rq := [(0, entries 1)], mops := [m] }
    let r (l : Nat) : Ctx := { hold := false, susp := true, inst := some { inst0 with lvl := l } }
    let s := world task0 (r 1) 0 []
    (c.hold = true ∧ c.inst.isSome = true ∧ isFw 0 = false ∧ c.susp = false ∧ c.split = none ∧ (∀ e ∈ c.rqGet 0, e.arrived = true) ∧
      c.wait = none ∧ c.irrev = none) ∧ ((r 0).hold = false ∧ (r 0).susp = true ∧ ((world task0 (r 0) 0 []).drained 0 = true) ∧ ∀ i, (r 0).inst = some i → i.lvl = 0) ∧
    ((r 1).inst = some { inst0 with lvl := 1 } ∧ (s.die (dieOfWho 0)).pwrq = []) :=
  ⟨by decide, ⟨rfl, rfl, rfl, fun i h => by cases h; rfl⟩, by decide⟩
theorem test_meets_InstancesComeAndGo_resumes :
    let s := world { task0 with saved := [(0, 0, 4096)] } { hold := false } 0 [snap0]
    s.freeCtx 0 = true ∧ s.offer 0 = some (.saved 0 0 4096) ∧ s.snap ((s.die (dieOfWho 0)).task 0).part 4096 = some snap0 ∧
    (s.me.hold = false ∧ s.me.inst = none ∧ s.restoreWaits 0 snap0 = false) ∧
    ∃ u, s.restoreTo 0 ((s.die (dieOfWho 0)).task 0).part 4096 snap0 = .ok u :=
  ⟨by decide, by decide, by decide, by decide, restoreTo_ok _ 0 48 4096 snap0 rfl fun va h => page0_ok _ rfl rfl (by decide) (4096 + va) false (by omega)⟩
theorem test_meets_InstancesComeAndGo_overruns :
    let i : Inst := { inst0 with part := 48, held := 4096 }
    let s := world task0 { susp := true, inst := some i } 0x100000000001000 []
    let z := world { task0 with state := 4 } { inst := some i } 0 []
    (isFw 0 = false ∧ s.me.inst = some i ∧ s.me.preReq = false ∧ s.overrun i = true ∧ s.otherReady 0 ((s.die i.die).task i.slot).prio = true ∧
      s.saveSlot (dieOfWho 0) i.part = some (0, 4096)) ∧ (z.overrun i = true ∧ z.otherReady 0 ((z.die i.die).task i.slot).prio = false) ∧
    ∃ t u, s.stop 0 = some t ∧ t.drained 0 = true ∧ t.saveTo 0 i.part 4096 = .ok u := by
  refine ⟨by decide, by decide, ?_⟩
  obtain ⟨u, hu⟩ := saveTo_ok (world task0 { susp := true, inst := some { inst0 with part := 48, held := 4096 } } 0x100000000001000 []) 0 48 4096
    { inst0 with part := 48, held := 4096 } rfl rfl fun u hu => page0_ok _ rfl rfl (by decide) _ true (by
      simp only [show ((world task0 { susp := true, inst := some { inst0 with part := 48, held := 4096 } } 0x100000000001000 []).core (coreOf 0)).two
        = false from rfl, snapUnits, Bool.false_eq_true, if_false] at hu
      omega)
  exact ⟨_, u, rfl, by decide, hu⟩
theorem test_meets_InstancesComeAndGo_waits :
    let f : Fly := { id := 0, left := 0, dst := .scalar 1, val := 0, late := some { op := .mtr on 0 0, ent := {}, elems := [], scales := [], fmt := 0, sfmt := 0, overlay := [] } }
    let s (f : Fly) : State := { ctxs := [(0, { fly := [f] })] }
    (s f).drained 0 = false ∧ (s { f with fixed := true }).drained 0 = true := by decide
theorem test_meets_InstancesComeAndGo_preloads :
    let s := world { task0 with counts := [2], left := 2 } { inst := some inst0, hold := false } 0 []
    let p : Preload := { slot := 0, pc := 0, code := [] }
    let z : State := { ctxs := [], cores := [(0, { preload := some p })] }
    let k := s.modCore 0 fun c => { c with preload := some p }
    ((s.core 0).preload = none ∧ s.nextSlots 0 (fun j => (s.ctx (0 * 4 + j)).inst.isSome) = [0] ∧
      s.taskKernel ((s.die (dieOf 0)).task 0) = some kernel0) ∧ ((k.core 0).preload = some p ∧ p.slot ∈ k.nextSlots 0 fun _ => true) ∧
    ((z.core 0).preload = some p ∧ p.slot ∉ z.nextSlots 0 fun _ => true) := by decide

/-- A busy core and an idle one, rings in each of the three states of a write, legal and illegal settings; rows that change hands. -/
theorem test_meets_CoreRegisterWrites :
    let s : State := { cores := [(0, { rings := [(0, { pend := true }), (1, { en := true })] })], ctxs := [(4, { inst := some inst0 })],
                       parts := [(3, { ctl := 2 ^ 56, own := 1 })], svc := { bst := 2 } }
    let v : Word := BitVec.ofNat 64 (2 ^ 37 + 10 * 2 ^ 14 + 1 * 2 ^ 6)
    let f (lo w : Nat) : Nat := v.toNat / 2 ^ lo % 2 ^ w
    (s.ring 0 0).pend = true ∧ ((s.ring 0 1).pend = false ∧ (s.ring 0 1).en = true) ∧ ((s.ring 0 2).pend = false ∧ (s.ring 0 2).en = false) ∧
    (f 14 4 ≤ 10 ∧ 1 ≤ f 6 8 ∧ f 18 17 * 64 % Nat.min (64 * 2 ^ f 14 4) 4096 = 0 ∧ f 18 17 * 64 + 64 * 2 ^ f 14 4 * (f 6 8 + 1) ≤ bufSize (f 35 2)) ∧
    ¬ (1 ≤ (0 : Word).toNat / 2 ^ 6 % 2 ^ 8) ∧ ((s.ctx (1 * 4 + 0)).inst.isSome = true ∧ ∀ n, n < 4 → (s.ctx (0 * 4 + n)).inst.isSome = false) ∧
    (1 : Word).getLsbD 0 = true ∧ (0 : Word).getLsbD 0 = false ∧
    (∀ p ∈ s.parts, p.1 ≠ 2 → prtEn p.2.ctl = true → p.2.own &&& ((2 : Word) &&& 0xFFFFF) = 0) ∧
    (∀ p ∈ s.ctxs, isFw p.1 = false → p.2.inst.isSome = true → ((s.part 2).own ^^^ ((2 : Word) &&& 0xFFFFF)).getLsbD (rowOf (coreOf p.1)) = false) ∧
    s.svc.snaps = [] ∧ (∀ d, d < 4 → (s.die d).stage.queue = []) ∧
    (∃ p ∈ s.parts, p.1 ≠ 2 ∧ prtEn p.2.ctl = true ∧ p.2.own &&& ((1 : Word) &&& 0xFFFFF) ≠ 0) ∧ s.svc.bst ≠ 0 ∧ State.reset.svc.bst = 0 ∧
    ((srnOf 0x01000002).group = 1 ∧ (srnOf 0x01000002).word = 2) ∧ ((srnOf 0x01000003).group = 1 ∧ (srnOf 0x01000003).word = 3) ∧
    ((srnOf 0x02000010).group = 2 ∧ (srnOf 0x02000010).word = 0x10) ∧ ((srnOf 0x02000011).group = 2 ∧ (srnOf 0x02000011).word = 0x11) ∧
    (srnOf 0).group = 0 ∧ 12 < (srnOf 0x0D000000).group := by decide
/-- The last slot of a rondel; a heater that stays and one that changes; a ring one microsecond after its write; a changeover. -/
theorem test_meets_FabricRegisterWrites :
    let r : MRing := { heat := 5, svc := true, wl := 0, since := 0 }
    let s : State := { fab := { rings := [(0, r)], pairs := [(0, { state := 2 })], chg := [(0, 0, 9)] }, cyc := 2000 }
    ((1 : Nat) < 2 ∧ (255 : Nat) < 256) ∧ (5 : Word).setWidth 12 = (aget ({} : MRing) s.fab.rings 0).heat ∧
    (4 : Word).setWidth 12 ≠ (aget ({} : MRing) s.fab.rings 0).heat ∧
    ((aget ({} : MRing) s.fab.rings 0).since + s.mhz = s.cyc ∧ (aget ({} : MRing) s.fab.rings 0).svc = true ∧
      dark (s.pair (0 / 64)) (aget ({} : MRing) s.fab.rings 0).wl = false) ∧ (0, 0, 9) ∈ s.fab.chg := by decide
theorem test_meets_HostPortsAndDoorbells :
    let c : CmdQ := { part := 48, opened := true, count := 16, cbase := 8192 }
    let s (c : CmdQ) : State := { svc := { queues := [(1, c)] } }
    let w : CmdQ := { c with store := [7], cpi := 16 }
    ((7 : Nat) < 8 ∧ (nearSize - 1) + ([0] : List Byte).length = nearSize) ∧ (8 ≤ 8 ∨ False) ∧ nearSize < nearSize + ([0] : List Byte).length ∧
    (0 < aget 0 (s c).svc.tokAt 7 + (s c).mhz / 16 ∧ aget 0 (s c).svc.tokAt 7 + (s c).mhz / 16 = 125 ∧ ∀ x ∈ (s c).svc.hostWait, x.1 ≠ 7) ∧ (s c).queue 1 = c ∧ (c.opened = true ∧ c.store = [] ∧ ((16 : BitVec 32) - c.ci).toNat = c.count) ∧
    (c.count < ((17 : BitVec 32) - c.ci).toNat ∧ (c.cpi - c.cci).toNat < c.count) ∧ w.store ≠ [] ∧
    (c.heldPi = none ∧ c.handled = none ∧ (c.cpi - 0xFFFFFFF0).toNat = c.count) ∧ (w.store = [7] ∧ w.heldPi = none ∧ (w.cpi - 1).toNat < w.count) :=
  by decide
theorem test_meets_HostPortsAndDoorbells_invariant : State.reset.Inv := (by decide : State.reset.mem.wf = true)
/-- A queue of partition 3 with one packet at 0, and queue 0 with near offsets. Images lie at 4096, the completion ring at 8192. -/
def packets (part : Nat) (l : List (Nat × Byte)) (imgs : List Image) (q : Nat) : State :=
  { tlb := [(0, 3, page0)], parts := [(3, { own := 1, fmtd := fmts, ctl := 2 ^ 56 })], mem := l.filter fun e => e.2 != 0,
    svc := { keys := [(0, 0, 3)], images := imgs, queues := [(q, { part := part, opened := true, count := 16, cbase := 8192, pi := 4, posted := true })] } }
def awaits (s : State) (q opc : Nat) : Prop :=
  let c := s.queue q
  s.packetReady q = true ∧ c.posted = true ∧ c.handled = none ∧ c.rel = false ∧ c.store = [] ∧ (c.cpi - c.cci).toNat < c.count ∧
  s.malformed q = none ∧ s.opc q = opc
abbrev image1 : Image := { id := 1, part := 3, size := 64, kernels := [kernel0] }
/-- LAUNCH of kernel 2 of image 1 on core 0. -/
def launchPacket : List (Nat × Byte) :=
  [(0, 1), (2, 4), (8, 2), (12, 1), (14, 3), (22, 0xFF), (23, 0x0F), (24, 1), (26, 1), (32, 1)]
theorem test_meets_CommandsAreAnswered_launch :
    let s := packets 3 launchPacket [image1] 1
    let n := packets 3 launchPacket [] 1
    let t : Task := { state := 1 }
    let f : State := { s with dies := [(0, { tasks := (List.range 256).map fun i => (i, t) })] }
    awaits s 1 1 ∧ s.launchCause (s.launchTask 1) = none ∧ (∀ d, d < 4 → (s.die d).freeSlot.isSome = true) ∧
    awaits n 1 1 ∧ n.launchCause (n.launchTask 1) = some 1 ∧ awaits f 1 1 ∧ f.launchCause (f.launchTask 1) = none ∧ (f.die 0).freeSlot = none := by
  refine ⟨?_, by decide, by decide, ?_, by decide, ?_, by decide, by decide⟩ <;> unfold awaits <;> decide
/-- The smallest image: one section with nothing in it. -/
def loadPacket (magic : Byte) : List (Nat × Byte) :=
  [(0, 2), (2, 2), (65, 0x10), (72, 96), (80, 1), (4096, magic), (4097, 0x4F), (4098, 0x46), (4100, 1), (4102, 64), (4104, 1), (4108, 1),
   (4112, 64), (4164, 7)]
def loaded (s : State) : Option Nat :=
  let f : File := fun o n => if o + n ≤ s.packet 1 72 8 then s.nearRead 3 (s.packet 1 64 8 + o) n else 0
  let l := secsOf f
  s.imageCause 3 (s.packet 1 80 2) (s.packet 1 72 8) { secs := l, syms := symsOf f l, rels := relsOf f l, base := secBase 3 (s.packet 1 80 2) l, f := f }
theorem test_meets_CommandsAreAnswered_loads : awaits (packets 3 (loadPacket 0x4E) [] 1) 1 2 ∧ loaded (packets 3 (loadPacket 0x4E) [] 1) = none ∧
    awaits (packets 3 (loadPacket 0) [] 1) 1 2 ∧ loaded (packets 3 (loadPacket 0) [] 1) = some 1 ∧
    (packets 3 (loadPacket 0x4E) [image1] 1).imageUsed image1 = false ∧
    ({ packets 3 (loadPacket 0x4E) [image1] 1 with dies := [(0, { tasks := [(0, { task0 with part := 3 })] })] } : State).imageUsed image1 = true := by
  refine ⟨?_, by decide, ?_, by decide, by decide, by decide⟩ <;> unfold awaits <;> decide
def unloadPacket : List (Nat × Byte) := [(0, 3), (2, 1), (8, 1)]
theorem test_meets_CommandsAreAnswered_unloads : awaits (packets 3 unloadPacket [image1] 1) 1 3 ∧ (packets 3 unloadPacket [image1] 1).image 3 1 = some image1 ∧
    awaits (packets 3 unloadPacket [] 1) 1 3 ∧ (packets 3 unloadPacket [] 1).image 3 1 = none := by
  refine ⟨?_, by decide, ?_, by decide⟩ <;> unfold awaits <;> decide
/-- OPENQ of queue 1 of partition 3 with 16 entries, and of queue 0. -/
def openPacket (n : Byte) : List (Nat × Byte) := [(0, 4), (2, 2), (64, n), (66, 3), (73, 0x20), (80, 16), (89, 0x40)]
def closePacket (n : Byte) : List (Nat × Byte) := [(0, 5), (2, 1), (8, n)]
theorem test_meets_CommandsAreAnswered_queues :
    let s := packets 48 (openPacket 1) [] 0
    let t := packets 48 (openPacket 0) [] 0
    let u := packets 48 (closePacket 0) [] 0
    let v := (packets 48 (closePacket 2) [] 0).setQueue 2 { part := 3, opened := true, pi := 1 }
    awaits s 0 4 ∧ s.openCause (s.packet 0 64 2) (s.packet 0 66 1) (s.packet 0 72 8) (s.packet 0 80 4) (s.packet 0 88 8) = none ∧
    awaits t 0 4 ∧ t.openCause (t.packet 0 64 2) (t.packet 0 66 1) (t.packet 0 72 8) (t.packet 0 80 4) (t.packet 0 88 8) = some 16 ∧
    awaits u 0 5 ∧ u.packet 0 8 2 = 0 ∧
    awaits v 0 5 ∧ v.packet 0 8 2 = 2 ∧ (v.queue 2).opened = true ∧ (v.queue 2).ci ≠ (v.queue 2).pi := by
  refine ⟨?_, by decide, ?_, by decide, ?_, by decide, ?_, by decide, by decide, by decide⟩ <;> unfold awaits <;> decide
/-- RESYNC with attestation into exactly the bytes it needs, and into too few; an unaligned destination; no leaf left. -/
def resyncPacket (flag d0 n1 : Byte) : List (Nat × Byte) := [(0, 6), (1, flag), (2, 1), (8, d0), (9, 0x40), (17, n1), (18, 2)]
theorem test_meets_CommandsAreAnswered_resync :
    let s := packets 48 (resyncPacket 1 0 0x1C) [] 0
    let t := packets 48 (resyncPacket 1 1 0x1B) [] 0
    let u : State := { s with svc := { s.svc with leaf := 2 ^ 20 } }
    awaits s 0 6 ∧ s.packet 0 1 1 % 2 = 1 ∧ s.packet 0 16 4 = 0x21C00 ∧ s.svc.leaf < 2 ^ 20 ∧ s.packet 0 8 8 % 4096 = 0 ∧
    s.nearOk 48 (s.packet 0 8 8) 0x21C00 = true ∧ t.packet 0 16 4 < 0x21C00 ∧ t.packet 0 8 8 % 4096 ≠ 0 ∧ 2 ^ 20 = u.svc.leaf := by
  refine ⟨?_, by decide, by decide, by decide, by decide, ?_, by decide, by decide, by decide⟩
  · unfold awaits; decide
  · rw [show (packets 48 (resyncPacket 1 0 0x1C) [] 0).packet 0 8 8 = 16384 from by decide]
    simp [State.nearOk, unitSpan, State.nearUnit, nearSize]; omega

theorem test_meets_TasksEnterAndLeave_enters :
    let s := packets 3 launchPacket [image1] 1
    let u := s.setQueue 1 { s.queue 1 with handled := some (1, 4), task := 7 }
    (3 : Nat) < 4 ∧ (u.queue 1).handled = some (1, 4) ∧ (u.die 3).freeSlot = some 0 ∧ u.taskKernel (u.launchTask 1) = some kernel0 ∧
    kernel0.splice = false ∧ (u.die 3).lastOf 1 = none ∧ (∀ f ∈ (u.die 3).fetched, f ≠ (1, (u.queue 1).ci.toNat)) ∧
    (u.launchTask 1).share 3 = 0 ∧ (u.launchTask 1).share 0 = 1 := by decide
theorem test_meets_TasksEnterAndLeave_leaves :
    let t : Task := { taskno := 7, state := 4 }
    let s : State := { dies := [(0, { tasks := [(5, t)], shares := (List.range 4).map fun d => (7, d, none) }), (1, { tasks := [(255, t)] })] }
    let x : Task := { task0 with state := 5, act := 1, faulted := [(3, [5])], nfault := 1 }
    let r (a : Nat) : State := { dies := [(3, { tasks := [(5, { x with act := a }), (6, { task0 with holdLeft := some 0 })] })] }
    (((s.die 1).task 255).state = 4 ∧ ((s.die 1).task 255).chain = none ∧ s.busyFor [7] = false) ∧
    (∀ y ∈ (({ dies := [(1, { tasks := [(255, t)] })] } : State).die 0).shares, ¬ (y.1 = (7 : Word).toNat ∧ y.2.1 = 1)) ∧
    ((s.die 0).tasks = [(5, t)] ∧ t.state = 4 ∧ s.together 256 [t.taskno] = [t.taskno] ∧
      (s.sharesOf t.taskno).map (·.2) = [none, none, none, none] ∧ s.fab.reqs = []) ∧
    (((r 1).die 3).task 6).holdLeft = some 0 ∧ ((((r 1).die 3).task 5).state = 5 ∧ (((r 1).die 3).task 5).chain = none ∧
      (((r 1).die 3).task 5).act = 1 ∧ ∀ w ∈ (((r 1).die 3).task 5).faulted, w.2 = [5]) ∧ (((r 2).die 3).task 5).act = 2 := by decide
theorem test_meets_RailsAndPatterns :
    let s (n timer : Nat) (fit : Bool) : State :=
      { dies := [(3, { rstate := n, timer := timer })], rows := (List.range 4).map fun r => (12 + r, { fitted := fit }) }
    ((s 1 0 false).die 3).rstate = 1 ∧ (((s 4 0 false).die 3).rstate = 4 ∧ ((s 4 0 false).die 3).vnow = ((s 4 0 false).die 3).tgt) ∧
    (((s 2 0 true).die 3).rstate = 2 ∧ ∀ r, r < 4 → ((s 2 0 true).row (3 * 4 + r)).fitted = true) ∧
    (((s 3 4000000 true).die 3).rstate = 3 ∧ 2000 * (s 3 4000000 true).mhz = ((s 3 4000000 true).die 3).timer) ∧ (s 0 0 true).cyc % 16 = 0 := by decide
theorem test_meets_SensorsTelemetryResets :
    let d : Die := { talert := 100, tcrit := 200, sens := [(15, 99, 99, 5, true)] }
    let s : State := { dies := [(3, d)] }
    (15 : Nat) < 16 ∧ (3 : Nat) < 4 ∧ (s.die 3).talert ≤ 100 ∧ aget (0, 0, 0, true) (s.die 3).sens 15 = ((99 : BitVec 16), (99 : BitVec 16), (5 : BitVec 16), true) ∧
    (s.die 3).tcrit ≤ 200 ∧ (s.die 3).hot = false ∧ (35 : BitVec 16).toNat + 64 < (s.die 3).talert.toNat ∧
    (aget 0 State.reset.svc.steps 0).getLsbD 8 = false ∧ (aget 0 State.reset.svc.steps 0).getLsbD 9 = false := by decide
/-- A user context with a block to undo, a handler's context, and a firmware core before and after its first trap. -/
theorem test_meets_TrapEntry :
    let c : Ctx := { undo := [(0, 5), (511, 6)], inst := some inst0 }
    let s : State := { ctxs := [(0, c), (1, { c with priv := 1 }), (1024, { service := true }), (1025, { service := true, trapped := true })] }
    isFw 0 = false ∧ c.priv = 0 ∧ (20 : Nat) ≠ 21 ∧ (23 : Nat) ≠ 22 ∧ s.spliceEntry 0 5 = none ∧ c.inst = some inst0 ∧ s.mem.wf = true ∧
    (c.undo.map (·.1)).Nodup ∧ (s.ctx 1).priv ≠ 0 ∧ s.spliceEntry 1 5 = none ∧ isFw 1024 = true ∧ (s.ctx 1024).trapped = false ∧
    isFw 1025 = true ∧ (s.ctx 1025).trapped = true := by decide
theorem test_meets_InvariantKept : ∃ s t : State, s.Inv ∧ step s = .next t := ⟨{ sched := [.tick] }, _, (by decide : Memory.wf [] = true), rfl⟩
theorem test_meets_DecodeEncodeRoundTrip : kindOf (.swq on 1 2) = some .s ∧ wf (.swq on 1 2) = true ∧ kindOf (.bar y0) = some .y ∧ wf (.bar y0) = true ∧
    (decode .s (encode (.swq on 1 2))).toOption = some (.swq on 1 2) := by decide
/-- The head of a queue that may issue, and one whose unit is taken; a bundle that is fetched; an event. -/
theorem test_meets_StepRunsScheduled :
    let i : Instr := .add on 1 2 3
    let e : Ent := { raw := encode i }
    let s := running { queues := [(Slot.s.num, [e])] } {}
    let t := running { queues := [(Slot.s.num, [e])] } { issued := [0] }
    let f : State := { onPage page0 3 {} with ctxs := [(0, { inst := some { inst0 with part := 48 } })] }
    (s.ctx 0).q .s = e :: [] ∧ e.ghost = false ∧ (decode Slot.s.kind e.raw).toOption = some i ∧ s.mayIssue 0 .s e i = true ∧
    t.mayIssue 0 .s e i = false ∧ (f.ctx 0).split = none ∧ (f.fetch 0).isOk = true ∧ kindOf (.drawerSlot 0) = none := by decide
theorem test_meets_MemoryReadsBack :
    State.reset.mem.wf = true ∧ (keyedAddr 4032 = true ∧ 4032 % 64 + 64 ≤ 64) ∧ keyedAddr localBase = false ∧
    (keyedAddr (4032 * 8 / 8) = true ∧ (4032 * 8) % 512 + 512 ≤ 512 ∧ State.reset.taskUnit (4032 * 8 / 512) = none) ∧
    (keyedAddr (localBase * 8 / 8) = false ∧ 64 % 8 = 0 ∧ localBase * 8 % 8 = 0) ∧ (localBase * 8 + 4) % 8 + 4 ≤ 8 := by decide

/-! ## Further ends of the ranges -/

/-- A ring whose EN a write clears at once, and a write that waits for the tick's end. -/
theorem test_meets_SystemRegisterAccess_later :
    let s : State := { firmware [(1, 0x01000100), (2, 0x01000003)] with cores := [(0, { rings := [(0, { en := true })] })] }
    let n := srnOf ((s.sreg 1).toNat % 2 ^ 32)
    let w : State := { s with regw := [(1024, 0x01000003, 5)] }
    (s.written.regCause s.cur.who n true = none ∧ (n.group = 1 ∧ 0x100 ≤ n.word ∧ n.word < 0x140) ∧
      (s.ring n.core (n.word - 0x100)).en = true ∧ (s.sreg 3).getLsbD 37 = false) ∧
    (w.regw = [(1024, (s.sreg 2).toNat, 5)] ∧ (({ w with regw := [] } : State).regWrite (srnOf 0x01000003) 5).isOk = true) := by decide
/-- The packet at CI of queue 1 has raised event 3, or another. -/
theorem test_meets_EventsAndOrderingLocks_release :
    let s (n : BitVec 20) : State := { locked [(1, 3, some 1024)] 1 3 with svc := { locks := [(1, 3, some 1024)], queues := [(1, { posted := true, evSeq := n })] } }
    ((s 4).svc.lock 1 = (3, some (s 4).cur.who) ∧ ((s 4).queue 1).eventIs 3 = true) ∧ ((s 5).queue 1).eventIs 3 = false := by decide
theorem test_meets_LinkPairTransitions_counts : let s := pairAt 100 { state := 4, tries := 8 }
    (s.pair 100).lit = true ∧ 64 ≤ 100 ∧ (s.pair 100).tries = 8 := by decide
/-- A transfer with its arm and one flit, which comes again; an arm of one element in near memory; control flits seen, and none due. -/
theorem test_meets_SendsAndReceives_again : let f : Fabric := { swRun := true, swGd := false, swRef := 64, swslots := [(0, circuit)] }
    let y : Xfer := { port := 0, rq := 7, seq := 2, arm := some 0, got := [0] }
    let m : Elem × Elem := (⟨4096 * 8, 64, 1⟩, ⟨4096 * 8, 64, 1⟩)
    let r : ECmdRec := { cmd8 with opc := 9, moves := [m] }
    let s : State := { fab := { f with xfers := [y], ctlSeen := [(0, 5)], ctls := [{ path := 70, seq := 0, kind := 3, port := 0, xseq := 4, age := 0 }] }, cmds := [r] }
    (s.fab.accepts 0 1 4000 = true ∧ s.fab.xfers = [y] ∧ y.notice = none ∧ y.port = 0 ∧ y.seq = (2 : BitVec 32).toNat ∧ y.arm = some 0 ∧ s.cmd 0 = some r ∧
      ¬ (1 ∈ y.got ∨ ∃ f ∈ y.flits, f.1 = 1) ∧ 0 ∈ y.got) ∧
    (r.moves = m :: [] ∧ ∀ e ∈ r.moves, drawerOf (e.1.addr / 8) = none) ∧ (0, 5) ∈ s.fab.ctlSeen ∧
    (∀ c ∈ s.fab.ctls, ¬ (c.path = 70 ∧ 70 < 128 ∧ s.fab.ctlto.toNat * 1024 ≤ c.age)) ∧
    (cmd8.opc = 8 ∧ cmd8.waited < s.fab.stallto.toNat * 1024) := by decide
/-- A firmware core's entry 1 is the near memory that holds queue 1's completion ring; its port has a token, or has none. -/
theorem test_meets_StoresAreWithheld_packets :
    let s (t : Nat) : State :=
      { cur := { who := 1024 },
        svc := { queues := [(1, { part := 48, opened := true, count := 16, cbase := 8192 })], tokens := [(1, t)], winSize := 65536,
                 fwLay := [(1, entry 0 0 8192 8)] } }
    let a (t : Nat) : Option (List Elem) := ((s t).access 1024 1 true false [[0]]).toOption.map (·.elems)
    ((a 1).bind fun es => (s 1).packetPort 1024 es) = some 1 ∧ aget 0 (s 1).svc.tokens 1 = 1 ∧
    ((a 0).bind fun es => (s 0).packetPort 1024 es) = some 1 ∧ aget 0 (s 0).svc.tokens 1 = 0 := by decide
/-- Values of both orders: -0 and 0, infinities, a number and a NaN. -/
theorem test_meets_PredicateResults_numbers : let s := user [(1, 0x80000000), (2, 0x7F800000), (3, 0x3F800000)]
    ((s.fval .fp32 1).isNaN = false ∧ (s.fval .fp32 2).isNaN = false ∧ (s.fval .fp32 3).isNaN = false) ∧ s.fval .fp32 2 = .inf false := by decide
/-- Words of opcodes 0x1A, 0x1B, 0x1F and 0x2C that decode; condition 6, a type that is no format and an unused field that is set. -/
theorem test_meets_PredicateResults_words :
    (decode .s (encode (.sel on 1 15 2 3)) = .ok (.sel on 1 15 2 3) ∧ decode .s (encode (.cmp on .len 1 2 3)) = .ok (.cmp on .len 1 2 3) ∧
      decode .s (encode (.fcmp on .un .fp64 1 2 3)) = .ok (.fcmp on .un .fp64 1 2 3)) ∧
    (let w : BitVec 80 := 0x1B ||| (6 <<< 39)
     w.extractLsb' 0 7 = (0x1B : BitVec 7) ∧ (w.extractLsb' 39 8).toNat = 6) ∧
    (let w : BitVec 80 := 0x2C ||| (0x4C <<< 39)
     w.extractLsb' 0 7 = (0x2C : BitVec 7) ∧ (w.extractLsb' 39 8).toNat / 16 = 4 ∧ 12 ≤ (w.extractLsb' 39 8).toNat % 16) ∧
    (let w : BitVec 80 := 0x1F ||| (1 <<< 24)
     w.extractLsb' 0 7 = (0x1F : BitVec 7) ∧ w.extractLsb' 24 6 ≠ (0 : BitVec 6)) := by decide
/-- The lock of the hardware's events, with no completion to hand over. -/
theorem test_meets_EventsAndOrderingLocks_hardware : let s := locked [(4095, 3, some 1024)] 4095 3
    (s.sreg 1).toNat / 2 ^ 20 % 2 ^ 12 = 4095 ∧ s.svc.lock 4095 = ((s.sreg 1).extractLsb' 0 20, some s.cur.who) ∧
    (∀ h ∈ s.svc.handling, h.1 ≠ 3) ∧ (s.queue 4095).eventIs 3 = false := by decide
/-- A write's lane with no wavelength that corrupts it; a load that waits for its last unit. -/
theorem test_meets_DrawerAccesses_waits :
    let l : Late := { op := .mtr on 0 0, ent := {}, elems := [], scales := [], fmt := 0, sfmt := 0, overlay := [] }
    let f : Fly := { id := 0, left := 0, dst := .scalar 1, val := 0, late := some l, gate := [0] }
    let s := { drawer { req0 with left := some 0 } 2 with ctxs := [(0, { fly := [f] })] }
    let w := { req0 with kind := 1 }
    let v := { drawer w 2 with fab := { (drawer w 2).fab with heatw := (List.range 8).map fun k => ((reqPair w * 4 + laneOf w.unit % 4) * 8 + k, 1) } }
    (s.req 0 = some { req0 with left := some 0 } ∧ s.mayPerform { req0 with left := some 0 } = true) ∧
    ((s.ctx 0).fly = [f] ∧ f.arr = false ∧ f.late = some l ∧ f.fixed = false ∧ f.gate = [0]) ∧
    (∀ b, v.lostBits (reqPair w) (laneOf w.unit % 4) b = 0) ∧ v.noLater w w = true := by decide
/-- 32 windows open; the first two have the fewest bundles left. -/
theorem test_meets_TouchWindowsAndSpill_full :
    let wins := (List.range 32).map fun n => ({ n := n, w := false, left := if n < 2 then 1 else 9, bytes := [], pages := [] } : TWin)
    (∀ k, k < 32 → ∃ x ∈ wins, x.n = k) ∧ ∀ x ∈ wins, 1 < x.left ∨ (1 = x.left ∧ 0 ≤ x.n) := by decide
/-- An `mpre` whose ring owes one pop, and an `mmulp` whose plane is loaded. -/
theorem test_meets_MatrixWorkEnds_rings :
    let pre : MOp := { id := 0, op := .mpre on 1 0 2 0, ent := {}, live := true, cfg := mcfg0, stage := 2, rings := [(0, 2, 1, 0)] }
    let mul : MOp := { id := 0, op := .mmulp on 0 0 0 1 false false 0 0 1 0, ent := {}, live := true, cfg := mcfg0, stage := 2 }
    let s (m : MOp) : State := { ctxs := [(0, { mops := [m] })], cores := [(0, { rings := [(2, { pops := [{ own := true }] })] })] }
    (pre.peer = none ∧ ((s pre).ring 0 2).pops = List.replicate 1 { own := true } ∧ ((s pre).ring 0 2).pushes = List.replicate 0 { own := true }) ∧
    (((s mul).ctx 0).mops.find? fun y => y.stage == 2 && y.left == 0 && y.loads == some 0) = some mul ∧
    ((s mul).ctx 0).frozen = false := by decide
/-- A preload whose values stand in memory; one whose memory has changed since; an `exf` with one ring of two free slots for both. -/
theorem test_meets_EngineCommandsAccepted_preloads :
    let w (v : Nat) : PreW := { ring := 1, elems := (List.range 8).map fun i : Nat => ⟨(4096 + 8 * i) * 8, 64, 1⟩, vals := List.replicate 8 v }
    let s := engine (ctxAt 0 regs) {}
    let two : Ring := ({ en := true, free := 2, countm1 := 1 } : Ring).endTick
    ((w 0).elems.map s.elem = (w 0).vals ∧ ∀ e ∈ (w 0).elems, s.spoilt e = false) ∧ (w 7).elems.map s.elem ≠ (w 7).vals ∧
    (two.en = true ∧ 1 + two.tPush ≤ two.old.free ∧ two.old.exf = false ∧ two.exf = none ∧ 1 ≤ two.old.free - two.tPush - 1) := by decide
/-- Entries that are no frame, of another size, and a control word that does not fit; a capture ahead; boxes of the wrong size. -/
theorem test_meets_OpticalCommandsAccepted_bounds :
    let s := engine (ctxAt 0 [(1, 0), (2, 0x1F)]) {}
    let frame (n : Nat) : Bool := (s.lay 0 n).rank == 1 && (s.lay 0 n).str.getD 0 0 == 1 && dKind (s.desc 48 (s.lay 0 n).fmt) == 1
    let q : Stage := { queue := [{ id := 0, who := 0, part := 48, op := 18, fn := 0, nq := true, tag := 0 }], calgen := 1 }
    frame 2 = false ∧ frame 4 = true ∧ (s.lay 0 5).ext.getD 0 0 ≠ 2 ^ (oPERX 0 + oPERY 0 + 1) ∧ (s.lay 0 4).ext.getD 0 0 ≠ 32768 ∧
    ¬ 7 ≥ oOWX (0xFFFFFFFF : Word) + oOSX (0xFFFFFFFF : Word) ∧
    (∃ o ∈ q.queue, o.op = 18 ∧ o.fn = 0 ∧ (o.cyc ≠ s.cyc ∨ o.who ≤ 0)) ∧ s.staleCause q 0x300000000 = none ∧
    ((s.engAccess 4 true (s.lay 0 4).box).toOption.map fun b => b.elems.length * dWidth b.fmt) = some 32 := by decide
/-- Commands that came in an earlier tick, at the head of the queue. -/
theorem test_meets_OpticalStageWorks_heads :
    let m (op fn : Nat) : OCmd := { id := 0, who := 0, part := 48, op := op, fn := fn, nq := false, tag := 9 }
    let s (o : OCmd) : State := { dies := [(0, { stage := { queue := [o] } })], cyc := 1 }
    [m 19 0, m 19 1, m 18 1, m 18 2].all (fun o => ((s o).die 0).stage.queue == [o] && decide (o.cyc < (s o).cyc)) = true ∧
    ({} : Stage).tables = none := by decide
/-- The latch write's three operations have issued, the second half of a split bundle among them. -/
theorem test_meets_ResultsLand_split :
    let p : Split := { ents := [(.v1, { seq := 8 })], occ := 4, stop := false, ckpt := false }
    let c : Ctx := { ctl := { latw := [{ seq := 5, sel := .v1, val := 1 }], seq := 8 }, split := some p }
    5 + 3 ≤ c.ctl.seq ∧ (∀ e ∈ c.pendingOps .v1, 5 + 3 ≤ e.seq) ∧ (c.pendingOps .v1).length = 1 := by decide
/-- A stopped context whose system instruction holds. -/
theorem test_meets_InstancesComeAndGo_holds :
    let c : Ctx := { hold := true, inst := some inst0, irrev := some 0, queues := [(Slot.s.num, [{ raw := encode (.tlbinv on 1 2 3 4) }])] }
    ({ ctxs := [(0, c)] } : State).holding 0 = true ∧ c.irrev ≠ none := by decide
/-- Averages at the end of a microsecond; a changeover whose lane has passed a flit boundary. -/
theorem test_meets_FabricRegisterWrites_times :
    let r : MRing := { heat := 5, svc := true, wl := 0, since := 0 }
    let s : State := { fab := { rings := [(0, r)], pairs := [(0, { state := 2 })], chg := [(0, 0, 9)] }, cyc := 2000 }
    let flit (ns : Nat) : Nat := (BitVec.ofNat 32 ns + (s.pair 0).phase).toNat / (8 / (s.pair 0).lanes)
    let d : Int := r.centre.toInt - r.heat.toNat
    s.cyc % s.mhz = 0 ∧ r.since + s.mhz ≤ s.cyc ∧ (512 < d.natAbs ∨ ((0 : Int) - (0 - 2 * d) - 2 * d).natAbs ≤ 8) ∧
    flit 9 ≠ flit s.ltime ∧ 8 / (s.pair 0).lanes ≠ 0 := by decide
/-- Every port up, or port 7 alone. -/
theorem test_meets_HostPortsAndDoorbells_ports :
    let s (p : BitVec 8) : Service := { ports := p }
    (s 0x80).ports.getLsbD 7 = true ∧ (s 0x80).ports.getLsbD 0 = false ∧ (s 0x80).portOf 1 = 7 ∧ (s 0xFF).ports = 0xFF ∧ (s 0x80).ports ≠ 0 := by decide

/-! ## Small steps: what the specification's examples say -/

def after : Host.Outcome State Fault Refusal → Option State
  | .next t => some t
  | _ => none
/-- Destinations and values of the results that a context has in flight. -/
def results (o : Host.Outcome State Fault Refusal) (who : Nat := 0) : Option (List (Dest × Nat)) :=
  (after o).map fun t => (t.ctx who).fly.map fun f => (f.dst, f.val)

/-- `addi s5, s5, 1` (chapter 06), placed where the next step takes it, from reset. -/
theorem test_step_addi : results (step (State.reset.withFetchWord 64 0x0000000001145020)) = some [(.scalar 5, 1)] := by decide
/-- R118: -2^63 - 1 wraps; the product of two -1s, high half and whole. -/
theorem test_sub_wraps : results (exec (.sub on 3 1 2) (user [(1, 0x8000000000000000), (2, 1)])) = some [(.scalar 3, 0x7FFFFFFFFFFFFFFF)] := by decide
theorem test_mulhn_high : results (exec (.mulhn on 3 1 1) (user [(1, 0xFFFFFFFFFFFFFFFF)])) = some [(.scalar 3, 0xFFFFFFFFFFFFFFFE)] := by decide
theorem test_mulh_signed : results (exec (.mulh on 3 1 2) (user [(1, 0xFFFFFFFFFFFFFFFF), (2, 5)])) = some [(.scalar 3, 0xFFFFFFFFFFFFFFFF)] := by decide
/-- R119: 17 / 5 gives 3, the remainder of -17 takes the dividend's sign, and division by zero gives all ones. -/
def divided (o : Host.Outcome State Fault Refusal) : Option (List (Nat × Nat)) := (after o).map fun t => (t.me.rqGet 1).map fun e => (e.left, e.data)
theorem test_div : divided (exec (.div on 1 2) (user [(1, 17), (2, 5)])) = some [(66, 3)] := by decide
theorem test_rem_sign : divided (exec (.rem on 1 2) (user [(1, 0xFFFFFFFFFFFFFFEF), (2, 5)])) = some [(66, 0xFFFFFFFFFFFFFFFE)] := by decide
theorem test_divn_by_zero : divided (exec (.divn on 1 2) (user [(1, 17)])) = some [(66, 0xFFFFFFFFFFFFFFFF)] := by decide
/-- R82: a shift by 64 or more leaves nothing, and `sar` the sign. -/
theorem test_shl_full : results (exec (.shl on 3 1 2) (user [(1, 5), (2, 64)])) = some [(.scalar 3, 0)] := by decide
theorem test_sar_full : results (exec (.sar on 3 1 2) (user [(1, 0x8000000000000000), (2, 0x10000)])) = some [(.scalar 3, 0xFFFFFFFFFFFFFFFF)] := by decide
/-- R129: a `loop` at 1 falls through and leaves 0. -/
theorem test_loop_ends : ((after (exec (.loop on 5 0xFFFFFFF) (user [(5, 1)]))).map fun t => (t.me.ctl.pc, t.me.fly.map (·.val))) = some (1, [0]) := by decide
/-- R123: 1 + 2^-60 rounds to 1 in fp32 to nearest and sets NX; toward plus infinity it goes up. -/
theorem test_fadd_rounds : ((after (exec (.fadd on 0 .fp32 3 1 2) (user [(1, 0x3F800000), (2, 0x21800000)]))).map
    fun t => (t.me.fly.map (·.val), t.me.ctl.fstat)) = some ([0x3F800000], fNX) := by decide
theorem test_fadd_rounds_up : results (exec (.fadd on 3 .fp32 3 1 2) (user [(1, 0x3F800000), (2, 0x21800000)])) = some [(.scalar 3, 0x3F800001)] := by decide
/-- Chapter 17's KFAULT handler: `evq.pop`, `olk.acq`, `syswr` of CTX.CFG of context 2 of core 1.1.3, `olk.rel`. -/
abbrev kfault : Word := 0x03530002FFF00005
theorem test_evqPop : results (exec (.evqPop on 1 1 false) { firmware [] with svc := { events := [kfault] } }) 1024 =
    some [(.scalar 1, 0x03530002FFF00005), (.pred 1, 1)] := by decide
theorem test_olkAcq : ((after (exec (.olkAcq on 1) { firmware [(1, kfault)] with svc := { locks := [(4095, 5, none)] } })).map
    fun t => t.svc.lock 4095) = some (5, some 1024) := by decide
theorem test_syswr_cfg : ((after (exec (.syswr on 2 3 0) { firmware [(2, 0x01538000), (3, 1)] with cyc := 1 })).map
    fun t => ((t.ctx (83 * 4 + 2)).arr, (t.coreTicks.ctx (83 * 4 + 2)).arr, (t.coreTicks.ctx (83 * 4 + 2)).hold)) = some (false, true, false) := by decide
theorem test_sysrd_cfg : results (exec (.sysrd on 3 2 0) { firmware [(2, 0x01538000)] with ctxs := [(1024, ctxAt 0 [(2, 0x01538000)]), (334, { hold := false })] }) 1024 =
    some [(.scalar 3, 0)] := by decide
theorem test_event_word : eventHigh 3 (eventSrc 83) 2 * 2 ^ 32 + 4095 * 2 ^ 20 + 5 = 0x03530002FFF00005 := by decide
/-- R19: the instance with f0 = 5, f1 = 2 and f2 = 9 has WID 4869 and runs on die 2, row 1, core 9. -/
abbrev placed : Task := { widths := [7, 2, 4], counts := [128, 4, 16], place := BitVec.ofNat 16 (1 + 7 * 8 + 2 * 64), masks := 2 ^ 320 - 1 }
theorem test_placement : placed.wid 4869 = 0x1305 ∧ placed.homeCore 4869 = some ((2 * 4 + 1) * 16 + 9) := by decide
/-- Chapter 04's L3: element (70, 5) of an A buffer entry with SWZ 1 stands at word 276, byte 6. -/
theorem test_layout_swizzle : bankPlace 1 (aBase 0 + 0x4546) = aBase 0 + 276 * 64 + 6 := by decide
/-- R60 byte by byte: an 8-byte element at word 16, byte 60 of a W buffer under SWZ 1 lies in words 17 and 16. -/
theorem test_layout_straddle :
    (storeEnts 48 0 ⟨(wBase 0 + 16 * 64 + 60) * 8, 64, 1⟩ (2 ^ 64 - 1)).map (·.unit) = [wBase 0 / 64 + 17, wBase 0 / 64 + 16] := by decide
/-- R347's walk. -/
def units (l : List (Nat × Nat)) : Memory := l.foldl (fun (m : Memory) e => m.write e.1 8 e.2) []
def tables : State :=
  { mem := units [(0x100000, 0x120001), (0x120468, 0x140001), (0x140158, 0x141001), (0x141038, 0x08287000468AC003)],
    parts := [(3, { ptroot := 0x100001 })] }
theorem test_walk : (tables.walk 3 0x2345678ABC).toOption.map (fun p => (p.flat 0x2345678ABC, p.key, p.fmt, p.geo, p.w)) =
    some (0x234568ABC, 261, 3, 2, false) := by decide
/-- R378 and R380: pmax(800), pmax(700) and pmax(760) at 2.0 GHz; fit(0x1FFF, 8) and fit(0x1FFF, 11). -/
theorem test_fit : pmax false 800 = 13 ∧ pmax false 700 = 8 ∧ pmax false 760 = 11 ∧ fitPat 0x1FFF 8 = 0x00FF ∧ fitPat 0x1FFF 11 = 0x07FF := by decide
/-- R148 and R82: `vsar.s8` of 0x90 by 9 gives 0xFF in lane 0; R146: `vaddsat.s64` clamps and sets ST. -/
def lane0 (o : Host.Outcome State Fault Refusal) (w : Nat) : Option (Nat × BitVec 7) :=
  (after o).bind fun t => t.me.fly.head?.map fun f => (f.val % 2 ^ w, t.me.ctl.fstat)
def vectorOf (l : List (Nat × Nat)) : State :=
  { ctxs := [(0, { ctxAt 0 [(1, 9)] with ctl := { s := [(1, 9)], vv := 0x800 } })], cur := { slot := .v0, ent := { vv := 0x800 } },
    mem := l.foldl (fun (m : Memory) e => m.write (regBase 0 + e.1) 8 e.2) [] }
theorem test_vsar : lane0 (exec (.vsar (vc .s8) 1 0 (.sc 1)) (vectorOf [(0, 0x90)])) 8 = some (0xFF, 0) := by decide
theorem test_vaddsat : lane0 (exec (.vaddsat (vc .s64) 1 0 (.reg 1)) (vectorOf [(0, 0x7FFFFFFFFFFFFFFF), (512, 1)])) 64 =
    some (0x7FFFFFFFFFFFFFFF, fST) := by decide
/-- R157's example: block exponents 2, -1, none and 9 give 0x81, 0x7E, 0 and 0x88. -/
def blocks : State :=
  { ctxs := [(0, { ctl := { vt := 0x2000 } })], cur := { slot := .v0, ent := { vt := 0x2000 } },
    mem := [(0, 0x40A9999A), (128, 0x3F333333), (384, 0x44160000)].foldl (fun (m : Memory) e => m.write (regBase 0 + 5 * 2048 + e.1) 4 e.2) [] }
theorem test_vmaxe : ((after (exec (.vmaxe (vc .fp32) 1 2 5) blocks)).bind fun t => t.me.ctl.latw.head?.map fun w => w.val.toNat % 2 ^ 512) =
    some 0x88007E81 := by decide
-- FIPS 197, sections 4.2 and 5.1.1: the worked product and the worked substitution
theorem test_cipher_product : gfMul 0x57 0x83 = 0xC1 := by decide
theorem test_cipher_sub_byte : subByte 0x53 = 0xED ∧ unsubByte 0xED = 0x53 := by decide

end Sys2Proof.Tests
end

section
/-! Reset (R7): the state that the machine starts from. -/

namespace Sys2Proof.Machine

/-- Settles O55: every sparse file is empty at reset, so each read gives the default value of its record. -/
theorem resetState : Obligations.ResetState := by
  unfold Obligations.ResetState
  refine ⟨rfl, fun w => ?_, fun k => ?_, fun r => ?_, fun d => ?_, fun p => ?_, fun p => ?_, rfl, rfl, rfl, rfl, rfl, rfl, rfl, rfl, rfl, fun a => rfl⟩
  · refine ⟨rfl, rfl, rfl, rfl, rfl, rfl, rfl, rfl, rfl, rfl, rfl, rfl, rfl, rfl, fun n => ?_, rfl, fun n hn => if_neg hn, fun n => rfl, rfl⟩
    exact ite_self (0 : Word)
  · exact ⟨rfl, rfl, rfl, fun n => ⟨rfl, rfl, rfl, rfl, rfl, rfl⟩⟩
  · exact ⟨rfl, rfl, rfl, rfl⟩
  · exact ⟨rfl, rfl, rfl, rfl, rfl, rfl, rfl, rfl⟩
  · exact ⟨rfl, rfl, rfl, rfl⟩
  · exact ⟨rfl, rfl, rfl, rfl⟩
end Sys2Proof.Machine
end

section
/-! Memory as bytes and elements (R2): sums of bytes, halves, and what an element reads after it was written. -/

namespace Sys2Proof.Machine

/-! ## Bytes and bits of a number -/

/-- The low bytes of a number are the sum of its byte elements at their weights. -/
theorem mod_eq_sum_elemAt (x n : Nat) :
    x % 2 ^ (n * 8) = (List.range n).foldl (fun a i => a + elemAt x 8 i * 256 ^ i) 0 := by
  induction n with
  | zero => simp [Nat.mod_one]
  | succ n ih =>
    have h256 : (256 : Nat) ^ n = 2 ^ (n * 8) := by rw [show (256 : Nat) = 2 ^ 8 from rfl, ← Nat.pow_mul, Nat.mul_comm]
    rw [List.range_succ, List.foldl_append, ← ih, Nat.succ_mul, Nat.pow_add, Nat.mod_mul]
    simp only [List.foldl_cons, List.foldl_nil, h256, elemAt, Nat.shiftRight_eq_div_pow]
    rw [Nat.mul_comm (2 ^ (n * 8))]
/-- A bit of packed bytes is a bit of one of them. -/
theorem testBit_packElems_byte (n : Nat) (f : Nat → Nat) (p : Nat) (h : p / 8 < n) :
    (packElems 8 ((List.range n).map f)).testBit p = (f (p / 8)).testBit (p % 8) := by
  have e := congrArg (fun x => Nat.testBit x (p % 8)) (elemAt_pack_range 8 n f (p / 8) h)
  have h8 : p % 8 < 8 := Nat.mod_lt _ (by decide)
  simp only [elemAt, Nat.testBit_mod_two_pow, h8, decide_true, Bool.true_and, Nat.testBit_shiftRight] at e
  rwa [show p / 8 * 8 + p % 8 = p by omega] at e
/-- A bit of a value put under its mask at bit `lo` over an old number. -/
theorem testBit_masked (v w lo old full i : Nat) (hi : i < w) :
    ((v % 2 ^ w) <<< lo &&& ones w <<< lo ||| old &&& (ones w <<< lo ^^^ full)).testBit (lo + i) =
      if full.testBit (lo + i) then v.testBit i else (v.testBit i || old.testBit (lo + i)) := by
  simp only [ones, Nat.testBit_or, Nat.testBit_and, Nat.testBit_xor, Nat.testBit_shiftLeft, Nat.testBit_mod_two_pow,
    Nat.testBit_two_pow_sub_one, Nat.add_sub_cancel_left, hi, decide_true, Bool.true_and, Nat.le_add_right, Bool.and_true]
  cases full.testBit (lo + i) <;> simp

/-! ## Elements -/

variable {s : State}

/-- A unit lies in encrypted memory as its bytes do: local spaces begin on a unit (R387). -/
theorem keyedAddr_unit (a : Nat) : keyedAddr (a / 64 * 64) = keyedAddr a := by
  simp only [keyedAddr, localBase]
  congr 1
  apply propext
  omega
/-- An element of encrypted memory is a bit field of its unit. -/
theorem State.elem_keyed {a : Nat} (hk : keyedAddr a = true) {b : Nat} (hb : b < 8) (w key : Nat) :
    s.elem ⟨a * 8 + b, w, key⟩ = (s.unitUnder key (a / 64) >>> (a % 64 * 8 + b)) % 2 ^ w := by
  unfold State.elem
  rw [show (a * 8 + b) / 8 = a by omega, if_pos hk, show (a * 8 + b) / 512 = a / 64 by omega,
    show (a * 8 + b) % 512 = a % 64 * 8 + b by omega]
/-- The byte at a place of encrypted memory is a byte of its unit. -/
theorem State.elem_keyed_byte {a i : Nat} (hk : keyedAddr a = true) (hi : a % 64 + i < 64) (key : Nat) :
    s.elem ⟨(a + i) * 8, 8, key⟩ = elemAt (s.unitUnder key (a / 64) >>> (a % 64 * 8)) 8 i := by
  have hu : (a + i) / 64 = a / 64 := by omega
  have hk' : keyedAddr (a + i) = true := by rw [← keyedAddr_unit, hu, keyedAddr_unit, hk]
  have h := State.elem_keyed (s := s) hk' (b := 0) (by decide) 8 key
  rw [Nat.add_zero, Nat.add_zero, hu, show (a + i) % 64 * 8 = a % 64 * 8 + i * 8 by omega, Nat.shiftRight_add] at h
  exact h
/-- An element of a local space is a bit field of the bytes at its places. -/
theorem State.elem_local {e : Elem} (hk : keyedAddr (e.addr / 8) = false) :
    s.elem e = (packElems 8 ((List.range e.bytes).map fun i => (s.mem.byte (e.place i)).toNat) >>> (e.addr % 8)) % 2 ^ e.w := by
  simp [State.elem, hk]

/-- An element of whole bytes is the sum of its byte elements at their weights (R2). -/
theorem State.elem_eq_sum {a n : Nat} (hk : keyedAddr a = true → a % 64 + n ≤ 64) (key : Nat) :
    s.elem ⟨a * 8, n * 8, key⟩ = (List.range n).foldl (fun x i => x + s.elem ⟨(a + i) * 8, 8, key⟩ * 256 ^ i) 0 := by
  by_cases h : keyedAddr a = true
  · have e : s.elem ⟨a * 8, n * 8, key⟩ = (s.unitUnder key (a / 64) >>> (a % 64 * 8)) % 2 ^ (n * 8) := State.elem_keyed h (b := 0) (by decide) ..
    rw [e, mod_eq_sum_elemAt]
    refine List.foldl_ext _ _ _ fun x i hi => ?_
    rw [State.elem_keyed_byte h (by have := List.mem_range.1 hi; have := hk h; omega)]
  · have hl : keyedAddr a = false := by simpa using h
    have hb : Elem.bytes ⟨a * 8, n * 8, key⟩ = n := by simp only [Elem.bytes]; omega
    rw [State.elem_local (by simpa using hl), hb, show (a * 8) % 8 = 0 by omega, Nat.shiftRight_zero, mod_eq_sum_elemAt]
    refine List.foldl_ext _ _ _ fun x i hi => ?_
    have hl' : keyedAddr (a + i) = false := by simp only [keyedAddr, decide_eq_false_iff_not] at hl ⊢; omega
    rw [elemAt_pack_range _ _ _ _ (List.mem_range.1 hi), State.elem_byte_local hl', Nat.mod_eq_of_lt (BitVec.isLt _)]
    simp [Elem.place]
/-- The four-bit elements of a byte are its halves, the low half at the even place (R2). -/
theorem State.elem_halves (a key : Nat) :
    s.elem ⟨a * 8, 4, key⟩ = s.elem ⟨a * 8, 8, key⟩ % 16 ∧ s.elem ⟨a * 8 + 4, 4, key⟩ = s.elem ⟨a * 8, 8, key⟩ / 16 := by
  have halves (x : Nat) : x % 2 ^ 4 = x % 2 ^ 8 % 16 ∧ (x >>> 4) % 2 ^ 4 = x % 2 ^ 8 / 16 := by
    rw [Nat.shiftRight_eq_div_pow]; omega
  by_cases h : keyedAddr a = true
  · have e (w : Nat) := State.elem_keyed (s := s) h (b := 0) (by decide) w key
    simp only [Nat.add_zero] at e
    rw [e, e, State.elem_keyed h (by decide), Nat.shiftRight_add]
    exact halves _
  · have hl : keyedAddr a = false := by simpa using h
    have h4 : (a * 8 + 4) / 8 = a ∧ (a * 8 + 4) % 8 = 4 := by omega
    rw [State.elem_local (by simpa using hl), State.elem_local (by simpa using hl), State.elem_local (by simpa [h4.1] using hl)]
    simp only [Elem.bytes, Elem.place, h4, Nat.mul_mod_left, Nat.zero_add, Nat.reduceAdd, Nat.reduceDiv, Nat.shiftRight_zero,
      Nat.mul_div_cancel _ (show 0 < 8 by decide)]
    exact halves _

/-! ## Reading back an element that was written -/

theorem find?_aset {α : Type} (l : List (Nat × α)) (n : Nat) (v : α) : (aset l n v).find? (fun r => r.1 == n) = some (n, v) := by
  induction l with
  | nil => simp [aset]
  | cons p r ih =>
    obtain ⟨k, w⟩ := p
    simp only [aset]
    split
    · simp
    · split
      · simp
      · next h => simpa [Ne.symm h] using ih
/-- A unit of encrypted memory reads back under the key it was written with. -/
theorem State.unitUnder_writeUnit (h : s.Inv) {u : Nat} (hk : keyedAddr (u * 64) = true) (ht : s.taskUnit u = none) (key v bm : Nat) :
    (s.writeUnit key u v bm).unitUnder key u = ((v &&& bm) ||| (s.unitUnder key u &&& (bm ^^^ ones 512))) % 2 ^ 512 := by
  have e : s.writeUnit key u v bm = { s with
      mem := s.mem.write (u * 64) 64 ((v &&& bm) ||| (s.unitUnder key u &&& (bm ^^^ ones 512))), keyed := aset s.keyed u key } := by
    simp only [State.writeUnit, hk, ht, Bool.not_true, Bool.false_eq_true, if_false]
  rw [e]
  generalize (v &&& bm) ||| (s.unitUnder key u &&& (bm ^^^ ones 512)) = x
  have ht' : State.taskUnit { s with mem := s.mem.write (u * 64) 64 x, keyed := aset s.keyed u key } u = none := ht
  simp only [State.unitUnder, hk, ht', find?_aset, Bool.not_true, Bool.false_eq_true, if_false, if_true]
  simpa only [Nat.reduceMul] using Memory.read_write_self h (u * 64) 64 x
theorem State.elem_putElem_keyed (h : s.Inv) {e : Elem} (hk : keyedAddr (e.addr / 8) = true) (hw : e.addr % 512 + e.w ≤ 512)
    (ht : s.taskUnit (e.addr / 512) = none) (v : Nat) : (s.putElem e v).elem e = v % 2 ^ e.w := by
  have hu : keyedAddr (e.addr / 512 * 64) = true := by
    rw [show e.addr / 512 = e.addr / 8 / 64 by omega, keyedAddr_unit, hk]
  simp only [State.putElem, State.elem, hk, if_true, State.unitUnder_writeUnit h hu ht]
  apply Nat.eq_of_testBit_eq
  intro i
  simp only [Nat.testBit_mod_two_pow, Nat.testBit_shiftRight]
  by_cases hi : i < e.w
  · rw [testBit_masked _ _ _ _ _ _ hi]
    simp [hi, ones, show e.addr % 512 + i < 512 by omega, -Nat.reducePow]
  · simp [hi]

/-- Places of the bytes of an element of a local space differ (R60). -/
theorem Elem.place_inj {e : Elem} (hk : keyedAddr (e.addr / 8) = false) {i j : Nat} (h : e.place i = e.place j) : i = j := by
  simp only [keyedAddr, decide_eq_false_iff_not] at hk
  have := bankPlace_inj (by omega) (by omega) h
  omega
/-- A byte after a masked write of one byte. -/
theorem Memory.byte_writeMask_one {m : Memory} (h : m.wf = true) (a v bm x : Nat) :
    (m.writeMask a 1 v bm).byte x =
      if x = a then BitVec.ofNat 8 ((v &&& bm) ||| ((m.byte a).toNat &&& (bm ^^^ 255))) else m.byte x := by
  have hr : m.read a 1 = (m.byte a).toNat := by simp [Memory.read_succ h, Memory.read_zero]
  unfold Memory.writeMask
  rw [Memory.byte_write]
  by_cases hx : x = a
  · simp [hx, hr]
  · rw [if_neg (by omega), if_neg hx]

/-- The bytes of a value put under a mask at the places of an element's first bytes. -/
def State.putPlaces (s : State) (e : Elem) (v bm n : Nat) : State :=
  (List.range n).foldl (fun s i => s.putMask (e.place i) 1 (v >>> (8 * i) % 256) (bm >>> (8 * i) % 256)) s

theorem State.putPlaces_succ (e : Elem) (v bm n : Nat) :
    s.putPlaces e v bm (n + 1) = (s.putPlaces e v bm n).putMask (e.place n) 1 (v >>> (8 * n) % 256) (bm >>> (8 * n) % 256) := by
  simp [State.putPlaces, List.range_succ]
theorem State.Inv.putPlaces (h : s.Inv) (e : Elem) (v bm n : Nat) : (s.putPlaces e v bm n).Inv :=
  State.Inv.foldl (fun _ _ h => h.putMask ..) _ s h
/-- Putting bytes at the first places of an element leaves the other places. -/
theorem State.byte_putPlaces_ge (h : s.Inv) {e : Elem} (hk : keyedAddr (e.addr / 8) = false) (v bm : Nat) {n i : Nat} (hi : n ≤ i) :
    (s.putPlaces e v bm n).mem.byte (e.place i) = s.mem.byte (e.place i) := by
  induction n with
  | zero => rfl
  | succ n ih =>
    have hne : e.place i ≠ e.place n := fun hp => by have := Elem.place_inj hk hp; omega
    rw [State.putPlaces_succ]
    exact (Memory.byte_writeMask_one (h.putPlaces ..) ..).trans ((if_neg hne).trans (ih (by omega)))
/-- A place among the first ones holds the marked bits of its byte of the value, and its own others. -/
theorem State.byte_putPlaces_lt (h : s.Inv) {e : Elem} (hk : keyedAddr (e.addr / 8) = false) (v bm : Nat) {n i : Nat} (hi : i < n) :
    (s.putPlaces e v bm n).mem.byte (e.place i) = BitVec.ofNat 8
      ((v >>> (8 * i) % 256 &&& bm >>> (8 * i) % 256) ||| ((s.mem.byte (e.place i)).toNat &&& (bm >>> (8 * i) % 256 ^^^ 255))) := by
  induction n with
  | zero => omega
  | succ n ih =>
    rw [State.putPlaces_succ]
    refine (Memory.byte_writeMask_one (h.putPlaces ..) ..).trans ?_
    by_cases hin : i = n
    · subst hin
      rw [if_pos rfl, State.byte_putPlaces_ge h hk v bm (Nat.le_refl i)]
    · rw [if_neg fun hp => hin (Elem.place_inj hk hp)]
      exact ih (by omega)
theorem State.elem_putElem_local (h : s.Inv) {e : Elem} (hk : keyedAddr (e.addr / 8) = false) (v : Nat) :
    (s.putElem e v).elem e = v % 2 ^ e.w := by
  have hput : s.putElem e v = s.putPlaces e ((v % 2 ^ e.w) <<< (e.addr % 8)) (ones e.w <<< (e.addr % 8)) e.bytes := by
    simp [State.putElem, hk, State.putPlaces]
  rw [hput, State.elem_local hk]
  apply Nat.eq_of_testBit_eq
  intro i
  simp only [Nat.testBit_mod_two_pow, Nat.testBit_shiftRight]
  by_cases hi : i < e.w
  · have hb : (e.addr % 8 + i) / 8 < e.bytes := by simp only [Elem.bytes]; omega
    have h8 : (e.addr % 8 + i) % 8 < 8 := Nat.mod_lt _ (by decide)
    have hp : 8 * ((e.addr % 8 + i) / 8) + (e.addr % 8 + i) % 8 = e.addr % 8 + i := by omega
    rw [testBit_packElems_byte _ _ _ hb, State.byte_putPlaces_lt h hk _ _ hb, BitVec.toNat_ofNat,
      show (256 : Nat) = 2 ^ 8 from rfl, show (255 : Nat) = 2 ^ 8 - 1 from rfl]
    generalize (e.addr % 8 + i) / 8 = q at *
    generalize (e.addr % 8 + i) % 8 = r at *
    simp [Nat.testBit_mod_two_pow, Nat.testBit_shiftRight, Nat.testBit_shiftLeft, h8, hp, hi, ones, Nat.testBit_two_pow_sub_one,
      -Nat.reducePow]
  · simp [hi]

/-- Settles O60: reads are sums of bytes, and each of the two kinds of space reads back an element that was written. -/
theorem memoryReadsBack : Obligations.MemoryReadsBack := by
  unfold Obligations.MemoryReadsBack
  refine ⟨fun s a n v b h => ⟨Memory.read_sum h a n, Memory.byte_write ..⟩,
    fun s key a n _ hk => ⟨State.elem_eq_sum hk key, State.elem_halves a key⟩, fun s e v h hkeyed _ => ?_⟩
  cases hk : keyedAddr (e.addr / 8) with
  | true => exact State.elem_putElem_keyed h hk (hkeyed hk).1 (hkeyed hk).2 v
  | false => exact State.elem_putElem_local h hk v
end Sys2Proof.Machine
end

section
/-! What leaves memory alone: the operations that touch no byte of it. -/

namespace Sys2Proof.Machine

variable {s t : State}

/-! ## Folds -/

/-- What every step of a fold leaves, the fold leaves. -/
theorem foldl_leaves {σ α β : Type} (p : σ → β) {f : σ → α → σ} (l : List α) (h : ∀ s a, p (f s a) = p s) (s : σ) :
    p (l.foldl f s) = p s := by
  induction l generalizing s with
  | nil => rfl
  | cons a l ih => exact (ih _).trans (h s a)
theorem foldl_mem {α : Type} {f : State → α → State} (l : List α) (s : State) (h : ∀ s a, (f s a).mem = s.mem) :
    (l.foldl f s).mem = s.mem := foldl_leaves State.mem l h s
@[simp] theorem State.mem_ite (c : Prop) [Decidable c] (a b : State) : (if c then a else b).mem = if c then a.mem else b.mem :=
  apply_ite ..

/-- What holds of the state that a partial operation gives, where it gives one. -/
structure ForOk {ε : Type} (P : State → Prop) (r : Except ε State) : Prop where
  of_eq : ∀ t, r = .ok t → P t
@[simp] theorem forOk_ok {ε : Type} {P : State → Prop} {t : State} : ForOk P (.ok t : Except ε State) ↔ P t :=
  ⟨fun h => h.of_eq t rfl, fun h => ⟨fun _ e => Except.ok.inj e ▸ h⟩⟩
@[simp] theorem forOk_error {ε : Type} {P : State → Prop} {e : ε} : ForOk P (.error e : Except ε State) := ⟨fun _ e => by cases e⟩
@[simp] theorem forOk_ite {ε : Type} {P : State → Prop} (c : Prop) [Decidable c] (a b : Except ε State) :
    ForOk P (if c then a else b) ↔ if c then ForOk P a else ForOk P b := by split <;> rfl

theorem ForOk.ite {ε : Type} {P : State → Prop} {c : Prop} [Decidable c] {a b : Except ε State} (ha : ForOk P a) (hb : ForOk P b) :
    ForOk P (if c then a else b) := by split <;> assumption

/-! ## Identifiers, results in flight, queues -/

@[simp] theorem State.draw_mem (w : Nat) : (s.draw w).2.mem = s.mem := rfl
@[simp] theorem State.newId_mem : s.newId.2.mem = s.mem := rfl
@[simp] theorem State.claim_mem (l : List Elem) : (s.claim l).mem = s.mem := rfl
@[simp] theorem State.setFlags_mem (f : BitVec 7) : (s.setFlags f).mem = s.mem := rfl
@[simp] theorem State.post_mem (left : Nat) (dst : Dest) (val bm size : Nat) : (s.post left dst val bm size).mem = s.mem := rfl
@[simp] theorem State.postS_mem (left : Nat) (d : BitVec 6) (v : Word) : (s.postS left d v).mem = s.mem := rfl
@[simp] theorem State.postP_mem (left : Nat) (p : BitVec 4) (b : Bool) : (s.postP left p b).mem = s.mem := rfl
@[simp] theorem State.postM_mem (left : Nat) (m : BitVec 3) (v bm : Nat) : (s.postM left m v bm).mem = s.mem := rfl
@[simp] theorem State.pace_mem (n : Nat) : (s.pace n).mem = s.mem := rfl
@[simp] theorem State.postV_mem (left : Nat) (vw : View) (f : BitVec 11) (val u : Nat) : (s.postV left vw f val u).mem = s.mem := rfl
@[simp] theorem State.postVM_mem (left : Nat) (vw : View) (f : BitVec 11) (val bm : Nat) : (s.postVM left vw f val bm).mem = s.mem := rfl
@[simp] theorem State.unissue_mem : s.unissue.mem = s.mem := rfl
@[simp] theorem State.seat_mem (core : Nat) (p : Option Nat) : (s.seat core p).mem = s.mem := rfl
@[simp] theorem State.electEnd_mem (core : Nat) : (s.electEnd core).mem = s.mem := by simp [State.electEnd]
@[simp] theorem State.block_mem (b : Blk) : (s.block b).mem = s.mem := by simp [State.block]
@[simp] theorem State.creditM_mem (m : MOp) : (s.creditM m).mem = s.mem :=
  foldl_mem _ _ fun _ _ => by rfl
@[simp] theorem State.spendToken_mem (port : Nat) : (s.spendToken port).mem = s.mem := rfl
@[simp] theorem State.sendPacket_mem (port addr : Nat) (b : List Byte) : (s.sendPacket port addr b).mem = s.mem := by simp
    [State.sendPacket]
@[simp] theorem State.noteStall_mem (w p : Nat) : (s.noteStall w p).mem = s.mem := rfl
@[simp] theorem State.noteData_mem (w a : Nat) : (s.noteData w a).mem = s.mem := rfl
@[simp] theorem State.capture_mem (w b : Nat) : (s.capture w b).mem = s.mem := by simp [State.capture]
@[simp] theorem State.popSlot_mem (n size : Nat) : (s.popSlot n size).2.mem = s.mem := rfl
@[simp] theorem State.latch_mem (x : LatW) : (s.latch x).mem = s.mem := rfl
@[simp] theorem vput_mem (c : VC) (lat occ : Nat) (vw : View) (vd : BitVec 11) (w n : Nat) (f : Nat → Nat × BitVec 7) :
    (vput c lat occ vw vd w n f s).mem = s.mem := by simp [vput]
@[simp] theorem vputMask_mem (c : VC) (lat occ : Nat) (md : BitVec 3) (n : Nat) (f : Nat → Bool) :
    (vputMask c lat occ md n f s).mem = s.mem := by simp [vputMask]
@[simp] theorem vpush_mem (lat occ : Nat) (data : List Nat) (fl : BitVec 7) : (vpush lat occ data fl s).mem = s.mem := by
  unfold vpush
  simp only [State.mem_ite, State.unissue_mem]
  rw [foldl_mem _ _ fun _ _ => by rfl]
  simp

/-! ## Matrix operations, spliced programs -/

@[simp] theorem State.takePath_mem (core p n : Nat) : (s.takePath core p n).mem = s.mem := rfl
@[simp] theorem State.addM_mem (m : MOp) : (s.addM m).mem = s.mem := rfl
@[simp] theorem State.takeSlots_mem (n k : Nat) : (s.takeSlots n k).mem = s.mem := rfl
@[simp] theorem State.takeInputs_mem (l : List (Nat × Nat)) : (s.takeInputs l).mem = s.mem :=
  foldl_mem _ _ fun _ _ => by rfl
@[simp] theorem State.endMop_mem (w : Nat) (m : MOp) : (s.endMop w m).mem = s.mem := by simp [State.endMop]
@[simp] theorem State.settleM_mem (w : Nat) : (s.settleM w).mem = s.mem := by
  simp only [State.settleM, State.modCtx_mem]
  exact foldl_mem _ _ fun _ _ => State.creditM_mem _
theorem State.cachePut_mem {die : Nat} {p : Spliced} (h : s.cachePut die p = some t) : t.mem = s.mem := by
  unfold State.cachePut at h
  simp only at h
  split at h
  · cases h; rfl
  · cases h
theorem State.rebuildOn_mem {die : Nat} {p : Option Spliced} (h : s.rebuildOn die p = some t) : t.mem = s.mem := by
  unfold State.rebuildOn at h
  split at h
  · split at h
    · cases h; rfl
    · exact State.cachePut_mem h
  · cases h; rfl
theorem State.buildChain_mem {die : Nat} {l : List Nat} (h : s.buildChain die l = .ok t) : t.mem = s.mem := by
  unfold State.buildChain at h
  split at h
  · cases h
  · simp only at h
    split at h
    · cases h
    · next u hu => cases h; exact (State.cachePut_mem hu :)

/-! ## Requests, commands -/

@[simp] theorem State.askDrawer_mem (who part cls kind : Nat) (cmd : Option Nat) (l : List Nat) :
    (s.askDrawer who part cls kind cmd l).2.mem = s.mem := by
  unfold State.askDrawer
  refine foldl_leaves (fun r : List Nat × State => r.2.mem) l (fun r u => ?_) ([], s)
  split <;> rfl

@[simp] theorem State.noteStore_mem (m : MemArg) : (s.noteStore m).mem = s.mem := by simp [State.noteStore]
theorem State.withhold_mem (l : List WEnt) : ForOk (fun t => t.mem = s.mem) (s.withhold l) := by
  unfold State.withhold
  split
  · exact forOk_ok.2 rfl
  · exact forOk_error
@[simp] theorem State.takeRings_mem (a b : Option Nat) (id : Nat) : (s.takeRings a b id).mem = s.mem := by
  unfold State.takeRings
  cases a <;> cases b <;> rfl
@[simp] theorem State.addCmd_mem (q : Nat) (r : ECmdRec) : (s.addCmd q r).mem = s.mem := by simp [State.addCmd]
@[simp] theorem State.gateMoves_mem (part cls id : Nat) (l : List (Elem × Elem)) : (s.gateMoves part cls id l).2.mem = s.mem := by
  simp [State.gateMoves]
@[simp] theorem State.accept_mem (o : OCmd) : (s.accept o).mem = s.mem := by simp [State.accept]
@[simp] theorem State.startHead_mem (die : Nat) (f : OCmd → Bool) : (s.startHead die f).mem = s.mem := by
  simp only [State.startHead]
  split
  · simp
  · rfl
@[simp] theorem State.captured_mem (die : Nat) : (s.captured die).mem = s.mem := rfl
@[simp] theorem State.askFlag_mem (who addr cls pc sl : Nat) : (s.askFlag who addr cls pc sl).2.mem = s.mem := by
  unfold State.askFlag
  split <;> rfl
@[simp] theorem State.forget_mem (g : List Nat) : (s.forget g).mem = s.mem := rfl
@[simp] theorem State.askPower_mem (who l : Nat) : (s.askPower who l).mem = s.mem := by simp [State.askPower]
@[simp] theorem State.setCmd_mem (r : ECmdRec) : (s.setCmd r).mem = s.mem := rfl
@[simp] theorem State.setReq_mem (r : DReq) : (s.setReq r).mem = s.mem := rfl
@[simp] theorem State.setXfer_mem (x : Xfer) : (s.setXfer x).mem = s.mem := rfl
@[simp] theorem State.putOut_mem (k p q n : Nat) (d : BitVec 512) : (s.putOut k p q n d).mem = s.mem := rfl
@[simp] theorem State.fixLoads_mem (who : Nat) : (s.fixLoads who).mem = s.mem := rfl
@[simp] theorem State.takeUnit_mem (r : DReq) : (s.takeUnit r).mem = s.mem := rfl
@[simp] theorem State.judge_mem (r : ECmdRec) : (s.judge r).2.mem = s.mem := by
  unfold State.judge
  split <;> rfl

/-! ## Registers, rails, sensors -/

@[simp] theorem State.writeCtx_mem (n : Srn) (v : Word) : ForOk (fun t => t.mem = s.mem) (s.writeCtx n v) := by
  simp [State.writeCtx, nextOr, execCtxCfgWrite, execCtxCcfgWrite, execRingcfgWrite, execRingstWrite, execPipclr, execPipWrite]
@[simp] theorem State.writeLnk_mem (w : Nat) (v : Word) : (s.writeLnk w v).mem = s.mem := by
  simp [State.writeLnk, nextOr, execDrawerSlotWrite, execLnkRingWrite]
@[simp] theorem State.writePrt_mem (w : Nat) (v : Word) : (s.writePrt w v).mem = s.mem := by
  simp [State.writePrt, nextOr, execPrtCtlWrite, execPrtOwnWrite]
@[simp] theorem State.regWrite_mem (n : Srn) (v : Word) : ForOk (fun t => t.mem = s.mem) (s.regWrite n v) := by
  simp [State.regWrite, nextOr, execTchOpenWrite, execBootCtlWrite]
@[simp] theorem State.putReg_mem (w : Nat × Nat × Word) : (s.putReg w).mem = s.mem := by
  unfold State.putReg
  split
  · next t h => exact (State.regWrite_mem ..).of_eq t h
  · rfl
@[simp] theorem State.written_mem : s.written.mem = s.mem := foldl_mem _ _ fun _ _ => State.putReg_mem _
@[simp] theorem State.landWhere_mem (p : Srn → Bool) : (s.landWhere p).mem = s.mem := foldl_mem _ _ fun _ _ => State.putReg_mem _
@[simp] theorem State.landRegs_mem (core : Nat) : (s.landRegs core).mem = s.mem := foldl_mem _ _ fun _ _ => State.putReg_mem _
@[simp] theorem State.monitorTick_mem : s.monitorTick.mem = s.mem := foldl_mem _ _ fun _ _ => by rfl
@[simp] theorem State.setPulses_mem (die : Nat) : (s.setPulses die).mem = s.mem := foldl_mem _ _ fun _ _ => by simp
@[simp] theorem State.unfit_mem (die : Nat) : (s.unfit die).mem = s.mem := foldl_mem _ _ fun _ _ => by rfl
@[simp] theorem State.railTick_mem (die : Nat) : (s.railTick die).mem = s.mem := by simp [State.railTick]
@[simp] theorem State.sample_mem (die n : Nat) (temp : BitVec 16) : (s.sample die n temp).mem = s.mem := by simp [State.sample]
@[simp] theorem State.microTick_mem (die : Nat) : (s.microTick die).mem = s.mem := rfl

/-! ## Links, drawers, the switch -/

@[simp] theorem State.setLink_mem (p : Nat) (st : BitVec 3) (f : Pair → Pair) : (s.setLink p st f).mem = s.mem := by simp [State.setLink]
@[simp] theorem State.regrant_mem (p : Nat) : (s.regrant p).mem = s.mem := rfl
@[simp] theorem State.stallAll_mem (p : Nat) : (s.stallAll p).mem = s.mem := by
  simp only [State.stallAll, State.modPair_mem]
  exact foldl_mem _ _ fun _ _ => by rfl
@[simp] theorem State.toRetrain_mem (p : Nat) : (s.toRetrain p).mem = s.mem := by simp [State.toRetrain]
@[simp] theorem State.toDown_mem (p n : Nat) : (s.toDown p n).mem = s.mem := by simp [State.toDown]
theorem State.lnk_mem {p cmd : Nat} (h : s.lnk p cmd = some t) : t.mem = s.mem := by
  unfold State.lnk at h
  extract_lets st at h
  split at h
  · cases h
  · split at h <;>
      (simp only [Option.ite_none_right_eq_some, Option.ite_none_left_eq_some, Option.some.injEq] at h
       rw [← h.2]
       simp)
@[simp] theorem State.flitError_mem (p : Nat) : (s.flitError p).mem = s.mem := rfl
@[simp] theorem State.corrected_mem (p : Nat) : (s.corrected p).mem = s.mem := rfl
@[simp] theorem State.cross_mem (r : DReq) : (s.cross r).2.mem = s.mem := by
  simp only [State.cross]
  split <;> rfl
@[simp] theorem State.crossAll_mem (l : List (DReq × DReq)) : (s.crossAll l).2.mem = s.mem := by
  induction l generalizing s with
  | nil => rfl
  | cons p l ih =>
    simp only [State.crossAll, ih]
    split <;> simp
@[simp] theorem State.control_mem (k p x n : Nat) : (s.control k p x n).mem = s.mem := rfl
@[simp] theorem State.sendControls_mem (port : Nat) (ps : List Nat) : (s.sendControls port ps).mem = s.mem := by
  unfold State.sendControls
  cases ps with
  | nil => rfl
  | cons p l => exact foldl_mem _ _ fun _ _ => foldl_mem _ _ fun _ _ => by rfl
@[simp] theorem State.sendFlit_mem (ps : List Nat) (port sq i : Nat) (d : BitVec 512) : (s.sendFlit ps port sq i d).mem = s.mem := rfl
@[simp] theorem State.sendFlits_mem (ps : List Nat) (l : List ECmdRec) (n : Nat) : (s.sendFlits ps l n).mem = s.mem := by
  induction l generalizing s n with
  | nil => rfl
  | cons r l ih =>
    unfold State.sendFlits
    split
    · exact ih n
    · split
      · rfl
      · simp only [ih, State.mem_ite, State.control_mem, ite_self, State.setCmd_mem]
        split <;> exact foldl_mem _ _ fun _ _ => by rfl
@[simp] theorem State.transmitPort_mem (port : Nat) : (s.transmitPort port).mem = s.mem := by
  simp only [State.transmitPort, State.sendControls_mem, State.sendFlits_mem]
  refine foldl_mem _ _ fun _ _ => ?_
  split <;> simp
@[simp] theorem State.transmit_mem : s.transmit.mem = s.mem := foldl_mem _ _ fun _ _ => State.transmitPort_mem _
@[simp] theorem State.fabTick_mem : s.fabTick.mem = s.mem := rfl

/-! ## Contexts -/

@[simp] theorem State.pushDue_mem (who q k : Nat) : (s.pushDue who q k).mem = s.mem := by
  simp only [State.pushDue]
  split <;> simp
@[simp] theorem State.suspend_mem (who : Nat) : (s.suspend who).mem = s.mem := by simp [State.suspend]
@[simp] theorem State.askResume_mem (who : Nat) : (s.askResume who).mem = s.mem := by
  simp only [State.askResume]
  split <;> simp
@[simp] theorem State.claimCode_mem (who n : Nat) : (s.claimCode who n).mem = s.mem := by
  simp only [State.claimCode, State.mem_ite]
  split
  · rfl
  · split
    · split <;> rfl
    · rfl
@[simp] theorem State.rewind_mem (who head : Nat) (old : List TWin) : (s.rewind who head old).mem = s.mem :=
  foldl_mem _ _ fun _ _ => by split <;> rfl
@[simp] theorem State.ticked_mem (who : Nat) (occ : BitVec 8) (stop : Bool) (grp : Nat) : (s.ticked who occ stop grp).mem = s.mem := by
  simp [State.ticked]
@[simp] theorem State.enter_mem (who : Nat) (b : Bundle) (l : List DOp) (x : BitVec 32) : (s.enter who b l x).mem = s.mem := by
  unfold State.enter
  simp only [State.ticked_mem]
  rfl
@[simp] theorem State.secondHalf_mem (who : Nat) (p : Split) : (s.secondHalf who p).mem = s.mem := by simp [State.secondHalf]
@[simp] theorem State.issuing_mem (who : Nat) (sl : Slot) (e : Ent) : (s.issuing who sl e).mem = s.mem := rfl
@[simp] theorem State.dropDue_mem (core : Nat) : (s.dropDue core).mem = s.mem := by
  simp only [State.dropDue, State.mem_ite, State.elect_mem]
  rw [foldl_mem _ _ fun _ _ => by rfl, ite_self]
@[simp] theorem State.bcastLand_mem (row : Nat) : (s.bcastLand row).mem = s.mem := by
  simp only [State.bcastLand]
  split
  · rfl
  · exact foldl_mem _ _ fun _ _ => by rfl
@[simp] theorem State.dropStale_mem (core : Nat) : (s.dropStale core).mem = s.mem := by
  simp only [State.dropStale]
  split <;> simp
@[simp] theorem State.counted_mem : s.counted.mem = s.mem := rfl
@[simp] theorem State.coreTicks_mem : s.coreTicks.mem = s.mem := by
  unfold State.coreTicks
  rw [foldl_mem _ _ fun _ _ => State.dropStale_mem _, foldl_mem _ _ fun _ _ => by simp, foldl_mem _ _ fun _ _ => State.bcastLand_mem _,
    State.counted_mem, foldl_mem _ _ fun _ _ => State.landRegs_mem _]
@[simp] theorem State.fill_mem (core part va : Nat) : (s.fill core part va).mem = s.mem := by
  simp only [State.fill]
  split <;> simp
@[simp] theorem State.evict_mem (core va : Nat) : (s.evict core va).mem = s.mem := rfl
@[simp] theorem State.followed_mem (i : Inst) : (s.followed i).mem = s.mem := rfl

/-! ## Queues and tasks -/

@[simp] theorem State.cmdEvent_mem (q : Nat) : (s.cmdEvent q).mem = s.mem := by simp [State.cmdEvent]
@[simp] theorem State.closeDue_mem (q : Nat) : (s.closeDue q).mem = s.mem := by simp [State.closeDue]
@[simp] theorem State.passCI_mem (q : Nat) : (s.passCI q).mem = s.mem := by
  simp only [State.passCI]
  split
  · simp only [State.mem_ite, State.cmdEvent_mem, State.closeDue_mem]
    rw [foldl_mem _ _ fun _ _ => by rfl, State.setQueue_mem, ite_self]
  · rfl
@[simp] theorem State.handledBy_mem (q op n : Nat) : (s.handledBy q op n).mem = s.mem := by simp [State.handledBy]
@[simp] theorem State.handle_mem (q op : Nat) : (s.handle q op).mem = s.mem := by simp [State.handle]
@[simp] theorem State.invalidate_mem (part : Nat) (k : BitVec 2) (a len : Nat) : (s.invalidate part k a len).mem = s.mem := rfl
@[simp] theorem State.releaseSlots_mem (task : Word) : (s.releaseSlots task).mem = s.mem := rfl
@[simp] theorem State.link_mem (die prev slot : Nat) : (s.link die prev slot).mem = s.mem := by
  simp only [State.link]
  split
  · rfl
  · rfl
  · next u hu =>
    refine Eq.trans (b := u.mem) rfl ?_
    split at hu
    · simp at hu
    · simp at hu; exact State.buildChain_mem hu.2
@[simp] theorem State.taskDone_mem (slot : Nat) : (s.taskDone slot).mem = s.mem := by simp [State.taskDone]
@[simp] theorem State.dropPreloads_mem (die : Nat) (w : List (Option (Nat × Nat))) : (s.dropPreloads die w).mem = s.mem := rfl
theorem State.program_mem {die slot : Nat} {p : Option Spliced} (h : s.program die slot = some (t, p)) : t.mem = s.mem := by
  simp only [State.program] at h
  split at h
  · cases h; rfl
  · split at h
    · cases h; rfl
    · split at h
      · next u hu =>
        obtain ⟨q, -, hq⟩ := Option.map_eq_some_iff.1 h
        cases hq
        exact State.buildChain_mem hu
      · cases h
@[simp] theorem State.modTask_mem (die slot : Nat) (f : Task → Task) : (s.modTask die slot f).mem = s.mem := rfl
@[simp] theorem State.fixPairs_mem (die : Nat) (p : Spliced) : (s.fixPairs die p).mem = s.mem :=
  foldl_mem _ _ fun _ _ => by simp
@[simp] theorem State.startProg_mem (die : Nat) (p : Spliced) : (s.startProg die p).mem = s.mem := by simp [State.startProg]
@[simp] theorem State.place'_mem (who slot idx : Nat) (t : Task) (k : Kernel) (ks : List Kernel) (p : Option Spliced) :
    (s.place' who slot idx t k ks p).mem = s.mem := by
  unfold State.place'
  simp only [State.elect_mem]
  rfl
@[simp] theorem State.openBcast_mem (who slot idx : Nat) (t : Task) (first : Word) : (s.openBcast who slot idx t first).mem = s.mem := by
  simp [State.openBcast]
@[simp] theorem State.startOn_mem (who slot idx : Nat) (rerun : Bool) : (s.startOn who slot idx rerun).mem = s.mem := by
  simp only [State.startOn]
  split
  · rfl
  · next u p hp =>
    rw [← State.program_mem hp]
    split
    · rfl
    · simp only [State.mem_ite, State.modDie_mem, State.openBcast_mem]
      rw [foldl_mem _ _ fun _ _ => foldl_mem _ _ fun _ _ => by rfl, foldl_mem _ _ fun _ _ => State.place'_mem ..]
      cases p <;> simp
@[simp] theorem State.startOffer_mem (who : Nat) : (s.startOffer who).mem = s.mem := by
  simp only [State.startOffer]
  split
  · rfl
  · split <;> simp

/-! ## Bring-up -/

@[simp] theorem State.setStep_mem (n : Nat) (w : Word) : (s.setStep n w).mem = s.mem := rfl
@[simp] theorem State.loadFw_mem (b : List Byte) (v : BitVec 32) : (s.loadFw b v).mem = s.mem := rfl
@[simp] theorem State.startFw_mem (n : Nat) : (s.startFw n).mem = s.mem := rfl
@[simp] theorem State.railUp_mem (die : Nat) : (s.railUp die).mem = s.mem := by simp [State.railUp]
@[simp] theorem State.trainFrom_mem (lo : Nat) (re : Bool) : (s.trainFrom lo re).mem = s.mem := by
  unfold State.trainFrom
  exact foldl_mem _ _ fun _ _ => by simp
theorem State.stepWork_mem {flash : List (List Byte)} {n : Nat} {alt : Bool} (h : s.stepWork flash n alt = some t) : t.mem = s.mem := by
  unfold State.stepWork at h
  split at h
  · obtain ⟨v, -, hv⟩ := Option.map_eq_some_iff.1 h
    rw [← hv, State.loadFw_mem]
  all_goals obtain rfl := Option.some.inj h
  · exact foldl_mem _ _ fun _ _ => by simp
  · exact foldl_mem _ _ fun _ _ => State.railUp_mem _
  · rfl
  · rfl
  · exact State.trainFrom_mem ..
  · exact State.trainFrom_mem ..
  · exact foldl_mem _ _ fun _ _ => State.captured_mem _
  · rfl
@[simp] theorem State.bringUp_mem (flash : List (List Byte)) (fuel n : Nat) (runs : List StepRun) :
    (s.bringUp flash fuel n runs).mem = s.mem := by
  induction fuel generalizing s n runs with
  | zero => rfl
  | succ fuel ih =>
    unfold State.bringUp
    simp only [State.mem_ite, ih, State.setStep_mem]
    split
    · rfl
    · cases runs with
      | nil => rfl
      | cons r rest =>
        simp only
        split
        · next u hu =>
          rw [ih, State.setStep_mem]
          split at hu
          · exact (State.stepWork_mem hu).trans rfl
          · cases hu
        · simp only [State.mem_ite, ih, State.setStep_mem, State.trainFrom_mem, ite_self]
end Sys2Proof.Machine
end

section
/-! Operations that write memory, and that all of them keep its canonical form (R2, log 2). -/

namespace Sys2Proof.Machine

variable {s : State}

/-! ## Checkpoints, records, drained stores -/

theorem State.Inv.drain (h : s.Inv) (who : Nat) (e : WEnt) : (s.drain who e).Inv := by
  unfold State.drain
  split
  · exact h.setMem (by simp)
  · split
    · exact h
    · simp only
      split
      · exact h.writeUnit ..
      · exact h.setMem rfl
theorem State.Inv.release (h : s.Inv) (who : Nat) : (s.release who).Inv := by
  unfold State.release
  exact (State.Inv.foldl (fun _ _ h => h.drain ..) _ s h).setMem rfl
theorem State.Inv.deliverTo (h : s.Inv) (n : Snap) (q id data : Nat) : (s.deliverTo n q id data).Inv := by
  unfold State.deliverTo
  simp only
  split
  · exact h
  · split
    · exact State.Inv.writeUnit (h.setMem (by rfl)) ..
    · exact h.setMem rfl
theorem State.Inv.quietDone (h : s.Inv) (id : Nat) : (s.quietDone id).Inv := by
  unfold State.quietDone
  refine State.Inv.foldl (fun s n h => ?_) _ s h
  split
  · exact h
  · simp only
    split
    · exact State.Inv.writeUnit (h.setMem (by rfl)) ..
    · exact h.setMem rfl
theorem State.Inv.deliver (h : s.Inv) (who q id data : Nat) : (s.deliver who q id data).Inv := by
  unfold State.deliver
  exact State.Inv.foldl (fun _ _ h => h.deliverTo ..) _ _ (h.setMem rfl)
theorem State.Inv.pushSlot (h : s.Inv) (n size v : Nat) : (s.pushSlot n size v).Inv := (h.putBytes ..).setMem rfl
theorem State.Inv.addPip (h : s.Inv) (l : List (Nat × Nat)) : (s.addPip l).Inv := by
  unfold State.addPip
  simp only
  split
  · exact h.setMem rfl
  · exact h.trap _

/-! ## Steps on one element, commands, transfers -/

theorem State.Inv.ghostLoad (h : s.Inv) (m : MemArg) : (s.ghostLoad m).Inv := by
  unfold State.ghostLoad
  simp only
  split
  · split
    · exact h
    · exact h.trap _
  · exact h
theorem State.Inv.perform (h : s.Inv) (who key : Nat) (a : AmoOp) : (s.perform who key a).Inv := by
  unfold State.perform
  extract_lets e old s1 s2
  have h1 : s1.Inv := h.putElem e _
  have h2 : s2.Inv := h1.setMem (by simp [s2])
  split
  · exact h2
  · exact h2.setMem rfl
theorem State.Inv.sendStep (h : s.Inv) (part cls key : Nat) (a : AmoOp) : (s.sendStep part cls key a).Inv := by
  unfold State.sendStep
  simp only
  split
  · exact h.perform ..
  · exact h.setMem rfl
theorem State.Inv.fromPreload (h : s.Inv) (opc : Nat) (dst : Option Nat) (l : List (Elem × Elem)) : (s.fromPreload opc dst l).2.Inv := by
  unfold State.fromPreload
  simp only
  split
  · split
    · exact h
    · split
      · refine State.Inv.foldl (fun s m h => ?_) _ _ (h.setMem rfl)
        cases List.find? _ _ with
        | none => exact h
        | some p => exact h.putElem ..
      · exact h.setMem rfl
  · exact h
theorem State.Inv.giveToken (h : s.Inv) (core ring addr tok id : Nat) : (s.giveToken core ring addr tok id).Inv :=
    (h.putBytes ..).setMem rfl
theorem State.Inv.putCodes (h : s.Inv) (l : List Elem) (v : List Nat) : (s.putCodes l v).Inv :=
  State.Inv.foldl (fun _ _ h => h.putElem ..) _ s h
theorem State.Inv.endOptical (h : s.Inv) (die : Nat) (o : OCmd) (r f : Nat) : (s.endOptical die o r f).Inv := by
  unfold State.endOptical
  simp only
  split
  · refine State.Inv.quietDone (h.setMem ?_) _
    cases o.srcRing <;> cases o.dstRing <;> rfl
  · refine State.Inv.deliver (h.setMem ?_) ..
    cases o.srcRing <;> cases o.dstRing <;> rfl
theorem State.Inv.opticalDone (h : s.Inv) (die id : Nat) : (s.opticalDone die id).Inv := by
  unfold State.opticalDone
  simp only
  split
  · split
    · exact h
    · split
      · exact State.Inv.endOptical (h.setMem (by rfl)) ..
      · split
        · exact (h.putCodes ..).endOptical ..
        · exact h
  · exact h
theorem State.Inv.endCmd (h : s.Inv) (r : ECmdRec) (status : Nat) : (s.endCmd r status).Inv := by
  unfold State.endCmd
  simp only
  split
  · refine State.Inv.quietDone (h.setMem ?_) _
    cases r.srcRing <;> cases r.dstRing <;> rfl
  · refine State.Inv.deliver (h.setMem ?_) ..
    cases r.srcRing <;> cases r.dstRing <;> rfl
theorem State.Inv.writeLanes (h : s.Inv) (who id : Nat) : (s.writeLanes who id).Inv := by
  unfold State.writeLanes
  split
  · split
    · simp only
      split
      · exact h
      · split
        · exact h.takeTrap ..
        · exact h.writeWin ..
    · exact h
  · exact h
theorem State.Inv.moveAll (h : s.Inv) (r : ECmdRec) (l : List (Elem × Elem)) : (s.moveAll r l).Inv :=
  State.Inv.foldl (fun _ _ h => h.putElem ..) _ s h
theorem State.Inv.moveNear (h : s.Inv) (r : ECmdRec) : (s.moveNear r).Inv := h.moveAll ..
theorem State.Inv.placeFlit (h : s.Inv) (r : ECmdRec) (i : Nat) (d : BitVec 512) : (s.placeFlit r i d).Inv := by
  unfold State.placeFlit
  split
  · exact h.setMem rfl
  · simp only
    refine State.Inv.foldl (fun s u h => ?_) _ _ (State.Inv.foldl (fun s e h => h.putElem ..) _ _ (h.setMem rfl))
    split
    · exact h
    · exact h.setMem rfl
theorem State.Inv.giveArm (h : s.Inv) (x : Xfer) : (s.giveArm x).Inv := by
  unfold State.giveArm
  split
  · refine State.Inv.foldl (fun s f h => ?_) _ _ (h.setMem rfl)
    split
    · exact h.placeFlit ..
    · exact h
  · exact h
theorem State.Inv.finishXfer (h : s.Inv) (x : Xfer) : (s.finishXfer x).Inv := by
  unfold State.finishXfer
  split
  · exact h
  · exact (h.endCmd _ _).setMem rfl
theorem State.Inv.finishWhole (h : s.Inv) (n : Nat) : (State.finishWhole n s).Inv := by
  induction n generalizing s with
  | zero => exact h
  | succ n ih =>
    unfold State.finishWhole
    split
    · exact ih (h.finishXfer _)
    · exact h
theorem State.Inv.serveXfers (h : s.Inv) : s.serveXfers.Inv :=
  State.Inv.finishWhole (State.Inv.foldl (fun _ _ h => h.giveArm _) _ s h) _
theorem State.Inv.landIn (h : s.Inv) (who : Nat) (f : Fly) (v bm : Nat) : (s.landIn who f v bm).Inv := by
  unfold State.landIn
  split
  · exact h.writeWin ..
  all_goals exact h.setMem (by simp)
theorem State.Inv.putPieces (h : s.Inv) (who : Nat) (m : MOp) : (s.putPieces who m).Inv := by
  unfold State.putPieces
  refine State.Inv.foldl (fun s p h => ?_) _ s h
  exact (h.writeWin ..).setMem rfl

/-! ## Stopped contexts and snapshots -/

theorem State.Inv.stop (h : s.Inv) (who : Nat) {t : State} (e : s.stop who = some t) : t.Inv := by
  have hs : (s.suspend who).Inv := h.setMem (by simp)
  have hr : ((s.rollback who).suspend who).Inv := State.Inv.setMem (h.rollback who) (by simp)
  unfold State.stop at e
  extract_lets c at e
  split at e
  · cases e
  split at e
  · exact Option.some.inj e ▸ h
  split at e
  · cases e
  split at e
  · cases e
  · cases e
  · extract_lets s' at e
    have h' : s'.Inv := h.setMem (by simp [s'])
    split at e
    · cases e
    · rw [← Option.some.inj e]
      exact State.Inv.setMem (h'.release who) (by simp)
  · split at e
    · cases e
    · exact Option.some.inj e ▸ hr
  · exact Option.some.inj e ▸ hs
  · split at e
    · cases e
    · rw [← Option.some.inj e]
      exact h.setMem (by simp)
  · rw [← Option.some.inj e]
    exact h.setMem (by simp)
  · split at e
    · exact Option.some.inj e ▸ hs
    · split at e
      · exact Option.some.inj e ▸ hr
      · cases e
theorem State.Inv.saveTo (h : s.Inv) (who part addr : Nat) : ForOk State.Inv (s.saveTo who part addr) := by
  unfold State.saveTo
  extract_lets s1
  have h1 : s1.Inv := h.setMem (by simp [s1])
  split
  · exact forOk_ok.2 h1
  · extract_lets n
    split
    · exact forOk_error
    · extract_lets us t t1 t2 t3
      have ht : t.Inv := State.Inv.foldl (fun _ _ h => h.writeUnit ..) _ _ h1
      exact forOk_ok.2 (ht.setMem (by simp [t1, t2, t3]))
theorem State.Inv.restoreTo (h : s.Inv) (who part addr : Nat) (n : Snap) : ForOk State.Inv (s.restoreTo who part addr n) := by
  unfold State.restoreTo
  extract_lets core w
  split
  · exact forOk_error
  · extract_lets c t t1 t2 t3 t4
    have ht : t.Inv := State.Inv.putBytes (h.setMem (by rfl)) ..
    have h1 : t1.Inv := State.Inv.setMem (ht.putBytes ..) (State.rewind_mem ..)
    have h4 : t4.Inv := by
      refine h1.setMem ?_
      cases e : State.rebuildOn t3 (dieOf core) n.prog with
      | none => simp [t4, e]; rfl
      | some u => simp [t4, e, State.rebuildOn_mem e]; rfl
    exact forOk_ok.2 (h4.setMem (by simp))

/-! ## Queues and images -/

theorem State.Inv.putRecord (h : s.Inv) (q : Nat) (r : BitVec 256) : (s.putRecord q r).Inv := by
  unfold State.putRecord
  extract_lets c n v a s1
  exact State.Inv.setMem (s := s1) (h.nearWrite ..) (by simp)
theorem State.Inv.complete (h : s.Inv) (q : Nat) (r : BitVec 256) : (s.complete q r).Inv := by
  unfold State.complete
  simp only
  split
  · exact h.putRecord ..
  · exact h.setMem rfl
theorem State.Inv.refill (h : s.Inv) (q n : Nat) : (s.refill q n).Inv := by
  induction n generalizing s with
  | zero => exact h
  | succ n ih =>
    have hp (r l) : (((s.setQueue q { s.queue q with store := l }).putRecord q r).refill q n).Inv :=
      ih (State.Inv.putRecord (h.setMem (by rfl)) ..)
    unfold State.refill
    extract_lets c
    split
    · rw [apply_ite State.Inv]
      split
      · exact h
      · exact hp ..
    · exact h
theorem State.Inv.reply (h : s.Inv) (q : Nat) (x : BitVec 32) (n st code : Nat) : (s.reply q x n st code).Inv :=
  (h.complete _ _).setMem (State.handledBy_mem ..)
theorem State.Inv.answer (h : s.Inv) (q st code : Nat) : (s.answer q st code).Inv := h.reply ..
/-- A command keeps the invariant when its own work does. -/
theorem State.Inv.command (h : s.Inv) (q op : Nat) {f : State → State} (hf : (f s).Inv) : (s.command q op f).Inv := by
  unfold State.command
  simp only
  split
  · exact h
  · split
    · exact State.Inv.complete (h.setMem (State.handle_mem ..)) ..
    · split
      · exact hf
      · exact h
theorem State.Inv.ring' (h : s.Inv) (q : Nat) (x : BitVec 32) : (s.ring' q x).Inv := by
  unfold State.ring'
  simp only
  split
  · exact h.complete ..
  · exact h.setMem (by simp)
theorem State.Inv.taskHandled (h : s.Inv) (q n : Nat) : (s.taskHandled q n).Inv := by
  unfold State.taskHandled
  split
  · exact h
  · split
    · exact h
    · refine State.Inv.foldl (fun s t h => ?_) _ _ (h.setMem (by rfl))
      exact State.Inv.setMem (h.complete t.2.1 t.2.2) (by simp)
theorem State.Inv.putVirt (h : s.Inv) (part a n v : Nat) : (s.putVirt part a n v).Inv := by
  unfold State.putVirt
  refine State.Inv.foldl (fun s i h => ?_) _ s h
  split
  · exact h.writeUnit ..
  · exact h
theorem State.Inv.placeImage (h : s.Inv) (part : Nat) (p : Parsed) : (s.placeImage part p).Inv := by
  unfold State.placeImage
  refine State.Inv.foldl (fun s i h => ?_) _ s h
  split
  · split
    · exact h.putVirt ..
    · exact h
  · exact h

/-! ## Dispatch, branches, a tick -/

/-- A bundle that closes a group checkpoint first releases what the group held. -/
theorem State.Inv.endGroup (h : s.Inv) (who : Nat) : ((s.modCtx who Ctx.endGroup).release who).Inv :=
  State.Inv.release (h.setMem (by rfl)) _
theorem State.Inv.dispatch (h : s.Inv) (who : Nat) (b : Bundle) : (s.dispatch who b).Inv := by
  have he (now : Bool) : (if now then (s.modCtx who Ctx.endGroup).release who else s).Inv := by
    split
    · exact h.endGroup who
    · exact h
  have hm (now : Bool) (f : Ctx → Ctx) := State.Inv.setMem (he now) (State.modCtx_mem _ who f)
  unfold State.dispatch
  extract_lets c
  match c.bracket (c.opsOf b).1 with
  | (_, now) =>
    dsimp -zeta only
    extract_lets s1 s2
    match (s2.ctx who).opsOf b with
    | (l, ix) =>
      split
      · exact (hm now _).takeTrap ..
      · exact (hm now _).setMem (State.enter_mem ..)
theorem State.Inv.resolve (h : s.Inv) (next : Word) : (s.resolve next).Inv := by
  unfold State.resolve
  split
  · exact h.setMem rfl
  · split
    · split
      · exact h.setMem rfl
      · exact h.trap _
    · simp only
      split
      · exact h.setMem rfl
      · exact h.setMem rfl
theorem State.Inv.stageTick (h : s.Inv) (die : Nat) : (s.stageTick die).Inv := by
  have h1 : (s.startHead die fun o => o.op != 0x10).Inv := h.setMem (State.startHead_mem ..)
  unfold State.stageTick
  simp only
  split
  · split
    · exact h1.opticalDone ..
    · exact h1
  · exact h1
theorem State.Inv.dieTick (h : s.Inv) (d : Nat) : (((s.modDie d Die.tick).stageTick d).railTick d).Inv := by
  have h1 : (s.modDie d Die.tick).Inv := h.setMem (State.modDie_mem ..)
  exact (h1.stageTick d).setMem (State.railTick_mem ..)
theorem State.Inv.tick (h : s.Inv) : s.tick.Inv := by
  unfold State.tick
  extract_lets n sends s1 s2 s3 s4 s5 s6
  have h1 : s1.Inv := h.setMem (by simp [s1])
  clear_value s1
  have h2 : s2.Inv := h1.setMem (foldl_mem _ _ fun _ _ => by simp)
  clear_value s2
  have h3 : s3.Inv := State.Inv.foldl (fun _ d h => h.dieTick d) _ _ h2
  clear_value s3
  have h4 : s4.Inv := by
    unfold s4
    split
    · exact h3.setMem ((foldl_mem _ _ fun _ _ => by simp).trans (by simp))
    · exact h3
  clear_value s4
  have h6 : s6.Inv := State.Inv.setMem h4.serveXfers rfl
  split
  · exact h6.setMem (by simp)
  · exact h6
end Sys2Proof.Machine
end

section
/-! Outcomes that keep the canonical form, and the control, vector and matrix instructions. -/

namespace Sys2Proof.Machine

variable {s : State}

/-! ## Outcomes -/

/-- The next state of this outcome, if it has one, meets the invariant. -/
structure KeepsInv (o : Out) : Prop where
  of_eq : ∀ t, o = .next t → t.Inv
@[simp] theorem keepsInv_next {t : State} : KeepsInv (.next t) ↔ t.Inv :=
  ⟨fun h => h.of_eq t rfl, fun h => ⟨fun _ e => Host.Outcome.next.inj e ▸ h⟩⟩
@[simp] theorem keepsInv_fault {f : Fault} : KeepsInv (.fault f) := ⟨fun _ e => by cases e⟩
theorem KeepsInv.ite {c : Prop} [Decidable c] {a b : Out} (ha : KeepsInv a) (hb : KeepsInv b) : KeepsInv (if c then a else b) := by
  split
  · exact ha
  · exact hb
theorem State.Inv.ite {c : Prop} [Decidable c] {a b : State} (ha : a.Inv) (hb : b.Inv) : (if c then a else b).Inv := by
  split
  · exact ha
  · exact hb
/-- What leaves memory alone keeps the invariant. -/
theorem KeepsInv.of_mem (h : s.Inv) {t : State} (e : t.mem = s.mem) : KeepsInv (.next t) := keepsInv_next.2 (h.setMem e)
theorem State.Inv.forOk (h : s.Inv) {ε : Type} {r : Except ε State} (e : ForOk (fun t => t.mem = s.mem) r) : ForOk State.Inv r :=
  ⟨fun t ht => h.setMem (e.of_eq t ht)⟩
theorem State.Inv.finish (h : s.Inv) {r : Except Stop State} (hr : ForOk State.Inv r) : KeepsInv (s.finish r) := by
  unfold State.finish
  split
  · exact keepsInv_next.2 (forOk_ok.1 hr)
  · exact keepsInv_next.2 (h.trap _)
  · exact keepsInv_fault

/-! ## What the instructions of one kind share -/

theorem branch_keeps (h : s.Inv) (g : Guard) (taken : Bool) (target : Word) {write : State → State} (hw : ∀ t, (write t).mem = t.mem) :
    KeepsInv (.next (branch g taken target s write)) := by
  refine keepsInv_next.2 ?_
  unfold branch
  split
  · exact h
  · exact State.Inv.resolve (.ite (h.setMem (hw s)) h) _
theorem guarded_keeps (h : s.Inv) (g : Guard) {f : State → Except Stop State} (hf : ForOk State.Inv (f s)) : KeepsInv (guarded g s f) :=
  .ite (h.finish hf) (keepsInv_next.2 h)
theorem commanded_keeps (h : s.Inv) (c : ECmd) (q : Nat) {f : State → Out} (hf : KeepsInv (f s)) : KeepsInv (commanded c q s f) :=
  .ite (keepsInv_next.2 h) (.ite (.of_mem h (by simp)) hf)
theorem optical_keeps (h : s.Inv) (c : ECmd) {f : State → Out} (hf : KeepsInv (f s)) : KeepsInv (optical c s f) :=
  commanded_keeps h c 3 (.ite (.of_mem h (by simp)) hf)
theorem privileged_keeps (h : s.Inv) (lvl : Nat) (g : Guard) {f : State → Out} (hf : KeepsInv (f s)) : KeepsInv (privileged lvl g s f) :=
  .ite (keepsInv_next.2 (h.trap _)) (.ite hf (keepsInv_next.2 h))
/-- A privileged instruction whose own work leaves memory alone. -/
theorem privileged_leaves (h : s.Inv) (lvl : Nat) (g : Guard) {f : State → State} (hf : (f s).mem = s.mem) :
    KeepsInv (privileged lvl g s fun s => .next (f s)) := privileged_keeps h lvl g (.of_mem h hf)

/-! ## Control, vector and matrix instructions -/

theorem execVwr_keeps (h : s.Inv) (g : Guard) (sel : ViewSel) (sa : BitVec 6) : KeepsInv (execVwr g sel sa s) := by
  unfold execVwr
  refine keepsInv_next.2 ?_
  split
  · exact h
  · dsimp only
    split
    · exact h.setMem rfl
    · exact h.trap _
theorem execQpop_keeps (h : s.Inv) (g : Guard) (sd : BitVec 6) (pd : BitVec 4) (q : BitVec 2) (eb : Bool) :
    KeepsInv (execQpop g sd pd q eb s) := by
  refine .of_mem h ?_
  simp only [State.mem_ite]
  cases s.me.rqHead q.toNat <;> simp
theorem execVqpop_keeps (h : s.Inv) (c : VC) (vd : BitVec 11) (pd : BitVec 4) (q5 eb : Bool) : KeepsInv (execVqpop c vd pd q5 eb s) := by
  refine .of_mem h ?_
  dsimp only
  split <;> simp
theorem execVbin_keeps (h : s.Inv) (c : VC) (k : BitVec 4) (vd va vb : BitVec 11) (b : BitVec 6) : KeepsInv
    (execVbin c k vd va vb b s) := by
  unfold execVbin
  refine keepsInv_next.2 ?_
  split
  · exact h.setMem (by simp)
  · extract_lets w s1 s2
    have h1 : s1.Inv := State.Inv.foldl (fun _ _ h => h.pushSlot ..) _ s h
    split
    · exact h1.setMem (State.occupy_mem ..)
    · exact h1.setMem (by simp [s2])
theorem execVpip_keeps (h : s.Inv) (c : VC) (va : BitVec 11) : KeepsInv (execVpip c va s) :=
  keepsInv_next.2 (State.Inv.addPip (h.setMem (by simp)) _)
theorem execVpipBy_keeps (h : s.Inv) (c : VC) (va vb : BitVec 11) : KeepsInv (execVpipBy c va vb s) :=
  keepsInv_next.2 (State.Inv.addPip (h.setMem (by simp)) _)
theorem execVmovPush_keeps (h : s.Inv) (c : VC) (b : BitVec 6) (va : BitVec 11) : KeepsInv (execVmovPush c b va s) :=
  keepsInv_next.2 (State.Inv.ite (h.setMem (by simp))
    (State.Inv.setMem (State.Inv.setMem (h.pushSlot ..) (State.occupy_mem ..)) (State.pace_mem ..)))
theorem execMcfg_keeps (h : s.Inv) (g : Guard) (sk : BitVec 6) : KeepsInv (execMcfg g sk s) := by
  unfold execMcfg
  refine keepsInv_next.2 ?_
  split
  · exact h.trap _
  · exact h.setMem (by simp)
theorem execMpre_keeps (h : s.Inv) (g : Guard) (x : BitVec 1) (n : BitVec 4) (ra rb : BitVec 6) : KeepsInv (execMpre g x n ra rb s) := by
  unfold execMpre
  refine keepsInv_next.2 ?_
  split
  · exact h.trap _
  · exact h.setMem (by simp)
theorem arrayIssue_keeps (h : s.Inv) (op : Instr) (g : Guard) (x : BitVec 1) (n : BitVec 4) (ra rb : BitVec 6) :
    KeepsInv (arrayIssue op g x n ra rb s) := by
  unfold arrayIssue
  refine keepsInv_next.2 ?_
  split
  · exact h.trap _
  · exact h.setMem (by simp)
theorem execMmulp_keeps (h : s.Inv) (g : Guard) (rm : BitVec 3) (x : BitVec 1) (y : BitVec 2) (peer : BitVec 4) (prel pw : Bool)
    (n : BitVec 4)
    (od : BitVec 11) (ra rb : BitVec 6) : KeepsInv (execMmulp g rm x y peer prel pw n od ra rb s) := by
  unfold execMmulp
  refine keepsInv_next.2 (.ite (h.trap _) ?_)
  generalize firstCause _ = cause
  cases cause with
  | some z => exact h.trap _
  | none => exact h.setMem (by simp)
theorem regIssue_keeps (h : s.Inv) (op : Instr) (g : Guard) : KeepsInv (regIssue op g s) := by
  unfold regIssue
  refine keepsInv_next.2 ?_
  split
  · exact h.trap _
  · exact h.setMem (by simp)
theorem execMdrain_keeps (h : s.Inv) (g : Guard) (rm : BitVec 3) (k : BitVec 6) (add : Bool) (os : BitVec 11) (ra rb : BitVec 6) :
    KeepsInv (execMdrain g rm k add os ra rb s) := by
  unfold execMdrain
  refine keepsInv_next.2 ?_
  split
  · exact h.trap _
  · exact h.setMem (by simp)
end Sys2Proof.Machine
end

section
/-! The canonical form of memory: loads, stores and synchronisation. -/

namespace Sys2Proof.Machine

variable {s : State}

/-! ## Loads and stores -/

theorem State.load_mem (op : Instr) (m : MemArg) (dec : Bool) (cs : List (Option (List Int))) (dst : Dest) (bm size : Nat) :
    ForOk (fun t => t.mem = s.mem) (s.load op m dec cs dst bm size) := by
  unfold State.load
  extract_lets who l
  split
  · exact forOk_error
  · dsimp only
    split
    · split
      · exact forOk_error
      · exact forOk_ok.2 rfl
    · exact forOk_ok.2 (State.askDrawer_mem (s := s.claim _) ..)
theorem State.store_mem (m : MemArg) (dec : Option (ETy × BitVec 3)) (cs : List (List Int)) (x src : Nat) :
    ForOk (fun t => t.mem = s.mem) (s.store m dec cs x src) := by
  unfold State.store
  extract_lets who l
  split
  · exact forOk_error
  · next a ha =>
    dsimp only
    split
    · exact forOk_error
    · split
      · exact forOk_ok.2 (by simp)
      · refine ⟨fun t ht => ?_⟩
        rw [(State.withhold_mem _).of_eq t ht]
        cases s.packetPort who a.elems <;> simp
theorem execLdT_keeps (h : s.Inv) (g : Guard) (rm : BitVec 3) (rg : BitVec 11) (m : MemArg) (dt dc : Bool) (x : BitVec 2) : KeepsInv
    (execLdT g rm rg m dt dc x s) := by
  refine guarded_keeps h g (h.forOk ?_)
  dsimp only
  split
  · exact forOk_error
  · exact State.load_mem ..
theorem execLdV_keeps (h : s.Inv) (g : Guard) (rm : BitVec 3) (rg : BitVec 11) (m : MemArg) (dt dc : Bool) : KeepsInv
    (execLdV g rm rg m dt dc s) := by
  refine guarded_keeps h g (h.forOk ?_)
  dsimp only
  split
  · exact forOk_error
  · exact State.load_mem ..
theorem execLdS_keeps (h : s.Inv) (g : Guard) (rm : BitVec 3) (sd : BitVec 6) (m : MemArg) (d64 dc sx : Bool) : KeepsInv
    (execLdS g rm sd m d64 dc sx s) :=
  guarded_keeps h g (h.forOk (State.load_mem ..))
theorem execLdG_keeps (h : s.Inv) (g : Guard) (rg : BitVec 11) (m : MemArg) : KeepsInv (execLdG g rg m s) := by
  refine guarded_keeps h g (h.forOk ?_)
  dsimp only
  split
  · exact forOk_error
  · exact State.load_mem ..
theorem execStT_keeps (h : s.Inv) (g : Guard) (rm : BitVec 3) (rg : BitVec 11) (m : MemArg) (dt dc : Bool) (x : BitVec 2) : KeepsInv
    (execStT g rm rg m dt dc x s) := by
  have hn : (if s.guard g then s.noteStore m else s).Inv := .ite (h.setMem (by simp)) h
  unfold execStT
  generalize (if s.guard g then s.noteStore m else s) = t at hn ⊢
  refine guarded_keeps hn g (hn.forOk ?_)
  dsimp only
  split
  · exact forOk_ok.2 rfl
  · split
    · exact forOk_error
    · exact State.store_mem ..
theorem execStV_keeps (h : s.Inv) (g : Guard) (rm : BitVec 3) (rg : BitVec 11) (m : MemArg) (dt dc : Bool) : KeepsInv
    (execStV g rm rg m dt dc s) := by
  refine guarded_keeps h g (h.forOk ?_)
  dsimp only
  split
  · exact forOk_error
  · exact State.store_mem ..
theorem execStS_keeps (h : s.Inv) (g : Guard) (rm : BitVec 3) (sk : BitVec 6) (m : MemArg) (d64 dc : Bool) : KeepsInv
    (execStS g rm sk m d64 dc s) :=
  guarded_keeps h g (h.forOk (State.store_mem ..))
theorem execStSc_keeps (h : s.Inv) (g : Guard) (rg : BitVec 11) (m : MemArg) : KeepsInv (execStSc g rg m s) := by
  refine guarded_keeps h g (h.forOk ?_)
  dsimp only
  split
  · exact forOk_error
  · exact State.store_mem ..
theorem execStSp_keeps (h : s.Inv) (g : Guard) (sz : Bool) (rg : BitVec 11) (off : BitVec 14) : KeepsInv (execStSp g sz rg off s) := by
  refine guarded_keeps h g (h.forOk ?_)
  dsimp only
  split
  · exact State.withhold_mem _
  · exact State.withhold_mem _
theorem execTch_keeps (h : s.Inv) (g : Guard) (le : BitVec 8) (cb : BitVec 6) (imm : BitVec 16) (w : Bool) : KeepsInv
    (execTch g le cb imm w s) := by
  refine guarded_keeps h g (h.forOk ?_)
  dsimp only
  split
  · exact forOk_error
  · split
    · exact forOk_ok.2 rfl
    · generalize State.access1 _ _ _ _ _ _ = r
      cases r with
      | error e => exact forOk_error
      | ok a =>
        dsimp only
        split
        · exact forOk_ok.2 (State.closeWins_mem ..)
        · exact forOk_ok.2 rfl
theorem execAmo_keeps (h : s.Inv) (g : Guard) (op : BitVec 3) (nq : Bool) (sc : BitVec 3) (sk : BitVec 6) (m : MemArg) : KeepsInv
    (execAmo g op nq sc sk m s) := by
  refine .ite (keepsInv_next.2 h) (.ite (.of_mem h (by simp)) (h.finish ?_))
  dsimp only
  split
  · exact forOk_error
  · split
    · exact forOk_ok.2 h
    · split
      · exact forOk_error
      · split
        · exact forOk_error
        · exact forOk_ok.2 (State.Inv.sendStep (h.setMem (by simp)) ..)
theorem execRpush_keeps (h : s.Inv) (g : Guard) (z : BitVec 2) (rn : BitVec 6) (rg : BitVec 11) : KeepsInv (execRpush g z rn rg s) :=
  keepsInv_next.2 (.ite (h.setMem (by simp)) (h.pushSlot ..))

/-! ## Synchronisation -/

theorem execSig_keeps (h : s.Inv) (a : YArg) (set : Bool) : KeepsInv (execSig a set s) := by
  refine .ite (keepsInv_next.2 h) (.ite (.of_mem h (by simp)) (h.finish ?_))
  split
  · exact forOk_error
  · exact forOk_ok.2 (h.sendStep ..)
theorem execWait_keeps (h : s.Inv) (a : YArg) (c : BitVec 2) : KeepsInv (execWait a c s) := by
  refine .ite (keepsInv_next.2 h) (h.finish (h.forOk ?_))
  split
  · exact forOk_error
  · dsimp only
    split
    · exact forOk_ok.2 rfl
    · exact forOk_ok.2 (State.askFlag_mem (s := s.claim _) ..)
theorem execWaitSatisfied_keeps (h : s.Inv) (who : Nat) : KeepsInv (execWaitSatisfied who s) := by
  refine .of_mem h ?_
  split
  · dsimp only
    split
    · rfl
    · split
      · simp
      · split
        · rfl
        · exact (State.askFlag_mem (s := s.forget _) ..).trans (State.forget_mem ..)
  · rfl
theorem execBar_keeps (h : s.Inv) (a : YArg) : KeepsInv (execBar a s) := by
  refine .ite (keepsInv_next.2 h) (.ite (.of_mem h (by simp)) (h.finish ?_))
  split
  · exact forOk_error
  · exact forOk_ok.2 (State.Inv.sendStep (h.setMem (by rfl)) ..)
theorem execBarrierPass_keeps (h : s.Inv) (who : Nat) : KeepsInv (execBarrierPass who s) := by
  refine .of_mem h ?_
  split
  · dsimp only
    split
    · rfl
    · split
      · simp
      · split
        · rfl
        · exact (State.askFlag_mem (s := s.forget _) ..).trans (State.forget_mem ..)
  · rfl
theorem execSleepExpiry_keeps (h : s.Inv) (who : Nat) : KeepsInv (execSleepExpiry who s) := by
  refine .of_mem h ?_
  split <;> rfl
theorem execPwrAcq_keeps (h : s.Inv) (g : Guard) (sa : BitVec 6) : KeepsInv (execPwrAcq g sa s) :=
  keepsInv_next.2 (.ite h (.ite (h.trap _) (h.setMem (by simp))))
theorem execPowerGrant_keeps (h : s.Inv) (die : Nat) : KeepsInv (execPowerGrant die s) := by
  refine .of_mem h ?_
  split <;> simp
theorem execRealign_keeps (h : s.Inv) (g : Guard) (sa : BitVec 6) : KeepsInv (execRealign g sa s) :=
  keepsInv_next.2 (.ite h (.ite (h.trap _) (.ite (h.trap _) (h.setMem rfl))))
theorem execRealignDone_keeps (h : s.Inv) (who : Nat) : KeepsInv (execRealignDone who s) := by
  refine keepsInv_next.2 ?_
  split
  · dsimp only
    split
    · exact h.takeTrap ..
    · exact h.setMem rfl
  · exact h
theorem execRealignTimeout_keeps (h : s.Inv) (who : Nat) : KeepsInv (execRealignTimeout who s) := by
  refine keepsInv_next.2 ?_
  split
  · exact .ite (h.takeTrap ..) h
  · exact h
theorem execOrderingLockGrant_keeps (h : s.Inv) (who : Nat) : KeepsInv (execOrderingLockGrant who s) := by
  refine .of_mem h ?_
  split
  · simp
  · rfl
end Sys2Proof.Machine
end

section
/-! The canonical form of memory: commands to the engine and the stage, and system instructions. -/

namespace Sys2Proof.Machine

variable {s : State}

/-! ## Commands to the engine and the stage -/

theorem copyCmd_keeps (h : s.Inv) (opc : Nat) (c : ECmd) (ca : List (List Int))
    (dsts : State → Except Stop (List (List Elem) × BitVec 32 × List Page)) (tag : Word) : KeepsInv (copyCmd opc c ca dsts tag s) := by
  refine .ite (.of_mem h (by simp)) (h.finish ?_)
  split
  · exact forOk_error
  · split
    · exact forOk_error
    · dsimp only
      split
      · exact forOk_error
      · have hp := State.Inv.fromPreload (s := s.newId.2) (h.setMem rfl)
        exact forOk_ok.2 (State.Inv.setMem (hp ..) ((State.addCmd_mem ..).trans ((State.takeRings_mem ..).trans (State.gateMoves_mem ..))))
theorem execCpIn_keeps (h : s.Inv) (c : ECmd) : KeepsInv (execCpIn c s) :=
  commanded_keeps h c 2 (copyCmd_keeps h ..)
theorem execCpOut_keeps (h : s.Inv) (c : ECmd) : KeepsInv (execCpOut c s) :=
  commanded_keeps h c 2 (copyCmd_keeps h ..)
theorem execCpPeer_keeps (h : s.Inv) (c : ECmd) (mc : Bool) : KeepsInv (execCpPeer c mc s) :=
  commanded_keeps h c 2 (.ite (copyCmd_keeps h ..) (copyCmd_keeps h ..))
theorem execCpPf_keeps (h : s.Inv) (c : ECmd) : KeepsInv (execCpPf c s) :=
  commanded_keeps h c 2 (.of_mem h (State.addCmd_mem (s := s.newId.2) ..))
theorem execExf_keeps (h : s.Inv) (c : ECmd) (rn : BitVec 6) : KeepsInv (execExf c rn s) := by
  refine commanded_keeps h c 2 (.ite (.of_mem h (by simp)) (h.finish ?_))
  dsimp only
  split
  · exact forOk_error
  · split
    · exact forOk_error
    · refine .ite forOk_error (.ite ?_ ?_)
      · exact forOk_ok.2 (State.Inv.setMem (State.Inv.giveToken (h.setMem (by rfl)) ..) (State.addCmd_mem ..))
      · exact forOk_ok.2 (h.setMem ((State.addCmd_mem ..).trans (State.gateMoves_mem ..)))
theorem execSend_keeps (h : s.Inv) (c : ECmd) : KeepsInv (execSend c s) := by
  refine commanded_keeps h c 2 (.ite (.of_mem h (by simp)) (h.finish (h.forOk ?_)))
  split
  · exact forOk_error
  · simp
theorem execRecvArm_keeps (h : s.Inv) (c : ECmd) : KeepsInv (execRecvArm c s) := by
  refine commanded_keeps h c 2 (.ite (.of_mem h (by simp)) (.ite (.of_mem h (by simp)) (h.finish (h.forOk ?_))))
  split
  · exact forOk_error
  · exact forOk_ok.2 ((State.addCmd_mem ..).trans (State.takeRings_mem ..))
theorem execOfx_keeps (h : s.Inv) (c : ECmd) : KeepsInv (execOfx c s) := by
  refine optical_keeps h c (.ite (.of_mem h (by simp)) (h.finish (h.forOk ?_)))
  refine .ite forOk_error (.ite forOk_error (.ite forOk_error ?_))
  split
  · exact forOk_error
  · split
    · exact forOk_error
    · split
      · exact forOk_error
      · exact forOk_ok.2 ((State.accept_mem ..).trans (State.takeRings_mem ..))
theorem execOfm_keeps (h : s.Inv) (c : ECmd) (x : BitVec 1) : KeepsInv (execOfm c x s) := by
  refine optical_keeps h c (.ite (.of_mem h (by simp)) (h.finish (h.forOk ?_)))
  refine .ite forOk_error ?_
  split
  · exact forOk_error
  · exact forOk_ok.2 ((State.accept_mem ..).trans (State.takeRings_mem ..))
theorem execOfcCap_keeps (h : s.Inv) (c : ECmd) : KeepsInv (execOfcCap c s) :=
  optical_keeps h c (.of_mem h (State.accept_mem (s := s.newId.2) ..))
theorem readCal_keeps (h : s.Inv) (c : ECmd) (fn bytes : Nat) : KeepsInv (readCal c fn bytes s) := by
  refine optical_keeps h c (.ite (.of_mem h (by simp)) (h.finish (h.forOk ?_)))
  split
  · exact forOk_error
  · simp
theorem execOfr_keeps (h : s.Inv) (c : ECmd) (add : Bool) : KeepsInv (execOfr c add s) :=
  optical_keeps h c (.of_mem h (State.accept_mem (s := s.newId.2) ..))

/-! ## System instructions -/

theorem execSysrd_keeps (h : s.Inv) (g : Guard) (sd sa : BitVec 6) (off : BitVec 8) : KeepsInv (execSysrd g sd sa off s) := by
  refine privileged_keeps h 1 g (keepsInv_next.2 ?_)
  split
  · exact h.trap _
  · exact h.setMem rfl
theorem execSyswr_keeps (h : s.Inv) (g : Guard) (sa sb : BitVec 6) (off : BitVec 8) : KeepsInv (execSyswr g sa sb off s) := by
  refine privileged_keeps h 1 g (keepsInv_next.2 ?_)
  split
  · exact h.trap _
  · split
    · exact h.setMem (by simp)
    · exact h.trap _
theorem execTlbinv_keeps (h : s.Inv) (g : Guard) (k : BitVec 2) (sa sb sc : BitVec 6) : KeepsInv (execTlbinv g k sa sb sc s) :=
  privileged_keeps h 1 g (keepsInv_next.2 (.ite (h.trap _) (h.setMem (by simp))))
theorem keyOp_keeps (h : s.Inv) (g : Guard) (sa sb : BitVec 6) (erase : Bool) : KeepsInv (keyOp g sa sb erase s) :=
  privileged_keeps h 2 g (keepsInv_next.2 (.ite (h.trap _) (h.setMem (by simp))))
theorem execSlotmap_keeps (h : s.Inv) (g : Guard) (pd : BitVec 4) (sa sb : BitVec 6) : KeepsInv (execSlotmap g pd sa sb s) :=
  privileged_keeps h 2 g (keepsInv_next.2 (.ite (h.trap _) (h.setMem rfl)))
theorem snapOp_keeps (h : s.Inv) (g : Guard) (sa sb : BitVec 6) {f : Nat → Nat → Nat → State → Out}
    (hf : ∀ who part addr t, State.Inv t → KeepsInv (f who part addr t)) : KeepsInv (snapOp g sa sb s f) :=
  have ht (t : Trap) : KeepsInv (.next (s.trap t)) := keepsInv_next.2 (h.trap t)
  privileged_keeps h 1 g (.ite (ht _) (.ite (ht _) (.ite (ht _) (hf _ _ _ _ (h.setMem (by simp))))))
theorem execCtxsave_keeps (h : s.Inv) (g : Guard) (pd : BitVec 4) (sa sb : BitVec 6) : KeepsInv (execCtxsave g pd sa sb s) := by
  refine snapOp_keeps h g sa sb fun who part addr s h => .ite (.of_mem h rfl) ?_
  split
  · exact keepsInv_fault
  · exact keepsInv_next.2 (h.trap _)
  · dsimp only
    split
    · exact .of_mem h (by simp)
    · next t ht =>
      have h1 : t.Inv := State.Inv.stop (h.setMem (by rfl)) who ht
      refine .ite (.of_mem h1 (by simp)) ?_
      split
      · next u hu => exact .of_mem ((h1.saveTo who part addr).of_eq u hu) rfl
      · exact keepsInv_fault
      · exact keepsInv_next.2 (h.trap _)
theorem execCtxrest_keeps (h : s.Inv) (g : Guard) (pd : BitVec 4) (sa sb : BitVec 6) : KeepsInv (execCtxrest g pd sa sb s) := by
  refine snapOp_keeps h g sa sb fun who part addr s h => .ite (.of_mem h rfl) ?_
  split
  · refine .ite (.of_mem h rfl) (.ite (.of_mem h (by simp)) ?_)
    split
    · next t ht => exact .of_mem ((h.restoreTo who part addr _).of_eq t ht) rfl
    · exact keepsInv_fault
    · exact keepsInv_next.2 (h.trap _)
  · exact keepsInv_fault
  · exact keepsInv_fault
  · exact keepsInv_next.2 (h.trap _)
  · exact keepsInv_next.2 (h.trap _)
theorem execSwpat_keeps (h : s.Inv) (g : Guard) (pd : BitVec 4) (sa sb : BitVec 6) : KeepsInv (execSwpat g pd sa sb s) :=
  privileged_leaves h 2 g (by simp)
theorem execVote_keeps (h : s.Inv) (g : Guard) (sa sb : BitVec 6) : KeepsInv (execVote g sa sb s) :=
  privileged_leaves h 2 g (by simp)
theorem execSwq_keeps (h : s.Inv) (g : Guard) (sa sb : BitVec 6) : KeepsInv (execSwq g sa sb s) :=
  privileged_leaves h 2 g (by simp)
theorem linkCmd_keeps (h : s.Inv) (cmd : Nat) (g : Guard) (pd : BitVec 4) (sa : BitVec 6) : KeepsInv (linkCmd cmd g pd sa s) := by
  refine privileged_keeps h 2 g (.of_mem h ?_)
  split
  · next t ht => exact (State.postP_mem ..).trans (State.lnk_mem ht)
  · rfl
theorem execEvqPop_keeps (h : s.Inv) (g : Guard) (sd : BitVec 6) (pd : BitVec 4) (eb : Bool) : KeepsInv (execEvqPop g sd pd eb s) := by
  refine privileged_keeps h 2 g (.of_mem h ?_)
  split
  · rfl
  · simp
theorem execOlkAcq_keeps (h : s.Inv) (g : Guard) (sa : BitVec 6) : KeepsInv (execOlkAcq g sa s) :=
  privileged_leaves h 2 g (by simp)
theorem execOlkRel_keeps (h : s.Inv) (g : Guard) (sa : BitVec 6) : KeepsInv (execOlkRel g sa s) := by
  refine privileged_keeps h 2 g (keepsInv_next.2 (.ite ?_ (h.trap _)))
  have h1 : (State.taskHandled { s with svc := s.svc.setLock (tokenQ (s.sreg sa)) (tokenN (s.sreg sa) + 1, none) }
      (tokenQ (s.sreg sa)) (tokenN (s.sreg sa)).toNat).Inv := State.Inv.taskHandled (h.setMem (by rfl)) ..
  exact .ite (h1.setMem (by simp)) h1
theorem execTstate_keeps (h : s.Inv) (g : Guard) (sd sa : BitVec 6) (clr : Bool) : KeepsInv (execTstate g sd sa clr s) :=
  privileged_keeps h _ g (keepsInv_next.2 (.ite (h.trap _) (h.setMem (by simp))))
end Sys2Proof.Machine
end

section
/-! The canonical form of memory: events of contexts, of the matrix path and of commands that complete. -/

namespace Sys2Proof.Machine

variable {s : State}

/-! ## Contexts -/

theorem execBundleDispatch_keeps (h : s.Inv) (b : BitVec 512) : KeepsInv (execBundleDispatch b s) := by
  refine keepsInv_next.2 ?_
  split
  · exact .ite h (h.setMem (by simp))
  · exact .ite (State.Inv.dispatch (h.setMem (by simp)) ..) h
theorem execCheckpointRelease_keeps (h : s.Inv) (who : Nat) : KeepsInv (execCheckpointRelease who s) := by
  refine keepsInv_next.2 (.ite h ?_)
  have h1 : ((s.release who).modCtx who fun c => { c with irrev := none }).Inv := State.Inv.setMem (h.release who) rfl
  split
  · exact h1.takeTrap ..
  · exact h1
theorem execResultWrite_keeps (h : s.Inv) (who k : Nat) : KeepsInv (execResultWrite who k s) := by
  refine keepsInv_next.2 ?_
  split
  · exact h
  · next f _ =>
    refine .ite h ?_
    split
    · exact h.takeTrap ..
    · refine .ite h (.ite (h.takeTrap ..) ?_)
      exact State.Inv.setMem (State.Inv.landIn (s := s.forget f.gate) (h.setMem (by simp)) ..) (State.modCtx_mem ..)
theorem execLatchWriteLands_keeps (h : s.Inv) (who k : Nat) : KeepsInv (execLatchWriteLands who k s) := by
  refine .of_mem h ?_
  split
  · simp
  · rfl
theorem execContextReady_keeps (h : s.Inv) (who : Nat) : KeepsInv (execContextReady who s) := by
  refine .of_mem h ?_
  split
  · simp
  · rfl
theorem execPreemption_keeps (h : s.Inv) (who : Nat) : KeepsInv (execPreemption who s) := by
  refine keepsInv_next.2 (.ite ?_ h)
  cases ht : s.stop who with
  | none => exact h
  | some t => exact h.stop who ht
theorem execContextResume_keeps (h : s.Inv) (who : Nat) : KeepsInv (execContextResume who s) := by
  refine .ite (keepsInv_next.2 h) (.ite (keepsInv_next.2 (.ite (h.setMem (by simp)) h)) (.ite (keepsInv_next.2 h) ?_))
  split
  · dsimp only
    split
    · exact keepsInv_next.2 h
    · next n _ =>
      refine .ite (keepsInv_next.2 h) ?_
      split
      · next u hu => exact .of_mem ((h.restoreTo who _ _ n).of_eq u hu) (State.modDie_mem ..)
      · exact keepsInv_fault
      · exact keepsInv_next.2 h
  · exact keepsInv_next.2 h
theorem execInstanceEnd_keeps (h : s.Inv) (who : Nat) : KeepsInv (execInstanceEnd who s) :=
  .of_mem h (by simp [State.endInst_mem])
theorem execQuantumOverrun_keeps (h : s.Inv) (who : Nat) : KeepsInv (execQuantumOverrun who s) := by
  unfold execQuantumOverrun
  extract_lets c
  split
  · exact keepsInv_next.2 h
  · next i _ =>
    extract_lets prio
    refine .ite (keepsInv_next.2 h) ?_
    generalize (if s.otherReady who prio then s.saveSlot (dieOfWho who) i.part else none) = place
    cases place with
    | none => exact .of_mem h rfl
    | some p =>
      dsimp only
      split
      · exact keepsInv_next.2 h
      · next t ht =>
        have h1 := h.stop who ht
        refine .ite (keepsInv_next.2 h1) ?_
        split
        · next u hu => exact .of_mem ((h1.saveTo who _ _).of_eq u hu) rfl
        · exact keepsInv_fault
        · exact .of_mem h1 (by simp)
theorem execSpeculativePreload_keeps (h : s.Inv) (core : Nat) : KeepsInv (execSpeculativePreload core s) := by
  have hd : (s.dropStale core).Inv := h.setMem (by simp)
  refine .of_mem hd ?_
  dsimp only
  split
  · split
    · rfl
    · rfl
  · rfl
theorem execBroadcastDelivery_keeps (h : s.Inv) (row rank : Nat) : KeepsInv (execBroadcastDelivery row rank s) := by
  refine .of_mem h ?_
  split
  · rfl
  · simp only [State.mem_ite, State.bcastLand_mem]
    split
    · rfl
    · split
      · simp
      · rfl

/-! ## The matrix unit's path -/

theorem execMatrixPathStart_keeps (h : s.Inv) (who k : Nat) : KeepsInv (execMatrixPathStart who k s) := by
  refine .of_mem h ?_
  split
  · rfl
  · simp
theorem execPlaneLoadEnd_keeps (h : s.Inv) (who x : Nat) : KeepsInv (execPlaneLoadEnd who x s) := by
  refine .of_mem h ?_
  split
  · rfl
  · dsimp only
    split
    · simp
    · next m _ _ _ =>
      cases m.peer <;> simp
theorem execPeerReadEnd_keeps (h : s.Inv) (who k : Nat) : KeepsInv (execPeerReadEnd who k s) := by
  refine .of_mem h ?_
  split
  · split
    · simp
    · rfl
  · rfl
theorem execMatrixResultWrite_keeps (h : s.Inv) (who k : Nat) : KeepsInv (execMatrixResultWrite who k s) := by
  unfold execMatrixResultWrite
  refine keepsInv_next.2 ?_
  dsimp only
  generalize Ctx.mop _ _ = mop
  cases mop with
  | none => exact h
  | some m =>
    refine .ite h (.ite (h.takeTrap ..) ?_)
    refine State.Inv.setMem (State.Inv.putPieces ?_ who m) ((State.endMop_mem ..).trans (State.modCtx_mem ..))
    cases m.peer with
    | none => exact h
    | some p => exact h.setMem rfl
theorem execDrainPush_keeps (h : s.Inv) (who k : Nat) : KeepsInv (execDrainPush who k s) := by
  unfold execDrainPush
  refine keepsInv_next.2 ?_
  dsimp only
  generalize Ctx.mop _ _ = mop
  cases mop with
  | none => exact h
  | some m => exact .ite h (State.Inv.setMem (h.putBytes ..) ((State.endMop_mem ..).trans (State.modCtx_mem ..)))

/-! ## Commands that complete -/

theorem execEngineCommandComplete_keeps (h : s.Inv) (id : Nat) : KeepsInv (execEngineCommandComplete id s) := by
  refine keepsInv_next.2 ?_
  split
  · exact h
  · next r _ => exact .ite h (State.Inv.endCmd (State.Inv.moveNear (s := (s.judge r).2) (h.setMem (by simp)) _) ..)
theorem execExfBlockLands_keeps (h : s.Inv) (id : Nat) : KeepsInv (execExfBlockLands id s) := by
  refine keepsInv_next.2 ?_
  split
  · exact h
  · next r _ =>
    refine .ite h (State.Inv.endCmd (State.Inv.setMem (State.Inv.moveNear (s := (s.judge r).2) (h.setMem (by simp)) r) ?_) ..)
    cases r.dstRing <;> cases r.fallback <;> rfl
theorem execExfDeadline_keeps (h : s.Inv) (id : Nat) : KeepsInv (execExfDeadline id s) := by
  refine keepsInv_next.2 ?_
  split
  · exact h
  · next r _ =>
    refine .ite h ?_
    have h1 : (match r.dstRing with | some (c, n) => s.modRing c n Ring.unreserve | none => s).Inv := by
      split
      · exact h.setMem rfl
      · exact h
    have h2 : (match r.fallback with
        | some (c, n, a) => (match r.dstRing with | some (c, n) => s.modRing c n Ring.unreserve | none => s).giveToken c n a r.token id
        | none => (match r.dstRing with | some (c, n) => s.modRing c n Ring.unreserve | none => s)).Inv := by
      split
      · exact h1.giveToken ..
      · exact h1
    exact State.Inv.setMem (.ite (h2.quietDone _) (h2.deliver ..)) (State.setCmd_mem ..)
theorem execLateBlockDiscard_keeps (h : s.Inv) (id : Nat) : KeepsInv (execLateBlockDiscard id s) := by
  refine keepsInv_next.2 ?_
  split
  · exact .ite (h.endCmd ..) h
  · exact h
theorem execOpticalPassStart_keeps (h : s.Inv) (die : Nat) : KeepsInv (execOpticalPassStart die s) := by
  refine .of_mem h ?_
  split
  · rfl
  · simp
theorem execOpticalWindowWrite_keeps (h : s.Inv) (die : Nat) : KeepsInv (execOpticalWindowWrite die s) := by
  unfold execOpticalWindowWrite
  extract_lets g
  refine keepsInv_next.2 ?_
  split
  · refine .ite h ?_
    exact State.Inv.endOptical (State.Inv.putCodes (h.setMem (by rfl)) ..) ..
  · exact h
theorem execMaskLoadComplete_keeps (h : s.Inv) (die : Nat) : KeepsInv (execMaskLoadComplete die s) := by
  refine keepsInv_next.2 ?_
  split
  · exact .ite h (State.Inv.endOptical (h.setMem (by rfl)) ..)
  · exact h
theorem execCaptureComplete_keeps (h : s.Inv) (die : Nat) (ok : Bool) : KeepsInv (execCaptureComplete die ok s) := by
  refine keepsInv_next.2 ?_
  split
  · exact .ite h (.ite (h.endOptical ..) (State.Inv.endOptical (h.setMem (by simp)) ..))
  · exact h
end Sys2Proof.Machine
end

section
/-! The canonical form of memory: events of the fabric, of the host's queues and of bring-up. -/

namespace Sys2Proof.Machine

variable {s : State}

/-! ## The fabric -/

theorem execSysregWrite_keeps (h : s.Inv) (srn : BitVec 32) (v : Word) : KeepsInv (execSysregWrite srn v s) := by
  refine .of_mem h ?_
  split
  · rfl
  · split
    · next t ht => exact (State.regWrite_mem ..).of_eq t ht
    · rfl
theorem execFrameBoundary_keeps (h : s.Inv) (die : Nat) : KeepsInv (execFrameBoundary die s) :=
  keepsInv_next.2 (.ite h (h.setMem (foldl_mem _ _ fun _ _ => by rfl)))
theorem execDrawerReadDataPlaced_keeps (h : s.Inv) (id : Nat) : KeepsInv (execDrawerReadDataPlaced id s) := by
  refine keepsInv_next.2 ?_
  split
  · next r _ =>
    have h1 : ((s.takeUnit r).setReq { r with done := true }).Inv := h.setMem (by simp)
    refine .ite ?_ h
    exact State.Inv.setMem (State.Inv.writeLanes (h1.setMem (State.corrected_mem ..)) ..) (State.fixLoads_mem ..)
  · exact h
theorem execDrawerWritePerforms_keeps (h : s.Inv) (id : Nat) : KeepsInv (execDrawerWritePerforms id s) := by
  refine keepsInv_next.2 ?_
  split
  · exact h
  · next r _ =>
    have ht : State.Inv { s with fab := { s.fab with reqs := s.fab.reqs.filter fun q => q.id != id } } := h.setMem rfl
    refine .ite h (.ite ?_ ?_)
    · split
      · exact ht.perform ..
      · exact ht
    · split
      · exact .ite (State.Inv.serveXfers (ht.writeUnit ..)) (State.Inv.setMem (h.moveAll ..) (State.setReq_mem ..))
      · exact .ite (ht.writeUnit ..) (State.Inv.setMem (ht.writeUnit ..) (State.modCore_mem ..))
theorem execStallTimeout_keeps (h : s.Inv) (id : Nat) : KeepsInv (execStallTimeout id s) := by
  refine keepsInv_next.2 ?_
  split
  · exact h
  · refine .ite h ?_
    split
    · exact State.Inv.serveXfers (h.setMem (by rfl))
    · exact .ite (h.setMem rfl) (State.Inv.takeTrap (h.setMem (by rfl)) ..)
theorem execSwitchCommandPop_keeps (h : s.Inv) : KeepsInv (execSwitchCommandPop s) := by
  refine .of_mem h ?_
  split
  · rfl
  · simp
theorem execSendTimeout_keeps (h : s.Inv) (id : Nat) : KeepsInv (execSendTimeout id s) := by
  refine keepsInv_next.2 ?_
  split
  · exact .ite (h.endCmd ..) h
  · exact h
theorem execSendAcknowledgement_keeps (h : s.Inv) (id : Nat) : KeepsInv (execSendAcknowledgement id s) := by
  refine keepsInv_next.2 ?_
  split
  · exact .ite (State.Inv.setMem (h.endCmd ..) rfl) h
  · exact h
theorem execFlitArrival_keeps (h : s.Inv) (port pair rq : Nat) (seq : BitVec 32) (flit : Nat) (data : BitVec 512) (crcOk : Bool)
    (slack arr : Nat) : KeepsInv (execFlitArrival port pair rq seq flit data crcOk slack arr s) := by
  refine keepsInv_next.2 (.ite (h.setMem (by simp)) (.ite (h.setMem (by simp)) ?_))
  extract_lets s1 here _ s2 _ s3
  have h2 : s2.Inv := .ite (h.setMem (by simp [s1])) (h.setMem (by simp [s1]))
  have h3 : s3.Inv := h2.setMem rfl
  clear_value s3
  split
  · exact h3
  · refine .ite h3 ?_
    split
    · exact State.Inv.serveXfers (State.Inv.placeFlit (h3.setMem (by rfl)) ..)
    · exact State.Inv.serveXfers (h3.setMem (by rfl))
theorem execCompletionNotice_keeps (h : s.Inv) (port rq : Nat) (seq : BitVec 32) (flits : Nat) : KeepsInv
    (execCompletionNotice port rq seq flits s) :=
  keepsInv_next.2 (.ite h (State.Inv.serveXfers (h.setMem (by rfl))))
theorem execControlFlit_keeps (h : s.Inv) (port : Nat) (seq : BitVec 32) (crcOk : Bool) (resend : Option (Nat × Nat)) : KeepsInv
    (execControlFlit port seq crcOk resend s) := by
  refine keepsInv_next.2 (.ite h ?_)
  split
  · dsimp only
    split
    · exact h.setMem (by simp)
    · exact h.setMem rfl
  · exact h.setMem rfl
theorem execControlTimeout_keeps (h : s.Inv) (p : Nat) : KeepsInv (execControlTimeout p s) := by
  refine .of_mem h ?_
  split
  · rfl
  · rfl

/-! ## The host's queues and ports -/

theorem execCommandDoorbell_keeps (h : s.Inv) (q : Nat) (pi : BitVec 32) : KeepsInv (execCommandDoorbell q pi s) :=
  keepsInv_next.2 (.ite h (.ite (h.setMem rfl) (h.ring' ..)))
theorem execCompletionDoorbell_keeps (h : s.Inv) (q : Nat) (cci : BitVec 32) : KeepsInv (execCompletionDoorbell q cci s) := by
  unfold execCompletionDoorbell
  extract_lets c s1 s2
  have h1 : s1.Inv := State.Inv.refill (h.setMem (by rfl)) ..
  have h2 : s2.Inv := h1.setMem (by simp [s2])
  refine keepsInv_next.2 (.ite h (.ite h1 ?_))
  split
  · exact State.Inv.ring' (h2.setMem (by rfl)) ..
  · exact .ite (h2.setMem (by simp)) h2
theorem execHostWrite_keeps (h : s.Inv) (port : Nat) (rod : Bool) (addr : Nat) (bytes : List Byte) : KeepsInv
    (execHostWrite port rod addr bytes s) :=
  keepsInv_next.2 (.ite h (h.putBytes ..))
theorem execOutboundPacketToken_keeps (h : s.Inv) (port : Nat) : KeepsInv (execOutboundPacketToken port s) := by
  refine keepsInv_next.2 (.ite h ?_)
  dsimp only
  split
  · exact h.setMem rfl
  · exact h.setMem rfl
theorem execLoadimg_keeps (h : s.Inv) (q : Nat) : KeepsInv (execLoadimg q s) := by
  refine keepsInv_next.2 (h.command q 2 ?_)
  extract_lets part a size id f secs p img t _ t'
  have ht : t'.Inv := State.Inv.setMem (h.placeImage part p) rfl
  split
  · exact h.answer ..
  · exact .ite h (ht.reply ..)
theorem execUnload_keeps (h : s.Inv) (q : Nat) : KeepsInv (execUnload q s) := by
  refine keepsInv_next.2 (h.command q 3 ?_)
  dsimp only
  split
  · exact h.answer ..
  · exact State.Inv.answer (h.setMem (by rfl)) ..
theorem execLaunch_keeps (h : s.Inv) (q : Nat) : KeepsInv (execLaunch q s) := by
  refine keepsInv_next.2 (h.command q 1 ?_)
  dsimp only
  split
  · exact h.answer ..
  · exact .ite h (h.setMem (by simp))
theorem execOpenq_keeps (h : s.Inv) (q : Nat) : KeepsInv (execOpenq q s) := by
  refine keepsInv_next.2 (h.command q 4 ?_)
  dsimp only
  split
  · exact h.answer ..
  · exact State.Inv.answer (h.setMem (by rfl)) ..
theorem execCloseq_keeps (h : s.Inv) (q : Nat) : KeepsInv (execCloseq q s) :=
  keepsInv_next.2 (h.command q 5 (.ite (h.answer ..) (State.Inv.answer (h.setMem (by simp)) ..)))
theorem execResync_keeps (h : s.Inv) (q : Nat) : KeepsInv (execResync q s) := by
  refine keepsInv_next.2 (h.command q 6 ?_)
  extract_lets
  split
  · exact h.answer ..
  · refine .ite (State.Inv.reply (State.Inv.nearWrite (h.setMem (by rfl)) ..) ..) (State.Inv.reply (h.nearWrite ..) ..)
theorem execLaunchFetch_keeps (h : s.Inv) (die q : Nat) : KeepsInv (execLaunchFetch die q s) := by
  refine .of_mem h ?_
  split
  · next slot k _ _ _ =>
    simp only [State.mem_ite, State.passCI_mem]
    split
    · rfl
    · split
      · simp
      · rfl
  · rfl
theorem execTaskCompletion_keeps (h : s.Inv) (slot : Nat) : KeepsInv (execTaskCompletion slot s) := by
  refine keepsInv_next.2 (.ite h (h.setMem ?_))
  dsimp only
  rw [State.modDie_mem, foldl_mem _ _ fun _ _ => by rfl, foldl_mem _ _ fun _ _ => State.taskDone_mem ..]

/-! ## Bring-up -/

@[simp] theorem State.cold_mem (lost : Bool) : (s.cold lost).mem = if lost then [] else s.mem := rfl
theorem execColdReset_keeps (h : s.Inv) (runs : List StepRun) (flash : List (List Byte)) : KeepsInv (execColdReset runs flash s) :=
  .of_mem h (State.bringUp_mem ..)
theorem execPowerLoss_keeps (_h : s.Inv) : KeepsInv (execPowerLoss s) :=
  keepsInv_next.2 rfl
end Sys2Proof.Machine
end

section
/-! The canonical form of memory: every instruction, the default master cycle and the step. -/

namespace Sys2Proof.Machine

variable {s : State}

/-! ## A ready operation of a broadcast or a ring -/

theorem issueRing_keeps (h : s.Inv) {i : Instr} {o : Out} (e : issueRing i s = some o) : KeepsInv o := by
  unfold issueRing at e
  split at e
  case h_24 => cases e
  all_goals rw [← Option.some.inj e]
  · exact .of_mem h (by simp)
  · exact .of_mem h (by simp)
  · exact execRpush_keeps h ..
  · exact .of_mem h (by simp)
  · exact .of_mem h (by simp)
  · exact execVmovPush_keeps h ..
  · exact execVbin_keeps h ..
  · exact execMpre_keeps h ..
  · exact arrayIssue_keeps h ..
  · exact arrayIssue_keeps h ..
  · exact execMmulp_keeps h ..
  · exact arrayIssue_keeps h ..
  · exact execMdrain_keeps h ..
  · exact execCpIn_keeps h ..
  · exact execCpOut_keeps h ..
  · exact execCpPeer_keeps h ..
  · exact execSend_keeps h ..
  · exact execRecvArm_keeps h ..
  · exact execExf_keeps h ..
  · exact execOfx_keeps h ..
  · exact execOfm_keeps h ..
  · exact readCal_keeps h ..
  · exact readCal_keeps h ..
theorem State.Inv.issuing (h : s.Inv) (who : Nat) (sl : Slot) (e : Ent) : (s.issuing who sl e).Inv := h.setMem (by simp)
theorem issueRing_getD_keeps (h : s.Inv) {t : State} (ht : t.Inv) (i : Instr) : KeepsInv ((issueRing i t).getD (.next s)) := by
  cases e : issueRing i t with
  | none => exact keepsInv_next.2 h
  | some o => exact issueRing_keeps ht e
theorem execOperationFires_keeps (h : s.Inv) (who : Nat) (sl : Slot) : KeepsInv (execOperationFires who sl s) := by
  have hn : KeepsInv (.next s) := keepsInv_next.2 h
  unfold execOperationFires
  split
  · exact hn
  · split
    · exact hn
    · split
      · refine .ite hn (.ite ?_ hn)
        exact issueRing_getD_keeps h (State.Inv.issuing (h.setMem (by simp)) ..) _
      · exact .ite (issueRing_getD_keeps h (h.issuing ..) _) hn

/-! ## Every instruction -/

/-- No instruction and no event breaks the canonical form of memory. -/
theorem exec_keeps (h : s.Inv) (i : Instr) : KeepsInv (exec i s) := by
  cases i with
  | br | bc | call | ret | jmpi | loop => exact branch_keeps h _ _ _ fun _ => rfl
  | eret => exact privileged_leaves (f := fun s => s.modMe Ctx.eret) h 1 _ rfl
  | keyld | keyldErase => exact keyOp_keeps h ..
  | lnkTrain | lnkPark | lnkWake | lnkRetrain | lnkDown | lnkEnable =>
    exact linkCmd_keeps h ..
  | mmul | mmulz | mcmul => exact arrayIssue_keeps h ..
  | mclr | mbias | mtr => exact regIssue_keeps h ..
  | ofcRd | ofcTab => exact readCal_keeps h ..
  | vwr => exact execVwr_keeps h ..
  | qpop => exact execQpop_keeps h ..
  | sysrd => exact execSysrd_keeps h ..
  | syswr => exact execSyswr_keeps h ..
  | tlbinv => exact execTlbinv_keeps h ..
  | slotmap => exact execSlotmap_keeps h ..
  | ctxsave => exact execCtxsave_keeps h ..
  | ctxrest => exact execCtxrest_keeps h ..
  | swpat => exact execSwpat_keeps h ..
  | vote => exact execVote_keeps h ..
  | swq => exact execSwq_keeps h ..
  | evqPop => exact execEvqPop_keeps h ..
  | olkAcq => exact execOlkAcq_keeps h ..
  | olkRel => exact execOlkRel_keeps h ..
  | tstate => exact execTstate_keeps h ..
  | vbin => exact execVbin_keeps h ..
  | vpip => exact execVpip_keeps h ..
  | vpipBy => exact execVpipBy_keeps h ..
  | vmovPush => exact execVmovPush_keeps h ..
  | vqpop => exact execVqpop_keeps h ..
  | mcfg => exact execMcfg_keeps h ..
  | mpre => exact execMpre_keeps h ..
  | mmulp => exact execMmulp_keeps h ..
  | mdrain => exact execMdrain_keeps h ..
  | ldT => exact execLdT_keeps h ..
  | ldV => exact execLdV_keeps h ..
  | ldS => exact execLdS_keeps h ..
  | ldG => exact execLdG_keeps h ..
  | tch => exact execTch_keeps h ..
  | stT => exact execStT_keeps h ..
  | stV => exact execStV_keeps h ..
  | stS => exact execStS_keeps h ..
  | stSc => exact execStSc_keeps h ..
  | amo => exact execAmo_keeps h _ _ _ 0 _ _
  | stSp => exact execStSp_keeps h ..
  | rpush => exact execRpush_keeps h ..
  | cpIn => exact execCpIn_keeps h ..
  | cpOut => exact execCpOut_keeps h ..
  | cpPeer => exact execCpPeer_keeps h ..
  | cpPf => exact execCpPf_keeps h ..
  | send => exact execSend_keeps h ..
  | recvArm => exact execRecvArm_keeps h ..
  | exf => exact execExf_keeps h ..
  | ofx => exact execOfx_keeps h ..
  | ofm => exact execOfm_keeps h ..
  | ofcCap => exact execOfcCap_keeps h ..
  | ofr => exact execOfr_keeps h ..
  | sig => exact execSig_keeps h ..
  | wait => exact execWait_keeps h ..
  | bar => exact execBar_keeps h ..
  | pwrAcq => exact execPwrAcq_keeps h ..
  | realign => exact execRealign_keeps h ..
  | bundleDispatch => exact execBundleDispatch_keeps h ..
  | checkpointRelease => exact execCheckpointRelease_keeps h ..
  | resultWrite => exact execResultWrite_keeps h ..
  | latchWriteLands => exact execLatchWriteLands_keeps h ..
  | contextReady => exact execContextReady_keeps h ..
  | operationFires => exact execOperationFires_keeps h ..
  | broadcastDelivery => exact execBroadcastDelivery_keeps h ..
  | preemption => exact execPreemption_keeps h ..
  | contextResume => exact execContextResume_keeps h ..
  | instanceEnd => exact execInstanceEnd_keeps h ..
  | orderingLockGrant => exact execOrderingLockGrant_keeps h ..
  | matrixPathStart => exact execMatrixPathStart_keeps h ..
  | planeLoadEnd => exact execPlaneLoadEnd_keeps h ..
  | matrixResultWrite => exact execMatrixResultWrite_keeps h ..
  | drainPush => exact execDrainPush_keeps h ..
  | peerReadEnd => exact execPeerReadEnd_keeps h ..
  | engineCommandComplete => exact execEngineCommandComplete_keeps h ..
  | exfBlockLands => exact execExfBlockLands_keeps h ..
  | exfDeadline => exact execExfDeadline_keeps h ..
  | lateBlockDiscard => exact execLateBlockDiscard_keeps h ..
  | waitSatisfied => exact execWaitSatisfied_keeps h ..
  | barrierPass => exact execBarrierPass_keeps h ..
  | sleepExpiry => exact execSleepExpiry_keeps h ..
  | powerGrant => exact execPowerGrant_keeps h ..
  | realignDone => exact execRealignDone_keeps h ..
  | realignTimeout => exact execRealignTimeout_keeps h ..
  | opticalPassStart => exact execOpticalPassStart_keeps h ..
  | opticalWindowWrite => exact execOpticalWindowWrite_keeps h ..
  | maskLoadComplete => exact execMaskLoadComplete_keeps h ..
  | captureComplete => exact execCaptureComplete_keeps h ..
  | sysregWrite => exact execSysregWrite_keeps h ..
  | commandDoorbell => exact execCommandDoorbell_keeps h ..
  | completionDoorbell => exact execCompletionDoorbell_keeps h ..
  | hostWrite => exact execHostWrite_keeps h _ false _ _
  | launch => exact execLaunch_keeps h ..
  | loadimg => exact execLoadimg_keeps h ..
  | unload => exact execUnload_keeps h ..
  | openq => exact execOpenq_keeps h ..
  | closeq => exact execCloseq_keeps h ..
  | resync => exact execResync_keeps h ..
  | launchFetch => exact execLaunchFetch_keeps h ..
  | taskCompletion => exact execTaskCompletion_keeps h ..
  | quantumOverrun => exact execQuantumOverrun_keeps h ..
  | speculativePreload => exact execSpeculativePreload_keeps h ..
  | drawerReadDataPlaced => exact execDrawerReadDataPlaced_keeps h ..
  | drawerWritePerforms => exact execDrawerWritePerforms_keeps h ..
  | stallTimeout => exact execStallTimeout_keeps h ..
  | switchCommandPop => exact execSwitchCommandPop_keeps h ..
  | sendTimeout => exact execSendTimeout_keeps h ..
  | flitArrival => exact execFlitArrival_keeps h ..
  | completionNotice => exact execCompletionNotice_keeps h ..
  | sendAcknowledgement => exact execSendAcknowledgement_keeps h ..
  | controlFlit => exact execControlFlit_keeps h ..
  | controlTimeout => exact execControlTimeout_keeps h ..
  | frameBoundary => exact execFrameBoundary_keeps h ..
  | coldReset => exact execColdReset_keeps h ..
  | outboundPacketToken => exact execOutboundPacketToken_keeps h ..
  | powerLoss => exact execPowerLoss_keeps h ..
  | nop | add | sub | mul | mulh | mulhn | div | divn | rem | remn | and | or | xor | andn | shl | shr | sar | min | max |
    minn | maxn | clz | popc | sext | zext | mov | sel | cmp | pand | por | pxor | pnot | addi | li | lih | fadd | fsub |
    fmul | ffma | fcmp | fcvt | brk | trap | halt | ibw | wid | rank | csrr | csrw | vadd | vsub | vmul | vmulh | vfma | vfms
    | vabs | vneg | vmin | vmax | vaddsat | vsubsat | vand | vor | vxor | vnot | vshl | vshr | vsar | vcmp | vsel | vcvt |
    vwiden | vnarrow | vmaxe | vqcvt | vdeq | vexp2 | vlog2 | vrcp | vrsq | vsqrt | vtanh | vsincos | vcmul | vcmac | vred |
    vscan | vperm | vbcast | vbcastLane | vrot | vtrn | vzip | vunzip | vpipRead | vmov | vmovPop | vmovi | vlane | vpmov |
    vpmovTomask | mxs | ldSp | rpop | rsel | rpeek | fence | rwait | yield | sleep | pwrRel | divisionResultPush |
    vectorQueueEntryPush | touchWindowExpiry | instanceStart | ringClearComplete | ringcfgWrite | ringstWrite | ctxCfgWrite |
    ctxCcfgWrite | pipclr | pipWrite | tchOpenWrite | prtOwnWrite | prtCtlWrite | drawerSlotWrite | lnkRingWrite |
    heaterApply | monitorUpdate | modulatorChangeover | bootCtlWrite | taskRerun | taskAbandon | sessionSetup | unloadEffect
    | spliceHoldExpiry | shareDone | drawerSlot | lockAchieved | trainTimeout | parkIdle | wakeThreshold | wakeComplete |
    retrainTrigger | retrainLock | retrainTimeout | rxLightLoss | txLightLoss | rotationStart | circuitSlotGuard |
    circuitSlotConnect | railVminCrossing | railReachesTarget | rowsFitted | railHoldExpiry | thermalAlert | thermalTrip |
    telemetryPoll | watchdogExpiry | hostRead | rotationEnd | sensorBelowThreshold =>
    exact .of_mem h (by simp)

/-! ## The default master cycle -/

/-- An event of the list is an instruction's effect. -/
theorem event_keeps (i : Instr) (s : State) (h : s.Inv) : KeepsInv (exec i s) := exec_keeps h i
/-- Every action of this list keeps the invariant. -/
structure AllKeep (l : List (State → Out)) : Prop where
  keeps : ∀ f ∈ l, ∀ s : State, s.Inv → KeepsInv (f s)
theorem AllKeep.nil : AllKeep [] := ⟨fun _ h => absurd h List.not_mem_nil⟩
theorem allKeep_cons {f : State → Out} {l : List (State → Out)} :
    AllKeep (f :: l) ↔ (∀ s : State, s.Inv → KeepsInv (f s)) ∧ AllKeep l :=
  ⟨fun h => ⟨h.keeps f List.mem_cons_self, ⟨fun g hg => h.keeps g (List.mem_cons_of_mem f hg)⟩⟩,
   fun ⟨hf, hl⟩ => ⟨List.forall_mem_cons.2 ⟨hf, hl.keeps⟩⟩⟩
theorem AllKeep.events (l : List Instr) : AllKeep (l.map exec) := ⟨List.forall_mem_map.2 fun i _ _ h => exec_keeps h i⟩
theorem allKeep_append {l m : List (State → Out)} : AllKeep (l ++ m) ↔ AllKeep l ∧ AllKeep m :=
  ⟨fun h => let ⟨hl, hm⟩ := List.forall_mem_append.1 h.keeps; ⟨⟨hl⟩, ⟨hm⟩⟩, fun ⟨hl, hm⟩ => ⟨List.forall_mem_append.2 ⟨hl.keeps, hm.keeps⟩⟩⟩
theorem AllKeep.append {l m : List (State → Out)} (hl : AllKeep l) (hm : AllKeep m) : AllKeep (l ++ m) := allKeep_append.2 ⟨hl, hm⟩
theorem AllKeep.map {α : Type} {l : List α} {g : α → State → Out} (hg : ∀ a, ∀ s : State, s.Inv → KeepsInv (g a s)) : AllKeep (l.map g) :=
  ⟨List.forall_mem_map.2 fun a _ => hg a⟩
theorem AllKeep.flatten {α : Type} {l : List α} {g : α → List (State → Out)} (hg : ∀ a, AllKeep (g a)) : AllKeep (l.map g).flatten :=
  ⟨List.forall_mem_flatten.2 (List.forall_mem_map.2 fun a _ => (hg a).keeps)⟩
theorem AllKeep.ite {c : Prop} [Decidable c] {l m : List (State → Out)} (hl : AllKeep l) (hm : AllKeep m) :
    AllKeep (if c then l else m) := by split <;> assumption
theorem inTurn_keeps {l : List (State → Out)} (hl : AllKeep l) (h : s.Inv) : KeepsInv (inTurn l s) := by
  induction l generalizing s with
  | nil => exact keepsInv_next.2 h
  | cons f l ih =>
    obtain ⟨hf, hl⟩ := allKeep_cons.1 hl
    unfold inTurn
    split
    · next t ht => exact ih hl ((hf s h).of_eq t ht)
    · exact hf s h
theorem inGroups_keeps {l : List (State → List (State → Out))} (hl : ∀ g ∈ l, ∀ s, AllKeep (g s)) (h : s.Inv) : KeepsInv
    (inGroups l s) := by
  induction l generalizing s with
  | nil => exact keepsInv_next.2 h
  | cons g l ih =>
    obtain ⟨hg, hl⟩ := List.forall_mem_cons.1 hl
    unfold inGroups
    split
    · next t ht => exact ih hl ((inTurn_keeps (hg s) h).of_eq t ht)
    · exact inTurn_keeps (hg s) h

theorem ctxEvents_keep (s : State) (who : Nat) : AllKeep (s.ctxEvents who) := by
  unfold State.ctxEvents
  extract_lets c
  simp only [allKeep_append, and_assoc]
  refine ⟨?_, ?_, ?_, ?_, ?_, ?_, ?_, ?_, ?_, ?_, ?_, ?_⟩
  · exact .map (fun f => event_keeps (.resultWrite who f.id))
  · exact .map (fun e => event_keeps (.divisionResultPush who e.id))
  · refine .flatten fun q => ?_
    exact .map fun e => event_keeps (.vectorQueueEntryPush who q e.id)
  · exact .ite .nil (.events [.latchWriteLands who 0])
  · exact .ite .nil (.events [.planeLoadEnd who 0, .planeLoadEnd who 1])
  · exact .flatten (fun m => .events [.matrixResultWrite who m.id, .drainPush who m.id, .peerReadEnd who m.id])
  · exact .map (fun w => event_keeps (.touchWindowExpiry who w.n))
  · exact .ite (.events [.checkpointRelease who]) .nil
  · exact .ite (.events [.contextReady who]) .nil
  · split
    · exact .events [.waitSatisfied who]
    · exact .events [.barrierPass who]
    · exact .events [.sleepExpiry who]
    · exact .events [.realignTimeout who, .realignDone who]
    · exact .events [.orderingLockGrant who]
    · exact .nil
  · exact .ite (.events [.instanceEnd who]) .nil
  · exact .ite .nil (.events [.contextResume who, .instanceStart who, .watchdogExpiry who])
theorem fabEvents_keep (s : State) : AllKeep s.fabEvents := by
  unfold State.fabEvents
  simp only [allKeep_append, and_assoc]
  refine ⟨?_, ?_, ?_, ?_, ?_, ?_, ?_⟩
  · exact .events [.drawerSlot 0, .drawerSlot 1]
  · exact .flatten (fun r => .events [.stallTimeout r.id, .drawerReadDataPlaced r.id, .drawerWritePerforms r.id])
  · exact .flatten (fun r => .events [.exfBlockLands r.id, .exfDeadline r.id, .lateBlockDiscard r.id, .engineCommandComplete r.id,
      .sendTimeout r.id])
  · refine .flatten (fun p => .append (.append ?_ (.ite (.events [.retrainTrigger p.1]) .nil))
      (.ite (.events [.wakeThreshold p.1]) .nil))
    exact .events [.trainTimeout p.1, .retrainTimeout p.1, .controlTimeout p.1, .parkIdle p.1, .wakeComplete p.1]
  · exact .events [.switchCommandPop, .rotationEnd, .rotationStart, .circuitSlotGuard, .circuitSlotConnect]
  · exact .map (fun c => event_keeps (.modulatorChangeover c.1 c.2.1))
  · exact .map (fun r => event_keeps (.heaterApply r.1))
theorem dieEvents_keep (s : State) (d : Nat) : AllKeep (s.dieEvents d) := by
  refine .append ?_ (.flatten (fun t => .events [.taskRerun d t.1, .taskAbandon d t.1, .shareDone d t.1]))
  exact .events [.frameBoundary d, .railVminCrossing d, .railReachesTarget d, .rowsFitted d, .railHoldExpiry d, .powerGrant d,
    .opticalWindowWrite d, .maskLoadComplete d, .captureComplete d true, .opticalPassStart d, .spliceHoldExpiry d]
theorem svcEvents_keep (s : State) : AllKeep s.svcEvents := by
  have hq (q : Nat) : AllKeep [execLaunch q, execLoadimg q, execUnload q, execOpenq q, execCloseq q, execResync q] :=
    .events [.launch q, .loadimg q, .unload q, .openq q, .closeq q, .resync q]
  exact .append (.append (.append (.flatten (fun q => .append (hq q.1) (.map (fun d => event_keeps (.launchFetch d q.1)))))
    (.map (fun i => event_keeps (.unloadEffect i.id)))) (.map (fun t => event_keeps (.taskCompletion t.1))))
    (.map (fun p => event_keeps (.outboundPacketToken p)))
theorem rowEvents_keep (r : Nat × Row) : AllKeep (State.rowEvents r) := by
  unfold State.rowEvents
  split
  · exact .map (fun k => event_keeps (.broadcastDelivery r.1 k))
  · exact .nil
theorem ringEvents_keep (c : Nat × Core) : AllKeep (State.ringEvents c) := .map (fun r => event_keeps (.ringClearComplete c.1 r.1))

/-! ## Moves -/

theorem State.Inv.issueHead (h : s.Inv) (who : Nat) (sl : Slot) : KeepsInv (s.issueHead who sl exec) := by
  have hn : KeepsInv (.next s) := keepsInv_next.2 h
  unfold State.issueHead
  split
  · exact hn
  · next e _ _ =>
    have hi := h.issuing who sl e
    split
    · exact hn
    · refine .ite (keepsInv_next.2 (.ite ?_ h)) (.ite (exec_keeps hi _) hn)
      split
      · exact hi.ghostLoad _
      · exact hi
theorem State.Inv.dispatchNext (h : s.Inv) (who : Nat) : KeepsInv (s.dispatchNext who exec) := by
  have hb (b : BitVec 512) : KeepsInv (exec (.bundleDispatch b) { s with cur := { who := who } }) :=
    exec_keeps (s := { s with cur := { who := who } }) (h.setMem rfl) _
  refine .ite (hb 0) ?_
  split
  · exact keepsInv_next.2 h
  · exact hb _
  · exact keepsInv_next.2 (.ite (h.takeTrap ..) h)
  · exact .ite keepsInv_fault (keepsInv_next.2 h)
theorem groups_keep (g : State → List (State → Out)) (hg : g ∈ groups exec) (s : State) : AllKeep (g s) := by
  have hi (who : Nat) (sl : Slot) (s : State) (h : s.Inv) : KeepsInv (s.issueHead who sl exec) := h.issueHead who sl
  have hd (who : Nat) (s : State) (h : s.Inv) : KeepsInv (s.dispatchNext who exec) := h.dispatchNext who
  simp only [groups, List.mem_cons, List.not_mem_nil, or_false] at hg
  rcases hg with rfl | rfl | rfl | rfl | rfl | rfl | rfl | rfl | rfl | rfl | rfl | rfl
  · exact .flatten (dieEvents_keep s)
  · exact fabEvents_keep s
  · exact .flatten (fun c => ctxEvents_keep s c.1)
  · exact svcEvents_keep s
  · exact .flatten rowEvents_keep
  · exact .flatten (fun w => .map (fun sl => hi w sl))
  · exact .map (fun w => hi w .m)
  · exact .flatten (fun c => .map (fun m => event_keeps (.matrixPathStart c.1 m.id)))
  · exact .flatten (fun c => .map (fun n => hd (c.1 * 4 + n)))
  · exact .map (fun c => hd c.1)
  · exact .flatten (fun c => .events [.quantumOverrun c.1, .preemption c.1])
  · exact .flatten ringEvents_keep
theorem State.Inv.cycle (h : s.Inv) : KeepsInv (s.cycle exec) := by
  have hg := inGroups_keeps groups_keep h
  unfold State.cycle
  split
  · next t ht => exact keepsInv_next.2 (hg.of_eq t ht).tick
  · exact hg
theorem State.Inv.move (h : s.Inv) (m : Move) : KeepsInv (s.move m exec) := by
  cases m with
  | tick => exact keepsInv_next.2 h.tick
  | fill core part va => exact .of_mem h (State.fill_mem ..)
  | evict core va => exact .of_mem h (State.evict_mem ..)
  | issue who sl => exact h.issueHead who sl
  | dispatch who => exact h.dispatchNext who
  | event i => exact .ite (exec_keeps h i) (keepsInv_next.2 h)
theorem step_keeps (h : s.Inv) : KeepsInv (step s) := by
  unfold step
  split
  · exact h.cycle
  · next m r _ => exact State.Inv.move (s := { s with sched := r }) (h.setMem rfl) m

/-- Settles O56: every write to memory goes through the byte map's own writes, which keep its one form, and all else leaves it alone. -/
theorem invariantKept : Obligations.InvariantKept := by
  unfold Obligations.InvariantKept
  exact fun s t h e => (step_keeps h).of_eq t e
end Sys2Proof.Machine
end

section
/-! Ports of the host, doorbells and completion records (R254, R315, R318 to R322). -/

namespace Sys2Proof.Machine

variable {s : State}

/-! ## Bytes of a value -/

theorem bytesNat_byte (l : List Byte) {i : Nat} (h : i < l.length) : BitVec.ofNat 8 (bytesNat l / 256 ^ i) = l.getD i 0 := by
  induction l generalizing i with
  | nil => simp at h
  | cons b l ih =>
    unfold bytesNat
    cases i with
    | zero =>
      rw [Nat.pow_zero, Nat.div_one, List.getD_cons_zero]
      exact BitVec.eq_of_toNat_eq (by simp; omega)
    | succ i =>
      rw [Nat.pow_succ', ← Nat.div_div_eq_div_mul, Nat.add_mul_div_left _ _ (by decide), Nat.div_eq_of_lt b.isLt, Nat.zero_add,
        List.getD_cons_succ]
      exact ih (Nat.lt_of_succ_lt_succ h)
theorem natBytes_eq_map (n v : Nat) : natBytes n v = (List.range n).map fun i => BitVec.ofNat 8 (v / 256 ^ i) := by
  induction n generalizing v with
  | zero => rfl
  | succ n ih =>
    rw [natBytes, ih, List.range_succ_eq_map, List.map_cons, List.map_map, Nat.pow_zero, Nat.div_one]
    congr 1
    refine List.map_congr_left fun i _ => ?_
    rw [Function.comp_apply, Nat.pow_succ', Nat.div_div_eq_div_mul]
theorem Memory.byte_of_read {m : Memory} (h : m.wf = true) (a : Nat) {n i : Nat} (hi : i < n) :
    BitVec.ofNat 8 (m.read a n / 256 ^ i) = m.byte (a + i) := by
  induction n with
  | zero => cases hi
  | succ n ih =>
    rw [Memory.read_succ h, Nat.pow_mul]
    rcases Nat.lt_succ_iff_lt_or_eq.1 hi with hi | rfl
    · rw [← ih hi]
      obtain ⟨k, rfl⟩ := Nat.exists_eq_add_of_lt hi
      refine BitVec.eq_of_toNat_eq ?_
      have e : (m.byte (a + (i + k + 1))).toNat * (2 ^ 8) ^ (i + k + 1) =
          256 ^ i * (256 * (256 ^ k * (m.byte (a + (i + k + 1))).toNat)) := by ring
      rw [e, Nat.add_mul_div_left _ _ (by positivity), BitVec.toNat_ofNat, BitVec.toNat_ofNat, Nat.add_mul_mod_self_left]
    · have hl := Memory.read_lt h a i
      rw [Nat.pow_mul] at hl
      rw [Nat.add_mul_div_right _ _ (by positivity), Nat.div_eq_of_lt hl, Nat.zero_add, BitVec.ofNat_toNat, BitVec.setWidth_eq]
theorem Memory.natBytes_read {m : Memory} (h : m.wf = true) (a n : Nat) :
    natBytes n (m.read a n) = (List.range n).map fun i => m.byte (a + i) := by
  rw [natBytes_eq_map]
  exact List.map_congr_left fun i hi => Memory.byte_of_read h a (List.mem_range.1 hi)

/-! ## Ports of the host -/

theorem execHostWrite_down {port addr : Nat} {bytes : List Byte} (rod : Bool)
    (h : s.svc.ports.getLsbD port = false ∨ nearSize < addr + bytes.length) : exec (.hostWrite port rod addr bytes) s = .next s := by
  refine congrArg Host.Outcome.next (if_pos ?_)
  rcases h with h | h <;> simp [h]
theorem execHostWrite_up {port addr : Nat} {bytes : List Byte} (rod : Bool) (hp : s.svc.ports.getLsbD port = true)
    (ha : addr + bytes.length ≤ nearSize) :
    exec (.hostWrite port rod addr bytes) s = .next { s with mem := s.mem.write addr bytes.length (bytesNat bytes) } :=
  congrArg Host.Outcome.next (if_neg (by simp [hp, ha]))
theorem execHostRead_down {port addr n : Nat} (h : s.svc.ports.getLsbD port = false ∨ nearSize < addr + n) :
    exec (.hostRead port addr n) s = .next s := by
  refine congrArg Host.Outcome.next (if_pos ?_)
  rcases h with h | h <;> simp [h]
theorem execHostRead_up {port addr n : Nat} (hp : s.svc.ports.getLsbD port = true) (ha : addr + n ≤ nearSize) (h : s.Inv) :
    exec (.hostRead port addr n) s = .next { s with svc := { s.svc with
      hostOut := (port, addr, (List.range n).map fun i => s.mem.byte (addr + i)) :: s.svc.hostOut } } := by
  rw [← Memory.natBytes_read h]
  exact congrArg Host.Outcome.next (if_neg (by simp [hp, ha]))
theorem execSessionSetup_down {port : Nat} (a b : Bool) (h : s.svc.ports.getLsbD port = false) :
    exec (.sessionSetup port a b) s = .next s := congrArg Host.Outcome.next (if_neg (by simp [h]))
theorem execSessionSetup_up {port : Nat} (a b : Bool) (h : s.svc.ports.getLsbD port = true) :
    exec (.sessionSetup port a b) s = .next { s with svc := { s.svc with sessions := aset s.svc.sessions port (!a && b) } } :=
  congrArg Host.Outcome.next (if_pos h)
theorem execOutboundPacketToken_early {port : Nat}
    (h : s.svc.ports.getLsbD port = false ∨ s.cyc < aget 0 s.svc.tokAt port + s.mhz / 16) : exec (.outboundPacketToken port) s = .next s := by
  refine congrArg Host.Outcome.next (if_pos ?_)
  rcases h with h | h <;> simp [h]
theorem execOutboundPacketToken_due {port : Nat} (hp : s.svc.ports.getLsbD port = true)
    (ht : aget 0 s.svc.tokAt port + s.mhz / 16 ≤ s.cyc) :
    exec (.outboundPacketToken port) s = .next
      (match s.svc.hostWait.find? fun x => x.1 == port with
       | some x => { s with svc := { s.svc with tokAt := aset s.svc.tokAt port s.cyc, hostOut := x :: s.svc.hostOut,
                                                hostWait := s.svc.hostWait.erase x } }
       | none => { s with svc := { s.svc with tokAt := aset s.svc.tokAt port s.cyc, tokens := aset s.svc.tokens port 1 } }) :=
  congrArg Host.Outcome.next ((if_neg (by simp [hp, ht])).trans rfl)
/-- The oldest packet of a port leaves the queue and no other does. -/
theorem oldest_of_port {l r : List (Nat × Nat × List Byte)} {x : Nat × Nat × List Byte} {port : Nat} (hx : x.1 = port)
    (hl : ∀ y ∈ l, y.1 ≠ port) :
    (l ++ x :: r).find? (fun y => y.1 == port) = some x ∧ (l ++ x :: r).erase x = l ++ r := by
  have hn : x ∉ l := fun h => hl x h hx
  have hf : l.find? (fun y => y.1 == port) = none := List.find?_eq_none.2 fun y hy => by simpa using hl y hy
  exact ⟨by simp [List.find?_append, hf, hx], by rw [List.erase_append_right _ hn, List.erase_cons_head]⟩
theorem ports_all (q : Nat) {v : Service} (h : v.ports = 0xFF) : v.portOf q = q % 8 := by
  have hl : (List.range 8).filter (fun p => (0xFF : BitVec 8).getLsbD p) = List.range 8 := by decide
  have hq : q % 8 < (List.range 8).length := by simp; omega
  unfold Service.portOf
  simp only [h, hl, List.length_range]
  rw [List.getD_eq_getElem _ _ hq, List.getElem_range]
theorem ports_some (q : Nat) {v : Service} (h : v.ports ≠ 0) : v.ports.getLsbD (v.portOf q) = true := by
  unfold Service.portOf
  extract_lets l
  have hne : l ≠ [] := by
    intro hl
    refine h (BitVec.eq_of_getLsbD_eq fun i hi => ?_)
    have := (List.filter_eq_nil_iff.1 hl) i (List.mem_range.2 hi)
    simpa using this
  have hq : q % l.length < l.length := Nat.mod_lt _ (List.length_pos_iff.2 hne)
  rw [List.getD_eq_getElem _ _ hq]
  exact (List.mem_filter.1 (List.getElem_mem hq)).2

/-! ## Doorbells and completion records -/

theorem State.writeUnit_svc (key u v bm : Nat) : (s.writeUnit key u v bm).svc = s.svc := by
  unfold State.writeUnit
  split
  · rfl
  · split <;> rfl
theorem State.nearWrite_svc (part a n v : Nat) : (s.nearWrite part a n v).svc = s.svc := by
  unfold State.nearWrite
  refine foldl_leaves State.svc _ (fun s i => ?_) s
  dsimp only
  split
  · exact State.writeUnit_svc ..
  · rfl
  · rfl
/-- Between two states a packet has left by a port with the token that the port keeps, or waits for the next. -/
def Sent (v w : Service) (port addr : Nat) (b : List Byte) : Prop :=
  if aget 0 v.tokens port = 0 then w.hostWait = v.hostWait ++ [(port, addr, b)]
  else w.hostOut = (port, addr, b) :: v.hostOut ∧ aget 0 w.tokens port = 0
theorem sent_sendPacket (port addr : Nat) (b : List Byte) : Sent s.svc (s.sendPacket port addr b).svc port addr b := by
  unfold Sent State.sendPacket
  dsimp only
  split
  · rfl
  · exact ⟨rfl, aget_aset_self ..⟩
/-- What the record `r` says at the present place of the completion ring. -/
def CmdQ.recordAt (c : CmdQ) (r : BitVec 256) : Nat := r.toNat + c.cpi.toNat / c.count % 2 * 2 ^ 128
theorem State.putRecord_queue (q : Nat) (r : BitVec 256) : (s.putRecord q r).queue q = { s.queue q with cpi := (s.queue q).cpi + 1 } :=
  State.queue_setQueue ..
theorem State.putRecord_sent (q : Nat) (r : BitVec 256) :
    Sent s.svc (s.putRecord q r).svc (s.svc.portOf q) ((s.queue q).cbase + 32 * ((s.queue q).cpi.toNat % (s.queue q).count))
      (natBytes 32 ((s.queue q).recordAt r)) := by
  unfold State.putRecord
  extract_lets c n v a t
  have ht : t.svc = s.svc := State.nearWrite_svc ..
  have h := sent_sendPacket (s := t) (t.svc.portOf q) a (natBytes 32 v)
  rw [ht] at h
  rw [ht]
  exact h
theorem CmdQ.full_eq_false {c : CmdQ} (h : (c.cpi - c.cci).toNat < c.count) : c.full = false := decide_eq_false (Nat.not_le.2 h)
theorem State.complete_putRecord {q : Nat} (r : BitVec 256) (he : (s.queue q).store = [])
    (hc : ((s.queue q).cpi - (s.queue q).cci).toNat < (s.queue q).count) : s.complete q r = s.putRecord q r :=
  if_pos (by simp [he, CmdQ.full_eq_false hc])
/-- A command event leaves the queue but for its event's number and mark, and every packet of the host. -/
theorem State.cmdEvent_queue (q : Nat) : ∃ p e, (s.cmdEvent q).queue q = { s.queue q with posted := p, evSeq := e } := by
  unfold State.cmdEvent
  extract_lets c e t
  split
  · exact ⟨c.posted, c.evSeq, rfl⟩
  · refine ⟨s.packetReady q, c.evSeq + 1, ?_⟩
    have ha : (t.svc.addCmd e).queues = t.svc.queues := by
      unfold Service.addCmd
      split <;> rfl
    exact (congrArg (fun l => aget {} l q) ha).trans (aget_aset_self ..)
theorem State.cmdEvent_sent {v : Service} {q port addr : Nat} {b : List Byte} (h : Sent v s.svc port addr b) :
    Sent v (s.cmdEvent q).svc port addr b := by
  unfold State.cmdEvent
  extract_lets c e t
  split
  · exact h
  · unfold Service.addCmd
    split <;> exact h
theorem execCommandDoorbell_in {q : Nat} {x : BitVec 32} (ho : (s.queue q).opened = true) (he : (s.queue q).store = [])
    (hx : (x - (s.queue q).ci).toNat ≤ (s.queue q).count) :
    exec (.commandDoorbell q x) s = .next ((s.setQueue q { s.queue q with pi := x }).cmdEvent q) := by
  refine congrArg Host.Outcome.next ?_
  rw [if_neg (by simp [ho]), if_neg (by simp [he])]
  exact if_neg (Nat.not_lt.2 hx)
theorem execCommandDoorbell_over {q : Nat} {x : BitVec 32} (ho : (s.queue q).opened = true) (he : (s.queue q).store = [])
    (hx : (s.queue q).count < (x - (s.queue q).ci).toNat) :
    exec (.commandDoorbell q x) s = .next (s.complete q (completion 0 3 0 q 0 0)) := by
  refine congrArg Host.Outcome.next ?_
  rw [if_neg (by simp [ho]), if_neg (by simp [he])]
  exact if_pos hx
theorem execCommandDoorbell_held {q : Nat} (x : BitVec 32) (ho : (s.queue q).opened = true) (he : (s.queue q).store ≠ []) :
    exec (.commandDoorbell q x) s = .next (s.setQueue q { s.queue q with heldPi := some x }) := by
  refine congrArg Host.Outcome.next ?_
  rw [if_neg (by simp [ho]), if_pos (by simpa using he)]
theorem execCompletionDoorbell_none {q : Nat} {x : BitVec 32} (ho : (s.queue q).opened = true) (he : (s.queue q).store = [])
    (hx : ((s.queue q).cpi - x).toNat ≤ (s.queue q).count) :
    exec (.completionDoorbell q x) s = .next (s.setQueue q { s.queue q with cci := x }) := by
  refine congrArg Host.Outcome.next ?_
  have hl : (s.queue q).store.length = 0 := by rw [he, List.length_nil]
  have hn : (s.queue q).store.isEmpty = true := by rw [he, List.isEmpty_nil]
  rw [if_neg (by simp only [ho, decide_eq_false (Nat.not_lt.2 hx)]; decide), hl, hn]
  rfl
/-- One waiting record goes into the ring when the host has read so far that there is room. -/
theorem State.refill_one {q : Nat} {r : BitVec 256} (he : (s.queue q).store = [r])
    (hx : ((s.queue q).cpi - (s.queue q).cci).toNat < (s.queue q).count) :
    s.refill q 1 = (s.setQueue q { s.queue q with store := [] }).putRecord q r := by
  unfold State.refill
  extract_lets c
  have hc : c.store = [r] := he
  simp only [hc]
  exact if_neg (by simp [c, CmdQ.full_eq_false hx])
theorem State.passCI_unhandled {q : Nat} (h : (s.queue q).handled = none) : s.passCI q = s := by
  unfold State.passCI
  extract_lets c got
  have hc : c.handled = none := h
  rw [hc]
theorem aset_aset_self {α : Type} (l : List (Nat × α)) (n : Nat) (v w : α) : aset (aset l n v) n w = aset l n w := by
  induction l with
  | nil => simp [aset]
  | cons p l ih =>
    simp only [aset]
    split
    · simp [aset]
    · next hlt =>
      split
      · simp [aset]
      · next hne => simp [aset, hlt, hne, ih]
theorem State.setQueue_setQueue (q : Nat) (c d : CmdQ) : (s.setQueue q c).setQueue q d = s.setQueue q d := by
  simp [State.setQueue, aset_aset_self]
/-- The state after the only waiting record has gone into the ring. -/
def State.readOn (s : State) (q : Nat) (x : BitVec 32) (r : BitVec 256) : State :=
  (s.setQueue q { s.queue q with cci := x, store := [] }).putRecord q r
theorem State.readOn_queue (q : Nat) (x : BitVec 32) (r : BitVec 256) :
    (s.readOn q x r).queue q = { s.queue q with cci := x, store := [], cpi := (s.queue q).cpi + 1 } := by
  rw [State.readOn, State.putRecord_queue, State.queue_setQueue]
theorem State.readOn_sent (q : Nat) (x : BitVec 32) (r : BitVec 256) :
    Sent s.svc (s.readOn q x r).svc (s.svc.portOf q) ((s.queue q).cbase + 32 * ((s.queue q).cpi.toNat % (s.queue q).count))
      (natBytes 32 ((s.queue q).recordAt r)) := by
  have h := State.putRecord_sent (s := s.setQueue q { s.queue q with cci := x, store := [] }) q r
  rw [State.queue_setQueue] at h
  exact h
theorem execCompletionDoorbell_one {q : Nat} {x : BitVec 32} {r : BitVec 256} (ho : (s.queue q).opened = true)
    (he : (s.queue q).store = [r]) (hp : (s.queue q).heldPi = none) (hh : (s.queue q).handled = none)
    (hx : ((s.queue q).cpi - x).toNat < (s.queue q).count) :
    exec (.completionDoorbell q x) s = .next ((s.readOn q x r).cmdEvent q) := by
  refine congrArg Host.Outcome.next ?_
  have hq := State.readOn_queue (s := s) q x r
  have hr : (s.setQueue q { s.queue q with cci := x }).refill q 1 = s.readOn q x r := by
    rw [State.refill_one (r := r) (by rw [State.queue_setQueue, he]) (by rw [State.queue_setQueue]; exact hx), State.queue_setQueue,
      State.setQueue_setQueue, State.readOn]
  have hl : (s.queue q).store.length = 1 := by rw [he, List.length_singleton]
  have hn : (s.queue q).store.isEmpty = false := by rw [he, List.isEmpty_cons]
  have hs : ((s.readOn q x r).queue q).store.isEmpty = true := by rw [hq, List.isEmpty_nil]
  have hc : (s.readOn q x r).passCI q = s.readOn q x r := State.passCI_unhandled (by rw [hq]; exact hh)
  have hh' : ((s.readOn q x r).queue q).heldPi = none := by rw [hq]; exact hp
  have hi : ((s.readOn q x r).queue q).ci = (s.queue q).ci := by rw [hq]
  rw [if_neg (by simp only [ho, decide_eq_false (Nat.not_lt.2 hx.le)]; decide)]
  simp only [hl, hr, hn, hs, hc, hh', hi, Bool.not_true, Bool.or_self, Bool.false_eq_true, if_false, if_true]

theorem byte_hostWrite (m : Memory) (addr : Nat) (bytes : List Byte) {i : Nat} (hi : i < bytes.length) :
    (m.write addr bytes.length (bytesNat bytes)).byte (addr + i) = bytes.getD i 0 := by
  rw [Memory.byte_write, if_pos ⟨by omega, by omega⟩, Nat.add_sub_cancel_left, bytesNat_byte bytes hi]
theorem byte_hostWrite_other (m : Memory) {addr a : Nat} (bytes : List Byte) (ha : a < addr ∨ addr + bytes.length ≤ a) :
    (m.write addr bytes.length (bytesNat bytes)).byte a = m.byte a := by
  rw [Memory.byte_write, if_neg (by omega)]

/-- Settles O49, the ports, the doorbells and what does nothing by the equations of each. -/
theorem hostPortsAndDoorbells : Obligations.HostPortsAndDoorbells := by
  unfold Obligations.HostPortsAndDoorbells
  refine ⟨fun port addr n rod bytes s hp => ⟨fun ha => ?_, fun h ha => execHostRead_up hp ha h, fun a b => ?_,
      fun ht => execOutboundPacketToken_early (.inr ht), fun ht => ?_⟩, fun q x s => ?_, fun port addr n a b rod bytes s => ?_⟩
  · exact ⟨_, execHostWrite_up rod hp ha, rfl, fun i hi => byte_hostWrite _ _ _ hi, fun a ha => byte_hostWrite_other _ _ ha⟩
  · exact ⟨_, execSessionSetup_up a b hp, rfl, fun p => aget_aset ..⟩
  · refine ⟨_, execOutboundPacketToken_due hp ht, fun p => ?_, fun l x r hw hx hl => ?_, fun hw => ?_⟩
    · split <;> exact aget_aset ..
    · obtain ⟨hf, he⟩ := oldest_of_port (r := r) hx hl
      simp only [hw, hf, he]
    · have hf : s.svc.hostWait.find? (fun y => y.1 == port) = none := List.find?_eq_none.2 fun y hy => by simpa using hw y hy
      rw [hf]
      exact ⟨rfl, fun p => aget_aset ..⟩
  · refine ⟨fun h => ports_all q h, fun h => ports_some q h, fun ho => ⟨fun he hx => ?_, fun he hx hc => ?_, fun he => ?_,
      fun he _ _ hx => ?_, fun r he hh hn hx => ?_⟩⟩
    · obtain ⟨p, e, hq⟩ := State.cmdEvent_queue (s := s.setQueue q { s.queue q with pi := x }) q
      rw [State.queue_setQueue] at hq
      exact ⟨_, execCommandDoorbell_in ho he hx, by rw [hq], by rw [hq], by simp⟩
    · refine ⟨_, execCommandDoorbell_over ho he hx, ?_, ?_⟩
      · rw [State.complete_putRecord _ he hc, State.putRecord_queue]
      · rw [State.complete_putRecord _ he hc]
        exact State.putRecord_sent ..
    · exact ⟨_, execCommandDoorbell_held x ho he, rfl, State.queue_setQueue ..⟩
    · exact ⟨_, execCompletionDoorbell_none ho he hx, by rw [State.queue_setQueue], by rw [State.queue_setQueue], rfl⟩
    · obtain ⟨p, e, hq⟩ := State.cmdEvent_queue (s := s.readOn q x r) q
      rw [State.readOn_queue] at hq
      exact ⟨_, execCompletionDoorbell_one ho he hh hn hx, by rw [hq], by rw [hq], by rw [hq],
        State.cmdEvent_sent (State.readOn_sent ..)⟩
  · exact ⟨execHostWrite_down rod, execHostRead_down, fun h => ⟨execSessionSetup_down a b h, execOutboundPacketToken_early (.inl h)⟩⟩
end Sys2Proof.Machine
end

section
/-! Sensors, and what a cold reset and a power loss leave (R312, R317, R381, R388 to R391). -/

namespace Sys2Proof.Machine

variable {s : State}

/-! ## Pulses of a die's rows -/

/-- Writes CLK.PAT.PMAXN of one row. -/
def State.setRowPulses (n : BitVec 4) (s : State) (r : Nat) : State :=
  if (s.row r).pmaxn = n then s else s.setRow r { s.row r with pmaxn := n, fitted := false }
theorem State.setPulses_eq (die : Nat) :
    s.setPulses die = (rowsOf die).foldl (State.setRowPulses (BitVec.ofNat 4 ((s.die die).pulses s.svc.slow))) s := rfl
theorem State.setRowPulses_self (n : BitVec 4) (r : Nat) : ((s.setRowPulses n r).row r).pmaxn = n := by
  unfold State.setRowPulses
  split
  · assumption
  · rw [State.row_setRow]
theorem State.setRowPulses_keeps {n : BitVec 4} {r : Nat} (q : Nat) (h : (s.row r).pmaxn = n) : ((s.setRowPulses n q).row r).pmaxn = n := by
  by_cases hq : r = q
  · rw [hq, State.setRowPulses_self]
  · unfold State.setRowPulses
    split
    · exact h
    · rw [State.row_setRow_ne _ _ hq, h]
theorem State.foldl_setRowPulses_keeps {n : BitVec 4} {r : Nat} (l : List Nat) (h : (s.row r).pmaxn = n) :
    ((l.foldl (State.setRowPulses n) s).row r).pmaxn = n := by
  induction l generalizing s with
  | nil => exact h
  | cons q l ih => exact ih (State.setRowPulses_keeps q h)
theorem State.foldl_setRowPulses {n : BitVec 4} {r : Nat} {l : List Nat} (hr : r ∈ l) :
    ((l.foldl (State.setRowPulses n) s).row r).pmaxn = n := by
  induction l generalizing s with
  | nil => exact absurd hr List.not_mem_nil
  | cons q l ih =>
    rcases List.mem_cons.1 hr with rfl | hr
    · exact State.foldl_setRowPulses_keeps l (State.setRowPulses_self n r)
    · exact ih hr
theorem State.setPulses_pmaxn (die : Nat) {r : Nat} (hr : r < 4) :
    ((s.setPulses die).row (die * 4 + r)).pmaxn = BitVec.ofNat 4 ((s.die die).pulses s.svc.slow) := by
  rw [State.setPulses_eq]
  exact State.foldl_setRowPulses (List.mem_map.2 ⟨r, List.mem_range.2 hr, rfl⟩)
theorem State.setPulses_rest (die : Nat) : (s.setPulses die).dies = s.dies ∧ (s.setPulses die).ctxs = s.ctxs ∧
    (s.setPulses die).svc = s.svc := by
  have h {α : Type} (p : State → α) (hp : ∀ (s : State) n x, p (s.setRow n x) = p s) : p (s.setPulses die) = p s := by
    rw [State.setPulses_eq]
    refine foldl_leaves p _ (fun s r => ?_) s
    unfold State.setRowPulses
    split
    · rfl
    · exact hp ..
  exact ⟨h _ fun _ _ _ => rfl, h _ fun _ _ _ => rfl, h _ fun _ _ _ => rfl⟩
theorem pmax_pos (slow : Bool) (x : Nat) : 1 ≤ pmax slow x := by
  unfold pmax
  refine List.foldlRecOn (motive := fun m => 1 ≤ m) _ _ (Nat.le_refl 1) fun m hm i _ => ?_
  split
  · omega
  · exact hm
/-- A hot die permits at most four pulses, and always one. -/
theorem Die.pulses_hot {d : Die} (h : d.hot = true) (slow : Bool) :
    1 ≤ BitVec.ofNat 4 (d.pulses slow) ∧ BitVec.ofNat 4 (d.pulses slow) ≤ 4 := by
  have hp : 1 ≤ d.pulses slow ∧ d.pulses slow ≤ 4 := by
    unfold Die.pulses
    rw [if_pos h]
    exact ⟨Nat.le_min.2 ⟨pmax_pos .., by decide⟩, Nat.min_le_right ..⟩
  rw [BitVec.le_def, BitVec.le_def, BitVec.toNat_ofNat, Nat.mod_eq_of_lt (by omega)]
  exact hp

/-! ## A sensor's reading -/

theorem State.hwEvent_rest (kind src arg : Nat) :
    (s.hwEvent kind src arg).dies = s.dies ∧ (s.hwEvent kind src arg).ctxs = s.ctxs ∧ (s.hwEvent kind src arg).rows = s.rows := by
  unfold State.hwEvent
  extract_lets h
  split <;> exact ⟨rfl, rfl, rfl⟩
/-- A raised event waits, whether it is new or the source's earlier one. -/
theorem State.hwEvent_waits (kind src arg : Nat) (hk : eventHigh kind src arg < 2 ^ 32) :
    ∃ e ∈ (s.hwEvent kind src arg).svc.events, e.toNat / 2 ^ 32 = eventHigh kind src arg := by
  unfold State.hwEvent
  extract_lets h
  split
  · next he =>
    obtain ⟨e, hm, hp⟩ := List.any_eq_true.1 he
    exact ⟨e, hm, by simpa using (Bool.and_eq_true_iff.1 hp).1⟩
  · refine ⟨_, List.mem_append_right _ List.mem_cons_self, ?_⟩
    have hs := s.svc.hwSeq.isLt
    rw [BitVec.toNat_ofNat]
    omega
/-- A thermal event names its die and its sensor. -/
theorem thermalEvent_fields {e : Word} {die n : Nat} (hd : die < 4) (hn : n < 16) (he : e.toNat / 2 ^ 32 = eventHigh 4 (die * 64) n) :
    e.toNat / 2 ^ 56 = 4 ∧ e.toNat / 2 ^ 48 % 256 = die * 64 % 256 ∧ e.toNat / 2 ^ 32 % 2 ^ 16 = n := by
  unfold eventHigh at he
  omega
/-- The reading, its maximum, its age and whether the sensor is armed. -/
def Die.sensor (d : Die) (n : Nat) : BitVec 16 × BitVec 16 × BitVec 16 × Bool := aget (0, 0, 0, true) d.sens n
/-- A reading of an armed sensor at or above TALERT. -/
def Die.alerts (d : Die) (n : Nat) (temp : BitVec 16) : Bool := decide (d.talert ≤ temp) && (d.sensor n).2.2.2
/-- The die once a sensor has taken a reading. -/
def Die.sampled (d : Die) (n : Nat) (temp : BitVec 16) : Die :=
  { d with sens := aset d.sens n (temp, if (d.sensor n).2.1 < temp then temp else (d.sensor n).2.1, 0,
      if d.alerts n temp then false else (d.sensor n).2.2.2 || decide (temp.toNat + 64 < d.talert.toNat)) }
/-- The state once the reading stands and the rows have the pulses that it permits. -/
def State.sampled (s : State) (die n : Nat) (temp : BitVec 16) : State :=
  if (s.die die).hot = ((s.die die).sampled n temp).hot then s.setDie die ((s.die die).sampled n temp)
  else (s.setDie die ((s.die die).sampled n temp)).setPulses die
theorem State.sample_eq (die n : Nat) (temp : BitVec 16) :
    s.sample die n temp = if (s.die die).alerts n temp then (s.sampled die n temp).hwEvent 4 (die * 64) n else s.sampled die n temp := rfl
theorem State.sampled_dies (die n : Nat) (temp : BitVec 16) :
    (s.sampled die n temp).dies = (s.setDie die ((s.die die).sampled n temp)).dies ∧ (s.sampled die n temp).ctxs = s.ctxs := by
  unfold State.sampled
  split
  · exact ⟨rfl, rfl⟩
  · obtain ⟨hd, hc, -⟩ := State.setPulses_rest (s := s.setDie die ((s.die die).sampled n temp)) die
    exact ⟨hd, hc⟩
theorem State.sample_rest (die n : Nat) (temp : BitVec 16) :
    (s.sample die n temp).dies = (s.setDie die ((s.die die).sampled n temp)).dies ∧ (s.sample die n temp).ctxs = s.ctxs ∧
      (s.sample die n temp).rows = (s.sampled die n temp).rows := by
  obtain ⟨hd, hc⟩ := State.sampled_dies (s := s) die n temp
  rw [State.sample_eq]
  split
  · obtain ⟨hd', hc', hr'⟩ := State.hwEvent_rest (s := s.sampled die n temp) 4 (die * 64) n
    exact ⟨hd'.trans hd, hc'.trans hc, hr'⟩
  · exact ⟨hd, hc, rfl⟩
theorem State.sample_die (die n : Nat) (temp : BitVec 16) : (s.sample die n temp).die die = (s.die die).sampled n temp := by
  obtain ⟨hd, -, -⟩ := State.sample_rest (s := s) die n temp
  exact (congrArg (fun l => aget {} l die) hd).trans (aget_aset_self ..)
theorem Die.sensor_sampled (d : Die) (n m : Nat) (temp : BitVec 16) (h : m ≠ n) : (d.sampled n temp).sensor m = d.sensor m :=
  aget_aset_ne _ _ _ h
theorem Die.sensor_sampled_self (d : Die) (n : Nat) (temp : BitVec 16) :
    (d.sampled n temp).sensor n = (temp, if (d.sensor n).2.1 < temp then temp else (d.sensor n).2.1, 0,
      if d.alerts n temp then false else (d.sensor n).2.2.2 || decide (temp.toNat + 64 < d.talert.toNat)) := aget_aset_self ..
theorem mem_aset {α : Type} (l : List (Nat × α)) (n : Nat) (v : α) : (n, v) ∈ aset l n v :=
  List.mem_of_find?_eq_some (find?_aset l n v)
theorem Die.hot_sampled {d : Die} (n : Nat) {temp : BitVec 16} (h : d.tcrit ≤ temp) : (d.sampled n temp).hot = true :=
  List.any_eq_true.2 ⟨_, mem_aset .., decide_eq_true h⟩
theorem State.sample_event {die n : Nat} {temp : BitVec 16} (hd : die < 4) (hn : n < 16) (ha : (s.die die).alerts n temp = true) :
    ∃ e ∈ (s.sample die n temp).svc.events, e.toNat / 2 ^ 56 = 4 ∧ e.toNat / 2 ^ 48 % 256 = die * 64 % 256 ∧ e.toNat / 2 ^ 32 % 2 ^ 16 = n := by
  rw [State.sample_eq, if_pos ha]
  obtain ⟨e, hm, he⟩ := State.hwEvent_waits (s := s.sampled die n temp) 4 (die * 64) n (by unfold eventHigh; omega)
  exact ⟨e, hm, thermalEvent_fields hd hn he⟩
/-- A die that has just become hot leaves each of its rows one to four pulses. -/
theorem State.sample_pulses {die n : Nat} {temp : BitVec 16} (hc : (s.die die).tcrit ≤ temp) (hh : (s.die die).hot = false) {r : Nat}
    (hr : r < 4) : 1 ≤ ((s.sample die n temp).row (die * 4 + r)).pmaxn ∧ ((s.sample die n temp).row (die * 4 + r)).pmaxn ≤ 4 := by
  obtain ⟨-, -, hrows⟩ := State.sample_rest (s := s) die n temp
  have hot := Die.hot_sampled n hc
  have hrow : (s.sample die n temp).row (die * 4 + r) = (s.sampled die n temp).row (die * 4 + r) := by
    rw [State.row, hrows, State.row]
  rw [hrow, State.sampled, if_neg (by rw [hh, hot]; decide), State.setPulses_pmaxn die hr, State.die_setDie]
  exact Die.pulses_hot hot _
/-- At or above TALERT a sensor is disarmed, whatever it was. -/
theorem Die.disarmed {d : Die} {n : Nat} {temp : BitVec 16} (h : d.talert ≤ temp) :
    (if d.alerts n temp then false else (d.sensor n).2.2.2 || decide (temp.toNat + 64 < d.talert.toNat)) = false := by
  have hb : ¬ temp.toNat + 64 < d.talert.toNat := by
    rw [BitVec.le_def] at h
    omega
  rw [Die.alerts, decide_eq_true h, decide_eq_false hb, Bool.true_and, Bool.or_false]
  cases (d.sensor n).2.2.2 <;> rfl
/-- More than 64 units below TALERT it is armed. -/
theorem Die.rearmed {d : Die} {n : Nat} {temp : BitVec 16} (h : temp.toNat + 64 < d.talert.toNat) :
    (if d.alerts n temp then false else (d.sensor n).2.2.2 || decide (temp.toNat + 64 < d.talert.toNat)) = true := by
  have hb : ¬ d.talert ≤ temp := by
    rw [BitVec.le_def]
    omega
  rw [Die.alerts, decide_eq_false hb, decide_eq_true h, Bool.false_and, Bool.or_true]
  rfl
/-- What a reading leaves, where `arm` is whether the sensor is then armed. -/
theorem sample_reads {i : Instr} {die n : Nat} {temp : BitVec 16} {arm : Bool} (hn : n < 16) (hi : exec i s = .next (s.sample die n temp))
    (ha : (if (s.die die).alerts n temp then false else ((s.die die).sensor n).2.2.2 || decide (temp.toNat + 64 < (s.die die).talert.toNat)) = arm)
    (hd : (s.die die).talert ≤ temp → die < 4) :
    ∃ t, exec i s = .next t ∧
      (t.die die).sensor n = (temp, if ((s.die die).sensor n).2.1 < temp then temp else ((s.die die).sensor n).2.1, 0, arm) ∧
      (∀ m, m ≠ n → (t.die die).sensor m = (s.die die).sensor m) ∧ t.ctxs = s.ctxs ∧ t.mem = s.mem ∧
      ((s.die die).talert ≤ temp → ((s.die die).sensor n).2.2.2 = true →
        ∃ e ∈ t.svc.events, e.toNat / 2 ^ 56 = 4 ∧ e.toNat / 2 ^ 48 % 256 = die * 64 % 256 ∧ e.toNat / 2 ^ 32 % 2 ^ 16 = n) := by
  obtain ⟨-, hc, -⟩ := State.sample_rest (s := s) die n temp
  refine ⟨_, hi, ?_, fun m hm => ?_, hc, State.sample_mem .., fun ht har => ?_⟩
  · rw [State.sample_die, Die.sensor_sampled_self, ha]
  · rw [State.sample_die, Die.sensor_sampled _ _ _ _ hm]
  · exact State.sample_event (hd ht) hn (by rw [Die.alerts, har, decide_eq_true ht]; rfl)

/-! ## Words of the bring-up steps -/

/-- A word with one field written. -/
def stepField (w : Word) (lo n v : Nat) : Word := (w &&& ~~~BitVec.ofNat 64 ((2 ^ n - 1) * 2 ^ lo)) ||| BitVec.ofNat 64 (v * 2 ^ lo)
theorem getLsbD_stepField (w : Word) {lo n v : Nat} (h : v < 2 ^ n) {i : Nat} (hi : i < 64) :
    (stepField w lo n v).getLsbD i = if lo ≤ i ∧ i < lo + n then v.testBit (i - lo) else w.getLsbD i := by
  have hm : ((2 ^ n - 1) * 2 ^ lo).testBit i = (decide (lo ≤ i) && decide (i < lo + n)) := by
    rw [Nat.testBit_mul_two_pow, Nat.testBit_two_pow_sub_one]
    by_cases hl : lo ≤ i
    · have h : i - lo < n ↔ i < lo + n := by omega
      simp only [h]
    · simp [hl]
  have hv : (v * 2 ^ lo).testBit i = (decide (lo ≤ i) && v.testBit (i - lo)) := Nat.testBit_mul_two_pow ..
  simp only [stepField, BitVec.getLsbD_or, BitVec.getLsbD_and, BitVec.getLsbD_not, BitVec.getLsbD_ofNat, hi, hm, hv, decide_true,
    Bool.true_and]
  by_cases hl : lo ≤ i
  · by_cases hu : i < lo + n
    · simp [hl, hu]
    · have hz : v.testBit (i - lo) = false := Nat.testBit_lt_two_pow (h.trans_le (Nat.pow_le_pow_right (by decide) (by omega)))
      simp [hl, hu, hz]
  · simp [hl]
theorem testBit_field (w : Word) (lo n i : Nat) : (w.toNat / 2 ^ lo % 2 ^ n).testBit i = (decide (i < n) && w.getLsbD (lo + i)) := by
  rw [Nat.testBit_mod_two_pow, Nat.testBit_div_two_pow, Nat.add_comm i lo]
  rfl
theorem field_stepField (w : Word) {lo n v : Nat} (h : v < 2 ^ n) (hl : lo + n ≤ 64) : (stepField w lo n v).toNat / 2 ^ lo % 2 ^ n = v := by
  refine Nat.eq_of_testBit_eq fun i => ?_
  rw [testBit_field]
  by_cases hi : i < n
  · rw [getLsbD_stepField w h (by omega), if_pos (by omega), Nat.add_sub_cancel_left, decide_eq_true hi, Bool.true_and]
  · rw [decide_eq_false hi, Bool.false_and, Nat.testBit_lt_two_pow (h.trans_le (Nat.pow_le_pow_right (by decide) (by omega)))]
theorem field_stepField_other (w : Word) {lo n v lo' n' : Nat} (h : v < 2 ^ n) (hl : lo' + n' ≤ 64) (hd : lo' + n' ≤ lo ∨ lo + n ≤ lo') :
    (stepField w lo n v).toNat / 2 ^ lo' % 2 ^ n' = w.toNat / 2 ^ lo' % 2 ^ n' := by
  refine Nat.eq_of_testBit_eq fun i => ?_
  rw [testBit_field, testBit_field]
  by_cases hi : i < n'
  · rw [getLsbD_stepField w h (by omega), if_neg (by omega)]
  · rw [decide_eq_false hi, Bool.false_and, Bool.false_and]
theorem setStepState_eq (w : Word) (n : Nat) : setStepState w n = stepField w 0 4 (n % 16) := by simp [setStepState, stepField]
theorem setStepCode_eq (w : Word) (c : BitVec 8) : setStepCode w c = stepField w 24 8 c.toNat := by
  have hc : c.setWidth 64 <<< 24 = BitVec.ofNat 64 (c.toNat * 2 ^ 24) := by
    refine BitVec.eq_of_toNat_eq ?_
    simp [Nat.shiftLeft_eq]
  rw [setStepCode, hc]
  rfl
theorem keepLast_word (w : Word) : keepLast w = (w &&& ~~~0xF0) ||| BitVec.ofNat 64 (w.toNat / 2 ^ 0 % 2 ^ 4 * 16) := by
  rw [keepLast, stepState, natBits, Nat.shiftRight_eq_div_pow]
theorem keepLast_eq (w : Word) : keepLast w = stepField w 4 4 (w.toNat / 2 ^ 0 % 2 ^ 4) := keepLast_word w
theorem moreTries_eq (w : Word) : moreTries w = stepField w 16 8 (Nat.min 255 (w.toNat / 2 ^ 16 % 2 ^ 8 + 1)) := by
  rw [moreTries, natBits, Nat.shiftRight_eq_div_pow]
  rfl
theorem getLsbD_stepField_other (w : Word) {lo n v i : Nat} (h : v < 2 ^ n) (hi : i < 64) (hd : i < lo ∨ lo + n ≤ i) :
    (stepField w lo n v).getLsbD i = w.getLsbD i := by rw [getLsbD_stepField w h hi, if_neg (by omega)]
/-- The bits of a step's word that say whether it is optional and whether it has an alternate path. -/
def stepKind (w : Word) : Bool × Bool := (stepOpt w, stepAlt w)
theorem stepKind_stepField (w : Word) {lo n v : Nat} (h : v < 2 ^ n) (hd : 10 ≤ lo ∨ lo + n ≤ 8) : stepKind
    (stepField w lo n v) = stepKind w := by
  unfold stepKind stepOpt stepAlt
  rw [getLsbD_stepField_other w h (by decide) (by omega), getLsbD_stepField_other w h (by decide) (by omega)]
theorem min_tries_lt (n : Nat) : Nat.min 255 n < 2 ^ 8 := Nat.lt_of_le_of_lt (Nat.min_le_left ..) (by decide)
theorem state_lt (n : Nat) : n % 16 < 2 ^ 4 := Nat.mod_lt _ (by decide)
/-- A step's word as its run begins. -/
def begunWord (w : Word) : Word := moreTries (setStepState w 1)
/-- A step's word once its run has failed. -/
def failedWord (w : Word) (code : BitVec 8) : Word := setStepCode (setStepState (begunWord w) 3) code
theorem begunWord_eq (w : Word) :
    begunWord w = stepField (stepField w 0 4 1) 16 8 (Nat.min 255 (w.toNat / 2 ^ 16 % 2 ^ 8 + 1)) := by
  rw [begunWord, moreTries_eq, setStepState_eq, field_stepField_other w (state_lt 1) (by decide) (by decide)]
theorem begunWord_fields (w : Word) : (begunWord w).toNat / 2 ^ 0 % 2 ^ 4 = 1 ∧
    (begunWord w).toNat / 2 ^ 4 % 2 ^ 4 = w.toNat / 2 ^ 4 % 2 ^ 4 ∧
    (begunWord w).toNat / 2 ^ 16 % 2 ^ 8 = Nat.min 255 (w.toNat / 2 ^ 16 % 2 ^ 8 + 1) := by
  have h1 : (1 : Nat) < 2 ^ 4 := by decide
  have ht := min_tries_lt (w.toNat / 2 ^ 16 % 2 ^ 8 + 1)
  rw [begunWord_eq]
  refine ⟨?_, ?_, field_stepField _ ht (by decide)⟩
  · rw [field_stepField_other _ ht (by decide) (by decide), field_stepField _ h1 (by decide)]
  · rw [field_stepField_other _ ht (by decide) (by decide), field_stepField_other _ h1 (by decide) (by decide)]
theorem failedWord_fields (w : Word) (code : BitVec 8) :
    (failedWord w code).toNat / 2 ^ 0 % 2 ^ 4 = 3 ∧ (failedWord w code).toNat / 2 ^ 24 % 2 ^ 8 = code.toNat := by
  rw [failedWord, setStepCode_eq, setStepState_eq]
  refine ⟨?_, field_stepField _ code.isLt (by decide)⟩
  rw [field_stepField_other _ code.isLt (by decide) (by decide), field_stepField _ (state_lt 3) (by decide)]
theorem stepKind_begunWord (w : Word) : stepKind (begunWord w) = stepKind w := by
  rw [begunWord_eq, stepKind_stepField _ (min_tries_lt _) (by decide), stepKind_stepField _ (state_lt 1) (by decide)]
theorem keepLast_fields (w : Word) : (keepLast w).toNat / 2 ^ 4 % 2 ^ 4 = w.toNat / 2 ^ 0 % 2 ^ 4 ∧
    (keepLast w).toNat / 2 ^ 16 % 2 ^ 8 = w.toNat / 2 ^ 16 % 2 ^ 8 ∧ stepKind (keepLast w) = stepKind w := by
  have h : w.toNat / 2 ^ 0 % 2 ^ 4 < 2 ^ 4 := Nat.mod_lt _ (by decide)
  rw [keepLast_eq]
  exact ⟨field_stepField _ h (by decide), field_stepField_other _ h (by decide) (by decide), stepKind_stepField _ h (by decide)⟩

/-! ## What a reset leaves -/

/-- Every context, partition and command at its reset value, and of the rest what a reset keeps. -/
def Kept (s t : State) (mem : Memory) : Prop :=
  t.mem = mem ∧ t.ctxs = [] ∧ t.parts = [] ∧ t.cmds = [] ∧ t.sched = s.sched ∧ t.cyc = 0 ∧ t.svc.svn = s.svc.svn ∧ t.svc.leaf = s.svc.leaf ∧
    (∀ d, (t.die d).diemax = (s.die d).diemax ∧ (t.die d).tasks = []) ∧
    ∀ c, (t.core c).sltmap.toNat % 256 = (s.core c).sltmap.toNat % 256 ∧ (t.core c).rings = []
theorem aget_map_rel {α : Type} {R : α → α → Prop} {f : α → α} {d : α} (hd : R d d) (h : ∀ x, R (f x) x) (l : List (Nat × α)) (n : Nat) :
    R (aget d (l.map fun c => (c.1, f c.2)) n) (aget d l n) := by
  induction l with
  | nil => exact hd
  | cons p l ih =>
    simp only [List.map_cons, aget]
    split
    · exact h p.2
    · exact ih
theorem aget_map_keys {α : Type} (d : α) (f : Nat → α) {l : List Nat} {n : Nat} (h : n ∈ l) : aget d (l.map fun k => (k, f k)) n = f n := by
  induction l with
  | nil => exact absurd h List.not_mem_nil
  | cons k l ih =>
    simp only [List.map_cons, aget]
    split
    · next hk => rw [hk]
    · next hk => exact ih ((List.mem_cons.1 h).resolve_left (Ne.symm hk))
theorem Core.cold_sltmap (c : Core) : c.cold.sltmap.toNat % 256 = c.sltmap.toNat % 256 := by
  have h (m : BitVec 4) : (m ++ c.sltmap.setWidth 8).toNat % 2 ^ 8 = c.sltmap.toNat % 2 ^ 8 := by
    rw [BitVec.toNat_append, Nat.or_mod_two_pow, Nat.shiftLeft_eq, Nat.mul_mod_left, Nat.zero_or, BitVec.toNat_setWidth, Nat.mod_mod]
  exact h _
theorem State.cold_kept (lost : Bool) (v : Service) (hs : v.svn = s.svc.svn) (hl : v.leaf = s.svc.leaf) :
    Kept s { s.cold lost with svc := v } (if lost then [] else s.mem) :=
  ⟨rfl, rfl, rfl, rfl, rfl, rfl, hs, hl,
    aget_map_rel (f := Die.cold) (R := fun a b => a.diemax = b.diemax ∧ a.tasks = []) ⟨rfl, rfl⟩ (fun _ => ⟨rfl, rfl⟩) s.dies,
    aget_map_rel (f := Core.cold) (R := fun a b => a.sltmap.toNat % 256 = b.sltmap.toNat % 256 ∧ a.rings = []) ⟨rfl, rfl⟩
      (fun c => ⟨c.cold_sltmap, rfl⟩) s.cores⟩

/-! ## Step 0 after a cold reset -/

theorem stepKind_plain {w : Word} : stepKind w = (false, false) ↔ stepOpt w = false ∧ stepAlt w = false := Prod.mk_inj
/-- Bring-up that ends as a step without options begins. -/
theorem State.bringUp_begins {flash : List (List Byte)} {fuel n : Nat} (h : stepKind (s.step' n) = (false, false)) :
    s.bringUp flash (fuel + 1) n [] = s.setStep n (begunWord (s.step' n)) := by
  obtain ⟨ho, ha⟩ := stepKind_plain.1 h
  unfold State.bringUp
  simp [ho, ha, begunWord]
theorem State.step'_setStep (n : Nat) (w : Word) : (s.setStep n w).step' n = w := aget_aset_self ..
theorem State.setStep_setStep (n : Nat) (w x : Word) : (s.setStep n w).setStep n x = s.setStep n x := by
  simp [State.setStep, aset_aset_self]
/-- The first step fails, and the boot with it. -/
theorem State.bringUp_fails {flash : List (List Byte)} {fuel : Nat} {code : BitVec 8} {runs : List StepRun}
    (h : stepKind (s.step' 0) = (false, false)) :
    s.bringUp flash (fuel + 1) 0 (⟨false, code⟩ :: runs) =
      { s.setStep 0 (failedWord (s.step' 0) code) with svc := { (s.setStep 0 (failedWord (s.step' 0) code)).svc with bst := 2 } } := by
  obtain ⟨ho, ha⟩ := stepKind_plain.1 h
  obtain ⟨hb, -⟩ := stepKind_plain.1 ((stepKind_begunWord _).trans h)
  rw [begunWord] at hb
  unfold State.bringUp
  simp [ho, ha, hb, State.step'_setStep, State.setStep_setStep, failedWord, begunWord]
/-- The state that a cold reset starts bring-up from. -/
def State.rebooted (s : State) : State :=
  { s.cold false with svc := { (s.cold false).svc with
      steps := (List.range 16).map fun n => (n, keepLast (s.step' n)),
      boots := if s.svc.boots = 255 then s.svc.boots else s.svc.boots + 1 } }
theorem execColdReset_eq (runs : List StepRun) (flash : List (List Byte)) :
    exec (.coldReset runs flash) s = .next (s.rebooted.bringUp flash 11 0 runs) := rfl
theorem State.rebooted_step {n : Nat} (h : n < 16) : s.rebooted.step' n = keepLast (s.step' n) :=
  aget_map_keys 0 (fun n => keepLast (s.step' n)) (List.mem_range.2 h)
theorem State.rebooted_boots : s.rebooted.svc.boots.toNat = Nat.min 255 (s.svc.boots.toNat + 1) := by
  have hb := s.svc.boots.isLt
  change (if s.svc.boots = 255 then s.svc.boots else s.svc.boots + 1).toNat = _
  split
  · next h => rw [h]; rfl
  · next h =>
    have hn : s.svc.boots.toNat ≠ 255 := fun e => h (BitVec.eq_of_toNat_eq e)
    change _ = min 255 (s.svc.boots.toNat + 1)
    rw [BitVec.toNat_add, show (1 : BitVec 8).toNat = 1 from rfl]
    omega

/-- What a cold reset leaves of the boot count and of the steps after the first. -/
theorem State.rebooted_began (x : Word) (b : BitVec 2) {t : State}
    (ht : t = { s.rebooted with svc := { s.rebooted.svc with steps := aset s.rebooted.svc.steps 0 x, bst := b } }) :
    Kept s t s.mem ∧ t.svc.boots.toNat = Nat.min 255 (s.svc.boots.toNat + 1) ∧ ∀ n, n < 16 → 0 < n →
      aget 0 t.svc.steps n = (s.step' n &&& ~~~0xF0) ||| BitVec.ofNat 64 ((s.step' n).toNat / 2 ^ 0 % 2 ^ 4 * 16) := by
  subst ht
  refine ⟨State.cold_kept false _ rfl rfl, State.rebooted_boots, fun n hn h0 => ?_⟩
  rw [← keepLast_word]
  exact (aget_aset_ne _ _ _ (by omega)).trans (State.rebooted_step hn)

/-- Settles O53: a reading by the thresholds that it passes, a reset by what the cold state keeps and by the fields of step 0's word. -/
theorem sensorsTelemetryResets : Obligations.SensorsTelemetryResets := by
  unfold Obligations.SensorsTelemetryResets
  refine ⟨fun die n temp pavg vavg s hn => ⟨fun ht hd => ?_, fun ht hd => ?_, fun ht => ?_, ?_⟩, fun flash code s => ?_⟩
  · exact sample_reads hn (congrArg Host.Outcome.next (if_pos (by simp [ht, hn]))) (Die.disarmed ht) fun _ => hd
  · refine ⟨_, congrArg Host.Outcome.next (if_pos (by simp [ht, hn])), ?_, State.sample_mem ..,
      fun hh r hr => State.sample_pulses ht hh hr⟩
    rw [State.sample_die]
    exact Die.hot_sampled n ht
  · refine sample_reads hn (congrArg Host.Outcome.next (if_pos (by simp [ht, hn]))) (Die.rearmed ht) fun hle => ?_
    rw [BitVec.le_def] at hle
    omega
  · exact ⟨_, rfl, rfl, State.die_modDie ..⟩
  · extract_lets w kept field began
    intro ho ha
    obtain ⟨hlast, htries, hkind⟩ := keepLast_fields (w 0)
    have h0 : s.rebooted.step' 0 = keepLast (w 0) := State.rebooted_step (by decide)
    have hk : stepKind (s.rebooted.step' 0) = (false, false) := by
      rw [h0, hkind]
      exact stepKind_plain.2 ⟨ho, ha⟩
    refine ⟨?_, ?_, ?_⟩
    · obtain ⟨hkept, hbegan⟩ := State.rebooted_began (s := s) (begunWord (keepLast (w 0))) 0 rfl
      obtain ⟨h1, h2, h3⟩ := begunWord_fields (keepLast (w 0))
      refine ⟨_, (execColdReset_eq ..).trans (congrArg Host.Outcome.next (State.bringUp_begins hk)), ?_⟩
      rw [h0]
      refine ⟨hkept, hbegan, rfl, ?_⟩
      simp only [State.setStep, aget_aset_self]
      exact ⟨h1, h2.trans hlast, h3.trans (by rw [htries])⟩
    · obtain ⟨hkept, hbegan⟩ := State.rebooted_began (s := s) (failedWord (keepLast (w 0)) code) 2 rfl
      obtain ⟨h1, h2⟩ := failedWord_fields (keepLast (w 0)) code
      refine ⟨_, (execColdReset_eq ..).trans (congrArg Host.Outcome.next (State.bringUp_fails hk)), ?_⟩
      rw [h0]
      refine ⟨hkept, hbegan, rfl, ?_⟩
      simp only [State.setStep, aget_aset_self]
      exact ⟨h1, h2⟩
    · exact ⟨_, rfl, State.cold_kept true _ rfl rfl, rfl, fun _ => rfl⟩
end Sys2Proof.Machine
end

section
/-! Scalar sums, products and extremes (R118). -/

namespace Sys2Proof.Machine

variable {s : State}

/-- An S operation with one result puts exactly that result in flight, under a true guard. -/
theorem alu_yields {i : Instr} {g : Guard} {lat : Nat} {sd : BitVec 6} {v : Word} {p : Word → Prop} (hg : s.guard g = true)
    (hi : exec i s = alu g lat sd v s) (hv : p v) : ∃ t v, exec i s = .next t ∧ s.Yields t lat sd v ∧ p v :=
  ⟨s.postS lat sd v, v, hi.trans (by rw [alu, if_pos hg]), s.postS_yields lat sd v, hv⟩

/-! ## The high half of a product -/

/-- The product of two words taken as signed numbers is exact in 128 bits. -/
theorem toInt_mul_signExtend (a b : Word) : (a.signExtend 128 * b.signExtend 128).toInt = a.toInt * b.toInt := by
  rw [BitVec.toInt_mul, BitVec.toInt_signExtend_of_le (by decide), BitVec.toInt_signExtend_of_le (by decide)]
  have hlt := BitVec.toInt_mul_toInt_le (x := a) (y := b)
  have hle := BitVec.le_toInt_mul_toInt (x := a) (y := b)
  exact Int.bmod_eq_of_le (by omega) (by omega)
/-- The high half of a 128-bit number is its quotient by 2^64, rounded down. -/
theorem toInt_highHalf (p : BitVec 128) : (p.extractLsb' 64 64).toInt = p.toInt / 2 ^ 64 := by
  have h := p.isLt
  simp only [BitVec.toInt_eq_toNat_cond, BitVec.extractLsb'_toNat, Nat.shiftRight_eq_div_pow]
  split <;> split <;> omega
/-- The high half of an unsigned product. -/
theorem toNat_highHalf_mul (a b : Word) :
    ((a.setWidth 128 * b.setWidth 128).extractLsb' 64 64).toNat = a.toNat * b.toNat / 2 ^ 64 := by
  have h : a.toNat * b.toNat < 2 ^ 64 * 2 ^ 64 := Nat.mul_lt_mul'' a.isLt b.isLt
  rw [BitVec.extractLsb'_toNat, BitVec.toNat_mul, BitVec.toNat_setWidth, BitVec.toNat_setWidth, Nat.shiftRight_eq_div_pow,
    Nat.mod_eq_of_lt (Nat.lt_of_lt_of_le a.isLt (by decide)), Nat.mod_eq_of_lt (Nat.lt_of_lt_of_le b.isLt (by decide))]
  omega

/-! ## Extremes -/

theorem toInt_min (a b : Word) : (if a.slt b then a else b).toInt = Min.min a.toInt b.toInt := by
  rw [BitVec.slt_eq_decide]
  split <;> simp_all; omega
theorem toInt_max (a b : Word) : (if a.slt b then b else a).toInt = Max.max a.toInt b.toInt := by
  rw [BitVec.slt_eq_decide]
  split <;> simp_all; omega
theorem toNat_min (a b : Word) : (if a.ult b then a else b).toNat = Min.min a.toNat b.toNat := by
  rw [BitVec.ult_eq_decide]
  split <;> simp_all; omega
theorem toNat_max (a b : Word) : (if a.ult b then b else a).toNat = Max.max a.toNat b.toNat := by
  rw [BitVec.ult_eq_decide]
  split <;> simp_all; omega

/-- Settles O1: each operation is `alu` of a bit-vector value, and that value is the integer arithmetic. -/
theorem scalarSumsProductsExtremes : Obligations.ScalarSumsProductsExtremes := by
  unfold Obligations.ScalarSumsProductsExtremes
  intro g sd sa sb s hg a b
  refine ⟨alu_yields hg rfl (BitVec.toNat_add a b), alu_yields hg rfl ?_, alu_yields hg rfl (BitVec.toNat_mul a b), alu_yields hg rfl ?_,
    alu_yields hg rfl (toNat_highHalf_mul a b), alu_yields hg rfl (toInt_min a b), alu_yields hg rfl (toInt_max a b),
    alu_yields hg rfl (toNat_min a b), alu_yields hg rfl (toNat_max a b)⟩
  · have ha := a.isLt
    have hb := b.isLt
    exact (congrArg Nat.cast (BitVec.toNat_sub a b)).trans (by omega)
  · rw [toInt_highHalf, toInt_mul_signExtend]
end Sys2Proof.Machine
end

section
/-! Steps and the schedule (log 3). -/

namespace Sys2Proof.Machine

variable {s : State}

theorem step_cons {m : Move} {rest : List Move} (h : s.sched = m :: rest) : step s = { s with sched := rest }.move m exec := by
  rw [step, h]
theorem step_nil (h : s.sched = []) : step s = s.cycle exec := by rw [step, h]
/-- The head of a slot's queue that is no removed load issues where it may. -/
theorem State.issueHead_cons {who : Nat} {sl : Slot} {e : Ent} {es : List Ent} {i : Instr} (run : Instr → State → Out)
    (hq : (s.ctx who).q sl = e :: es) (hg : e.ghost = false) (hd : decode sl.kind e.raw = .ok i) :
    s.issueHead who sl run = if s.mayIssue who sl e i then run i (s.issuing who sl e) else .next s := by
  simp only [State.issueHead, hq, hd, hg, Bool.false_eq_true, if_false]
/-- Outside a broadcast the next bundle is the one at the program counter. -/
theorem State.nextBundle_fetch {who : Nat} (h : ∀ i, (s.ctx who).inst = some i → i.bcast = false ∨ i.left = true) :
    s.nextBundle who = some (s.fetch who) := by
  unfold State.nextBundle
  cases hi : (s.ctx who).inst with
  | none => rfl
  | some i => rcases h i hi with h | h <;> simp [h]
theorem State.dispatchNext_fetched {who : Nat} {b : BitVec 512} (run : Instr → State → Out) (hs : (s.ctx who).split = none)
    (hb : s.nextBundle who = some (.ok b)) : s.dispatchNext who run = run (.bundleDispatch b) { s with cur := { who := who } } := by
  simp only [State.dispatchNext, hs, hb, Option.isSome_none, Bool.false_eq_true, if_false]

/-- Settles O58: a step is its schedule's first move, and each kind of move is one equation. -/
theorem stepRunsScheduled : Obligations.StepRunsScheduled := by
  unfold Obligations.StepRunsScheduled
  intro s rest u
  refine ⟨fun who sl e es i h hq hg hd => ?_, fun who b h hs hi hf => ?_, fun i h hk hb => ?_, fun h => step_cons h, step_nil⟩
  · have hstep : step s = if u.mayIssue who sl e i then exec i (u.issuing who sl e) else .next u :=
      (step_cons h).trans (State.issueHead_cons exec hq hg hd)
    exact ⟨fun hm => hstep.trans (if_pos hm), fun hm => hstep.trans (if_neg (by simp [hm]))⟩
  · exact (step_cons h).trans (State.dispatchNext_fetched exec hs ((State.nextBundle_fetch hi).trans (congrArg some hf)))
  · refine (step_cons h).trans (if_pos ?_)
    rw [hk]
    split
    · exact absurd rfl (hb _)
    · rfl
end Sys2Proof.Machine
end

section
/-! Stores (R32, R36, R192, R195): what each withholds. -/

namespace Sys2Proof.Machine

variable {s : State}

/-! ## The elements of an access -/

theorem mapOk_length {α β ε : Type} {f : α → Except ε β} : ∀ {l : List α} {r : List β}, mapOk f l = .ok r → r.length = l.length
  | [], r, h => by cases h; rfl
  | a :: l, r, h => by
    simp only [mapOk] at h
    split at h
    · cases h
    · split at h
      · cases h
      · next hl => cases h; simp [mapOk_length hl]
/-- Without a failing element, each has one place in the result. -/
theorem collect_length : ∀ {l : List (Except (Int × Option Nat) (Elem × Page))} {r : List (Elem × Page)},
    collect l = .ok r → r.length = l.length := by
  intro l r h
  have key : ∀ l : List (Except (Int × Option Nat) (Elem × Page)),
      (l.filterMap fun r => match r with | .error e => some e | .ok _ => none) = [] →
      (l.filterMap fun r => match r with | .ok e => some e | .error _ => none).length = l.length := by
    intro l
    induction l with
    | nil => simp
    | cons a l ih => cases a <;> simp_all
  unfold collect at h
  simp only at h
  split at h
  · next hb => cases h; exact key l hb
  · split at h <;> cases h
theorem State.memAccess_length {who n : Nat} {l : Lay} {w sp : Bool} {cs : List (List Int)} {a : Acc}
    (h : s.memAccess who n l w sp cs = .ok a) : a.elems.length = cs.length := by
  unfold State.memAccess at h
  simp only at h
  split at h
  · cases h
  · split at h
    · cases h
    · split at h
      · cases h
      · split at h
        · cases h
        · next hc =>
          split at h
          · cases h
          · cases h
            simp [collect_length hc, Lay.bits]
/-- A successful access has one element for each coordinate vector. -/
theorem State.access1_length {who n : Nat} {w sp : Bool} {cs : List (List Int)} {a : Acc} (h : s.access1 who n w sp cs = .ok a) :
    a.elems.length = cs.length := by
  unfold State.access1 at h
  simp only at h
  split at h
  · split at h
    · split at h
      · cases h
      · next hm => cases h; exact mapOk_length hm
    · exact State.memAccess_length h
  · split at h
    · cases h
    · split at h
      · cases h
      · split at h
        · cases h
        · next hm => cases h; exact mapOk_length hm
theorem State.access_length {who n : Nat} {w d : Bool} {cs : List (List Int)} {a : Acc} (h : s.access who n w d cs = .ok a) :
    a.elems.length = cs.length := by
  unfold State.access at h
  simp only at h
  split at h
  · cases h
  · next ha =>
    split at h
    · cases h; exact State.access1_length ha
    · split at h
      · cases h
      · cases h; exact (State.access1_length ha :)

/-! ## Withholding -/

/-- A further update of the context that has changed changes nothing else. -/
theorem State.Becomes.modCtx {t : State} {w : Nat} {c : Ctx} (h : s.Becomes t w c) (f : Ctx → Ctx) :
    s.Becomes (t.modCtx w f) w (f c) := by
  obtain ⟨⟨hrest, hothers⟩, rfl⟩ := h
  refine ⟨⟨?_, fun v hv => (State.ctx_modCtx_ne _ _ hv).trans (hothers v hv)⟩, State.ctx_modCtx ..⟩
  rw [hrest]
  rfl

/-- Entries that are withheld come into the buffer in order, or a 129th is a trap (R36). -/
theorem State.withhold_eq (l : List WEnt) : s.withhold l =
    if 128 < (l.foldl (fun h e => holdEntry e h) s.me.held).length then .error (.trap ⟨21, 0, 0⟩)
    else .ok (s.modMe fun c => { c with held := l.foldl (fun h e => holdEntry e h) s.me.held }) := by
  unfold State.withhold Ctx.hold'
  simp only
  split
  · next h => split at h <;> [cases h; (cases h; rw [if_neg (by assumption)]; rfl)]
  · next h => split at h <;> [rw [if_pos (by assumption)]; cases h]
theorem State.setFlags_becomes (f : BitVec 7) : s.Becomes (s.setFlags f) s.cur.who { s.me with ctl := s.me.ctl.flag f } :=
  s.becomes_modCtx s.cur.who fun c => { c with ctl := c.ctl.flag f }
@[simp] theorem State.me_setFlags (f : BitVec 7) : (s.setFlags f).me = { s.me with ctl := s.me.ctl.flag f } := s.me_modMe _
/-- The same for a store that has set flags. -/
theorem State.setFlags_withhold (f : BitVec 7) (l : List WEnt) : (s.setFlags f).withhold l =
    if 128 < (l.foldl (fun h e => holdEntry e h) s.me.held).length then .error (.trap ⟨21, 0, 0⟩)
    else .ok ((s.setFlags f).modMe fun c => { c with held := l.foldl (fun h e => holdEntry e h) s.me.held }) := by
  rw [State.withhold_eq, State.me_setFlags]
theorem State.setFlags_held_becomes (f : BitVec 7) (h : List WEnt) :
    s.Becomes ((s.setFlags f).modMe fun c => { c with held := h }) s.cur.who { s.me with held := h, ctl := s.me.ctl.flag f } :=
  (State.setFlags_becomes f).modCtx fun c => { c with held := h }
/-- Elements zipped with a value for each number are the elements by number. -/
theorem map_zip_range {α β γ : Type} (l : List α) (d : α) (f : Nat → β) (g : α × β → γ) :
    ((l.zip ((List.range l.length).map f)).map g) = (List.range l.length).map fun k => g (l.getD k d, f k) := by
  refine List.ext_getElem (by simp) fun k h1 h2 => ?_
  have hk : k < l.length := by simpa using h2
  simp [List.getElem?_eq_getElem hk]

/-- Element `k` of a store and the flags of its conversion. -/
def State.storeVal (s : State) (dec : Option (ETy × BitVec 3)) (x src : Nat) (a : Acc) (k : Nat) : Nat × BitVec 7 :=
  match dec with
  | none => (elemAt src x k, 0)
  | some (ty, rm) => (dFmt a.fmt).round s.cur.ent.nbv rm.toNat (s.rb k) ((etFmt ty).decode true (elemAt src x k))
/-- The state whose port has paid for a store's packet. -/
def State.paid (s : State) (port : Option Nat) : State := (port.map s.spendToken).getD s
@[simp] theorem State.paid_cur (port : Option Nat) : (s.paid port).cur = s.cur := by cases port <;> rfl
@[simp] theorem State.paid_me (port : Option Nat) : (s.paid port).me = s.me := by cases port <;> rfl

theorem State.store_of_access {m : MemArg} {dec : Option (ETy × BitVec 3)} {cs : List (List Int)} {x src : Nat} {a : Acc}
    (h : s.access s.cur.who m.le.toNat true false cs = .ok a) : s.store m dec cs x src =
      if dec.isSome && (s.lay s.cur.who m.le.toNat).isMem && a.geo != 0 then .error (.trap (tBounds m.le.toNat))
      else if (s.packetPort s.cur.who a.elems).any fun p => aget 0 s.svc.tokens p == 0 then .ok s.unissue
      else ((s.paid (s.packetPort s.cur.who a.elems)).setFlags
          ((List.range a.elems.length).foldl (fun f k => f ||| (s.storeVal dec x src a k).2) 0)).withhold
        ((List.range a.elems.length).map fun k => storeEnts (s.partOf s.cur.who) (memCls m (s.lay s.cur.who m.le.toNat))
          (a.elems.getD k ⟨0, 0, 0⟩) (s.storeVal dec x src a k).1).flatten := by
  unfold State.store
  simp only [h]
  rw [map_zip_range _ ⟨0, 0, 0⟩, List.foldl_map]
  cases s.packetPort s.cur.who a.elems <;> rfl

/-- What a store withholds, as `State.Stores` says it, from its values element by element. -/
theorem State.store_stores {i : Instr} {m : MemArg} {dec : Option (ETy × BitVec 3)} {cs : List (List Int)} {x src : Nat}
    {val : Acc → Nat → Nat} {fl : Acc → Nat → BitVec 7} (hi : exec i s = s.finish (s.store m dec cs x src))
    (hv : ∀ a k, k < a.elems.length → a.elems.length = cs.length → s.storeVal dec x src a k = (val a k, fl a k)) :
    s.Stores i m dec.isSome (s.access s.cur.who m.le.toNat true false cs) val fl := by
  unfold State.Stores
  simp only
  split
  · next h => rw [hi, State.store, h]; rfl
  · next h => rw [hi, State.store, h]; rfl
  · next a h =>
    rw [hi, State.store_of_access h]
    have hv := fun k hk => hv a k hk (State.access_length h)
    have hents : ((List.range a.elems.length).map fun k => storeEnts (s.partOf s.cur.who) (memCls m (s.lay s.cur.who m.le.toNat))
          (a.elems.getD k ⟨0, 0, 0⟩) (s.storeVal dec x src a k).1) = (List.range a.elems.length).map fun k =>
          storeEnts (s.partOf s.cur.who) (memCls m (s.lay s.cur.who m.le.toNat)) (a.elems.getD k ⟨0, 0, 0⟩) (val a k) :=
      List.map_congr_left fun k hk => by rw [hv k (List.mem_range.1 hk)]
    have hflags : (List.range a.elems.length).foldl (fun f k => f ||| (s.storeVal dec x src a k).2) (0 : BitVec 7) =
        (List.range a.elems.length).foldl (fun f k => f ||| fl a k) 0 :=
      List.foldl_ext _ _ _ fun f k hk => by rw [hv k (List.mem_range.1 hk)]
    rw [hents, hflags, State.setFlags_withhold, State.paid_me]
    split
    · rfl
    · split
      · rfl
      · split
        · rfl
        · have hb := (s.paid (s.packetPort s.cur.who a.elems)).setFlags_held_becomes
          simp only [State.paid_me, State.paid_cur] at hb
          exact ⟨_, rfl, hb _ _⟩
/-- The same for a store that converts from a decode type, or not. -/
theorem State.store_converts {i : Instr} {m : MemArg} {dc : Bool} {ty : ETy} {rm : BitVec 3} {cs : List (List Int)} {x src : Nat}
    {val : Acc → Nat → Nat × BitVec 7}
    (hi : exec i s = s.finish (s.store m (if dc then some (ty, rm) else none) cs x src))
    (hv : ∀ a k, val a k = if dc then (dFmt a.fmt).round s.cur.ent.nbv rm.toNat (s.rb k) ((etFmt ty).decode true (elemAt src x k))
      else (elemAt src x k, 0)) :
    s.Stores i m dc (s.access s.cur.who m.le.toNat true false cs) (fun a k => (val a k).1) (fun a k => (val a k).2) := by
  cases dc with
  | false => exact State.store_stores (dec := none) hi fun a k _ _ => (hv a k).symm
  | true => exact State.store_stores (dec := some (ty, rm)) hi fun a k _ _ => (hv a k).symm

/-! ## The four stores -/

theorem guarded_true {g : Guard} {t : State} {f : State → Except Stop State} (h : t.guard g = true) : guarded g t f = t.finish (f t) :=
  if_pos h
/-- An access that goes on with the element size that its page gives, or stops as the page does (R57). -/
def State.ofSize (s : State) (le : Nat) (w : Bool) (shape : Nat → List (List Int)) (f : BitVec 32 → Except Stop State) :
    Except Stop State :=
  match s.esize s.cur.who le w shape with
  | .error e => .error e
  | .ok d => f d
theorem State.sized_of {i : Instr} {le : Nat} {w : Bool} {shape : Nat → List (List Int)} {f : BitVec 32 → Except Stop State}
    {k : BitVec 32 → Prop} (hi : exec i s = s.finish (s.ofSize le w shape f)) (hk : ∀ d, exec i s = s.finish (f d) → k d) :
    s.Sized i le w shape k := by
  unfold State.Sized
  unfold State.ofSize at hi
  split
  · next h => rw [hi, h]; rfl
  · next h => rw [hi, h]; rfl
  · next h => rw [h] at hi; exact hk _ hi
/-- The element that packing elements of a register put in a place. -/
theorem elemAt_pack_getD (w src : Nat) (l : List Nat) (k : Nat) (h : k < l.length) :
    elemAt (packElems w (l.map fun t => elemAt src w t)) w k = elemAt src w (l.getD k 0) := by
  rw [elemAt_packElems _ _ _ (by simpa using h), List.getElem_map, List.getD_eq_getElem _ _ h]
  exact Nat.mod_mod ..
/-- Coordinates of the elements that a scatter's indices leave on (R195). -/
theorem State.gatherCoords_on (rg : BitVec 11) (m : MemArg) (n : Nat) : (s.gatherCoords rg m n).filterMap id =
    ((List.range n).filter fun k => elemAt (s.vreg .w rg) 16 k != 0xFFFF).map fun k =>
      addDim (s.memCoords m (s.lay s.cur.who m.le.toNat)) 0 (elemAt (s.vreg .w rg) 16 k : Int) := by
  rw [State.gatherCoords]
  generalize List.range n = l
  induction l with
  | nil => rfl
  | cons k l ih => by_cases h : elemAt (s.vreg .w rg) 16 k = 0xFFFF <;> simp_all
theorem State.gatherCoords_isSome (rg : BitVec 11) (m : MemArg) (n : Nat) :
    ((List.range (s.gatherCoords rg m n).length).filter fun t => ((s.gatherCoords rg m n).getD t none).isSome) =
      (List.range n).filter fun k => elemAt (s.vreg .w rg) 16 k != 0xFFFF := by
  have hl : (s.gatherCoords rg m n).length = n := by simp [State.gatherCoords]
  rw [hl]
  refine List.filter_congr fun k hk => ?_
  have hk := List.mem_range.1 hk
  by_cases h : elemAt (s.vreg .w rg) 16 k = 0xFFFF <;> simp [State.gatherCoords, hk, h]
theorem State.noteStore_plain (m : MemArg) (h : s.me.splId = none) : s.noteStore m = s := by simp [State.noteStore, h]
theorem State.suppressed_plain (h : s.me.splId = none) : s.suppressed = false := by simp [State.suppressed, h]
theorem State.guard_noteStore (m : MemArg) (g : Guard) : (s.noteStore m).guard g = s.guard g := by
  unfold State.noteStore
  split
  · simp [State.guard]
  · rfl
theorem State.suppressed_noteStore (m : MemArg) : (s.noteStore m).suppressed = s.suppressed := by
  unfold State.noteStore
  split
  · unfold State.suppressed
    rw [State.me_modMe]
    rfl
  · rfl
/-- A suppressed tile store leaves its note and nothing else (R266). -/
theorem execStT_suppressed {g : Guard} (rm : BitVec 3) (rg : BitVec 11) (m : MemArg) (dt dc : Bool) (h : BitVec 2) (hg : s.guard g = true)
    (hs : s.suppressed = true) : execStT g rm rg m dt dc h s = .next (s.noteStore m) := by
  rw [execStT, if_pos hg, guarded_true ((State.guard_noteStore m g).trans hg)]
  simp only [State.suppressed_noteStore, hs, if_true]
  rfl

/-- A tile store of code that is not spliced leaves no note. -/
theorem execStT_plain {g : Guard} (rm : BitVec 3) (rg : BitVec 11) (m : MemArg) (dt dc : Bool) (h : BitVec 2) (hg : s.guard g = true)
    (hs : s.me.splId = none) : execStT g rm rg m dt dc h s = s.finish
      (let f := accShape (s.memCoords m (s.lay s.cur.who m.le.toNat)) 16384 (rowCount h) (if dc then some (decTy dt).width else none)
      s.ofSize m.le.toNat true f fun d => s.store m (if dc then some (decTy dt, rm) else none) (f (dWidth d))
        (if dc then (decTy dt).width else dWidth d) (s.vreg .t rg)) := by
  rw [execStT, if_pos hg, State.noteStore_plain m hs, guarded_true hg, State.suppressed_plain hs]
  rfl
theorem execStV_eq {g : Guard} (rm : BitVec 3) (rg : BitVec 11) (m : MemArg) (dt dc : Bool) (hg : s.guard g = true) :
    execStV g rm rg m dt dc s = s.finish
      (let f := accShape (s.memCoords m (s.lay s.cur.who m.le.toNat)) 4096 1 (if dc then some (decTy dt).width else none)
      s.ofSize m.le.toNat true f fun d => s.store m (if dc then some (decTy dt, rm) else none) (f (dWidth d))
        (if dc then (decTy dt).width else dWidth d) (s.vreg .v rg)) := by
  rw [execStV, guarded_true hg]
  rfl
theorem execStS_eq {g : Guard} (rm : BitVec 3) (sk : BitVec 6) (m : MemArg) (dt dc : Bool) (hg : s.guard g = true) :
    execStS g rm sk m dt dc s = s.finish (s.store m (if dc then some (decTyS dt, rm) else none)
      [s.memCoords m (s.lay s.cur.who m.le.toNat)] (if dc then (decTyS dt).width else 64) (s.sreg sk).toNat) := by
  rw [execStS, guarded_true hg]
/-- A scatter is a store of the elements that its indices leave on. -/
theorem execStSc_eq {g : Guard} (rg : BitVec 11) (m : MemArg) (hg : s.guard g = true) : execStSc g rg m s = s.finish
      (let on (w : Nat) := (List.range (Nat.min 256 (4096 / w))).filter fun k => elemAt (s.vreg .w rg) 16 k != 0xFFFF
      let cs (w : Nat) := (on w).map fun k =>
        addDim (s.memCoords m (s.lay s.cur.who m.le.toNat)) 0 (elemAt (s.vreg .w rg) 16 k : Int)
      s.ofSize m.le.toNat true cs fun d => s.store m none (cs (dWidth d)) (dWidth d)
        (packElems (dWidth d) ((on (dWidth d)).map fun t => elemAt (s.vreg .w rg >>> 4096) (dWidth d) t))) := by
  rw [execStSc, guarded_true hg]
  simp only [State.gatherCoords_on, State.gatherCoords_isSome]
  rfl

/-- Settles O24: each store is `State.store` of its coordinates, and what that withholds is said once. -/
theorem storesAreWithheld : Obligations.StoresAreWithheld := by
  unfold Obligations.StoresAreWithheld
  intro g rm rg sk m dt dc h s hg
  extract_lets who le c ty out shT shV idx on shG
  refine ⟨fun hs => ?_, ?_, ?_, ?_, execStT_suppressed rm rg m dt dc h hg⟩
  · exact State.sized_of (execStT_plain rm rg m dt dc h hg hs) fun d hd => State.store_converts hd fun _ _ => rfl
  · exact State.sized_of (execStV_eq rm rg m dt dc hg) fun d hd => State.store_converts hd fun _ _ => rfl
  · exact State.store_converts (execStS_eq rm sk m dt dc hg) fun _ _ => rfl
  · refine State.sized_of (execStSc_eq rg m hg) fun d hd => State.store_stores (dec := none) hd fun a k hk hl => ?_
    have hk : k < (on (dWidth d)).length := by simpa [hl, shG] using hk
    exact congrArg (·, 0) (elemAt_pack_getD _ _ _ _ hk)
end Sys2Proof.Machine
end

section
/-! Touch windows and spill memory (R37, R48, R196, R197). -/

namespace Sys2Proof.Machine

variable {s : State}

/-! ## Which window a touch takes -/

/-- The lowest number that no open window has. -/
theorem freeWin_free {l : List TWin} (h : ∃ n, n < 32 ∧ ∀ x ∈ l, x.n ≠ n) :
    ∃ n, freeWin l = (n, none) ∧ n < 32 ∧ (∀ x ∈ l, x.n ≠ n) ∧ ∀ k, k < n → ∃ x ∈ l, x.n = k := by
  cases hf : (List.range 32).find? fun n => !l.any fun w => w.n == n with
  | none =>
    obtain ⟨n, hn, hx⟩ := h
    have := List.find?_eq_none.1 hf n (List.mem_range.2 hn)
    simp only [Bool.not_eq_true', Bool.not_eq_false, List.any_eq_true, beq_iff_eq] at this
    obtain ⟨x, hm, he⟩ := this
    exact absurd he (hx x hm)
  | some n =>
    obtain ⟨hp, hm, hlow⟩ := List.find?_range_eq_some.1 hf
    refine ⟨n, by rw [freeWin, hf], List.mem_range.1 hm, fun x hx he => ?_, fun k hk => ?_⟩
    · simp only [Bool.not_eq_true', List.any_eq_false, beq_iff_eq] at hp
      exact hp x hx he
    · simpa using hlow k hk
/-- The order in which a `tch` takes a window's place: the fewest bundles left first, then the lower number. -/
def TWin.before (x y : TWin) : Prop := x.left < y.left ∨ (x.left = y.left ∧ x.n < y.n)
/-- The window that goes, of those seen so far and the next. -/
def sooner (a : Option TWin) (w : TWin) : Option TWin :=
  match a with
  | none => some w
  | some b => if w.left < b.left ∨ (w.left = b.left ∧ w.n < b.n) then some w else some b
theorem sooner_some (b w : TWin) : ∃ y, sooner (some b) w = some y ∧ (y = b ∨ y = w) ∧ ¬ b.before y ∧ ¬ w.before y := by
  simp only [sooner, TWin.before]
  split
  · exact ⟨w, rfl, .inr rfl, by omega, by omega⟩
  · exact ⟨b, rfl, .inl rfl, by omega, by omega⟩
theorem foldl_sooner (l : List TWin) (b : TWin) :
    ∃ y, l.foldl sooner (some b) = some y ∧ (y = b ∨ y ∈ l) ∧ ¬ b.before y ∧ ∀ x ∈ l, ¬ x.before y := by
  induction l generalizing b with
  | nil => exact ⟨b, rfl, .inl rfl, by simp [TWin.before], by simp⟩
  | cons w l ih =>
    obtain ⟨y, hy, hm, hb, hw⟩ := sooner_some b w
    obtain ⟨z, hz, hmz, hyz, hl⟩ := ih y
    refine ⟨z, by rw [List.foldl_cons, hy, hz], ?_, ?_, ?_⟩
    · rcases hmz with rfl | hmz
      · rcases hm with rfl | rfl
        · exact .inl rfl
        · exact .inr (List.mem_cons_self ..)
      · exact .inr (List.mem_cons_of_mem _ hmz)
    · simp only [TWin.before] at *
      omega
    · intro x hx
      rcases List.mem_cons.1 hx with rfl | hx
      · simp only [TWin.before] at *
        omega
      · exact hl x hx
/-- With every number taken, the place of the window that is first in the order. -/
theorem freeWin_full {l : List TWin} {y : TWin} (h : ∀ k, k < 32 → ∃ x ∈ l, x.n = k) (hy : y ∈ l)
    (hmin : ∀ x ∈ l, y.left < x.left ∨ (y.left = x.left ∧ y.n ≤ x.n)) : freeWin l = (y.n, some y.n) := by
  have hf : (List.range 32).find? (fun n => !l.any fun w => w.n == n) = none := by
    refine List.find?_eq_none.2 fun k hk => ?_
    obtain ⟨x, hx, he⟩ := h k (List.mem_range.1 hk)
    simpa using ⟨x, hx, he⟩
  have hw : ∃ z ∈ l, l.foldl sooner none = some z ∧ z.n = y.n := by
    cases l with
    | nil => cases hy
    | cons b l =>
      obtain ⟨z, hz, hm, hb, hl⟩ := foldl_sooner l b
      have hzm : z ∈ b :: l := List.mem_cons.2 hm
      have hyz : ¬ y.before z := by
        rcases List.mem_cons.1 hy with rfl | hy
        · exact hb
        · exact hl y hy
      refine ⟨z, hzm, hz, ?_⟩
      have := hmin z hzm
      simp only [TWin.before] at hyz
      omega
  obtain ⟨z, -, hz, he⟩ := hw
  simp only [freeWin, hf]
  change (match l.foldl sooner none with | some w => (w.n, some w.n) | none => (0, none)) = _
  rw [hz, ← he]

/-! ## The window that a touch opens -/

/-- Closing windows changes the deferred sets of a partition and the context's list of windows. -/
theorem State.closeWins_eq (w : Nat) (k : TWin → Bool) :
    ∃ ps, s.closeWins w k = ({ s with parts := ps } : State).modCtx w fun c => { c with wins := c.wins.filter k } := by
  have fold : ∀ (l : List TWin) (u : State),
      ∃ ps, l.foldl (fun s x => s.setPart (s.partOf w) ((s.part (s.partOf w)).undefer (some (w, x.n)) none)) u = { u with parts := ps } := by
    intro l
    induction l with
    | nil => exact fun u => ⟨u.parts, rfl⟩
    | cons x l ih =>
      intro u
      obtain ⟨ps, h⟩ := ih (u.setPart (u.partOf w) ((u.part (u.partOf w)).undefer (some (w, x.n)) none))
      exact ⟨ps, h⟩
  obtain ⟨ps, h⟩ := fold ((s.ctx w).wins.filter fun x => !k x) s
  exact ⟨ps, congrArg (fun u : State => u.modCtx w fun c => { c with wins := c.wins.filter k }) h⟩
@[simp] theorem State.closeWins_cur (w : Nat) (k : TWin → Bool) : (s.closeWins w k).cur = s.cur := by
  obtain ⟨ps, h⟩ := State.closeWins_eq (s := s) w k
  rw [h]
  rfl
@[simp] theorem State.closeWins_core (w : Nat) (k : TWin → Bool) (n : Nat) : (s.closeWins w k).core n = s.core n := by
  obtain ⟨ps, h⟩ := State.closeWins_eq (s := s) w k
  rw [h]
  rfl
theorem State.closeWins_ctx (w : Nat) (k : TWin → Bool) :
    (s.closeWins w k).ctx w = { s.ctx w with wins := (s.ctx w).wins.filter k } := by
  obtain ⟨ps, h⟩ := State.closeWins_eq (s := s) w k
  rw [h, State.ctx_modCtx]
  rfl
theorem State.closeWins_memOrigin (w : Nat) (k : TWin → Bool) (core : Nat) (l : Lay) (st : Bool) :
    (s.closeWins w k).memOrigin core l st = s.memOrigin core l st := by
  simp only [State.memOrigin, State.slotWin, State.ring, State.closeWins_core]

/-- The extents of a touch's box, from the scalars behind its origin. -/
def State.touchExt (s : State) (le : BitVec 8) (cb : BitVec 6) : List Int :=
  let l := s.lay s.cur.who le.toNat
  (List.range l.rank).map fun k => (s.me.ctl.sget (cb.toNat + l.rank + k)).toInt
/-- Its origin and coordinates. -/
def State.touchOrg (s : State) (le : BitVec 8) (cb : BitVec 6) (imm : BitVec 16) : List Int :=
  s.coords s.cur.who cb.toNat (s.lay s.cur.who le.toNat).rank imm.toInt
def State.touchBox (s : State) (le : BitVec 8) (cb : BitVec 6) (imm : BitVec 16) : List (List Int) :=
  boxCoords (s.touchOrg le cb imm) ((s.touchExt le cb).map Int.toNat)
/-- Its access, which no open window spares. -/
def State.touchAcc (s : State) (le : BitVec 8) (cb : BitVec 6) (imm : BitVec 16) (w : Bool) : Except Stop Acc :=
  (s.modMe fun c => { c with wins := [] }).access1 s.cur.who le.toNat w false (s.touchBox le cb imm)
/-- Its window under a number. -/
def State.touchWin (s : State) (le : BitVec 8) (cb : BitVec 6) (imm : BitVec 16) (w : Bool) (a : Acc) (n : Nat) : TWin :=
  let l := s.lay s.cur.who le.toNat
  { n := n, w := w, left := 256, pages := a.pages, le := le.toNat, org := s.touchOrg le cb imm, ext := (s.touchExt le cb).map Int.toNat,
    bytes := if l.isMem then (l.bits (s.memOrigin (coreOf s.cur.who) l w) (dWidth a.fmt) (s.touchBox le cb imm)).map fun b =>
      ((b / 8).toNat, (dWidth a.fmt + 7) / 8) else [] }
theorem Lay.boxBytes_eq (l : Lay) (org w : Nat) (cs : List (List Int)) :
    l.boxBytes org w cs = if l.isMem then (l.bits org w cs).map fun b => ((b / 8).toNat, (w + 7) / 8) else [] := by
  unfold Lay.boxBytes
  cases l.isMem <;> rfl

section
variable {g : Guard} {le : BitVec 8} {cb : BitVec 6} {imm : BitVec 16} {w : Bool}

theorem execTch_past (hg : s.guard g = true) (h : 63 < cb.toNat + 2 * (s.lay s.cur.who le.toNat).rank - 1) :
    execTch g le cb imm w s = .next (s.trap (tLayout le.toNat)) := by
  simp only [execTch, guarded_true hg, if_pos h]
  rfl
theorem execTch_empty (hg : s.guard g = true) (h : cb.toNat + 2 * (s.lay s.cur.who le.toNat).rank - 1 ≤ 63)
    (he : ∃ e ∈ s.touchExt le cb, e ≤ 0) : execTch g le cb imm w s = .next s := by
  have he : (s.touchExt le cb).any (fun e => decide (e ≤ 0)) = true := by simpa using he
  simp only [State.touchExt] at he
  simp only [execTch, guarded_true hg, if_neg (Nat.not_lt.2 h), he, if_true]
  rfl
theorem execTch_stops (hg : s.guard g = true) (h : cb.toNat + 2 * (s.lay s.cur.who le.toNat).rank - 1 ≤ 63)
    (he : ∀ e ∈ s.touchExt le cb, 0 < e) {x : Trap} (ha : s.touchAcc le cb imm w = .error (.trap x)) :
    execTch g le cb imm w s = .next (s.trap x) := by
  have he : (s.touchExt le cb).any (fun e => decide (e ≤ 0)) = false := by simpa using he
  simp only [State.touchExt] at he
  simp only [State.touchAcc, State.touchBox, State.touchOrg, State.touchExt] at ha
  simp only [execTch, guarded_true hg, if_neg (Nat.not_lt.2 h), he, Bool.false_eq_true, if_false, ha]
  rfl
theorem execTch_opens (hg : s.guard g = true) (h : cb.toNat + 2 * (s.lay s.cur.who le.toNat).rank - 1 ≤ 63)
    (he : ∀ e ∈ s.touchExt le cb, 0 < e) {a : Acc} (ha : s.touchAcc le cb imm w = .ok a) {n : Nat}
    (hn : freeWin s.me.wins = (n, none)) :
    execTch g le cb imm w s = .next (s.modMe fun c => { c with wins := c.wins ++ [s.touchWin le cb imm w a n] }) := by
  have he : (s.touchExt le cb).any (fun e => decide (e ≤ 0)) = false := by simpa using he
  simp only [State.touchExt] at he
  simp only [State.touchAcc, State.touchBox, State.touchOrg, State.touchExt] at ha
  simp only [execTch, guarded_true hg, if_neg (Nat.not_lt.2 h), he, Bool.false_eq_true, if_false, ha, hn, Lay.boxBytes_eq]
  rfl
theorem execTch_replaces (hg : s.guard g = true) (h : cb.toNat + 2 * (s.lay s.cur.who le.toNat).rank - 1 ≤ 63)
    (he : ∀ e ∈ s.touchExt le cb, 0 < e) {a : Acc} (ha : s.touchAcc le cb imm w = .ok a) {n : Nat}
    (hn : freeWin s.me.wins = (n, some n)) :
    execTch g le cb imm w s = .next ((s.closeWins s.cur.who fun t => t.n != n).modMe fun c =>
      { c with wins := c.wins ++ [s.touchWin le cb imm w a n] }) := by
  have he : (s.touchExt le cb).any (fun e => decide (e ≤ 0)) = false := by simpa using he
  simp only [State.touchExt] at he
  simp only [State.touchAcc, State.touchBox, State.touchOrg, State.touchExt] at ha
  simp only [execTch, guarded_true hg, if_neg (Nat.not_lt.2 h), he, Bool.false_eq_true, if_false, ha, hn, Lay.boxBytes_eq, State.closeWins_memOrigin]
  rfl
end

/-! ## Spill memory -/

/-- Entries that fit are withheld, and nothing else happens. -/
theorem State.withhold_fits {l : List WEnt} (h : (l.foldl (fun h e => holdEntry e h) s.me.held).length ≤ 128) :
    s.withhold l = .ok (s.modMe fun c => { c with held := l.foldl (fun h e => holdEntry e h) s.me.held }) := by
  rw [State.withhold_eq, if_neg (Nat.not_lt.2 h)]
/-- The entries of a vector store to spill memory, and of a scalar one. -/
def State.spillV (s : State) (rg : BitVec 11) (off : BitVec 14) : List WEnt :=
  (List.range 8).map fun k => ⟨16, (spillBase s.cur.who + off.toNat) / 64 + k, ones 512, elemAt (s.vreg .v rg) 512 k, 0, none, 0⟩
def State.spillS (s : State) (r : BitVec 6) (off : BitVec 14) : List WEnt :=
  let base := spillBase s.cur.who + off.toNat
  [⟨16, base / 64, ones 64 <<< (8 * (base % 64)), (s.sreg r).toNat <<< (8 * (base % 64)), 0, none, 0⟩]
theorem execStSp_vector {g : Guard} (rg : BitVec 11) (off : BitVec 14) (hg : s.guard g = true) :
    execStSp g true rg off s = s.finish (s.withhold (s.spillV rg off)) := by
  simp only [execStSp, guarded_true hg, if_true, State.spillV]
theorem execStSp_scalar {g : Guard} (rg : BitVec 11) (off : BitVec 14) (hg : s.guard g = true) :
    execStSp g false rg off s = s.finish (s.withhold (s.spillS (rg.extractLsb' 0 6) off)) := by
  have h : rg.extractLsb' 0 6 = rg.setWidth 6 := (BitVec.setWidth_eq_extractLsb' (by decide)).symm
  rw [h, execStSp, guarded_true hg]
  rfl
/-- Entries that are told by their units, and whose units are those of a list of such entries, are that list. -/
theorem ents_of_units {l es : List WEnt} {f : Nat → WEnt} (hu : es.map (·.unit) = l.map (·.unit)) (he : ∀ e ∈ es, e = f e.unit)
    (hl : ∀ e ∈ l, e = f e.unit) : es = l := by
  have key : ∀ l : List WEnt, (∀ e ∈ l, e = f e.unit) → l = (l.map (·.unit)).map f := fun l h =>
    (List.map_id l).symm.trans ((List.map_congr_left h).trans (List.map_map ..).symm)
  rw [key es he, key l hl, hu]
theorem State.becomes_modMe (f : Ctx → Ctx) : s.Becomes (s.modMe f) s.cur.who (f s.me) := s.becomes_modCtx ..
theorem execLdSp_vector {g : Guard} (rg : BitVec 11) (off : BitVec 14) (hg : s.guard g = true) :
    execLdSp g true rg off s = .next (s.post 1 (.win (s.cur.ent.off .v rg)) (s.spillRead off.toNat 512) (ones 4096) 512) := by
  rw [execLdSp, hg]
  rfl
theorem execLdSp_scalar {g : Guard} (rg : BitVec 11) (off : BitVec 14) (hg : s.guard g = true) :
    execLdSp g false rg off s = .next (s.post 1 (.scalar (rg.toNat % 64)) (s.spillRead off.toNat 8 % 2 ^ 64)) := by
  have h : (rg.setWidth 6).toNat = rg.toNat % 64 := BitVec.toNat_setWidth ..
  rw [execLdSp, hg, ← h]
  rfl

/-- A store to spill memory whose entries fit withholds them, and nothing else happens. -/
theorem State.withholds {i : Instr} {l : List WEnt} (hi : exec i s = s.finish (s.withhold l))
    (h : (l.foldl (fun h e => holdEntry e h) s.me.held).length ≤ 128) :
    ∃ t, exec i s = .next t ∧ s.Becomes t s.cur.who { s.me with held := l.foldl (fun h e => holdEntry e h) s.me.held } :=
  ⟨_, hi.trans (by rw [State.withhold_fits h]; rfl), s.becomes_modMe fun c => { c with held := l.foldl (fun h e => holdEntry e h) s.me.held }⟩

/-- Settles O25: a touch by the window that it takes, and spill accesses by the bytes and entries that they name. -/
theorem touchWindowsAndSpill : Obligations.TouchWindowsAndSpill := by
  unfold Obligations.TouchWindowsAndSpill
  intro g le cb imm w rg off s hg who l ext base holds
  refine ⟨execTch_past hg, execTch_empty hg, ?_, ⟨_, execLdSp_vector rg off hg, s.post_issued ..⟩,
    ⟨_, execLdSp_scalar rg off hg, s.post_issued ..⟩, ?_, ?_⟩
  · intro org cs found win hr he
    refine ⟨fun a ha hfree => ?_, fun a y ha hfull hy hmin => ?_, fun x hx => execTch_stops hg hr he hx⟩
    · obtain ⟨n, hn, hlt, hnew, hlow⟩ := freeWin_free hfree
      exact ⟨_, n, execTch_opens hg hr he ha hn, hlt, hnew, hlow, s.becomes_modMe _⟩
    · have hctx := State.closeWins_ctx (s := s) s.cur.who fun t => t.n != y.n
      have hcur := State.closeWins_cur (s := s) s.cur.who fun t => t.n != y.n
      refine ⟨_, execTch_replaces hg hr he ha (freeWin_full hfull hy hmin), fun v hv => ?_, ?_, ?_⟩
      · rw [State.ctx_modMe_ne _ _ (by rwa [hcur]), State.closeWins_ctx_ne _ hv]
      · exact State.closeWins_mem ..
      · rw [State.modMe, hcur, State.ctx_modCtx, hctx]
        rfl
  · intro es _ he hroom hu _
    obtain rfl : es = s.spillV rg off :=
      ents_of_units (f := fun u => ⟨16, u, ones 512, elemAt (s.vreg .v rg) 512 (u - base / 64), 0, none, 0⟩)
        (hu.trans (List.map_map ..).symm) he (by simp [State.spillV, base, who])
    exact State.withholds (execStSp_vector rg off hg) hroom
  · intro es _ he hroom hu _
    obtain rfl : es = s.spillS (rg.extractLsb' 0 6) off :=
      ents_of_units (f := fun u => ⟨16, u, ones 64 <<< (8 * (base % 64)), (s.sreg (rg.extractLsb' 0 6)).toNat <<< (8 * (base % 64)), 0, none, 0⟩)
        hu he (by simp [State.spillS, base, who])
    exact State.withholds (execStSp_scalar rg off hg) hroom
end Sys2Proof.Machine
end

section
/-! The quantisation pair (R155 to R158): vmaxe and vqcvt. -/

namespace Sys2Proof.Machine

variable {s : State}

/-! ## The largest exponent of a block -/

/-- The larger of two exponents, where there are any. -/
def maxOpt (a o : Option Int) : Option Int :=
  match a, o with | some x, some y => some (max x y) | none, o => o | a, none => a
theorem foldl_maxOpt_some (l : List (Option Int)) (x : Int) :
    ∃ y, l.foldl maxOpt (some x) = some y ∧ (y = x ∨ some y ∈ l) ∧ x ≤ y ∧ ∀ z, some z ∈ l → z ≤ y := by
  induction l generalizing x with
  | nil => exact ⟨x, rfl, .inl rfl, le_refl _, by simp⟩
  | cons o l ih =>
    cases o with
    | none =>
      obtain ⟨y, hy, hm, hle, hl⟩ := ih x
      exact ⟨y, hy, hm.imp_right (List.mem_cons_of_mem _), hle, fun z hz => hl z (by simpa using hz)⟩
    | some u =>
      obtain ⟨y, hy, hm, hle, hl⟩ := ih (max x u)
      refine ⟨y, hy, ?_, by omega, fun z hz => ?_⟩
      · rcases hm with rfl | hm
        · rcases max_choice x u with h | h <;> simp [h]
        · exact .inr (List.mem_cons_of_mem _ hm)
      · rcases List.mem_cons.1 hz with h | h
        · cases h; omega
        · exact hl z h
theorem foldl_maxOpt_none (l : List (Option Int)) :
    ((∀ z, some z ∉ l) → l.foldl maxOpt none = none) ∧
    ∀ m, some m ∈ l → (∀ z, some z ∈ l → z ≤ m) → l.foldl maxOpt none = some m := by
  induction l with
  | nil => simp
  | cons o l ih =>
    cases o with
    | none => simpa [maxOpt] using ih
    | some x =>
      obtain ⟨y, hy, hm, hle, hl⟩ := foldl_maxOpt_some l x
      refine ⟨fun h => absurd (List.mem_cons_self ..) (h x), fun m hm' hmax => hy.trans (congrArg some ?_)⟩
      have h1 : y ≤ m := hmax y (by rcases hm with rfl | hm <;> simp_all)
      have h2 : m ≤ y := by
        rcases List.mem_cons.1 hm' with h | h
        · cases h; exact hle
        · exact hl m h
      omega
theorem maxExp_none {l : List (Option Int)} (h : ∀ z, some z ∉ l) : maxExp l = none := (foldl_maxOpt_none l).1 h
theorem maxExp_some {l : List (Option Int)} {m : Int} (h : some m ∈ l) (hmax : ∀ z, some z ∈ l → z ≤ m) : maxExp l = some m :=
  (foldl_maxOpt_none l).2 m h hmax

/-! ## vmaxe -/

theorem viewOf_eq (n : Nat) : viewOf n = if n = 1 then View.v else if n = 2 then .w else if n = 4 then .t else .a := by
  unfold viewOf
  split <;> simp_all

/-- The exponent of an element of `vmaxe`'s source, where it is on. -/
def State.onExp (s : State) (c : VC) (g : Nat) (va : BitVec 11) (k : Nat) : Option Int :=
  if s.on c k then exponent (dval c.et (elemAt (s.vreg (viewOf g) va) c.et.width k)) else none
/-- The code of a block's largest exponent (R155). -/
def expCode : Option Int → Nat
  | none => 0
  | some e => (min 254 (max 0 (e + 127))).toNat
/-- The code of block `j` of `bs` elements. -/
def State.blockCode (s : State) (c : VC) (g bs : Nat) (va : BitVec 11) (j : Nat) : Nat :=
  if g * lanes c.et.width ≤ j * bs then 0 else expCode (maxExp ((List.range bs).map fun i => s.onExp c g va (j * bs + i)))
theorem expCode_lt (o : Option Int) : expCode o < 256 := by
  cases o with
  | none => decide
  | some e => simp only [expCode]; omega
theorem State.blockCode_lt (c : VC) (g bs : Nat) (va : BitVec 11) (j : Nat) : s.blockCode c g bs va j < 256 := by
  unfold State.blockCode
  split
  · decide
  · exact expCode_lt _
/-- A value of a block's elements that are on. -/
theorem State.mem_block {c : VC} {g bs : Nat} {va : BitVec 11} {j : Nat} {v : Int} :
    some v ∈ ((List.range bs).map fun i => s.onExp c g va (j * bs + i)) ↔
      ∃ k, j * bs ≤ k ∧ k < j * bs + bs ∧ s.on c k = true ∧
        exponent (dval c.et (elemAt (s.vreg (viewOf g) va) c.et.width k)) = some v := by
  simp only [List.mem_map, List.mem_range, State.onExp]
  constructor
  · rintro ⟨i, hi, h⟩
    split at h
    · next ho => exact ⟨j * bs + i, by omega, by omega, ho, h⟩
    · cases h
  · rintro ⟨k, h1, h2, ho, he⟩
    refine ⟨k - j * bs, by omega, ?_⟩
    rw [show j * bs + (k - j * bs) = k by omega, if_pos ho, he]

/-- The latch write of `vmaxe`. -/
def State.maxeWrite (s : State) (c : VC) (z x : BitVec 2) (va : BitVec 11) : LatW :=
  { seq := s.cur.ent.seq, sel := if s.cur.slot = .v1 then .v1 else .v0, k := z,
    val := BitVec.ofNat 2048 (packElems 8 ((List.range 64).map (s.blockCode c (2 ^ x.toNat) (16 * 2 ^ z.toNat) va))) }
theorem execVmaxe_off {c : VC} (z x : BitVec 2) (va : BitVec 11) (hg : s.guard c.g = false) :
    execVmaxe c z x va s = .next (s.occupy (2 ^ x.toNat)) := by
  simp only [execVmaxe, State.occupy_guard, hg, Bool.not_false, if_true]
theorem execVmaxe_on {c : VC} (z x : BitVec 2) (va : BitVec 11) (hg : s.guard c.g = true) :
    execVmaxe c z x va s = .next ((s.occupy (2 ^ x.toNat)).latch (s.maxeWrite c z x va)) := by
  simp only [execVmaxe, State.occupy_guard, hg, Bool.not_true, Bool.false_eq_true, if_false]
  rfl
/-- A block beyond the operand, or without an element that counts, has the code 0. -/
theorem State.blockCode_none {c : VC} {g bs : Nat} {va : BitVec 11} {j : Nat} (h : g * lanes c.et.width ≤ j * bs ∨
    ∀ m, ¬ ∃ k, j * bs ≤ k ∧ k < j * bs + bs ∧ s.on c k = true ∧
      exponent (dval c.et (elemAt (s.vreg (viewOf g) va) c.et.width k)) = some m) : s.blockCode c g bs va j = 0 := by
  unfold State.blockCode
  split
  · rfl
  · next hn => rw [maxExp_none fun m hm => h.resolve_left hn m (State.mem_block.1 hm)]; rfl
/-- Another block has the code of its largest exponent. -/
theorem State.blockCode_max {c : VC} {g bs : Nat} {va : BitVec 11} {j : Nat} {m : Int} (hn : j * bs < g * lanes c.et.width)
    (hm : ∃ k, j * bs ≤ k ∧ k < j * bs + bs ∧ s.on c k = true ∧
      exponent (dval c.et (elemAt (s.vreg (viewOf g) va) c.et.width k)) = some m)
    (hmax : ∀ m', (∃ k, j * bs ≤ k ∧ k < j * bs + bs ∧ s.on c k = true ∧
      exponent (dval c.et (elemAt (s.vreg (viewOf g) va) c.et.width k)) = some m') → m' ≤ m) :
    (s.blockCode c g bs va j : Int) = min 254 (max 0 (m + 127)) := by
  rw [State.blockCode, if_neg (Nat.not_le.2 hn), maxExp_some (State.mem_block.2 hm) fun z hz => hmax z (State.mem_block.1 hz)]
  simp only [expCode]
  omega
theorem State.maxeWrite_code (c : VC) (z x : BitVec 2) (va : BitVec 11) {j : Nat} (hj : j < 64) :
    elemAt (s.maxeWrite c z x va).val.toNat 8 j = s.blockCode c (2 ^ x.toNat) (16 * 2 ^ z.toNat) va j := by
  have hlt := packElems_lt 8 ((List.range 64).map (s.blockCode c (2 ^ x.toNat) (16 * 2 ^ z.toNat) va))
  have hle : 8 * ((List.range 64).map (s.blockCode c (2 ^ x.toNat) (16 * 2 ^ z.toNat) va)).length ≤ 2048 := by
    rw [List.length_map, List.length_range]
    decide
  have hlt := hlt.trans_le (Nat.pow_le_pow_right Nat.two_pos hle)
  rw [State.maxeWrite, BitVec.toNat_ofNat, Nat.mod_eq_of_lt hlt, elemAt_pack_range _ _ _ _ hj]
  exact Nat.mod_eq_of_lt (State.blockCode_lt ..)

/-! ## The powers of two of a scale format -/

/-- The least of a list's numbers is the fold of `min` over it, and the largest that of `max`. -/
theorem foldl_min_eq {l : List (Int × Nat)} {m x : Int} (hx : m ≤ x) (hl : ∀ p ∈ l, m ≤ p.1) (h : m = x ∨ ∃ p ∈ l, p.1 = m) :
    l.foldl (fun a p => min a p.1) x = m := by
  induction l generalizing x with
  | nil => simpa [eq_comm] using h
  | cons p l ih =>
    have hp := hl p (List.mem_cons_self ..)
    rw [List.foldl_cons]
    refine ih (by omega) (fun q hq => hl q (List.mem_cons_of_mem _ hq)) ?_
    rcases h with rfl | ⟨q, hq, rfl⟩
    · exact .inl (by omega)
    · rcases List.mem_cons.1 hq with rfl | hq
      · exact .inl (by omega)
      · exact .inr ⟨q, hq, rfl⟩
theorem foldl_max_eq {l : List (Int × Nat)} {m x : Int} (hx : x ≤ m) (hl : ∀ p ∈ l, p.1 ≤ m) (h : m = x ∨ ∃ p ∈ l, p.1 = m) :
    l.foldl (fun a p => max a p.1) x = m := by
  induction l generalizing x with
  | nil => simpa [eq_comm] using h
  | cons p l ih =>
    have hp := hl p (List.mem_cons_self ..)
    rw [List.foldl_cons]
    refine ih (by omega) (fun q hq => hl q (List.mem_cons_of_mem _ hq)) ?_
    rcases h with rfl | ⟨q, hq, rfl⟩
    · exact .inl (by omega)
    · rcases List.mem_cons.1 hq with rfl | hq
      · exact .inl (by omega)
      · exact .inr ⟨q, hq, rfl⟩
theorem powCodes_lt {f : Fmt} {nbv : Bool} {p : Int × Nat} (h : p ∈ powCodes f nbv) : p.2 < 256 := by
  obtain ⟨c, hc, hp⟩ := List.mem_filterMap.1 h
  split at hp
  · split at hp
    · cases hp; exact List.mem_range.1 hc
    · cases hp
  · cases hp
/-- Packed elements end where their list does. -/
theorem elemAt_packElems_ge (w : Nat) (l : List Nat) {i : Nat} (h : l.length ≤ i) : elemAt (packElems w l) w i = 0 := by
  have hlt : packElems w l < 2 ^ (i * w) :=
    (packElems_lt w l).trans_le (Nat.pow_le_pow_right Nat.two_pos ((Nat.mul_comm ..).trans_le (Nat.mul_le_mul_right w h)))
  rw [elemAt, Nat.shiftRight_eq_div_pow, Nat.div_eq_of_lt hlt, Nat.zero_mod]

/-! ## vqcvt -/

/-- The codes and the block code of the operation's latch, as it stands for its bundle position. -/
def State.latchPair (s : State) : BitVec 512 × BitVec 2 :=
  let lt := s.me.ctl.latchesAt s.cur.ent.seq
  if s.cur.slot = .v1 then (lt.v1, lt.k1) else (lt.v0, lt.k0)
/-- The powers of two of a descriptor's scale format, and the least and the largest exponent among them. -/
def State.powers (s : State) (d : BitVec 32) : List (Int × Nat) := powCodes (dFmt (s.myDesc (dSfmt d))) s.cur.ent.nbv
def leastPower (l : List (Int × Nat)) : Int := l.foldl (fun a p => min a p.1) (l.headD (0, 0)).1
def largestPower (l : List (Int × Nat)) : Int := l.foldl (fun a p => max a p.1) (l.headD (0, 0)).1
/-- The exponent that block `j` is divided by: held to those that the scale format has, or 0 without scale codes (R156). -/
def State.scaleExp (s : State) (d : BitVec 32) (ss : BitVec 6) (j : Nat) : Int :=
  if (s.sreg ss).getLsbD 0 then 0
  else min (largestPower (s.powers d)) (max (leastPower (s.powers d))
    (((s.latchPair.1.extractLsb' (8 * j) 8).toNat : Int) - 127 - (dFmt d).emax))
/-- The code of element `k` and its flags. -/
def State.quantised (s : State) (c : VC) (d : BitVec 32) (va : BitVec 11) (ss : BitVec 6) (k : Nat) : Nat × BitVec 7 :=
  (dFmt d).round s.cur.ent.nbv c.rm.toNat (s.rb k)
    (match dval c.et (elemAt (s.vreg (viewOf (c.et.width / dWidth d)) va) c.et.width k) with
     | .fin sg m e => .fin sg m (e - s.scaleExp d ss (k / (16 * 2 ^ s.latchPair.2.toNat)))
     | x => x)
/-- The scale codes that go to VB. -/
def State.scaleCodes (s : State) (d : BitVec 32) (ss : BitVec 6) : Nat :=
  packElems 8 ((List.range (lanes (dWidth d) / (16 * 2 ^ s.latchPair.2.toNat))).map fun j =>
    (((s.powers d).find? fun p => p.1 == s.scaleExp d ss j).getD (0, 0)).2)
/-- The state in which the codes of VD are in flight. -/
def State.quantise (s : State) (c : VC) (d : BitVec 32) (vd va : BitVec 11) (ss : BitVec 6) : State :=
  vput c 4 (c.et.width / dWidth d) .v vd (dWidth d) (lanes (dWidth d)) (s.quantised c d va ss) s
theorem execVqcvt_eq {c : VC} (kd : BitVec 6) (vd va vb : BitVec 11) (ss : BitVec 6) :
    execVqcvt c kd vd va vb ss s = .next
      (let t := s.quantise c (s.myDesc kd.toNat) vd va ss
       if !t.guard c.g then t
       else if (s.sreg ss).getLsbD 0 then t.post 4 (.win (t.cur.ent.off .v vb)) 0 0 512
       else t.postV 4 .v vb (s.scaleCodes (s.myDesc kd.toNat) ss)) := by
  unfold execVqcvt
  rfl

theorem State.Issued.cur {t : State} {k : Ctl} {fs : List Fly} (h : s.Issued t k fs) : t.cur = s.cur := by
  rw [h.1.rest]
/-- Guards read the control state that an operation leaves. -/
theorem State.Issued.guard {t : State} {k : Ctl} {fs : List Fly} (h : s.Issued t k fs) (g : Guard) : t.guard g = k.guard g := by
  have hme : t.me.ctl = k := by rw [State.me, h.cur, h.2]
  rw [State.guard, hme]
theorem State.Lanes.guard {t : State} {c : VC} {lat occ : Nat} {vw : View} {vd : BitVec 11} {w n : Nat} {f : Nat → Nat × BitVec 7}
    (h : s.Lanes t c lat occ vw vd w n f) (g : Guard) : t.guard g = s.guard g := by
  obtain ⟨v, bm, fl, hi, -⟩ := h
  exact hi.guard g
theorem State.latchPair_eq : s.latchPair = (let lt := s.me.ctl.latchesAt s.cur.ent.seq
    (if s.cur.slot = .v1 then lt.v1 else lt.v0, if s.cur.slot = .v1 then lt.k1 else lt.k0)) := by
  unfold State.latchPair
  simp only
  split <;> rfl
/-- The bounds of a list's numbers that two of them reach are the least and the largest. -/
theorem extremes_eq {l : List (Int × Nat)} {lo hi : Int} (h : ∀ p ∈ l, lo ≤ p.1 ∧ p.1 ≤ hi) (h1 : ∃ p ∈ l, p.1 = lo)
    (h2 : ∃ p ∈ l, p.1 = hi) : leastPower l = lo ∧ largestPower l = hi := by
  have hhead : lo ≤ (l.headD (0, 0)).1 ∧ (l.headD (0, 0)).1 ≤ hi := by
    cases l with
    | nil => obtain ⟨p, hp, -⟩ := h1; cases hp
    | cons p l => exact h p (List.mem_cons_self ..)
  exact ⟨foldl_min_eq hhead.1 (fun p hp => (h p hp).1) (.inr h1), foldl_max_eq hhead.2 (fun p hp => (h p hp).2) (.inr h2)⟩
/-- Byte `j` of the scale codes, for an exponent that the format has (R157). -/
theorem State.scaleCodes_byte (d : BitVec 32) (ss : BitVec 6) {j : Nat} (hj : j < lanes (dWidth d) / (16 * 2 ^ s.latchPair.2.toNat))
    (h : ∃ p ∈ s.powers d, p.1 = s.scaleExp d ss j) :
    ∃ p ∈ s.powers d, p.1 = s.scaleExp d ss j ∧ elemAt (s.scaleCodes d ss) 8 j = p.2 := by
  cases hf : (s.powers d).find? fun p => p.1 == s.scaleExp d ss j with
  | none =>
    obtain ⟨p, hp, he⟩ := h
    simpa [he] using List.find?_eq_none.1 hf p hp
  | some p =>
    have hm := List.mem_of_find?_eq_some hf
    have he : p.1 = s.scaleExp d ss j := by simpa using List.find?_some hf
    refine ⟨p, hm, he, ?_⟩
    rw [State.scaleCodes, elemAt_pack_range _ _ _ _ hj, hf]
    exact Nat.mod_eq_of_lt (powCodes_lt hm)
theorem State.scaleCodes_rest (d : BitVec 32) (ss : BitVec 6) {j : Nat} (hj : lanes (dWidth d) / (16 * 2 ^ s.latchPair.2.toNat) ≤ j) :
    elemAt (s.scaleCodes d ss) 8 j = 0 :=
  elemAt_packElems_ge _ _ (by simpa using hj)

theorem State.quantise_lanes {c : VC} (d : BitVec 32) (vd va : BitVec 11) (ss : BitVec 6) (hg : s.guard c.g = true) :
    s.Lanes (s.quantise c d vd va ss) c 4 (c.et.width / dWidth d) .v vd (dWidth d) (lanes (dWidth d)) (s.quantised c d va ss) :=
  vput_lanes _ _ _ _ _ _ _ hg
theorem execVqcvt_off {c : VC} (kd : BitVec 6) (vd va vb : BitVec 11) (ss : BitVec 6) (hg : s.guard c.g = false) :
    execVqcvt c kd vd va vb ss s = .next (s.occupy (c.et.width / dWidth (s.myDesc kd.toNat))) := by
  have ht : s.quantise c (s.myDesc kd.toNat) vd va ss = s.occupy (c.et.width / dWidth (s.myDesc kd.toNat)) := vput_off _ _ _ _ _ _ _ hg
  simp only [execVqcvt_eq, ht, State.occupy_guard, hg, Bool.not_false, if_true]
theorem execVqcvt_plain {c : VC} (kd : BitVec 6) (vd va vb : BitVec 11) {ss : BitVec 6} (hg : s.guard c.g = true)
    (hp : (s.sreg ss).getLsbD 0 = true) : execVqcvt c kd vd va vb ss s = .next
      (let t := s.quantise c (s.myDesc kd.toNat) vd va ss
       t.post 4 (.win (t.cur.ent.off .v vb)) 0 0 512) := by
  simp only [execVqcvt_eq, (s.quantise_lanes _ vd va ss hg).guard, hg, hp, Bool.not_true, Bool.false_eq_true, if_false, if_true]
theorem execVqcvt_scales {c : VC} (kd : BitVec 6) (vd va vb : BitVec 11) {ss : BitVec 6} (hg : s.guard c.g = true)
    (hp : (s.sreg ss).getLsbD 0 = false) : execVqcvt c kd vd va vb ss s = .next
      (let t := s.quantise c (s.myDesc kd.toNat) vd va ss
       t.post 4 (.win (t.cur.ent.off .v vb)) (s.scaleCodes (s.myDesc kd.toNat) ss) (ones 4096) 512) := by
  simp only [execVqcvt_eq, (s.quantise_lanes _ vd va ss hg).guard, hg, hp, Bool.not_true, Bool.false_eq_true, if_false]
  rfl

/-- Settles O34: vmaxe by its latch write, vqcvt by its lanes and then by its scale codes. -/
theorem quantisationPair : Obligations.QuantisationPair := by
  unfold Obligations.QuantisationPair
  intro c z x kd vd va vb ss s w view g bs e has sel
  have hview : ∀ n, view n = viewOf n := fun n => (viewOf_eq n).symm
  refine ⟨execVmaxe_off z x va, fun hg => ⟨_, (s.maxeWrite c z x va).val, execVmaxe_on z x va hg, ?_, fun j hj => ?_⟩, ?_⟩
  · exact (s.occupy g).becomes_modMe fun k => { k with ctl := { k.ctl with latw := insLatch (s.maxeWrite c z x va) k.ctl.latw } }
  · rw [State.maxeWrite_code _ _ _ _ hj]
    simp only [has, e, hview]
    exact ⟨State.blockCode_none, fun m => State.blockCode_max⟩
  · intro d cw nbv lt bsz code pows plain lo hi hb h1 h2 se out
    obtain ⟨hlo, hhi⟩ : leastPower (s.powers d) = lo ∧ largestPower (s.powers d) = hi := extremes_eq hb h1 h2
    have hse : ∀ j, s.scaleExp d ss j = se j := fun j => by
      rw [State.scaleExp, hlo, hhi, State.latchPair_eq]
    have hout : s.quantised c d va ss = out := funext fun k => by
      rw [State.quantised, hse, State.latchPair_eq, ← hview] <;> rfl
    have hblocks : 16 * 2 ^ s.latchPair.2.toNat = bsz := by rw [State.latchPair_eq]
    refine ⟨execVqcvt_off kd vd va vb ss, fun hg => ?_⟩
    have hlanes := s.quantise_lanes d vd va ss hg
    rw [hout] at hlanes
    by_cases hp : (s.sreg ss).getLsbD 0 = true
    · exact ⟨_, _, execVqcvt_plain kd vd va vb hg hp, hlanes, fun _ => State.post_issued .., fun h => absurd (hp.symm.trans h) (by decide)⟩
    · have hp' : (s.sreg ss).getLsbD 0 = false := by simpa using hp
      refine ⟨_, _, execVqcvt_scales kd vd va vb hg hp', hlanes, fun h => absurd h hp, fun _ => ⟨s.scaleCodes d ss, State.post_issued .., fun j _ => ⟨?_, ?_⟩⟩⟩
      · rw [← hse, ← hblocks]
        exact State.scaleCodes_byte d ss
      · rw [← hblocks]
        exact State.scaleCodes_rest d ss
end Sys2Proof.Machine
end

section
/-! Results that land, queue results and latch writes (R29, R31, R38, R45, R49, R53). -/

namespace Sys2Proof.Machine

variable {s : State}

/-! ## A state that differs in memory and in one context -/

/-- Memory becomes `mem` and context `w` becomes `c`; nothing else differs. -/
def State.Turns (s t : State) (mem : Memory) (w : Nat) (c : Ctx) : Prop :=
  t = { s with ctxs := t.ctxs, mem := mem } ∧ (∀ v, v ≠ w → t.ctx v = s.ctx v) ∧ t.ctx w = c
theorem State.turns_refl (w : Nat) : s.Turns s s.mem w (s.ctx w) := ⟨rfl, fun _ _ => rfl, rfl⟩
theorem State.Turns.modCtx {t : State} {mem : Memory} {w : Nat} {c : Ctx} (h : s.Turns t mem w c) (f : Ctx → Ctx) :
    s.Turns (t.modCtx w f) mem w (f c) := by
  obtain ⟨hrest, hothers, rfl⟩ := h
  refine ⟨?_, fun v hv => (State.ctx_modCtx_ne _ _ hv).trans (hothers v hv), State.ctx_modCtx ..⟩
  rw [hrest]
  rfl
theorem State.Turns.putMask {t : State} {mem : Memory} {w : Nat} {c : Ctx} (h : s.Turns t mem w c) (a n v bm : Nat) :
    s.Turns (t.putMask a n v bm) (mem.writeMask a n v bm) w c := by
  obtain ⟨hrest, hothers, hc⟩ := h
  refine ⟨?_, hothers, hc⟩
  rw [hrest]
  rfl
theorem State.Turns.mem {t : State} {mem : Memory} {w : Nat} {c : Ctx} (h : s.Turns t mem w c) : t.mem = mem := by
  rw [h.1]
theorem State.Turns.cores {t : State} {mem : Memory} {w : Nat} {c : Ctx} (h : s.Turns t mem w c) : t.cores = s.cores := by
  rw [h.1]
theorem State.winBase_congr {t : State} (h : t.cores = s.cores) (who : Nat) : t.winBase who = s.winBase who := by
  unfold State.winBase State.winSize State.core
  rw [h]

/-! ## Undo images -/

/-- The old contents of a block, as its undo image holds them. -/
def State.oldBlock (s : State) (who b : Nat) : Nat × Nat := (b, s.mem.read (s.winBase who + b * 512) 512)
/-- The images that the blocks of a write add to an undo file: those of the blocks that it does not hold. -/
def State.newImages (s : State) (who : Nat) (u : List (Nat × Nat)) (l : List Nat) : List (Nat × Nat) :=
  (l.filter fun b => !u.any fun v => v.1 == b).map (s.oldBlock who)
theorem State.newImages_cons (who : Nat) (u : List (Nat × Nat)) {b : Nat} {l : List Nat} (hb : b ∉ l) :
    s.newImages who u [b] ++ s.newImages who (u ++ s.newImages who u [b]) l = s.newImages who u (b :: l) := by
  have hsame : s.newImages who (u ++ s.newImages who u [b]) l = s.newImages who u l := by
    refine congrArg (List.map _) (List.filter_congr fun x hx => ?_)
    have hne : b ≠ x := fun he => hb (he ▸ hx)
    cases hc : u.any fun v => v.1 == b <;> simp [State.newImages, hc, State.oldBlock, hne]
  rw [hsame]
  cases hc : u.any fun v => v.1 == b <;> simp [State.newImages, hc]
def Ctx.withUndo (c : Ctx) (u : List (Nat × Nat)) : Ctx := { c with undo := u }
theorem State.Turns.capture {t : State} {who : Nat} {c : Ctx} {u : List (Nat × Nat)} (h : s.Turns t s.mem who (c.withUndo u)) (b : Nat) :
    s.Turns (t.capture who b) s.mem who (c.withUndo (u ++ s.newImages who u [b])) := by
  have himg : (b, t.bytes (t.winBase who + b * 512) 512) = s.oldBlock who b := by
    rw [State.oldBlock, State.bytes, h.mem, State.winBase_congr h.cores]
  have hu : (t.ctx who).undo = u := by rw [h.2.2]; rfl
  cases hb : u.any fun v => v.1 == b with
  | true =>
    have hnew : s.newImages who u [b] = [] := by simp [State.newImages, hb]
    rw [State.capture, hu, if_pos hb, hnew, List.append_nil]
    exact h
  | false =>
    have hnew : s.newImages who u [b] = [s.oldBlock who b] := by simp [State.newImages, hb]
    rw [State.capture, hu, if_neg (by simp [hb]), himg, hnew]
    exact h.modCtx fun c => { c with undo := c.undo ++ [s.oldBlock who b] }
/-- Each block that is listed once and not in the undo file is captured, in order. -/
theorem State.Turns.captures {who : Nat} {c : Ctx} : ∀ (l : List Nat) {t : State} {u : List (Nat × Nat)},
    s.Turns t s.mem who (c.withUndo u) → l.Nodup →
    s.Turns (l.foldl (fun s b => s.capture who b) t) s.mem who (c.withUndo (u ++ s.newImages who u l))
  | [], t, u, h, _ => by simpa [State.newImages] using h
  | b :: l, t, u, h, hn => by
    obtain ⟨hb, hl⟩ := List.nodup_cons.1 hn
    rw [← State.newImages_cons who u hb, ← List.append_assoc]
    exact State.Turns.captures l (h.capture b) hl
theorem touched_nodup (off n bm : Nat) : (touched off n bm).Nodup :=
  ((List.nodup_range).map fun _ _ h => Nat.add_left_cancel h).filter _
theorem State.turns_writeWin (who off n v bm : Nat) : s.Turns (s.writeWin who off n v bm)
    (s.mem.writeMask (s.winBase who + off) n v bm) who
    ((s.ctx who).withUndo ((s.ctx who).undo ++ s.newImages who (s.ctx who).undo (touched off n bm))) := by
  have h := State.Turns.captures (c := s.ctx who) (touched off n bm) (s.turns_refl who) (touched_nodup off n bm)
  have hw := h.putMask (s.winBase who + off) n v bm
  rw [← State.winBase_congr h.cores] at hw ⊢
  exact hw

/-! ## A result in flight -/

@[simp] theorem State.answered_nil : s.answered [] = true := by simp [State.answered]
@[simp] theorem State.forget_nil : s.forget [] = s := by simp [State.forget]
@[simp] theorem State.badUnit_nil : s.badUnit [] = none := rfl
/-- With no later slot of its group landed, no bit of a result is covered. -/
theorem Ctx.covered_none {c : Ctx} {f : Fly} (h : ∀ l ∈ c.landed, l.slot ≤ f.slot.num ∨ l.grp ≠ f.grp) : c.covered f = 0 := by
  unfold Ctx.covered
  revert h
  induction c.landed with
  | nil => exact fun _ => rfl
  | cons l r ih =>
    intro h
    rw [List.foldl_cons, if_pos (h l (by simp))]
    exact ih fun x hx => h x (by simp [hx])
/-- What the record of a landing takes and adds, with the flags that the result carries. -/
def Ctx.land (c : Ctx) (f : Fly) (k : Nat) : Ctx :=
  { c with fly := c.fly.filter fun g => g.id != k, ctl := c.ctl.flag f.flg,
           landed := c.landed ++ [{ slot := f.slot.num, grp := f.grp, dst := f.dst, size := f.size, bm := f.bits }] }
/-- A result that nothing holds back: it is at its place, it waits for no request, and it has been computed. -/
structure Ctx.Ripe (c : Ctx) (k : Nat) (f : Fly) : Prop where
  found : c.fly.find? (fun g => g.id == k) = some f
  runs : c.susp = false
  due : f.left = 0
  asks : f.gate = []
  known : f.late = none
  last : ∀ l ∈ c.landed, l.slot ≤ f.slot.num ∨ l.grp ≠ f.grp
theorem and_xor_zero_and (x : Nat) : x &&& (x ^^^ (0 &&& x)) = x := by simp
theorem execResultWrite_ripe {who k : Nat} {f : Fly} (h : (s.ctx who).Ripe k f)
    (hroom : ∀ off, f.dst = .win off → s.undoFull who off f.size f.bm = false) :
    execResultWrite who k s = .next ((s.landIn who f f.val f.bits).modCtx who fun c => c.land f k) := by
  obtain ⟨hfound, hruns, hdue, hasks, hknown, hlast⟩ := h
  have hfull : (match f.dst with | .win off => s.undoFull who off f.size f.bits | _ => false) = false := by
    cases hd : f.dst with
    | win off => simpa [Fly.bits, hd] using hroom off hd
    | _ => rfl
  have hunits : f.units = [] := by rw [Fly.units, hknown]
  unfold execResultWrite
  simp only [hfound, hruns, hdue, hasks, hknown, hunits, Ctx.covered_none hlast, and_xor_zero_and, State.answered_nil, State.forget_nil,
    State.badUnit_nil, bne_self_eq_false, Bool.not_true, Bool.false_and, Bool.or_false, Bool.false_eq_true, if_false]
  exact congrArg Host.Outcome.next (if_neg (Bool.eq_false_iff.1 hfull))

/-! ## Where each destination's result goes -/

/-- A result lands: memory becomes `mem`, the undo file `u` and the control state `d`, before its flags. -/
def State.Lands (s : State) (who k : Nat) (f : Fly) (mem : Memory) (p : Ctx → Prop) : Prop :=
  ∃ t, exec (.resultWrite who k) s = .next t ∧ t = { s with ctxs := t.ctxs, mem := mem } ∧ (∀ v, v ≠ who → t.ctx v = s.ctx v) ∧ p (t.ctx who) ∧
    t.ctx who = { s.ctx who with ctl := (t.ctx who).ctl, undo := (t.ctx who).undo, fly := (s.ctx who).fly.filter (fun g => g.id != k),
                                 landed := (s.ctx who).landed ++ [{ slot := f.slot.num, grp := f.grp, dst := f.dst, size := f.size, bm := f.bits }] }
def Ctx.withCtl (c : Ctx) (d : Ctl) (u : List (Nat × Nat)) : Ctx := { c with ctl := d, undo := u }
theorem State.lands_of {who k : Nat} {f : Fly} {mem : Memory} {p : Ctx → Prop} (d : Ctl) (u : List (Nat × Nat))
    (h : (s.ctx who).Ripe k f) (hroom : ∀ off, f.dst = .win off → s.undoFull who off f.size f.bm = false)
    (hin : s.Turns (s.landIn who f f.val f.bits) mem who ((s.ctx who).withCtl d u))
    (hp : p (((s.ctx who).withCtl d u).land f k)) : s.Lands who k f mem p := by
  obtain ⟨hrest, hothers, hc⟩ := hin.modCtx fun c => c.land f k
  exact ⟨_, execResultWrite_ripe h hroom, hrest, hothers, hc ▸ hp, hc ▸ rfl⟩
theorem Fly.bits_ne_zero {f : Fly} (h : f.bits = ones 64) : f.bits ≠ 0 := by rw [h]; decide
theorem State.landIn_scalar {who n : Nat} {f : Fly} (h : f.dst = .scalar n) :
    s.Turns (s.landIn who f f.val f.bits) s.mem who ((s.ctx who).withCtl ((s.ctx who).ctl.sset n (BitVec.ofNat 64 f.val)) (s.ctx who).undo) := by
  have hb : f.bits ≠ 0 := Fly.bits_ne_zero (by rw [Fly.bits, h])
  simp only [State.landIn, h, if_neg hb]
  exact (s.turns_refl who).modCtx fun c => { c with ctl := c.ctl.sset n (BitVec.ofNat 64 f.val) }
theorem State.landIn_pred {who n : Nat} {f : Fly} (h : f.dst = .pred n) :
    s.Turns (s.landIn who f f.val f.bits) s.mem who ((s.ctx who).withCtl ((s.ctx who).ctl.pset n (f.val != 0)) (s.ctx who).undo) := by
  have hb : f.bits ≠ 0 := Fly.bits_ne_zero (by rw [Fly.bits, h])
  simp only [State.landIn, h, if_neg hb]
  exact (s.turns_refl who).modCtx fun c => { c with ctl := c.ctl.pset n (f.val != 0) }
theorem State.landIn_mxcfg {who : Nat} {f : Fly} (h : f.dst = .mxcfg) :
    s.Turns (s.landIn who f f.val f.bits) s.mem who
      ((s.ctx who).withCtl { (s.ctx who).ctl with mxcfg := BitVec.ofNat 64 f.val } (s.ctx who).undo) := by
  have hb : f.bits ≠ 0 := Fly.bits_ne_zero (by rw [Fly.bits, h])
  simp only [State.landIn, h, if_neg hb]
  exact (s.turns_refl who).modCtx fun c => { c with ctl := { c.ctl with mxcfg := BitVec.ofNat 64 f.val } }
/-- A lane mask with the marked bits of a value in it. -/
def maskMerge (v bm : Nat) (m : BitVec 1024) : BitVec 1024 := BitVec.ofNat 1024 ((v &&& bm) ||| (m.toNat &&& (bm ^^^ ones 1024)))
theorem maskMerge_getLsbD (v bm : Nat) (m : BitVec 1024) {i : Nat} (hi : i < 1024) :
    (maskMerge v bm m).getLsbD i = if bm.testBit i = true then v.testBit i else m.getLsbD i := by
  have hone : (ones 1024).testBit i = true := by rw [ones, Nat.testBit_two_pow_sub_one]; simpa using hi
  rw [maskMerge, BitVec.getLsbD_ofNat, Nat.testBit_or, Nat.testBit_and, Nat.testBit_and, Nat.testBit_xor, hone]
  cases bm.testBit i <;> simp [hi, BitVec.getLsbD]
theorem State.landIn_mask {who n : Nat} {f : Fly} (h : f.dst = .mask n) :
    s.Turns (s.landIn who f f.val f.bits) s.mem who
      ((s.ctx who).withCtl ((s.ctx who).ctl.mset n (maskMerge f.val f.bm ((s.ctx who).ctl.mget n))) (s.ctx who).undo) := by
  have hb : f.bits = f.bm := by rw [Fly.bits, h]
  simp only [State.landIn, h, hb]
  exact (s.turns_refl who).modCtx fun c => { c with ctl := c.ctl.mset n (maskMerge f.val f.bm (c.ctl.mget n)) }
theorem State.landIn_win {who off : Nat} {f : Fly} (h : f.dst = .win off) :
    s.Turns (s.landIn who f f.val f.bits) (s.mem.writeMask (s.winBase who + off) f.size f.val f.bm) who
      ((s.ctx who).withCtl (s.ctx who).ctl ((s.ctx who).undo ++ s.newImages who (s.ctx who).undo (touched off f.size f.bm))) := by
  have hb : f.bits = f.bm := by rw [Fly.bits, h]
  simp only [State.landIn, h, hb]
  exact s.turns_writeWin who off f.size f.val f.bm
theorem Ctl.sset_rest (c : Ctl) (n : Nat) (v : Word) (f : BitVec 7) : (c.sset n v).flag f = { c.flag f with s := ((c.sset n v).flag f).s } := by
  by_cases h : n = 0 <;> simp [Ctl.sset, Ctl.flag, h]
theorem Ctl.pset_rest (c : Ctl) (n : Nat) (v : Bool) (f : BitVec 7) : (c.pset n v).flag f = { c.flag f with p := ((c.pset n v).flag f).p } := by
  by_cases h : n = 0 <;> simp [Ctl.pset, Ctl.flag, h]

/-! ## Result queues and latches -/

theorem State.pushDue_due {who q k : Nat} {e : QEnt}
    (h : ((s.ctx who).rqGet q).find? (fun e => e.id == k && !e.arrived && e.left == 0) = some e) (hs : (s.ctx who).susp = false) :
    s.Becomes (s.pushDue who q k) who ((s.ctx who).rqSet q (arrive k e.data ((s.ctx who).rqGet q))) := by
  simp only [State.pushDue, h, hs, Bool.false_eq_true, if_false]
  exact s.becomes_modCtx who fun c => c.rqSet q (arrive k e.data (c.rqGet q))
theorem execLatchWriteLands_unseen {who : Nat} {w : LatW} {r : List LatW} (hl : (s.ctx who).ctl.latw = w :: r)
    (hseq : w.seq + w.reach ≤ (s.ctx who).ctl.seq)
    (hops : ∀ sl, sl = Slot.v0 ∨ sl = .v1 ∨ sl = .m → ∀ e ∈ (s.ctx who).pendingOps sl, w.seq + w.reach ≤ e.seq) :
    ∃ t, execLatchWriteLands who 0 s = .next t ∧
      s.Becomes t who { s.ctx who with ctl := { (s.ctx who).ctl with lat := (s.ctx who).ctl.lat.put w, latw := r } } := by
  have hunseen : ∀ sl, sl = Slot.v0 ∨ sl = .v1 ∨ sl = .m → ((s.ctx who).pendingOps sl).any (fun e => decide (e.seq < w.seq + w.reach)) = false :=
    fun sl h => List.any_eq_false.2 fun e he => by simpa using hops sl h e he
  refine ⟨s.modCtx who fun c => { c with ctl := { c.ctl with lat := c.ctl.lat.put w, latw := r } }, ?_,
    s.becomes_modCtx who fun c => { c with ctl := { c.ctl with lat := c.ctl.lat.put w, latw := r } }⟩
  simp only [execLatchWriteLands, hl, List.any_cons, List.any_nil, hunseen .v0 (.inl rfl), hunseen .v1 (.inr (.inl rfl)), hunseen .m (.inr (.inr rfl)),
    Nat.not_lt.2 hseq, decide_false, bne_self_eq_false, Bool.or_false, Bool.false_eq_true, if_false]

/-- Settles O43: a ripe result by its destination, a queue result by its entry, the oldest latch write by its reach. -/
theorem resultsLand : Obligations.ResultsLand := by
  unfold Obligations.ResultsLand
  intro who k s c base lands
  have hto : ∀ {f mem p}, s.Lands who k f mem p → lands f mem p := id
  clear_value lands
  refine ⟨fun f hfound hruns hdue hasks hknown hlast => ?_, fun q e he hruns => ?_, ?_⟩
  · have h : (s.ctx who).Ripe k f := ⟨hfound, hruns, hdue, hasks, hknown, hlast⟩
    have hnowin : ∀ {d : Dest}, f.dst = d → (∀ off, d ≠ .win off) → ∀ off, f.dst = .win off → s.undoFull who off f.size f.bm = false :=
      fun hd hne off ho => absurd (hd.symm.trans ho) (hne off)
    refine ⟨fun n hd => ?_, fun n hd => ?_, fun n hd => ?_, fun hd => ?_, fun off hd hroom => ?_⟩
    · exact hto (State.lands_of _ _ h (hnowin hd (by simp)) (State.landIn_scalar hd)
        ⟨rfl, Ctl.sset_rest .., fun m => Ctl.sget_sset ..⟩)
    · exact hto (State.lands_of _ _ h (hnowin hd (by simp)) (State.landIn_pred hd)
        ⟨rfl, Ctl.pset_rest .., fun m => Ctl.pget_pset ..⟩)
    · refine hto (State.lands_of _ _ h (hnowin hd (by simp)) (State.landIn_mask hd) ⟨rfl, rfl, fun m i hi => ?_⟩)
      refine (congrArg (BitVec.getLsbD · i) (Ctl.mget_mset ..)).trans ?_
      by_cases hm : m = n
      · simp [hm, maskMerge_getLsbD _ _ _ hi, c]
      · simp [hm, c]
    · exact hto (State.lands_of _ _ h (hnowin hd (by simp)) (State.landIn_mxcfg hd) ⟨rfl, rfl⟩)
    · refine hto (State.lands_of _ _ h (fun o ho => ?_) (State.landIn_win hd) ⟨rfl, rfl⟩)
      cases hd.symm.trans ho
      exact hroom
  · refine ⟨fun hq => ?_, fun hq => ?_⟩
    · subst hq
      exact ⟨_, rfl, State.pushDue_due he hruns⟩
    · exact ⟨_, congrArg Host.Outcome.next (if_pos hq), State.pushDue_due he hruns⟩
  · intro w r hl see hseq hops
    exact execLatchWriteLands_unseen hl hseq hops
end Sys2Proof.Machine
end

section
/-! Checkpoints, touch windows, blocks, ring clears and watchdogs (R23, R32, R33, R37, R63, R65, R68, R130, R384). -/

namespace Sys2Proof.Machine

variable {s : State}

/-! ## What a drained store leaves unchanged -/

@[simp] theorem State.writeUnit_ctx (key u v bm w : Nat) : (s.writeUnit key u v bm).ctx w = s.ctx w := by
  unfold State.writeUnit
  split
  · rfl
  · split <;> rfl
@[simp] theorem State.writeUnit_core (key u v bm n : Nat) : (s.writeUnit key u v bm).core n = s.core n := by
  unfold State.writeUnit
  split
  · rfl
  · split <;> rfl
theorem State.drain_ctx_ne {who v : Nat} (e : WEnt) (h : v ≠ who) : (s.drain who e).ctx v = s.ctx v := by
  unfold State.drain
  split
  · dsimp only
    rw [State.ctx_modCore]
    split
    · exact State.ctx_modCtx_ne _ _ h
    · rfl
  · split
    · rfl
    · dsimp only
      split
      · exact State.writeUnit_ctx ..
      · rfl
theorem State.ring_modCore {n : Nat} {f : Core → Core} (h : (f (s.core n)).rings = (s.core n).rings) (core m : Nat) :
    (s.modCore n f).ring core m = s.ring core m := by
  by_cases hc : core = n
  · subst hc
    simp only [State.ring, State.core_modCore, Core.ring, h]
  · simp only [State.ring, State.core_modCore_ne _ f hc]
theorem State.drain_ring (who : Nat) (e : WEnt) (core m : Nat) : (s.drain who e).ring core m = s.ring core m := by
  unfold State.drain
  split
  · dsimp only
    rw [State.ring_modCore rfl]
    split <;> rfl
  · split
    · rfl
    · dsimp only
      split
      · simp only [State.ring, State.writeUnit_core]
      · rfl
/-- The withheld updates of a context leave in order. -/
def State.emptied (s : State) (who : Nat) : State := (s.ctx who).held.foldl (fun s e => s.drain who e) s
theorem State.emptied_ctx_ne {who v : Nat} (h : v ≠ who) : (s.emptied who).ctx v = s.ctx v :=
  foldl_keeps (p := fun s : State => s.ctx v) (fun _ e => State.drain_ctx_ne e h) _ s
theorem State.emptied_ring (who core m : Nat) : (s.emptied who).ring core m = s.ring core m :=
  foldl_keeps (p := fun s : State => s.ring core m) (fun _ e => State.drain_ring who e core m) _ s
theorem State.emptied_nil {who : Nat} (h : (s.ctx who).held = []) : s.emptied who = s := by rw [State.emptied, h]; rfl
/-- One store to near or local memory that nothing stands before is written at once. -/
theorem State.emptied_one {who : Nat} {e : WEnt} (h : (s.ctx who).held = [e]) (hcls : e.cls ≠ 17) (hmask : e.mask ≠ 0)
    (hnear : e.drawer = none) (hreqs : s.fab.reqs = []) : s.emptied who = s.writeUnit e.key e.unit e.val e.mask := by
  rw [State.emptied, h]
  change s.drain who e = _
  simp only [State.drain, if_neg hcls, if_neg hmask, hnear, hreqs, List.any_nil, Bool.and_false]

/-! ## The release of a checkpoint -/

theorem State.release_eq (who : Nat) : s.release who =
    ((s.emptied who).modCore (coreOf who) fun c => c.ownRings (ctxOf who) fun r => r.publish ((s.emptied who).localStores who)).modCtx who Ctx.release := rfl
theorem State.release_ctx (who : Nat) : (s.release who).ctx who = ((s.emptied who).ctx who).release := State.ctx_modCtx ..
theorem State.release_ctx_ne {who v : Nat} (h : v ≠ who) : (s.release who).ctx v = s.ctx v := by
  rw [State.release_eq, State.ctx_modCtx_ne _ _ h, State.ctx_modCore, State.emptied_ctx_ne h]
theorem State.release_localStores (who : Nat) : (s.release who).localStores who = (s.emptied who).localStores who := rfl
theorem Core.ring_ownRings (c : Core) (own : Nat) (f : Ring → Ring) (hf : f {} = {}) (n : Nat) :
    (c.ownRings own f).ring n = if (c.ring n).owner = own then f (c.ring n) else c.ring n := by
  unfold Core.ownRings Core.ring
  induction c.rings with
  | nil => simp [aget, hf]
  | cons p l ih =>
    simp only [List.map_cons, aget]
    split
    · rfl
    · exact ih
theorem Ring.publish_empty (wait : Bool) : ({} : Ring).publish wait = {} := rfl
theorem State.release_ring (who n : Nat) : (s.release who).ring (coreOf who) n =
    if (s.ring (coreOf who) n).owner = ctxOf who then (s.ring (coreOf who) n).publish ((s.release who).localStores who)
    else s.ring (coreOf who) n := by
  rw [← State.emptied_ring (s := s) who, State.release_localStores, State.release_eq]
  simp only [State.ring, State.core_modCtx, State.core_modCore]
  exact Core.ring_ownRings _ _ _ (Ring.publish_empty _) n
/-- A credit as a release leaves it: no longer withheld as the context's own, waiting where a store to a local space still does. -/
def Owed.released (waits : Bool) (o : Owed) : Owed := { o with own := false, wait := o.wait || (o.own && waits) }
/-- `k` is the number of credits at the head of a list that may be published. -/
def leadingReady (l : List Owed) (k : Nat) : Prop := (∀ o ∈ l.take k, o.ready = true) ∧ ∀ o, (l.drop k).head? = some o → o.ready = false
theorem drop_takeWhile_length (l : List Owed) : l.drop (l.takeWhile Owed.ready).length = l.dropWhile Owed.ready := by
  conv_lhs => rw [← List.takeWhile_append_dropWhile (p := Owed.ready) (l := l), List.drop_left' (by rw [List.takeWhile_append_dropWhile])]
theorem take_takeWhile_length (l : List Owed) : l.take (l.takeWhile Owed.ready).length = l.takeWhile Owed.ready := by
  conv_lhs => rw [← List.takeWhile_append_dropWhile (p := Owed.ready) (l := l), List.take_left' (by rw [List.takeWhile_append_dropWhile])]
theorem leadingReady_takeWhile (l : List Owed) : leadingReady l (l.takeWhile Owed.ready).length := by
  refine ⟨fun o ho => ?_, fun o ho => ?_⟩
  · rw [take_takeWhile_length] at ho
    exact List.mem_takeWhile_imp ho
  · rw [drop_takeWhile_length] at ho
    have hno := List.head?_dropWhile_not Owed.ready l
    rw [ho] at hno
    simpa using hno
/-- Published, a ring counts the credits at the head of its lists that may be published, in the order of the firings. -/
theorem Ring.publish_counts (r : Ring) (waits : Bool) : ∃ a b, leadingReady (r.pops.map (Owed.released waits)) a ∧
    leadingReady (r.pushes.map (Owed.released waits)) b ∧ r.publish waits =
      { r with free := r.free + a, pops := (r.pops.map (Owed.released waits)).drop a,
               filled := r.filled + b, pushes := (r.pushes.map (Owed.released waits)).drop b } := by
  refine ⟨_, _, leadingReady_takeWhile _, leadingReady_takeWhile _, ?_⟩
  rw [drop_takeWhile_length, drop_takeWhile_length]
  rfl

/-- The release, and with it the record of what cannot be undone. -/
def State.checkpoint (s : State) (who : Nat) : State := (s.release who).modCtx who fun c => { c with irrev := none }
theorem State.checkpoint_ctx (who : Nat) : (s.checkpoint who).ctx who = { ((s.emptied who).ctx who).release with irrev := none } := by
  rw [State.checkpoint, State.ctx_modCtx, State.release_ctx]
theorem State.checkpoint_ctx_ne {who v : Nat} (h : v ≠ who) : (s.checkpoint who).ctx v = s.ctx v :=
  (State.ctx_modCtx_ne _ _ h).trans (State.release_ctx_ne h)
theorem State.checkpoint_ring (who n : Nat) : (s.checkpoint who).ring (coreOf who) n =
    if (s.ring (coreOf who) n).owner = ctxOf who then (s.ring (coreOf who) n).publish ((s.checkpoint who).localStores who)
    else s.ring (coreOf who) n := State.release_ring who n
theorem State.checkpoint_drained {who : Nat} {u : State} (h : s.emptied who = u) :
    (s.checkpoint who).mem = u.mem ∧ ((s.checkpoint who).ctx who).ctl = (u.ctx who).ctl := by
  rw [State.checkpoint_ctx, ← h]
  exact ⟨rfl, rfl⟩
theorem execCheckpointRelease_due {who : Nat} (hdue : (s.ctx who).ckDue = true) (hidle : s.idleSpan who = true)
    (hruns : (s.ctx who).susp = false) : execCheckpointRelease who s = .next (match (s.ctx who).soft with
      | none => s.checkpoint who
      | some (k, m, pc) => (s.checkpoint who).takeTrap who ⟨k, 0, m⟩ 0 pc) := by
  simp only [execCheckpointRelease, hdue, hidle, hruns, Bool.not_true, Bool.or_false, Bool.false_eq_true, if_false]
  cases (s.ctx who).soft with
  | none => rfl
  | some p => rfl

/-! ## Windows, blocks, watchdogs and rings -/

theorem execTouchWindowExpiry_spent {who n : Nat} (h : ∃ w ∈ (s.ctx who).wins, w.n = n ∧ w.left = 0) :
    execTouchWindowExpiry who n s = .next (s.closeWins who fun w => !(w.n == n && w.left == 0)) := by
  obtain ⟨w, hw, hn, hl⟩ := h
  exact congrArg Host.Outcome.next (if_pos (List.any_eq_true.2 ⟨w, hw, by simp [hn, hl]⟩))
@[simp] theorem State.elect_ctx (core w : Nat) : (s.elect core).ctx w = s.ctx w := by
  unfold State.elect
  split <;> rfl
theorem execContextReady_clear {who : Nat} {b : Blk} (hb : (s.ctx who).blk = some b) (hclear : s.blockClear who b = true) :
    execContextReady who s = .next ((s.modCtx who fun c => { c with blk := none }).elect (coreOf who)) := by
  simp only [execContextReady, hb, hclear, if_true]
/-- The row's watchdog bits with one context's own bit set. -/
def State.barked (s : State) (who : Nat) : State :=
  s.setRow (rowOf (coreOf who)) { s.row (rowOf (coreOf who)) with
    wdog := (s.row (rowOf (coreOf who))).wdog ||| (1#64 <<< (4 * rankOf (coreOf who) + ctxOf who)) }
theorem execWatchdogExpiry_idle {who : Nat} (hfw : isFw who = false) (hinst : (s.ctx who).inst.isSome = true)
    (hidle : 2 ^ 30 ≤ (s.ctx who).idle) : execWatchdogExpiry who s = .next (s.barked who) := by
  simp only [execWatchdogExpiry, hfw, hinst, decide_eq_true hidle, Bool.not_false, Bool.and_self, if_true]
  rfl
theorem oneAt_getLsbD {k : Nat} (hk : k < 64) (bit : Nat) : (1#64 <<< bit).getLsbD k = decide (k = bit) := by
  simp only [BitVec.getLsbD_shiftLeft, BitVec.getLsbD_one, hk, decide_true, Bool.true_and]
  by_cases h : k < bit
  · simp [h, Nat.ne_of_lt h]
  · simp [h]
    omega
theorem State.barked_bit (who : Nat) {k : Nat} (hk : k < 64) : ((s.barked who).row (rowOf (coreOf who))).wdog.getLsbD k =
    (decide (k = 4 * rankOf (coreOf who) + ctxOf who) || (s.row (rowOf (coreOf who))).wdog.getLsbD k) := by
  rw [State.barked, State.row_setRow, BitVec.getLsbD_or, oneAt_getLsbD hk, Bool.or_comm]
theorem Ring.busy_false {r : Ring} (hpops : ∀ o ∈ r.pops, o.done = true ∧ o.readers = []) (hpushes : ∀ o ∈ r.pushes, o.done = true) :
    r.busy = false := by
  rw [Ring.busy, Bool.or_eq_false_iff, List.any_eq_false, List.any_eq_false]
  exact ⟨fun o ho => by simp [hpops o ho], fun o ho => by simp [hpushes o ho]⟩
theorem execRingClearComplete_quiet {core n : Nat} (hpend : (s.ring core n).pend = true) (hbusy : (s.ring core n).busy = false) :
    execRingClearComplete core n s = .next (s.modRing core n fun r => { r with pend := false }) := by
  simp only [execRingClearComplete, hpend, hbusy, Bool.not_false, Bool.and_self, if_true]
theorem State.ring_modRing_eq (core n : Nat) (f : Ring → Ring) (m : Nat) :
    (s.modRing core n f).ring core m = if m = n then f (s.ring core n) else s.ring core m := by
  simp only [State.ring, State.modRing, State.core_modCore, Core.ring, Core.setRing, aget_aset]

/-- Settles O44: the release by the credits and stores it lets go, the other events by their one effect. -/
theorem spansAndBlocksClear : Obligations.SpansAndBlocksClear := by
  unfold Obligations.SpansAndBlocksClear
  refine ⟨fun who s => ?_, fun core n s hpend hpops hpushes => ?_⟩
  · refine ⟨fun hdue hidle hruns => ?_, fun n h => ?_, fun b hb hclear => ?_, fun hfw hinst hidle => ?_⟩
    · refine ⟨s.checkpoint who, execCheckpointRelease_due hdue hidle hruns, ?_⟩
      intro d waits
      have hd : d = { ((s.emptied who).ctx who).release with irrev := none } := State.checkpoint_ctx who
      refine ⟨hd ▸ rfl, hd ▸ rfl, hd ▸ rfl, hd ▸ rfl, hd ▸ rfl, hd ▸ rfl, fun v hv => State.checkpoint_ctx_ne hv, ?_, ?_, fun hheld => ?_,
        fun e hheld hcls hmask hnear hreqs => ?_⟩
      · intro n r hown
        exact (State.checkpoint_ring who n).trans (if_neg hown)
      · intro n r out first hown
        obtain ⟨a, b, ha, hb, h⟩ := r.publish_counts waits
        exact ⟨a, b, ha, hb, ((State.checkpoint_ring who n).trans (if_pos hown)).trans h⟩
      · exact State.checkpoint_drained (State.emptied_nil hheld)
      · obtain ⟨hmem, hctl⟩ := State.checkpoint_drained (State.emptied_one hheld hcls hmask hnear hreqs)
        exact ⟨hmem, hctl.trans (by rw [State.writeUnit_ctx])⟩
    · exact ⟨_, execTouchWindowExpiry_spent h, State.closeWins_ctx .., fun v hv => State.closeWins_ctx_ne _ hv, State.closeWins_mem ..⟩
    · refine ⟨_, execContextReady_clear hb hclear, rfl, ?_, fun v hv => ?_, State.elect_mem _⟩
      · rw [State.elect_ctx, State.ctx_modCtx]
      · rw [State.elect_ctx, State.ctx_modCtx_ne _ _ hv]
    · exact ⟨_, execWatchdogExpiry_idle hfw hinst hidle, rfl, fun k => State.barked_bit who⟩
  · exact ⟨_, execRingClearComplete_quiet hpend (Ring.busy_false hpops hpushes), rfl, State.ring_modRing_eq core n _⟩
end Sys2Proof.Machine
end

section
/-! The entry of a trap (R35, R292, R296, R316, R351, R352). -/

namespace Sys2Proof.Machine

variable {s : State}

/-! ## A rollback's context -/

/-- Leaving a broadcast changes nothing of a context but what it runs. -/
theorem State.leaveBcast_ctx (w : Nat) : ∃ i, (s.leaveBcast w).ctx w = { s.ctx w with inst := i } := by
  unfold State.leaveBcast
  split
  · next i hi =>
    split
    · exact ⟨(s.ctx w).inst, rfl⟩
    · refine ⟨some { i with left := true }, ?_⟩
      simp only [State.ctx_setRow, State.ctx_modCore, State.ctx_modCtx]
  · exact ⟨(s.ctx w).inst, rfl⟩
/-- A context as a rollback leaves it, but for what it runs and its windows. -/
theorem State.rollback_ctx (w : Nat) : ∃ i l, (s.rollback w).ctx w = { (s.ctx w).rollback with inst := i, wins := l } := by
  obtain ⟨i, hi⟩ := State.leaveBcast_ctx (s := s) w
  simp only [State.rollback]
  rw [State.ctx_modCtx, State.dropReads_ctx, State.ctx_modCore, State.closeWins_ctx, State.endPeers_ctx, State.undoWindow_ctx, hi]
  exact ⟨_, _, rfl⟩
theorem State.rollback_left (w : Nat) : ((s.rollback w).ctx w).ctl = (s.ctx w).shadow ∧ ((s.rollback w).ctx w).trapped = (s.ctx w).trapped ∧
    ((s.rollback w).ctx w).service = (s.ctx w).service ∧ ((s.rollback w).ctx w).queues = [] ∧ ((s.rollback w).ctx w).fly = [] := by
  obtain ⟨i, l, h⟩ := State.rollback_ctx (s := s) w
  rw [h]
  exact ⟨rfl, rfl, rfl, rfl, rfl⟩
/-- What a rollback leaves alone of the service die and of the keys and marks of memory. -/
structure State.SameService (s t : State) : Prop where
  keyed : t.keyed = s.keyed
  bad : t.bad = s.bad
  svc : t.svc = s.svc
theorem State.leaveBcast_service (w : Nat) : s.SameService (s.leaveBcast w) := by
  unfold State.leaveBcast
  split
  · split <;> exact ⟨rfl, rfl, rfl⟩
  · exact ⟨rfl, rfl, rfl⟩
theorem foldl_service {α : Type} {f : State → α → State} (h : ∀ s a, State.SameService s (f s a)) (l : List α) (s : State) :
    s.SameService (l.foldl f s) :=
  ⟨foldl_keeps (p := State.keyed) (fun s a => (h s a).keyed) l s, foldl_keeps (p := State.bad) (fun s a => (h s a).bad) l s,
    foldl_keeps (p := State.svc) (fun s a => (h s a).svc) l s⟩
theorem State.SameService.trans {t u : State} (h : s.SameService t) (h' : t.SameService u) : s.SameService u :=
  ⟨h'.keyed.trans h.keyed, h'.bad.trans h.bad, h'.svc.trans h.svc⟩
theorem State.undoWindow_service (w : Nat) : s.SameService (s.undoWindow w) := by
  unfold State.undoWindow
  refine foldl_service (fun s b => ?_) _ s
  exact ⟨rfl, rfl, rfl⟩
theorem State.endPeers_service (w : Nat) : s.SameService (s.endPeers w) := by
  unfold State.endPeers
  refine foldl_service (fun s m => ?_) _ s
  split <;> exact ⟨rfl, rfl, rfl⟩
theorem State.closeWins_service (w : Nat) (k : TWin → Bool) : s.SameService (s.closeWins w k) := by
  obtain ⟨ps, h⟩ := State.closeWins_eq (s := s) w k
  rw [h]
  exact ⟨rfl, rfl, rfl⟩
theorem State.modCore_service (n : Nat) (f : Core → Core) : s.SameService (s.modCore n f) := ⟨rfl, rfl, rfl⟩
theorem State.modCtx_service (w : Nat) (f : Ctx → Ctx) : s.SameService (s.modCtx w f) := ⟨rfl, rfl, rfl⟩
theorem State.dropReads_service (w : Nat) : s.SameService (s.dropReads w) := ⟨rfl, rfl, rfl⟩
theorem State.rollback_service (w : Nat) : s.SameService (s.rollback w) := by
  unfold State.rollback
  exact (State.leaveBcast_service w).trans <| (State.undoWindow_service w).trans <| (State.endPeers_service w).trans <|
    (State.closeWins_service w _).trans <| (State.modCore_service _ _).trans <| (State.dropReads_service w).trans <| State.modCtx_service w _

/-! ## The window that the undo images restore -/

/-- Images of 512 B put back in order, from a base address. -/
def Memory.putImages (base : Nat) (l : List (Nat × Nat)) (m : Memory) : Memory :=
  l.foldl (fun m b => m.write (base + b.1 * 512) 512 b.2) m
theorem Memory.wf_putImages (base : Nat) : ∀ (l : List (Nat × Nat)) {m : Memory}, m.wf = true → (Memory.putImages base l m).wf = true
  | [], _, h => h
  | _ :: l, _, h => Memory.wf_putImages base l (Memory.wf_write h ..)
/-- A range that lies clear of every image keeps its bytes. -/
theorem Memory.byte_putImages (base a : Nat) : ∀ (l : List (Nat × Nat)) (m : Memory),
    (∀ b ∈ l, a < base + b.1 * 512 ∨ base + b.1 * 512 + 512 ≤ a) → (Memory.putImages base l m).byte a = m.byte a
  | [], _, _ => rfl
  | b :: l, m, h => by
    have hb := h b (by simp)
    refine (Memory.byte_putImages base a l _ fun x hx => h x (by simp [hx])).trans ?_
    rw [Memory.byte_write, if_neg (by omega)]
/-- Of images of different blocks, each reads back. -/
theorem Memory.read_putImages (base : Nat) : ∀ (l : List (Nat × Nat)) {m : Memory}, m.wf = true → (l.map (·.1)).Nodup →
    ∀ b ∈ l, (Memory.putImages base l m).read (base + b.1 * 512) 512 = b.2 % 2 ^ 4096
  | [], _, _, _, _, hb => by cases hb
  | c :: l, m, h, hn, b, hb => by
    obtain ⟨hc, hl⟩ := List.nodup_cons.1 (by simpa using hn : (c.1 :: l.map (·.1)).Nodup)
    rcases List.mem_cons.1 hb with rfl | hb
    · have hsame : (Memory.putImages base (b :: l) m).read (base + b.1 * 512) 512 = (m.write (base + b.1 * 512) 512 b.2).read (base + b.1 * 512) 512 := by
        refine Memory.read_congr (Memory.wf_putImages base _ h) (Memory.wf_write h ..) _ _ fun i hi =>
          Memory.byte_putImages base (base + b.1 * 512 + i) l (m.write (base + b.1 * 512) 512 b.2) fun x hx => ?_
        have hne : x.1 ≠ b.1 := fun he => hc (List.mem_map.2 ⟨x, hx, he⟩)
        omega
      exact hsame.trans (Memory.read_write_self h ..)
    · exact Memory.read_putImages base l (Memory.wf_write h ..) hl b hb
theorem State.foldl_putBytes_mem (who : Nat) : ∀ (l : List (Nat × Nat)) (s : State),
    (l.foldl (fun s b => s.putBytes (s.winBase who + b.1 * 512) 512 b.2) s).mem = Memory.putImages (s.winBase who) l s.mem
  | [], _ => rfl
  | b :: l, s => State.foldl_putBytes_mem who l (s.putBytes (s.winBase who + b.1 * 512) 512 b.2)
theorem State.winBase_two {t : State} {who : Nat} (h : (t.core (coreOf who)).two = (s.core (coreOf who)).two) :
    t.winBase who = s.winBase who := by
  unfold State.winBase State.winSize
  rw [h]
theorem State.leaveBcast_winBase (who : Nat) : (s.leaveBcast who).winBase who = s.winBase who := by
  refine State.winBase_two ?_
  unfold State.leaveBcast
  split
  · split
    · rfl
    · simp only [State.core_setRow, State.core_modCore]
      rfl
  · rfl
/-- A rollback puts back the undo file's images, at the window's own blocks. -/
theorem State.rollback_mem_eq (who : Nat) : (s.rollback who).mem = Memory.putImages (s.winBase who) (s.ctx who).undo s.mem := by
  obtain ⟨i, hi⟩ := State.leaveBcast_ctx (s := s) who
  rw [State.rollback_mem, State.undoWindow, State.foldl_putBytes_mem, State.leaveBcast_winBase, State.leaveBcast_mem, hi]

/-! ## The preload that a trap drops -/

theorem State.dropPreload_eq (who : Nat) (pc : Word) :
    s.dropPreload who pc = s ∨ s.dropPreload who pc = s.modCore (coreOf who) fun c => { c with preload := none } := by
  unfold State.dropPreload
  split
  · dsimp only
    split
    · exact .inr rfl
    · exact .inl rfl
  · exact .inl rfl
theorem State.dropPreload_ctxs (who : Nat) (pc : Word) : (s.dropPreload who pc).ctxs = s.ctxs := by
  rcases State.dropPreload_eq (s := s) who pc with h | h
  · rw [h]
  · rw [h]
    rfl
@[simp] theorem State.dropPreload_ctx (who : Nat) (pc : Word) (w : Nat) : (s.dropPreload who pc).ctx w = s.ctx w := by
  rw [State.ctx, State.dropPreload_ctxs]
  rfl
theorem State.dropPreload_service (who : Nat) (pc : Word) : s.SameService (s.dropPreload who pc) := by
  rcases State.dropPreload_eq (s := s) who pc with h | h <;> rw [h] <;> exact ⟨rfl, rfl, rfl⟩
theorem State.dropPreload_winBase (who : Nat) (pc : Word) : (s.dropPreload who pc).winBase who = s.winBase who := by
  rcases State.dropPreload_eq (s := s) who pc with h | h
  · rw [h]
  · rw [h]
    refine State.winBase_two ?_
    rw [State.core_modCore]

/-! ## A context that is freed -/

/-- What freeing a context leaves of it. -/
def Ctx.vacated (c : Ctx) : Ctx :=
  { c with inst := none, rq := [], queues := [], fly := [], mops := [], held := [], undo := [], popped := [], wins := [],
           blk := none, wait := none, foots := [], split := none, ckDue := false, irrev := none, acted := 0, soft := none,
           halting := false, landed := [], stv := [], level := 0, idle := 0, due := false, preReq := false, susp := false, woke := false,
           nest := false, priv := 0 }
theorem State.vacate_ctx (w : Nat) : (s.vacate w).ctx w = (s.ctx w).vacated := by
  unfold State.vacate
  dsimp only
  rw [State.ctx_modCore, State.ctx_modCtx, State.closeWins_ctx, State.endPeers_ctx, State.dropReads_ctx]
  rfl
theorem State.dropInst_ctx (w : Nat) : (s.dropInst w).ctx w = (s.ctx w).vacated := (State.ctx_setRow ..).trans (State.vacate_ctx w)
theorem State.endInst_none {w : Nat} (f : Option (Nat × Nat)) (k : Option Nat) (h : (s.ctx w).inst = none) : s.endInst w f k = s := by
  rw [State.endInst, h]
theorem State.endInst_ctx {w : Nat} {i : Inst} (f : Option (Nat × Nat)) (k : Option Nat) (h : (s.ctx w).inst = some i) :
    (s.endInst w f k).ctx w = (s.ctx w).vacated := by
  simp only [State.endInst, h]
  rw [State.dropInst_ctx, State.ctx_modDie]
  split <;> rfl
/-- The end of what a context runs leaves HOLD and the fault record. -/
theorem State.endInst_left (w : Nat) (f : Option (Nat × Nat)) (k : Option Nat) : ((s.endInst w f k).ctx w).inst = none ∧
    ((s.endInst w f k).ctx w).hold = (s.ctx w).hold ∧ ((s.endInst w f k).ctx w).flt = (s.ctx w).flt := by
  cases h : (s.ctx w).inst with
  | none => rw [State.endInst_none f k h]; exact ⟨h, rfl, rfl⟩
  | some i => rw [State.endInst_ctx f k h]; exact ⟨rfl, rfl, rfl⟩

/-! ## What a trap leaves -/

theorem State.record_addr (who : Nat) (x : Trap) (slot : Nat) (pc : Word) : (s.record who x slot pc).addr = x.addr := by
  simp only [State.record]
  split <;> rfl
/-- Outside spliced code the record names the cause with its slot, and the bundle in the kernel of the task. -/
theorem State.record_plain {who : Nat} (x : Trap) (slot : Nat) {pc : Word} (h : s.spliceEntry who pc = none) :
    (s.record who x slot pc).cause = BitVec.ofNat 64 (2 ^ 32 + x.kind * 256 + x.cause + slot * 2 ^ 36) ∧
    ∀ i, (s.ctx who).inst = some i → (s.record who x slot pc).bundle = (pc - i.first) &&& 0xFFFFFFF ∧ (s.record who x slot pc).task = i.taskno := by
  simp only [State.record, h]
  refine ⟨trivial, fun i hi => ?_⟩
  rw [hi]
  exact ⟨rfl, rfl⟩
/-- The state behind a trap's rollback, its fault recorded. -/
def State.struck (s : State) (who : Nat) (x : Trap) (slot : Nat) (pc : Word) : State :=
  ((s.dropPreload who pc).rollback who).modCtx who fun c => { c with flt := s.record who x slot pc }
theorem State.struck_ctx (who : Nat) (x : Trap) (slot : Nat) (pc : Word) : ∃ i l,
    (s.struck who x slot pc).ctx who = { (s.ctx who).rollback with inst := i, wins := l, flt := s.record who x slot pc } := by
  obtain ⟨i, l, h⟩ := State.rollback_ctx (s := s.dropPreload who pc) who
  refine ⟨i, l, ?_⟩
  rw [State.struck, State.ctx_modCtx, h, State.dropPreload_ctx]
theorem State.struck_ctx_ne {who v : Nat} (x : Trap) (slot : Nat) (pc : Word) (h : v ≠ who) : (s.struck who x slot pc).ctx v = s.ctx v := by
  rw [State.struck, State.ctx_modCtx_ne _ _ h, State.rollback_ctx_ne h, State.dropPreload_ctx]
theorem State.struck_service (who : Nat) (x : Trap) (slot : Nat) (pc : Word) : s.SameService (s.struck who x slot pc) :=
  ((State.dropPreload_service who pc).trans (State.rollback_service who)).trans (State.modCtx_service ..)
theorem State.struck_mem (who : Nat) (x : Trap) (slot : Nat) (pc : Word) :
    (s.struck who x slot pc).mem = Memory.putImages (s.winBase who) (s.ctx who).undo s.mem := by
  rw [State.struck, State.modCtx_mem, State.rollback_mem_eq, State.dropPreload_winBase, State.dropPreload_ctx, State.dropPreload_mem]
theorem State.struck_priv (who : Nat) (x : Trap) (slot : Nat) (pc : Word) : ((s.struck who x slot pc).ctx who).priv = (s.ctx who).priv := by
  obtain ⟨i, l, h⟩ := State.struck_ctx (s := s) who x slot pc
  rw [h]
  rfl
/-- At level 0, a kind that does not end the work enters the handler. -/
theorem State.takeTrap_enters {who : Nat} {x : Trap} (slot : Nat) (pc : Word) (hfw : isFw who = false) (hp : (s.ctx who).priv = 0)
    (h21 : x.kind ≠ 21) (h22 : x.kind ≠ 22) :
    s.takeTrap who x slot pc = (s.struck who x slot pc).modCtx who fun c => c.enter x (srnPlace who) := by
  have hkind : (decide (x.kind = 21) || decide (x.kind = 22)) = false := by simp [h21, h22]
  have hpriv := (State.struck_priv (s := s) who x slot pc).trans hp
  unfold State.takeTrap
  simp only [hfw, Bool.false_eq_true, if_false, hkind]
  exact if_pos hpriv
/-- A splice-map trap cuts the chain of its die. -/
def State.chainCut (s : State) (who : Nat) (x : Trap) (n : Option Nat) : State :=
  if x.kind = 22 then s.modDie (((s.ctx who).inst.map fun i => i.die).getD 0) fun d => (n.map fun n => d.cutChain n).getD d else s
theorem State.chainCut_ctx (who : Nat) (x : Trap) (n : Option Nat) (w : Nat) : (s.chainCut who x n).ctx w = s.ctx w := by
  unfold State.chainCut
  split
  · exact State.ctx_modDie ..
  · rfl
/-- A fault in the handler holds the context. -/
def State.heldBack (s : State) (who : Nat) : State := if (s.ctx who).priv = 0 then s else s.modCtx who fun c => { c with hold := true }
/-- What a trap that ends a context's work does first. -/
def State.doomed (s : State) (who : Nat) (x : Trap) (slot : Nat) (pc : Word) : State :=
  ((s.struck who x slot pc).chainCut who x (s.faultSlot who pc)).heldBack who
theorem State.takeTrap_ends {who : Nat} {x : Trap} (slot : Nat) (pc : Word) (hfw : isFw who = false)
    (h : (s.ctx who).priv ≠ 0 ∨ x.kind = 21 ∨ x.kind = 22) : s.takeTrap who x slot pc =
      (((s.doomed who x slot pc).endInst who (some (x.kind, x.cause)) (s.faultSlot who pc)).elect (coreOf who)).hwEvent 3
        (eventSrc (coreOf who)) (ctxOf who) := by
  by_cases hk : x.kind = 21 ∨ x.kind = 22
  · unfold State.takeTrap
    simp only [hfw, Bool.false_eq_true, if_false]
    refine (if_pos (by simpa using hk)).trans ?_
    rfl
  · have hp : (s.ctx who).priv ≠ 0 := h.resolve_right hk
    have hpriv : ¬ ((s.struck who x slot pc).ctx who).priv = 0 := by rwa [State.struck_priv]
    have hdoomed : s.doomed who x slot pc = (s.struck who x slot pc).modCtx who fun c => { c with hold := true } := by
      rw [State.doomed, State.chainCut, if_neg fun h22 => hk (.inr h22), State.heldBack, if_neg hpriv]
    rw [hdoomed]
    unfold State.takeTrap
    simp only [hfw, Bool.false_eq_true, if_false]
    refine (if_neg (by simpa using hk)).trans ((if_neg hpriv).trans ?_)
    rfl
theorem State.doomed_ctx (who : Nat) (x : Trap) (slot : Nat) (pc : Word) :
    ((s.doomed who x slot pc).ctx who).hold = ((s.ctx who).hold || decide ((s.ctx who).priv ≠ 0)) ∧
    ((s.doomed who x slot pc).ctx who).flt = s.record who x slot pc := by
  obtain ⟨i, l, h⟩ := State.struck_ctx (s := s) who x slot pc
  have hpriv := State.struck_priv (s := s) who x slot pc
  rw [State.doomed, State.heldBack, State.chainCut_ctx, hpriv]
  by_cases hp : (s.ctx who).priv = 0
  · rw [if_pos hp, State.chainCut_ctx, h]
    exact ⟨by simp [hp, Ctx.rollback], rfl⟩
  · rw [if_neg hp, State.ctx_modCtx, State.chainCut_ctx, h]
    exact ⟨by rw [decide_eq_true hp, Bool.or_true], rfl⟩
@[simp] theorem State.hwEvent_ctx (kind src arg w : Nat) : (s.hwEvent kind src arg).ctx w = s.ctx w := by
  rw [State.ctx, (State.hwEvent_rest kind src arg).2.1, ← State.ctx]
theorem State.takeTrap_firmware {who : Nat} (x : Trap) (slot : Nat) (pc : Word) (hfw : isFw who = true) :
    (s.takeTrap who x slot pc).ctx who = ((s.rollback who).ctx who).fwTrap x pc := by
  rw [State.takeTrap, if_pos hfw]
  dsimp only
  split
  · rw [State.hwEvent_ctx, State.ctx_modCtx]
  · rw [State.ctx_modCtx]
theorem Ctl.sget_handler (c : Ctl) (a b pc : Word) (n : Nat) : ({ (c.sset 62 a).sset 63 b with pc := pc } : Ctl).sget n =
    if n = 63 then b else if n = 62 then a else c.sget n := by
  refine (Ctl.sget_sset (c.sset 62 a) 63 n b).trans ?_
  rw [Ctl.sget_sset]
  simp
theorem eventHigh_core {who kind : Nat} (hfw : isFw who = false) (hk : kind < 255) : eventHigh kind (eventSrc (coreOf who)) (ctxOf who) < 2 ^ 32 := by
  have hw : who < 1024 := by simpa [isFw] using hfw
  simp only [eventHigh, eventSrc, coreOf, hfw, dieOf, rowOf, rankOf, Bool.false_eq_true, if_false]
  omega

/-- Settles O54: the rollback's context, entered, ended or handed to the firmware core's own handler. -/
theorem trapEntry : Obligations.TrapEntry := by
  unfold Obligations.TrapEntry
  refine ⟨fun who x slot pc s hfw => ⟨fun hp h21 h22 => ?_, fun h => ?_⟩, fun who x slot pc s hfw => ?_⟩
  · obtain ⟨i, l, hc⟩ := State.struck_ctx (s := s) who x slot pc
    have hd := State.ctx_modCtx (s.struck who x slot pc) who fun c => c.enter x (srnPlace who)
    rw [hc] at hd
    obtain ⟨hkeyed, hbad, hsvc⟩ := (State.struck_service (s := s) who x slot pc).trans (State.modCtx_service who fun c => c.enter x (srnPlace who))
    have hmem := (State.modCtx_mem (s := s.struck who x slot pc) who fun c => c.enter x (srnPlace who)).trans (State.struck_mem who x slot pc)
    rw [State.takeTrap_enters slot pc hfw hp h21 h22, hd]
    refine ⟨rfl, rfl, rfl, rfl, rfl, ?_, ?_, rfl, rfl, fun n h62 h63 => ?_, rfl, rfl,
      rfl, rfl, rfl, rfl, rfl, rfl, rfl, rfl, ?_, fun hplain => ?_, fun w hw => ?_, hkeyed, hbad, hsvc,
      fun hinv hnodup => ⟨fun b hb => ?_, fun a ha => ?_⟩⟩
    · exact Ctl.sget_handler ..
    · exact Ctl.sget_handler ..
    · refine (Ctl.sget_handler ..).trans ?_
      rw [if_neg h63, if_neg h62]
      rfl
    · exact State.record_addr ..
    · exact State.record_plain x slot hplain
    · rw [State.ctx_modCtx_ne _ _ hw, State.struck_ctx_ne _ _ _ hw]
    · exact (congrArg (Memory.read · _ 512) hmem).trans (Memory.read_putImages _ _ hinv hnodup b hb)
    · exact (congrArg (Memory.byte · a) hmem).trans (Memory.byte_putImages _ _ _ _ ha)
  · obtain ⟨hhold, hflt⟩ := State.doomed_ctx (s := s) who x slot pc
    obtain ⟨hinst, hhold', hflt'⟩ := State.endInst_left (s := s.doomed who x slot pc) who (some (x.kind, x.cause)) (s.faultSlot who pc)
    rw [State.takeTrap_ends slot pc hfw h, State.hwEvent_ctx, State.elect_ctx]
    refine ⟨hhold'.trans hhold, hinst, fun hplain => ?_, State.hwEvent_waits _ _ _ (eventHigh_core hfw (by decide))⟩
    rw [hflt', hflt]
    exact (State.record_plain x slot hplain).1
  · obtain ⟨hctl, htrapped, hservice, hqueues, hfly⟩ := State.rollback_left (s := s) who
    rw [State.takeTrap_firmware x slot pc hfw]
    generalize (s.rollback who).ctx who = r at *
    refine ⟨fun hfirst => ?_, fun hagain => ?_⟩
    · rw [Ctx.fwTrap, if_neg (by rw [htrapped, hfirst]; decide), ← hctl]
      refine ⟨rfl, hservice, rfl, ?_, ?_, fun n h62 h63 => ?_, rfl, hqueues, hfly⟩
      · exact Ctl.sget_handler ..
      · exact Ctl.sget_handler ..
      · refine (Ctl.sget_handler ..).trans ?_
        rw [if_neg h63, if_neg h62]
    · rw [Ctx.fwTrap, if_pos (htrapped.trans hagain)]
end Sys2Proof.Machine
end

section
/-! Bundles that dispatch, ring operations that fire and row broadcasts that go out (R22, R25, R27, R28, R31, R65, R110 to R113). -/

namespace Sys2Proof.Machine

variable {s : State}

/-! ## What joins the slot queues -/

theorem Slot.num_inj {a b : Slot} (h : a.num = b.num) : a = b := by
  cases a <;> cases b <;> simp_all [Slot.num]
theorem Ctx.q_setQ (c : Ctx) (a b : Slot) (l : List Ent) : (c.setQ a l).q b = if b = a then l else c.q b := by
  by_cases h : b = a
  · rw [if_pos h, h]
    exact aget_aset_self ..
  · rw [if_neg h]
    exact aget_aset_ne _ _ _ fun hn => h (Slot.num_inj hn)
theorem Ctx.enqueue_q (c : Ctx) (sl : Slot) (l : List (Slot × Ent)) : (c.enqueue l).q sl = c.q sl ++ (l.filter fun p => p.1 == sl).map (·.2) := by
  induction l generalizing c with
  | nil => simp [Ctx.enqueue]
  | cons p l ih =>
    refine (ih _).trans ?_
    rw [Ctx.q_setQ]
    by_cases h : p.1 = sl
    · simp [h]
    · simp [h, Ne.symm h]
/-- What joins the queues changes nothing else of a context. -/
theorem Ctx.enqueue_rest (c : Ctx) (l : List (Slot × Ent)) : c.enqueue l = { c with queues := (c.enqueue l).queues } := by
  induction l generalizing c with
  | nil => rfl
  | cons p l ih => exact ih (c.setQ p.1 (c.q p.1 ++ [p.2]))
theorem Ctx.enqueue_ctl (c : Ctx) (l : List (Slot × Ent)) : (c.enqueue l).ctl = c.ctl := by rw [Ctx.enqueue_rest]
/-- The end of a bundle touches neither its queues, its next bundle nor its count. -/
theorem Ctx.close_rest (c : Ctx) (stop ckpt : Bool) : (c.close stop ckpt).queues = c.queues ∧ (c.close stop ckpt).ctl.pc = c.ctl.pc ∧
    (c.close stop ckpt).bundles = c.bundles ∧ (c.close stop ckpt).ctl.s = c.ctl.s ∧ (c.close stop ckpt).split = c.split := by
  unfold Ctx.close
  dsimp only
  split <;> exact ⟨rfl, rfl, rfl, rfl, rfl⟩
theorem State.ticked_ctx (who : Nat) (occ : BitVec 8) (stop : Bool) (grp v : Nat) : (s.ticked who occ stop grp).ctx v = s.ctx v := by
  unfold State.ticked
  dsimp only
  split <;> rfl
/-- With each kind of unit bound in full, no slot of a bundle waits for another's unit. -/
theorem Core.shares_bound {k : Core} (h : k.bind = 0xA) (sl : Slot) (l : List DOp) : k.shares sl l = false := by
  unfold Core.shares
  rw [h]
  split <;> simp
theorem State.ghostOf_plain {who : Nat} {c : Ctx} (h : (s.ctx who).splId = none) : s.ghostOf who c = [] := by
  simp only [State.ghostOf, State.spliceEntry, h]

/-! ## A whole bundle -/

/-- The queue entries of a bundle's operations. -/
def entsOf (l : List DOp) : List (Slot × Ent) := l.map fun d => (d.sl, d.ent)
/-- A bundle holds an operation that cannot be undone. -/
def undoless (l : List DOp) : Bool := l.any fun d => match d.op with | some i => isIrrev i | none => false
/-- A context with a bundle's entries in its queues, before the bundle's end. -/
def Ctx.opened (c : Ctx) (l : List DOp) (foots : List Foot) (sridx : BitVec 32) : Ctx :=
  { c.enqueue (entsOf l) with
      ctl := { (c.enqueue (entsOf l)).ctl with pc := c.ctl.pc + 1, seq := c.ctl.seq + 1, sridx := sridx },
      foots := c.foots ++ foots, bundles := c.bundles + 1, idle := 0,
      irrev := if undoless l then some c.ctl.seq else c.irrev, acted := if undoless l then 0 else c.acted,
      wins := c.wins.map fun w => { w with left := w.left - 1 }, split := none }
/-- A context whose bundle enters the queues in one tick. -/
def Ctx.taken (c : Ctx) (b : Bundle) (l : List DOp) (foots : List Foot) (sridx : BitVec 32) : Ctx :=
  (c.opened l foots sridx).close b.stop (b.ckpt || undoless l)
theorem State.enter_ctx {who : Nat} (b : Bundle) (l : List DOp) (sridx : BitVec 32) (hbind : (s.core (coreOf who)).bind = 0xA)
    (hplain : (s.ctx who).splId = none) : (s.enter who b l sridx).ctx who =
      (s.ctx who).taken b l (l.filterMap fun d => d.op.map (s.foot who d)) sridx := by
  have hlate : (l.filter fun d => (s.core (coreOf who)).shares d.sl l) = [] := by
    simp [Core.shares_bound hbind]
  have hfirst : (l.filter fun d => !(s.core (coreOf who)).shares d.sl l) = l := by
    simp [Core.shares_bound hbind]
  simp only [State.enter, State.ticked_ctx, State.ctx_modCore, State.ctx_setCtx, hlate, hfirst, State.ghostOf_plain hplain, List.append_nil,
    List.isEmpty_nil, if_true]
  rfl
theorem State.enter_ctx_ne {who v : Nat} (b : Bundle) (l : List DOp) (sridx : BitVec 32) (h : v ≠ who) :
    (s.enter who b l sridx).ctx v = s.ctx v := by
  simp only [State.enter, State.ticked_ctx, State.ctx_modCore, State.ctx_setCtx_ne _ _ h]
theorem Ctx.taken_left (c : Ctx) (b : Bundle) (l : List DOp) (foots : List Foot) (sridx : BitVec 32) :
    (∀ sl, (c.taken b l foots sridx).q sl = c.q sl ++ ((entsOf l).filter fun p => p.1 == sl).map (·.2)) ∧
    (c.taken b l foots sridx).ctl.pc = c.ctl.pc + 1 ∧ (c.taken b l foots sridx).bundles = c.bundles + 1 ∧
    (c.taken b l foots sridx).ctl.s = c.ctl.s := by
  obtain ⟨hq, hpc, hbundles, hs, -⟩ := (c.opened l foots sridx).close_rest b.stop (b.ckpt || undoless l)
  refine ⟨fun sl => ?_, hpc, hbundles, ?_⟩
  · exact (congrArg (aget [] · sl.num) hq).trans (c.enqueue_q sl (entsOf l))
  · have hctl : (c.enqueue (entsOf l)).ctl.s = c.ctl.s := congrArg Ctl.s (c.enqueue_ctl (entsOf l))
    exact hs.trans hctl
/-- A context before its bundle's checks: with no group open, the index bases that its names read are the present ones. -/
def State.readied (s : State) (who : Nat) : State :=
  s.modCtx who fun c => if c.foots.isEmpty then { c with ctl := { c.ctl with ibf := c.ctl.ib } } else c
theorem State.readied_ctx (who : Nat) : ∃ ibf, (s.readied who).ctx who = { s.ctx who with ctl := { (s.ctx who).ctl with ibf := ibf } } := by
  rw [State.readied, State.ctx_modCtx]
  by_cases h : (s.ctx who).foots.isEmpty = true
  · exact ⟨_, if_pos h⟩
  · exact ⟨(s.ctx who).ctl.ibf, if_neg h⟩
theorem State.claimCode_ctxs (who n : Nat) : (s.claimCode who n).ctxs = s.ctxs := by
  unfold State.claimCode
  dsimp only
  split
  · rfl
  · split
    · split <;> rfl
    · rfl
@[simp] theorem State.claimCode_ctx (who n v : Nat) : (s.claimCode who n).ctx v = s.ctx v := by
  rw [State.ctx, State.claimCode_ctxs, ← State.ctx]
@[simp] theorem State.claimCode_core (who n k : Nat) : (s.claimCode who n).core k = s.core k := by
  unfold State.claimCode
  dsimp only
  split
  · rfl
  · split
    · split <;> rfl
    · rfl
/-- With no checkpoint to release first, the bundle's checks decide. -/
theorem State.dispatch_checks {who : Nat} {b : Bundle} (hnow : ((s.ctx who).bracket ((s.ctx who).opsOf b).1).2 = false) :
    s.dispatch who b = match (s.readied who).verdict who b (((s.readied who).ctx who).opsOf b).1 with
      | some (t, k) => (s.readied who).takeTrap who t k (s.ctx who).ctl.pc
      | none => (s.readied who).enter who b (((s.readied who).ctx who).opsOf b).1 (((s.readied who).ctx who).opsOf b).2 := by
  unfold State.dispatch
  dsimp only
  rw [hnow]
  rfl
theorem execBundleDispatch_turn {bits : BitVec 512} (hsplit : s.me.split = none) (hturn : s.turn s.cur.who (splitBundle bits) = true) :
    execBundleDispatch bits s = .next ((s.claimCode s.cur.who s.me.ctl.pc.toNat).dispatch s.cur.who (splitBundle bits)) := by
  have hs : (s.ctx s.cur.who).split = none := hsplit
  simp only [execBundleDispatch, hs, hturn, if_true]
  rfl
theorem execBundleDispatch_half {bits : BitVec 512} {p : Split} (hsplit : s.me.split = some p)
    (htick : ∀ x ∈ (s.core (coreOf s.cur.who)).tick, x.1 ≠ ctxOf s.cur.who) (hbeside : s.beside s.cur.who p.occ p.stop = true) :
    execBundleDispatch bits s = .next (s.secondHalf s.cur.who p) := by
  have hs : (s.ctx s.cur.who).split = some p := hsplit
  have hno : ((s.core (coreOf s.cur.who)).tick.any fun t => t.1 == ctxOf s.cur.who) = false :=
    List.any_eq_false.2 fun x hx => by simpa using htick x hx
  simp only [execBundleDispatch, hs, hno, hbeside, Bool.not_true, Bool.or_self, Bool.false_eq_true, if_false]
theorem State.secondHalf_ctx (who : Nat) (p : Split) :
    (s.secondHalf who p).ctx who = (({ s.ctx who with split := none } : Ctx).enqueue p.ents).close p.stop p.ckpt := by
  rw [State.secondHalf, State.ticked_ctx, State.ctx_modCtx]
theorem State.secondHalf_left (who : Nat) (p : Split) :
    (∀ sl, ((s.secondHalf who p).ctx who).q sl = (s.ctx who).q sl ++ (p.ents.filter fun e => e.1 == sl).map (·.2)) ∧
    ((s.secondHalf who p).ctx who).split = none ∧ ((s.secondHalf who p).ctx who).ctl.pc = (s.ctx who).ctl.pc := by
  rw [State.secondHalf_ctx]
  obtain ⟨hq, hpc, -, -, hsplit⟩ := (({ s.ctx who with split := none } : Ctx).enqueue p.ents).close_rest p.stop p.ckpt
  refine ⟨fun sl => (congrArg (aget [] · sl.num) hq).trans (Ctx.enqueue_q _ sl p.ents), hsplit.trans ?_, hpc.trans ?_⟩
  · rw [Ctx.enqueue_rest]
  · rw [Ctx.enqueue_ctl]

/-! ## Operations on rings -/

/-- What the sequencing of ring operations performs is the operation itself. -/
theorem issueRing_exec {i : Instr} {s : State} (h : (issueRing i s).isSome = true) (t : State) : issueRing i t = some (exec i t) := by
  unfold issueRing at h ⊢
  split
  case h_24 => simp_all
  all_goals rfl
theorem State.postV_ring (left : Nat) (vw : View) (f : BitVec 11) (x core n : Nat) : (s.postV left vw f x).ring core n = s.ring core n := rfl
theorem execRpop_filled (g : Guard) (z : BitVec 2) (rg : BitVec 11) {rn : BitVec 6} (h : s.filled rn.toNat = true) :
    ∃ v, execRpop g z rg rn s = .next v ∧
      v.ring (coreOf s.cur.who) rn.toNat = ((s.ring (coreOf s.cur.who) rn.toNat).pop 1 true).credit 1 0 true := by
  have hpop := State.ring_modRing s (coreOf s.cur.who) rn.toNat fun r => (r.pop 1 true).credit 1 0 true
  simp only [execRpop, h, Bool.not_true, Bool.false_eq_true, if_false]
  refine ⟨_, rfl, ?_⟩
  split
  · exact (State.postV_ring ..).trans hpop
  · exact hpop
theorem State.issuing_ring (who : Nat) (sl : Slot) (e : Ent) (core n : Nat) : (s.issuing who sl e).ring core n = s.ring core n := by
  have hcores : (s.issuing who sl e).cores = (s.modCore (coreOf who) fun k => { k with issued := k.issued ++ [k.unit sl] }).cores := rfl
  rw [State.ring, State.core, hcores]
  exact State.ring_modCore (f := fun k => { k with issued := k.issued ++ [k.unit sl] }) rfl core n
/-- An `rpop` that issues with a slot published at the start of the tick takes it. -/
theorem rpop_issuing {who : Nat} (sl : Slot) (e : Ent) (g : Guard) (z : BitVec 2) (rg : BitVec 11) {rn : BitVec 6}
    (hen : (s.ring (coreOf who) rn.toNat).en = true) (hfill : 1 + (s.ring (coreOf who) rn.toNat).tPop ≤ (s.ring (coreOf who) rn.toNat).old.filled) :
    ∃ v, exec (.rpop g z rg rn) (s.issuing who sl e) = .next v ∧
      v.ring (coreOf who) rn.toNat = ((s.ring (coreOf who) rn.toNat).pop 1 true).credit 1 0 true := by
  have hring := State.issuing_ring (s := s) who sl e (coreOf who) rn.toNat
  have hfilled : (s.issuing who sl e).filled rn.toNat = true := by
    change ((s.issuing who sl e).ring (coreOf who) rn.toNat).canPop 1 = true
    rw [hring, Ring.canPop, hen, decide_eq_true hfill, Bool.and_self]
  obtain ⟨v, hv, hr⟩ := execRpop_filled g z rg hfilled
  exact ⟨v, hv, hr.trans (congrArg (fun r : Ring => (r.pop 1 true).credit 1 0 true) hring)⟩
theorem execOperationFires_unblocked {who : Nat} {sl : Slot} {e : Ent} {r : List Ent} {i : Instr} (hq : (s.ctx who).q sl = e :: r)
    (hop : e.opIn sl = some i) (hring : (issueRing i s).isSome = true) (hblk : (s.ctx who).blk = none) (hissue : s.mayIssue who sl e i = true) :
    execOperationFires who sl s = exec i (s.issuing who sl e) := by
  simp only [execOperationFires, hq, hop, hblk, hissue, if_true, issueRing_exec hring, Option.getD_some]
theorem execOperationFires_blocked {who : Nat} {sl : Slot} {e : Ent} {r : List Ent} {i : Instr} {b : Blk} (hq : (s.ctx who).q sl = e :: r)
    (hop : e.opIn sl = some i) (hring : (issueRing i s).isSome = true) (hblk : (s.ctx who).blk = some b) (hsl : (s.ctx who).blkSl = sl.num)
    (hclear : s.blockClear who b = true)
    (hissue : ((s.modCtx who fun c => { c with blk := none }).elect (coreOf who)).mayIssue who sl e i = true) :
    execOperationFires who sl s = exec i (((s.modCtx who fun c => { c with blk := none }).elect (coreOf who)).issuing who sl e) := by
  simp only [execOperationFires, hq, hop, hblk, hsl, hclear, hissue, bne_self_eq_false, Bool.not_true, Bool.or_self, Bool.false_eq_true, if_false,
    if_true, issueRing_exec hring, Option.getD_some]

/-! ## The row sequencer -/

/-- The bundles of a row that no skew holds back, and what is left of the sequencer's list. -/
def Bcast.dueFor (b : Bcast) (k : Nat) : List (Word × BitVec 512) :=
  (b.todo.filter fun e => e.2.2.2 == 0 && e.1 == k).map fun e => (e.2.1, e.2.2.1)
/-- One bundle is put at the end of its core's broadcast buffer. -/
def State.delivered (s : State) (row : Nat) (t : Nat × Word × BitVec 512 × Nat) : State :=
  s.modCore (row * 16 + t.1) fun c => { c with bbuf := c.bbuf ++ [(t.2.1, t.2.2.1)] }
theorem State.delivered_bbuf (row : Nat) (t : Nat × Word × BitVec 512 × Nat) (k : Nat) : ((s.delivered row t).core (row * 16 + k)).bbuf =
    (s.core (row * 16 + k)).bbuf ++ if t.1 = k then [(t.2.1, t.2.2.1)] else [] := by
  by_cases h : t.1 = k
  · rw [State.delivered, h, State.core_modCore, if_pos rfl]
  · rw [State.delivered, State.core_modCore_ne _ _ (by omega), if_neg h, List.append_nil]
theorem State.foldl_delivered_bbuf (row k : Nat) (l : List (Nat × Word × BitVec 512 × Nat)) (s : State) :
    ((l.foldl (fun s t => s.delivered row t) s).core (row * 16 + k)).bbuf =
      (s.core (row * 16 + k)).bbuf ++ (l.filter fun e => e.1 == k).map fun e => (e.2.1, e.2.2.1) := by
  induction l generalizing s with
  | nil => simp
  | cons t l ih =>
    refine (ih _).trans ?_
    rw [State.delivered_bbuf]
    by_cases h : t.1 = k <;> simp [h]
theorem State.bcastLand_some {row : Nat} {b : Bcast} (h : (s.row row).bcast = some b) : s.bcastLand row =
    (b.todo.filter fun t => t.2.2.2 == 0).foldl (fun s t => s.delivered row t)
      (s.setRow row { s.row row with bcast := some { b with todo := b.todo.filter fun t => t.2.2.2 != 0 } }) := by
  rw [State.bcastLand, h]
  rfl
/-- What lands of a row's broadcast `b`. -/
theorem State.bcastLand_lands {row : Nat} {b : Bcast} (h : (s.row row).bcast = some b) :
    ((s.bcastLand row).row row).bcast = some { b with todo := b.todo.filter fun e => e.2.2.2 != 0 } ∧
    (∀ k, ((s.bcastLand row).core (row * 16 + k)).bbuf = (s.core (row * 16 + k)).bbuf ++ b.dueFor k) ∧
    (s.bcastLand row).ctxs = s.ctxs := by
  rw [State.bcastLand_some h]
  refine ⟨?_, fun k => ?_, ?_⟩
  · rw [foldl_keeps (p := fun s : State => s.row row) (f := fun s t => s.delivered row t) (fun _ _ => rfl), State.row_setRow]
  · rw [State.foldl_delivered_bbuf, List.filter_filter, Bcast.dueFor]
    refine congrArg₂ _ rfl (congrArg (List.map _) (List.filter_congr fun e _ => Bool.and_comm ..))
  · exact foldl_keeps (p := State.ctxs) (f := fun s t => s.delivered row t) (fun _ _ => rfl) _ _
/-- A sequencer that is not stalled stays where it is. -/
theorem State.unstall_running {row : Nat} {b : Bcast} (h : b.stall = false) : s.unstall row b = b := by
  unfold State.unstall
  split
  · rfl
  · simp [h]
theorem State.bcastFetch_next {row rank : Nat} {r : List Nat} {b : Bcast} {i : Inst} {v : BitVec 512} (hr : b.ranks = rank :: r)
    (hstall : b.stall = false) (hroom : s.bcastRoom row b = true) (hinst : (s.ctx ((row * 16 + rank) * 4)).inst = some i)
    (hpc : (b.pc - i.first).toNat < i.nb) (hv : s.codeAt (row * 16 + rank) i.part b.pc.toNat = .ok v) : s.bcastFetch row b =
      some { b with pc := b.pc + 1, stall := turns v, todo := b.todo ++ b.ranks.map fun r => (r, b.pc, v, r * b.skew) } := by
  unfold State.bcastFetch
  simp only [hr, hinst, hstall, hroom, decide_eq_false (Nat.not_le.2 hpc), hv, Bool.not_true, Bool.or_self, Bool.false_eq_true, if_false]

/-- A row's broadcast as it lands, whichever rank the sequencer is asked for. -/
def State.LandsAs (s t : State) (row : Nat) (x : Bcast) : Prop :=
  (t.row row).bcast = some { x with todo := x.todo.filter fun e => e.2.2.2 != 0 } ∧
  (∀ k, (t.core (row * 16 + k)).bbuf = (s.core (row * 16 + k)).bbuf ++ x.dueFor k) ∧ t.ctxs = s.ctxs ∧ t.mem = s.mem
theorem execBroadcastDelivery_other {row rank : Nat} {b : Bcast} (hb : (s.row row).bcast = some b) (hrank : b.ranks.head? ≠ some rank) :
    ∃ t, execBroadcastDelivery row rank s = .next t ∧ s.LandsAs t row b := by
  obtain ⟨hbcast, hbuf, hctxs⟩ := State.bcastLand_lands hb
  refine ⟨s.bcastLand row, ?_, hbcast, hbuf, hctxs, State.bcastLand_mem row⟩
  simp only [execBroadcastDelivery, hb]
  exact congrArg Host.Outcome.next (if_pos (by simpa using hrank))
theorem execBroadcastDelivery_first {row rank : Nat} {r : List Nat} {b x : Bcast} (hb : (s.row row).bcast = some b) (hr : b.ranks = rank :: r)
    (hstall : b.stall = false) (hx : s.bcastFetch row b = some x) : ∃ t, execBroadcastDelivery row rank s = .next t ∧ s.LandsAs t row x := by
  obtain ⟨hbcast, hbuf, hctxs⟩ := State.bcastLand_lands (s := s.setRow row { s.row row with bcast := some x }) (row := row) (b := x)
    (by rw [State.row_setRow])
  refine ⟨(s.setRow row { s.row row with bcast := some x }).bcastLand row, ?_, hbcast, hbuf, hctxs, State.bcastLand_mem row⟩
  simp only [execBroadcastDelivery, hb, hr, List.head?_cons, bne_self_eq_false, Bool.false_eq_true, if_false, State.unstall_running hstall, hx]

/-- What dispatch does with a bundle that fails a check, and with one that passes them all. -/
theorem execBundleDispatch_traps {bits : BitVec 512} {tr : Trap} {k : Nat} (hsplit : s.me.split = none)
    (hturn : s.turn s.cur.who (splitBundle bits) = true)
    (hnow : (s.me.bracket (s.me.opsOf (splitBundle bits)).1).2 = false)
    (hbad : ((s.claimCode s.cur.who s.me.ctl.pc.toNat).readied s.cur.who).verdict s.cur.who (splitBundle bits)
      ((((s.claimCode s.cur.who s.me.ctl.pc.toNat).readied s.cur.who).ctx s.cur.who).opsOf (splitBundle bits)).1 = some (tr, k)) :
    execBundleDispatch bits s = .next (((s.claimCode s.cur.who s.me.ctl.pc.toNat).readied s.cur.who).takeTrap s.cur.who tr k s.me.ctl.pc) := by
  rw [execBundleDispatch_turn hsplit hturn, State.dispatch_checks (by rw [State.claimCode_ctx]; exact hnow), hbad, State.claimCode_ctx]
  rfl
theorem execBundleDispatch_enters {bits : BitVec 512} (hsplit : s.me.split = none)
    (hturn : s.turn s.cur.who (splitBundle bits) = true)
    (hnow : (s.me.bracket (s.me.opsOf (splitBundle bits)).1).2 = false)
    (hok : ((s.claimCode s.cur.who s.me.ctl.pc.toNat).readied s.cur.who).verdict s.cur.who (splitBundle bits)
      ((((s.claimCode s.cur.who s.me.ctl.pc.toNat).readied s.cur.who).ctx s.cur.who).opsOf (splitBundle bits)).1 = none) :
    ∃ ix, execBundleDispatch bits s = .next (((s.claimCode s.cur.who s.me.ctl.pc.toNat).readied s.cur.who).enter s.cur.who (splitBundle bits)
      ((((s.claimCode s.cur.who s.me.ctl.pc.toNat).readied s.cur.who).ctx s.cur.who).opsOf (splitBundle bits)).1 ix) :=
  ⟨_, by rw [execBundleDispatch_turn hsplit hturn, State.dispatch_checks (by rw [State.claimCode_ctx]; exact hnow), hok]⟩
/-- A whole bundle that enters the queues of a context with full units. -/
theorem State.enter_left {who : Nat} (b : Bundle) (l : List DOp) (sridx : BitVec 32) (hbind : (s.core (coreOf who)).bind = 0xA)
    (hplain : (s.ctx who).splId = none) :
    (∀ sl, ((s.enter who b l sridx).ctx who).q sl = (s.ctx who).q sl ++ ((entsOf l).filter fun p => p.1 == sl).map (·.2)) ∧
    ((s.enter who b l sridx).ctx who).ctl.pc = (s.ctx who).ctl.pc + 1 ∧ ((s.enter who b l sridx).ctx who).bundles = (s.ctx who).bundles + 1 ∧
    ((s.enter who b l sridx).ctx who).ctl.s = (s.ctx who).ctl.s := by
  rw [State.enter_ctx b l sridx hbind hplain]
  exact Ctx.taken_left ..
/-- What readying a context leaves as it was. -/
theorem State.readied_left (who : Nat) : (∀ sl, ((s.readied who).ctx who).q sl = (s.ctx who).q sl) ∧
    ((s.readied who).ctx who).ctl.pc = (s.ctx who).ctl.pc ∧ ((s.readied who).ctx who).bundles = (s.ctx who).bundles ∧
    ((s.readied who).ctx who).ctl.s = (s.ctx who).ctl.s ∧ ((s.readied who).ctx who).splId = (s.ctx who).splId := by
  obtain ⟨ibf, h⟩ := State.readied_ctx (s := s) who
  rw [h]
  exact ⟨fun _ => rfl, rfl, rfl, rfl, rfl⟩

/-- Settles O45: dispatch by the bundle's verdict, ring operations by their issue, broadcasts by what lands. -/
theorem bundlesDispatchAndFire : Obligations.BundlesDispatchAndFire := by
  unfold Obligations.BundlesDispatchAndFire
  refine ⟨fun bits s => ⟨fun hsplit hturn hnow => ?_, fun p hsplit htick hbeside => ?_⟩, fun who sl e r i s hq hop hring => ⟨fun hblk hissue => ?_,
    fun b hblk hsl hclear => ?_⟩, fun row rank b s hb => ⟨fun hrank => ?_, fun r i v hr hstall hroom hinst hpc hv => ?_⟩⟩
  · intro u l
    refine ⟨fun tr k hbad => execBundleDispatch_traps hsplit hturn hnow hbad, fun hok hbind hspl => ?_⟩
    obtain ⟨ix, hexec⟩ := execBundleDispatch_enters hsplit hturn hnow hok
    obtain ⟨hq, hpc, hbundles, hs, hsplId⟩ := State.readied_left (s := s.claimCode s.cur.who s.me.ctl.pc.toNat) s.cur.who
    rw [State.claimCode_ctx] at hq hpc hbundles hs hsplId
    obtain ⟨hq', hpc', hbundles', hs'⟩ := State.enter_left (s := u) (who := s.cur.who) (splitBundle bits) l ix
      (by rw [State.core_modCtx, State.claimCode_core]; exact hbind) (hsplId.trans hspl)
    refine ⟨_, hexec, fun sl => ?_, ?_, ?_, hs'.trans hs, fun v hv => ?_, ?_⟩
    · exact (hq' sl).trans (congrArg (· ++ ((entsOf l).filter fun p => p.1 == sl).map (·.2)) (hq sl))
    · exact hpc'.trans (congrArg (· + 1) hpc)
    · exact hbundles'.trans (congrArg (· + 1) hbundles)
    · rw [State.enter_ctx_ne _ _ _ hv, State.readied, State.ctx_modCtx_ne _ _ hv, State.claimCode_ctx]
    · rw [State.enter_mem, State.readied, State.modCtx_mem, State.claimCode_mem]
  · obtain ⟨hq, hs, hpc⟩ := State.secondHalf_left (s := s) s.cur.who p
    exact ⟨_, execBundleDispatch_half hsplit htick hbeside, hq, hs, hpc, State.secondHalf_mem ..⟩
  · refine ⟨execOperationFires_unblocked hq hop hring hblk hissue, fun g z rg rn hi hen hfill => ?_⟩
    obtain ⟨v, hv, hr⟩ := rpop_issuing sl e g z rg hen hfill
    exact ⟨v, (execOperationFires_unblocked hq hop hring hblk hissue).trans (hi ▸ hv), hr⟩
  · intro t hissue
    refine ⟨execOperationFires_blocked hq hop hring hblk hsl hclear hissue, fun g z rg rn hi hen hfill => ?_⟩
    obtain ⟨v, hv, hr⟩ := rpop_issuing sl e g z rg hen hfill
    exact ⟨v, (execOperationFires_blocked hq hop hring hblk hsl hclear hissue).trans (hi ▸ hv), hr⟩
  · exact execBroadcastDelivery_other hb hrank
  · exact execBroadcastDelivery_first hb hr hstall (State.bcastFetch_next hr hstall hroom hinst hpc hv)
end Sys2Proof.Machine
end

section
/-! How a context's work starts and ends, stops and goes on, and what a core preloads (R20, R23, R38, R131, R289, R331, R335 to R337). -/

namespace Sys2Proof.Machine

variable {s : State}

/-! ## A task that stands alone -/

theorem Die.segment_alone {d : Die} {slot : Nat} (h : (d.task slot).chain = none) : d.segment slot = [slot] := by
  simp only [Die.segment, h, Option.isNone_none, if_true]
theorem Die.chainSlots_alone {d : Die} {slot : Nat} (h : (d.task slot).chain = none) : d.chainSlots slot = [slot] := by
  simp only [Die.chainSlots, h]
theorem State.program_alone {die slot : Nat} (h : ((s.die die).task slot).chain = none) : s.program die slot = some (s, none) := by
  simp only [State.program, Die.segment_alone h, List.length_singleton, Nat.lt_succ_self, if_true]
theorem State.slotKernels_alone {die slot : Nat} {k : Kernel} (h : ((s.die die).task slot).chain = none)
    (hk : s.taskKernel ((s.die die).task slot) = some k) : s.slotKernels die slot = [k] := by
  simp only [State.slotKernels, Die.segment_alone h, List.filterMap_cons, List.filterMap_nil, hk]
/-- With every ring of the core disabled there is nothing to clear. -/
theorem Core.toClear_disabled {c : Core} (h : ∀ r ∈ c.rings, r.2.en = false) (own : Nat) (decl : List (Nat × Bool × Nat)) : c.toClear own decl = [] := by
  rw [Core.toClear, List.map_eq_nil_iff, List.filter_eq_nil_iff]
  intro r hr
  simp [h r hr]
/-- What the next start of a lone task does: the context is set up and the dispenser goes on. -/
theorem State.startOn_alone {who slot : Nat} (idx : Nat) {k : Kernel} (hchain : ((s.die (dieOfWho who)).task slot).chain = none)
    (hk : s.taskKernel ((s.die (dieOfWho who)).task slot) = some k) (hbcast : ((s.die (dieOfWho who)).task slot).bcast = false)
    (hrings : k.rings = []) (hoff : ∀ r ∈ (s.core (coreOf who)).rings, r.2.en = false) :
    s.startOn who slot idx false = (s.place' who slot idx ((s.die (dieOfWho who)).task slot) k [k] none).modDie (dieOfWho who) fun d =>
      ((d.modTask slot fun t => t.handOut idx false (coreOf who)).chainSlots slot).foldl (fun d n => d.modTask n Task.begun)
        (d.modTask slot fun t => t.handOut idx false (coreOf who)) := by
  have hplaces : State.places ((s.die (dieOfWho who)).task slot) who = [who] := by rw [State.places, hbcast]; rfl
  have hfree : s.ringsFree who k = true := by rw [State.ringsFree, hrings]; rfl
  unfold State.startOn
  simp only [State.program_alone hchain, State.slotKernels_alone hchain hk, hplaces, hrings, Core.toClear_disabled hoff, hfree, State.openBcast, hbcast,
    List.map_cons, List.map_nil, List.flatten_cons, List.flatten_nil, List.append_nil, List.any_cons, List.any_nil, List.all_cons, List.all_nil,
    Core.ringsPend, List.isEmpty_nil, Bool.not_true, Bool.not_false, Bool.and_self, Bool.or_self, Bool.false_eq_true, if_false, if_true,
    List.foldl_cons, List.foldl_nil]
/-- What a lone task's start puts on a context. -/
def State.freshInst (s : State) (who slot idx : Nat) (t : Task) (k : Kernel) : Inst :=
  { die := dieOfWho who, slot := slot, taskno := t.taskno, wid := t.wid idx, widths := t.widths, counts := t.counts, part := t.part, img := t.img,
    ksym := t.ksym, first := k.first, nb := k.nb, idx := idx, win512 := k.win512, bcast := t.bcast, bcore := coreOf who, spl := none,
    limit := ([k].map fun k => k.limit (s.part t.part).ctl).foldl Nat.max 0 }
theorem State.place'_ctx (who slot idx : Nat) (t : Task) (k : Kernel) : (s.place' who slot idx t k [k] none).ctx who =
    (s.ctx who).begin (s.freshInst who slot idx t k)
      ((s.ctx who).ctl.begin (k.views (s.winSize who)) (!k.nbv0) k.first (t.wid idx)) t.layout (prtDeflvl (s.part t.part).ctl) := by
  unfold State.place'
  dsimp only
  rw [State.elect_ctx, State.ctx_modCore, State.ctx_setCtx]
  rfl
theorem State.place'_ctx_ne {who v : Nat} (slot idx : Nat) (t : Task) (k : Kernel) (h : v ≠ who) :
    (s.place' who slot idx t k [k] none).ctx v = s.ctx v := by
  unfold State.place'
  dsimp only
  rw [State.elect_ctx, State.ctx_modCore, State.ctx_setCtx_ne _ _ h]
@[simp] theorem State.elect_die (core d : Nat) : (s.elect core).die d = s.die d := by
  unfold State.elect
  split <;> rfl
theorem State.place'_die (who slot idx : Nat) (t : Task) (k : Kernel) (d : Nat) : (s.place' who slot idx t k [k] none).die d = s.die d := by
  unfold State.place'
  dsimp only
  rw [State.elect_die, State.die_modCore]
  rfl
theorem Die.task_modTask (d : Die) (n : Nat) (f : Task → Task) : (d.modTask n f).task n = f (d.task n) := aget_aset_self ..
/-- The dispenser's next index of a lone task. -/
theorem Die.next_handOut {d : Die} {slot : Nat} (idx core : Nat) (hchain : (d.task slot).chain = none) (hbcast : (d.task slot).bcast = false) :
    aget 0 ((((d.modTask slot fun t => t.handOut idx false core).chainSlots slot).foldl (fun d n => d.modTask n Task.begun)
      (d.modTask slot fun t => t.handOut idx false core)).task slot).next core = idx + 1 := by
  have hsame : ((d.modTask slot fun t => t.handOut idx false core).task slot).chain = none := by
    rw [Die.task_modTask]
    exact hchain
  rw [Die.chainSlots_alone hsame]
  change aget 0 (((d.modTask slot fun t => t.handOut idx false core).modTask slot Task.begun).task slot).next core = idx + 1
  rw [Die.task_modTask, Die.task_modTask]
  simp only [Task.begun, Task.handOut, hbcast, Bool.false_eq_true, if_false, aget_aset_self]
theorem State.startOffer_fresh {who slot idx : Nat} (hfree : s.freeCtx who = true) (hoffer : s.offer who = some (.fresh slot idx)) :
    s.startOffer who = s.startOn who slot idx false := by
  simp only [State.startOffer, hfree, hoffer, Bool.not_true, Bool.false_eq_true, if_false]
theorem State.startOffer_none {who : Nat} (hoffer : s.offer who = none) : s.startOffer who = s := by
  simp only [State.startOffer, hoffer, ite_self]

/-! ## The end -/

theorem execInstanceEnd_firmware {who : Nat} (hhalt : (s.ctx who).halting = true) (hquiet : s.quiet who = true) (hfw : isFw who = true) :
    execInstanceEnd who s = .next (s.modCtx who Ctx.nextEvent) := by
  simp only [execInstanceEnd, hhalt, hquiet, hfw, Bool.not_true, Bool.or_self, Bool.false_eq_true, if_false, if_true]
theorem execInstanceEnd_last {who : Nat} (hhalt : (s.ctx who).halting = true) (hquiet : s.quiet who = true) (hfw : isFw who = false)
    (hoffer : (s.endInst who none).offer who = none) : ∃ b, execInstanceEnd who s =
      .next (((s.endInst who none).modCtx who fun c => { c with due := b }).elect (coreOf who)) := by
  refine ⟨(s.endInst who none).awaited who, ?_⟩
  simp only [execInstanceEnd, hhalt, hquiet, hfw, State.startOffer_none hoffer, Bool.not_true, Bool.or_self, Bool.false_eq_true, if_false]
/-- A number that a list's entries carry, after a change of the entries in place. -/
theorem aget_map {α β : Type} {d : α} {f : α → β} (h : Nat → β → β) {g : Nat × α → Nat × α} (hkey : ∀ p, (g p).1 = p.1)
    (hval : ∀ p, f (g p).2 = h p.1 (f p.2)) (hd : ∀ n, f d = h n (f d)) (l : List (Nat × α)) (n : Nat) :
    f (aget d (l.map g) n) = h n (f (aget d l n)) := by
  induction l with
  | nil => exact hd n
  | cons p l ih =>
    have hcons : aget d (List.map g (p :: l)) n = if p.1 = n then (g p).2 else aget d (l.map g) n :=
      congrArg (fun k => if k = n then (g p).2 else aget d (l.map g) n) (hkey p)
    have hhead : aget d (p :: l) n = if p.1 = n then p.2 else aget d l n := rfl
    rw [hcons, hhead]
    by_cases hn : p.1 = n
    · rw [if_pos hn, if_pos hn, hval, hn]
    · rw [if_neg hn, if_neg hn, ih]
/-- The settling of a share changes states of tasks, not how many of their runs are left. -/
theorem Die.settle_left (d : Die) (n slot : Nat) : ((d.settle n).task slot).left = (d.task slot).left := by
  unfold Die.settle
  dsimp only
  split
  · refine aget_map (f := Task.left) (fun _ x => x) (fun p => ?_) (fun p => ?_) (fun _ => rfl) d.tasks slot
    · split <;> rfl
    · split <;> rfl
  · rfl
theorem Die.ended_left (d : Die) (slot : Nat) :
    (({ d with tasks := d.tasks.map fun (p : Nat × Task) => if [slot].contains p.1 then (p.1, p.2.ended) else p } : Die).task slot).left =
      (d.task slot).left - 1 := by
  refine (aget_map (d := ({} : Task)) (f := Task.left) (fun n x => if [slot].contains n then x - 1 else x) (fun p => ?_) (fun p => ?_) (fun n => ?_)
    d.tasks slot).trans ?_
  · split <;> rfl
  · split <;> rfl
  · split <;> rfl
  · exact if_pos (by simp)
@[simp] theorem State.closeWins_die (w : Nat) (k : TWin → Bool) (d : Nat) : (s.closeWins w k).die d = s.die d := by
  obtain ⟨ps, h⟩ := State.closeWins_eq (s := s) w k
  rw [h]
  rfl
theorem State.endPeers_die (w d : Nat) : (s.endPeers w).die d = s.die d := by
  unfold State.endPeers
  refine foldl_keeps (p := fun s => s.die d) (fun s m => ?_) _ s
  split <;> rfl
theorem State.dropInst_die (w d : Nat) : (s.dropInst w).die d = s.die d := by
  unfold State.dropInst State.vacate
  dsimp only
  rw [State.die_setRow, State.die_modCore, State.die_modCtx, State.closeWins_die, State.endPeers_die]
  rfl
/-- The end of a run that stands alone, without a fault, is counted at its task. -/
theorem State.endInst_counts {who : Nat} {i : Inst} (hinst : (s.ctx who).inst = some i) (hbcast : i.bcast = false) (hspl : i.spl = none) :
    (((s.endInst who none).die i.die).task i.slot).left = ((s.die i.die).task i.slot).left - 1 := by
  have hwork : s.workSlots who i = [i.slot] := by rw [State.workSlots, hspl]; rfl
  simp only [State.endInst, hinst, hbcast, hwork, State.dropInst_die, Bool.not_true, Bool.false_eq_true, if_false]
  rw [State.die_modDie, Die.settle_left]
  exact Die.ended_left ..

/-! ## Stopping and going on -/

/-- A context as it stops at a bundle boundary: its level is given back and kept to be asked for. -/
def Ctx.suspended (c : Ctx) : Ctx :=
  { c with susp := true, blk := none, level := 0, inst := c.inst.map fun i => { i with lvl := c.level } }
theorem State.suspend_ctx (who : Nat) : (s.suspend who).ctx who = (s.ctx who).suspended := by
  rw [State.suspend, State.elect_ctx, State.ctx_modCtx]
  rfl
theorem State.suspend_ctx_ne {who v : Nat} (h : v ≠ who) : (s.suspend who).ctx v = s.ctx v := by
  rw [State.suspend, State.elect_ctx, State.ctx_modCtx_ne _ _ h]
theorem State.stop_boundary {who : Nat} (hinst : (s.ctx who).inst.isSome = true) (hfw : isFw who = false) (hruns : (s.ctx who).susp = false)
    (hsplit : (s.ctx who).split = none) (hqueue : ∀ e ∈ (s.ctx who).rqGet 0, e.arrived = true) (hwait : (s.ctx who).wait = none)
    (hundo : (s.ctx who).irrev = none ∨ s.holding who = true) : s.stop who = some (s.suspend who) := by
  have hnone : (s.ctx who).inst.isNone = false := by rw [← Option.not_isSome, hinst]; rfl
  have harrived : ((s.ctx who).rqGet 0).any (fun e => !e.arrived) = false := List.any_eq_false.2 fun e he => by simp [hqueue e he]
  have hgo : ((s.ctx who).irrev.isNone || s.holding who) = true := by
    rcases hundo with h | h <;> simp [h]
  simp only [State.stop, hnone, hfw, hruns, hsplit, harrived, hwait, hgo, Option.isSome_none, Bool.or_self, Bool.false_eq_true, if_false, if_true]
theorem execPreemption_held {who : Nat} {t : State} (hhold : (s.ctx who).hold = true) (hstop : s.stop who = some t) :
    execPreemption who s = .next t := by
  simp only [execPreemption, hhold, if_true, hstop, Option.getD_some]
theorem execContextResume_stopped {who : Nat} {i : Inst} (hhold : (s.ctx who).hold = false) (hsusp : (s.ctx who).susp = true)
    (hinst : (s.ctx who).inst = some i) (hdrain : ((s.ctx who).preReq = true ∨ s.overrun i = true) → s.drained who = true) :
    execContextResume who s = .next (s.askResume who) := by
  have hsaving : s.saving who i = false := by
    cases hd : s.drained who with
    | true => simp [State.saving, hd]
    | false =>
      have hno := mt hdrain (by simp [hd])
      simp only [not_or, Bool.not_eq_true] at hno
      simp [State.saving, hno.1, hno.2]
  simp only [execContextResume, hhold, hsusp, hinst, hsaving, Option.isSome_some, Bool.not_false, Bool.and_self, Bool.false_eq_true, if_false, if_true]
theorem State.askResume_once {who : Nat} {i : Inst} (hinst : (s.ctx who).inst = some i) (hlvl : i.lvl = 0) :
    s.askResume who = (s.modCtx who fun c => { c with susp := false, woke := true }).elect (coreOf who) := by
  simp only [State.askResume, hinst, hlvl, if_true]
theorem State.askResume_asks {who : Nat} {i : Inst} (hinst : (s.ctx who).inst = some i) (hlvl : i.lvl ≠ 0)
    (hnew : ∀ r ∈ (s.die (dieOfWho who)).pwrq, r.1 ≠ who) : s.askResume who = s.setDie (dieOfWho who)
      { s.die (dieOfWho who) with pwrq := raising (who, i.lvl, s.cyc) (s.die (dieOfWho who)).pwrq } := by
  have hno : ((s.die (dieOfWho who)).pwrq.any fun r => r.1 == who) = false := List.any_eq_false.2 fun r hr => by simpa using hnew r hr
  simp only [State.askResume, hinst, if_neg hlvl, hno, Bool.false_eq_true, if_false]
/-- A request for a level goes behind all but those of the same cycle from contexts of higher numbers. -/
theorem raising_split (r : Nat × Nat × Nat) (l : List (Nat × Nat × Nat)) : ∃ a b, l = a ++ b ∧ raising r l = a ++ r :: b ∧
    (∀ x ∈ a, ¬ (x.2.2 = r.2.2 ∧ r.1 < x.1)) ∧ ∀ x, b.head? = some x → x.2.2 = r.2.2 ∧ r.1 < x.1 := by
  induction l with
  | nil => exact ⟨[], [], rfl, rfl, by simp, by simp⟩
  | cons h l ih =>
    by_cases hh : h.2.2 = r.2.2 ∧ r.1 < h.1
    · exact ⟨[], h :: l, rfl, if_pos hh, by simp, fun x hx => by cases hx; exact hh⟩
    · obtain ⟨a, b, hl, hr, ha, hb⟩ := ih
      refine ⟨h :: a, b, by rw [hl]; rfl, (if_neg hh).trans (by rw [hr]; rfl), fun x hx => ?_, hb⟩
      rcases List.mem_cons.1 hx with rfl | hx
      · exact hh
      · exact ha x hx

/-! ## Save slots and restored contexts -/

theorem execContextResume_restores {who slot k addr : Nat} {n : Snap} {u : State} (hfree : s.freeCtx who = true)
    (hoffer : s.offer who = some (.saved slot k addr)) (hsnap : s.snap ((s.die (dieOfWho who)).task slot).part addr = some n)
    (hhold : (s.ctx who).hold = false) (hinst : (s.ctx who).inst = none) (hwaits : s.restoreWaits who n = false)
    (hto : s.restoreTo who ((s.die (dieOfWho who)).task slot).part addr n = .ok u) : ∃ f : Die → Die, (∀ d, (f d).saves =
      d.saves.filter fun x => x != (((s.die (dieOfWho who)).task slot).part, k)) ∧ execContextResume who s = .next (u.modDie (dieOfWho who) f) := by
  refine ⟨fun d => { d with saves := d.saves.filter (fun x => x != (((s.die (dieOfWho who)).task slot).part, k)),
                            tasks := aset d.tasks slot { d.task slot with saved := (d.task slot).saved.filter fun x => x.2.1 != k } },
    fun _ => rfl, ?_⟩
  simp only [execContextResume, hfree, hoffer, hsnap, hhold, hinst, hwaits, hto, Option.isSome_none, Bool.not_true, Bool.false_eq_true, if_false]
/-- A context that has been saved is free. -/
theorem State.saveTo_inst {who part addr : Nat} {u : State} (h : s.saveTo who part addr = .ok u) : (u.ctx who).inst = none := by
  simp only [State.saveTo] at h
  split at h
  · next hn =>
    cases h
    exact hn
  · split at h
    · cases h
    · cases h
      rw [State.elect_ctx, State.vacate_ctx]
      rfl
theorem execQuantumOverrun_alone {who : Nat} {i : Inst} (hfw : isFw who = false) (hinst : (s.ctx who).inst = some i)
    (hpre : (s.ctx who).preReq = false) (hover : s.overrun i = true)
    (hother : s.otherReady who ((s.die i.die).task i.slot).prio = false) : execQuantumOverrun who s = .next (s.modCtx who Ctx.freshQuantum) := by
  simp only [execQuantumOverrun, hinst, hfw, hpre, hover, hother, Bool.not_true, Bool.or_false, Bool.false_or, Bool.false_eq_true, if_false]
section Overrun
variable {who k addr : Nat} {i : Inst} {t : State} (hfw : isFw who = false) (hinst : (s.ctx who).inst = some i)
    (hpre : (s.ctx who).preReq = false) (hover : s.overrun i = true)
    (hother : s.otherReady who ((s.die i.die).task i.slot).prio = true) (hslot : s.saveSlot (dieOfWho who) i.part = some (k, addr))
    (hstop : s.stop who = some t)
include hfw hinst hpre hover hother hslot hstop
/-- An overrun context that cannot drain yet stays stopped. -/
theorem execQuantumOverrun_waits (hdrain : t.drained who = false) : execQuantumOverrun who s = .next t := by
  simp only [execQuantumOverrun, hinst, hfw, hpre, hover, hother, hslot, hstop, hdrain, Bool.not_true, Bool.not_false, Bool.or_false, Bool.false_or,
    Bool.false_eq_true, if_false, if_true]
/-- One that has drained is saved, and its save slot taken. -/
theorem execQuantumOverrun_saves {u : State} (hdrain : t.drained who = true) (hto : t.saveTo who i.part addr = .ok u) : ∃ f : Die → Die,
    (∀ d, (f d).saves = d.saves ++ [(i.part, k)]) ∧
    execQuantumOverrun who s = .next ((u.modDie (dieOfWho who) f).modCtx who fun c => { c with spent := some addr }) := by
  refine ⟨fun d => { d with saves := d.saves ++ [(i.part, k)],
                            tasks := aset d.tasks (d.slotOf i.slot i.taskno) { d.task (d.slotOf i.slot i.taskno) with
                              saved := (d.task (d.slotOf i.slot i.taskno)).saved ++ [(coreOf who, k, addr)] } }, fun _ => rfl, ?_⟩
  simp only [execQuantumOverrun, hinst, hfw, hpre, hover, hother, hslot, hstop, hdrain, hto, Bool.not_true, Bool.or_false, Bool.false_or,
    Bool.false_eq_true, if_false, if_true]
end Overrun

/-! ## Speculative preload -/

/-- A core without its preload. -/
def State.unloaded (s : State) (core : Nat) : State := s.modCore core fun c => { c with preload := none }
/-- Dropping a preload leaves what an offer asks of a core. -/
theorem State.unloaded_core (core n : Nat) : ((s.unloaded core).core n).rings = (s.core n).rings ∧
    ((s.unloaded core).core n).sltmap = (s.core n).sltmap ∧ ((s.unloaded core).core n).two = (s.core n).two := by
  by_cases h : n = core
  · rw [State.unloaded, h, State.core_modCore]
    exact ⟨rfl, rfl, rfl⟩
  · rw [State.unloaded, State.core_modCore_ne _ _ h]
    exact ⟨rfl, rfl, rfl⟩
theorem State.unloaded_freeCtx (core w : Nat) : (s.unloaded core).freeCtx w = s.freeCtx w := by
  obtain ⟨-, hmap, htwo⟩ := State.unloaded_core (s := s) core (coreOf w)
  simp only [State.freeCtx, hmap, htwo]
  rfl
theorem State.unloaded_ringsFree (core w : Nat) (k : Kernel) : (s.unloaded core).ringsFree w k = s.ringsFree w k := by
  obtain ⟨hrings, -, -⟩ := State.unloaded_core (s := s) core (coreOf w)
  simp only [State.ringsFree, Core.ring, hrings]
  rfl
theorem State.unloaded_taskOffer (core w slot : Nat) (t : Task) : (s.unloaded core).taskOffer w slot t = s.taskOffer w slot t := by
  have hfree : (s.unloaded core).freeCtx = s.freeCtx := funext fun w => State.unloaded_freeCtx core w
  have hrings : (s.unloaded core).ringsFree = s.ringsFree := funext fun w => funext fun k => State.unloaded_ringsFree core w k
  simp only [State.taskOffer, hfree, hrings]
  rfl
theorem State.unloaded_offer (core w : Nat) : (s.unloaded core).offer w = s.offer w := by
  have htask : ∀ n t, (s.unloaded core).taskOffer w n t = s.taskOffer w n t := State.unloaded_taskOffer core w
  simp only [State.offer, State.offers, State.offersBut, htask]
  rfl
theorem State.unloaded_nextSlots (core : Nat) (p : Nat → Bool) : (s.unloaded core).nextSlots core p = s.nextSlots core p := by
  simp only [State.nextSlots, State.unloaded_offer]
/-- What is offered next to some contexts of a core is offered next to its contexts. -/
theorem State.mem_nextSlots_all {core n : Nat} {p : Nat → Bool} (h : n ∈ s.nextSlots core p) : n ∈ s.nextSlots core fun _ => true := by
  obtain ⟨j, hj, hs⟩ := List.mem_filterMap.1 h
  refine List.mem_filterMap.2 ⟨j, hj, ?_⟩
  split at hs
  · exact hs
  · cases hs
theorem State.dropStale_none {core : Nat} (h : (s.core core).preload = none) : s.dropStale core = s := by
  rw [State.dropStale, h]
theorem State.dropStale_next {core : Nat} {p : Preload} (h : (s.core core).preload = some p) (hin : p.slot ∈ s.nextSlots core fun _ => true) :
    s.dropStale core = s := by
  rw [State.dropStale, h]
  exact if_pos (List.contains_iff_mem.2 hin)
theorem State.dropStale_stale {core : Nat} {p : Preload} (h : (s.core core).preload = some p) (hout : p.slot ∉ s.nextSlots core fun _ => true) :
    s.dropStale core = s.unloaded core := by
  rw [State.dropStale, h]
  exact if_neg fun hin => hout (List.contains_iff_mem.1 hin)
/-- The slots whose tasks are next for the contexts of a core that run. -/
def State.nextRunning (s : State) (core : Nat) : List Nat := s.nextSlots core fun n => (s.ctx (core * 4 + n)).inst.isSome
/-- The first bundles of a task's kernel, and its W part, as a core loads them. -/
def State.preloadOf (s : State) (core n : Nat) (k : Kernel) : Preload :=
  { slot := n, pc := k.first, code := k.code.take 512, w := s.preloadW core ((s.die (dieOf core)).task n) k }
/-- A core without a preload, with that of the task that is next. -/
def State.loaded (s : State) (core : Nat) : State :=
  match s.nextRunning core with
  | [] => s
  | n :: _ =>
    match s.taskKernel ((s.die (dieOf core)).task n) with
    | some k => s.modCore core fun c => { c with preload := some (s.preloadOf core n k) }
    | none => s
theorem State.loaded_next {core n : Nat} {l : List Nat} {k : Kernel} (hnext : s.nextRunning core = n :: l)
    (hk : s.taskKernel ((s.die (dieOf core)).task n) = some k) :
    s.loaded core = s.modCore core fun c => { c with preload := some (s.preloadOf core n k) } := by
  simp only [State.loaded, hnext, hk]
theorem State.loaded_rest (core : Nat) : s.loaded core = { s with cores := (s.loaded core).cores } := by
  unfold State.loaded
  split
  · rfl
  · split <;> rfl
/-- What a core without a preload loads belongs to a task that is next. -/
theorem State.loaded_slot {core : Nat} {x : Preload} (hnone : (s.core core).preload = none)
    (hx : ((s.loaded core).core core).preload = some x) : x.slot ∈ s.nextRunning core := by
  unfold State.loaded at hx
  split at hx
  · cases hnone.symm.trans hx
  · next n l hnext =>
    split at hx
    · rw [State.core_modCore] at hx
      cases hx
      rw [hnext]
      exact List.mem_cons_self
    · cases hnone.symm.trans hx
theorem execSpeculativePreload_empty {core : Nat} {u : State} (hstale : s.dropStale core = u) (hnone : (u.core core).preload = none) :
    execSpeculativePreload core s = .next (u.loaded core) := by
  unfold execSpeculativePreload State.loaded State.nextRunning
  rw [hstale]
  dsimp only
  rw [hnone]
  cases u.nextSlots core fun n => (u.ctx (core * 4 + n)).inst.isSome with
  | nil => rfl
  | cons n l =>
    dsimp only
    cases u.taskKernel ((u.die (dieOf core)).task n) <;> rfl
theorem execSpeculativePreload_full {core : Nat} {p : Preload} (h : (s.core core).preload = some p) (hstale : s.dropStale core = s) :
    execSpeculativePreload core s = .next s := by
  unfold execSpeculativePreload
  rw [hstale]
  dsimp only
  rw [h]

theorem natBits_level (w : Word) : natBits w.toNat 24 8 = w.toNat / 2 ^ 24 % 256 := by
  rw [natBits, Nat.shiftRight_eq_div_pow]
  rfl

/-- Settles O46: each move of a context by the one thing that its event does. -/
theorem instancesComeAndGo : Obligations.InstancesComeAndGo := by
  unfold Obligations.InstancesComeAndGo
  intro who s
  refine ⟨fun slot idx k hfree hoffer => ?_, fun hhalt hquiet => ⟨fun hfw => ?_, fun i hfw hinst hbcast hspl hoffer => ?_⟩,
    fun hhold hinst hfw hruns hsplit hqueue hwait hundo => ?_, fun hhold hsusp i hinst hdrain => ⟨fun hlvl => ?_, fun hlvl hnew => ?_⟩,
    fun slot k addr n u hfree hoffer hsnap hhold hinst hwaits hto => ?_, fun i hfw hinst hpre hover => ?_, fun core => ?_⟩
  · intro a hchain hk hbcast hrings hoff
    have hexec := (State.startOffer_fresh hfree hoffer).trans (State.startOn_alone idx hchain hk hbcast hrings hoff)
    have hctx := State.place'_ctx (s := s) who slot idx a k
    refine ⟨_, s.freshInst who slot idx a k, congrArg Host.Outcome.next hexec, ?_⟩
    rw [State.ctx_modDie, hctx]
    refine ⟨rfl, rfl, rfl, rfl, rfl, rfl, rfl, rfl, ?_, rfl, ?_, fun v hv => ?_, ?_⟩
    · exact natBits_level _
    · rw [State.die_modDie, State.place'_die]
      exact Die.next_handOut idx (coreOf who) hchain hbcast
    · rw [State.ctx_modDie, State.place'_ctx_ne _ _ _ _ hv]
    · rw [State.modDie_mem, State.place'_mem]
  · exact ⟨_, execInstanceEnd_firmware hhalt hquiet hfw, s.becomes_modCtx who Ctx.nextEvent⟩
  · obtain ⟨b, hexec⟩ := execInstanceEnd_last hhalt hquiet hfw hoffer
    refine ⟨_, hexec, ?_⟩
    rw [State.elect_ctx, State.ctx_modCtx, State.endInst_ctx none none hinst, State.elect_die, State.die_modCtx, State.endInst_counts hinst hbcast hspl,
      State.elect_mem, State.modCtx_mem, State.endInst_mem]
    exact ⟨rfl, rfl, rfl, rfl, rfl⟩
  · exact ⟨_, execPreemption_held hhold (State.stop_boundary hinst hfw hruns hsplit hqueue hwait hundo), State.suspend_ctx who,
      fun v hv => State.suspend_ctx_ne hv, State.suspend_mem who⟩
  · refine ⟨_, (execContextResume_stopped hhold hsusp hinst hdrain).trans (congrArg Host.Outcome.next (State.askResume_once hinst hlvl)), ?_, ?_⟩
    · rw [State.elect_ctx, State.ctx_modCtx]
    · rw [State.elect_mem, State.modCtx_mem]
  · obtain ⟨a, b, hl, hr, ha, hb⟩ := raising_split (who, i.lvl, s.cyc) (s.die (dieOfWho who)).pwrq
    refine ⟨_, (execContextResume_stopped hhold hsusp hinst hdrain).trans (congrArg Host.Outcome.next (State.askResume_asks hinst hlvl hnew)), rfl,
      a, b, hl, ?_, ha, hb⟩
    rw [State.die_setDie]
    exact hr
  · obtain ⟨f, hf, hexec⟩ := execContextResume_restores hfree hoffer hsnap hhold hinst hwaits hto
    refine ⟨_, hexec, rfl, rfl, ?_⟩
    rw [State.die_modDie, hf]
  · refine ⟨fun hother => ⟨_, execQuantumOverrun_alone hfw hinst hpre hover hother, ?_⟩, fun k addr t u hother hslot hstop => ⟨fun hdrain => ?_, fun hdrain hto => ?_⟩⟩
    · have hb := s.becomes_modCtx who Ctx.freshQuantum
      rw [Ctx.freshQuantum, hinst] at hb
      exact hb
    · exact execQuantumOverrun_waits hfw hinst hpre hover hother hslot hstop hdrain
    · obtain ⟨f, hf, hexec⟩ := execQuantumOverrun_saves hfw hinst hpre hover hother hslot hstop hdrain hto
      refine ⟨_, hexec, ?_⟩
      rw [State.ctx_modCtx, State.ctx_modDie, State.modCtx_mem, State.modDie_mem, State.die_modCtx, State.die_modDie, hf]
      exact ⟨rfl, fun w hw => (State.ctx_modCtx_ne _ _ hw).trans (State.ctx_modDie ..), State.saveTo_inst hto, rfl, rfl⟩
  · refine ⟨fun n l k hnone hnext hk => ?_, fun p hp hin => execSpeculativePreload_full hp (State.dropStale_next hp hin), fun p hp hout => ?_⟩
    · have hexec := (execSpeculativePreload_empty (State.dropStale_none hnone) hnone).trans (congrArg Host.Outcome.next (State.loaded_next hnext hk))
      refine ⟨_, s.preloadOf core n k, hexec, ?_, rfl, rfl, rfl, rfl⟩
      rw [State.core_modCore]
    · have hnone : ((s.unloaded core).core core).preload = none := by rw [State.unloaded, State.core_modCore]
      refine ⟨_, execSpeculativePreload_empty (State.dropStale_stale hp hout) hnone, fun x hx hslot => hout ?_, State.loaded_rest core⟩
      have hmem := State.mem_nextSlots_all (State.loaded_slot hnone hx)
      rwa [State.unloaded_nextSlots, hslot] at hmem
end Sys2Proof.Machine
end

section
/-! Divisions, index bases, views, numeric registers and the scalar result queues (R42, R49, R50, R119, R132 to R136). -/

namespace Sys2Proof.Machine

variable {s : State}

/-! ## Changes of one context, one after another -/

theorem State.Becomes.trans {t u : State} {w : Nat} {c d : Ctx} (h : s.Becomes t w c) (k : t.Becomes u w d) : s.Becomes u w d := by
  obtain ⟨⟨hrest, hothers⟩, -⟩ := h
  obtain ⟨⟨krest, kothers⟩, rfl⟩ := k
  refine ⟨⟨?_, fun v hv => (kothers v hv).trans (hothers v hv)⟩, rfl⟩
  rw [krest, hrest]
/-- What was done to a context is the context as it now stands. -/
theorem State.Becomes.now {t : State} {w : Nat} {c d : Ctx} (h : s.Becomes t w c) (hd : t.ctx w = c → d = c) : s.Becomes t w d := by
  obtain ⟨hother, hc⟩ := h
  exact ⟨hother, hc.trans (hd hc).symm⟩
theorem State.Becomes.cur {t : State} {w : Nat} {c : Ctx} (h : s.Becomes t w c) : t.cur = s.cur := by rw [h.1.rest]

/-! ## Result queues -/

@[simp] theorem Ctx.rqGet_rqPush (c : Ctx) (q : Nat) (e : QEnt) : (c.rqPush q e).rqGet q = c.rqGet q ++ [e] := aget_aset_self ..
theorem Ctx.rqGet_rqPush_ne (c : Ctx) {q r : Nat} (e : QEnt) (h : r ≠ q) : (c.rqPush q e).rqGet r = c.rqGet r := aget_aset_ne _ _ _ h
/-- A queue whose oldest entry has arrived gives it up, and keeps it for a rollback (R50). -/
theorem Ctx.rqPop_head {c : Ctx} {q : Nat} {e : QEnt} (h : c.rqHead q = some e) :
    c.rqPop q = { c with rq := aset c.rq q (c.rqGet q).tail, popped := (q, e) :: c.popped } := by
  unfold Ctx.rqHead at h
  unfold Ctx.rqPop
  cases hq : c.rqGet q with
  | nil => simp [hq] at h
  | cons x r =>
    obtain ⟨-, rfl⟩ : x.arrived = true ∧ x = e := by simpa [hq] using h
    rfl

/-- A producer's entry comes into a queue under a new identifier. -/
def State.produce (s : State) (q : Nat) (e : QEnt) : State := s.newId.2.modMe fun c => c.rqPush q e
theorem State.produce_becomes (q : Nat) (e : QEnt) : s.Becomes (s.produce q e) s.cur.who (s.me.rqPush q e) :=
  ⟨⟨rfl, fun _ h => aget_aset_ne _ _ _ h⟩, aget_aset_self ..⟩
/-- The entries `es` have come behind the others of queue `q`, under as many new identifiers, and nothing else differs. -/
structure State.Queued (s t : State) (q : Nat) (es : List QEnt) : Prop where
  becomes : s.Becomes t s.cur.who { s.me with rq := (t.ctx s.cur.who).rq }
  ids     : t.ids = s.ids + es.length
  queue   : (t.ctx s.cur.who).rqGet q = s.me.rqGet q ++ es
  others  : ∀ r, r ≠ q → (t.ctx s.cur.who).rqGet r = s.me.rqGet r
theorem State.queued_nil (q : Nat) : s.Queued s q [] := ⟨⟨⟨rfl, fun _ _ => rfl⟩, rfl⟩, rfl, (List.append_nil _).symm, fun _ _ => rfl⟩
theorem State.Queued.produce {t : State} {q : Nat} {es : List QEnt} (h : s.Queued t q es) (e : QEnt) :
    s.Queued (t.produce q e) q (es ++ [e]) := by
  obtain ⟨hb, hids, hq, hothers⟩ := h
  have hp := t.produce_becomes q e
  rw [State.me, hb.cur] at hp
  refine ⟨(hb.trans hp).now fun hc => ?_, ?_, ?_, fun r hr => ?_⟩
  · rw [hc, hb.2]
    rfl
  · rw [List.length_append, ← Nat.add_assoc, ← hids]
    rfl
  · rw [hp.2, Ctx.rqGet_rqPush, hq, List.append_assoc]
  · rw [hp.2, Ctx.rqGet_rqPush_ne _ _ hr, hothers r hr]
theorem State.queued_produce (q : Nat) (e : QEnt) : s.Queued (s.produce q e) q [e] := (s.queued_nil q).produce e

/-! ## Divisions (R119) -/

/-- A division with room in q1 is a producer of it. -/
theorem divide_queued {i : Instr} {g : Guard} {v : Word} (hi : exec i s = divide g v s) (hg : s.guard g = true)
    (hroom : (s.me.rqGet 1).length < 16) : ∃ t, exec i s = .next t ∧
      s.Queued t 1 [{ id := s.ids, left := 66, data := v.toNat, seq := s.cur.ent.seq, fresh := true }] := by
  refine ⟨_, hi.trans ?_, s.queued_produce 1 _⟩
  rw [divide, hg, Ctx.rqRoom, decide_eq_true hroom]
  rfl
theorem divS_zero (a : Word) : (divS a 0).toNat = 2 ^ 64 - 1 := rfl
theorem divN_zero (a : Word) : (divN a 0).toNat = 2 ^ 64 - 1 := rfl
theorem divN_toNat (a : Word) {b : Word} (h : b ≠ 0) : (divN a b).toNat = a.toNat / b.toNat := by
  rw [divN, if_neg h, BitVec.toNat_ofNat, Nat.mod_eq_of_lt ((Nat.div_le_self ..).trans_lt a.isLt)]
/-- A remainder lies in the range of its dividend. -/
theorem remS_toInt (a : Word) {b : Word} (h : b ≠ 0) : (remS a b).toInt = a.toInt.tmod b.toInt := by
  rw [remS, if_neg h, ← BitVec.toInt_srem, BitVec.ofInt_toInt]
theorem remN_toNat (a : Word) {b : Word} (h : b ≠ 0) : (remN a b).toNat = a.toNat % b.toNat := by
  rw [remN, if_neg h, BitVec.toNat_ofNat, Nat.mod_eq_of_lt ((Nat.mod_le ..).trans_lt a.isLt)]

/-- Settles O4: each division is a producer of q1, of a quotient or a remainder as integers have it. -/
theorem divisionsQueueTheirResult : Obligations.DivisionsQueueTheirResult := by
  unfold Obligations.DivisionsQueueTheirResult
  intro g sa sb s hg hroom a b pushes
  have hpush : ∀ (i : Instr) (v : Word), exec i s = divide g v s → pushes i v := fun i v hi =>
    have ⟨t, ht, hq⟩ := divide_queued hi hg hroom
    ⟨t, ht, hq.becomes, hq.queue, hq.others⟩
  refine ⟨⟨divS a b, hpush _ _ rfl, ?_, fun h => if_neg h⟩, ⟨divN a b, hpush _ _ rfl, ?_, divN_toNat a⟩,
    ⟨remS a b, hpush _ _ rfl, fun h => if_pos h, remS_toInt a⟩, ⟨remN a b, hpush _ _ rfl, fun h => if_pos h, remN_toNat a⟩⟩
  · intro h
    rw [h, divS_zero]
  · intro h
    rw [h, divN_zero]

/-! ## Results of one operation -/

/-- An update of control state that puts nothing in flight. -/
theorem State.modCtl_issued (f : Ctl → Ctl) : s.Issued (s.modMe fun c => { c with ctl := f c.ctl }) (f s.me.ctl) [] :=
  (s.becomes_modCtx s.cur.who _).now fun _ => by simp [State.marks, State.me]
/-- Two results of one slot: neither makes the other a second writer (R29). -/
theorem Ctx.launch_launch (c : Ctx) {f r : Fly} (h : f.slot = r.slot) : (c.launch f).launch r =
    { c with
      fly := c.fly ++ [f, r]
      flt := { c.flt with wawp := c.flt.wawp || [f, r].any fun x => c.twoWriters x.slot.num x.grp x.dst x.size } } := by
  have hsecond : (c.launch f).twoWriters r.slot.num r.grp r.dst r.size = c.twoWriters r.slot.num r.grp r.dst r.size := by
    simp [Ctx.twoWriters, Ctx.launch, h]
  rw [Ctx.launch, hsecond]
  simp [Ctx.launch, Bool.or_assoc]
theorem State.post_becomes (left : Nat) (dst : Dest) (val bm size : Nat) :
    s.Becomes (s.post left dst val bm size) s.cur.who (s.me.launch (s.result s.ids left dst val bm size)) :=
  ⟨⟨rfl, fun _ h => State.ctx_modCtx_ne _ _ h⟩, aget_aset_self ..⟩
/-- Two results of one operation. -/
theorem State.post_post_issued (l1 l2 : Nat) (d1 d2 : Dest) (v1 v2 : Nat) :
    s.Issued ((s.post l1 d1 v1).post l2 d2 v2) s.me.ctl [s.result s.ids l1 d1 v1, s.result (s.ids + 1) l2 d2 v2] := by
  have h1 := s.post_becomes l1 d1 v1 0 0
  have h2 := (s.post l1 d1 v1).post_becomes l2 d2 v2 0 0
  have hme : (s.post l1 d1 v1).me = s.me.launch (s.result s.ids l1 d1 v1) := h1.2
  rw [hme, Ctx.launch_launch _ (by rfl)] at h2
  exact h1.trans h2

/-! ## Index bases, views, numeric registers (R132, R133, R136) -/

theorem execIbw_writes {g : Guard} (ib : BitVec 3) (sa : BitVec 6) (hg : s.guard g = true) :
    execIbw g ib sa s = .next (s.modMe fun c => { c with ctl := { c.ctl with ib := aset c.ctl.ib ib.toNat ((s.sreg sa).setWidth 16) } }) := by
  rw [execIbw, if_pos hg]
theorem execCsrw_writes {g : Guard} (n : BitVec 8) (sa : BitVec 6) (hg : s.guard g = true) :
    execCsrw g n sa s = .next (s.modMe fun c => { c with ctl := c.ctl.csrSet n.toNat (s.sreg sa) }) := by
  rw [execCsrw, if_pos hg]
/-- A setting is written when it has 21 bits and is legal in the window (R42, R133). -/
theorem execVwr_writes {g : Guard} {sel : ViewSel} {sa : BitVec 6} (hg : s.guard g = true) (hx : (s.sreg sa).toNat < 2 ^ 21)
    (hok : viewOk (selView sel).size (s.winSize s.cur.who) ((s.sreg sa).setWidth 32) = true) :
    execVwr g sel sa s = .next (s.modMe fun c => { c with ctl := c.ctl.setView sel ((s.sreg sa).setWidth 32) }) := by
  have hwin := And.intro hx hok
  simp only [execVwr, hg, Bool.not_true, Bool.false_eq_true, if_false, Bool.and_eq_true, decide_eq_true_eq, if_pos hwin]
theorem execVwr_traps {g : Guard} {sel : ViewSel} {sa : BitVec 6} (hg : s.guard g = true) (hx : 2 ^ 21 ≤ (s.sreg sa).toNat ∨
    viewOk (selView sel).size (s.winSize s.cur.who) ((s.sreg sa).setWidth 32) = false) :
    execVwr g sel sa s = .next (s.trap ⟨4, 0, sel.bits.setWidth 64⟩) := by
  have hbad : ¬ ((s.sreg sa).toNat < 2 ^ 21 ∧ viewOk (selView sel).size (s.winSize s.cur.who) ((s.sreg sa).setWidth 32) = true) := by
    rintro ⟨hlt, hok⟩
    cases hx with
    | inl hle => omega
    | inr hno => exact Bool.false_ne_true (hno.symm.trans hok)
  simp only [execVwr, hg, Bool.not_true, Bool.false_eq_true, if_false, Bool.and_eq_true, decide_eq_true_eq, if_neg hbad]

/-! ## The scalar result queues (R50, R135) -/

theorem execQpop_empty {g : Guard} (sd : BitVec 6) (pd : BitVec 4) {q : BitVec 2} (hg : s.guard g = true)
    (h : s.me.rqHead q.toNat = none) :
    execQpop g sd pd q true s = .next ((s.post 1 (.scalar sd.toNat) 0).post 1 (.pred pd.toNat) 0) := by
  simp only [execQpop, hg, h]
  rfl
theorem execQpop_takes {g : Guard} (sd : BitVec 6) (pd : BitVec 4) {q : BitVec 2} (eb : Bool) {e : QEnt} (hg : s.guard g = true)
    (h : s.me.rqHead q.toNat = some e) : execQpop g sd pd q eb s =
      .next (((s.modMe fun c => c.rqPop q.toNat).post 1 (.scalar sd.toNat) (e.data % 2 ^ 64)).post 1 (.pred pd.toNat) 1) := by
  simp only [execQpop, hg, h]
  rfl

/-- Settles O8: each operation by its one equation, what it puts in flight or writes, and the queue it pops. -/
theorem contextRegistersAndQueues : Obligations.ContextRegistersAndQueues := by
  unfold Obligations.ContextRegistersAndQueues
  intro g sd sa pd ib n q sel k e i s hg x
  have yields : ∀ {i : Instr} {v : Word}, exec i s = alu g 1 sd v s → ∃ t, exec i s = .next t ∧ s.Yields t 1 sd v := fun hi =>
    ⟨_, hi.trans (by rw [alu, if_pos hg]), s.postS_yields ..⟩
  refine ⟨rfl, ⟨_, _, execIbw_writes ib sa hg, s.modCtl_issued fun c => { c with ib := aset c.ib ib.toNat (x.setWidth 16) },
      fun j => aget_aset ..⟩, fun hx hok => ⟨_, execVwr_writes hg hx hok, s.modCtl_issued fun c => c.setView sel (x.setWidth 32)⟩,
    fun hx => ⟨_, execVwr_traps hg hx⟩, ⟨_, execCsrw_writes n sa hg, s.modCtl_issued fun c => c.csrSet n.toNat x⟩, yields rfl, yields rfl,
    fun hi => yields (congrArg (fun o : Option Inst => alu g 1 sd ((o.map fun i => widValue i n.toNat).getD 0) s) hi), fun he eb => ?_,
    fun he => ⟨_, execQpop_empty sd pd hg he, s.post_post_issued ..⟩⟩
  have hpop := s.becomes_modMe fun c => c.rqPop q.toNat
  have hpost := (s.modMe fun c => c.rqPop q.toNat).post_post_issued 1 1 (.scalar sd.toNat) (.pred pd.toNat) (e.data % 2 ^ 64) 1
  rw [State.Issued, State.me_modMe] at hpost
  rw [Ctx.rqPop_head he] at hpost
  obtain ⟨hother, hctx⟩ := hpop.trans hpost
  refine ⟨_, execQpop_takes sd pd eb hg he, ?_, ?_, ?_, ?_, rfl, hother⟩ <;> rw [hctx]
  · exact aget_aset_self ..
  · rfl
end Sys2Proof.Machine
end

section
/-! Atomic steps (R198, R199, R364): what a step makes of its element, and when it performs. -/

namespace Sys2Proof.Machine

variable {s : State}

/-! ## What a step makes of its element (R198) -/

/-- The new value, kind by kind of step; the extremes compare by the sign of the element. -/
theorem AmoOp.new_eq {b : AmoOp} {sgn : Prop} [Decidable sgn] (h : b.sgn = true ↔ sgn) (old : Nat) :
    let v := b.v.toNat % 2 ^ b.w
    let num (x : Nat) : Int := if sgn ∧ 2 ^ b.w / 2 ≤ x then (x : Int) - 2 ^ b.w else x
    (b.op = 0 → b.new old = (old + v) % 2 ^ b.w) ∧ (b.op = 1 → b.new old = if num v < num old then v else old) ∧
    (b.op = 2 → b.new old = if num old < num v then v else old) ∧ (b.op = 3 → b.new old = v) ∧
    (b.op = 4 → b.new old = if old = v then b.v2.toNat % 2 ^ b.w else old) ∧ (b.op = 5 → b.new old = old &&& v) ∧
    (b.op = 6 → b.new old = old ||| v) := by
  intro v num
  have hnum : ∀ x : Nat, (if b.sgn && decide (2 ^ b.w / 2 ≤ x) then (x : Int) - (2 ^ b.w : Nat) else x) = num x := fun x => by
    simp only [Bool.and_eq_true, decide_eq_true_eq, h, num]
    push_cast
    rfl
  simp only [AmoOp.new, hnum]
  refine ⟨?_, ?_, ?_, ?_, ?_, ?_, ?_⟩ <;> (intro ho; rw [ho]; rfl)
theorem AmoOp.ret_eq {b : AmoOp} {sgn : Prop} [Decidable sgn] (h : b.sgn = true ↔ sgn) (old : Nat) :
    b.ret old = if sgn ∧ 2 ^ (b.w - 1) ≤ old then (old + (2 ^ 64 - 2 ^ b.w)) % 2 ^ 64 else old := by
  simp only [AmoOp.ret, Bool.and_eq_true, decide_eq_true_eq, h]

/-! ## Contexts, identifiers and requests do not touch memory -/

/-- The state with other contexts, identifiers and drawer requests. -/
def State.besides (s : State) (ctxs : List (Nat × Ctx)) (ids : Nat) (fab : Fabric) : State :=
  { s with ctxs := ctxs, ids := ids, fab := fab }
variable {ctxs : List (Nat × Ctx)} {ids : Nat} {fab : Fabric}

theorem State.elem_besides (e : Elem) : (s.besides ctxs ids fab).elem e = s.elem e := rfl
theorem State.writeUnit_besides (key u v bm : Nat) :
    (s.besides ctxs ids fab).writeUnit key u v bm = (s.writeUnit key u v bm).besides ctxs ids fab := by
  have ht : (s.besides ctxs ids fab).taskUnit u = s.taskUnit u := rfl
  unfold State.writeUnit
  rw [ht]
  split
  · rfl
  · split <;> rfl
theorem State.putElem_besides (e : Elem) (v : Nat) : (s.besides ctxs ids fab).putElem e v = (s.putElem e v).besides ctxs ids fab := by
  unfold State.putElem
  split
  · exact State.writeUnit_besides ..
  · exact List.foldl_hom (State.besides · ctxs ids fab) fun _ _ => rfl
theorem State.putElem_ctxs (e : Elem) (v : Nat) : (s.putElem e v).ctxs = s.ctxs :=
  (congrArg State.ctxs (State.putElem_besides (s := s) (ctxs := s.ctxs) (ids := s.ids) (fab := s.fab) e v) :)
theorem State.putElem_fab (e : Elem) (v : Nat) : (s.putElem e v).fab = s.fab :=
  (congrArg State.fab (State.putElem_besides (s := s) (ctxs := s.ctxs) (ids := s.ids) (fab := s.fab) e v) :)

/-! ## Performing a step -/

/-- The element of a step. -/
def AmoOp.elem (b : AmoOp) (key : Nat) : Elem := ⟨b.addr, b.w, key⟩
/-- The state after a step's write to its element. -/
def State.stepped (s : State) (key : Nat) (b : AmoOp) : State := s.putElem (b.elem key) (b.new (s.elem (b.elem key)))
theorem State.stepped_besides (key : Nat) (b : AmoOp) :
    (s.besides ctxs ids fab).stepped key b = (s.stepped key b).besides ctxs ids fab := State.putElem_besides ..
theorem State.perform_silent (who key : Nat) {b : AmoOp} (hbar : b.bar = 0) (hq : b.qid = none) : s.perform who key b = s.stepped key b := by
  simp only [State.perform, hbar, hq, if_true]
  rfl
theorem State.perform_answers (who key : Nat) {b : AmoOp} {id : Nat} (hbar : b.bar = 0) (hq : b.qid = some id) :
    s.perform who key b = (s.stepped key b).modCtx who fun c => c.rqSet 0 (arrive id (b.ret (s.elem (b.elem key))) (c.rqGet 0)) := by
  simp only [State.perform, hbar, hq, if_true]
  rfl
theorem State.stepped_ctxs (key : Nat) (b : AmoOp) : (s.stepped key b).ctxs = s.ctxs := State.putElem_ctxs ..
theorem State.stepped_ctx (key : Nat) (b : AmoOp) (w : Nat) : (s.stepped key b).ctx w = s.ctx w := by
  rw [State.ctx, State.stepped_ctxs]
  rfl
/-- Whatever it returns, a step changes memory by its write and leaves the requests. -/
theorem State.perform_mem (who key : Nat) {b : AmoOp} (hbar : b.bar = 0) : (s.perform who key b).mem = (s.stepped key b).mem := by
  cases hq : b.qid with
  | none => rw [State.perform_silent who key hbar hq]
  | some id => rw [State.perform_answers who key hbar hq, State.modCtx_mem]
theorem State.perform_fab (who key : Nat) {b : AmoOp} (hbar : b.bar = 0) : (s.perform who key b).fab = s.fab := by
  cases hq : b.qid with
  | none => rw [State.perform_silent who key hbar hq, State.stepped, State.putElem_fab]
  | some id => rw [State.perform_answers who key hbar hq, State.modCtx_fab, State.stepped, State.putElem_fab]
/-- The entry that a step answers is the one of its identifier. -/
theorem arrive_append {l : List QEnt} {e : QEnt} (data : Nat) (h : ∀ x ∈ l, x.id ≠ e.id) :
    arrive e.id data (l ++ [e]) = l ++ [{ e with arrived := true, left := 0, data := data }] := by
  have hl : arrive e.id data l = l := (List.map_congr_left fun x hx => if_neg (h x hx)).trans (List.map_id l)
  rw [arrive, List.map_append]
  exact congrArg₂ (· ++ ·) hl (congrArg (fun x => [x]) (if_pos rfl))

/-! ## Issue -/

/-- The step that an `amo` asks for, and the state in which its q0 entry waits. -/
def State.amoStep (s : State) (op : BitVec 3) (nq : Bool) (sk : BitVec 6) (a : Acc) (e : Elem) : AmoOp :=
  { addr := e.addr, w := e.w, op := op.toNat, v := s.sreg sk, v2 := s.me.ctl.sget (sk.toNat + 1),
    sgn := dKind a.fmt == 6 || dKind a.fmt == 7, qid := if nq then none else some s.ids }
def State.amoPending (s : State) (nq : Bool) : State :=
  if nq then s.newId.2 else s.produce 0 { id := s.ids, seq := s.cur.ent.seq }
theorem State.me_produce (q : Nat) (e : QEnt) : (s.produce q e).me = s.me.rqPush q e := (s.produce_becomes q e).2
theorem State.amoPending_besides (nq : Bool) : s.amoPending nq = s.besides (s.amoPending nq).ctxs (s.ids + 1) s.fab := by
  cases nq <;> rfl
theorem State.amoPending_ctl (nq : Bool) : (s.amoPending nq).me.ctl = s.me.ctl := by
  cases nq with
  | true => rfl
  | false => exact (congrArg Ctx.ctl (s.me_produce 0 { id := s.ids, seq := s.cur.ent.seq }) :)
theorem State.badUnit_one {e : Elem} (h : ∀ u ∈ e.units, u ∉ s.bad) : s.badUnit [e] = none := by
  have hu : unitsOf [e] = e.units.eraseDups := congrArg List.eraseDups (List.append_nil _)
  rw [State.badUnit, hu, List.find?_eq_none.2 fun u hm => by simpa using h u (List.mem_eraseDups.1 hm)]
  rfl
theorem execAmo_full {g : Guard} (op sc : BitVec 3) (sk : BitVec 6) (m : MemArg) (hg : s.guard g = true)
    (h : 16 ≤ (s.me.rqGet 0).length) : execAmo g op false sc sk m s = .next s.unissue := by
  simp [execAmo, hg, Ctx.rqRoom, h]
theorem execAmo_sends {g : Guard} (op sc : BitVec 3) {nq : Bool} (sk : BitVec 6) {m : MemArg} {a : Acc} {e : Elem}
    (hg : s.guard g = true) (hroom : nq = false → (s.me.rqGet 0).length < 16)
    (ha : s.access s.cur.who m.le.toNat true false [s.memCoords m (s.lay s.cur.who m.le.toNat)] = .ok a) (he : a.elems = [e])
    (hk : amoKind a.fmt = true) (hgood : ∀ u ∈ e.units, u ∉ s.bad) :
    execAmo g op nq sc sk m s = .next ((s.amoPending nq).sendStep ((s.amoPending nq).partOf s.cur.who)
      (memCls m (s.lay s.cur.who m.le.toNat)) e.key (s.amoStep op nq sk a e)) := by
  have hwait : (!nq && !s.me.rqRoom 0) = false := by
    cases nq with
    | true => rfl
    | false => simp [Ctx.rqRoom, hroom rfl]
  have hctl := s.amoPending_ctl nq
  have hstep : ∀ t : State, t.me.ctl = s.me.ctl → s.amoStep op nq sk a e =
      { addr := e.addr, w := e.w, op := op.toNat, v := t.sreg sk, v2 := t.me.ctl.sget (sk.toNat + 1),
        sgn := dKind a.fmt == 6 || dKind a.fmt == 7, qid := if nq then none else some s.ids } := fun t ht => by
    simp only [State.sreg, ht]
    rfl
  simp only [execAmo, hg, hwait, ha, he, hk, State.badUnit_one hgood, hstep _ hctl]
  rfl

/-- With no open access of its own in the way, a step on an element outside the drawers performs at once. -/
theorem State.sendStep_near {part cls key : Nat} {b : AmoOp} (hd : drawerOf (b.addr / 8) = none)
    (hfree : ∀ q ∈ s.fab.reqs, q.open s.cur.who = true → q.cmd = none → q.unit ∉ (b.elem key).units) :
    s.sendStep part cls key b = s.perform s.cur.who key b := by
  have hnone : (s.fab.reqs.any fun r => r.open s.cur.who && r.cmd.isNone && (b.elem key).units.contains r.unit) = false := by
    rw [List.any_eq_false]
    intro q hq h
    obtain ⟨⟨hopen, hcmd⟩, hunit⟩ := by simpa only [Bool.and_eq_true, Option.isNone_iff_eq_none, List.contains_iff_mem] using h
    exact hfree q hq hopen hcmd hunit
  unfold State.sendStep
  unfold AmoOp.elem at hnone
  simp only [hd, hnone]
  rfl
theorem keyedAddr_drawer {a d : Nat} (h : drawerOf a = some d) : keyedAddr a = true := by
  have hl : localBase = 2 ^ 46 := rfl
  rw [drawerOf, hl] at h
  rw [keyedAddr, hl, decide_eq_true_eq]
  split_ifs at h <;> omega
/-- An element of a drawer lies in one unit. -/
theorem Elem.units_drawer {e : Elem} {d : Nat} (h : drawerOf (e.addr / 8) = some d) : e.units.head? = some (e.units.headD 0) := by
  have hk := keyedAddr_drawer h
  rw [Elem.units, if_pos hk]
  rfl
/-- The request that takes a step to its drawer. -/
def State.stepReq (s : State) (part cls key d : Nat) (b : AmoOp) : DReq :=
  { id := s.ids, drawer := d, unit := (b.elem key).units.headD 0, part := part, cls := cls, kind := 2, who := s.cur.who,
    die := dieOfWho s.cur.who, key := key, amo := some b, pc := s.cur.ent.pc, sl := s.cur.slot.num, order := s.cyc }
theorem State.sendStep_far {part cls key d : Nat} {b : AmoOp} (hd : drawerOf (b.addr / 8) = some d) :
    s.sendStep part cls key b =
      s.besides s.ctxs (s.ids + 1) { s.fab with reqs := s.fab.reqs ++ [s.stepReq part cls key d b] } := by
  simp only [State.sendStep, hd]
  rfl

/-- A step of a drawer that may perform leaves the requests and performs (R364). -/
theorem execDrawerWritePerforms_step {id : Nat} {r : DReq} {b : AmoOp} (hr : s.req id = some r) (hk : r.kind = 2) (hb : r.amo = some b)
    (hmay : s.mayPerform r = true) : execDrawerWritePerforms id s =
      .next ((s.besides s.ctxs s.ids { s.fab with reqs := s.fab.reqs.filter fun q => q.id != id }).perform r.who r.key b) := by
  simp only [execDrawerWritePerforms, hr, hk, hb, hmay]
  rfl

/-- An `amo` whose step performs at once (R198). -/
theorem State.amo_near {op : BitVec 3} {nq : Bool} {sk : BitVec 6} {a : Acc} {e : Elem} {part cls : Nat}
    (hd : drawerOf (e.addr / 8) = none) (hfree : ∀ q ∈ s.fab.reqs, q.open s.cur.who = true → q.cmd = none → q.unit ∉ e.units)
    (hnew : ∀ x ∈ s.me.rqGet 0, x.id ≠ s.ids) :
    let b := s.amoStep op nq sk a e
    let t := (s.amoPending nq).sendStep part cls e.key b
    t.mem = (s.putElem e (b.new (s.elem e))).mem ∧ (nq = true → t.ctxs = s.ctxs) ∧ (nq = false →
      (t.ctx s.cur.who).rqGet 0 = s.me.rqGet 0 ++ [{ id := s.ids, arrived := true, data := b.ret (s.elem e), seq := s.cur.ent.seq }]) := by
  intro b t
  have hpend := s.amoPending_besides nq
  have hcur : (s.amoPending nq).cur = s.cur := by rw [hpend]; rfl
  have ht : t = (s.amoPending nq).perform s.cur.who e.key b := by
    rw [← hcur]
    refine State.sendStep_near hd ?_
    rw [hcur, hpend]
    exact hfree
  refine ⟨?_, fun hnq => ?_, fun hnq => ?_⟩
  · rw [ht, State.perform_mem _ _ (by rfl), hpend, State.stepped_besides]
    rfl
  · subst hnq
    rw [ht, State.perform_silent _ _ (by rfl) (by rfl), State.stepped_ctxs]
    rfl
  · subst hnq
    rw [ht, State.perform_answers (id := s.ids) _ _ (by rfl) (by rfl), State.ctx_modCtx, State.stepped_ctx, hpend, State.elem_besides, ← hpend]
    have hctx : (s.amoPending false).ctx s.cur.who = s.me.rqPush 0 { id := s.ids, seq := s.cur.ent.seq } := (s.produce_becomes 0 _).2
    rw [hctx, Ctx.rqGet_rqPush, arrive_append (e := { id := s.ids, seq := s.cur.ent.seq }) _ hnew]
    exact aget_aset_self ..

/-- Settles O26: a step by what it makes of its element, at once or when its drawer request performs. -/
theorem atomicStepsPerform : Obligations.AtomicStepsPerform := by
  unfold Obligations.AtomicStepsPerform
  intro g op sc nq sk m a e s hg who step makes back
  refine ⟨?_, ?_, fun id r b hr hk hb hbar hmay => ?_⟩
  · intro hnq hfull
    subst hnq
    exact execAmo_full op sc sk m hg hfull
  · intro ha he hk hgood hroom hnew old v2 sgn
    have hstep := execAmo_sends op sc sk hg hroom ha he hk hgood
    have hsgn : (s.amoStep op nq sk a e).sgn = true ↔ sgn := by simp [State.amoStep, sgn]
    refine ⟨fun hd hfree => ?_, fun d hd => ?_⟩
    · obtain ⟨hmem, hquiet, hback⟩ := State.amo_near (op := op) (nq := nq) (sk := sk) (a := a)
        (part := (s.amoPending nq).partOf who) (cls := memCls m (s.lay who m.le.toNat)) hd hfree hnew
      refine ⟨_, _, hstep, hmem, AmoOp.new_eq hsgn old, hquiet, fun hnq => ?_⟩
      rw [hback hnq, AmoOp.ret_eq hsgn]
      rfl
    · have hpend := s.amoPending_besides nq
      have hwho : (s.amoPending nq).cur.who = who := by rw [hpend]; rfl
      refine ⟨_, (s.amoPending nq).stepReq ((s.amoPending nq).partOf who) (memCls m (s.lay who m.le.toNat)) e.key d (s.amoStep op nq sk a e),
        s.amoStep op nq sk a e, hstep.trans (congrArg _ (State.sendStep_far hd)), ?_, ?_, rfl, rfl, rfl, rfl, rfl, hwho, rfl,
        (Elem.units_drawer hd).symm, rfl, rfl, rfl, rfl, rfl, rfl, rfl, hsgn, rfl, fun hnq => ?_, fun hnq => ?_⟩
      · rw [hpend]
        rfl
      · rw [hpend]
        rfl
      · subst hnq
        exact ⟨rfl, rfl⟩
      · subst hnq
        exact ⟨rfl, s.queued_produce 0 _ |>.queue⟩
  · intro f old
    refine ⟨_, b.new old, execDrawerWritePerforms_step hr hk hb hmay, ?_, ?_, AmoOp.new_eq Iff.rfl old, fun hq => ?_, fun k hq => ?_⟩
    · rw [State.req, State.perform_fab _ _ hbar]
      exact List.find?_eq_none.2 fun q hq => by simpa using (List.mem_filter.1 hq).2
    · rw [State.perform_mem _ _ hbar, State.stepped_besides]
      rfl
    · rw [State.perform_silent _ _ hbar hq, State.stepped_ctxs]
      rfl
    · rw [State.perform_answers _ _ hbar hq, State.ctx_modCtx, State.stepped_ctx, AmoOp.ret_eq Iff.rfl]
      exact aget_aset_self ..
end Sys2Proof.Machine
end

section
/-! Special functions, reductions, scans and the vector result queues (R49, R50, R85, R138, R159, R160, R162, R171). -/

namespace Sys2Proof.Machine

variable {s : State} {c : VC}

/-! ## Pushing entries behind the slot's queue (R49, R159) -/

/-- The entry that a producer pushes of a value, to arrive after `lat` ticks. -/
def State.entryOf (s : State) (lat x : Nat) : QEnt := { id := s.ids, left := lat, data := x, seq := s.cur.ent.seq, fresh := true }
/-- Entries pushed one by one stand behind the others, with rising identifiers. -/
theorem State.Queued.foldl {q : Nat} (lat : Nat) (data : List Nat) : ∀ {t : State} {es : List QEnt}, s.Queued t q es →
    s.Queued (data.foldl (fun u x => u.produce q (u.entryOf lat x)) t) q (es ++ (List.range data.length).map fun k =>
      { id := t.ids + k, left := lat, data := data.getD k 0, seq := s.cur.ent.seq, fresh := true }) := by
  induction data with
  | nil => exact fun h => (List.append_nil _).symm ▸ h
  | cons x r ih =>
    intro t es h
    have hcur := h.becomes.cur
    have hr := ih (h.produce (t.entryOf lat x))
    have hids : (t.produce q (t.entryOf lat x)).ids = t.ids + 1 := rfl
    rw [hids] at hr
    refine (congrArg (s.Queued _ q) ?_).mp hr
    rw [List.length_cons, List.range_succ_eq_map, List.map_cons, List.map_map, List.append_assoc, State.entryOf, hcur]
    simp [Function.comp_def, Nat.add_assoc, Nat.add_comm 1]
theorem vpush_full {lat occ : Nat} {data : List Nat} {fl : BitVec 7} (h : 16 < (s.me.rqGet (slotQueue s.cur.slot)).length + data.length) :
    vpush lat occ data fl s = s.unissue := if_pos h
theorem vpush_room {lat occ : Nat} {data : List Nat} {fl : BitVec 7} (h : (s.me.rqGet (slotQueue s.cur.slot)).length + data.length ≤ 16) :
    vpush lat occ data fl s = data.foldl (fun u x => u.produce (slotQueue s.cur.slot) (u.entryOf lat x)) ((s.occupy occ).setFlags fl) :=
  if_neg (Nat.not_lt.2 h)
/-- What an operation with queue entries does, from its one equation. -/
theorem entryOp_of {i : Instr} {lat occ m : Nat} {data : List Nat} {fl : BitVec 7} {p : List Nat → BitVec 7 → Prop}
    (hi : exec i s = .next (vpush lat occ data fl s)) (hm : data.length = m) (hp : p data fl) : s.EntryOp i lat occ m p := by
  subst hm
  refine ⟨fun h => hi.trans (congrArg _ (vpush_full h)), fun h => ⟨_, data, fl, hi.trans (congrArg _ (vpush_room h)), rfl, hp, ?_⟩⟩
  have hflags := (s.occupy occ).setFlags_becomes fl
  obtain ⟨hb, -, hq, hothers⟩ := (((s.occupy occ).setFlags fl).queued_nil (slotQueue s.cur.slot)).foldl lat data
  rw [State.me_setFlags] at hb hq hothers
  exact ⟨hflags.trans hb, hq, hothers⟩

/-! ## Entries of lanes (R138) -/

/-- The results of the on lanes; an off lane is zero and sets no flag. -/
def State.laneResults (s : State) (c : VC) (n : Nat) (f : Nat → Nat × BitVec 7) : List (Nat × BitVec 7) :=
  (List.range n).map fun k => if s.on c k then f k else (0, 0)
/-- The flags that results set between them. -/
def allFlags (l : List (Nat × BitVec 7)) : BitVec 7 := l.foldl (fun a r => a ||| r.2) 0
theorem elemAt_laneResults (w : Nat) {n k : Nat} (f : Nat → Nat × BitVec 7) (h : k < n) :
    elemAt (packElems w ((s.laneResults c n f).map (·.1))) w k = if s.on c k then (f k).1 % 2 ^ w else 0 := by
  rw [State.laneResults, List.map_map, elemAt_pack_range _ _ _ _ h, Function.comp_apply]
  split
  · rfl
  · exact Nat.zero_mod _
theorem flagsOf_laneResults (n : Nat) (f : Nat → Nat × BitVec 7) : flagsOf n (s.on c) f (allFlags (s.laneResults c n f)) := by
  intro k
  have h := foldl_or_getLsbD ((s.laneResults c n f).map (·.2)) 0 k
  rw [List.foldl_map] at h
  rw [allFlags, h]
  constructor
  · rintro (h0 | ⟨y, hy, hk⟩)
    · simp at h0
    · obtain ⟨i, hi, rfl⟩ : ∃ i, i < n ∧ (if s.on c i then f i else (0, 0)).2 = y := by simpa [State.laneResults] using hy
      by_cases ho : s.on c i = true
      · exact ⟨i, hi, ho, by simpa [ho] using hk⟩
      · simp [ho] at hk
  · rintro ⟨i, hi, ho, hk⟩
    exact .inr ⟨(f i).2, by simpa [State.laneResults] using ⟨i, hi, by simp [ho]⟩, hk⟩
theorem foldl_flags (l : List (Nat × BitVec 7)) (x : BitVec 7) : l.foldl (fun a r => a ||| r.2) x = x ||| allFlags l := by
  induction l generalizing x with
  | nil => exact (BitVec.or_zero ..).symm
  | cons r l ih =>
    have hr : allFlags (r :: l) = r.2 ||| allFlags l := (ih (0 ||| r.2)).trans (congrArg (· ||| allFlags l) BitVec.zero_or)
    rw [List.foldl_cons, ih, hr, BitVec.or_assoc]

/-! ## Special functions (R159, R160) -/

/-- Lane `k` of a function's result, at its rounding `i`. -/
def State.special (s : State) (c : VC) (va : BitVec 11) (i : Nat) (g : FVal → FVal × BitVec 7) (k : Nat) : Nat × BitVec 7 :=
  s.rnd c.et c.rm k i (g (dval c.et (elemAt (s.vreg .v va) c.et.width k)))
theorem vspecial_one (g : FVal → FVal × BitVec 7) (va : BitVec 11) :
    let l := s.laneResults c (lanes c.et.width) (s.special c va 0 g)
    vspecial c [g] va s = .next (vpush 12 1 [packElems c.et.width (l.map (·.1))] (allFlags l) s) := rfl
theorem vspecial_two (g h : FVal → FVal × BitVec 7) (va : BitVec 11) :
    let l := s.laneResults c (lanes c.et.width) (s.special c va 0 g)
    let r := s.laneResults c (lanes c.et.width) (s.special c va 1 h)
    vspecial c [g, h] va s = .next
      (vpush 12 2 [packElems c.et.width (l.map (·.1)), packElems c.et.width (r.map (·.1))] (allFlags l ||| allFlags r) s) := by
  intro l r
  rw [← foldl_flags]
  rfl

/-! ## Reductions and scans (R85, R162) -/

/-- What a reduction pushes, with its flags. -/
def State.reduce (s : State) (c : VC) (op : BitVec 2) (xs : List Nat) : Nat × BitVec 7 :=
  if op = 0 then (if c.et.isI then (wrapI 64 (xs.foldl (fun a x => a + ival c.et x) 0), 0) else treeSum s c 11 1 xs)
  else (xs.tail.foldl (pick c.et (op == 2)) (xs.headD 0), 0)
theorem execVred_eq (op : BitVec 2) (va : BitVec 11) : execVred c op va s =
    .next (vpush 8 1 [(s.reduce c op (s.redLanes c op.toNat va)).1] (s.reduce c op (s.redLanes c op.toNat va)).2 s) := rfl
theorem State.reduce_sum (h : c.et.isI = true) {xs : List Nat} :
    s.reduce c 0 xs = (wrapI 64 (xs.foldl (fun a x => a + ival c.et x) 0), 0) := (if_pos rfl).trans (if_pos h)
theorem State.reduce_tree (h : c.et.isI = false) {xs : List Nat} : s.reduce c 0 xs = treeSum s c 11 1 xs :=
  (if_pos rfl).trans (if_neg (Bool.eq_false_iff.1 h))
theorem State.reduce_extreme {op : BitVec 2} (h : op ≠ 0) {xs : List Nat} :
    s.reduce c op xs = (xs.tail.foldl (pick c.et (op == 2)) (xs.headD 0), 0) := if_neg h
/-- An off lane adds nothing to an integer sum. -/
theorem ival_identity {t : ETy} (h : t.isI = true) : ival t (identity t 0) = 0 := by
  have hpos : ¬ 2 ^ (t.width - 1) ≤ 0 := Nat.not_le.2 (Nat.two_pow_pos _)
  simp [identity, ival, h]
theorem foldl_add_range (n : Nat) (f : Nat → Int) : (List.range n).foldl (fun a k => a + f k) 0 = ∑ k ∈ Finset.range n, f k := by
  induction n with
  | zero => rfl
  | succ n ih => rw [List.range_succ, List.foldl_append, ih, Finset.sum_range_succ]; rfl
theorem State.sum_redLanes (va : BitVec 11) (h : c.et.isI = true) : (s.redLanes c 0 va).foldl (fun a x => a + ival c.et x) 0 =
    ∑ k ∈ Finset.range (lanes c.et.width), if s.on c k then ival c.et (elemAt (s.vreg .v va) c.et.width k) else 0 := by
  rw [State.redLanes, List.foldl_map, foldl_add_range]
  refine Finset.sum_congr rfl fun k _ => ?_
  split
  · rfl
  · exact ival_identity h
theorem wrapI_cast (w : Nat) (i : Int) : (wrapI w i : Int) = i % 2 ^ w :=
  Int.toNat_of_nonneg (Int.emod_nonneg _ (pow_ne_zero _ (by decide)))

/-- One step of a scan, at lane `k`. -/
def State.scanStep (s : State) (c : VC) (op k acc x : Nat) : Nat × BitVec 7 :=
  if op = 0 then
    (if c.et.isI then ((acc + x) % 2 ^ c.et.width, 0) else s.rnd c.et c.rm k 0 ((dval c.et acc).add (c.rm == 2) (dval c.et x)))
  else (pick c.et (op == 2) acc x, 0)
/-- The running values of a scan, which the first element starts. -/
def State.scan (s : State) (c : VC) (op : Nat) : List Nat → List (Nat × BitVec 7)
  | [] => []
  | x :: r => (x, 0) :: scanFrom s c op 1 x r
theorem scanFrom_length (op : Nat) (l : List Nat) : ∀ i acc, (scanFrom s c op i acc l).length = l.length := by
  induction l with
  | nil => exact fun _ _ => rfl
  | cons x r ih => exact fun i acc => congrArg (· + 1) (ih ..)
theorem State.scan_length (op : Nat) (l : List Nat) : (s.scan c op l).length = l.length := by
  cases l with
  | nil => rfl
  | cons x r => exact congrArg (· + 1) (scanFrom_length op r 1 x)
/-- Each running value is one step on from the value before it. -/
theorem scanFrom_next (op : Nat) (l : List Nat) : ∀ (i : Nat) (y : Nat × BitVec 7) (k : Nat), k < l.length →
    (y :: scanFrom s c op i y.1 l).getD (k + 1) (0, 0) =
      s.scanStep c op (i + k) ((y :: scanFrom s c op i y.1 l).getD k (0, 0)).1 (l.getD k 0) := by
  induction l with
  | nil => exact fun _ _ _ h => absurd h (Nat.not_lt_zero _)
  | cons x r ih =>
    intro i y k hk
    cases k with
    | zero => rfl
    | succ k =>
      have hr := ih (i + 1) (s.scanStep c op i y.1 x) k (Nat.lt_of_succ_lt_succ hk)
      rw [Nat.add_assoc, Nat.add_comm 1] at hr
      exact hr
theorem State.scan_next (op : Nat) {l : List Nat} {k : Nat} (h : k + 1 < l.length) : (s.scan c op l).getD (k + 1) (0, 0) =
    s.scanStep c op (k + 1) ((s.scan c op l).getD k (0, 0)).1 (l.getD (k + 1) 0) := by
  cases l with
  | nil => exact absurd h (Nat.not_lt_zero _)
  | cons x r =>
    rw [Nat.add_comm k 1]
    have hr := scanFrom_next (s := s) (c := c) op r 1 (x, 0) k (Nat.lt_of_succ_lt_succ h)
    rw [Nat.add_comm k 1] at hr
    rwa [Nat.add_comm 1 k] at hr ⊢
theorem State.scan_first (op : Nat) (l : List Nat) : (s.scan c op l).getD 0 (0, 0) = (l.headD 0, 0) := by cases l <;> rfl
theorem execVscan_eq (op : BitVec 2) (va : BitVec 11) : execVscan c op va s =
    (let l := s.laneResults c (lanes c.et.width) fun k => (s.scan c op.toNat (s.redLanes c op.toNat va)).getD k (0, 0)
     .next (vpush 8 1 [packElems c.et.width (l.map (·.1))] (allFlags l) s)) := by
  have hlen : (s.scan c op.toNat (s.redLanes c op.toNat va)).length = lanes c.et.width := by
    rw [State.scan_length, State.redLanes, List.length_map, List.length_range]
  rw [← hlen]
  rfl

/-! ## The vector result queues (R50, R171) -/

theorem execVqpop_takes (vd : BitVec 11) (pd : BitVec 4) {q5 : Bool} (eb : Bool) {e : QEnt}
    (h : s.me.rqHead (if q5 then 5 else 4) = some e) : execVqpop c vd pd q5 eb s =
      (let t := vput c 1 1 .v vd c.et.width (lanes c.et.width) (fun i => (elemAt e.data c.et.width i, 0))
        (s.modMe fun x => x.rqPop (if q5 then 5 else 4))
       .next (if t.guard c.g then t.postP 1 pd true else t)) := by
  rw [execVqpop, h]
theorem execVqpop_empty (vd : BitVec 11) (pd : BitVec 4) {q5 : Bool} (h : s.me.rqHead (if q5 then 5 else 4) = none) :
    execVqpop c vd pd q5 true s = (let t := vput c 1 1 .v vd c.et.width (lanes c.et.width) (fun _ => (0, 0)) s
      .next (if t.guard c.g then t.postP 1 pd false else t)) := by
  rw [execVqpop, h]
  rfl
theorem execVqpop_blocks (vd : BitVec 11) (pd : BitVec 4) {q5 : Bool} (h : s.me.rqHead (if q5 then 5 else 4) = none) :
    execVqpop c vd pd q5 false s = .next (s.block (.queue (if q5 then 5 else 4))) := by
  rw [execVqpop, h]
  rfl
/-- Lanes and a predicate together: under a false guard neither. -/
theorem vput_postP {i : Instr} {p : State} (lat : Nat) (vd : BitVec 11) (w n : Nat) (f : Nat → Nat × BitVec 7) (pd : BitVec 4) (b : Bool)
    (hg : p.guard c.g = s.guard c.g)
    (hi : exec i s = (let t := vput c lat 1 .v vd w n f p; .next (if t.guard c.g then t.postP 1 pd b else t))) :
    ∃ t u : State, exec i s = .next u ∧ (s.guard c.g = false → u = p.occupy 1) ∧
      (s.guard c.g = true → p.Lanes t c lat 1 .v vd w n f ∧ t.YieldsP u 1 pd b) := by
  refine ⟨vput c lat 1 .v vd w n f p, _, hi, fun h => ?_, fun h => ?_⟩
  · have hoff := vput_off lat 1 .v vd w n f (hg.trans h)
    simp only [hoff, State.occupy_guard, hg, h, Bool.false_eq_true, if_false]
  · have hl := vput_lanes lat 1 .v vd w n f (hg.trans h)
    refine ⟨hl, ?_⟩
    simp only [hl.guard, hg, h, if_true]
    exact State.postP_yields ..

/-- Settles O35: each operation with queue entries by its one push, and vqpop by its lanes and its predicate. -/
theorem vectorQueueResults : Obligations.VectorQueueResults := by
  unfold Obligations.VectorQueueResults
  intro c va vd pd q5 e s w n q a lane holds special xs next
  have hholds : ∀ f, holds (packElems w ((s.laneResults c n f).map (·.1))) f := fun f k hk => elemAt_laneResults w f hk
  have hspecial : ∀ (i : Instr) (g : FVal → FVal × BitVec 7), exec i s = vspecial c [g] va s → special i g := fun i g hi =>
    entryOp_of (hi.trans (vspecial_one g va)) rfl ⟨hholds _, flagsOf_laneResults _ _⟩
  have hnext : ∀ (op : BitVec 2) (k acc x : Nat), s.scanStep c op.toNat k acc x = next op k acc x := fun op k acc x => by
    have hop : ∀ o : BitVec 2, (o.toNat = 0 ↔ o = 0) ∧ (o.toNat == 2) = (o == 2) := by decide
    simp only [State.scanStep, hop, next, w]
  refine ⟨hspecial _ _ rfl, hspecial _ _ rfl, hspecial _ _ rfl, hspecial _ _ rfl, hspecial _ _ rfl, hspecial _ _ rfl,
    entryOp_of (vspecial_two _ _ va) rfl ⟨hholds _, hholds _, _, _, rfl, flagsOf_laneResults _ _, flagsOf_laneResults _ _⟩,
    fun hI => entryOp_of (execVred_eq 0 va) rfl ?_, fun hF => entryOp_of (execVred_eq 0 va) rfl ?_,
    fun op hop => entryOp_of (execVred_eq op va) rfl ?_, fun op _ => entryOp_of (execVscan_eq op va) rfl ⟨fun k =>
      (s.scan c op.toNat (xs op.toNat)).getD k (0, 0), State.scan_first .., fun k hk => ?_, hholds _, flagsOf_laneResults _ _⟩,
    fun he eb => vput_postP 1 vd w n _ pd true ?_ (execVqpop_takes vd pd eb he),
    fun he => ⟨execVqpop_blocks vd pd he, vput_postP 1 vd w n _ pd false rfl (execVqpop_empty vd pd he)⟩⟩
  · rw [State.reduce_sum hI, ← State.sum_redLanes va hI]
    exact ⟨rfl, wrapI_cast ..⟩
  · rw [State.reduce_tree hF]
    rfl
  · rw [State.reduce_extreme (by rcases hop with rfl | rfl <;> decide)]
    exact ⟨rfl, rfl⟩
  · have hlen : (xs op.toNat).length = n := (List.length_map _).trans List.length_range
    exact (State.scan_next _ (hk.trans_eq hlen.symm)).trans (hnext ..)
  · rw [State.guard, State.me_modMe, Ctx.rqPop_head he]
    rfl
end Sys2Proof.Machine
end

section
/-! Masks, rings and counters of the vector slots (R46, R141, R149, R166 to R169, R172). -/

namespace Sys2Proof.Machine

variable {s : State} {c : VC}

/-! ## Writes of masks (R46, R149) -/

theorem testBit_laneBits (l : List Bool) : ∀ k, (laneBits 1 l).testBit k = l.getD k false := by
  induction l with
  | nil => exact fun k => Nat.zero_testBit k
  | cons b l ih =>
    have hhead : (if b then ones 1 else 0) % 2 ^ 1 = b.toNat := by cases b <;> rfl
    have hcons : laneBits 1 (b :: l) = b.toNat + laneBits 1 l * 2 := congrArg (· + laneBits 1 l * 2) hhead
    have hb := b.toNat_le
    intro k
    rw [hcons]
    cases k with
    | zero => cases b <;> simp [Nat.testBit_zero]
    | succ k => rw [Nat.testBit_succ, show (b.toNat + laneBits 1 l * 2) / 2 = laneBits 1 l by omega, ih]; rfl
theorem getD_map_range (n : Nat) (f : Nat → Bool) (k : Nat) : ((List.range n).map f).getD k false = (decide (k < n) && f k) := by
  by_cases h : k < n <;> simp [h]
theorem testBit_rest {n k : Nat} (h : k < 1024) : (ones 1024 ^^^ ones n).testBit k = decide (n ≤ k) := by
  simp only [ones, Nat.testBit_xor, Nat.testBit_two_pow_sub_one, h, decide_true, Bool.true_xor, ← decide_not, Nat.not_lt]
theorem vputMask_off {lat occ : Nat} {md : BitVec 3} {n : Nat} {f : Nat → Bool} (h : s.guard c.g = false) :
    vputMask c lat occ md n f s = s.occupy occ := by
  simp [vputMask, h]
/-- The bits of the off lanes are not written, and those beyond the lanes are written as zero. -/
theorem vputMask_on (lat occ : Nat) (md : BitVec 3) (n : Nat) (f : Nat → Bool) (h : s.guard c.g = true) : ∃ v bm : Nat,
    (s.occupy occ).Issued (vputMask c lat occ md n f s) s.me.ctl [s.result s.ids lat (.mask md.toNat) v bm] ∧
    ∀ k, k < 1024 → bm.testBit k = (decide (n ≤ k) || s.on c k) ∧ (n ≤ k → v.testBit k = false) ∧
      (k < n → s.on c k = true → v.testBit k = f k) := by
  simp only [vputMask, State.occupy_guard, State.occupy_on, h, Bool.not_true, Bool.false_eq_true, if_false]
  refine ⟨_, _, (s.occupy occ).post_issued .., fun k hk => ⟨?_, fun hn => ?_, fun hn ho => ?_⟩⟩
  · rw [Nat.testBit_or, testBit_laneBits, getD_map_range, testBit_rest hk]
    by_cases hn : n ≤ k
    · simp [hn]
    · simp [hn, Nat.lt_of_not_le hn]
  · rw [testBit_laneBits, getD_map_range, decide_eq_false (Nat.not_lt.2 hn), Bool.false_and]
  · rw [testBit_laneBits, getD_map_range, decide_eq_true hn, ho, Bool.true_and, Bool.true_and]
/-- What an operation on a mask does, from its one equation. -/
theorem maskOp_of {i : Instr} {lat occ : Nat} {md : BitVec 3} {n : Nat} {f : Nat → Bool}
    (h : exec i s = .next (vputMask c lat occ md n f s)) : s.MaskOp i c lat occ md n f :=
  ⟨fun hg => h.trans (congrArg _ (vputMask_off hg)), fun hg =>
    have ⟨v, bm, hi, hbits⟩ := vputMask_on lat occ md n f hg
    ⟨_, v, bm, h, hi, hbits⟩⟩
theorem execVcmp_integer {cond : FCond} {md : BitVec 3} {va : BitVec 11} {vb : VSrc} (h : c.et.isI = true) : execVcmp c cond md va vb s =
    .next (vputMask c 2 1 md (lanes c.et.width) (fun i =>
      ncond cond (ival c.et (elemAt (s.vreg .v va) c.et.width i)) (ival c.et (s.src c.et.width vb i))) s) := by
  have hd : c.et ≠ .fp64 := fun he => Bool.false_ne_true (he ▸ h :)
  simp only [execVcmp, latOf, occOf, h, hd, if_true, if_false]
theorem execVcmp_float {cond : FCond} {md : BitVec 3} {va : BitVec 11} {vb : VSrc} (h : c.et.isI = false) : execVcmp c cond md va vb s =
    .next (vputMask c (if c.et = .fp64 then 6 else 4) (if c.et = .fp64 then 2 else 1) md (lanes c.et.width) (fun i =>
      fcond cond (dval c.et (elemAt (s.vreg .v va) c.et.width i)) (dval c.et (s.src c.et.width vb i))) s) := by
  simp only [execVcmp, latOf, occOf, h, Bool.false_eq_true, if_false]
theorem execVpmovTomask_eq (md : BitVec 3) (va : BitVec 11) : execVpmovTomask c md va s =
    .next (vputMask c 2 1 md (lanes c.et.width) (fun i => decide (elemAt (s.vreg .v va) c.et.width i ≠ 0)) s) := by
  have hne : ∀ x : Nat, (x != 0) = decide (x ≠ 0) := fun x => Bool.eq_iff_iff.2 (by simp)
  simp only [execVpmovTomask, hne]

/-! ## vbin (R166) -/

/-- The on lanes of VA with key `j`, in order. -/
def State.withKey (s : State) (c : VC) (va vb : BitVec 11) (j : Nat) : List Nat :=
  (((List.range (lanes c.et.width)).filter (s.on c)).filter fun i => elemAt (s.vreg .v vb) c.et.width i == j).map fun i =>
    elemAt (s.vreg .v va) c.et.width i
/-- The on lanes with keys beyond `k`. -/
def State.beyond (s : State) (c : VC) (vb : BitVec 11) (k : Nat) : List Nat :=
  ((List.range (lanes c.et.width)).filter (s.on c)).filter fun i => decide (k < elemAt (s.vreg .v vb) c.et.width i)
/-- The state in which each ring has its lanes. -/
def State.binned (s : State) (c : VC) (k : BitVec 4) (va vb : BitVec 11) (b : BitVec 6) : State :=
  (List.range (k.toNat + 1)).foldl (fun u j => u.pushSlot (b.toNat + j) 512 (packElems c.et.width (s.withKey c va vb j))) s
/-- What counts the lanes of key `j` in VD. -/
def State.binCount (s : State) (c : VC) (k : BitVec 4) (va vb : BitVec 11) (j : Nat) : Nat :=
  if j = 16 then (s.beyond c vb k.toNat).length else if j ≤ k.toNat then (s.withKey c va vb j).length else 0
theorem State.binned_cur (k : BitVec 4) (va vb : BitVec 11) (b : BitVec 6) : (s.binned c k va vb b).cur = s.cur := by
  refine foldl_leaves State.cur _ (fun _ _ => ?_) s
  rfl
theorem State.binned_guard (k : BitVec 4) (va vb : BitVec 11) (b : BitVec 6) (g : Guard) : (s.binned c k va vb b).guard g = s.guard g := by
  refine foldl_leaves (fun u : State => u.guard g) _ (fun _ _ => ?_) s
  rfl
theorem execVbin_blocks {k : BitVec 4} (vd va vb : BitVec 11) {b : BitVec 6}
    (h : ∃ r ∈ (List.range (k.toNat + 1)).map fun j => b.toNat + j, s.freeSlot r = false) : execVbin c k vd va vb b s =
      .next (s.block (.ring [((List.range (k.toNat + 1)).map fun j => b.toNat + j).map fun r => (s.rk r, 0, 1)])) := by
  obtain ⟨r, hr, hf⟩ := h
  have hall : ((List.range (k.toNat + 1)).map fun j => b.toNat + j).all s.freeSlot = false := List.all_eq_false.2 ⟨r, hr, by simp [hf]⟩
  simp only [execVbin, hall, Bool.not_false, if_true]
theorem execVbin_fires {k : BitVec 4} (vd va vb : BitVec 11) {b : BitVec 6}
    (h : ∀ r ∈ (List.range (k.toNat + 1)).map fun j => b.toNat + j, s.freeSlot r = true) : execVbin c k vd va vb b s =
      .next (let u := (s.binned c k va vb b).occupy 1
        if s.guard c.g then u.postV 4 .v vd (packElems 32 ((List.range 17).map (s.binCount c k va vb))) else u) := by
  have hall : ((List.range (k.toNat + 1)).map fun j => b.toNat + j).all s.freeSlot = true := List.all_eq_true.2 h
  have hg := State.binned_guard (s := s) (c := c) k va vb b c.g
  rw [← hg]
  simp only [execVbin, hall, Bool.not_true, Bool.false_eq_true, if_false]
  cases hb : (s.binned c k va vb b).guard c.g with
  | true => exact congrArg _ (if_neg (show ¬ (!((s.binned c k va vb b).occupy 1).guard c.g) = true by rw [State.occupy_guard, hb]; decide))
  | false => exact congrArg _ (if_pos (show (!((s.binned c k va vb b).occupy 1).guard c.g) = true by rw [State.occupy_guard, hb]; rfl))
theorem lanes_le (t : ETy) : lanes t.width ≤ 1024 := by cases t <;> decide
theorem State.binCount_lt (k : BitVec 4) (va vb : BitVec 11) (j : Nat) : s.binCount c k va vb j < 2 ^ 32 := by
  have hon : ∀ p : Nat → Bool, (((List.range (lanes c.et.width)).filter (s.on c)).filter p).length ≤ 1024 := fun p =>
    (List.length_filter_le ..).trans ((List.length_filter_le ..).trans (List.length_range.trans_le (lanes_le c.et)))
  have hkeyed : (s.withKey c va vb j).length ≤ 1024 := (List.length_map _).trans_le (hon _)
  have hbeyond : (s.beyond c vb k.toNat).length ≤ 1024 := hon _
  unfold State.binCount
  split
  · omega
  · split <;> omega
/-- Lane `j` of the counts: the 17 lanes that count, and zero beyond. -/
theorem State.elemAt_binCounts (k : BitVec 4) (va vb : BitVec 11) (j : Nat) :
    elemAt (packElems 32 ((List.range 17).map (s.binCount c k va vb))) 32 j = s.binCount c k va vb j := by
  by_cases hj : j < 17
  · rw [elemAt_pack_range _ _ _ _ hj, Nat.mod_eq_of_lt (s.binCount_lt k va vb j)]
  · have hk := k.isLt
    rw [elemAt_packElems_ge _ _ (by simpa using hj), State.binCount, if_neg (by omega), if_neg (by omega)]

/-! ## Moves from and to rings (R169) -/

theorem execVmovPop_blocks (vd : BitVec 11) {b : BitVec 6} (h : s.filled b.toNat = false) :
    execVmovPop c vd b s = .next (s.block (.ring [[(s.rk b.toNat, 1, 0)]])) := by
  simp only [execVmovPop, h, Bool.not_false, if_true]
theorem execVmovPop_takes (vd : BitVec 11) {b : BitVec 6} (h : s.filled b.toNat = true) : execVmovPop c vd b s =
    .next (vput c 2 1 .v vd c.et.width (lanes c.et.width) (fun i => (elemAt (s.popSlot b.toNat 512).1 c.et.width i, 0))
      (s.popSlot b.toNat 512).2) := by
  simp only [execVmovPop, h, Bool.not_true, Bool.false_eq_true, if_false]
theorem execVmovPush_blocks (va : BitVec 11) {b : BitVec 6} (h : s.freeSlot b.toNat = false) :
    execVmovPush c b va s = .next (s.block (.ring [[(s.rk b.toNat, 0, 1)]])) := by
  simp only [execVmovPush, h, Bool.not_false, if_true]
theorem execVmovPush_pushes (va : BitVec 11) {b : BitVec 6} (h : s.freeSlot b.toNat = true) : execVmovPush c b va s =
    .next (((s.pushSlot b.toNat 512 (packElems c.et.width ((List.range (lanes c.et.width)).map fun i =>
      if s.on c i then elemAt (s.vreg .v va) c.et.width i else 0))).occupy 1).pace 2) := by
  simp only [execVmovPush, h, Bool.not_true, Bool.false_eq_true, if_false]

/-! ## Counters (R168) -/

/-- What additions add to counter `j` between them. -/
def pipSum (adds : List (Nat × Nat)) (j : Nat) : Nat := ((adds.filter fun p => p.1 == j).map (·.2)).sum
/-- The withheld entry of the sixteen counters of unit `u`. -/
def pipEnt (adds : List (Nat × Nat)) (u : Nat) : WEnt :=
  { cls := 17, unit := u, mask := 0, val := packElems 32 ((List.range 16).map fun j => satAdd32 (pipSum adds (u * 16 + j)) 0) }
def pipEnts (adds : List (Nat × Nat)) : List WEnt := ((List.range 16).filter fun u => adds.any fun p => p.1 / 16 == u).map (pipEnt adds)
theorem foldl_add_eq_pipSum (adds : List (Nat × Nat)) (j : Nat) :
    (adds.filter fun p => p.1 == j).foldl (fun a p => a + p.2) 0 = pipSum adds j := by
  rw [pipSum, List.sum_eq_foldl, List.foldl_map]
/-- Some counter would pass its largest count as the context sees it (log 47). -/
def State.pipPast (s : State) (adds : List (Nat × Nat)) : Bool := adds.any fun p => decide (2 ^ 32 ≤ s.pipSeen p.1 + pipSum adds p.1)
@[simp] theorem State.occupy_pipSeen (n j : Nat) : (s.occupy n).pipSeen j = s.pipSeen j := by
  simp only [State.pipSeen, State.occupy, State.modCore_cur, State.core_modCore]
  rfl
theorem Ctx.hold'_fits {k : Ctx} {l : List WEnt} (h : (l.foldl (fun h e => holdEntry e h) k.held).length ≤ 128) :
    k.hold' l = some { k with held := l.foldl (fun h e => holdEntry e h) k.held } := if_neg (Nat.not_lt.2 h)
theorem State.addPip_fits {adds : List (Nat × Nat)} (h : ((pipEnts adds).foldl (fun h e => holdEntry e h) s.me.held).length ≤ 128) :
    s.addPip adds = ((s.modMe fun _ => { s.me with held := (pipEnts adds).foldl (fun h e => holdEntry e h) s.me.held }).setFlags
      (if s.pipPast adds then fST else 0)).pace 2 := by
  have hfit := Ctx.hold'_fits h
  simp only [State.addPip, foldl_add_eq_pipSum]
  unfold pipEnts pipEnt at hfit
  rw [hfit]
  rfl
/-- Entries of the updated units, as the statement describes them, are the ones that are withheld. -/
theorem eq_pipEnts {adds : List (Nat × Nat)} {es : List WEnt}
    (hu : es.map (·.unit) = (List.range 16).filter fun u => adds.any fun p => p.1 / 16 == u)
    (he : ∀ e ∈ es, e.cls = 17 ∧ e.mask = 0 ∧ e.key = 0 ∧ e.drawer = none ∧ e.part = 0 ∧
      e.val = packElems 32 ((List.range 16).map fun j => Nat.min (pipSum adds (e.unit * 16 + j)) (2 ^ 32 - 1))) : es = pipEnts adds := by
  have hunits : (pipEnts adds).map (·.unit) = (List.range 16).filter fun u => adds.any fun p => p.1 / 16 == u :=
    (List.map_map ..).trans (List.map_id _)
  refine ents_of_units (hu.trans hunits.symm) (f := pipEnt adds) (fun e hm => ?_) fun e hm => ?_
  · obtain ⟨hcls, hmask, hkey, hdrawer, hpart, hval⟩ := he e hm
    cases e
    simp only [WEnt.mk.injEq, pipEnt, satAdd32, Nat.add_zero, true_and]
    exact ⟨hcls, hmask, hval, hkey, hdrawer, hpart⟩
  · obtain ⟨u, -, rfl⟩ := List.mem_map.1 hm
    rfl
/-- Additions to the counters are withheld, and the operation completes after two ticks. -/
theorem State.addPip_withholds {adds : List (Nat × Nat)} (h : ((pipEnts adds).foldl (fun h e => holdEntry e h) s.me.held).length ≤ 128) :
    let f := s.result s.ids 2 (.win 0) 0
    s.Becomes (s.addPip adds) s.cur.who { s.me with
      held := (pipEnts adds).foldl (fun h e => holdEntry e h) s.me.held
      ctl := s.me.ctl.flag (if s.pipPast adds then fST else 0)
      fly := s.me.fly ++ [f]
      flt := { s.me.flt with wawp := s.marks [f] } } := by
  intro f
  have hheld := s.becomes_modMe fun _ => { s.me with held := (pipEnts adds).foldl (fun h e => holdEntry e h) s.me.held }
  have hpost := (s.modMe fun _ => { s.me with held := (pipEnts adds).foldl (fun h e => holdEntry e h) s.me.held }).setFlags_post_issued
    (if s.pipPast adds then fST else 0) 2 (.win 0) 0 0 0
  rw [State.Issued, State.marks, State.me_modMe] at hpost
  rw [State.addPip_fits h]
  exact hheld.trans hpost
theorem State.pipPast_iff {adds : List (Nat × Nat)} :
    (if s.pipPast adds then fST else 0) = fST ↔ ∃ p ∈ adds, 2 ^ 32 ≤ s.pipSeen p.1 + pipSum adds p.1 := by
  have hne : (0 : BitVec 7) ≠ fST := by decide
  have hpast : s.pipPast adds = true ↔ ∃ p ∈ adds, 2 ^ 32 ≤ s.pipSeen p.1 + pipSum adds p.1 := by simp [State.pipPast]
  rw [← hpast]
  split <;> simp_all

/-- Settles O36: masks by their bits, rings by the slots that they give and take, counters by the entries that are withheld. -/
theorem vectorMasksRingsPips : Obligations.VectorMasksRingsPips := by
  unfold Obligations.VectorMasksRingsPips
  intro c cond md k vd va vbr vb b s w n core a y x on rings keyed pushed sumOf counts
  have hcounts : ∀ (i : Instr) (adds : List (Nat × Nat)), exec i s = .next ((s.occupy 1).addPip adds) → counts i adds := by
    intro i adds hi es hu he hroom f
    obtain rfl := eq_pipEnts hu he
    refine ⟨_, if s.pipPast adds then fST else 0, hi, ?_, State.pipPast_iff, ?_⟩
    · split
      · exact .inr rfl
      · exact .inl rfl
    · have h := State.addPip_withholds (s := s.occupy 1) hroom
      simp only [State.pipPast, State.occupy_pipSeen] at h
      exact h
  refine ⟨fun hI => maskOp_of (execVcmp_integer hI), fun hF => maskOp_of (execVcmp_float hF), maskOp_of (execVpmovTomask_eq md va),
    execVbin_blocks vd va vbr, fun hfree => ⟨_, execVbin_fires vd va vbr hfree, fun hg => if_neg (by simp [hg]), fun hg => ?_⟩,
    execVmovPop_blocks vd, ?_, execVmovPush_blocks va, fun hfree => ⟨_, execVmovPush_pushes va hfree, fun i hi => ?_⟩,
    hcounts _ _ rfl, hcounts _ _ rfl, laneOp_of rfl⟩
  · refine ⟨_, ?_, fun j _ => s.elemAt_binCounts k va vbr j⟩
    rw [if_pos hg, ← s.binned_cur (c := c) k va vbr b]
    exact (pushed.occupy 1).post_issued ..
  · intro hfill r u e
    exact ⟨_, execVmovPop_takes vd hfill, fun hg => vput_off _ _ _ _ _ _ _ hg, fun hg => vput_lanes _ _ _ _ _ _ _ hg⟩
  · have ha : a i % 2 ^ w = a i := Nat.mod_mod ..
    rw [elemAt_pack_range _ _ _ _ hi]
    split
    · exact ha
    · exact Nat.zero_mod _
end Sys2Proof.Machine
end

section
/-! Ring instructions (R200 to R202): one slot between a ring and registers, and what a block leaves of the rings. -/

namespace Sys2Proof.Machine

variable {s : State}

/-! ## Blocks leave the rings alone -/

theorem State.seat_ring (c : Nat) (p : Option Nat) (core n : Nat) : (s.seat c p).ring core n = s.ring core n := by
  unfold State.seat
  exact State.ring_modCore (f := fun k => { k with prim := p, sec := _, last := _ }) rfl core n
theorem State.elect_ring (c core n : Nat) : (s.elect c).ring core n = s.ring core n := by
  unfold State.elect
  split
  · rfl
  · exact State.seat_ring ..
theorem State.block_ring (b : Blk) (core n : Nat) : (s.block b).ring core n = s.ring core n := State.elect_ring ..
/-- A context whose operation blocks has changed neither memory nor a ring. -/
theorem blocks_of {i : Instr} {b : Blk} (h : exec i s = .next (s.block b)) (core : Nat) :
    ∃ b, exec i s = .next (s.block b) ∧ (s.block b).mem = s.mem ∧ ∀ k, (s.block b).ring core k = s.ring core k :=
  ⟨b, h, State.block_mem b, fun k => State.block_ring b core k⟩

/-! ## When a ring gives or takes a slot (R66, R208) -/

theorem State.filled_iff (n : Nat) : s.filled n = true ↔
    (s.ring (coreOf s.cur.who) n).en = true ∧
      1 + (s.ring (coreOf s.cur.who) n).tPop ≤ (s.ring (coreOf s.cur.who) n).old.filled := by
  simp [State.filled, Ring.canPop]
theorem State.freeSlot_iff (n : Nat) : s.freeSlot n = true ↔
    (s.ring (coreOf s.cur.who) n).en = true ∧
      1 + (s.ring (coreOf s.cur.who) n).tPush ≤ (s.ring (coreOf s.cur.who) n).old.free ∧
      (s.ring (coreOf s.cur.who) n).old.exf = false ∧ (s.ring (coreOf s.cur.who) n).exf = none := by
  simp [State.freeSlot, Ring.canPush, and_assoc]

/-! ## What each operation does -/

/-- A register and a predicate of one operation. -/
theorem State.postV_postP_issued (left : Nat) (vw : View) (f : BitVec 11) (val : Nat) (pd : BitVec 4) (b : Bool) :
    s.Issued ((s.postV left vw f val).postP left pd b) s.me.ctl
      [s.result s.ids left (.win (s.cur.ent.off vw f)) val (ones (8 * vw.size)) vw.size,
       s.result (s.ids + 1) left (.pred pd.toNat) b.toNat] := by
  have hv := s.post_becomes left (.win (s.cur.ent.off vw f)) val (ones (8 * vw.size)) vw.size
  have hp := (s.postV left vw f val).post_becomes left (.pred pd.toNat) b.toNat 0 0
  have hme : (s.postV left vw f val).me = s.me.launch _ := hv.2
  rw [hme, Ctx.launch_launch _ (by rfl)] at hp
  exact hv.trans hp

variable {g : Guard} {z : BitVec 2} {rg : BitVec 11} {pd : BitVec 4} {rn rn2 : BitVec 6}

theorem execRpop_blocks (h : s.filled rn.toNat = false) :
    execRpop g z rg rn s = .next (s.block (.ring [[(s.rk rn.toNat, 1, 0)]])) := by
  simp only [execRpop, h, Bool.not_false, if_true]
theorem execRpop_takes (h : s.filled rn.toNat = true) :
    execRpop g z rg rn s = .next (
      let u := (s.popSlot rn.toNat (ringView z).size).2
      if s.guard g then u.postV (ringTicks (s.myRing rn.toNat)) (ringView z) rg (s.popSlot rn.toNat (ringView z).size).1 else u) := by
  simp only [execRpop, h, Bool.not_true, Bool.false_eq_true, if_false]
  rfl
theorem execRsel_blocks (h : s.filled rn.toNat = false) (h2 : s.filled rn2.toNat = false) :
    execRsel g z rg pd rn rn2 s = .next (s.block (.ring [[(s.rk rn.toNat, 1, 0)], [(s.rk rn2.toNat, 1, 0)]])) := by
  simp only [execRsel, h, h2, Bool.not_false, Bool.and_self, if_true]
/-- The second ring gives its slot where the first has none (R201). -/
theorem execRsel_takes {n : BitVec 6}
    (h : s.filled rn.toNat = true ∧ n = rn ∨ s.filled rn.toNat = false ∧ s.filled rn2.toNat = true ∧ n = rn2) :
    execRsel g z rg pd rn rn2 s = .next (
      let u := (s.popSlot n.toNat (ringView z).size).2
      if s.guard g then
        (u.postV (ringTicks (s.myRing n.toNat)) (ringView z) rg (s.popSlot n.toNat (ringView z).size).1).postP
          (ringTicks (s.myRing n.toNat)) pd (s.filled rn.toNat)
      else u) := by
  obtain ⟨h1, rfl⟩ | ⟨h1, h2, rfl⟩ := h
  · simp only [execRsel, h1, Bool.not_true, Bool.false_and, Bool.false_eq_true, if_false, if_true]
    rfl
  · simp only [execRsel, h1, h2, Bool.not_true, Bool.and_false, Bool.false_eq_true, if_false]
    rfl
/-- A look at an empty ring gives zero and a false predicate, at another its oldest slot and a true one (R201). -/
theorem execRpeek_looks (hg : s.guard g = true) :
    let r := s.myRing rn.toNat
    execRpeek g z rg pd rn s = .next ((s.postV (ringTicks r) (ringView z) rg
      (if r.old.filled = 0 then 0 else s.ownBytes (ringSlot (coreOf s.cur.who) r r.old.head) (ringView z).size)).postP
        (ringTicks r) pd (decide (1 ≤ r.old.filled))) := by
  intro r
  simp only [execRpeek, hg, Bool.not_true, Bool.false_eq_true, if_false, bne_iff_ne]
  by_cases h0 : r.old.filled = 0
  · rw [if_neg (not_not.2 h0), if_pos h0, h0]
    rfl
  · rw [if_pos h0, if_neg h0, decide_eq_true (Nat.one_le_iff_ne_zero.2 h0)]
theorem execRpush_blocks (h : s.freeSlot rn.toNat = false) :
    execRpush g z rn rg s = .next (s.block (.ring [[(s.rk rn.toNat, 0, 1)]])) := by
  simp only [execRpush, h, Bool.not_false, if_true]
theorem execRpush_pushes (h : s.freeSlot rn.toNat = true) :
    execRpush g z rn rg s = .next (s.pushSlot rn.toNat (ringView z).size (if s.guard g then s.vreg (ringView z) rg else 0)) := by
  simp only [execRpush, h, Bool.not_true, Bool.false_eq_true, if_false]

/-- Settles O27: each operation by the slot that its ring gives or takes, or by its block. -/
theorem ringInstructions : Obligations.RingInstructions := by
  unfold Obligations.RingInstructions
  intro g z rg pd rn rn2 s core vw reg r pops pushes bytes taken lat val blocks
  have filled (n : BitVec 6) : s.filled n.toNat = true ↔ pops n := State.filled_iff n.toNat
  have empty (n : BitVec 6) (h : ¬ pops n) : s.filled n.toNat = false := Bool.eq_false_iff.2 (mt (filled n).1 h)
  have blocked (i : Instr) (b : Blk) (h : exec i s = .next (s.block b)) : blocks i := blocks_of h core
  refine ⟨fun h => ⟨_, execRpop_takes ((filled rn).2 h), fun hg => ?_, fun hg => ?_⟩, fun h => blocked _ _ (execRpop_blocks (empty rn h)),
    fun n h => ?_, fun h h2 => blocked _ _ (execRsel_blocks (empty rn h) (empty rn2 h2)),
    fun hg => ⟨_, execRpeek_looks hg, State.postV_postP_issued ..⟩, fun h => execRpush_pushes ((State.freeSlot_iff rn.toNat).2 h),
    fun h => blocked _ _ (execRpush_blocks (Bool.eq_false_iff.2 (mt (State.freeSlot_iff rn.toNat).1 h)))⟩
  · rw [if_pos hg]
    exact State.post_issued ..
  · exact if_neg (by simp [hg])
  · have hn : s.filled rn.toNat = true ∧ n = rn ∨ s.filled rn.toNat = false ∧ s.filled rn2.toNat = true ∧ n = rn2 :=
      h.imp (fun ⟨h1, e⟩ => ⟨(filled rn).2 h1, e⟩) fun ⟨h1, h2, e⟩ => ⟨empty rn h1, (filled rn2).2 h2, e⟩
    refine ⟨_, execRsel_takes hn, fun hg => if_neg (by simp [hg]), fun hg => ⟨s.filled rn.toNat, filled rn, ?_⟩⟩
    rw [if_pos hg]
    exact State.postV_postP_issued ..
end Sys2Proof.Machine
end

section
/-! Writes of ring registers (R63): RINGST sets the published counts too. -/

namespace Sys2Proof.Machine

variable {s : State}

/-- A write of an idle ring's RINGST sets its counters, and what a read of them sees with them. -/
theorem execRingstWrite_ring (core n : Nat) (v : Word) : ∃ t, exec (.ringstWrite core n v) s = .next t ∧
    t.ring core n = (s.ring core n).writeSt v := ⟨_, rfl, State.ring_modRing ..⟩

/-- Refutes O47: a write of FREE to the idle ring 0 of a reset machine also sets the FREE that a read sees, which the statement
leaves as it was. -/
theorem not_coreRegisterWrites : ¬ Obligations.CoreRegisterWrites := by
  unfold Obligations.CoreRegisterWrites
  intro h
  obtain ⟨-, -, -, t, ht, -, hring, -⟩ := h.1 0 0 0x2000000 State.reset
  obtain ⟨u, hu, hwrite⟩ := execRingstWrite_ring (s := State.reset) 0 0 0x2000000
  obtain rfl : t = u := by rw [ht] at hu; injection hu
  have hold := congrArg (fun r : Ring => r.old.free) (hwrite.symm.trans (hring 0))
  exact absurd hold (by decide)
end Sys2Proof.Machine
end

section
/-! System registers (R63, R299, R301, R302): what a read yields, when a write performs, and the return from a handler. -/

namespace Sys2Proof.Machine

variable {s : State} {g : Guard} {sd sa sb : BitVec 6} {off : BitVec 8}

theorem privileged_runs {lvl : Nat} (f : State → Out) (hl : lvl ≤ s.level s.cur.who) (hg : s.guard g = true) : privileged lvl g s f = f s := by
  rw [privileged, if_neg (Nat.not_lt.2 hl), if_pos hg]

/-! ## Accesses -/

theorem execSysrd_traps {c : Nat} (hl : 1 ≤ s.level s.cur.who) (hg : s.guard g = true)
    (h : s.written.regCause s.cur.who (srnOf (s.srnAt sa off)) false = some c) :
    execSysrd g sd sa off s = .next (s.trap ⟨3, c, BitVec.ofNat 64 (s.srnAt sa off)⟩) := by
  rw [execSysrd, privileged_runs _ hl hg]
  simp only [h]
  rfl
theorem execSysrd_reads {x : Word} (hl : 1 ≤ s.level s.cur.who) (hg : s.guard g = true)
    (h : s.written.regCause s.cur.who (srnOf (s.srnAt sa off)) false = none) (hx : s.written.regRead (srnOf (s.srnAt sa off)) = some x) :
    execSysrd g sd sa off s = .next (s.postS 1 sd x) := by
  rw [execSysrd, privileged_runs _ hl hg]
  simp only [h, hx, Option.getD_some]
theorem execSyswr_traps {c : Nat} (hl : 1 ≤ s.level s.cur.who) (hg : s.guard g = true)
    (h : s.written.regCause s.cur.who (srnOf (s.srnAt sa off)) true = some c) :
    execSyswr g sa sb off s = .next (s.trap ⟨3, c, BitVec.ofNat 64 (s.srnAt sa off)⟩) := by
  rw [execSyswr, privileged_runs _ hl hg]
  simp only [h]
  rfl
theorem execSyswr_writes {t : State} (hl : 1 ≤ s.level s.cur.who) (hg : s.guard g = true)
    (h : s.written.regCause s.cur.who (srnOf (s.srnAt sa off)) true = none)
    (ht : s.written.regWrite (srnOf (s.srnAt sa off)) (s.sreg sb) = .ok t) :
    execSyswr g sa sb off s = .next (if s.atOnce (srnOf (s.srnAt sa off)) (s.sreg sb) then s.putReg (s.cur.who, s.srnAt sa off, s.sreg sb)
      else { s with regw := s.regw ++ [(s.cur.who, s.srnAt sa off, s.sreg sb)] }) := by
  rw [execSyswr, privileged_runs _ hl hg]
  simp only [h, ht]
theorem execEret_returns (hl : 1 ≤ s.level s.cur.who) (hg : s.guard g = true) : execEret g s = .next (s.modMe Ctx.eret) :=
  privileged_runs _ hl hg

/-! ## Writes by number -/

theorem State.atOnce_iff (n : Srn) (v : Word) : s.atOnce n v = true ↔ n.group = 1 ∧ 0x100 ≤ n.word ∧ n.word < 0x140 ∧
    (s.ring n.core (n.word - 0x100)).en = true ∧ v.getLsbD 37 = false := by
  simp [State.atOnce, gCTX, and_assoc]
/-- A write by a number of the CTX group is the group's own. -/
theorem State.regWrite_ctx {n : Srn} (h : n.group = 1) (v : Word) : s.regWrite n v = s.writeCtx n v :=
  if_pos (by simp [h, gCTX])
/-- RINGCFG stands at words 0x100 to 0x13F of the CTX group (R63). -/
theorem State.regWrite_ringcfg {n : Srn} (h : n.group = 1) (hlo : 0x100 ≤ n.word) (hhi : n.word < 0x140) (v : Word) :
    s.regWrite n v = .ok (s.modRing n.core (n.word - 0x100) fun r => r.writeCfg v) := by
  rw [State.regWrite_ctx h]
  simp only [State.writeCtx, if_neg (show ¬ n.word = 0 by omega), if_neg (show ¬ n.word = 1 by omega), if_neg (show ¬ n.word = 2 by omega),
    if_neg (show ¬ n.word = 3 by omega), if_neg (show ¬ n.word = 0x80 by omega), if_pos hhi]
  rfl
theorem State.regWrite_tvec {n : Srn} (h : n.group = 1) (hw : n.word = 3) (v : Word) :
    s.regWrite n v = .ok (s.modCtx n.who fun c => { c with tvec := v.setWidth 50 }) := by
  rw [State.regWrite_ctx h, State.writeCtx, hw]
  rfl
theorem State.putReg_ok {w v : Nat} {x : Word} {t : State} (h : s.regWrite (srnOf v) x = .ok t) : s.putReg (w, v, x) = t := by
  simp only [State.putReg, h]
/-- The end of a tick in which one write has performed makes exactly that write (R301). -/
theorem State.landRegs_one {w v : Nat} {x : Word} (h : s.regw = [(w, v, x)]) :
    s.landRegs (coreOf w) = ({ s with regw := [] } : State).putReg (w, v, x) := by
  simp only [State.landRegs, h, List.filter_cons, beq_self_eq_true, bne_self_eq_false, List.filter_nil, if_true, Bool.false_eq_true,
    if_false, List.foldl_cons, List.foldl_nil]

/-- Settles O12: each access by its cause or its one equation, the waiting write by the end of its tick. -/
theorem systemRegisterAccess : Obligations.SystemRegisterAccess := by
  unfold Obligations.SystemRegisterAccess
  intro g sd sa sb off s hg hl v n u x clearsEN
  have atOnce : s.atOnce n x = true ↔ clearsEN := State.atOnce_iff n x
  refine ⟨fun y hcause hread => ⟨_, execSysrd_reads hl hg hcause hread, State.postS_yields ..⟩, fun c => execSysrd_traps hl hg,
    fun t hcause hwrite hno => ?_, fun hcause hclr => ?_, fun c => execSyswr_traps hl hg, fun w r hw hr => ?_, fun w hw hgrp hword => ?_,
    ⟨_, execEret_returns hl hg, s.becomes_modCtx _ _⟩⟩
  · exact (execSyswr_writes hl hg hcause hwrite).trans (congrArg _ (if_neg (mt atOnce.1 hno)))
  · obtain ⟨hgrp, hlo, hhi, -⟩ := id hclr
    refine ⟨_, State.regWrite_ringcfg hgrp hlo hhi x, ?_⟩
    rw [← State.putReg_ok (w := s.cur.who) (State.regWrite_ringcfg hgrp hlo hhi x)]
    exact (execSyswr_writes hl hg hcause (State.regWrite_ringcfg hgrp hlo hhi x)).trans (congrArg _ (if_pos (atOnce.2 hclr)))
  · rw [State.landRegs_one hw, State.putReg_ok hr]
  · rw [State.landRegs_one hw, State.putReg_ok (State.regWrite_tvec hgrp hword x)]
    exact State.becomes_modCtx ..
end Sys2Proof.Machine
end

section
/-! Loads (R57, R190 to R195, R364): the value that a load puts in flight, and the drawer requests of one that waits. -/

namespace Sys2Proof.Machine

variable {s : State}

/-! ## Elements that are on -/

theorem spread_length {α : Type} (bs : List Bool) (l : List α) : (spread bs l).length = bs.length := by
  induction bs generalizing l with
  | nil => rfl
  | cons b bs ih => cases b <;> cases l <;> simp [spread, ih]
/-- With every element on, each keeps its place. -/
theorem getElem?_spread_all {α β : Type} (cs : List β) (l : List α) {k : Nat} (h : k < cs.length) :
    (spread ((cs.map some).map Option.isSome) l)[k]? = some l[k]? := by
  induction cs generalizing l k with
  | nil => exact absurd h (Nat.not_lt_zero k)
  | cons c cs ih =>
    cases l with
    | nil =>
      cases k with
      | zero => rfl
      | succ k => simpa [spread] using ih [] (k := k) (by simpa using h)
    | cons x l =>
      cases k with
      | zero => rfl
      | succ k => simpa [spread] using ih l (k := k) (by simpa using h)
theorem spread_all {α β : Type} (cs : List β) (l : List α) (h : l.length = cs.length) :
    spread ((cs.map some).map Option.isSome) l = l.map some := by
  induction cs generalizing l with
  | nil => rw [List.length_eq_zero_iff.1 h]; rfl
  | cons c cs ih =>
    cases l with
    | nil => simp at h
    | cons x l => simpa [spread] using ih l (by simpa using h)
theorem getD_spread_off {α : Type} (bs : List Bool) (l : List α) {k : Nat} (h : bs.getD k false = false) : (spread bs l).getD k none = none := by
  induction bs generalizing l k with
  | nil => rfl
  | cons b bs ih =>
    cases k with
    | zero =>
      obtain rfl : b = false := h
      cases l <;> rfl
    | succ k =>
      have h : bs.getD k false = false := h
      cases b <;> cases l <;> simpa [spread] using ih _ h
/-- The element of number `j` stands in the place of number `j` among those that are on. -/
theorem getD_spread_on {α : Type} (bs : List Bool) (l : List α) {j k : Nat}
    (h : ((List.range bs.length).filter fun i => bs.getD i false)[j]? = some k) : (spread bs l).getD k none = l[j]? := by
  induction bs generalizing l j k with
  | nil => simp at h
  | cons b bs ih =>
    have hsucc : (List.map Nat.succ (List.range bs.length)).filter (fun i => (b :: bs).getD i false) =
        ((List.range bs.length).filter fun i => bs.getD i false).map Nat.succ := by
      rw [List.filter_map]
      rfl
    rw [List.length_cons, List.range_succ_eq_map, List.filter_cons, hsucc] at h
    cases b with
    | false =>
      obtain ⟨i, hi, rfl⟩ : ∃ i, ((List.range bs.length).filter fun i => bs.getD i false)[j]? = some i ∧ Nat.succ i = k := by
        simpa using h
      have h := ih l hi
      cases l <;> simpa [spread] using h
    | true =>
      cases j with
      | zero =>
        obtain rfl : 0 = k := by simpa using h
        cases l <;> rfl
      | succ j =>
        obtain ⟨i, hi, rfl⟩ : ∃ i, ((List.range bs.length).filter fun i => bs.getD i false)[j]? = some i ∧ Nat.succ i = k := by
          simpa using h
        cases l with
        | nil => simpa [spread] using ih [] hi
        | cons x l => simpa [spread] using ih l hi

/-! ## Units that have been taken (R246) -/

/-- Each unit that an element lies in reads as the unit under its key. -/
theorem State.unitAs_of_mem {e : Elem} {u : Nat} (h : u ∈ e.units) : s.unitAs e u = s.unitUnder e.key u := by
  unfold State.unitAs
  split
  · rfl
  · next hk =>
    rw [Elem.units, if_neg hk, List.mem_eraseDups] at h
    obtain ⟨i, -, rfl⟩ := List.mem_map.1 h
    have hlocal : localBase ≤ e.addr / 8 + i := by simp [keyedAddr] at hk; omega
    have hplace : keyedAddr (e.place i / 64 * 64) = false := by
      rw [keyedAddr_unit]
      exact decide_eq_false (Nat.not_lt.2 (bankPlace_row hlocal).2.2)
    rw [State.unitUnder, hplace]
    rfl
theorem State.mem_taken {l : List Elem} {p : Nat → Bool} {g : Nat × Nat × Nat} (h : g ∈ s.taken l p) :
    g.2.2 = s.unitUnder g.2.1 g.1 := by
  rw [State.taken, List.mem_eraseDups, List.mem_flatten] at h
  obtain ⟨gs, hgs, hg⟩ := h
  obtain ⟨e, -, rfl⟩ := List.mem_map.1 hgs
  obtain ⟨u, hu, rfl⟩ := List.mem_map.1 hg
  exact State.unitAs_of_mem (List.mem_of_mem_filter hu)
/-- A unit as an element reads it from the units that have been taken, or from memory. -/
def State.unitGot (s : State) (e : Elem) (got : List (Nat × Nat × Nat)) (u : Nat) : Nat :=
  match got.find? fun g => g.1 == u && g.2.1 == e.key with
  | some g => g.2.2
  | none => s.unitAs e u
/-- A unit of an element reads the same from what was taken of memory as from memory. -/
theorem State.unitGot_taken {e : Elem} {u : Nat} (h : u ∈ e.units) (l : List Elem) (p : Nat → Bool) :
    s.unitGot e (s.taken l p) u = s.unitGot e [] u := by
  have hmem : s.unitGot e [] u = s.unitAs e u := rfl
  rw [hmem]
  unfold State.unitGot
  split
  · next g hg =>
    obtain ⟨hu, hk⟩ : g.1 = u ∧ g.2.1 = e.key := by simpa using List.find?_some hg
    rw [State.mem_taken (List.mem_of_find?_eq_some hg), State.unitAs_of_mem h, hu, hk]
  · rfl
theorem State.elemOver_eq (ov : List (Nat × Nat × Nat)) (e : Elem) (got : List (Nat × Nat × Nat)) : s.elemOver ov e got =
    if keyedAddr (e.addr / 8) then (overlayUnit ov (e.addr / 512) (s.unitGot e got (e.addr / 512)) >>> (e.addr % 512)) % 2 ^ e.w
    else (packElems 8 ((List.range e.bytes).map fun i =>
      overlayUnit ov (e.place i / 64) (s.unitGot e got (e.place i / 64)) >>> (8 * (e.place i % 64))) >>> (e.addr % 8)) % 2 ^ e.w := rfl
/-- What was taken of memory reads as memory does. -/
theorem State.elemOver_taken (ov : List (Nat × Nat × Nat)) (e : Elem) (l : List Elem) (p : Nat → Bool) :
    s.elemOver ov e (s.taken l p) = s.elemOver ov e := by
  rw [State.elemOver_eq, State.elemOver_eq]
  by_cases hk : keyedAddr (e.addr / 8) = true
  · have hmem : e.addr / 512 ∈ e.units := by
      rw [Elem.units, if_pos hk]
      exact List.mem_singleton_self _
    rw [if_pos hk, if_pos hk, State.unitGot_taken hmem]
  · rw [if_neg hk, if_neg hk]
    refine congrArg (fun l => (packElems 8 l >>> (e.addr % 8)) % 2 ^ e.w) (List.map_congr_left fun i hi => ?_)
    have hmem : e.place i / 64 ∈ e.units := by
      rw [Elem.units, if_neg hk, List.mem_eraseDups]
      exact List.mem_map_of_mem hi
    rw [State.unitGot_taken hmem]

/-! ## Requests to the drawers (R364) -/

/-- What the requests of a list of units leave, and the request of each unit of a drawer. -/
theorem State.askDrawer_asks (who part cls kind : Nat) (cmd : Option Nat) (us : List Nat) :
    let r := s.askDrawer who part cls kind cmd us
    r.2.ctxs = s.ctxs ∧ r.2.mem = s.mem ∧ r.2.cur = s.cur ∧
      ∀ u ∈ us, (drawerOf (u * 64)).isSome = true →
        ∃ q ∈ r.2.fab.reqs, q.id ∈ r.1 ∧ q.unit = u ∧ q.kind = kind ∧ q.done = false := by
  induction us using List.reverseRecOn with
  | nil => exact ⟨rfl, rfl, rfl, fun _ h => absurd h List.not_mem_nil⟩
  | append_singleton us u ih =>
    obtain ⟨hctxs, hmem, hcur, hreqs⟩ := ih
    simp only [State.askDrawer, List.foldl_append, List.foldl_cons, List.foldl_nil] at hctxs hmem hcur hreqs ⊢
    split
    · next hnone =>
      refine ⟨hctxs, hmem, hcur, fun v hv hd => ?_⟩
      obtain hv | rfl := List.mem_append.1 hv |>.imp_right List.mem_singleton.1
      · exact hreqs v hv hd
      · simp [hnone] at hd
    · refine ⟨hctxs, hmem, hcur, fun v hv hd => ?_⟩
      obtain hv | rfl := List.mem_append.1 hv |>.imp_right List.mem_singleton.1
      · obtain ⟨q, hq, hid, hrest⟩ := hreqs v hv hd
        exact ⟨q, List.mem_append_left _ hq, List.mem_append_left _ hid, hrest⟩
      · exact ⟨_, List.mem_append_right _ (List.mem_singleton_self _), List.mem_append_right _ (List.mem_singleton_self _), rfl, rfl, rfl⟩

/-! ## What a load does with its access -/

/-- A load's elements and scales in register order, as they stand when it issues. -/
def State.loadLate (s : State) (op : Instr) (on : List Bool) (a : Acc) : Late :=
  { op := op, ent := s.cur.ent, elems := spread on a.elems, fmt := a.fmt, sfmt := a.sfmt, overlay := s.overlay s.cur.who
    scales := if a.scales.isEmpty then [] else (spread on a.scales).map fun o => o.join }
/-- The elements of an access and those of its scales. -/
def Acc.all (a : Acc) : List Elem := a.elems ++ a.scales.filterMap id

theorem State.lateValue_taken (who : Nat) (l : Late) (all : List Elem) (p : Nat → Bool) (h : l.got = []) :
    s.lateValue who { l with got := s.taken all p } = s.lateValue who l := by
  simp only [State.lateValue, State.elemOver_taken, h]

/-- The drawer units that an access asks for. -/
def Acc.far (a : Acc) : List Nat := (unitsOf a.all).filter fun u => (drawerOf (u * 64)).isSome
/-- The numbers of a load's drawer requests, and the state that they have left. -/
def State.asked (s : State) (m : MemArg) (a : Acc) : List Nat × State :=
  (s.claim a.all).askDrawer s.cur.who (s.partOf s.cur.who) (memCls m (s.lay s.cur.who m.le.toNat)) 0 none a.far
/-- The result of a load that waits for its drawers. -/
def State.waitingFly (s : State) (gate : List Nat) (l : Late) (dst : Dest) (bm size : Nat) : Fly :=
  { id := s.ids, left := 0, gate := gate, late := some l, arr := s.me.arr, dst := dst, bm := bm, size := size, seq := s.cur.ent.seq
    grp := s.cur.ent.grp, pc := s.cur.ent.pc, slot := s.cur.slot }

section
variable {op : Instr} {m : MemArg} {dec : Bool} {cs : List (Option (List Int))} {dst : Dest} {bm size : Nat} {a : Acc}

theorem State.load_near (h : s.access s.cur.who m.le.toNat false dec (cs.filterMap id) = .ok a) (hnear : a.far = []) :
    s.load op m dec cs dst bm size =
      match s.badUnit a.all with
      | some t => .error (.trap t)
      | none =>
        let r := s.lateValue s.cur.who (s.loadLate op (cs.map (·.isSome)) a)
        .ok (((s.claim a.all).setFlags r.2).post (loadTicks (s.lay s.cur.who m.le.toNat).space) dst r.1 bm size) := by
  unfold Acc.far Acc.all at hnear
  unfold State.load
  simp only [h, hnear]
  rfl
theorem State.load_far (h : s.access s.cur.who m.le.toNat false dec (cs.filterMap id) = .ok a) (hfar : a.far ≠ []) :
    s.load op m dec cs dst bm size =
      let u := (s.asked m a).2
      let l := { s.loadLate op (cs.map (·.isSome)) a with got := s.taken a.all fun u => !a.far.contains u }
      .ok (u.newId.2.modMe fun c => c.launch (u.waitingFly (s.asked m a).1 l dst bm size)) := by
  have hfar : a.far.isEmpty = false := List.isEmpty_eq_false_iff.2 hfar
  unfold Acc.far Acc.all at hfar
  unfold State.load
  simp only [h, hfar]
  rfl
/-- A load that waits has joined its context's results with a request for each of its drawer units. -/
theorem State.asked_launch (l : Late) : let u := (s.asked m a).2
    let f := u.waitingFly (s.asked m a).1 l dst bm size
    let t := u.newId.2.modMe fun c => c.launch f
    t.ctx s.cur.who = { s.me with fly := s.me.fly ++ [f], flt := { s.me.flt with wawp := s.marks [f] } } ∧
      (∀ w, w ≠ s.cur.who → t.ctx w = s.ctx w) ∧ t.mem = s.mem ∧
      ∀ u ∈ unitsOf a.all, (drawerOf (u * 64)).isSome = true →
        ∃ q ∈ t.fab.reqs, q.id ∈ f.gate ∧ q.unit = u ∧ q.kind = 0 ∧ q.done = false := by
  obtain ⟨hctxs, hmem, hcur, hreqs⟩ := State.askDrawer_asks (s := s.claim a.all) s.cur.who (s.partOf s.cur.who)
    (memCls m (s.lay s.cur.who m.le.toNat)) 0 none a.far
  intro u f t
  have hcur : u.cur = s.cur := hcur
  have hctx (w : Nat) : u.ctx w = s.ctx w := by
    unfold State.ctx
    exact congrArg (fun l => aget _ l w) hctxs
  have ht (w : Nat) : t.ctx w = if w = s.cur.who then s.me.launch f else s.ctx w := by
    refine (aget_aset ..).trans ?_
    change (if w = u.cur.who then (u.ctx u.cur.who).launch f else u.ctx w) = _
    rw [hcur, hctx, hctx]
    rfl
  refine ⟨?_, fun w hw => (ht w).trans (if_neg hw), hmem, fun v hv hd => hreqs v (List.mem_filter.2 ⟨hv, hd⟩) hd⟩
  rw [ht, if_pos rfl]
  have hslot : f.slot = s.cur.slot := congrArg Cur.slot hcur
  have hgrp : f.grp = s.cur.ent.grp := congrArg (fun c : Cur => c.ent.grp) hcur
  simp [Ctx.launch, State.marks, hslot, hgrp]

/-- What a load does with its access, from the value and the flags of its elements as they stand. -/
theorem State.load_loads {i : Instr} {p : Acc → Nat → BitVec 7 → Prop} (hi : exec i s = s.finish (s.load op m dec cs dst bm size))
    (hp : ∀ a, a.elems.length = (cs.filterMap id).length →
      p a (s.lateValue s.cur.who (s.loadLate op (cs.map (·.isSome)) a)).1 (s.lateValue s.cur.who (s.loadLate op (cs.map (·.isSome)) a)).2) :
    s.Loads i (s.access s.cur.who m.le.toNat false dec (cs.filterMap id)) (loadTicks (s.lay s.cur.who m.le.toNat).space) dst bm size p := by
  unfold State.Loads
  split
  · next h => rw [hi, State.load, h]; rfl
  · next h => rw [hi, State.load, h]; rfl
  · next a h =>
    have hp := hp a (State.access_length h)
    intro us
    split
    · next hfar =>
      have hfar : a.far ≠ [] := by
        obtain ⟨u, hu, hd⟩ := List.any_eq_true.1 hfar
        exact List.ne_nil_of_mem (List.mem_filter.2 ⟨hu, hd⟩)
      rw [State.load_far h hfar] at hi
      obtain ⟨hctx, hothers, hmem, hreqs⟩ := State.asked_launch (s := s) (m := m) (a := a) (dst := dst) (bm := bm) (size := size)
        { s.loadLate op (cs.map (·.isSome)) a with got := s.taken a.all fun u => !a.far.contains u }
      refine ⟨_, _, _, hi, hctx, hothers, hmem, rfl, rfl, rfl, hreqs, rfl, ?_⟩
      rw [State.lateValue_taken _ _ _ _ rfl]
      exact hp
    · next hnear =>
      have hnear : a.far = [] := List.filter_eq_nil_iff.2 fun u hu hd => hnear (List.any_eq_true.2 ⟨u, hu, hd⟩)
      rw [State.load_near h hnear] at hi
      change exec i s = s.finish (match s.badUnit a.all with | some t => _ | none => _) at hi
      change match s.badUnit a.all with | some x => _ | none => _
      cases hbad : s.badUnit a.all with
      | some x => rw [hbad] at hi; exact hi
      | none =>
        rw [hbad] at hi
        exact ⟨_, _, _, hi, State.setFlags_post_issued .., hp⟩
end

/-! ## The values of loads -/

/-- The codes of results, packed at width `w`, and the flags of all. -/
def packAll (w : Nat) (l : List (Nat × BitVec 7)) : Nat × BitVec 7 := (packElems w (l.map (·.1)), allFlags l)
theorem elemAt_packAll (w : Nat) {n k : Nat} (f : Nat → Nat × BitVec 7) (h : k < n) :
    elemAt (packAll w ((List.range n).map f)).1 w k = (f k).1 % 2 ^ w := by
  rw [packAll, List.map_map, elemAt_pack_range _ _ _ _ h]
  rfl
theorem flagsOf_packAll (w n : Nat) (f : Nat → Nat × BitVec 7) : flagsOf n (fun _ => true) f (packAll w ((List.range n).map f)).2 := by
  intro k
  have hor := foldl_or_getLsbD (((List.range n).map f).map (·.2)) 0 k
  rw [List.foldl_map] at hor
  exact hor.trans (by simp)
theorem packAll_singleton (w : Nat) (x : Nat × BitVec 7) : packAll w [x] = (x.1 % 2 ^ w, x.2) := by
  simp [packAll, packElems, allFlags]
/-- Element `i` rounded into a decode type where it is on (R192). -/
def decodeAt (t : ETy) (rm : BitVec 3) (fmt sfmt : BitVec 32) (nbv : Bool) (rb : Nat → Nat) (xs scs : List (Option Nat)) (i : Nat) :
    Nat × BitVec 7 :=
  match xs.getD i none with
  | some x => decodeTo t fmt sfmt nbv rm.toNat (rb i) x (scs.getD i none)
  | none => (0, 0)
/-- An element as the context sees it. -/
def State.sees (s : State) (o : Option Elem) : Option Nat := o.map (s.elemBy s.cur.who)
/-- Element `k` of an access, times its scale where it has one, rounded into a decode type. -/
def State.cell (s : State) (ty : ETy) (rm : BitVec 3) (a : Acc) (k : Nat) : Nat × BitVec 7 :=
  decodeTo ty a.fmt a.sfmt s.cur.ent.nbv rm.toNat (s.rb k) (s.elemBy s.cur.who (a.elems.getD k ⟨0, 0, 0⟩))
    ((a.scales.getD k none).map (s.elemBy s.cur.who))

theorem State.lateValue_loadLate (op : Instr) (on : List Bool) (a : Acc) : s.lateValue s.cur.who (s.loadLate op on a) =
    loadValue op a.fmt a.sfmt s.cur.ent.nbv s.rb ((spread on a.elems).map s.sees) ((s.loadLate op on a).scales.map s.sees) := rfl

variable {β : Type} {cs : List β} {a : Acc}

theorem State.sees_all (h : a.elems.length = cs.length) :
    (spread ((cs.map some).map Option.isSome) a.elems).map s.sees = a.elems.map fun e => some (s.elemBy s.cur.who e) := by
  rw [spread_all cs a.elems h, List.map_map]
  rfl
/-- With every element on, each finds its own scale, where the access has scales. -/
theorem State.sees_scale (op : Instr) {k : Nat} (h : k < cs.length) :
    ((s.loadLate op ((cs.map some).map Option.isSome) a).scales.map s.sees).getD k none =
      (a.scales.getD k none).map (s.elemBy s.cur.who) := by
  have hget (l : List (Option Elem)) : (l.map s.sees).getD k none = s.sees (l.getD k none) := by
    rw [List.getD_eq_getElem?_getD, List.getElem?_map, List.getD_eq_getElem?_getD]
    cases l[k]? <;> rfl
  rw [hget]
  refine congrArg (Option.map (s.elemBy s.cur.who)) ?_
  unfold State.loadLate
  cases hs : a.scales with
  | nil => rfl
  | cons o os =>
    simp only [List.isEmpty_cons, Bool.false_eq_true, if_false]
    rw [List.getD_eq_getElem?_getD, List.getElem?_map, getElem?_spread_all cs _ h, List.getD_eq_getElem?_getD]
    cases (o :: os)[k]? <;> rfl
/-- A converting load of elements that are all on rounds each of them (R192). -/
theorem State.decodeAt_all (op : Instr) (ty : ETy) (rm : BitVec 3) (h : a.elems.length = cs.length) :
    (List.range ((spread ((cs.map some).map Option.isSome) a.elems).map s.sees).length).map
      (decodeAt ty rm a.fmt a.sfmt s.cur.ent.nbv s.rb ((spread ((cs.map some).map Option.isSome) a.elems).map s.sees)
        ((s.loadLate op ((cs.map some).map Option.isSome) a).scales.map s.sees)) = (List.range a.elems.length).map (s.cell ty rm a) := by
  rw [State.sees_all h, List.length_map]
  refine List.map_congr_left fun k hk => ?_
  have hk := List.mem_range.1 hk
  have hx : (a.elems.map fun e => some (s.elemBy s.cur.who e)).getD k none = some (s.elemBy s.cur.who (a.elems.getD k ⟨0, 0, 0⟩)) := by
    simp only [List.getD_eq_getElem?_getD, List.getElem?_map, List.getElem?_eq_getElem hk, Option.map_some, Option.getD_some]
  rw [decodeAt, hx, State.sees_scale op (h ▸ hk), State.cell]

/-- A tile or vector load whose elements are all on: packed as they are, or each rounded. -/
theorem State.lateValue_tile {op : Instr} {g : Guard} {rm : BitVec 3} {rg : BitVec 11} {m : MemArg} {dt dc : Bool} {hh : BitVec 2}
    (hop : op = .ldT g rm rg m dt dc hh ∨ op = .ldV g rm rg m dt dc) (h : a.elems.length = cs.length) :
    s.lateValue s.cur.who (s.loadLate op ((cs.map some).map Option.isSome) a) =
      if dc then packAll (decTy dt).width ((List.range a.elems.length).map (s.cell (decTy dt) rm a))
      else (packElems (dWidth a.fmt) (a.elems.map (s.elemBy s.cur.who)), 0) := by
  rw [State.lateValue_loadLate, ← State.decodeAt_all op (decTy dt) rm h]
  obtain rfl | rfl := hop
  all_goals
    cases dc with
    | true => rfl
    | false =>
      rw [State.sees_all h]
      simp only [loadValue, List.map_map]
      rfl
/-- A value with every bit of a 64-bit register above the first `w` set. -/
def fillAbove (w v : Nat) : Nat := v ||| (ones 64 ^^^ ones w)
theorem fillAbove_fields {ty : ETy} (hty : ∃ wide, ty = decTyS wide) {v : Nat} (h : v < 2 ^ ty.width) :
    fillAbove ty.width v % 2 ^ ty.width = v ∧ fillAbove ty.width v / 2 ^ ty.width = (2 ^ 64 - 1) / 2 ^ ty.width := by
  have hbits : ones 64 ^^^ ones ty.width = ((2 ^ 64 - 1) / 2 ^ ty.width) <<< ty.width := by
    obtain ⟨wide, rfl⟩ := hty
    cases wide <;> decide
  have hsum : fillAbove ty.width v = (2 ^ 64 - 1) / 2 ^ ty.width * 2 ^ ty.width + v := by
    rw [fillAbove, hbits, Nat.or_comm, ← Nat.shiftLeft_add_eq_or_of_lt h, Nat.shiftLeft_eq]
  rw [hsum]
  constructor
  · rw [Nat.mul_comm, Nat.mul_add_mod, Nat.mod_eq_of_lt h]
  · rw [Nat.mul_comm, Nat.mul_add_div (Nat.two_pow_pos _), Nat.div_eq_of_lt h, Nat.add_zero]

/-- A number is negative. -/
def FVal.negative : FVal → Bool
  | .fin n m _ => n && m != 0
  | _ => false
theorem FVal.negative_iff (x : FVal) : x.negative = true ↔ ∃ m e, x = .fin true m e ∧ m ≠ 0 := by
  cases x <;> simp [FVal.negative]
/-- What a converted element fills of its register: the bits above it only where it is a negative integer (R192). -/
theorem fillAbove_iff (wide sx int : Bool) (c : Nat) (x : FVal) :
    let w := (decTyS wide).width
    let minus : Prop := sx = true ∧ int = true ∧ ∃ m e, x = .fin true m e ∧ m ≠ 0
    let v := if (sx && int && x.negative) = true then fillAbove w (c % 2 ^ w) else c % 2 ^ w
    v % 2 ^ w = c % 2 ^ w ∧ (minus → v / 2 ^ w = (2 ^ 64 - 1) / 2 ^ w) ∧ (¬ minus → v < 2 ^ w) := by
  intro w minus v
  have hlt : c % 2 ^ w < 2 ^ w := Nat.mod_lt _ (Nat.two_pow_pos w)
  have hminus : (sx && int && x.negative) = true ↔ minus := by
    rw [Bool.and_eq_true, Bool.and_eq_true, FVal.negative_iff, and_assoc]
  have hv : v = if (sx && int && x.negative) = true then fillAbove w (c % 2 ^ w) else c % 2 ^ w := rfl
  by_cases h : (sx && int && x.negative) = true
  · obtain ⟨hmod, hdiv⟩ := fillAbove_fields ⟨wide, rfl⟩ hlt
    rw [hv, if_pos h]
    exact ⟨hmod, fun _ => hdiv, fun hn => absurd (hminus.1 h) hn⟩
  · rw [hv, if_neg h]
    exact ⟨Nat.mod_eq_of_lt hlt, fun hm => absurd (hminus.2 hm) h, fun _ => hlt⟩
/-- The first element of an access, as a number. -/
def State.firstValue (s : State) (a : Acc) : FVal :=
  (dFmt a.fmt).decode s.cur.ent.nbv (s.elemBy s.cur.who (a.elems.getD 0 ⟨0, 0, 0⟩))
/-- A converting scalar load of one element (R192). -/
theorem loadValue_scalar (g : Guard) (rm : BitVec 3) (sd : BitVec 6) (m : MemArg) (dt sx : Bool) (fmt sfmt : BitVec 32) (nbv : Bool)
    (rb : Nat → Nat) (x : Nat) (scs : List (Option Nat)) : loadValue (.ldS g rm sd m dt true sx) fmt sfmt nbv rb [some x] scs =
      let w := (decTyS dt).width
      let p := packAll w ((List.range 1).map (decodeAt (decTyS dt) rm fmt sfmt nbv rb [some x] scs))
      (if (sx && (dFmt fmt).int && ((dFmt fmt).decode nbv x).negative) = true then fillAbove w p.1 else p.1, p.2) := by
  have hneg (v : FVal) : v.negative = (match v with | .fin n m _ => n && m != 0 | _ => false) := by cases v <;> rfl
  have hif (b : Bool) (v u : Nat) (f : BitVec 7) : (if b = true then (v, f) else (u, f)) = (if b = true then v else u, f) := by cases b <;> rfl
  rw [hneg]
  exact hif _ _ _ _
/-- A scalar load: its element as it is, or rounded and, with SX, filled above a negative integer (R192). -/
theorem State.lateValue_scalar {g : Guard} {rm : BitVec 3} {sd : BitVec 6} {m : MemArg} {dt dc sx : Bool} (c : β)
    (h : a.elems.length = 1) :
    s.lateValue s.cur.who (s.loadLate (.ldS g rm sd m dt dc sx) (([c].map some).map Option.isSome) a) =
      if dc then
        let w := (decTyS dt).width
        let v := (s.cell (decTyS dt) rm a 0).1 % 2 ^ w
        (if (sx && (dFmt a.fmt).int && (s.firstValue a).negative) = true then fillAbove w v else v, (s.cell (decTyS dt) rm a 0).2)
      else (packElems (dWidth a.fmt) (a.elems.map (s.elemBy s.cur.who)), 0) := by
  have hall := State.decodeAt_all (s := s) (cs := [c]) (.ldS g rm sd m dt dc sx) (decTyS dt) rm h
  rw [State.lateValue_loadLate]
  rw [State.sees_all (cs := [c]) h] at hall ⊢
  cases dc with
  | false =>
    simp only [loadValue, List.map_map]
    rfl
  | true =>
    obtain ⟨e, he⟩ := List.length_eq_one_iff.1 h
    rw [State.firstValue]
    simp only [he, List.map_cons, List.map_nil, List.length_cons, List.length_nil] at hall ⊢
    rw [loadValue_scalar, List.range_one, List.map_singleton]
    rw [List.range_one, List.map_singleton, List.map_singleton, List.cons.injEq] at hall
    rw [hall.1, if_pos trivial]
    simp only [packAll_singleton]
    rfl
/-- A gather packs its elements in their places, and zero where an element is off. -/
theorem State.lateValue_gather (g : Guard) (rg : BitVec 11) (m : MemArg) (on : List Bool) :
    s.lateValue s.cur.who (s.loadLate (.ldG g rg m) on a) =
      (packElems (dWidth a.fmt) ((spread on a.elems).map fun o => (s.sees o).getD 0), 0) := by
  rw [State.lateValue_loadLate]
  simp only [loadValue, List.map_map]
  rfl
theorem State.elemAt_gather (w : Nat) (on : List Bool) (l : List Elem) {k : Nat} (h : k < on.length) :
    elemAt (packElems w ((spread on l).map fun o => (s.sees o).getD 0)) w k = (s.sees ((spread on l).getD k none)).getD 0 % 2 ^ w := by
  have hk : k < (spread on l).length := (spread_length on l).symm ▸ h
  rw [elemAt_packElems _ _ _ (by simpa using hk), List.getElem_map, List.getD_eq_getElem _ _ hk]
theorem State.gatherCoords_length (rg : BitVec 11) (m : MemArg) (n : Nat) : (s.gatherCoords rg m n).length = n := by
  simp [State.gatherCoords]
theorem State.gatherCoords_getD (rg : BitVec 11) (m : MemArg) {n k : Nat} (h : k < n) :
    ((s.gatherCoords rg m n).map Option.isSome).getD k false = (elemAt (s.vreg .w rg) 16 k != 0xFFFF) := by
  by_cases hk : elemAt (s.vreg .w rg) 16 k = 0xFFFF <;> simp [State.gatherCoords, h, hk]
/-- What a gather puts in the place of an element that is off, and in the place of one that is on (R195). -/
theorem State.gather_value (rg : BitVec 11) (m : MemArg) (w : Nat) {n k : Nat} (h : k < n) :
    let v := packElems w ((spread ((s.gatherCoords rg m n).map Option.isSome) a.elems).map fun o => (s.sees o).getD 0)
    (elemAt (s.vreg .w rg) 16 k = 0xFFFF → elemAt v w k = 0) ∧
      ∀ (j : Nat) (e : Elem), ((List.range n).filter fun k => elemAt (s.vreg .w rg) 16 k != 0xFFFF)[j]? = some k →
        a.elems[j]? = some e → elemAt v w k = s.elemBy s.cur.who e % 2 ^ w := by
  have hlen : ((s.gatherCoords rg m n).map Option.isSome).length = n := by rw [List.length_map, State.gatherCoords_length]
  intro v
  have hv := State.elemAt_gather (s := s) w ((s.gatherCoords rg m n).map Option.isSome) a.elems (hlen.symm ▸ h)
  refine ⟨fun hoff => ?_, fun j e hj he => ?_⟩
  · rw [hv, getD_spread_off _ _ ((State.gatherCoords_getD rg m h).trans (by simp [hoff]))]
    exact Nat.zero_mod _
  · have hj : ((List.range ((s.gatherCoords rg m n).map Option.isSome).length).filter
        fun i => ((s.gatherCoords rg m n).map Option.isSome).getD i false)[j]? = some k := by
      rw [hlen, ← hj]
      exact congrArg (·[j]?) (List.filter_congr fun i hi => State.gatherCoords_getD rg m (List.mem_range.1 hi))
    rw [hv, getD_spread_on _ _ hj, he]
    rfl

/-! ## The four loads -/

theorem execLdT_eq {g : Guard} (rm : BitVec 3) (rg : BitVec 11) (m : MemArg) (dt dc : Bool) (h : BitVec 2) (hg : s.guard g = true) :
    execLdT g rm rg m dt dc h s = s.finish
      (let f := accShape (s.memCoords m (s.lay s.cur.who m.le.toNat)) 16384 (rowCount h) (if dc then some (decTy dt).width else none)
      s.ofSize m.le.toNat false f fun d =>
        s.load (.ldT g rm rg m dt dc h) m dc ((f (dWidth d)).map some) (.win (s.cur.ent.off .t rg)) (ones 16384) 2048) := by
  rw [execLdT, guarded_true hg]
  rfl
theorem execLdV_eq {g : Guard} (rm : BitVec 3) (rg : BitVec 11) (m : MemArg) (dt dc : Bool) (hg : s.guard g = true) :
    execLdV g rm rg m dt dc s = s.finish
      (let f := accShape (s.memCoords m (s.lay s.cur.who m.le.toNat)) 4096 1 (if dc then some (decTy dt).width else none)
      s.ofSize m.le.toNat false f fun d =>
        s.load (.ldV g rm rg m dt dc) m dc ((f (dWidth d)).map some) (.win (s.cur.ent.off .v rg)) (ones 4096) 512) := by
  rw [execLdV, guarded_true hg]
  rfl
theorem execLdG_eq {g : Guard} (rg : BitVec 11) (m : MemArg) (hg : s.guard g = true) :
    execLdG g rg m s = s.finish
      (s.ofSize m.le.toNat false (fun w => (s.gatherCoords rg m (Nat.min 256 (4096 / w))).filterMap id) fun d =>
        let n := Nat.min 256 (4096 / dWidth d)
        s.load (.ldG g rg m) m false (s.gatherCoords rg m n) (.win (s.cur.ent.off .w rg + 512)) (ones (n * dWidth d)) 512) := by
  rw [execLdG, guarded_true hg]
  rfl

/-- A load of elements that are all on does with its access what `State.load_loads` says. -/
theorem State.load_all {i op : Instr} {m : MemArg} {dec : Bool} {cs : List (List Int)} {dst : Dest} {bm size : Nat}
    {p : Acc → Nat → BitVec 7 → Prop} (hi : exec i s = s.finish (s.load op m dec (cs.map some) dst bm size))
    (hp : ∀ a, a.elems.length = cs.length →
      p a (s.lateValue s.cur.who (s.loadLate op ((cs.map some).map (·.isSome)) a)).1
        (s.lateValue s.cur.who (s.loadLate op ((cs.map some).map (·.isSome)) a)).2) :
    s.Loads i (s.access s.cur.who m.le.toNat false dec cs) (loadTicks (s.lay s.cur.who m.le.toNat).space) dst bm size p := by
  have hcs : (cs.map some).filterMap id = cs := by simp
  have h := State.load_loads (p := p) hi fun a ha => hp a (ha.trans (congrArg _ hcs))
  rwa [hcs] at h

/-- Settles O23: each load is `State.load` of its coordinates, and what that does with its access is said once. -/
theorem loadsPutElementsInFlight : Obligations.LoadsPutElementsInFlight := by
  unfold Obligations.LoadsPutElementsInFlight
  intro g rm rg sd m dt dc sx h s hg
  extract_lets who le l c ty tyS cell plain conv what minus shT shV idx on shG
  have htile (a : Acc) (r : Nat × BitVec 7) (hr : r = if dc then packAll ty.width ((List.range a.elems.length).map (s.cell ty rm a))
      else (packElems (dWidth a.fmt) (a.elems.map (s.elemBy s.cur.who)), 0)) : what a r.1 r.2 := by
    subst hr
    refine ⟨fun hdc => ?_, fun hdc => ?_⟩
    · rw [hdc]
      exact ⟨rfl, rfl⟩
    · rw [hdc]
      exact ⟨fun k hk => elemAt_packAll _ _ hk, flagsOf_packAll _ _ _⟩
  refine ⟨?_, ?_, ?_, ?_⟩
  · exact State.sized_of (execLdT_eq rm rg m dt dc h hg) fun d hd => State.load_all hd fun a ha =>
      htile a _ (State.lateValue_tile (.inl rfl) ha)
  · exact State.sized_of (execLdV_eq rm rg m dt dc hg) fun d hd => State.load_all hd fun a ha =>
      htile a _ (State.lateValue_tile (hh := h) (.inr rfl) ha)
  · have hi : execLdS g rm sd m dt dc sx s =
        s.finish (s.load (.ldS g rm sd m dt dc sx) m dc ([c].map some) (.scalar sd.toNat) (ones 64) 0) := guarded_true hg
    refine State.load_all hi fun a ha => ?_
    rw [State.lateValue_scalar c ha]
    refine ⟨fun hdc => ?_, fun hdc _ => ?_⟩
    · rw [hdc]
      exact ⟨rfl, rfl⟩
    · rw [hdc]
      exact ⟨rfl, fillAbove_iff dt sx (dFmt a.fmt).int (s.cell tyS rm a 0).1 (s.firstValue a)⟩
  · have hon (w : Nat) : shG w = (s.gatherCoords rg m (Nat.min 256 (4096 / w))).filterMap id := (State.gatherCoords_on ..).symm
    rw [show shG = _ from funext hon]
    refine State.sized_of (execLdG_eq rg m hg) fun d hd => ?_
    have hload := State.load_loads (p := fun a v f => f = 0 ∧ ∀ k, k < Nat.min 256 (4096 / dWidth d) →
      (idx k = 0xFFFF → elemAt v (dWidth a.fmt) k = 0) ∧
        (∀ (j : Nat) (e : Elem), (on (dWidth d))[j]? = some k → a.elems[j]? = some e →
          elemAt v (dWidth a.fmt) k = s.elemBy who e % 2 ^ dWidth a.fmt)) hd fun a ha => by
      rw [State.lateValue_gather]
      exact ⟨rfl, fun k hk => State.gather_value rg m _ hk⟩
    exact hload
end Sys2Proof.Machine
end

section
/-! Sums of the matrix array (R83 to R86, R185): exact group sums, running sums, and an accumulator word over its groups. -/

namespace Sys2Proof.Machine

/-! ## Exact sums and products -/

theorem alignInt_cast (n : Bool) (m : Nat) {e e' : Int} (h : e ≤ e') :
    ((alignInt n m e' e : Int) : ℚ) * 2 ^ e = (FVal.fin n m e').rat := by
  have hpow : ((2 : ℚ) ^ (e' - e).toNat) * 2 ^ e = 2 ^ e' := by
    rw [← zpow_natCast, ← zpow_add₀ two_ne_zero, Int.toNat_of_nonneg (Int.sub_nonneg.2 h), Int.sub_add_cancel]
  cases n <;> simp [alignInt, FVal.rat, mul_assoc, hpow]
theorem FVal.rat_ofInt_exp (v e : Int) : (FVal.fin (decide (v < 0)) v.natAbs e).rat = v * 2 ^ e := by
  rw [FVal.rat, Nat.cast_natAbs]
  obtain h | h := lt_or_ge v 0
  · simp [h, abs_of_neg h]
  · simp [not_lt.2 h, abs_of_nonneg h]
/-- The sum of two numbers is their exact sum. -/
theorem FVal.add_fin (down n1 n2 : Bool) (m1 m2 : Nat) (e1 e2 : Int) : ∃ n m e,
    ((FVal.fin n1 m1 e1).add down (.fin n2 m2 e2)).1 = .fin n m e ∧
      (FVal.fin n m e).rat = (FVal.fin n1 m1 e1).rat + (FVal.fin n2 m2 e2).rat := by
  simp only [FVal.add]
  by_cases hz : m1 = 0 ∧ m2 = 0
  · rw [if_pos hz, hz.1, hz.2]
    exact ⟨_, _, _, rfl, by simp [FVal.rat]⟩
  · have hsum := congrArg₂ (· + ·) (alignInt_cast n1 m1 (min_le_left e1 e2)) (alignInt_cast n2 m2 (min_le_right e1 e2))
    simp only [← add_mul, ← Int.cast_add] at hsum
    rw [if_neg hz, ← hsum]
    split
    · next hv => exact ⟨_, _, _, rfl, by rw [hv]; simp [FVal.rat]⟩
    · exact ⟨_, _, _, rfl, FVal.rat_ofInt_exp ..⟩
theorem FVal.add_nan (down : Bool) {a b : FVal} (h : a.isNaN = true ∨ b.isNaN = true) : (a.add down b).1.isNaN = true := by
  cases a <;> cases b <;> simp_all [FVal.isNaN, FVal.add]
/-- A sum with an infinity is that infinity, or a NaN. -/
theorem FVal.add_inf (down n : Bool) {a b : FVal} (h : a = .inf n ∨ b = .inf n) :
    (a.add down b).1.isNaN = true ∨ (a.add down b).1 = .inf n := by
  obtain rfl | rfl := h
  · cases b with
    | fin => exact .inr rfl
    | inf k => by_cases hk : n = k <;> simp [FVal.add, FVal.isNaN, hk]
    | nan => exact .inl rfl
  · cases a with
    | fin => exact .inr rfl
    | inf k => by_cases hk : k = n <;> simp [FVal.add, FVal.isNaN, hk]
    | nan => exact .inl rfl
/-- A value is no NaN and no infinity of a sign. -/
def FVal.avoids (n : Bool) (x : FVal) : Prop := x.isNaN = false ∧ x ≠ .inf n
theorem FVal.add_avoids (down n : Bool) {a b : FVal} (ha : a.avoids n) (hb : b.avoids n) : (a.add down b).1.avoids n := by
  obtain ⟨hna, hia⟩ := ha
  obtain ⟨hnb, hib⟩ := hb
  cases a with
  | nan => cases hna
  | inf p =>
    cases b with
    | nan => cases hnb
    | inf q =>
      have hpq : p = q := by revert hia hib; cases n <;> cases p <;> cases q <;> simp
      rw [FVal.add, if_pos hpq]
      exact ⟨rfl, hia⟩
    | fin => exact ⟨rfl, hia⟩
  | fin n1 m1 e1 =>
    cases b with
    | nan => cases hnb
    | inf q => exact ⟨rfl, hib⟩
    | fin n2 m2 e2 =>
      obtain ⟨k, m, e, h, -⟩ := FVal.add_fin down n1 n2 m1 m2 e1 e2
      rw [h]
      exact ⟨rfl, FVal.noConfusion⟩
/-- A product that is a number has numbers as factors, and is their exact product. -/
theorem FVal.rat_mul {a b : FVal} {n : Bool} {m : Nat} {e : Int} (h : (a.mul b).1 = .fin n m e) :
    (FVal.fin n m e).rat = a.rat * b.rat := by
  cases a with
  | nan => cases h
  | inf p => cases b with
    | fin q k f => rw [FVal.mul] at h; split at h <;> cases h
    | inf | nan => cases h
  | fin p k f =>
    cases b with
    | nan => cases h
    | inf q => rw [FVal.mul] at h; split at h <;> cases h
    | fin q l g =>
      cases h
      simp only [FVal.rat, zpow_add₀ (two_ne_zero (α := ℚ)), Nat.cast_mul]
      cases p <;> cases q <;> simp <;> ring
theorem FVal.rat_fin_eq_zero (n : Bool) (m : Nat) (e : Int) : (FVal.fin n m e).rat = 0 ↔ m = 0 := by
  have h2 : (2 : ℚ) ^ e ≠ 0 := zpow_ne_zero _ two_ne_zero
  cases n <;> simp [FVal.rat, h2]

/-! ## A group sum (R83) -/

/-- The exact sum of values from a first one. -/
def FVal.sum (a : FVal) (l : List FVal) : FVal := l.foldl (fun a y => (a.add false y).1) a
theorem FVal.sum_nan (l : List FVal) {a : FVal} (h : a.isNaN = true ∨ ∃ y ∈ l, y.isNaN = true) : (a.sum l).isNaN = true := by
  induction l generalizing a with
  | nil => exact h.resolve_right (by simp)
  | cons y l ih =>
    refine ih ?_
    obtain h | ⟨z, hz, h⟩ := h
    · exact .inl (FVal.add_nan _ (.inl h))
    · obtain rfl | hz := List.mem_cons.1 hz
      · exact .inl (FVal.add_nan _ (.inr h))
      · exact .inr ⟨z, hz, h⟩
theorem FVal.sum_inf (n : Bool) (l : List FVal) {a : FVal} (h : a = .inf n ∨ .inf n ∈ l) : (a.sum l).isNaN = true ∨ a.sum l = .inf n := by
  induction l generalizing a with
  | nil => exact .inr (h.resolve_right List.not_mem_nil)
  | cons y l ih =>
    by_cases hl : FVal.inf n ∈ l
    · exact ih (.inr hl)
    · have h : a = .inf n ∨ y = .inf n := h.imp_right fun h => ((List.mem_cons.1 h).resolve_right hl).symm
      obtain h | h := FVal.add_inf false n h
      · exact .inl (FVal.sum_nan l (.inl h))
      · exact ih (.inl h)
theorem FVal.sum_avoids (n : Bool) (l : List FVal) {a : FVal} (ha : a.avoids n) (h : ∀ y ∈ l, y.avoids n) : (a.sum l).avoids n := by
  induction l generalizing a with
  | nil => exact ha
  | cons y l ih => exact ih (FVal.add_avoids _ n ha (h y List.mem_cons_self)) fun z hz => h z (List.mem_cons_of_mem _ hz)
/-- A value is a number. -/
def FVal.isFin (x : FVal) : Prop := ∃ n m e, x = .fin n m e
theorem FVal.isFin_of {x : FVal} (hn : x.isNaN = false) (hi : ∀ n, x ≠ .inf n) : x.isFin := by
  cases x with
  | fin n m e => exact ⟨n, m, e, rfl⟩
  | inf n => exact absurd rfl (hi n)
  | nan => cases hn
theorem FVal.sum_fin (l : List FVal) {a : FVal} (ha : a.isFin) (h : ∀ y ∈ l, y.isFin) :
    (a.sum l).isFin ∧ (a.sum l).rat = a.rat + (l.map FVal.rat).sum := by
  induction l generalizing a with
  | nil => exact ⟨ha, by simp [FVal.sum]⟩
  | cons y l ih =>
    obtain ⟨n1, m1, e1, rfl⟩ := ha
    obtain ⟨n2, m2, e2, rfl⟩ := h y List.mem_cons_self
    obtain ⟨n, m, e, hadd, hrat⟩ := FVal.add_fin false n1 n2 m1 m2 e1 e2
    obtain ⟨hfin, hsum⟩ := ih ⟨n, m, e, hadd⟩ fun z hz => h z (List.mem_cons_of_mem _ hz)
    refine ⟨hfin, hsum.trans ?_⟩
    rw [hadd, hrat, List.map_cons, List.sum_cons, add_assoc]

/-- The products of a group. -/
def prods (ps : List (FVal × FVal)) : List FVal := ps.map fun p => (p.1.mul p.2).1
/-- The group sum, over its products. -/
theorem groupExact_eq (down : Bool) (ps : List (FVal × FVal)) : (groupExact down ps).1 =
    if (prods ps).any FVal.isNaN then .nan false
    else if ((FVal.zero true).sum (prods ps)).isZero then
      if (prods ps).all FVal.sign then .zero true else if (prods ps).any fun y => !y.isZero then .zero down else .zero false
    else (FVal.zero true).sum (prods ps) := by
  have hfold (l : List (FVal × BitVec 7)) (a : FVal × BitVec 7) :
      (l.foldl (fun (a p : FVal × BitVec 7) => let (x, f) := a.1.add false p.1; (x, a.2 ||| f)) a).1 = a.1.sum (l.map (·.1)) := by
    induction l generalizing a with
    | nil => rfl
    | cons p l ih => exact ih _
  have hmap : prods ps = (ps.map fun p => p.1.mul p.2).map (·.1) := by rw [List.map_map]; rfl
  unfold groupExact
  rw [hmap]
  generalize ps.map (fun p => p.1.mul p.2) = l
  dsimp only
  rw [hfold, List.any_map, List.all_map, List.any_map]
  simp only [apply_ite Prod.fst]
  rfl
theorem FVal.isZero_of_isNaN {x : FVal} (h : x.isNaN = true) : x.isZero = false := by
  cases x with
  | nan => rfl
  | fin | inf => cases h
theorem FVal.isFin.isZero_iff {x : FVal} (h : x.isFin) : x.isZero = true ↔ x.rat = 0 := by
  obtain ⟨n, m, e, rfl⟩ := h
  rw [FVal.rat_fin_eq_zero]
  exact beq_iff_eq
/-- Products that are numbers are exact. -/
theorem prods_rat (ps : List (FVal × FVal)) (h : ∀ y ∈ prods ps, y.isFin) :
    (prods ps).map FVal.rat = ps.map fun p => p.1.rat * p.2.rat := by
  rw [prods, List.map_map]
  refine List.map_congr_left fun p hp => ?_
  obtain ⟨n, m, e, hx⟩ := h _ (List.mem_map_of_mem hp)
  exact (congrArg FVal.rat hx).trans (FVal.rat_mul hx)
theorem groupExact_nan (down : Bool) (ps : List (FVal × FVal))
    (h : (∃ y ∈ prods ps, y.isNaN = true) ∨ .inf false ∈ prods ps ∧ .inf true ∈ prods ps) : (groupExact down ps).1.isNaN = true := by
  rw [groupExact_eq]
  by_cases hn : ∃ y ∈ prods ps, y.isNaN = true
  · rw [if_pos (List.any_eq_true.2 hn)]
    rfl
  · obtain ⟨hplus, hminus⟩ := h.resolve_left hn
    have hsum : ((FVal.zero true).sum (prods ps)).isNaN = true := by
      obtain h | hp := FVal.sum_inf false (prods ps) (a := .zero true) (.inr hplus)
      · exact h
      · obtain h | hm := FVal.sum_inf true (prods ps) (a := .zero true) (.inr hminus)
        · exact h
        · cases hp.symm.trans hm
    rw [if_neg fun h => hn (List.any_eq_true.1 h), FVal.isZero_of_isNaN hsum]
    exact hsum
theorem not_any_isNaN {l : List FVal} (h : ∀ y ∈ l, y.isNaN = false) : ¬ l.any FVal.isNaN = true := fun hany => by
  obtain ⟨y, hy, hn⟩ := List.any_eq_true.1 hany
  exact ne_true_of_eq_false (h y hy) hn
theorem groupExact_inf (down : Bool) (ps : List (FVal × FVal)) {n : Bool} (h : ∀ y ∈ prods ps, y.avoids (!n))
    (hn : .inf n ∈ prods ps) : (groupExact down ps).1 = .inf n := by
  have havoid : ((FVal.zero true).sum (prods ps)).avoids (!n) := FVal.sum_avoids _ _ ⟨rfl, FVal.noConfusion⟩ h
  have hsum := (FVal.sum_inf n (prods ps) (a := .zero true) (.inr hn)).resolve_left (ne_true_of_eq_false havoid.1)
  rw [groupExact_eq, if_neg (not_any_isNaN fun y hy => (h y hy).1), hsum]
  rfl
theorem FVal.rat_zero (n : Bool) : (FVal.zero n).rat = 0 := (FVal.rat_fin_eq_zero ..).2 rfl
theorem groupExact_fin (down : Bool) (ps : List (FVal × FVal)) (h : ∀ y ∈ prods ps, y.isFin) :
    ∃ n m e, (groupExact down ps).1 = .fin n m e ∧ (groupExact down ps).1.rat = (ps.map fun p => p.1.rat * p.2.rat).sum ∧
      (m = 0 → (n = true ↔ (∀ y ∈ prods ps, y.sign = true) ∨ (down = true ∧ ∃ y ∈ prods ps, y.rat ≠ 0))) := by
  obtain ⟨hsum, hrat⟩ := FVal.sum_fin (prods ps) (a := .zero true) ⟨_, _, _, rfl⟩ h
  rw [prods_rat ps h, FVal.rat_zero, zero_add] at hrat
  have hnan : ∀ y ∈ prods ps, y.isNaN = false := fun y hy => by
    obtain ⟨n, m, e, rfl⟩ := h y hy
    rfl
  have hnonzero : (prods ps).any (fun y => !y.isZero) = true ↔ ∃ y ∈ prods ps, y.rat ≠ 0 := by
    rw [List.any_eq_true]
    refine exists_congr fun y => and_congr_right fun hy => ?_
    rw [Bool.not_eq_true', ← Bool.not_eq_true, (h y hy).isZero_iff]
  rw [groupExact_eq, if_neg (not_any_isNaN hnan), ← hrat, ← hnonzero, ← List.all_eq_true]
  by_cases hz : ((FVal.zero true).sum (prods ps)).isZero = true
  · rw [if_pos hz, hsum.isZero_iff.1 hz]
    split
    · next hall => exact ⟨true, 0, 0, rfl, FVal.rat_zero _, by simp [hall]⟩
    · next hall =>
      split
      · next hany => exact ⟨down, 0, 0, rfl, FVal.rat_zero _, by simp [hall, hany]⟩
      · next hany => exact ⟨false, 0, 0, rfl, FVal.rat_zero _, by simp [hall, hany]⟩
  · rw [if_neg hz]
    obtain ⟨n, m, e, hx⟩ := hsum
    refine ⟨n, m, e, hx, rfl, fun hm => absurd ?_ hz⟩
    rw [hx, hm]
    rfl
/-- A group sum of NBV 1 is what R83 says. -/
theorem groupExact_sum (down : Bool) (ps : List (FVal × FVal)) : GroupSum down ps (groupExact down ps).1 :=
  ⟨groupExact_nan down ps, fun hnan hboth =>
    ⟨fun n hn => groupExact_inf down ps (fun y hy => ⟨hnan y hy, fun h => hboth (by subst h; cases n; exacts [⟨hn, hy⟩, ⟨hy, hn⟩])⟩) hn,
      fun hinf => groupExact_fin down ps fun y hy => FVal.isFin_of (hnan y hy) fun n h => hinf n (h ▸ hy)⟩⟩

/-! ## Integer groups and running sums (R84, R86) -/

/-- A value of an integer: a number at exponent 0. -/
def FVal.whole (x : FVal) : Prop := ∃ n m, x = .fin n m 0
theorem FVal.whole.add {a b : FVal} (ha : a.whole) (hb : b.whole) (down : Bool) : (a.add down b).1.whole := by
  obtain ⟨n1, m1, rfl⟩ := ha
  obtain ⟨n2, m2, rfl⟩ := hb
  simp only [FVal.add]
  split
  · exact ⟨_, _, rfl⟩
  · split
    · exact ⟨_, _, rfl⟩
    · exact ⟨_, _, by rw [min_self]⟩
theorem FVal.whole.sum (l : List FVal) {a : FVal} (ha : a.whole) (h : ∀ y ∈ l, y.whole) : (a.sum l).whole := by
  induction l generalizing a with
  | nil => exact ha
  | cons y l ih => exact ih (ha.add (h y List.mem_cons_self) false) fun z hz => h z (List.mem_cons_of_mem _ hz)
theorem FVal.whole.asInt {x : FVal} (h : x.whole) : ((asInt x : Int) : ℚ) = x.rat := by
  obtain ⟨n, m, rfl⟩ := h
  cases n <;> simp [Machine.asInt, FVal.rat]
theorem FVal.whole.isFin {x : FVal} (h : x.whole) : x.isFin := by
  obtain ⟨n, m, rfl⟩ := h
  exact ⟨n, m, 0, rfl⟩
/-- The group sum of whole products, as an integer. -/
theorem asInt_groupExact (ps : List (FVal × FVal)) (h : ∀ q ∈ ps, (∃ i, q.1 = FVal.ofInt i) ∧ ∃ j, q.2 = FVal.ofInt j) :
    ((asInt (groupExact false ps).1 : Int) : ℚ) = (ps.map fun q => q.1.rat * q.2.rat).sum := by
  have hwhole : ∀ y ∈ prods ps, y.whole := fun y hy => by
    obtain ⟨q, hq, rfl⟩ := List.mem_map.1 hy
    obtain ⟨⟨i, hi⟩, j, hj⟩ := h q hq
    rw [hi, hj]
    exact ⟨_, _, rfl⟩
  obtain ⟨-, -, -, -, hrat, -⟩ := groupExact_fin false ps fun y hy => (hwhole y hy).isFin
  have hsum : (groupExact false ps).1.whole := by
    rw [groupExact_eq]
    split
    · next hany =>
      obtain ⟨y, hy, hn⟩ := List.any_eq_true.1 hany
      obtain ⟨n, m, rfl⟩ := hwhole y hy
      cases hn
    · split
      · split
        · exact ⟨_, _, rfl⟩
        · split
          · exact ⟨_, _, rfl⟩
          · exact ⟨_, _, rfl⟩
      · exact FVal.whole.sum _ ⟨_, _, rfl⟩ hwhole
  rw [hsum.asInt, hrat]
/-- A 32-bit clamp, as the register reads. -/
theorem clampI_s32 (i : Int) : (BitVec.ofNat 32 (clampI .s32 i).1).toInt = max (-(2 ^ 31)) (min (2 ^ 31 - 1) i) := by
  have hread (v : Int) (hlo : -(2 ^ 31) ≤ v) (hhi : v ≤ 2 ^ 31 - 1) : (BitVec.ofNat 32 (wrapI 32 v)).toInt = v := by
    rw [BitVec.toInt_eq_toNat_bmod, BitVec.toNat_ofNat, Int.natCast_mod, wrapI_cast, Int.bmod_def]
    norm_num at hlo hhi ⊢
    omega
  change (BitVec.ofNat 32 (if i < -(2 ^ 31) then (wrapI 32 (-(2 ^ 31)), fST)
    else if (2 ^ 31 - 1 : Int) < i then (wrapI 32 (2 ^ 31 - 1), fST) else (wrapI 32 i, 0)).1).toInt = _
  split
  · rw [hread _ le_rfl (by decide)]
    omega
  · split
    · rw [hread _ (by decide) le_rfl]
      omega
    · rw [hread i (by omega) (by omega)]
      omega
/-- A value rounded toward zero to fp32. -/
def runStep (y : FVal) : FVal := fmtF32.decode true (fmtF32.round true 1 0 y).1
/-- A running sum from a value over products. -/
def runFrom (a : FVal) (l : List FVal) : FVal := l.foldl (fun z y => runStep (z.add false y).1) a
theorem runFrom_take_succ (a : FVal) (l : List FVal) {k : Nat} (h : k < l.length) :
    runFrom a (l.take (k + 1)) = runStep ((runFrom a (l.take k)).add false l[k]).1 := by
  rw [runFrom, ← List.take_append_getElem h, List.foldl_append]
  rfl
theorem groupRunning_eq (p : FVal × FVal) (ps : List (FVal × FVal)) :
    (groupRunning (p :: ps)).1 = runFrom (runStep (p.1.mul p.2).1) (prods ps) := by
  have hfold (l : List (FVal × FVal)) (a : FVal) (f : BitVec 7) : (l.foldl (fun (a : Option FVal × BitVec 7) p =>
      let (x, f1) := p.1.mul p.2
      let (y, f2) := match a.1 with | none => (x, 0) | some z => z.add false x
      let (c, f3) := fmtF32.round true 1 0 y
      (some (fmtF32.decode true c), a.2 ||| f1 ||| f2 ||| f3)) (some a, f)).1 = some (runFrom a (prods l)) := by
    induction l generalizing a f with
    | nil => rfl
    | cons q l ih => exact ih ..
  exact congrArg (·.getD (.zero false)) (hfold ps _ _)
/-- The running sum of NBV 0 is what R86 says. -/
theorem groupRunning_sum {ps : List (FVal × FVal)} (h : ps ≠ []) : RunningSum ps (groupRunning ps).1 := by
  obtain ⟨p, ps, rfl⟩ := List.exists_cons_of_ne_nil h
  refine ⟨fun k => runFrom (runStep (p.1.mul p.2).1) ((prods ps).take k), rfl, fun k hk => ?_, ?_⟩
  · have hk : k < ps.length := Nat.lt_of_succ_lt_succ hk
    have hprod : (prods ps)[k]'(by simpa [prods] using hk) =
        (((p :: ps).getD (k + 1) (.zero false, .zero false)).1.mul ((p :: ps).getD (k + 1) (.zero false, .zero false)).2).1 := by
      simp [prods, hk]
    dsimp only
    rw [runFrom_take_succ _ _ (by simpa [prods] using hk), hprod]
    rfl
  · rw [groupRunning_eq]
    simp [prods, List.take_of_length_le]

/-! ## An accumulator word (R185) -/

/-- An accumulator word after one more group. -/
def accWord (nbv acc32 : Bool) (rm : Nat) (rs : Nat → Nat) (p : Nat) (edge : Option (FVal × FVal)) (grp : List (FVal × FVal))
    (g acc : Nat) : Nat :=
  if acc32 then (clampI .s32 ((BitVec.ofNat 32 acc).toInt + asInt (groupExact false grp).1)).1
  else
    let x := if nbv then (groupExact (rm == 2) grp).1 else (groupRunning grp).1
    let x := match edge with | none => x | some (a, b) => ((x.mul a).1.mul b).1
    let c := (fmtF32.round true rm (rs (p + 2 ^ 16 * (2 * g))) x).1
    (fmtF32.round true rm (rs (p + 2 ^ 16 * (2 * g + 1))) ((fmtF32.decode true acc).add (rm == 2) (fmtF32.decode true c)).1).1
/-- Products of a group. -/
def groupSize (nbv : Bool) : Nat := if nbv then 16 else 8

section
variable (nbv acc32 : Bool) (rm : Nat) (rs : Nat → Nat) (p : Nat) (edge : Option (FVal × FVal))

theorem accumulate_succ (n : Nat) (ps : List (FVal × FVal)) (g acc : Nat) : (accumulate nbv acc32 rm rs p edge (n + 1) ps g acc).1 =
    (accumulate nbv acc32 rm rs p edge n (ps.drop (groupSize nbv)) (g + 1)
      (accWord nbv acc32 rm rs p edge (ps.take (groupSize nbv)) g acc)).1 := by
  cases acc32 with
  | true => rfl
  | false =>
    cases edge with
    | none => cases nbv <;> rfl
    | some ab => cases nbv <;> rfl
/-- The accumulator word after `g` groups. -/
def accAfter (ps : List (FVal × FVal)) (start : Nat) : Nat → Nat
  | 0 => start
  | g + 1 => accWord nbv acc32 rm rs p edge ((ps.drop (groupSize nbv * g)).take (groupSize nbv)) g (accAfter ps start g)
theorem accumulate_eq (ps : List (FVal × FVal)) (start n g : Nat) :
    (accumulate nbv acc32 rm rs p edge n (ps.drop (groupSize nbv * g)) g (accAfter nbv acc32 rm rs p edge ps start g)).1 =
      accAfter nbv acc32 rm rs p edge ps start (g + n) := by
  induction n generalizing g with
  | zero => rfl
  | succ n ih =>
    rw [accumulate_succ, List.drop_drop, ← Nat.mul_succ, Nat.add_comm n, ← Nat.add_assoc]
    exact ih (g + 1)
/-- One more group adds to the word what R84 and R185 say. -/
theorem accWord_int (grp : List (FVal × FVal)) (g acc : Nat)
    (h : ∀ q ∈ grp, (∃ i, q.1 = FVal.ofInt i) ∧ ∃ j, q.2 = FVal.ofInt j) :
    (((BitVec.ofNat 32 (accWord nbv true rm rs p edge grp g acc)).toInt : Int) : ℚ) =
      max (-(2 ^ 31)) (min (2 ^ 31 - 1) (((BitVec.ofNat 32 acc).toInt : ℚ) + (grp.map fun q => q.1.rat * q.2.rat).sum)) := by
  rw [accWord, if_pos rfl, clampI_s32, ← asInt_groupExact grp h]
  norm_num
/-- 256 products make of a word what R83 to R86 and R185 say. -/
theorem accumulate_accumulates (ps : List (FVal × FVal)) (start : Nat) (h : ps.length = 256) :
    Accumulates nbv acc32 rm rs p edge ps start (accumulate nbv acc32 rm rs p edge (if nbv then 16 else 32) ps 0 start).1 := by
  refine ⟨accAfter nbv acc32 rm rs p edge ps start, rfl, ?_, fun g hg => ⟨fun hacc hq => ?_, fun hacc => ?_⟩⟩
  · cases nbv with
    | true => exact (accumulate_eq true acc32 rm rs p edge ps start 16 0).symm
    | false => exact (accumulate_eq false acc32 rm rs p edge ps start 32 0).symm
  · subst hacc
    exact accWord_int nbv rm rs p edge _ g _ hq
  · subst hacc
    refine ⟨if nbv then (groupExact (rm == 2) ((ps.drop (groupSize nbv * g)).take (groupSize nbv))).1
      else (groupRunning ((ps.drop (groupSize nbv * g)).take (groupSize nbv))).1, ?_, rfl⟩
    cases nbv with
    | true => exact groupExact_sum _ _
    | false =>
      refine groupRunning_sum (List.ne_nil_of_length_pos ?_)
      have hg : g < 32 := hg
      simp only [List.length_take, List.length_drop, h, Bool.false_eq_true, if_false]
      omega
end
end Sys2Proof.Machine
end

section
/-! Matrix work that starts and ends (R66, R180 to R189): what an operation computes, and its events. -/

namespace Sys2Proof.Machine

/-! ## Rows of a group (R185, R188) -/

/-- A word of a packed row of 32. -/
theorem elemAt_row (x r : Nat) {q : Nat} (h : q < 32) : elemAt x 32 (32 * r + q) = elemAt (elemAt x 1024 r) 32 q := by
  refine Nat.eq_of_testBit_eq fun k => ?_
  simp only [elemAt, Nat.testBit_mod_two_pow, Nat.testBit_shiftRight]
  by_cases hk : k < 32
  · have hlt : q * 32 + k < 1024 := by omega
    rw [show (32 * r + q) * 32 + k = r * 1024 + (q * 32 + k) by omega]
    simp [hk, hlt]
  · simp [hk]
theorem elemAt_mod (x w k : Nat) : elemAt x w k % 2 ^ w = elemAt x w k := Nat.mod_mod ..
/-- A word of rows of 32 words. -/
theorem elemAt_rows (l : List (List Nat)) {r q : Nat} (hr : r < l.length) (hlen : (l[r]).length = 32) (hq : q < 32) :
    elemAt (packElems 1024 (l.map (packElems 32))) 32 (32 * r + q) = (l[r]).getD q 0 % 2 ^ 32 := by
  have hrow : packElems 32 l[r] % 2 ^ 1024 = packElems 32 l[r] := by
    have hlt := packElems_lt 32 l[r]
    rw [hlen, show 32 * 32 = 1024 from rfl] at hlt
    exact Nat.mod_eq_of_lt hlt
  rw [elemAt_row _ _ hq, elemAt_packElems _ _ _ (by simpa using hr), List.getElem_map, hrow,
    elemAt_packElems _ _ _ (hlen.symm ▸ hq), List.getD_eq_getElem _ _ (hlen.symm ▸ hq)]

/-! ## Products (R175, R185, R187) -/

/-- Element (`r`, `q`) of a run, decoded and scaled (R175). -/
def matValue (tab : Nat → BitVec 32) (nbv : Bool) (fd geo run scl r q : Nat) : FVal :=
  let v := (dFmt (tab fd)).decode nbv (elemAt run (dWidth (tab fd)) (256 * r + q))
  if geo = 0 then v
  else (scaled v ((dFmt (tab (dSfmt (tab fd)))).decode nbv (elemAt scl 8 (256 * r / geoSize geo + q / geoSize geo)))).1
theorem matDecode_value (tab : Nat → BitVec 32) (nbv : Bool) (fd geo run scl r q : Nat) :
    (matDecode tab nbv fd geo run scl r q).1 = matValue tab nbv fd geo run scl r q := by
  unfold matDecode matValue
  split <;> rfl
/-- The products of an output lane, of a row and the columns (R185, R187). -/
def pairs (cplx : Bool) (A : Nat → FVal) (B : Nat → Nat → FVal) (j : Nat) : List (FVal × FVal) :=
  if cplx then ((List.range 128).map fun q =>
    if j % 2 = 0 then [(A (2 * q), B (2 * q) (j / 2)), ((A (2 * q + 1)).neg, B (2 * q + 1) (j / 2))]
    else [(A (2 * q), B (2 * q + 1) (j / 2)), (A (2 * q + 1), B (2 * q) (j / 2))]).flatten
  else (List.range 256).map fun q => (A q, B q j)
theorem pairs_length (cplx : Bool) (A : Nat → FVal) (B : Nat → Nat → FVal) (j : Nat) : (pairs cplx A B j).length = 256 := by
  have hpair (q : Nat) : (if j % 2 = 0 then [(A (2 * q), B (2 * q) (j / 2)), ((A (2 * q + 1)).neg, B (2 * q + 1) (j / 2))]
      else [(A (2 * q), B (2 * q + 1) (j / 2)), (A (2 * q + 1), B (2 * q) (j / 2))]).length = 2 := by split <;> rfl
  cases cplx with
  | false => simp [pairs]
  | true => simp [pairs, List.length_flatten, Function.comp_def, hpair]
theorem getD_range_map {α : Type} (f : Nat → α) {n k : Nat} (d : α) (h : k < n) : ((List.range n).map f).getD k d = f k := by
  simp [h]
theorem products_pairs (cplx : Bool) (A : Nat → FVal) (B : Nat → Nat → FVal) {j : Nat} (h : j < 128) :
    products cplx ((List.range 256).map A) (fun n =>
      ((List.range (if cplx then 64 else 128)).map fun j => (List.range 256).map fun q => B q j).getD n []) j = pairs cplx A B j := by
  cases cplx with
  | false =>
    have hcol := getD_range_map (fun j => (List.range 256).map fun q => B q j) [] h
    simp only [products, pairs, Bool.not_false, if_true, Bool.false_eq_true, if_false, hcol]
    rw [List.zip_map']
  | true =>
    have hcol := getD_range_map (fun j => (List.range 256).map fun q => B q j) [] (show j / 2 < 64 by omega)
    simp only [products, pairs, Bool.not_true, if_true, Bool.false_eq_true, if_false, hcol]
    refine congrArg List.flatten (List.map_congr_left fun q hq => ?_)
    have hq := List.mem_range.1 hq
    rw [getD_range_map A _ (show 2 * q < 256 by omega), getD_range_map A _ (show 2 * q + 1 < 256 by omega),
      getD_range_map (B · (j / 2)) _ (show 2 * q < 256 by omega), getD_range_map (B · (j / 2)) _ (show 2 * q + 1 < 256 by omega)]

/-! ## The result of an array operation (R185 to R187) -/

variable {s : State} {who : Nat} {m : MOp}

/-- The edge scales of an element, where the setting has them (R185). -/
def State.edgeOf (s : State) (who : Nat) (m : MOp) (a : ArrOp) (i j : Nat) : Option (FVal × FVal) :=
  let edge := (dFmt (s.desc (s.partOf who) (cfgEsd m.cfg))).decode m.ent.nbv
  if cfgEse m.cfg then some (edge ((m.mr.extractLsb' (8 * (32 * a.y + i)) 8).toNat), edge ((m.mc.extractLsb' (8 * j) 8).toNat)) else none
/-- The word at which an element starts. -/
def State.startOf (s : State) (who : Nat) (m : MOp) (a : ArrOp) (i j : Nat) : Nat :=
  if a.zero then (if cfgAcc m.cfg then 0 else 2 ^ 31) else s.accum who m.ent a.od i j
/-- The products of element (`i`, `j`) of an array operation. -/
def State.pairsOf (s : State) (who : Nat) (m : MOp) (a : ArrOp) (i j : Nat) : List (FVal × FVal) :=
  let pl := (s.ctx who).plane a.x
  let value := matValue (s.desc (s.partOf who)) m.ent.nbv
  pairs a.cplx (fun q => value (cfgAfd m.cfg) (cfgAgeo m.cfg) m.runA m.sclA i q) (fun q j => value pl.bfd pl.bgeo pl.data pl.scale j q) j
/-- Element (`i`, `j`) of the result of an array operation. -/
def State.arrayWord (s : State) (who : Nat) (m : MOp) (a : ArrOp) (i j : Nat) : Nat :=
  (accumulate m.ent.nbv (cfgAcc m.cfg) a.rm.toNat (fun lane => rbits (s.ctx who).ctl.srseed lane m.ent.sridx.toNat) (128 * i + j)
    (s.edgeOf who m a i j) (if m.ent.nbv then 16 else 32) (s.pairsOf who m a i j) 0 (s.startOf who m a i j)).1
theorem State.arrayResult_words (a : ArrOp) : (s.arrayResult who m a).1 = (List.range 4).map fun u =>
    (accOff m.ent a.od u, cfgRows m.cfg * 128, packElems 1024 (((List.range (cfgRows m.cfg)).map fun i =>
      (((List.range 128).map fun j => s.arrayWord who m a i j).drop (32 * u)).take 32).map (packElems 32))) := by
  unfold State.arrayResult
  simp only [List.map_map, Function.comp_def, matDecode_value]
  refine List.map_congr_left fun u _ => ?_
  refine congrArg (fun l => (accOff m.ent a.od u, cfgRows m.cfg * 128, packElems 1024 l)) (List.map_congr_left fun i _ => ?_)
  refine congrArg (fun l => packElems 32 ((l.drop (32 * u)).take 32)) (List.map_congr_left fun j hj => ?_)
  rw [products_pairs _ _ _ (List.mem_range.1 hj)]
  rfl
/-- A word of an array operation's result. -/
theorem State.arrayResult_word (a : ArrOp) {u i q : Nat} (hu : u < 4) (hi : i < cfgRows m.cfg) (hq : q < 32) :
    ∃ v, (s.arrayResult who m a).1[u]? = some (accOff m.ent a.od u, cfgRows m.cfg * 128, v) ∧
      elemAt v 32 (32 * i + q) = s.arrayWord who m a i (32 * u + q) % 2 ^ 32 := by
  refine ⟨_, by rw [State.arrayResult_words, List.getElem?_map, List.getElem?_range hu]; rfl, ?_⟩
  have hlen : ((((List.range 128).map fun j => s.arrayWord who m a i j).drop (32 * u)).take 32).length = 32 := by
    simp only [List.length_take, List.length_drop, List.length_map, List.length_range]
    omega
  rw [elemAt_rows _ (by simpa using hi) (by simpa using hlen) hq]
  simp only [List.getElem_map, List.getElem_range]
  rw [List.getD_eq_getElem _ _ (hlen.symm ▸ hq)]
  simp

/-! ## What an operation computes as it starts (R185 to R189) -/

/-- Bytes of a register of the operation's window, as the operation names it. -/
def State.regOf (s : State) (who : Nat) (e : Ent) (f : BitVec 11) (vw : View) : Nat := s.bytes (s.winBase who + e.off vw f) vw.size

theorem State.mCompute_mclr (hl : m.live = true) {g : Guard} {n : BitVec 3} {od : BitVec 11} (hop : m.op = .mclr g n od) :
    (s.mCompute who m).res = m.writes.map fun p => (p.1, p.2, 0) := by
  simp only [State.mCompute, hl, hop, Bool.not_true, Bool.false_eq_true, if_false]
theorem State.mCompute_mbias (hl : m.live = true) {g : Guard} {od os : BitVec 11} (hop : m.op = .mbias g od os) :
    (s.mCompute who m).res = (List.range 4).map fun u => (accOff m.ent od u, cfgRows m.cfg * 128,
      packElems 1024 (List.replicate (cfgRows m.cfg) (elemAt (s.regOf who m.ent os .v) 1024 u))) := by
  simp only [State.mCompute, hl, hop, Bool.not_true, Bool.false_eq_true, if_false]
  rfl
theorem State.mCompute_mtr (hl : m.live = true) {g : Guard} {od os : BitVec 11} (hop : m.op = .mtr g od os) :
    (s.mCompute who m).res = [(accOff m.ent od 0, 4096,
      packElems 32 ((List.range 1024).map fun q => elemAt (s.regOf who m.ent os .a) 32 (q % 32 * 32 + q / 32)))] := by
  simp only [State.mCompute, hl, hop, Bool.not_true, Bool.false_eq_true, if_false]
  rfl
theorem State.mCompute_mdrain (hl : m.live = true) {g : Guard} {rm : BitVec 3} {kd : BitVec 6} {add : Bool} {os : BitVec 11}
    {ra rb : BitVec 6} (hop : m.op = .mdrain g rm kd add os ra rb) :
    ((s.mCompute who m).outv, (s.mCompute who m).flags) = s.drainResult who m rm kd.toNat add os := by
  simp only [State.mCompute, hl, hop, Bool.not_true, Bool.false_eq_true, if_false]
theorem State.mCompute_array (hl : m.live = true) {a : ArrOp} (ha : arrOf m.op = some a) :
    (s.mCompute who m).res = (s.arrayResult who m a).1 := by
  unfold State.mCompute
  rw [if_neg (by simp [hl])]
  split
  · next hop => rw [hop] at ha; cases ha
  · next hop => rw [hop] at ha; cases ha
  · next hop => rw [hop] at ha; cases ha
  · next hop => rw [hop] at ha; cases ha
  · rw [ha]

/-- The bias row, repeated in every row of the group (R188). -/
theorem State.mbias_word (hl : m.live = true) {g : Guard} {od os : BitVec 11} (hop : m.op = .mbias g od os) {u r q : Nat}
    (hu : u < 4) (hr : r < cfgRows m.cfg) (hq : q < 32) : ∃ p, (s.mCompute who m).res[u]? = some p ∧ p.1 = accOff m.ent od u ∧
      p.2.1 = cfgRows m.cfg * 128 ∧ elemAt p.2.2 32 (32 * r + q) = elemAt (s.regOf who m.ent os .v) 32 (32 * u + q) := by
  refine ⟨_, by rw [State.mCompute_mbias hl hop, List.getElem?_map, List.getElem?_range hu]; rfl, rfl, rfl, ?_⟩
  rw [elemAt_row _ _ hq, elemAt_packElems _ _ _ (by simpa using hr), List.getElem_replicate, elemAt_mod, ← elemAt_row _ _ hq]
/-- The transpose (R188). -/
theorem State.mtr_word (hl : m.live = true) {g : Guard} {od os : BitVec 11} (hop : m.op = .mtr g od os) :
    ∃ v, (s.mCompute who m).res = [(accOff m.ent od 0, 4096, v)] ∧
      ∀ i j, i < 32 → j < 32 → elemAt v 32 (32 * i + j) = elemAt (s.regOf who m.ent os .a) 32 (32 * j + i) := by
  refine ⟨_, State.mCompute_mtr hl hop, fun i j hi hj => ?_⟩
  rw [elemAt_pack_range _ _ _ _ (by omega), elemAt_mod]
  exact congrArg _ (by omega)
/-- An accumulator as a number, in the setting's kind. -/
def accValue (cfg : Word) (v : Nat) : FVal := if cfgAcc cfg then FVal.ofInt (BitVec.ofNat 32 v).toInt else fmtF32.decode true v
/-- Element `q` of a drain, rounded into its descriptor's code (R189). -/
def State.drainCode (s : State) (who : Nat) (m : MOp) (rm : BitVec 3) (k : Nat) (add : Bool) (os : BitVec 11) (q : Nat) :
    Nat × BitVec 7 :=
  let word := accValue m.cfg (s.accum who m.ent os (q / 128) (q % 128))
  let sum := if add then word.add (rm == 2) (accValue m.cfg (elemAt m.sclA 32 q)) else (word, 0)
  let r := (dFmt (s.desc (s.partOf who) k)).round m.ent.nbv rm.toNat (rbits (s.ctx who).ctl.srseed q m.ent.sridx.toNat) sum.1
  (r.1, sum.2 ||| r.2)
theorem State.drainResult_codes (rm : BitVec 3) (k : Nat) (add : Bool) (os : BitVec 11) : s.drainResult who m rm k add os =
    packAll (dWidth (s.desc (s.partOf who) k)) ((List.range (cfgRows m.cfg * 128)).map (s.drainCode who m rm k add os)) := rfl

/-! ## The events of matrix work (R180, R183, R189) -/

theorem Ctx.mem_of_mop {c : Ctx} {k : Nat} (h : c.mop k = some m) : m ∈ c.mops ∧ m.id = k :=
  ⟨List.mem_of_find?_eq_some h, beq_iff_eq.1 (List.find?_some (p := fun m : MOp => m.id == k) h)⟩
/-- An operation that has changed is found under its number. -/
theorem Ctx.mop_setMop {c : Ctx} {m m' : MOp} (hm : m ∈ c.mops) (hid : m'.id = m.id) : (c.setMop m').mop m.id = some m' := by
  have hfind (l : List MOp) (hm : m ∈ l) : (l.map fun x => if x.id = m'.id then m' else x).find? (fun x => x.id == m.id) = some m' := by
    induction l with
    | nil => cases hm
    | cons y l ih =>
      by_cases hy : y.id = m'.id
      · simp [hy, hid]
      · have hl : m ∈ l := (List.mem_cons.1 hm).resolve_left fun h => hy (h ▸ hid.symm)
        simpa [hy, hid ▸ hy] using ih hl
  exact hfind c.mops hm
theorem State.mCompute_id : (s.mCompute who m).id = m.id := by
  unfold State.mCompute
  split
  · rfl
  · split
    · rfl
    · rfl
    · rfl
    · rfl
    · split <;> rfl
theorem execMatrixPathStart_starts {k : Nat} (hm : (s.ctx who).mop k = some m) (hs : s.canStart who m = true) :
    execMatrixPathStart who k s = .next ((s.takePath (coreOf who) m.path (s.mTimes who m).1).modCtx who fun c =>
      c.setMop { s.mCompute who m with stage := 1, left := (s.mTimes who m).2 }) := by
  simp only [execMatrixPathStart, hm, hs, Bool.not_true, Bool.false_eq_true, if_false]
theorem execMatrixPathStart_waits {k : Nat} (hm : (s.ctx who).mop k = some m) (hs : s.canStart who m = false) :
    execMatrixPathStart who k s = .next s := by
  simp only [execMatrixPathStart, hm, hs, Bool.not_false, if_true]
theorem State.mbusy_takePath (core p n : Nat) : aget 0 ((s.takePath core p n).core core).mbusy p = n := by
  rw [State.takePath, State.core_modCore, aget_aset_self]

/-! ## Credits of an operation that leaves (R66) -/

theorem finished_own (n : Nat) : finished true 0 n (List.replicate n { own := true }) = List.replicate n { own := true, done := true } := by
  induction n with
  | zero => rfl
  | succ n ih => exact congrArg (_ :: ·) ih
/-- Credits of a context's own firing stay withheld. -/
theorem replicate_own_not_ready (n : Nat) : (List.replicate n ({ own := true, done := true } : Owed)).takeWhile Owed.ready = [] ∧
    (List.replicate n ({ own := true, done := true } : Owed)).dropWhile Owed.ready = List.replicate n { own := true, done := true } := by
  cases n <;> exact ⟨rfl, rfl⟩
theorem Ring.credit_own {r : Ring} {a b : Nat} (hpop : r.pops = List.replicate a { own := true })
    (hpush : r.pushes = List.replicate b { own := true }) : r.credit a b true =
      { r with pops := List.replicate a { own := true, done := true }, pushes := List.replicate b { own := true, done := true } } := by
  obtain ⟨htp, hdp⟩ := replicate_own_not_ready a
  obtain ⟨htq, hdq⟩ := replicate_own_not_ready b
  rw [Ring.credit, hpop, hpush, finished_own, finished_own]
  simp only [Ring.settle, htp, hdp, htq, hdq, List.length_nil, Nat.add_zero]
@[simp] theorem State.creditM_ctx (m : MOp) (w : Nat) : (s.creditM m).ctx w = s.ctx w :=
  foldl_leaves (fun s : State => s.ctx w) m.rings (fun _ _ => State.ctx_modRing ..) s
theorem State.endMop_ctx (m : MOp) : (s.endMop who m).ctx who =
    { s.ctx who with mops := (s.ctx who).mops.filter fun x => x.id != m.id } := by
  rw [State.endMop, State.ctx_modCtx, State.creditM_ctx]
/-- The slots of an operation that leaves are complete, and their credits withheld. -/
theorem State.endMop_ring {core n a b : Nat} (hr : m.rings = [(core, n, a, b)])
    (hpop : (s.ring core n).pops = List.replicate a { own := true }) (hpush : (s.ring core n).pushes = List.replicate b { own := true }) :
    (s.endMop who m).ring core n = { s.ring core n with
      pops := List.replicate a { own := true, done := true }, pushes := List.replicate b { own := true, done := true } } := by
  rw [State.endMop, State.creditM, hr]
  have h := State.ring_modRing (s := s) core n fun q => q.credit a b true
  exact h.trans (Ring.credit_own hpop hpush)

/-! ## Results (R180) -/

/-- A piece of a result leaves the operations, the control registers and the cores as they were. -/
theorem State.writeWin_leaves (off n v bm : Nat) : ((s.writeWin who off n v bm).ctx who).mops = (s.ctx who).mops ∧
    ((s.writeWin who off n v bm).ctx who).ctl = (s.ctx who).ctl ∧ (s.writeWin who off n v bm).cores = s.cores := by
  have h := s.turns_writeWin who off n v bm
  rw [h.2.2]
  exact ⟨rfl, rfl, h.cores⟩
/-- What a written result leaves. -/
def State.matrixRest (s : State) (who : Nat) : List MOp × Ctl × List (Nat × Core) := ((s.ctx who).mops, (s.ctx who).ctl, s.cores)
theorem State.putPieces_leaves (m : MOp) : (s.putPieces who m).matrixRest who = s.matrixRest who := by
  refine foldl_leaves (fun s : State => s.matrixRest who) m.res (fun t a => ?_) s
  dsimp only [State.matrixRest]
  rw [State.ctx_modCtx]
  obtain ⟨hmops, hctl, hcores⟩ := t.writeWin_leaves (who := who) a.1 a.2.1 a.2.2 _
  exact congrArg₂ _ hmops (congrArg₂ _ hctl hcores)
theorem Ctl.flag_zero (c : Ctl) : c.flag 0 = c := by simp [Ctl.flag]
/-- What an operation leaves behind whose work has ended in a state `u`. -/
theorem State.endMop_leaves {u : State} (hmops : (u.ctx who).mops = (s.ctx who).mops)
    (hring : m.peer = none → ∀ n, u.ring (coreOf who) n = s.ring (coreOf who) n) :
    ((u.endMop who m).ctx who).mops = (s.ctx who).mops.filter (fun y => y.id != m.id) ∧ (u.endMop who m).mem = u.mem ∧
      ((u.endMop who m).ctx who).ctl = (u.ctx who).ctl ∧
      (m.peer = none → ∀ n a b, m.rings = [(coreOf who, n, a, b)] → (s.ring (coreOf who) n).pops = List.replicate a { own := true } →
        (s.ring (coreOf who) n).pushes = List.replicate b { own := true } → (u.endMop who m).ring (coreOf who) n = { s.ring (coreOf who) n with
          pops := List.replicate a { own := true, done := true }, pushes := List.replicate b { own := true, done := true } }) := by
  rw [State.endMop_ctx]
  refine ⟨by rw [hmops], State.endMop_mem .., rfl, fun hp n a b hr hpop hpush => ?_⟩
  rw [← hring hp n] at hpop hpush ⊢
  exact State.endMop_ring hr hpop hpush
/-- The peer read of an operation ends, where it has one (R186). -/
def State.endPeerOf (s : State) (m : MOp) : State :=
  match m.peer with | some p => s.modRing p.1 p.2 fun r => r.endPeer m.id | none => s
theorem State.endPeerOf_ctx (m : MOp) (w : Nat) : (s.endPeerOf m).ctx w = s.ctx w := by
  unfold State.endPeerOf
  split <;> rfl
theorem State.endPeerOf_mem (m : MOp) : (s.endPeerOf m).mem = s.mem := by
  unfold State.endPeerOf
  split <;> rfl
theorem State.endPeerOf_none (h : m.peer = none) : s.endPeerOf m = s := by rw [State.endPeerOf, h]
theorem State.endPeerOf_ring {p : Nat × Nat} (h : m.peer = some p) : (s.endPeerOf m).ring p.1 p.2 = (s.ring p.1 p.2).endPeer m.id := by
  rw [State.endPeerOf, h]
  exact State.ring_modRing ..

/-! ## A plane load (R183, R186) -/

/-- A plane with what an operation has loaded. -/
def State.loadedPlane (s : State) (who x : Nat) (m : MOp) : State :=
  s.modCtx who fun c => c.setPlane x { c.plane x with data := m.runB, scale := m.sclB, loaded := true }
theorem Ctx.plane_setPlane (c : Ctx) (x : Nat) (p : Plane) : (c.setPlane x p).plane x = p := by
  by_cases h : x = 0 <;> simp [Ctx.setPlane, Ctx.plane, h]
theorem Ctx.setPlane_mops (c : Ctx) (x : Nat) (p : Plane) : (c.setPlane x p).mops = c.mops := by
  unfold Ctx.setPlane
  split <;> rfl
theorem Ctx.setPlane_ctl (c : Ctx) (x : Nat) (p : Plane) : (c.setPlane x p).ctl = c.ctl := by
  unfold Ctx.setPlane
  split <;> rfl
section
variable {x : Nat} (hm : ((s.ctx who).mops.find? fun y => y.stage == 2 && y.left == 0 && y.loads == some x) = some m) (hl : m.live = true)
include hm hl
theorem execPlaneLoadEnd_mpre {g : Guard} {x1 : BitVec 1} {n : BitVec 4} {ra rb : BitVec 6} (hop : m.op = .mpre g x1 n ra rb) :
    execPlaneLoadEnd who x s = .next ((s.loadedPlane who x m).endMop who m) := by
  simp only [execPlaneLoadEnd, hm, hl, hop, if_true]
  rfl
theorem execPlaneLoadEnd_mmulp {g : Guard} {rm : BitVec 3} {x1 : BitVec 1} {y : BitVec 2} {peer : BitVec 4} {prel pw : Bool}
    {n : BitVec 4} {od : BitVec 11} {ra rb : BitVec 6} (hop : m.op = .mmulp g rm x1 y peer prel pw n od ra rb) :
    execPlaneLoadEnd who x s = .next (((s.loadedPlane who x m).endPeerOf m).modCtx who fun c => c.setMop { m with stage := 0, peer := none }) := by
  simp only [execPlaneLoadEnd, hm, hl, hop, if_true]
  unfold State.endPeerOf
  cases m.peer <;> rfl
end
theorem State.loadedPlane_ctx (x : Nat) (m : MOp) : (s.loadedPlane who x m).ctx who =
    (s.ctx who).setPlane x { (s.ctx who).plane x with data := m.runB, scale := m.sclB, loaded := true } := State.ctx_modCtx ..

/-! ## Results, drains and peer reads (R180, R186, R189) -/

/-- A result in its registers, with its flags. -/
def State.resultWritten (s : State) (who : Nat) (m : MOp) : State :=
  ((s.endPeerOf m).putPieces who m).modCtx who fun c => { c with ctl := c.ctl.flag m.flags }
/-- A drain's output in its slot, with its flags. -/
def State.outputPushed (s : State) (who : Nat) (m : MOp) : State :=
  (s.putBytes m.out m.outn m.outv).modCtx who fun c => { c with ctl := c.ctl.flag m.flags }
section
variable {k : Nat} (hm : (s.ctx who).mop k = some m) (hstage : m.stage = 1)
include hm hstage
theorem execPeerReadEnd_ends {p : Nat × Nat} (hp : m.peer = some p) (hleft : m.left ≤ 24) :
    execPeerReadEnd who k s = .next ((s.endPeerOf m).modCtx who fun c => c.setMop { m with peer := none }) := by
  simp only [execPeerReadEnd, hm, hp, hstage, hleft, decide_true, Bool.and_self, if_true, State.endPeerOf]
variable (hleft : m.left = 0) (hrun : (s.ctx who).frozen = false)
include hleft hrun
theorem execDrainPush_pushes {g : Guard} {rm : BitVec 3} {kd : BitVec 6} {add : Bool} {os : BitVec 11} {ra rb : BitVec 6}
    (hop : m.op = .mdrain g rm kd add os ra rb) : execDrainPush who k s = .next ((s.outputPushed who m).endMop who m) := by
  simp only [execDrainPush, hm, hop, hstage, hleft, hrun]
  rfl
theorem execMatrixResultWrite_eq (hop : ∀ g rm kd add os ra rb, m.op ≠ .mdrain g rm kd add os ra rb) : execMatrixResultWrite who k s =
    .next (if decide (64 < (s.ctx who).undo.length + (s.ctx who).newBlocks m.res) then s.takeTrap who ⟨21, 0, 0⟩ 3 m.ent.pc
      else (s.resultWritten who m).endMop who m) := by
  simp only [execMatrixResultWrite, hm, hstage, hleft, hrun, Bool.and_false]
  unfold State.resultWritten State.endPeerOf
  cases m.peer <;> rfl
theorem execMatrixResultWrite_waits (hfull : 64 < (s.ctx who).undo.length + (s.ctx who).newBlocks m.res)
    (hop : ∀ g rm kd add os ra rb, m.op ≠ .mdrain g rm kd add os ra rb) :
    execMatrixResultWrite who k s = .next (s.takeTrap who ⟨21, 0, 0⟩ 3 m.ent.pc) := by
  rw [execMatrixResultWrite_eq hm hstage hleft hrun hop, if_pos (decide_eq_true hfull)]
theorem execMatrixResultWrite_writes (hroom : (s.ctx who).undo.length + (s.ctx who).newBlocks m.res ≤ 64)
    (hop : ∀ g rm kd add os ra rb, m.op ≠ .mdrain g rm kd add os ra rb) :
    execMatrixResultWrite who k s = .next ((s.resultWritten who m).endMop who m) := by
  rw [execMatrixResultWrite_eq hm hstage hleft hrun hop, if_neg (by simpa using hroom)]
end
theorem State.resultWritten_ctx (m : MOp) : ((s.resultWritten who m).ctx who).mops = (s.ctx who).mops ∧
    ((s.resultWritten who m).ctx who).ctl = (s.ctx who).ctl.flag m.flags ∧ (s.resultWritten who m).cores = (s.endPeerOf m).cores := by
  have h := (s.endPeerOf m).putPieces_leaves (who := who) m
  simp only [State.matrixRest, Prod.mk.injEq, State.endPeerOf_ctx] at h
  obtain ⟨hmops, hctl, hcores⟩ := h
  rw [State.resultWritten, State.ctx_modCtx]
  exact ⟨hmops, congrArg (Ctl.flag · m.flags) hctl, hcores⟩
theorem State.outputPushed_ctx (m : MOp) :
    (s.outputPushed who m).ctx who = { s.ctx who with ctl := (s.ctx who).ctl.flag m.flags } := State.ctx_modCtx ..

/-- Settles O38: each event of matrix work is one step with its effects, and what an operation computes is said word by word. -/
theorem matrixWorkEnds : Obligations.MatrixWorkEnds := by
  unfold Obligations.MatrixWorkEnds
  intro who k x m s c core tab nbv rs dec withheld ends
  have hleaves (u : State) (hmops : (u.ctx who).mops = c.mops) (hctl : (u.ctx who).ctl = c.ctl.flag (if m.stage = 2 then 0 else m.flags))
      (hring : m.peer = none → ∀ n, u.ring core n = s.ring core n) (v : State) (hmem : u.mem = v.mem) : ends (u.endMop who m) v := by
    obtain ⟨hm, hmem', hc, hw⟩ := State.endMop_leaves (m := m) hmops hring
    exact ⟨hm, hmem'.trans hmem, hc.trans hctl, hw⟩
  refine ⟨fun hm hs => ?_, fun hm hs => execMatrixPathStart_waits hm hs, fun hl => ?_, fun hm hl => ?_, ?_, ?_, ?_⟩
  · obtain ⟨hmem, rfl⟩ := Ctx.mem_of_mop hm
    refine ⟨_, execMatrixPathStart_starts hm hs, rfl, State.mbusy_takePath .., ?_⟩
    rw [State.ctx_modCtx]
    exact Ctx.mop_setMop hmem State.mCompute_id
  · refine ⟨fun g n od hop => State.mCompute_mclr hl hop, fun g od os hop u r q hu hr hq => State.mbias_word hl hop hu hr hq,
      fun g od os hop => State.mtr_word hl hop, fun g rm kd add os ra rb hop => ?_, fun a ha => ?_⟩
    · have hdrain := (State.mCompute_mdrain hl hop (s := s) (who := who)).trans (State.drainResult_codes ..)
      intro d val word sum out
      rw [(Prod.mk.inj hdrain).1, (Prod.mk.inj hdrain).2]
      exact ⟨fun q hq => elemAt_packAll _ _ hq, flagsOf_packAll (dWidth d) (cfgRows m.cfg * 128) out⟩
    · intro pl A B ps code edge start u i q hu hi hq
      obtain ⟨v, hv, hword⟩ := State.arrayResult_word (s := s) (who := who) (m := m) a hu hi hq
      refine ⟨_, _, (congrArg (·[u]?) (State.mCompute_array hl ha)).trans hv, rfl, rfl, hword, ?_⟩
      exact accumulate_accumulates _ _ _ _ _ _ _ _ (pairs_length ..)
  · obtain hmem := List.mem_of_find?_eq_some hm
    have hstage : m.stage = 2 := by
      have h := List.find?_some (p := fun y : MOp => y.stage == 2 && y.left == 0 && y.loads == some x) hm
      simp only [Bool.and_eq_true, beq_iff_eq] at h
      exact h.1.1
    refine ⟨fun g x1 n ra rb hop => ⟨_, execPlaneLoadEnd_mpre hm hl hop, hleaves (s.loadedPlane who x m) ?_ ?_ (fun _ _ => rfl) s rfl, ?_⟩,
      fun g rm x1 y peer prel pw n od ra rb hop => ⟨_, execPlaneLoadEnd_mmulp hm hl hop, ?_, ?_, fun p hp => ?_, ?_⟩⟩
    · rw [State.loadedPlane_ctx, Ctx.setPlane_mops]
    · rw [State.loadedPlane_ctx, Ctx.setPlane_ctl, if_pos hstage, Ctl.flag_zero]
    · rw [State.endMop_ctx, State.loadedPlane_ctx]
      exact Ctx.plane_setPlane ..
    · exact State.endPeerOf_mem m
    · rw [State.ctx_modCtx, State.endPeerOf_ctx, State.loadedPlane_ctx]
      exact Ctx.mop_setMop (by rwa [Ctx.setPlane_mops]) rfl
    · exact State.endPeerOf_ring hp
    · rw [State.ctx_modCtx, State.endPeerOf_ctx, State.loadedPlane_ctx]
      exact Ctx.plane_setPlane ..
  · intro hm hstage hleft hrun hop
    obtain ⟨hmops, hctl, hcores⟩ := State.resultWritten_ctx (s := s) (who := who) m
    refine ⟨fun hroom => ⟨_, execMatrixResultWrite_writes hm hstage hleft hrun hroom hop, hleaves (s.resultWritten who m) hmops ?_
      (fun hp n => ?_) _ rfl⟩,
      fun hfull => execMatrixResultWrite_waits hm hstage hleft hrun hfull hop⟩
    · rw [hctl, hstage]
      rfl
    · rw [State.endPeerOf_none hp] at hcores
      unfold State.ring State.core
      rw [hcores]
  · intro g rm kd add os ra rb hm hop hstage hleft hrun
    refine ⟨_, execDrainPush_pushes hm hstage hleft hrun hop, hleaves (s.outputPushed who m) ?_ ?_ (fun _ _ => rfl) _ rfl⟩
    · rw [State.outputPushed_ctx]
    · rw [State.outputPushed_ctx, hstage]
      rfl
  · intro p hm hp hstage hleft
    obtain ⟨hmem, rfl⟩ := Ctx.mem_of_mop hm
    refine ⟨_, execPeerReadEnd_ends hm hstage hp hleft, State.endPeerOf_mem m, State.endPeerOf_ring hp, ?_⟩
    rw [State.ctx_modCtx, State.endPeerOf_ctx]
    exact Ctx.mop_setMop hmem rfl
end Sys2Proof.Machine
end

section
/-! Bitwise operations and unmasked shifts of scalars (R82, R118). -/

namespace Sys2Proof.Machine

variable {s : State}

/-- A left shift by 64 or more shifts everything out, which is the product modulo 2^64 too. -/
theorem toNat_shiftLeft_unmasked (a : Word) (n : Nat) : (if 64 ≤ n then 0 else a <<< n).toNat = a.toNat * 2 ^ n % 2 ^ 64 := by
  split
  · next h => exact (Nat.mod_eq_zero_of_dvd ((Nat.pow_dvd_pow 2 h).mul_left _)).symm
  · rw [BitVec.toNat_shiftLeft, Nat.shiftLeft_eq]
theorem toNat_shiftRight_unmasked (a : Word) (n : Nat) : (if 64 ≤ n then 0 else a >>> n).toNat = a.toNat / 2 ^ n := by
  split
  · next h => exact (Nat.div_eq_of_lt (a.isLt.trans_le (Nat.pow_le_pow_right Nat.two_pos h))).symm
  · rw [BitVec.toNat_ushiftRight, Nat.shiftRight_eq_div_pow]
/-- From 64 on an arithmetic shift leaves sign bits alone. -/
theorem sshiftRight_min_width (a : Word) (n : Nat) : a.sshiftRight (Nat.min n 64) = a.sshiftRight n := by
  change a.sshiftRight (min n 64) = a.sshiftRight n
  rcases Nat.le_total n 64 with h | h
  · rw [Nat.min_eq_left h]
  · refine BitVec.eq_of_getLsbD_eq fun i hi => ?_
    rw [Nat.min_eq_right h, BitVec.getLsbD_sshiftRight, BitVec.getLsbD_sshiftRight, if_neg (by omega), if_neg (by omega)]
theorem toInt_sshiftRight_unmasked (a : Word) (n : Nat) : (a.sshiftRight (Nat.min n 64)).toInt = a.toInt / 2 ^ n := by
  rw [sshiftRight_min_width, BitVec.toInt_sshiftRight, Int.shiftRight_eq_div_pow]
  rfl
/-- No bit lies beyond the width, where the complement has none either. -/
theorem getLsbD_and_not (a b : Word) (k : Nat) : (a &&& ~~~b).getLsbD k = (a.getLsbD k && !b.getLsbD k) := by
  rw [BitVec.getLsbD_and, BitVec.getLsbD_not]
  cases hk : a.getLsbD k with
  | false => rfl
  | true => rw [decide_eq_true (BitVec.lt_of_getLsbD hk), Bool.true_and]

/-- Settles O2: each operation is `alu` of a bit-vector value, read bit by bit or as a number. -/
theorem scalarLogicAndShifts : Obligations.ScalarLogicAndShifts := by
  unfold Obligations.ScalarLogicAndShifts
  intro g sd sa sb s hg a b
  refine ⟨alu_yields hg rfl fun k => BitVec.getLsbD_and, alu_yields hg rfl fun k => BitVec.getLsbD_or,
    alu_yields hg rfl fun k => BitVec.getLsbD_xor, alu_yields hg rfl (getLsbD_and_not a b),
    alu_yields hg rfl (toNat_shiftLeft_unmasked a b.toNat), alu_yields hg rfl (toNat_shiftRight_unmasked a b.toNat),
    alu_yields hg rfl (toInt_sshiftRight_unmasked a b.toNat)⟩
end Sys2Proof.Machine
end

section
/-! Scalar floating point (R123, R124, R126). -/

namespace Sys2Proof.Machine

variable {s : State}

/-- The code of an exact result, rounded once, with the flags of the operation and of the rounding. -/
theorem falu_issues {g : Guard} (lat : Nat) (rm : BitVec 3) (ty : ETy) (sd : BitVec 6) (x : FVal × BitVec 7) (hg : s.guard g = true) :
    let r := (etFmt ty).round true rm.toNat (s.rb 0) x.1
    ∃ t, falu g lat rm ty sd x s = .next t ∧
      s.Issued t (s.me.ctl.flag (x.2 ||| r.2)) [s.result s.ids lat (.scalar sd.toNat) (BitVec.ofNat 64 r.1).toNat] := by
  refine ⟨_, ?_, s.setFlags_post_issued ..⟩
  rw [falu, hg]
  rfl
/-- The register that a conversion's code fills: a signed 32-bit code with its sign (R126). -/
def cvtWord (ty : ETy) (code : Nat) : Word := if ty = .s32 then (BitVec.ofNat 32 code).signExtend 64 else BitVec.ofNat 64 code
theorem execFcvt_issues {g : Guard} (rm : BitVec 3) (ty u : ETy) (sd sa : BitVec 6) (hg : s.guard g = true) :
    let r := (etFmt ty).round true rm.toNat (s.rb 0) (s.fval u sa)
    ∃ t, execFcvt g rm ty u sd sa s = .next t ∧
      s.Issued t (s.me.ctl.flag r.2) [s.result s.ids 2 (.scalar sd.toNat) (cvtWord ty r.1).toNat] := by
  refine ⟨_, ?_, s.setFlags_post_issued ..⟩
  rw [execFcvt, hg]
  rfl
theorem cvtWord_toNat {ty : ETy} (h : ty ≠ .s32) (code : Nat) : (cvtWord ty code).toNat = code % 2 ^ 64 := by
  rw [cvtWord, if_neg h, BitVec.toNat_ofNat]
theorem cvtWord_s32_toInt (code : Nat) : (cvtWord .s32 code).toInt = (code : Int).bmod (2 ^ 32) := by
  rw [cvtWord, if_pos rfl, BitVec.toInt_signExtend_of_le (by decide), BitVec.toInt_ofNat']

/-- Settles O6: the arithmetic is `falu` of an exact result, and a conversion fills the register from its code. -/
theorem floatScalarResults : Obligations.FloatScalarResults := by
  unfold Obligations.FloatScalarResults
  intro g rm ty u sd sa sb sc s hg a b down gives
  refine ⟨falu_issues 4 rm ty sd _ hg, falu_issues 4 rm ty sd _ hg, falu_issues 4 rm ty sd _ hg, falu_issues 4 rm ty sd _ hg, ?_⟩
  obtain ⟨t, hexec, hissued⟩ := execFcvt_issues rm ty u sd sa hg
  refine ⟨t, _, hexec, hissued, fun h => cvtWord_toNat h _, fun h => ?_⟩
  subst h
  rw [BitVec.ofNat_toNat, BitVec.setWidth_eq]
  exact cvtWord_s32_toInt _
end Sys2Proof.Machine
end

section
/-! Element-wise arithmetic of the vector slots (R82, R124, R140, R145 to R147). -/

namespace Sys2Proof.Machine

variable {s : State} {c : VC}

/-! ## Latencies and occupancies (R140) -/

theorem latOf_integer {t : ETy} (h : t.isI = true) (n : Nat) : latOf t n = n := if_pos h
theorem occOf_integer {t : ETy} (h : t.isI = true) : occOf t = 1 := if_neg fun he : t = .fp64 => Bool.false_ne_true (he ▸ h :)
theorem latOf_float {t : ETy} (h : t.isI = false) (n : Nat) : latOf t n = if t = .fp64 then 6 else 4 :=
  if_neg (ne_true_of_eq_false h)
/-- A type of class F is no integer and not of class D (R137). -/
theorem classF_excludes {t : ETy} (h : t.isF = true) : t.isI = false ∧ t ≠ .fp64 := by
  cases t with
  | fp16 | bf16 | fp32 => exact ⟨rfl, nofun⟩
  | _ => exact absurd h Bool.false_ne_true
theorem latOf_classF {t : ETy} (h : t.isF = true) (n : Nat) : latOf t n = 4 :=
  have ⟨hi, hd⟩ := classF_excludes h
  (latOf_float hi n).trans (if_neg hd)

/-! ## Operations on the lanes of VA, VB and VC -/

section
variable {i : Instr} {n : Nat} {vd va : BitVec 11} {vb : VSrc} {vc : Option (BitVec 11)} {fi : Int → Int → Int → Int}
  {ff : FVal → FVal → FVal → FVal × BitVec 7} (hi : exec i s = varith c n vd va vb vc fi ff s)
include hi
/-- On integers the exact result is taken modulo 2^w. -/
theorem varith_integer (h : c.et.isI = true) {v : Nat → Int} (hv : ∀ k, fi (ival c.et (elemAt (s.vreg .v va) c.et.width k))
      (ival c.et (s.src c.et.width vb k)) (ival c.et (elemAt ((vc.map fun f => s.vreg .v f).getD 0) c.et.width k)) = v k) :
    s.LaneOp i c n 1 .v vd c.et.width (lanes c.et.width) fun k => ((v k % 2 ^ c.et.width).toNat, 0) := by
  obtain rfl : _ = v := funext hv
  exact laneOp_of (hi.trans (by simp only [varith, latOf_integer h, occOf_integer h, h, if_true, wrapI]))
/-- On floats the exact result is rounded once. -/
theorem varith_float (h : c.et.isI = false) {x : Nat → FVal × BitVec 7} (hx : ∀ k, ff (dval c.et (elemAt (s.vreg .v va) c.et.width k))
      (dval c.et (s.src c.et.width vb k)) (dval c.et (elemAt ((vc.map fun f => s.vreg .v f).getD 0) c.et.width k)) = x k) :
    s.LaneOp i c (if c.et = .fp64 then 6 else 4) (if c.et = .fp64 then 2 else 1) .v vd c.et.width (lanes c.et.width) fun k =>
      s.rnd c.et c.rm k 0 (x k) := by
  obtain rfl : _ = x := funext hx
  exact laneOp_of (hi.trans (by simp only [varith, latOf_float h, occOf, h, Bool.false_eq_true, if_false]))
end
section
variable {i : Instr} {lat n : Nat} {vd va : BitVec 11} {vb : VSrc}
/-- An exact operation gives each lane what it makes of the codes of VA and VB. -/
theorem vexact_lanes {f : Nat → Nat → Nat × BitVec 7} {v : Nat → Nat × BitVec 7} (hi : exec i s = vexact c lat vd va vb f s)
    (hlat : lat = n) (hv : ∀ k, f (elemAt (s.vreg .v va) c.et.width k) (s.src c.et.width vb k) = v k) :
    s.LaneOp i c n 1 .v vd c.et.width (lanes c.et.width) v :=
  (laneOp_of (hi.trans (hlat ▸ rfl))).congr fun k _ => hv k
/-- The same for an operation that sets no flag. -/
theorem vexact_codes {f : Nat → Nat → Nat} {v : Nat → Nat} (hi : exec i s = vexact c lat vd va vb (fun a b => (f a b, 0)) s)
    (hlat : lat = n) (hv : ∀ k, f (elemAt (s.vreg .v va) c.et.width k) (s.src c.et.width vb k) = v k) :
    s.LaneOp i c n 1 .v vd c.et.width (lanes c.et.width) fun k => (v k, 0) :=
  vexact_lanes hi hlat fun k => congrArg (·, 0) (hv k)
end

/-! ## Which operation each instruction is (R145 to R147) -/

section
variable (vd va vc : BitVec 11) (vb : VSrc)
theorem exec_vadd : exec (.vadd c vd va vb) s =
    varith c 2 vd va vb none (fun a b _ => a + b) (fun a b _ => a.add (c.rm == 2) b) s := rfl
theorem exec_vsub : exec (.vsub c vd va vb) s =
    varith c 2 vd va vb none (fun a b _ => a - b) (fun a b _ => a.add (c.rm == 2) b.neg) s := rfl
theorem exec_vmul : exec (.vmul c vd va vb) s = varith c 3 vd va vb none (fun a b _ => a * b) (fun a b _ => a.mul b) s := rfl
theorem exec_vmulh : exec (.vmulh c vd va vb) s =
    varith c 3 vd va vb none (fun a b _ => a * b / 2 ^ c.et.width) (fun a b _ => a.mul b) s := rfl
theorem exec_vfma : exec (.vfma c vd va vb vc) s =
    varith c 3 vd va vb (some vc) (fun a b z => a * b + z) (fun a b z => FVal.fma (c.rm == 2) a b z) s := rfl
theorem exec_vfms : exec (.vfms c vd va vb vc) s =
    varith c 3 vd va vb (some vc) (fun a b z => a * b - z) (fun a b z => FVal.fma (c.rm == 2) a b z.neg) s := rfl
theorem exec_vabs : exec (.vabs c vd va) s = vexact c (latOf c.et 2) vd va (.sc 0)
    (fun a _ => (if c.et.isI then wrapI c.et.width (ival c.et a).natAbs else a % 2 ^ (c.et.width - 1), 0)) s := rfl
theorem exec_vneg : exec (.vneg c vd va) s = vexact c (latOf c.et 2) vd va (.sc 0)
    (fun a _ => (if c.et.isI then wrapI c.et.width (-(ival c.et a)) else a ^^^ 2 ^ (c.et.width - 1), 0)) s := rfl
theorem exec_vmin : exec (.vmin c vd va vb) s = vexact c (latOf c.et 2) vd va vb (fun a b => (pick c.et false a b, 0)) s := rfl
theorem exec_vmax : exec (.vmax c vd va vb) s = vexact c (latOf c.et 2) vd va vb (fun a b => (pick c.et true a b, 0)) s := rfl
theorem exec_vaddsat : exec (.vaddsat c vd va vb) s =
    vexact c 2 vd va vb (fun a b => clampI c.et (ival c.et a + ival c.et b)) s := rfl
theorem exec_vsubsat : exec (.vsubsat c vd va vb) s =
    vexact c 2 vd va vb (fun a b => clampI c.et (ival c.et a - ival c.et b)) s := rfl
end

/-! ## Extremes and clamps (R82, R146, R147) -/

theorem pick_integer {t : ETy} (h : t.isI = true) (larger : Bool) (a b : Nat) :
    pick t larger a b = if decide (ival t a < ival t b) != larger then a else b := if_pos h
theorem pick_smaller {t : ETy} (h : t.isI = true) (a b : Nat) : pick t false a b = if ival t a < ival t b then a else b := by
  simp [pick_integer h]
theorem pick_larger {t : ETy} (h : t.isI = true) (a b : Nat) : pick t true a b = if ival t a < ival t b then b else a := by
  rw [pick_integer h]
  by_cases hlt : ival t a < ival t b
  · simp [hlt]
  · simp [hlt]
theorem pick_float {t : ETy} (h : t.isI = false) (larger : Bool) (a b : Nat) : pick t larger a b =
    if (dval t a).isNaN && (dval t b).isNaN then (etFmt t).nanCode else if (dval t a).isNaN then b else if (dval t b).isNaN then a
    else if below (dval t a) (dval t b) != larger then a else b := if_neg (ne_true_of_eq_false h)
/-- The least value of an integer type. -/
def leastOf (t : ETy) : Int := if t.signed then -(2 ^ (t.width - 1)) else 0
/-- The largest value of an integer type. -/
def largestOf (t : ETy) : Int := if t.signed then 2 ^ (t.width - 1) - 1 else 2 ^ t.width - 1
theorem leastOf_le_largestOf (t : ETy) : leastOf t ≤ largestOf t := by
  cases t <;> decide
/-- A value is held to the range of its type, with ST when it lies beyond. -/
theorem clampI_eq (t : ETy) (v : Int) : clampI t v =
    ((max (leastOf t) (min (largestOf t) v) % 2 ^ t.width).toNat, if v < leastOf t ∨ largestOf t < v then fST else 0) := by
  have hle := leastOf_le_largestOf t
  change (if v < leastOf t then (wrapI t.width (leastOf t), fST) else if largestOf t < v then (wrapI t.width (largestOf t), fST)
    else (wrapI t.width v, 0)) = _
  rcases lt_or_ge v (leastOf t) with hlo | hlo
  · rw [if_pos hlo, if_pos (.inl hlo), min_eq_right (by omega), max_eq_left hlo.le]
    rfl
  rw [if_neg (by omega)]
  rcases lt_or_ge (largestOf t) v with hhi | hhi
  · rw [if_pos hhi, if_pos (.inr hhi), min_eq_left hhi.le, max_eq_right hle]
    rfl
  · rw [if_neg (by omega), if_neg (by omega), min_eq_right hhi, max_eq_right hlo]
    rfl

/-- Settles O31: each operation is `varith` of an exact result, or `vexact` of the codes. -/
theorem vectorArithmetic : Obligations.VectorArithmetic := by
  unfold Obligations.VectorArithmetic
  intro c vd va vc vb s w a b ia ib iz fa fb fz wrap clamp once ext op
  refine ⟨fun h => ?_, fun h => ?_, fun h => ?_⟩
  · have hlat := latOf_integer h 2
    exact ⟨varith_integer (exec_vadd ..) h fun _ => rfl, varith_integer (exec_vsub ..) h fun _ => rfl,
      varith_integer (exec_vmul ..) h fun _ => rfl, varith_integer (exec_vmulh ..) h fun _ => rfl,
      varith_integer (exec_vfma ..) h fun _ => rfl, varith_integer (exec_vfms ..) h fun _ => rfl,
      vexact_codes (exec_vabs ..) hlat fun _ => if_pos h, vexact_codes (exec_vneg ..) hlat fun _ => if_pos h,
      vexact_codes (exec_vmin ..) hlat fun _ => pick_smaller h .., vexact_codes (exec_vmax ..) hlat fun _ => pick_larger h ..,
      vexact_lanes (exec_vaddsat ..) rfl fun _ => clampI_eq .., vexact_lanes (exec_vsubsat ..) rfl fun _ => clampI_eq ..⟩
  · exact ⟨varith_float (exec_vadd ..) h fun _ => rfl, varith_float (exec_vsub ..) h fun _ => rfl,
      varith_float (exec_vmul ..) h fun _ => rfl, varith_float (exec_vfma ..) h fun _ => rfl,
      varith_float (exec_vfms ..) h fun _ => rfl⟩
  · have hlat := latOf_classF h 2
    have hf := (classF_excludes h).1
    have hnot := ne_true_of_eq_false hf
    exact ⟨vexact_codes (exec_vabs ..) hlat fun _ => if_neg hnot, vexact_codes (exec_vneg ..) hlat fun _ => if_neg hnot,
      vexact_codes (exec_vmin ..) hlat fun _ => pick_float hf .., vexact_codes (exec_vmax ..) hlat fun _ => pick_float hf ..⟩
end Sys2Proof.Machine
end

section
/-! Conversions and complex products of the vector slots (R75, R77, R126, R140, R151 to R154, R161). -/

namespace Sys2Proof.Machine

variable {s : State} {c : VC}

/-! ## Conversions (R151 to R154) -/

/-- Of the types of 64 bits, fp64 alone is a float. -/
theorem isI_of_width_64 {t : ETy} (h : t.width = 64) : t.isI = true ↔ t ≠ .fp64 := by
  cases t with
  | n64 | s64 => exact iff_of_true rfl nofun
  | fp64 => exact iff_of_false nofun fun hne => hne rfl
  | _ => cases h
theorem ne_fp64_of_width {t : ETy} (h : t.width ≠ 64) : t ≠ .fp64 := fun he => h (he ▸ rfl)
/-- Between types of one width a conversion is of class D when one of the types is fp64 (R140). -/
theorem classD_iff {t u : ETy} (h : t.width = u.width) :
    (decide (t.width = 64) && !(t.isI && u.isI)) = true ↔ t = .fp64 ∨ u = .fp64 := by
  by_cases h64 : t.width = 64
  · have ht := isI_of_width_64 h64
    have hu := isI_of_width_64 (h ▸ h64)
    rw [decide_eq_true h64, Bool.true_and, Bool.not_eq_true', Bool.eq_false_iff, Ne, Bool.and_eq_true, ht, hu, not_and_or,
      not_not, not_not]
  · rw [decide_eq_false h64, Bool.false_and]
    have hu := ne_fp64_of_width (h ▸ h64)
    exact iff_of_false Bool.false_ne_true fun hd => hd.elim (ne_fp64_of_width h64) hu
theorem vcvt_lanes {u : ETy} (vd va : BitVec 11) (h : c.et.width = u.width) :
    s.LaneOp (.vcvt c u vd va) c (if c.et = .fp64 ∨ u = .fp64 then 6 else 4) (if c.et = .fp64 ∨ u = .fp64 then 2 else 1)
      .v vd c.et.width (lanes c.et.width) fun k => s.rnd c.et c.rm k 0 (aval u (elemAt (s.vreg .v va) c.et.width k), 0) := by
  refine laneOp_of ?_
  change execVcvt c u vd va s = _
  simp only [execVcvt, classD_iff h]

/-! ## Complex products (R161) -/

theorem exec_vcmul (cj : Bool) (vd va : BitVec 11) (vb : VSrc) : exec (.vcmul c cj vd va vb) s = vcomplex c cj false vd va vb s := rfl
theorem exec_vcmac (cj : Bool) (vd va : BitVec 11) (vb : VSrc) : exec (.vcmac c cj vd va vb) s = vcomplex c cj true vd va vb s := rfl
/-- Part `k` of the second operand: a lane of VB, or the low or the next bits of the scalar for a real or an imaginary part. -/
def State.factorPart (s : State) (t : ETy) (vb : VSrc) (k : Nat) : FVal :=
  dval t (match vb with | .reg f => elemAt (s.vreg .v f) t.width k | .sc f => elemAt (s.sreg f).toNat t.width (k % 2))
/-- The exact part of lane `k` of VA times the factor with the parts given, or times its conjugate, plus an addend: the real part in
an even lane. -/
def State.complexSum (s : State) (c : VC) (cj : Bool) (va : BitVec 11) (part : Nat → FVal) (add : Option FVal) (k : Nat) : FVal × BitVec 7 :=
  let re := dval c.et (elemAt (s.vreg .v va) c.et.width (k / 2 * 2))
  let im := dval c.et (elemAt (s.vreg .v va) c.et.width (k / 2 * 2 + 1))
  let bre := part (k / 2 * 2)
  let bim := if cj then (part (k / 2 * 2 + 1)).neg else part (k / 2 * 2 + 1)
  if k % 2 = 0 then csum (c.rm == 2) re bre im bim true add else csum (c.rm == 2) re bim im bre false add
/-- Each part is rounded once; the old lane is added where the operation accumulates. -/
theorem vcomplex_lanes {i : Instr} {cj acc : Bool} {vd va : BitVec 11} {vb : VSrc} (hi : exec i s = vcomplex c cj acc vd va vb s) :
    s.LaneOp i c 4 1 .v vd c.et.width (lanes c.et.width) fun k => s.rnd c.et c.rm k 0 (s.complexSum c cj va (s.factorPart c.et vb)
      (if acc then some (dval c.et (elemAt (s.vreg .v vd) c.et.width k)) else none) k) := by
  cases vb with
  | reg f | sc f => exact laneOp_of hi

/-- Settles O33: each operation is one write of lanes; only the class of a conversion (R140), the views and the second operand of a
complex product are said in other words than the model's. -/
theorem vectorConversionsAndComplex : Obligations.VectorConversionsAndComplex := by
  unfold Obligations.VectorConversionsAndComplex
  intro c u cj kd vd va vb vs ss s w r src view once d64
  have hview : ∀ n, view n = viewOf n := fun n => (viewOf_eq n).symm
  refine ⟨vcvt_lanes vd va, fun _ => ?_, fun _ => ?_, ?_, ?_⟩
  · rw [hview]
    exact laneOp_of rfl
  · rw [hview]
    exact ⟨laneOp_of rfl, laneOp_of rfl⟩
  · intro d cw geo x sc
    rw [hview]
    exact laneOp_of rfl
  · intro re im part bre bim sum
    have hpart : s.factorPart c.et vs = part := by
      cases vs with
      | reg f | sc f => rfl
    have hmul := vcomplex_lanes (exec_vcmul (s := s) (c := c) cj vd va vs)
    have hmac := vcomplex_lanes (exec_vcmac (s := s) (c := c) cj vd va vs)
    rw [hpart] at hmul hmac
    exact ⟨hmul, hmac⟩
end Sys2Proof.Machine
end

section
/-! Scalar operations under a false guard (R92, R116). -/

namespace Sys2Proof.Machine

variable {s : State} {g : Guard}

theorem next_ite_off (hg : s.guard g = false) (t : State) : (.next (if s.guard g then t else s) : Out) = .next s := by rw [hg]; rfl
theorem next_unless_off (hg : s.guard g = false) (t : State) : (.next (if !s.guard g then s else t) : Out) = .next s := by rw [hg]; rfl
theorem alu_off (hg : s.guard g = false) (lat : Nat) (sd : BitVec 6) (v : Word) : alu g lat sd v s = .next s := next_ite_off hg _
theorem palu_off (hg : s.guard g = false) (pd : BitVec 4) (b : Bool) : palu g pd b s = .next s := next_ite_off hg _
theorem divide_off (hg : s.guard g = false) (v : Word) : divide g v s = .next s := next_unless_off hg _
theorem falu_off (hg : s.guard g = false) (lat : Nat) (rm : BitVec 3) (t : ETy) (sd : BitVec 6) (x : FVal × BitVec 7) :
    falu g lat rm t sd x s = .next s := next_unless_off hg _
/-- The level is checked whatever the guard (R291); at the least level or above a false guard leaves the work out. -/
theorem privileged_off {lvl : Nat} (hg : s.guard g = false) (hl : lvl ≤ s.level s.cur.who) (f : State → Out) :
    privileged lvl g s f = .next s := by
  rw [privileged, if_neg (Nat.not_lt.2 hl), hg]
  rfl
theorem snapOp_off (hg : s.guard g = false) (hl : 1 ≤ s.level s.cur.who) (sa sb : BitVec 6) (f : Nat → Nat → Nat → State → Out) :
    snapOp g sa sb s f = .next s := privileged_off hg hl _
theorem keyOp_off (hg : s.guard g = false) (hl : 2 ≤ s.level s.cur.who) (sa sb : BitVec 6) (erase : Bool) :
    keyOp g sa sb erase s = .next s := privileged_off hg hl _
theorem linkCmd_off (hg : s.guard g = false) (hl : 2 ≤ s.level s.cur.who) (cmd : Nat) (pd : BitVec 4) (sa : BitVec 6) :
    linkCmd cmd g pd sa s = .next s := privileged_off hg hl _

/-- Settles O10: each operation runs through one of the guarded forms, and each of them leaves the state alone. -/
theorem falseGuardDoesNothing : Obligations.FalseGuardDoesNothing := by
  unfold Obligations.FalseGuardDoesNothing
  intro g i s hg hop hl
  cases i with
  | add | sub | mul | mulh | mulhn | and | or | xor | andn | shl | shr | sar | min | max | minn | maxn | clz | popc | sext |
    zext | mov | sel | addi | li | lih | wid | rank | csrr =>
    cases hop
    exact alu_off hg ..
  | cmp | pand | por | pxor | pnot | fcmp =>
    cases hop
    exact palu_off hg ..
  | div | divn | rem | remn =>
    cases hop
    exact divide_off hg _
  | fadd | fsub | fmul | ffma =>
    cases hop
    exact falu_off hg ..
  | fcvt | vwr | qpop =>
    cases hop
    exact next_unless_off hg _
  | brk | trap | halt | ibw | csrw =>
    cases hop
    exact next_ite_off hg _
  | ctxsave | ctxrest =>
    cases hop
    unfold exec
    exact snapOp_off hg hl ..
  | keyld | keyldErase =>
    cases hop
    unfold exec
    exact keyOp_off hg hl ..
  | lnkTrain | lnkPark | lnkWake | lnkRetrain | lnkDown | lnkEnable =>
    cases hop
    unfold exec
    exact linkCmd_off hg hl ..
  | sysrd | syswr | eret | tlbinv | tstate | slotmap | swpat | vote | swq | evqPop | olkAcq | olkRel =>
    cases hop
    unfold exec
    refine privileged_off hg ?_ _
    exact hl
  | _ => exact hop.elim
end Sys2Proof.Machine
end

section
/-! The encoder and the decoder are inverse (R87, R92, R95 to R101, R109). -/

namespace Sys2Proof.Laws.Encode

/-- Reading the fields of any operation's encoding gives the operation. -/
theorem parse_encode (i : Instr) : Statement i := by
  cases i with
  | nop => apply nop | add => apply add | sub => apply sub | mul => apply mul | mulh => apply mulh
  | mulhn => apply mulhn | div => apply div | divn => apply divn | rem => apply rem | remn => apply remn
  | and => apply and | or => apply or | xor => apply xor | andn => apply andn | shl => apply shl
  | shr => apply shr | sar => apply sar | min => apply min | max => apply max | minn => apply minn
  | maxn => apply maxn | clz => apply clz | popc => apply popc | sext => apply sext | zext => apply zext
  | mov => apply mov | sel => apply sel | cmp => apply cmp | pand => apply pand | por => apply por
  | pxor => apply pxor | pnot => apply pnot | addi => apply addi | li => apply li | lih => apply lih
  | fadd => apply fadd | fsub => apply fsub | fmul => apply fmul | ffma => apply ffma | fcmp => apply fcmp
  | fcvt => apply fcvt | br => apply br | bc => apply bc | call => apply call | ret => apply ret
  | jmpi => apply jmpi | loop => apply loop | brk => apply brk | trap => apply trap | halt => apply halt
  | ibw => apply ibw | vwr => apply vwr | wid => apply wid | rank => apply rank | qpop => apply qpop
  | csrr => apply csrr | csrw => apply csrw | sysrd => apply sysrd | syswr => apply syswr | eret => apply eret
  | tlbinv => apply tlbinv | keyld => apply keyld | keyldErase => apply keyldErase | slotmap => apply slotmap
  | ctxsave => apply ctxsave | ctxrest => apply ctxrest | swpat => apply swpat | vote => apply vote
  | swq => apply swq | lnkTrain => apply lnkTrain | lnkPark => apply lnkPark | lnkWake => apply lnkWake
  | lnkRetrain => apply lnkRetrain | lnkDown => apply lnkDown | lnkEnable => apply lnkEnable
  | evqPop => apply evqPop | olkAcq => apply olkAcq | olkRel => apply olkRel | tstate => apply tstate
  | vadd => apply vadd | vsub => apply vsub | vmul => apply vmul | vmulh => apply vmulh | vfma => apply vfma
  | vfms => apply vfms | vabs => apply vabs | vneg => apply vneg | vmin => apply vmin | vmax => apply vmax
  | vaddsat => apply vaddsat | vsubsat => apply vsubsat | vand => apply vand | vor => apply vor
  | vxor => apply vxor | vnot => apply vnot | vshl => apply vshl | vshr => apply vshr | vsar => apply vsar
  | vcmp => apply vcmp | vsel => apply vsel | vcvt => apply vcvt | vwiden => apply vwiden
  | vnarrow => apply vnarrow | vmaxe => apply vmaxe | vqcvt => apply vqcvt | vdeq => apply vdeq
  | vexp2 => apply vexp2 | vlog2 => apply vlog2 | vrcp => apply vrcp | vrsq => apply vrsq | vsqrt => apply vsqrt
  | vtanh => apply vtanh | vsincos => apply vsincos | vcmul => apply vcmul | vcmac => apply vcmac
  | vred => apply vred | vscan => apply vscan | vperm => apply vperm | vbcast => apply vbcast
  | vbcastLane => apply vbcastLane | vrot => apply vrot | vtrn => apply vtrn | vzip => apply vzip
  | vunzip => apply vunzip | vbin => apply vbin | vpip => apply vpip | vpipBy => apply vpipBy
  | vpipRead => apply vpipRead | vmov => apply vmov | vmovPop => apply vmovPop | vmovPush => apply vmovPush
  | vmovi => apply vmovi | vqpop => apply vqpop | vlane => apply vlane | vpmov => apply vpmov
  | vpmovTomask => apply vpmovTomask | mcfg => apply mcfg | mpre => apply mpre | mxs => apply mxs
  | mmul => apply mmul | mmulz => apply mmulz | mmulp => apply mmulp | mcmul => apply mcmul | mclr => apply mclr
  | mbias => apply mbias | mdrain => apply mdrain | mtr => apply mtr | ldT => apply ldT | ldV => apply ldV
  | ldS => apply ldS | ldG => apply ldG | tch => apply tch | ldSp => apply ldSp | rpop => apply rpop
  | rsel => apply rsel | rpeek => apply rpeek | stT => apply stT | stV => apply stV | stS => apply stS
  | stSc => apply stSc | amo => apply amo | stSp => apply stSp | rpush => apply rpush | cpIn => apply cpIn
  | cpOut => apply cpOut | cpPeer => apply cpPeer | cpPf => apply cpPf | send => apply send
  | recvArm => apply recvArm | exf => apply exf | ofx => apply ofx | ofm => apply ofm | ofcCap => apply ofcCap
  | ofcRd => apply ofcRd | ofcTab => apply ofcTab | ofr => apply ofr | fence => apply fence | sig => apply sig
  | wait => apply wait | bar => apply bar | rwait => apply rwait | yield => apply yield | sleep => apply sleep
  | pwrAcq => apply pwrAcq | pwrRel => apply pwrRel | realign => apply realign
  | _ => exact fun _ h => nomatch h
end Sys2Proof.Laws.Encode

namespace Sys2Proof

variable {k : Kind} {b : BitVec 80} {i : Instr}

/-! ## The illegal guard form (R92) -/

theorem Guard.eq_illegal {g : Guard} (h : g.ok = false) : g = ⟨0, true⟩ := by
  obtain ⟨pg, pn⟩ := g
  simpa [Guard.ok] using h
/-- No operation read under the illegal guard form is legal: every clause of `wf` asks for the guard first. -/
theorem wf_parse_illegal (hg : guardBits k b = ⟨0, true⟩) (h : parse k b = some i) : wf i = false := by
  dsimp only [guardBits] at hg
  cases k with
  | s =>
    simp only [parse, parseS, unSR, hg] at h
    split at h
    case h_27 | h_35 | h_36 | h_37 | h_38 | h_42 => -- cmp, fadd to ffma and bc read one code
      obtain ⟨_, -, rfl⟩ := Option.map_eq_some_iff.1 h
      rfl
    case h_39 | h_40 => -- fcmp and fcvt read two
      obtain ⟨_, -, hu⟩ := Option.bind_eq_some_iff.1 h
      obtain ⟨_, -, rfl⟩ := Option.map_eq_some_iff.1 hu
      rfl
    case h_61 => -- keyld, with its erasing form
      cases h
      split <;> rfl
    case h_68 => split at h <;> cases h <;> rfl -- the forms of lnk
    all_goals cases h <;> rfl
  | v =>
    simp only [parse, parseV, unVR, hg] at h
    obtain ⟨t, -, ht⟩ := Option.bind_eq_some_iff.1 h
    split at ht
    case h_20 | h_22 | h_23 | h_24 => -- vcmp and the conversions read one code
      obtain ⟨_, -, rfl⟩ := Option.map_eq_some_iff.1 ht
      rfl
    case h_40 | h_51 => -- vbcast and vpmov, each of two forms
      cases ht
      split <;> rfl
    case h_46 | h_47 => split at ht <;> cases ht <;> rfl -- the forms of vpip and vmov
    all_goals cases ht <;> rfl
  | e =>
    simp only [parse, parseE, unEC, hg] at h
    split at h
    case h_9 => split at h <;> cases h <;> rfl -- the forms of ofc
    all_goals cases h <;> rfl
  | m | ld | st | y =>
    simp only [parse, parseM, parseLD, parseST, parseY, unMR, unLM, unYS, hg] at h
    split at h <;> cases h <;> rfl
/-- A legal operation has a legal guard. -/
theorem guardBits_ok (h : parse k b = some i) (hw : wf i = true) : (guardBits k b).ok = true := by
  by_contra hok
  rw [wf_parse_illegal (Guard.eq_illegal (Bool.eq_false_of_not_eq_true hok)) h] at hw
  exact Bool.false_ne_true hw

/-! ## Decoding an encoding -/

theorem parse_zero (k : Kind) : parse k 0 = none := by cases k <;> rfl
/-- An all-zero slot is empty (R89), and no operation's encoding is. -/
theorem encode_ne_zero (hk : kindOf i = some k) (hn : i ≠ .nop k) : encode i ≠ 0 := fun hz => by
  have hp := Laws.Encode.parse_encode i k hk hn
  rw [hz, parse_zero] at hp
  cases hp
theorem decode_encode (hk : kindOf i = some k) (hw : wf i = true) : decode k (encode i) = .ok i := by
  by_cases hn : i = .nop k
  · rw [hn]
    exact if_pos rfl
  · have hp := Laws.Encode.parse_encode i k hk hn
    rw [decode, if_neg (encode_ne_zero hk hn), hp]
    simp [guardBits_ok hp hw, hw]
/-- The same for a word that is known to be the encoding. -/
theorem decode_of_encode (he : encode i = b) (hk : kindOf i = some k) (hw : wf i = true) : decode k b = .ok i :=
  he ▸ decode_encode hk hw
/-- A word that decodes has passed every check of the decoder: its reserved bits are zero and its fields legal. -/
theorem wf_and_encode_of_decode (h : decode k b = .ok i) : wf i = true ∧ encode i = b := by
  unfold decode at h
  split at h
  · next hz =>
    cases h
    exact ⟨rfl, hz.symm⟩
  · split at h
    · cases h
    · split_ifs at h with hg he hw
      cases h
      exact ⟨hw, not_not.1 he⟩
end Sys2Proof

namespace Sys2Proof.Machine

/-- Settles O57: every operation's fields read back, and the decoder itself checks that a word is the encoding of what it reads. -/
theorem decodeEncodeRoundTrip : Obligations.DecodeEncodeRoundTrip := by
  unfold Obligations.DecodeEncodeRoundTrip
  exact ⟨fun _ _ => decode_encode, fun _ _ _ => wf_and_encode_of_decode⟩

/-- Settles O59: the words that decode are the encodings of legal operations. -/
theorem decodeWords : Obligations.DecodeWords := by
  unfold Obligations.DecodeWords
  intro z
  refine ⟨?_, ?_, ?_, ?_, ?_, ?_, ?_, rfl, rfl, rfl⟩
  all_goals exact decode_of_encode (by decide) rfl rfl
end Sys2Proof.Machine
end

section
/-! Counts, extensions, moves and immediates of scalars (R118, R120, R122). -/

namespace Sys2Proof.Machine

variable {s : State}

/-- An S operation puts the value that it computes in flight, under a true guard. -/
theorem alu_yields_value {i : Instr} {g : Guard} {lat : Nat} {sd : BitVec 6} {v : Word} (hg : s.guard g = true)
    (hi : exec i s = alu g lat sd v s) : ∃ t, exec i s = .next t ∧ s.Yields t lat sd v :=
  ⟨_, hi.trans (by rw [alu, if_pos hg]), s.postS_yields lat sd v⟩

theorem clz64_zero : clz64 0 = 64 := if_pos rfl
/-- With `n` leading zero bits the highest set bit is bit `63 - n`. -/
theorem clz64_spec {a : Word} (h : a ≠ 0) : clz64 a < 64 ∧ 2 ^ (63 - clz64 a) ≤ a.toNat ∧ a.toNat < 2 ^ (64 - clz64 a) := by
  have hne : a.toNat ≠ 0 := fun h0 => h (BitVec.eq_of_toNat_eq h0)
  have hlog : a.toNat.log2 < 64 := (Nat.log2_lt hne).2 a.isLt
  have hlow : 63 - (63 - a.toNat.log2) = a.toNat.log2 := by omega
  have hhigh : 64 - (63 - a.toNat.log2) = a.toNat.log2 + 1 := by omega
  rw [clz64, if_neg h, hlow, hhigh]
  exact ⟨by omega, Nat.log2_self_le hne, Nat.lt_log2_self⟩
theorem clz64_le (a : Word) : clz64 a ≤ 64 := by
  by_cases h : a = 0
  · rw [h, clz64_zero]
  · exact (clz64_spec h).1.le
/-- The set bits of a word, as the size of the set of their positions. -/
theorem popc64_eq_card (a : Word) : popc64 a = ((Finset.range 64).filter fun k => a.getLsbD k = true).card := by
  simp [popc64, Finset.card_def, Multiset.range]
theorem popc64_le (a : Word) : popc64 a ≤ 64 := (List.length_filter_le ..).trans List.length_range.le
/-- A count of at most 64 fits in its register. -/
theorem toNat_ofNat_count {n : Nat} (h : n ≤ 64) : (BitVec.ofNat 64 n).toNat = n :=
  (BitVec.toNat_ofNat ..).trans (Nat.mod_eq_of_lt (h.trans_lt (by decide)))
theorem toInt_signExtend_low (a : Word) {w : Nat} (h : w ≤ 64) : ((a.setWidth w).signExtend 64).toInt = (a.toNat : Int).bmod (2 ^ w) := by
  rw [BitVec.toInt_signExtend_of_le h, BitVec.toInt_setWidth]
theorem toNat_zeroExtend_low (a : Word) {w : Nat} (h : w ≤ 64) : ((a.setWidth w).setWidth 64).toNat = a.toNat % 2 ^ w := by
  rw [BitVec.toNat_setWidth_of_le h, BitVec.toNat_setWidth]
/-- A sum with a signed immediate is the sum of integers modulo 2^64. -/
theorem toNat_add_signExtend (a : Word) (imm : BitVec 40) : ((a + imm.signExtend 64).toNat : Int) = (a.toInt + imm.toInt) % 2 ^ 64 := by
  have hsum : a + imm.signExtend 64 = BitVec.ofInt 64 (a.toInt + imm.toInt) := by rw [BitVec.ofInt_add, BitVec.ofInt_toInt]; rfl
  rw [hsum, BitVec.toNat_ofInt]
  exact Int.toNat_of_nonneg (Int.emod_nonneg _ (by decide))
/-- The high immediate stands above the low 40 bits. -/
theorem toNat_append_low40 (hi : BitVec 24) (a : Word) :
    (hi ++ a.extractLsb' 0 40 : BitVec (24 + 40)).toNat = hi.toNat * 2 ^ 40 + a.toNat % 2 ^ 40 := by
  rw [BitVec.toNat_append, ← Nat.shiftLeft_add_eq_or_of_lt (BitVec.isLt _), Nat.shiftLeft_eq, BitVec.extractLsb'_toNat, Nat.shiftRight_zero]

/-- Settles O3: each operation is `alu` of a count, an extension or a sum, and that value is the one on numbers. -/
theorem scalarMovesCountsImmediates : Obligations.ScalarMovesCountsImmediates := by
  unfold Obligations.ScalarMovesCountsImmediates
  intro g sd sa sb w pc imm hi s hg _ hw a
  refine ⟨alu_yields hg rfl ⟨fun hz => ?_, fun hz => ?_⟩, alu_yields hg rfl ?_, alu_yields hg rfl (toInt_signExtend_low a hw),
    alu_yields hg rfl (toNat_zeroExtend_low a hw), alu_yields_value hg rfl, alu_yields_value hg rfl,
    alu_yields hg rfl (toNat_add_signExtend a imm), alu_yields hg rfl (BitVec.toInt_signExtend_of_le (by decide)),
    alu_yields hg rfl (toNat_append_low40 hi a)⟩
  · change BitVec.ofNat 64 (clz64 a) = 64
    rw [hz, clz64_zero]
    rfl
  · rw [toNat_ofNat_count (clz64_le a)]
    exact clz64_spec hz
  · rw [toNat_ofNat_count (popc64_le a)]
    exact popc64_eq_card a
end Sys2Proof.Machine
end

section
/-! Compares, predicate logic and their encodings (R96, R121, R122, R125). -/

namespace Sys2Proof

variable {w : BitVec 80} {i : Instr}

/-! ## Codes of conditions and floating-point types -/

/-- The six conditions of R121 in the order of their codes. -/
theorem ICond.bits_spec (c : ICond) : [ICond.eq, .ne, .lt, .ltn, .le, .len][c.bits]? = some c ∧ c.bits < 6 := by cases c <;> decide
/-- The five conditions of R125 in the order of their codes. -/
theorem FCond.bits_spec (c : FCond) : [FCond.eq, .ne, .lt, .le, .un][c.bits]? = some c ∧ c.bits < 5 := by cases c <;> decide
/-- The four floating-point types have the codes 8 to 11 (R93). -/
theorem ETy.bits_spec {t : ETy} (h : t.isFloat = true) :
    [ETy.fp16, .bf16, .fp32, .fp64][t.bits.toNat - 8]? = some t ∧ 8 ≤ t.bits.toNat ∧ t.bits.toNat < 12 := by
  cases t with
  | fp16 | bf16 | fp32 | fp64 => decide
  | _ => cases h

/-! ## Words of the compares and the predicate logic -/

theorem low_fld (w : BitVec 80) (lo : Nat) {m n : Nat} (h : m ≤ n) : low m (fld w lo n) = fld w lo m :=
  BitVec.setWidth_extractLsb'_of_le h
/-- A word with an operation code that decodes is the encoding of what is read, which is legal. -/
theorem parseS_of_decode (hop : fld w 0 7 ≠ 0) (h : decode .s w = .ok i) : parseS w = some i ∧ encode i = w ∧ wf i = true := by
  have hw : w ≠ 0 := fun h0 => hop (by rw [h0]; rfl)
  obtain ⟨hwf, henc⟩ := wf_and_encode_of_decode h
  refine ⟨?_, henc, hwf⟩
  rw [decode, if_neg hw] at h
  split at h
  · cases h
  · next j hj =>
    split_ifs at h
    cases h
    exact hj
/-- The fields of a packed word are those it was packed from. -/
theorem unSR_of_pkSR {r : SR} (h : pkSR r = w) : unSR w = r := h ▸ unSR_pkSR r
/-- A word of S.R that decodes is read by the row of its operation code. -/
theorem decode_row {c : BitVec 7} {o : Option Instr} (hop : fld w 0 7 = c) (hc : c ≠ 0) (hrow : parseS w = o) (h : decode .s w = .ok i) :
    o = some i ∧ encode i = w ∧ wf i = true := by
  subst hop
  exact hrow ▸ parseS_of_decode hc h
theorem decode_sel (hop : fld w 0 7 = 0x1A) (h : decode .s w = .ok i) :
    i = .sel (guardBits .s w) (fld w 12 6) (fld w 39 4) (fld w 18 6) (fld w 24 6) ∧ (fld w 39 8).toNat < 16 := by
  have hrow : parseS w = some (.sel (guardBits .s w) (fld w 12 6) (fld w 39 4) (fld w 18 6) (fld w 24 6)) := by
    rw [← low_fld w 39 (m := 4) (n := 8) (by decide)]
    simp only [parseS, unSR, hop]
    rfl
  obtain ⟨hi, henc, -⟩ := decode_row hop (by decide) hrow h
  cases hi
  have hfn : fld w 39 8 = low 8 (fld w 39 4) := congrArg SR.fn (unSR_of_pkSR henc)
  refine ⟨rfl, ?_⟩
  rw [hfn, low, BitVec.toNat_setWidth_of_le (by decide)]
  exact (fld w 39 4).isLt
theorem decode_cmp (hop : fld w 0 7 = 0x1B) (h : decode .s w = .ok i) :
    ∃ c : ICond, i = .cmp (guardBits .s w) c (fld w 12 4) (fld w 18 6) (fld w 24 6) ∧
      [ICond.eq, .ne, .lt, .ltn, .le, .len][(fld w 39 8).toNat]? = some c ∧ (fld w 39 8).toNat < 6 := by
  have hrow : parseS w = (icOf (fld w 39 8).toNat).map fun c => .cmp (guardBits .s w) c (fld w 12 4) (fld w 18 6) (fld w 24 6) := by
    rw [← low_fld w 12 (m := 4) (n := 6) (by decide)]
    simp only [parseS, unSR, hop]
    rfl
  obtain ⟨hi, henc, -⟩ := decode_row hop (by decide) hrow h
  obtain ⟨c, -, rfl⟩ := Option.map_eq_some_iff.1 hi
  have hfn : fld w 39 8 = BitVec.ofNat 8 c.bits := congrArg SR.fn (unSR_of_pkSR henc)
  have hnat : (fld w 39 8).toNat = c.bits := by rw [hfn]; cases c <;> rfl
  exact ⟨c, rfl, hnat ▸ c.bits_spec⟩
/-- The words of `pand`, `por` and `pxor`. -/
theorem decode_logic (n : BitVec 7) (hc : n ≠ 0) (op : Guard → BitVec 4 → BitVec 4 → BitVec 4 → Instr) (hop : fld w 0 7 = n)
    (hrow : parseS w = some (op (guardBits .s w) (low 4 (fld w 12 6)) (low 4 (fld w 18 6)) (low 4 (fld w 24 6))))
    (h : decode .s w = .ok i) : i = op (guardBits .s w) (fld w 12 4) (fld w 18 4) (fld w 24 4) := by
  obtain ⟨hi, -, -⟩ := decode_row hop hc hrow h
  have hfour (lo : Nat) : low 4 (fld w lo 6) = fld w lo 4 := low_fld w lo (by decide)
  rw [hfour, hfour, hfour] at hi
  exact (Option.some.inj hi).symm
theorem decode_pand (hop : fld w 0 7 = 0x1C) (h : decode .s w = .ok i) :
    i = .pand (guardBits .s w) (fld w 12 4) (fld w 18 4) (fld w 24 4) :=
  decode_logic _ (by decide) .pand hop (by simp only [parseS, unSR, hop]; rfl) h
theorem decode_por (hop : fld w 0 7 = 0x1D) (h : decode .s w = .ok i) :
    i = .por (guardBits .s w) (fld w 12 4) (fld w 18 4) (fld w 24 4) :=
  decode_logic _ (by decide) .por hop (by simp only [parseS, unSR, hop]; rfl) h
theorem decode_pxor (hop : fld w 0 7 = 0x1E) (h : decode .s w = .ok i) :
    i = .pxor (guardBits .s w) (fld w 12 4) (fld w 18 4) (fld w 24 4) :=
  decode_logic _ (by decide) .pxor hop (by simp only [parseS, unSR, hop]; rfl) h
theorem decode_pnot (hop : fld w 0 7 = 0x1F) (h : decode .s w = .ok i) :
    i = .pnot (guardBits .s w) (fld w 12 4) (fld w 18 4) ∧ fld w 24 6 = 0 := by
  have hrow : parseS w = some (.pnot (guardBits .s w) (fld w 12 4) (fld w 18 4)) := by
    rw [← low_fld w 12 (m := 4) (n := 6) (by decide), ← low_fld w 18 (m := 4) (n := 6) (by decide)]
    simp only [parseS, unSR, hop]
    rfl
  obtain ⟨hi, henc, -⟩ := decode_row hop (by decide) hrow h
  cases hi
  exact ⟨rfl, congrArg SR.sb (unSR_of_pkSR henc)⟩
/-- The code of `fcmp` holds the condition above the type, which is one of the four of R124. -/
theorem decode_fcmp (hop : fld w 0 7 = 0x2C) (h : decode .s w = .ok i) :
    ∃ (c : FCond) (t : ETy), i = .fcmp (guardBits .s w) c t (fld w 12 4) (fld w 18 6) (fld w 24 6) ∧
      ([FCond.eq, .ne, .lt, .le, .un][(fld w 39 8).toNat / 16]? = some c ∧ (fld w 39 8).toNat / 16 < 5) ∧
      ([ETy.fp16, .bf16, .fp32, .fp64][(fld w 39 8).toNat % 16 - 8]? = some t ∧ 8 ≤ (fld w 39 8).toNat % 16 ∧ (fld w 39 8).toNat % 16 < 12) ∧
      fld w 36 3 = 0 := by
  have hrow : parseS w = (etOf (low 4 (fld w 39 8))).bind fun t => (fcOf ((fld w 39 8).toNat / 16)).map fun c =>
      .fcmp (guardBits .s w) c t (fld w 12 4) (fld w 18 6) (fld w 24 6) := by
    rw [← low_fld w 12 (m := 4) (n := 6) (by decide)]
    simp only [parseS, unSR, hop]
    rfl
  obtain ⟨hi, henc, hwf⟩ := decode_row hop (by decide) hrow h
  obtain ⟨t, -, hi⟩ := Option.bind_eq_some_iff.1 hi
  obtain ⟨c, -, rfl⟩ := Option.map_eq_some_iff.1 hi
  have hfn : fld w 39 8 = BitVec.ofNat 4 c.bits ++ t.bits := congrArg SR.fn (unSR_of_pkSR henc)
  have hcond : (fld w 39 8).toNat / 16 = c.bits := by
    rw [hfn, Laws.Encode.high_append]
    cases c <;> rfl
  have htype : (fld w 39 8).toNat % 16 = t.bits.toNat := by
    have hlow := congrArg BitVec.toNat (Laws.Encode.low_append (BitVec.ofNat 4 c.bits) t.bits)
    rwa [← hfn, low, BitVec.toNat_setWidth] at hlow
  obtain ⟨-, hfloat⟩ := Bool.and_eq_true_iff.1 hwf
  exact ⟨c, t, rfl, hcond ▸ c.bits_spec, htype ▸ ETy.bits_spec hfloat, congrArg SR.rm (unSR_of_pkSR henc)⟩
end Sys2Proof

namespace Sys2Proof.Machine

variable {s : State}

/-! ## Comparisons of exact values (R125) -/

/-- The order of two values that are not NaNs is that of the numbers and infinities they stand for. -/
theorem FVal.cmp_iff {x y : FVal} (hx : x.isNaN = false) (hy : y.isNaN = false) :
    (x.cmp y = .lt ↔ x.Below y) ∧ (x.cmp y = .eq ↔ x.Same y) := by
  cases x with
  | nan => cases hx
  | inf n =>
    cases y with
    | nan => cases hy
    | inf k => cases n <;> cases k <;> simp [FVal.cmp, FVal.Below, FVal.Same]
    | fin => cases n <;> simp [FVal.cmp, FVal.Below, FVal.Same]
  | fin n1 m1 e1 =>
    cases y with
    | nan => cases hy
    | inf k => cases k <;> simp [FVal.cmp, FVal.Below, FVal.Same]
    | fin n2 m2 e2 =>
      have hpow : (0 : ℚ) < 2 ^ min e1 e2 := zpow_pos two_pos _
      have h1 := alignInt_cast n1 m1 (min_le_left e1 e2)
      have h2 := alignInt_cast n2 m2 (min_le_right e1 e2)
      simp only [FVal.cmp, FVal.Below, FVal.Same, compare_lt_iff_lt, compare_eq_iff_eq, ← h1, ← h2]
      exact ⟨by rw [mul_lt_mul_iff_left₀ hpow, Int.cast_lt], by rw [mul_left_inj' hpow.ne', Int.cast_inj]⟩
theorem fcond_nan {x y : FVal} (h : x.isNaN = true ∨ y.isNaN = true) (c : FCond) : fcond c x y = true ↔ c = .ne ∨ c = .un := by
  unfold fcond
  rw [if_pos (Bool.or_eq_true_iff.2 h)]
  cases c <;> decide
theorem fcond_number {x y : FVal} (hx : x.isNaN = false) (hy : y.isNaN = false) (c : FCond) : fcond c x y = true ↔ match c with
    | .eq => x.Same y | .ne => ¬ x.Same y | .lt => x.Below y | .le => x.Below y ∨ x.Same y | .un => False := by
  obtain ⟨hlt, heq⟩ := FVal.cmp_iff hx hy
  have hnan : ¬ (x.isNaN || y.isNaN) = true := by simp [hx, hy]
  unfold fcond
  rw [if_neg hnan]
  cases c with
  | eq => exact beq_iff_eq.trans heq
  | ne => exact bne_iff_ne.trans (not_congr heq)
  | lt => exact beq_iff_eq.trans hlt
  | le =>
    rw [← hlt, ← heq]
    cases x.cmp y <;> decide
  | un => exact Bool.false_eq_true.to_iff

theorem xor_eq_decide_ne (p q : Bool) : p.xor q = decide (p ≠ q) := by cases p <;> cases q <;> rfl
/-- An S operation with one predicate result puts exactly that result in flight, under a true guard. -/
theorem palu_yields {i : Instr} {g : Guard} {pd : BitVec 4} {b r : Bool} (hg : s.guard g = true) (hi : exec i s = palu g pd b s)
    (hb : b = r) : ∃ t, exec i s = .next t ∧ s.YieldsP t 1 pd r :=
  ⟨_, hi.trans (by rw [palu, if_pos hg, hb]), s.postP_yields ..⟩

/-- Settles O5: each operation is `palu` of its condition, and each word is read by its row and encoded back. -/
theorem predicateResults : Obligations.PredicateResults := by
  unfold Obligations.PredicateResults
  refine ⟨fun g pd pa pb sd sa sb ty s hg => ?_, fun w => ?_⟩
  · intro a b p q
    refine ⟨palu_yields hg rfl rfl, palu_yields hg rfl decide_not.symm, palu_yields hg rfl rfl, palu_yields hg rfl rfl, palu_yields hg rfl rfl,
      palu_yields hg rfl rfl, alu_yields_value hg rfl, palu_yields hg rfl rfl, palu_yields hg rfl rfl, palu_yields hg rfl (xor_eq_decide_ne p q),
      palu_yields hg rfl rfl, fun c => ?_⟩
    obtain ⟨t, hexec, hyields⟩ := palu_yields (i := .fcmp g c ty pd sa sb) hg rfl rfl
    exact ⟨t, _, hexec, hyields, fun hnan => fcond_nan hnan c, fun hx hy => fcond_number hx hy c⟩
  · intro f g fn refused
    refine ⟨fun i h => ⟨fun hop => (decode_sel hop h).1, fun hop => ?_, fun hop => decode_pand hop h, fun hop => decode_por hop h,
      fun hop => decode_pxor hop h, fun hop => (decode_pnot hop h).1, fun hop => ?_⟩, fun hop hfn i h => ?_, fun hop hfn i h => ?_,
      fun hop hsb i h => hsb (decode_pnot hop h).2, fun hop hbad i h => ?_⟩
    · obtain ⟨c, hi, hcode, -⟩ := decode_cmp hop h
      exact ⟨c, hcode, hi⟩
    · obtain ⟨c, t, hi, ⟨hcond, -⟩, ⟨htype, -⟩, -⟩ := decode_fcmp hop h
      exact ⟨c, t, hcond, htype, hi⟩
    · exact absurd (decode_sel hop h).2 (Nat.not_lt.2 hfn)
    · obtain ⟨-, -, -, hlt⟩ := decode_cmp hop h
      exact absurd hlt (Nat.not_lt.2 hfn)
    · obtain ⟨-, -, -, ⟨-, hcond⟩, ⟨-, hleast, hmost⟩, hrm⟩ := decode_fcmp hop h
      obtain hcode | hcode | hcode | hcode := hbad
      · exact absurd hcond (Nat.not_lt.2 hcode)
      · exact absurd hcode (Nat.not_lt.2 hleast)
      · exact absurd hmost (Nat.not_lt.2 hcode)
      · exact hcode hrm
end Sys2Proof.Machine
end

section
/-! Control transfer outside a broadcast, soft traps and `halt` (R127 to R131). -/

namespace Sys2Proof.Machine

variable {s t : State}

/-! ## Branches -/

theorem State.issued_refl : s.Issued s s.me.ctl [] := ⟨⟨rfl, fun _ _ => rfl⟩, by simp [State.marks, State.me]⟩
/-- An operation that issues stays in its broadcast, or outside one. -/
theorem State.Issued.myBcast {k : Ctl} {fs : List Fly} (h : s.Issued t k fs) : t.myBcast = s.myBcast := by
  have hcur := h.cur
  obtain ⟨⟨hrest, -⟩, hctx⟩ := h
  have hinst : t.me.inst = s.me.inst := by rw [State.me, hcur, hctx]
  have hrow : t.rows = s.rows := by rw [hrest]
  simp only [State.myBcast, State.row, hinst, hrow, hcur]
/-- The next bundle, set after a register write. -/
theorem State.Issued.goto {k : Ctl} {fs : List Fly} (h : s.Issued t k fs) (pc : Word) :
    s.Issued (t.modMe fun c => c.goto pc) { k with pc := pc } fs := by
  rw [State.modMe, h.cur]
  exact State.Becomes.modCtx h fun c => c.goto pc
/-- Outside a broadcast a branch writes its register and sets the next bundle, its target when it is taken (R128). -/
theorem branch_single {g : Guard} (taken : Bool) (target : Word) {write : State → State} {fs : List Fly} (h : s.myBcast = none)
    (hw : s.Issued (if s.guard g then write s else s) s.me.ctl fs) :
    s.Issued (branch g taken target s write) { s.me.ctl with pc := if s.guard g && taken then target else s.cur.ent.pc + 1 } fs := by
  have hfollow : ¬ s.mustFollow = true := by simp [State.mustFollow, h]
  rw [branch, if_neg hfollow, State.resolve, hw.myBcast, h]
  exact hw.goto _
/-- A transfer with a false guard falls through. -/
theorem branch_off {i : Instr} {g : Guard} {taken : Bool} {target : Word} {write : State → State} (h : s.myBcast = none)
    (hg : s.guard g = false) (hi : exec i s = .next (branch g taken target s write)) :
    ∃ t, exec i s = .next t ∧ s.Issued t { s.me.ctl with pc := s.cur.ent.pc + 1 } [] := by
  have hb := branch_single (g := g) (write := write) (fs := []) taken target h (by rw [hg]; exact s.issued_refl)
  rw [hg] at hb
  exact ⟨_, hi, hb⟩
/-- A transfer with a true guard writes its register, and goes to its target or falls through. -/
theorem branch_on {i : Instr} {g : Guard} (taken : Bool) {target : Word} {write : State → State} {fs : List Fly}
    (h : s.myBcast = none) (hg : s.guard g = true) (hi : exec i s = .next (branch g taken target s write)) (hw : s.Issued (write s) s.me.ctl fs) :
    ∃ t, exec i s = .next t ∧ s.Issued t { s.me.ctl with pc := if taken then target else s.cur.ent.pc + 1 } fs := by
  have hb := branch_single (g := g) taken target h (by rw [hg]; exact hw)
  rw [hg, Bool.true_and] at hb
  exact ⟨_, hi, hb⟩
/-- A decremented counter is not zero unless the counter was one. -/
theorem loop_next (v : Word) (target next : Word) : (if v - 1 != 0 then target else next) = if v = 1 then next else target := by
  by_cases h : v = 1
  · simp [h]
  · have hne : v - 1 ≠ 0 := fun h0 => h (sub_eq_zero.1 h0)
    rw [if_pos (bne_iff_ne.2 hne), if_neg h]

/-- Settles O7: each transfer is `branch` of its condition, its target and its register write. -/
theorem branchesResolve : Obligations.BranchesResolve := by
  unfold Obligations.BranchesResolve
  intro g c sd sa sb off s hb pc tgt goes
  refine ⟨fun hg => ⟨branch_off hb hg rfl, branch_off hb hg rfl, branch_off hb hg rfl, branch_off hb hg rfl, branch_off hb hg rfl,
    branch_off hb hg rfl⟩, fun hg => ⟨branch_on true hb hg rfl s.issued_refl, branch_on _ hb hg rfl s.issued_refl,
    branch_on true (write := fun t => t.postS 1 sd (pc + 1)) hb hg rfl (s.postS_yields ..), ?_, branch_on true hb hg rfl s.issued_refl,
    branch_on true hb hg rfl s.issued_refl⟩⟩
  rw [← loop_next]
  exact branch_on _ (write := fun t => t.postS 1 sd (s.sreg sd - 1)) hb hg rfl (s.postS_yields ..)

/-! ## Soft traps and `halt` -/

theorem next_ite_on {g : Guard} (hg : s.guard g = true) (u : State) : (.next (if s.guard g then u else s) : Out) = .next u := by
  rw [if_pos hg]

/-- Settles O9: each of the three marks its own context and does nothing else. -/
theorem softTrapsAndHalt : Obligations.SoftTrapsAndHalt := by
  unfold Obligations.SoftTrapsAndHalt
  intro g imm s hg
  rw [BitVec.ofNat_toNat]
  exact ⟨⟨_, next_ite_on hg _, s.becomes_modMe _⟩, ⟨_, next_ite_on hg _, s.becomes_modMe _⟩,
    ⟨_, next_ite_on hg _, s.becomes_modMe fun c => { c with halting := true, ckDue := true }⟩⟩
end Sys2Proof.Machine
end

section
/-! Bitwise operations, shifts, moves and permutations of the vector slots (R82, R138 to R140, R148, R150, R163 to R165, R169,
R170, R172). -/

namespace Sys2Proof.Machine

variable {s : State} {c : VC}

/-! ## Complements and unmasked shifts of codes (R82, R148) -/

theorem elemAt_lt (x w k : Nat) : elemAt x w k < 2 ^ w := Nat.mod_lt _ (Nat.two_pow_pos w)
theorem xor_ones {w a : Nat} (h : a < 2 ^ w) : a ^^^ ones w = 2 ^ w - 1 - a := by
  have hnot := congrArg BitVec.toNat (BitVec.xor_allOnes (x := BitVec.ofNatLT a h))
  rwa [BitVec.toNat_xor, BitVec.toNat_allOnes, BitVec.toNat_not, BitVec.toNat_ofNatLT] at hnot
/-- From the width on a left shift leaves no bit. -/
theorem shiftLeft_min_width (a n w : Nat) : a * 2 ^ Nat.min n w % 2 ^ w = a * 2 ^ n % 2 ^ w := by
  change a * 2 ^ min n w % 2 ^ w = _
  rcases Nat.le_total n w with h | h
  · rw [Nat.min_eq_left h]
  · rw [Nat.min_eq_right h, Nat.mul_mod_left, Nat.mod_eq_zero_of_dvd ((Nat.pow_dvd_pow 2 h).mul_left a)]
theorem shiftRight_min_width {a w : Nat} (ha : a < 2 ^ w) (n : Nat) : a / 2 ^ Nat.min n w = a / 2 ^ n := by
  change a / 2 ^ min n w = _
  rcases Nat.le_total n w with h | h
  · rw [Nat.min_eq_left h]
  · rw [Nat.min_eq_right h, Nat.div_eq_of_lt ha, Nat.div_eq_of_lt (ha.trans_le (Nat.pow_le_pow_right Nat.two_pos h))]
/-- From the width on an arithmetic right shift leaves copies of the sign. -/
theorem ediv_two_pow_of_width_le {v : Int} {w n : Nat} (hlo : -2 ^ w ≤ v) (hhi : v < 2 ^ w) (h : w ≤ n) :
    v / 2 ^ n = if v < 0 then -1 else 0 := by
  have hpow : (2 : Int) ^ w ≤ 2 ^ n := pow_le_pow_right₀ (by decide) h
  split
  · next hneg => exact Int.ediv_eq_neg_one_of_neg_of_le hneg (by omega)
  · next hneg => exact Int.ediv_eq_zero_of_lt (not_lt.1 hneg) (hhi.trans_le hpow)
theorem arithShiftRight_min_width {v : Int} {w : Nat} (hlo : -2 ^ w ≤ v) (hhi : v < 2 ^ w) (n : Nat) :
    v / 2 ^ Nat.min n w = v / 2 ^ n := by
  change v / 2 ^ min n w = _
  rcases Nat.le_total n w with h | h
  · rw [Nat.min_eq_left h]
  · rw [Nat.min_eq_right h, ediv_two_pow_of_width_le hlo hhi le_rfl, ediv_two_pow_of_width_le hlo hhi h]
/-- The value of a code lies within the powers of two of its width. -/
theorem ival_bounds (t : ETy) {a : Nat} (h : a < 2 ^ t.width) : -2 ^ t.width ≤ ival t a ∧ ival t a < 2 ^ t.width := by
  have ha : (a : Int) < 2 ^ t.width := by exact_mod_cast h
  rw [ival]
  split <;> omega

/-! ## Which operation each instruction is (R148, R169) -/

section
variable (vd va : BitVec 11) (vb : VSrc)
theorem exec_vand : exec (.vand c vd va vb) s = vexact c 2 vd va vb (fun a b => (a &&& b, 0)) s := rfl
theorem exec_vor : exec (.vor c vd va vb) s = vexact c 2 vd va vb (fun a b => (a ||| b, 0)) s := rfl
theorem exec_vxor : exec (.vxor c vd va vb) s = vexact c 2 vd va vb (fun a b => (a ^^^ b, 0)) s := rfl
theorem exec_vnot : exec (.vnot c vd va) s = vexact c 2 vd va (.sc 0) (fun a _ => (a ^^^ ones c.et.width, 0)) s := rfl
theorem exec_vshl : exec (.vshl c vd va vb) s = vshift c vd va vb (fun a n => a * 2 ^ n % 2 ^ c.et.width) s := rfl
theorem exec_vshr : exec (.vshr c vd va vb) s = vshift c vd va vb (fun a n => a / 2 ^ n) s := rfl
theorem exec_vsar : exec (.vsar c vd va vb) s = vshift c vd va vb (fun a n => wrapI c.et.width (ival c.et a / 2 ^ n)) s := rfl
theorem exec_vmov : exec (.vmov c vd va) s = vexact c 2 vd va (.sc 0) (fun a _ => (a, 0)) s := rfl
end

/-! ## Shifts of lanes (R139, R148) -/

/-- The whole amount of lane `k`: a lane of VB, or all 64 bits of the scalar. -/
def State.shiftAmount (s : State) (w : Nat) (vb : VSrc) (k : Nat) : Nat :=
  match vb with | .reg f => elemAt (s.vreg .v f) w k | .sc r => (s.sreg r).toNat
/-- A shift that takes amounts beyond the width like the width gives each lane the code shifted by the whole amount. -/
theorem vshift_lanes {i : Instr} {vd va : BitVec 11} {vb : VSrc} {f g : Nat → Nat → Nat} (hi : exec i s = vshift c vd va vb f s)
    (hfg : ∀ a n, a < 2 ^ c.et.width → f a (Nat.min n c.et.width) = g a n) :
    s.LaneOp i c 2 1 .v vd c.et.width (lanes c.et.width) fun k =>
      (g (elemAt (s.vreg .v va) c.et.width k) (s.shiftAmount c.et.width vb k), 0) := by
  refine (laneOp_of hi).congr fun k _ => congrArg (·, 0) ?_
  cases vb with
  | reg r => exact hfg _ _ (elemAt_lt ..)
  | sc r =>
    have hword : (s.sreg r).toNat % 2 ^ 64 = (s.sreg r).toNat := Nat.mod_eq_of_lt (s.sreg r).isLt
    exact (hfg _ _ (elemAt_lt ..)).trans (congrArg (g _) hword)

/-! ## Permutations over several blocks (R163 to R165) -/

theorem viewOf_permView (w : Nat) : viewOf (permView w) = if w = 4 then .t else if w = 8 then .w else .v := by
  rw [permView]
  split_ifs <;> rfl
theorem vperm_lanes (vd va vb : BitVec 11) :
    s.LaneOp (.vperm c vd va vb) c 4 (permView c.et.width) .v vd c.et.width (lanes c.et.width) fun k =>
      (let j := elemAt (s.vreg (if c.et.width = 4 then .t else if c.et.width = 8 then .w else .v) vb) 16 k
       if j < lanes c.et.width then elemAt (s.vreg .v va) c.et.width j else 0, 0) := by
  rw [← viewOf_permView]
  exact laneOp_of rfl
/-- The element at row `k / m` and column `k % m` comes from row `k % m` and column `k / m` of the square of side `m`. -/
theorem vtrn_lanes {w g m : Nat} (vd va : BitVec 11) (hshape : trnShape w = (g, m)) (hw : c.et.width = w) :
    s.LaneOp (.vtrn c vd va) c 4 g (viewOf g) vd c.et.width (m * m) fun k =>
      (elemAt (s.vreg (viewOf g) va) w (k % m * m + k / m), 0) := by
  subst hw
  refine laneOp_of ?_
  change execVtrn c vd va s = _
  rw [execVtrn, hshape]
theorem vzip_lanes (vd va vb : BitVec 11) :
    s.LaneOp (.vzip c vd va vb) c 4 2 .w vd c.et.width (2 * lanes c.et.width) fun k =>
      (if k % 2 = 0 then elemAt (s.vreg .v va) c.et.width (k / 2) else elemAt (s.vreg .v vb) c.et.width (k / 2), 0) :=
  (laneOp_of rfl).congr fun k _ => congrArg (·, 0) (apply_ite (elemAt · c.et.width (k / 2)) ..)

/-- Settles O32: each operation is one write of lanes; the complement, the shift amounts beyond the width, and the views and
the sides of the permutations are said in other words than the model's. -/
theorem vectorBitsMovesPermutations : Obligations.VectorBitsMovesPermutations := by
  unfold Obligations.VectorBitsMovesPermutations
  intro c vd va vbr vb ss m imm s w n a br b x amt bit op op1
  have hamt : s.shiftAmount w vb = amt := by
    cases vb with
    | reg f | sc r => rfl
  have hshl := vshift_lanes (exec_vshl (s := s) (c := c) vd va vb) fun a n _ => shiftLeft_min_width a n w
  have hshr := vshift_lanes (exec_vshr (s := s) (c := c) vd va vb) fun a n ha => shiftRight_min_width ha n
  have hsar := vshift_lanes (exec_vsar (s := s) (c := c) vd va vb) fun a n ha =>
    have ⟨hlo, hhi⟩ := ival_bounds c.et ha
    congrArg (wrapI w) (arithShiftRight_min_width hlo hhi n)
  rw [hamt] at hshl hshr hsar
  exact ⟨vexact_codes (exec_vand ..) rfl fun _ => rfl, vexact_codes (exec_vor ..) rfl fun _ => rfl,
    vexact_codes (exec_vxor ..) rfl fun _ => rfl, vexact_codes (exec_vnot ..) rfl fun _ => xor_ones (elemAt_lt ..), hshl, hshr, hsar,
    laneOp_of rfl, vexact_codes (exec_vmov ..) rfl fun _ => rfl, laneOp_of rfl, laneOp_of rfl, laneOp_of rfl, laneOp_of rfl,
    laneOp_of rfl, laneOp_of rfl, vperm_lanes .., vtrn_lanes vd va rfl, vtrn_lanes vd va rfl, vtrn_lanes vd va rfl,
    vtrn_lanes vd va rfl, vzip_lanes .., laneOp_of rfl⟩
end Sys2Proof.Machine
end

section
/-! The matrix slot at issue: the settings, the latches and the firing of the M operations (R174, R175, R177, R178, R181 to
R183, R185 to R189). -/

namespace Sys2Proof.Machine

variable {s t u : State}

/-! ## Rings after a firing -/

/-- Counts with which a firing may pop `k` slots of a ring. -/
def Ring.Pops (r : Ring) (k : Nat) : Prop := r.en = true ∧ k + r.tPop ≤ r.old.filled
theorem Ring.Pops.canPop {r : Ring} {k : Nat} (h : r.Pops k) : r.canPop k = true := by
  obtain ⟨hen, hcount⟩ := h
  simp [Ring.canPop, hen, hcount]
theorem Ring.canPush_of {r : Ring} (hen : r.en = true) (hfree : 1 + r.tPush ≤ r.old.free) (hold : r.old.exf = false)
    (hexf : r.exf = none) : r.canPush = true := by
  simp [Ring.canPush, hen, hfree, hold, hexf]
theorem State.ring_modRing_ne {n m : Nat} (core : Nat) (f : Ring → Ring) (h : m ≠ n) :
    (s.modRing core n f).ring core m = s.ring core m := by
  rw [State.ring_modRing_eq, if_neg h]
theorem State.ring_modRing_far {core c : Nat} (n : Nat) (f : Ring → Ring) (h : c ≠ core) (m : Nat) :
    (s.modRing core n f).ring c m = s.ring c m := by
  simp only [State.ring, State.modRing, State.core_modCore_ne _ _ h]
theorem State.ring_takePath (core p n c m : Nat) : (s.takePath core p n).ring c m = s.ring c m := State.ring_modCore rfl c m
theorem State.ring_takeSlots (n k : Nat) : (s.takeSlots n k).ring (coreOf s.cur.who) n = (s.ring (coreOf s.cur.who) n).pop k true :=
  State.ring_modRing ..
theorem State.ring_takeSlots_ne {n m : Nat} (k : Nat) (h : m ≠ n) :
    (s.takeSlots n k).ring (coreOf s.cur.who) m = s.ring (coreOf s.cur.who) m := State.ring_modRing_ne _ _ h

/-! ## The input slots of an operation (R175, R177; log 91) -/

section
variable (ra rb : BitVec 6) (cnt : Nat)

/-- The data's and the scales' ring are given, of the right size, and filled. -/
def State.InputsReady (s : State) (data scale geo : Nat) : Prop :=
  (rb = 0 ↔ geo = 0) ∧ cnt * (s.myRing ra.toNat).slotSize = data ∧ (rb ≠ 0 → scale ≤ cnt * (s.myRing rb.toNat).slotSize) ∧
  (rb ≠ 0 ∧ rb = ra → (s.myRing ra.toNat).Pops (2 * cnt)) ∧
  (¬ (rb ≠ 0 ∧ rb = ra) → (s.myRing ra.toNat).Pops cnt ∧ (rb ≠ 0 → (s.myRing rb.toNat).Pops cnt))
/-- The input slots of an operation that issues in `s` have been popped in `t`. -/
def State.InputsTaken (s t : State) : Prop :=
  let core := coreOf s.cur.who
  (rb ≠ 0 ∧ rb = ra → t.ring core ra.toNat = (s.ring core ra.toNat).pop (2 * cnt) true) ∧
  (¬ (rb ≠ 0 ∧ rb = ra) → t.ring core ra.toNat = (s.ring core ra.toNat).pop cnt true ∧
    (rb ≠ 0 → t.ring core rb.toNat = (s.ring core rb.toNat).pop cnt true))
/-- `v` holds the scales: their own ring's slots, or those behind the data's slots of one ring. -/
def State.ScalesRead (s : State) (v : Nat) : Prop :=
  let core := coreOf s.cur.who
  (rb ≠ 0 → ¬ (rb ≠ 0 ∧ rb = ra) → v = s.ringRun core rb.toNat cnt) ∧
  (rb ≠ 0 ∧ rb = ra → v = s.ringRun core ra.toNat (2 * cnt) / 2 ^ (8 * (cnt * (s.ring core ra.toNat).slotSize)))

variable {ra rb cnt}
theorem inputsOf_data (h0 : rb = 0) : inputsOf ra rb cnt = [(ra.toNat, cnt)] := if_pos h0
theorem inputsOf_shared (h0 : rb ≠ 0) : inputsOf rb rb cnt = [(rb.toNat, 2 * cnt)] := by rw [inputsOf, if_neg h0, if_pos rfl]
theorem inputsOf_apart (h0 : rb ≠ 0) (h : ra ≠ rb) : inputsOf ra rb cnt = [(ra.toNat, cnt), (rb.toNat, cnt)] := by
  rw [inputsOf, if_neg h0, if_neg h]

section
variable {data scale geo : Nat} (h : s.InputsReady ra rb cnt data scale geo)
include h
theorem State.InputsReady.scales_match : ((rb == 0) != (geo == 0)) = false := by
  obtain ⟨hgeo, -⟩ := h
  have hsame : (rb == 0) = (geo == 0) := by rw [Bool.eq_iff_iff, beq_iff_eq, beq_iff_eq, hgeo]
  rw [hsame, bne_self_eq_false]
theorem State.InputsReady.sizes_fit : (cnt * (s.myRing ra.toNat).slotSize != data ||
    (rb != 0 && decide (cnt * (s.myRing rb.toNat).slotSize < scale))) = false := by
  obtain ⟨-, hdata, hscale, -⟩ := h
  by_cases h0 : rb = 0
  · simp [hdata, h0]
  · simp [hdata, hscale h0]
theorem State.InputsReady.hasInputs : s.hasInputs (inputsOf ra rb cnt) = true := by
  obtain ⟨-, -, -, hshared, hapart⟩ := h
  by_cases h0 : rb = 0
  · obtain ⟨hdata, -⟩ := hapart fun h => h.1 h0
    simp [State.hasInputs, inputsOf_data h0, hdata.canPop]
  · by_cases hab : ra = rb
    · subst hab
      simp [State.hasInputs, inputsOf_shared h0, (hshared ⟨h0, rfl⟩).canPop]
    · obtain ⟨hdata, hscales⟩ := hapart fun h => hab h.2.symm
      simp [State.hasInputs, inputsOf_apart h0 hab, hdata.canPop, (hscales h0).canPop]
end

theorem State.takeInputs_taken : s.InputsTaken ra rb cnt (s.takeInputs (inputsOf ra rb cnt)) := by
  by_cases h0 : rb = 0
  · rw [inputsOf_data h0]
    exact ⟨fun h => absurd h0 h.1, fun _ => ⟨State.ring_takeSlots .., fun h => absurd h0 h⟩⟩
  · by_cases hab : ra = rb
    · subst hab
      rw [inputsOf_shared h0]
      exact ⟨fun _ => State.ring_takeSlots .., fun h => absurd ⟨h0, rfl⟩ h⟩
    · rw [inputsOf_apart h0 hab]
      have hne : ra.toNat ≠ rb.toNat := fun e => hab (BitVec.eq_of_toNat_eq e)
      refine ⟨fun h => absurd h.2.symm hab, fun _ => ⟨?_, fun _ => ?_⟩⟩
      · exact (State.ring_takeSlots_ne _ hne).trans (State.ring_takeSlots ..)
      · exact (State.ring_takeSlots ..).trans (congrArg (Ring.pop · cnt true) (State.ring_takeSlots_ne _ hne.symm))
theorem State.InputsTaken.congr (h : s.InputsTaken ra rb cnt t) (he : ∀ n, u.ring (coreOf s.cur.who) n = t.ring (coreOf s.cur.who) n) :
    s.InputsTaken ra rb cnt u := by
  simpa only [State.InputsTaken, he] using h
theorem State.scaleRun_read : s.ScalesRead ra rb cnt (s.scaleRun (coreOf s.cur.who) ra rb cnt) := by
  refine ⟨fun h0 h => ?_, fun h => ?_⟩
  · rw [State.scaleRun, if_neg h0, if_neg fun e => h ⟨h0, e.symm⟩]
  · obtain ⟨h0, rfl⟩ := h
    rw [State.scaleRun, if_neg h0, if_pos rfl]
end

/-! ## An operation joins (R177) -/

/-- Slots and a path have been taken in `u`, and nothing else has changed. -/
structure State.TakesSlots (s u : State) : Prop where
  mem  : u.mem = s.mem
  ctxs : u.ctxs = s.ctxs
  cur  : u.cur = s.cur
theorem State.takeInputs_takesSlots (l : List (Nat × Nat)) : s.TakesSlots (s.takeInputs l) :=
  ⟨State.takeInputs_mem l, foldl_leaves State.ctxs l (f := fun (s : State) (p : Nat × Nat) => s.takeSlots p.1 p.2) (fun _ _ => rfl) s,
    foldl_leaves State.cur l (f := fun (s : State) (p : Nat × Nat) => s.takeSlots p.1 p.2) (fun _ _ => rfl) s⟩
theorem State.TakesSlots.takeSlots (h : s.TakesSlots u) (n k : Nat) : s.TakesSlots (u.takeSlots n k) := ⟨h.mem, h.ctxs, h.cur⟩
theorem State.TakesSlots.takePath (h : s.TakesSlots u) (core p n : Nat) : s.TakesSlots (u.takePath core p n) := ⟨h.mem, h.ctxs, h.cur⟩

/-- `m` is the operation `i` with the settings and latches in force where `s` issues it. -/
structure MOp.IssuedIn (m : MOp) (s : State) (i : Instr) (live : Bool) : Prop where
  id   : m.id = s.ids
  op   : m.op = i
  ent  : m.ent = s.cur.ent
  live : m.live = live
  cfg  : m.cfg = s.me.ctl.mxcfg
  mr   : m.mr = (s.me.ctl.latchesAt s.cur.ent.seq).mr
  mc   : m.mc = (s.me.ctl.latchesAt s.cur.ent.seq).mc
theorem State.newM_issuedIn (i : Instr) (live : Bool) : (s.newM i live).IssuedIn s i live := ⟨rfl, rfl, rfl, rfl, rfl, rfl, rfl⟩

/-- The operation `i` joins its context's operations in `t` as `m`, and a live one marks its plane by `pl`. -/
def State.Joins (s : State) (x : Nat) (live : Bool) (i : Instr) (t : State) (m : MOp) (pl : Plane → Plane) : Prop :=
  exec i s = .next t ∧ t.mem = s.mem ∧
  (t.ctx s.cur.who).mops = s.me.mops ++ [m] ∧ (t.ctx s.cur.who).ctl = s.me.ctl ∧ m.id = s.ids ∧ m.op = i ∧ m.ent = s.cur.ent ∧
  m.live = live ∧ m.cfg = s.me.ctl.mxcfg ∧ m.mr = (s.me.ctl.latchesAt s.cur.ent.seq).mr ∧
  m.mc = (s.me.ctl.latchesAt s.cur.ent.seq).mc ∧
  (t.ctx s.cur.who).plane x = if live then pl (s.me.plane x) else s.me.plane x
/-- The operation joins, and a live one marks its plane. -/
def State.addMarked (s : State) (live : Bool) (m : MOp) (x : Nat) (pl : Plane → Plane) : State :=
  if live then (s.addM m).modMe fun c => c.setPlane x (pl (c.plane x)) else s.addM m
theorem State.addMarked_unless (live : Bool) (m : MOp) (x : Nat) (pl : Plane → Plane) :
    s.addMarked live m x pl = if !live then s.addM m else (s.addM m).modMe fun c => c.setPlane x (pl (c.plane x)) := by
  cases live <;> rfl
theorem State.ring_addMarked (live : Bool) (m : MOp) (x : Nat) (pl : Plane → Plane) (c n : Nat) :
    (s.addMarked live m x pl).ring c n = s.ring c n := by
  cases live <;> rfl

theorem State.TakesSlots.ctx_addM (h : s.TakesSlots u) (m : MOp) : (u.addM m).ctx s.cur.who = { s.me with mops := s.me.mops ++ [m] } := by
  have hme : u.me = s.me := by rw [State.me, State.ctx, h.ctxs, h.cur]; rfl
  rw [← hme, ← h.cur]
  exact State.ctx_modMe ..
section
variable {x : Nat} {live : Bool} {i : Instr} {m : MOp} (h : s.TakesSlots u) (hm : m.IssuedIn s i live)
include h hm
theorem State.TakesSlots.joins (he : exec i s = .next (u.addM m)) : s.Joins x live i (u.addM m) m id := by
  refine ⟨he, (State.addM_mem m).trans h.mem, ?_, ?_, hm.id, hm.op, hm.ent, hm.live, hm.cfg, hm.mr, hm.mc, ?_⟩ <;> rw [h.ctx_addM]
  exact (ite_self (s.me.plane x)).symm
theorem State.TakesSlots.joins_marked {pl : Plane → Plane} (he : exec i s = .next (u.addMarked live m x pl)) :
    s.Joins x live i (u.addMarked live m x pl) m pl := by
  cases live with
  | false => exact h.joins hm he
  | true =>
    have hctx : (u.addMarked true m x pl).ctx s.cur.who = Ctx.setPlane { s.me with mops := s.me.mops ++ [m] } x (pl (s.me.plane x)) := by
      have hmark := State.ctx_modMe (s := u.addM m) fun c => c.setPlane x (pl (c.plane x))
      have hcur : (u.addM m).cur.who = s.cur.who := congrArg Cur.who h.cur
      rw [State.me, hcur, h.ctx_addM] at hmark
      exact hmark
    refine ⟨he, (State.addM_mem m).trans h.mem, ?_, ?_, hm.id, hm.op, hm.ent, hm.live, hm.cfg, hm.mr, hm.mc, ?_⟩ <;> rw [hctx]
    · rw [Ctx.setPlane_mops]
    · rw [Ctx.setPlane_ctl]
    · rw [Ctx.plane_setPlane, if_pos rfl]
end

/-! ## Causes (R178; log 21) -/

theorem firstCause_nil : firstCause [] = none := rfl
theorem firstCause_holds (k : Nat) (l : List (Nat × Bool)) : firstCause ((k, true) :: l) = some k := rfl
theorem firstCause_passes (k : Nat) (l : List (Nat × Bool)) : firstCause ((k, false) :: l) = firstCause l := rfl
theorem State.pathFree_of {p : Nat} (h : aget 0 (s.core (coreOf s.cur.who)).mbusy p = 0) : s.pathFree p = true := beq_iff_eq.2 h

/-- Without a legal setting before it an operation on rings or registers takes the trap with cause 1. -/
theorem unset_traps (hv : cfgVld s.me.ctl.mxcfg = false) {g : Guard} {rm : BitVec 3} {x : BitVec 1} {y : BitVec 2} {z add : Bool}
    {n : BitVec 4} {m3 : BitVec 3} {kd : BitVec 6} {od os : BitVec 11} {ra rb : BitVec 6} {i : Instr}
    (hi : i = .mpre g x n ra rb ∨ i = .mmul g rm x y n od ra rb ∨ i = .mmulz g rm x y n od ra rb ∨
      i = .mcmul g rm x y z n od ra rb ∨ i = .mclr g m3 od ∨ i = .mbias g od os ∨ i = .mtr g od os ∨
      i = .mdrain g rm kd add os ra rb) :
    exec i s = .next (s.trap ⟨14, 1, 0⟩) := by
  have harray (op : Instr) : arrayIssue op g x n ra rb s = .next (s.trap ⟨14, 1, 0⟩) := by
    simp only [arrayIssue, hv, Bool.not_false, firstCause_holds, mTrap]
  have hreg (op : Instr) : regIssue op g s = .next (s.trap ⟨14, 1, 0⟩) := by
    simp only [regIssue, hv, Bool.not_false, if_true, mTrap]
  obtain rfl | rfl | rfl | rfl | rfl | rfl | rfl | rfl := hi
  · change execMpre g x n ra rb s = _
    simp only [execMpre, hv, Bool.not_false, firstCause_holds, mTrap]
  · exact harray _
  · exact harray _
  · exact harray _
  · exact hreg _
  · exact hreg _
  · exact hreg _
  · change execMdrain g rm kd add os ra rb s = _
    simp only [execMdrain, hv, Bool.not_false, firstCause_holds, mTrap]
theorem arrayIssue_unready {op : Instr} {g : Guard} {x : BitVec 1} {n : BitVec 4} {ra rb : BitVec 6} (hv : cfgVld s.me.ctl.mxcfg = true)
    (hp : s.me.planeReady x.toNat = false) : arrayIssue op g x n ra rb s = .next (s.trap ⟨14, 3, 0⟩) := by
  simp only [arrayIssue, hv, hp, Bool.not_true, Bool.not_false, firstCause_passes, firstCause_holds, mTrap]

/-! ## Settings and latches (R181, R182) -/

/-- No reserved bit of the settings word is set, and its fields are legal for the descriptors (R174). -/
def settingsOk (tab : Nat → BitVec 32) (v : Word) : Prop := v.toNat % 2 ^ 10 = 0 ∧ v.toNat < 2 ^ 36 ∧ cfgLegal tab v = true
theorem natBits_high (v : Word) : natBits v.toNat 36 28 = 0 ↔ v.toNat < 2 ^ 36 := by
  have hlt := v.isLt
  rw [natBits, Nat.shiftRight_eq_div_pow]
  omega
theorem settings_refused (tab : Nat → BitVec 32) (v : Word) :
    (natBits v.toNat 0 10 != 0 || natBits v.toNat 36 28 != 0 || !cfgLegal tab v) = true ↔ ¬ settingsOk tab v := by
  have hlow : natBits v.toNat 0 10 = v.toNat % 2 ^ 10 := rfl
  rw [Bool.or_eq_true, Bool.or_eq_true, bne_iff_ne, bne_iff_ne, Ne, Ne, natBits_high, hlow, Bool.not_eq_true', settingsOk]
  simp only [not_and_or, Bool.not_eq_true, or_assoc]
section
variable {g : Guard} {sk : BitVec 6}
theorem execMcfg_refuses (h : ¬ settingsOk (s.desc (s.partOf s.cur.who)) (s.sreg sk)) :
    exec (.mcfg g sk) s = .next (s.trap ⟨14, 2, 0⟩) := by
  change execMcfg g sk s = _
  rw [execMcfg]
  simp only [(settings_refused _ _).2 h, if_true, mTrap]
theorem execMcfg_accepts (h : settingsOk (s.desc (s.partOf s.cur.who)) (s.sreg sk)) :
    exec (.mcfg g sk) s = .next (if s.guard g then
      s.modMe fun c => { c with ctl := { c.ctl with mxcfg := s.sreg sk ||| 0x1000000000 } } else s) := by
  have hlegal := mt (settings_refused _ _).1 (not_not_intro h)
  change execMcfg g sk s = _
  rw [execMcfg]
  simp only [if_neg hlegal]
  cases s.guard g <;> rfl
end
theorem execMxs_latches {g : Guard} (hg : s.guard g = true) (w : BitVec 2) (os : BitVec 11) :
    exec (.mxs g w os) s = .next (s.latch ⟨s.cur.ent.seq, if w = 1 then .mr else if w = 2 then .mc else .mrc,
      BitVec.ofNat 2048 (s.vreg .v os), 0⟩) := by
  change execMxs g w os s = _
  simp only [execMxs, hg, Bool.not_true, Bool.false_eq_true, if_false]

/-! ## The register path (R188) -/

theorem regIssue_joins {g : Guard} {i : Instr} (hi : exec i s = regIssue i g s) (hv : cfgVld s.me.ctl.mxcfg = true)
    (hg : s.guard g = true) (hf : s.pathFree pathReg = true) (x : Nat) :
    ∃ t m, s.Joins x (s.guard g) i t m id ∧ m.stage = 0 := by
  rw [hg]
  refine ⟨s.addM (s.newM i true), s.newM i true, State.TakesSlots.joins ⟨rfl, rfl, rfl⟩ (State.newM_issuedIn i true) ?_, rfl⟩
  rw [hi]
  simp only [regIssue, hv, hg, hf, Bool.not_true, Bool.false_eq_true, if_false]

/-! ## Own rings: planes, arrays and drains (R183, R185, R187, R189) -/

section
variable (g : Guard) (rm : BitVec 3) (x : BitVec 1) (y : BitVec 2) (peer : BitVec 4) (prel : Bool) (n : BitVec 4) (kd : BitVec 6)
  (add : Bool) (od os : BitVec 11) (ra rb : BitVec 6)

/-- The setting in force. -/
abbrev State.mxcfg (s : State) : Word := s.me.ctl.mxcfg
/-- An `mpre` with its slots. -/
def State.preM (s : State) : MOp :=
  let core := coreOf s.cur.who
  { s.newM (.mpre g x n ra rb) (s.guard g) with
    stage := 2, left := planeBytes (s.myDesc (cfgBfd s.mxcfg)) / 1024, runB := s.ringRun core ra.toNat (n.toNat + 1),
    sclB := s.scaleRun core ra rb (n.toNat + 1), rings := (inputsOf ra rb (n.toNat + 1)).map fun p => (core, p.1, p.2, 0) }
theorem State.preM_issuedIn : (s.preM g x n ra rb).IssuedIn s (.mpre g x n ra rb) (s.guard g) := ⟨rfl, rfl, rfl, rfl, rfl, rfl, rfl⟩
/-- A plane that begins to load under this setting. -/
def Plane.restart (v : Word) (p : Plane) : Plane := { p with loaded := false, fresh := true, bfd := cfgBfd v, bgeo := cfgBgeo v }
theorem execMpre_joins (hv : cfgVld s.mxcfg = true) (hr : (s.me.plane x.toNat).read = false)
    (hin : s.InputsReady ra rb (n.toNat + 1) (planeBytes (s.myDesc (cfgBfd s.mxcfg))) (32768 / geoSize (cfgBgeo s.mxcfg)) (cfgBgeo s.mxcfg))
    (hf : s.pathFree pathLoad = true) :
    ∃ t, s.Joins x.toNat (s.guard g) (.mpre g x n ra rb) t (s.preM g x n ra rb) (Plane.restart s.mxcfg) ∧
      s.InputsTaken ra rb (n.toNat + 1) t := by
  have htakes := (s.takeInputs_takesSlots (inputsOf ra rb (n.toNat + 1))).takePath (coreOf s.cur.who) pathLoad
    (planeBytes (s.myDesc (cfgBfd s.mxcfg)) / 1024)
  refine ⟨_, htakes.joins_marked (s.preM_issuedIn g x n ra rb) ?_, State.takeInputs_taken.congr fun _ =>
    (State.ring_addMarked ..).trans (State.ring_takePath ..)⟩
  change execMpre g x n ra rb s = _
  simp only [execMpre, hv, hr, hin.scales_match, hin.sizes_fit, hin.hasInputs, hf, firstCause_passes, firstCause_nil, Bool.not_true,
    Bool.false_eq_true, if_false]
  rfl

/-- An array operation with its slots. -/
def State.arrayM (s : State) (op : Instr) : MOp :=
  let core := coreOf s.cur.who
  { s.newM op (s.guard g) with
    runA := s.ringRun core ra.toNat (n.toNat + 1), sclA := s.scaleRun core ra rb (n.toNat + 1),
    rings := (inputsOf ra rb (n.toNat + 1)).map fun p => (core, p.1, p.2, 0) }
theorem State.arrayM_issuedIn (op : Instr) : (s.arrayM g n ra rb op).IssuedIn s op (s.guard g) := ⟨rfl, rfl, rfl, rfl, rfl, rfl, rfl⟩
theorem arrayIssue_joins {op : Instr} (ho : exec op s = arrayIssue op g x n ra rb s) (hv : cfgVld s.mxcfg = true)
    (hp : s.me.planeReady x.toNat = true)
    (hin : s.InputsReady ra rb (n.toNat + 1) (rowBytes (cfgRows s.mxcfg) (s.myDesc (cfgAfd s.mxcfg)))
      (cfgRows s.mxcfg * 256 / geoSize (cfgAgeo s.mxcfg)) (cfgAgeo s.mxcfg))
    (hf : s.pathFree pathArray = true) :
    ∃ t, s.Joins x.toNat (s.guard g) op t (s.arrayM g n ra rb op) (fun p => { p with read := true }) ∧
      s.InputsTaken ra rb (n.toNat + 1) t := by
  refine ⟨_, (s.takeInputs_takesSlots (inputsOf ra rb (n.toNat + 1))).joins_marked (s.arrayM_issuedIn g n ra rb op) ?_,
    State.takeInputs_taken.congr fun _ => State.ring_addMarked ..⟩
  rw [ho]
  simp only [arrayIssue, hv, hp, hin.scales_match, hin.sizes_fit, hin.hasInputs, hf, firstCause_passes, firstCause_nil, Bool.not_true,
    Bool.false_eq_true, if_false]
  rfl

/-- An `mdrain` with its slots. -/
def State.drainM (s : State) : MOp :=
  let core := coreOf s.cur.who
  let out := s.myRing rb.toNat
  { s.newM (.mdrain g rm kd add os ra rb) (s.guard g) with
    sclA := if add then s.ringRun core ra.toNat 1 else 0, out := ringSlot core out out.tail,
    outn := if s.guard g then cfgRows s.mxcfg * 128 * dWidth (s.myDesc kd.toNat) / 8 else out.slotSize,
    rings := [(core, rb.toNat, 0, 1)] ++ (if add then [(core, ra.toNat, 1, 0)] else []) }
theorem State.drainM_issuedIn : (s.drainM g rm kd add os ra rb).IssuedIn s (.mdrain g rm kd add os ra rb) (s.guard g) :=
  ⟨rfl, rfl, rfl, rfl, rfl, rfl, rfl⟩
/-- A drain's output slot is pushed and, with `.add`, a slot of partial sums popped. -/
def State.takeDrain (s : State) : State :=
  let u := s.modRing (coreOf s.cur.who) rb.toNat fun r => r.push true
  if add then u.takeSlots ra.toNat 1 else u
theorem State.takeDrain_takesSlots : s.TakesSlots (s.takeDrain add ra rb) := by
  cases add <;> exact ⟨rfl, rfl, rfl⟩
variable {add ra rb} in
theorem State.takeDrain_rings (hne : add = true → ra ≠ rb) :
    (s.takeDrain add ra rb).ring (coreOf s.cur.who) rb.toNat = (s.myRing rb.toNat).push true ∧
    (add = true → (s.takeDrain add ra rb).ring (coreOf s.cur.who) ra.toNat = (s.myRing ra.toNat).pop 1 true) := by
  cases add with
  | false =>
    have hpush := s.ring_modRing (coreOf s.cur.who) rb.toNat fun r => r.push true
    exact ⟨hpush, fun h => Bool.noConfusion h⟩
  | true =>
    have hab : ra.toNat ≠ rb.toNat := fun e => hne rfl (BitVec.eq_of_toNat_eq e)
    refine ⟨?_, fun _ => ?_⟩
    · exact (State.ring_takeSlots_ne _ hab.symm).trans (State.ring_modRing ..)
    · exact (State.ring_takeSlots ..).trans (congrArg (Ring.pop · 1 true) (State.ring_modRing_ne _ _ hab))
theorem execMdrain_joins (hv : cfgVld s.mxcfg = true)
    (hsize : cfgRows s.mxcfg * 128 * dWidth (s.myDesc kd.toNat) / 8 ≤ (s.myRing rb.toNat).slotSize)
    (hpush : (s.myRing rb.toNat).canPush = true) (hf : s.pathFree pathReg = true)
    (hadd : add = true → ra ≠ rb ∧ cfgRows s.mxcfg * 512 ≤ (s.myRing ra.toNat).slotSize ∧ (s.myRing ra.toNat).Pops 1) (x : Nat) :
    ∃ t, s.Joins x (s.guard g) (.mdrain g rm kd add os ra rb) t (s.drainM g rm kd add os ra rb) id ∧
      t.ring (coreOf s.cur.who) rb.toNat = (s.myRing rb.toNat).push true ∧
      (add = true → t.ring (coreOf s.cur.who) ra.toNat = (s.myRing ra.toNat).pop 1 true) := by
  have hfits := decide_eq_false (not_lt.2 hsize)
  refine ⟨_, (State.takeDrain_takesSlots add ra rb).joins (s.drainM_issuedIn g rm kd add os ra rb) ?_,
    State.takeDrain_rings fun h => (hadd h).1⟩
  change execMdrain g rm kd add os ra rb s = _
  cases add with
  | false =>
    simp only [execMdrain, hv, hfits, hpush, hf, firstCause_passes, firstCause_nil, Bool.not_true, Bool.not_false, Bool.and_true,
      Bool.true_or, Bool.false_and, Bool.or_false, Bool.false_eq_true, if_false]
    rfl
  | true =>
    obtain ⟨-, hsums, hpop⟩ := hadd rfl
    have hsumsFit := decide_eq_false (not_lt.2 hsums)
    simp only [execMdrain, hv, hfits, hsumsFit, hpush, hpop.canPop, hf, firstCause_passes, firstCause_nil, Bool.not_true, Bool.and_true,
      Bool.and_false, Bool.or_true, Bool.or_false, Bool.false_eq_true, if_false]
    rfl

/-! ## Peer rings (R186) -/

/-- The peer core of an `mmulp`: its rank is absolute, or relative to the own one. -/
def State.peerRank (s : State) : Nat := if prel then (rankOf (coreOf s.cur.who) + peer.toNat) % 16 else peer.toNat
def State.peerAt (s : State) : Nat := peerCore (coreOf s.cur.who) (s.peerRank peer prel)
def State.peerRing (s : State) : Ring := s.ring (s.peerAt peer prel) ra.toNat
theorem State.peerOk_ne (h : s.peerOk s.cur.who (s.peerRank peer prel) = true) : coreOf s.cur.who ≠ s.peerAt peer prel := by
  simp only [State.peerOk, Bool.and_eq_true, bne_iff_ne] at h
  exact h.2.symm
/-- `k` slots of a ring are read from its HEAD on, by the peer operation `id`. -/
def Ring.readBy (r : Ring) (id k : Nat) : Ring :=
  { r with peers := r.peers ++ [(id, (List.range k).map fun j => (r.head + j) % r.count)] }
def State.readPeer (s : State) (k : Nat) : State := s.modRing (s.peerAt peer prel) ra.toNat fun r => r.readBy s.ids k
theorem State.readPeer_takesSlots (k : Nat) : s.TakesSlots (s.readPeer peer prel ra k) := ⟨rfl, rfl, rfl⟩
theorem State.ring_readPeer (k : Nat) :
    (s.readPeer peer prel ra k).ring (s.peerAt peer prel) ra.toNat = (s.peerRing peer prel ra).readBy s.ids k := State.ring_modRing ..

/-- An `mmulp` whose rows come from the peer. -/
def State.peerRowsM (s : State) : MOp :=
  { s.newM (.mmulp g rm x y peer prel false n od ra rb) (s.guard g) with
    runA := s.ringRun (s.peerAt peer prel) ra.toNat (n.toNat + 1), peer := some (s.peerAt peer prel, ra.toNat) }
/-- An `mmulp` whose plane comes from the peer, `k` slots of it, and its rows from an own ring. -/
def State.peerPlaneM (s : State) (k : Nat) : MOp :=
  let core := coreOf s.cur.who
  { s.newM (.mmulp g rm x y peer prel true n od ra rb) (s.guard g) with
    stage := 2, left := planeBytes (s.myDesc (cfgBfd s.mxcfg)) / 1024, runA := s.ringRun core rb.toNat (n.toNat + 1),
    runB := s.ringRun (s.peerAt peer prel) ra.toNat k, rings := [(core, rb.toNat, n.toNat + 1, 0)],
    peer := some (s.peerAt peer prel, ra.toNat) }
theorem State.peerRowsM_issuedIn : (s.peerRowsM g rm x y peer prel n od ra rb).IssuedIn s (.mmulp g rm x y peer prel false n od ra rb)
    (s.guard g) := ⟨rfl, rfl, rfl, rfl, rfl, rfl, rfl⟩
theorem State.peerPlaneM_issuedIn (k : Nat) : (s.peerPlaneM g rm x y peer prel n od ra rb k).IssuedIn s
    (.mmulp g rm x y peer prel true n od ra rb) (s.guard g) := ⟨rfl, rfl, rfl, rfl, rfl, rfl, rfl⟩
/-- The rings after an `mmulp` that loads its plane: the peer's is read and not popped, the own one popped. -/
theorem State.peerPlane_rings (hne : coreOf s.cur.who ≠ s.peerAt peer prel) (k c : Nat) :
    ((s.readPeer peer prel ra k).takeSlots rb.toNat c).ring (coreOf s.cur.who) rb.toNat = (s.myRing rb.toNat).pop c true ∧
    ((s.readPeer peer prel ra k).takeSlots rb.toNat c).ring (s.peerAt peer prel) ra.toNat = (s.peerRing peer prel ra).readBy s.ids k :=
  ⟨(State.ring_takeSlots ..).trans (congrArg (Ring.pop · c true) (State.ring_modRing_far _ _ hne _)),
    (State.ring_modRing_far _ _ hne.symm _).trans (State.ring_readPeer ..)⟩
section
variable (hv : cfgVld s.mxcfg = true) (hageo : cfgAgeo s.mxcfg = 0) (hok : s.peerOk s.cur.who (s.peerRank peer prel) = true)
  (hen : (s.peerRing peer prel ra).en = true)
include hv hageo hok hen
theorem execMmulp_rows_joins (hbuf : (s.peerRing peer prel ra).buf = 1) (hp : s.me.planeReady x.toNat = true)
    (hf : s.pathFree pathArray = true)
    (hsize : (n.toNat + 1) * (s.peerRing peer prel ra).slotSize = rowBytes (cfgRows s.mxcfg) (s.myDesc (cfgAfd s.mxcfg)))
    (hpop : (s.peerRing peer prel ra).canPop (n.toNat + 1) = true) :
    ∃ t, s.Joins x.toNat (s.guard g) (.mmulp g rm x y peer prel false n od ra rb) t (s.peerRowsM g rm x y peer prel n od ra rb)
        (fun p => { p with read := true }) ∧
      t.ring (s.peerAt peer prel) ra.toNat = (s.peerRing peer prel ra).readBy s.ids (n.toNat + 1) := by
  refine ⟨_, (s.readPeer_takesSlots peer prel ra (n.toNat + 1)).joins_marked (s.peerRowsM_issuedIn g rm x y peer prel n od ra rb) ?_,
    (State.ring_addMarked ..).trans (State.ring_readPeer ..)⟩
  change execMmulp g rm x y peer prel false n od ra rb s = _
  simp only [State.peerRing, State.peerAt, State.peerRank] at hok hen hbuf hsize hpop
  simp only [execMmulp, hv, hok, hageo, hen, hbuf, hp, hf, hsize, hpop, firstCause_passes, firstCause_nil, Bool.not_true, Bool.not_false,
    Bool.false_eq_true, if_false, bne_self_eq_false, Bool.or_false, Bool.and_true, Bool.and_false, Bool.false_and, Bool.true_or]
  rw [State.addMarked_unless]
  rfl
theorem execMmulp_plane_joins (hbgeo : cfgBgeo s.mxcfg = 0) (hbuf : (s.peerRing peer prel ra).buf = 0)
    (hr : (s.me.plane x.toNat).read = false) (hf : s.pathFree pathLoad = true) {nb k : Nat}
    (hnb : planeBytes (s.myDesc (cfgBfd s.mxcfg)) = nb)
    (hk : nb / (s.peerRing peer prel ra).slotSize = k) (hwhole : nb % (s.peerRing peer prel ra).slotSize = 0)
    (hcount : k ≤ (s.peerRing peer prel ra).count) (hpeer : (s.peerRing peer prel ra).canPop k = true)
    (hsize : (n.toNat + 1) * (s.myRing rb.toNat).slotSize = rowBytes (cfgRows s.mxcfg) (s.myDesc (cfgAfd s.mxcfg)))
    (hpop : (s.myRing rb.toNat).canPop (n.toNat + 1) = true) :
    ∃ t, s.Joins x.toNat (s.guard g) (.mmulp g rm x y peer prel true n od ra rb) t (s.peerPlaneM g rm x y peer prel n od ra rb k)
        (fun p => { p with loaded := false, fresh := true, read := true, bfd := cfgBfd s.mxcfg, bgeo := 0 }) ∧
      t.ring (coreOf s.cur.who) rb.toNat = (s.myRing rb.toNat).pop (n.toNat + 1) true ∧
      t.ring (s.peerAt peer prel) ra.toNat = (s.peerRing peer prel ra).readBy s.ids k := by
  have htakes := ((s.readPeer_takesSlots peer prel ra k).takeSlots rb.toNat (n.toNat + 1)).takePath (coreOf s.cur.who) pathLoad (nb / 1024)
  obtain ⟨hown, hread⟩ := s.peerPlane_rings peer prel ra rb (State.peerOk_ne peer prel hok) k (n.toNat + 1)
  refine ⟨_, htakes.joins_marked (s.peerPlaneM_issuedIn g rm x y peer prel n od ra rb k) ?_,
    (State.ring_addMarked ..).trans ((State.ring_takePath ..).trans hown),
    (State.ring_addMarked ..).trans ((State.ring_takePath ..).trans hread)⟩
  subst hnb hk
  change execMmulp g rm x y peer prel true n od ra rb s = _
  simp only [State.peerRing, State.peerAt, State.peerRank] at hok hen hbuf hwhole hcount hpeer
  have hroom := decide_eq_false (Nat.not_lt.2 hcount)
  simp only [execMmulp, hv, hok, hageo, hbgeo, hen, hbuf, hr, hf, hwhole, hroom, hsize, hpeer, hpop, firstCause_passes, firstCause_nil,
    Bool.not_true, Bool.false_eq_true, if_false, if_true, bne_self_eq_false, Bool.or_false, Bool.false_or,
    Bool.false_and, Bool.and_true, Bool.and_false]
  rw [State.addMarked_unless]
  rfl
end

end

/-- Settles O37: each operation passes its checks and then is one joining over the slots it has taken. -/
theorem matrixOperationsFire : Obligations.MatrixOperationsFire := by
  unfold Obligations.MatrixOperationsFire
  intro g rm x y z prel add n peer m3 kd w2 od os sk ra rb s who core live v lt tab cnt free slots pops one two popped scales joins array
    pr peerOk
  have harray (i : Instr) (hi : exec i s = arrayIssue i g x n ra rb s) : array i :=
    ⟨fun hv hp => hi.trans (arrayIssue_unready hv hp), fun hv hp hin hf =>
      have ⟨t, hjoins, htaken⟩ := arrayIssue_joins g x n ra rb hi hv hp hin (State.pathFree_of hf)
      ⟨t, _, hjoins, htaken, rfl, rfl, State.scaleRun_read⟩⟩
  refine ⟨?_, ?_, ?_, ?_, ?_, ?_, harray _ rfl, harray _ rfl, harray _ rfl, ?_, ?_, ?_⟩
  · intro h
    refine execMcfg_refuses fun ⟨hlow, hhigh, hlegal⟩ => ?_
    obtain hlow' | hhigh' | hlegal' := h
    · exact hlow' hlow
    · exact absurd hhigh (not_lt.2 hhigh')
    · exact Bool.false_ne_true (hlegal'.symm.trans hlegal)
  · intro hlow hhigh hlegal
    have hset := execMcfg_accepts (g := g) ⟨hlow, hhigh, hlegal⟩
    exact ⟨fun hg => hset.trans (congrArg _ (if_neg (ne_true_of_eq_false hg))),
      fun hg => ⟨_, hset.trans (congrArg _ (if_pos hg)), s.becomes_modMe _⟩⟩
  · exact fun hg _ => ⟨_, execMxs_latches hg w2 os, s.becomes_modMe _⟩
  · intro i hi hv hg hf
    obtain rfl | rfl | rfl := hi <;> exact regIssue_joins rfl hv hg (State.pathFree_of hf) _
  · exact fun i hi hv => unset_traps hv hi
  · intro hv hr hin hf
    have ⟨t, hjoins, htaken⟩ := execMpre_joins g x n ra rb hv hr hin (State.pathFree_of hf)
    exact ⟨t, _, hjoins, htaken, rfl, rfl, rfl, State.scaleRun_read⟩
  · rintro hv hageo ⟨hok, hen, hbuf⟩ hp hf hsize hcount
    have hpop : Ring.Pops pr cnt := ⟨hen, hcount⟩
    have ⟨t, hjoins, hread⟩ := execMmulp_rows_joins g rm x y peer prel n od ra rb hv hageo hok hen hbuf hp (State.pathFree_of hf) hsize
      hpop.canPop
    exact ⟨t, _, hjoins, rfl, rfl, hread⟩
  · rintro hv hageo hbgeo ⟨hok, hen, hbuf⟩ hr hf nb j hwhole hcount hfilled hsize hpop
    have hpeer : Ring.Pops pr j := ⟨hen, hfilled⟩
    have ⟨t, hjoins, hpopped, hread⟩ := execMmulp_plane_joins g rm x y peer prel n od ra rb hv hageo hok hen hbgeo hbuf hr
      (State.pathFree_of hf) rfl rfl hwhole hcount hpeer.canPop hsize (Ring.Pops.canPop hpop)
    exact ⟨t, _, hjoins, rfl, rfl, rfl, rfl, hpopped, hread⟩
  · intro hv out bytes hsize hen hfree hold hexf hf hadd
    have ⟨t, hjoins, hpushed, hpopped⟩ := execMdrain_joins g rm kd add os ra rb hv hsize (Ring.canPush_of hen hfree hold hexf)
      (State.pathFree_of hf) hadd x.toNat
    exact ⟨t, _, hjoins, rfl, rfl, rfl, hpushed, fun h => ⟨if_pos h, hpopped h⟩⟩
end Sys2Proof.Machine
end

section
/-! What writes to memory leave alone: the rest of the machine, whatever it holds (R2, R204, R357). -/

namespace Sys2Proof.Machine

variable {s t u : State}

/-! ## A memory beside another machine -/

/-- Machine `u` with the memory of `s`: its bytes, its keys, the task records and the service die. -/
def State.over (s u : State) : State := { u with mem := s.mem, keyed := s.keyed, dies := s.dies, svc := s.svc }

theorem State.writeUnit_over (u : State) (key n v bm : Nat) : (s.over u).writeUnit key n v bm = (s.writeUnit key n v bm).over u := by
  have ht : (s.over u).taskUnit n = s.taskUnit n := rfl
  unfold State.writeUnit
  rw [ht]
  split
  · rfl
  · split <;> rfl
theorem State.putElem_over (u : State) (e : Elem) (v : Nat) : (s.over u).putElem e v = (s.putElem e v).over u := by
  unfold State.putElem
  split
  · exact State.writeUnit_over ..
  · exact List.foldl_hom (State.over · u) fun _ _ => rfl
/-- What holds from step to step holds over a list. -/
theorem foldl_related {σ α : Type} {R : σ → σ → Prop} (hrefl : ∀ s, R s s) (htrans : ∀ s t u, R s t → R t u → R s u) {f : σ → α → σ}
    (h : ∀ s a, R s (f s a)) (l : List α) (s : σ) : R s (l.foldl f s) := by
  induction l generalizing s with
  | nil => exact hrefl s
  | cons a l ih => exact htrans _ _ _ (h s a) (ih _)
/-- Nothing but memory differs. -/
structure State.MemOnly (s t : State) : Prop where
  eq : t = t.over s
theorem State.MemOnly.refl (s : State) : s.MemOnly s := ⟨rfl⟩
theorem State.MemOnly.trans (h : s.MemOnly t) (k : t.MemOnly u) : s.MemOnly u := ⟨by rw [k.eq, h.eq]; rfl⟩
theorem State.MemOnly.foldl {α : Type} {f : State → α → State} (h : ∀ (s : State) a, s.MemOnly (f s a)) (l : List α) (s : State) :
    s.MemOnly (l.foldl f s) := foldl_related State.MemOnly.refl (fun _ _ _ => .trans) h l s
theorem State.memOnly_writeUnit (key n v bm : Nat) : s.MemOnly (s.writeUnit key n v bm) := ⟨State.writeUnit_over s ..⟩
theorem State.memOnly_putElem (e : Elem) (v : Nat) : s.MemOnly (s.putElem e v) := ⟨State.putElem_over s ..⟩
theorem State.memOnly_moveAll (r : ECmdRec) (l : List (Elem × Elem)) : s.MemOnly (s.moveAll r l) :=
  .foldl (fun _ _ => State.memOnly_putElem ..) l s
theorem State.memOnly_moveNear (r : ECmdRec) : s.MemOnly (s.moveNear r) := State.memOnly_moveAll ..
theorem State.memOnly_setSvc (v : Service) : s.MemOnly { s with svc := v } := ⟨rfl⟩
theorem State.MemOnly.ctxs (h : s.MemOnly t) : t.ctxs = s.ctxs := (congrArg State.ctxs h.eq :)
theorem State.MemOnly.cores (h : s.MemOnly t) : t.cores = s.cores := (congrArg State.cores h.eq :)
theorem State.MemOnly.cmds (h : s.MemOnly t) : t.cmds = s.cmds := (congrArg State.cmds h.eq :)
theorem State.MemOnly.fab (h : s.MemOnly t) : t.fab = s.fab := (congrArg State.fab h.eq :)
theorem State.MemOnly.ctx (h : s.MemOnly t) (w : Nat) : t.ctx w = s.ctx w := by rw [State.ctx, h.ctxs]; rfl
theorem State.MemOnly.ring (h : s.MemOnly t) (c n : Nat) : t.ring c n = s.ring c n := by rw [State.ring, State.core, h.cores]; rfl
theorem State.MemOnly.cmd (h : s.MemOnly t) (k : Nat) : t.cmd k = s.cmd k := by rw [State.cmd, h.cmds]; rfl
theorem State.MemOnly.pair (h : s.MemOnly t) (k : Nat) : t.pair k = s.pair k := by rw [State.pair, h.fab]; rfl

/-! ## Records that reach a context (R204, R357) -/

theorem State.memOnly_deliverTo (n : Snap) (q id data : Nat) : s.MemOnly (s.deliverTo n q id data) := by
  unfold State.deliverTo
  dsimp only
  split
  · exact .refl s
  · split
    · exact (State.memOnly_setSvc _).trans (State.memOnly_writeUnit ..)
    · exact State.memOnly_setSvc _
theorem State.memOnly_quietDone (id : Nat) : s.MemOnly (s.quietDone id) := by
  refine State.MemOnly.foldl (fun s n => ?_) _ s
  split
  · exact .refl s
  · dsimp only
    split
    · exact (State.memOnly_setSvc _).trans (State.memOnly_writeUnit ..)
    · exact State.memOnly_setSvc _
/-- A record that reaches a context changes one of its queues, and the memory of a snapshot that holds it. -/
theorem State.memOnly_deliver (who q id data : Nat) : (s.modCtx who fun c => c.gotRecord q id data).MemOnly (s.deliver who q id data) :=
  .foldl (fun _ _ => State.memOnly_deliverTo ..) _ _

/-- No saved context waits for a command: none has an entry of its record, or a place for its end. -/
def State.Unsaved (s : State) (id : Nat) : Prop := ∀ n ∈ s.svc.snaps, id + 1 ∉ n.quiet ∧ ∀ e ∈ n.ctx.rqGet 2, e.id ≠ id
theorem State.deliverTo_none {n : Snap} {q id : Nat} (data : Nat) (h : ∀ e ∈ n.ctx.rqGet q, e.id ≠ id) : s.deliverTo n q id data = s := by
  unfold State.deliverTo
  dsimp only
  split
  · rfl
  · next j hj =>
    have hpending := List.find?_some hj
    split at hpending
    · next e he => simp [h e (List.mem_of_getElem? he)] at hpending
    · cases hpending
theorem foldl_unchanged {α : Type} {f : State → α → State} (l : List α) (h : ∀ a ∈ l, f s a = s) : l.foldl f s = s := by
  induction l with
  | nil => rfl
  | cons a l ih =>
    rw [List.foldl_cons, h a List.mem_cons_self]
    exact ih fun b hb => h b (List.mem_cons_of_mem _ hb)
theorem State.deliver_unsaved {id : Nat} (h : s.Unsaved id) (who data : Nat) :
    s.deliver who 2 id data = s.modCtx who fun c => c.gotRecord 2 id data :=
  foldl_unchanged _ fun n hn => State.deliverTo_none data (h n hn).2
theorem State.quietDone_unsaved {id : Nat} (h : s.Unsaved id) : s.quietDone id = s := by
  refine foldl_unchanged _ fun n hn => ?_
  have hnone : ((List.range n.quiet.length).find? fun j => n.quiet[j]? == some (id + 1)) = none := by
    refine List.find?_eq_none.2 fun j _ hj => (h n hn).1 ?_
    exact List.mem_of_getElem? (eq_of_beq hj)
  dsimp only
  rw [hnone]
end Sys2Proof.Machine
end

section
/-! Fences, flags and barriers (R212 to R214, R216): what a release, a fence and a test of a flag find, and the step of a
barrier. -/

namespace Sys2Proof.Machine

variable {s : State}

/-! ## A unit that a test claims for its key (log 7) -/

/-- The keys once the unit of an element is claimed. -/
def State.claimed (s : State) (e : Elem) : List (Nat × Nat) :=
  if keyedAddr (e.addr / 8) then
    if s.keyed.any (fun r => r.1 == e.addr / 512) || (s.taskUnit (e.addr / 512)).isSome then s.keyed
    else aset s.keyed (e.addr / 512) e.key
  else s.keyed
theorem State.claim_one (e : Elem) : s.claim [e] = { s with keyed := s.claimed e } := rfl
/-- A unit that no key has written reads the same before its claim and after it. -/
theorem State.unitUnder_claim (e : Elem) : (s.claim [e]).unitUnder e.key (e.addr / 512) = s.unitUnder e.key (e.addr / 512) := by
  rw [State.claim_one, State.claimed]
  by_cases hk : keyedAddr (e.addr / 8) = true
  · rw [if_pos hk]
    by_cases hown : (s.keyed.any (fun r => r.1 == e.addr / 512) || (s.taskUnit (e.addr / 512)).isSome) = true
    · rw [if_pos hown]
    · rw [if_neg hown]
      obtain ⟨hnew, htask⟩ := by simpa only [Bool.or_eq_true, not_or] using hown
      have hfind : s.keyed.find? (fun r => r.1 == e.addr / 512) = none :=
        List.find?_eq_none.2 fun r hr hu => hnew (List.any_eq_true.2 ⟨r, hr, hu⟩)
      have htask : s.taskUnit (e.addr / 512) = none := by simpa using htask
      have htask' : State.taskUnit { s with keyed := aset s.keyed (e.addr / 512) e.key } (e.addr / 512) = none := htask
      unfold State.unitUnder
      rw [htask, htask', find?_aset, hfind]
      simp
  · rw [if_neg hk]
theorem State.flagValue_claim (who : Nat) (e : Elem) :
    (s.claim [e]).flagValue who e.addr e.key = s.flagValue who e.addr e.key := by
  have hunit : (s.claim [e]).unitAs ⟨e.addr, 64, e.key⟩ (e.addr / 512) = s.unitAs ⟨e.addr, 64, e.key⟩ (e.addr / 512) := by
    unfold State.unitAs
    split
    · exact State.unitUnder_claim e
    · rfl
  have hover : (s.claim [e]).overlay who = s.overlay who := rfl
  refine congrArg (BitVec.ofNat 64) ?_
  rw [State.elemBy, State.elemBy, hover]
  by_cases hk : keyedAddr (e.addr / 8) = true
  · simp only [State.elemOver, List.find?_nil, hunit, hk, if_true]
  · have hread : ∀ u, (s.claim [e]).unitAs ⟨e.addr, 64, e.key⟩ u = s.unitAs ⟨e.addr, 64, e.key⟩ u := fun u => by
      rw [State.unitAs, State.unitAs, if_neg hk, if_neg hk]
      rfl
    simp only [State.elemOver, List.find?_nil, hread]

/-! ## The condition of a wait (R214) -/

/-- A wait's condition on a flag value, as the obligations write it. -/
def WaitMet (cond : Nat) (f v : Word) : Prop := cond = 0 ∧ 0 ≤ (f - v).toInt ∨ cond = 1 ∧ f = v ∨ cond = 2 ∧ f ≠ v
theorem waitTest_iff {cond : Nat} (h : cond < 3) (f v : Word) : waitTest cond f v = true ↔ WaitMet cond f v := by
  match cond, h with
  | 0, _ => simp [waitTest, WaitMet]
  | 1, _ => simp [waitTest, WaitMet]
  | 2, _ => simp [waitTest, WaitMet]
theorem waitTest_false {cond : Nat} (h : cond < 3) {f v : Word} (hm : ¬ WaitMet cond f v) : waitTest cond f v = false :=
  Bool.eq_false_iff.2 (mt (waitTest_iff h f v).1 hm)

/-- The read of its unit that a test of a drawer's flag asks for. -/
def State.flagReq (s : State) (who addr cls d : Nat) (pc sl : Nat) : DReq :=
  { id := s.ids, drawer := d, unit := addr / 512, part := s.partOf who, cls := cls, kind := 0, who := who, die := dieOfWho who,
    pc := BitVec.ofNat 64 pc, sl := sl, order := s.cyc }
theorem State.askFlag_near {addr : Nat} (who cls pc sl : Nat) (h : drawerOf (addr / 8) = none) : s.askFlag who addr cls pc sl = ([], s) := by
  simp only [State.askFlag, h]
theorem State.askFlag_far {addr d : Nat} (who cls pc sl : Nat) (h : drawerOf (addr / 8) = some d) : s.askFlag who addr cls pc sl =
    ([s.ids], { s with ids := s.ids + 1, fab := { s.fab with reqs := s.fab.reqs ++ [s.flagReq who addr cls d pc sl] } }) := by
  simp only [State.askFlag, h]
  rfl

/-! ## Issue -/

variable {a : YArg} {e : Elem} {cls : Nat} {sg : Bool}

theorem execFence_passes {g : Guard} {mask : BitVec 16} (h : mask = 0 ∨ s.fenced mask = true) : execFence g mask s = .next s := by
  unfold execFence
  rw [if_pos]
  obtain h | h := h <;> simp [h]
theorem execFence_stays {g : Guard} {mask : BitVec 16} (hg : s.guard g = true) (hm : mask ≠ 0) (hf : s.fenced mask = false) :
    execFence g mask s = .next s.unissue := by
  unfold execFence
  rw [if_neg]
  simpa [hg, hf] using hm
theorem execSig_stays (set : Bool) (hg : s.guard a.g = true) (hr : s.released = false) : execSig a set s = .next s.unissue := by
  simp [execSig, hg, hr]
theorem execBar_stays (hg : s.guard a.g = true) (hr : s.released = false) : execBar a s = .next s.unissue := by
  simp [execBar, hg, hr]
/-- The step of a `sig`, and that of a `bar` with its party count. -/
def State.sigStep (s : State) (a : YArg) (e : Elem) (set : Bool) : AmoOp :=
  { addr := e.addr, w := 64, op := if set then 3 else 0, v := s.flagArg a }
def State.barStep (s : State) (a : YArg) (e : Elem) (sg : Bool) : AmoOp :=
  { addr := e.addr, w := 64, op := 0, v := 1, sgn := sg, bar := Nat.max ((s.flagArg a).toNat % 2 ^ 32) 1 }
/-- The context of a `bar` holds until its step has performed. -/
def State.barHeld (s : State) (e : Elem) (cls : Nat) : State := s.modMe fun x => { x with wait := some (.bar e.addr e.key cls [] none) }
theorem State.ctx_barHeld : (s.barHeld e cls).ctx s.cur.who = { s.me with wait := some (.bar e.addr e.key cls [] none) } :=
  (s.becomes_modMe _).2
theorem execSig_sends (set : Bool) (hg : s.guard a.g = true) (hr : s.released = true) (hf : s.flag a true = .ok (e, cls, sg)) :
    execSig a set s = .next (s.sendStep (s.partOf s.cur.who) cls e.key (s.sigStep a e set)) := by
  simp only [execSig, hg, hr, hf]
  rfl
theorem execBar_sends (hg : s.guard a.g = true) (hr : s.released = true) (hf : s.flag a true = .ok (e, cls, sg)) :
    execBar a s = .next ((s.barHeld e cls).sendStep ((s.barHeld e cls).partOf s.cur.who) cls e.key (s.barStep a e sg)) := by
  simp only [execBar, hg, hr, hf]
  rfl
/-- A release finds no access of its context's own open. -/
theorem State.released_closed (hr : s.released = true) : ∀ q ∈ s.fab.reqs, q.open s.cur.who = false := by
  intro q hq
  have hall := (Bool.and_eq_true _ _ ▸ hr : _ ∧ _).2
  simpa using List.all_eq_true.1 hall q hq
theorem State.sendStep_released {part cls key : Nat} {b : AmoOp} (hr : ∀ q ∈ s.fab.reqs, q.open s.cur.who = false)
    (hd : drawerOf (b.addr / 8) = none) : s.sendStep part cls key b = s.perform s.cur.who key b :=
  State.sendStep_near hd fun q hq hopen => absurd hopen (by simp [hr q hq])

/-! ## What a step makes of its flag -/

theorem State.sigStep_new (set : Bool) (old : Nat) :
    (s.sigStep a e set).new old = if set then (s.flagArg a).toNat else (old + (s.flagArg a).toNat) % 2 ^ 64 := by
  have hv : (s.flagArg a).toNat % 2 ^ 64 = (s.flagArg a).toNat := Nat.mod_eq_of_lt (s.flagArg a).isLt
  cases set with
  | false => exact congrArg (fun v => (old + v) % 2 ^ 64) hv
  | true => exact hv
theorem AmoOp.new_count {b : AmoOp} (hop : b.op = 0) (hw : b.w = 64) (hv : b.v = 1) (old : Nat) : b.new old = (old + 1) % 2 ^ 64 := by
  simp only [AmoOp.new, hop, hw, hv]
  rfl
/-- The next multiple of the party count above the counter that an increment found, by the counter's own kind (R216). -/
def barTarget (sg : Bool) (old p : Nat) : Word :=
  BitVec.ofInt 64 (((if sg then (BitVec.ofNat 64 old).toInt else (old : Int)) / p + 1) * p)
/-- The step of a barrier leaves its context a target to wait for. -/
theorem State.perform_bar (who key : Nat) {b : AmoOp} (hbar : b.bar ≠ 0) (hq : b.qid = none) : s.perform who key b =
    (s.stepped key b).modCtx who fun c => { c with wait := c.wait.map fun h => h.reach b.sgn (s.elem (b.elem key)) b.bar } := by
  simp only [State.perform, if_neg hbar, hq]
  rfl
theorem State.perform_bar_ctx {who key cls : Nat} {g : List Nat} {b : AmoOp} (hbar : b.bar ≠ 0) (hq : b.qid = none)
    (hw : (s.ctx who).wait = some (.bar b.addr key cls g none)) : (s.perform who key b).ctx who =
      { s.ctx who with wait := some (.bar b.addr key cls g (some (barTarget b.sgn (s.elem (b.elem key)) b.bar))) } := by
  rw [State.perform_bar who key hbar hq, State.ctx_modCtx, State.stepped_ctx, hw]
  rfl

/-! ## Waits -/

/-- A wait may issue on what it reads of near memory alone. -/
def State.waitReads (s : State) (a : YArg) (c : BitVec 2) (e : Elem) : Bool :=
  (drawerOf (e.addr / 8)).isNone && waitTest c.toNat (s.flagValue s.cur.who e.addr e.key) (s.flagArg a)
theorem execWait_issues {c : BitVec 2} (hg : s.guard a.g = true) (hf : s.flag a false = .ok (e, cls, sg))
    (h : s.waitReads a c e = true) : execWait a c s = .next (s.claim [e]) := by
  rw [State.waitReads, ← State.flagValue_claim] at h
  simp only [execWait, hg, hf, Bool.not_true, Bool.false_eq_true, if_false]
  exact congrArg s.finish (if_pos h)
theorem execWait_holds {c : BitVec 2} (hg : s.guard a.g = true) (hf : s.flag a false = .ok (e, cls, sg))
    (h : s.waitReads a c e = false) : execWait a c s = .next (
      let r := (s.claim [e]).askFlag s.cur.who e.addr cls s.cur.ent.pc.toNat 7
      r.2.unissue.modMe fun x => { x with wait := some (.wait e.addr e.key cls r.1 c.toNat (s.flagArg a)) }) := by
  rw [State.waitReads, ← State.flagValue_claim] at h
  simp only [execWait, hg, hf, Bool.not_true, Bool.false_eq_true, if_false]
  exact congrArg s.finish (if_neg (ne_true_of_eq_false h))
/-- A wait that stays in its queue holds its context. -/
theorem State.unissue_held (f : Ctx → Ctx) : s.Becomes (s.unissue.modMe f) s.cur.who (f s.unissue.me) :=
  (s.becomes_modMe _).trans (State.becomes_modMe ..)

/-- Settles O28: a release finds nothing open, so its step performs at once or is a request of its own; a wait tests its flag, or
asks for it. -/
theorem fencesFlagsAndBarriers : Obligations.FencesFlagsAndBarriers := by
  unfold Obligations.FencesFlagsAndBarriers
  intro g mask a c e cls sg s hg hga who flag v p f met
  refine ⟨fun h => execFence_passes h, fun hm hf => execFence_stays hg hm hf,
    fun hr => ⟨execSig_stays false hga hr, execSig_stays true hga hr, execBar_stays hga hr⟩, ?_⟩
  intro next asks
  refine ⟨fun hr hf d hd => ?_, fun id r b gate hreq hk hb hbar hop hw hv hq hmay hwait => ?_, fun hr hf hd => ?_, fun hf hd hc => ?_,
    fun hf d hd => ?_⟩
  · have hsig (set : Bool) : asks (.sig a set) d (s.sigStep a e set) s.me.wait :=
      ⟨_, s.stepReq (s.partOf who) cls e.key d (s.sigStep a e set),
        (execSig_sends set hga hr hf).trans (congrArg _ (State.sendStep_far hd)), rfl, rfl, rfl, rfl, rfl, rfl, rfl, rfl, rfl, rfl,
        (Elem.units_drawer (e := flag) hd).symm, rfl, rfl⟩
    refine ⟨hsig false, hsig true, _, (s.barHeld e cls).stepReq ((s.barHeld e cls).partOf who) cls e.key d (s.barStep a e sg),
      (execBar_sends hga hr hf).trans (congrArg _ (State.sendStep_far hd)), rfl, rfl, rfl, rfl, rfl, rfl, rfl, rfl, rfl, rfl,
      (Elem.units_drawer (e := flag) hd).symm, rfl, State.ctx_barHeld⟩
  · intro f
    have helem : b.elem r.key = f := by simp only [AmoOp.elem, hw, f]
    refine ⟨_, execDrawerWritePerforms_step hreq hk hb hmay, ?_, ?_, ?_⟩
    · rw [State.req, State.perform_bar _ _ hbar hq, State.modCtx_fab, State.stepped, State.putElem_fab]
      exact List.find?_eq_none.2 fun q hq => by simpa using (List.mem_filter.1 hq).2
    · rw [State.perform_bar _ _ hbar hq, State.modCtx_mem, State.stepped_besides, State.stepped, helem, AmoOp.new_count hop hw hv]
      rfl
    · have hheld (fab : Fabric) : ((s.besides s.ctxs s.ids fab).ctx r.who).wait = some (.bar b.addr r.key cls gate none) := hwait
      refine (State.perform_bar_ctx hbar hq (hheld _)).trans ?_
      rw [State.elem_besides, helem]
      rfl
  · have hclosed := State.released_closed hr
    have hsig (set : Bool) : exec (.sig a set) s = .next (s.putElem flag ((s.sigStep a e set).new (s.elem flag))) :=
      (execSig_sends set hga hr hf).trans
        (congrArg _ ((State.sendStep_released hclosed hd).trans (State.perform_silent _ _ rfl rfl)))
    refine ⟨(hsig false).trans ?_, (hsig true).trans ?_, ?_⟩
    · rw [State.sigStep_new]
      rfl
    · rw [State.sigStep_new]
      rfl
    · have hbar : (s.barStep a e sg).bar ≠ 0 := Nat.ne_of_gt (Nat.le_max_right ..)
      have hheld : s.barHeld e cls = s.besides (s.barHeld e cls).ctxs s.ids s.fab := rfl
      refine ⟨_, (execBar_sends hga hr hf).trans (congrArg _ (State.sendStep_released (s := s.barHeld e cls) hclosed hd)), ?_, ?_⟩
      · rw [State.perform_bar _ _ hbar rfl, State.modCtx_mem, hheld, State.stepped_besides, State.stepped,
          AmoOp.new_count rfl rfl rfl]
        rfl
      · refine (State.perform_bar_ctx hbar rfl (cls := cls) (g := []) (congrArg Ctx.wait State.ctx_barHeld)).trans ?_
        rw [State.ctx_barHeld]
        rfl
  · have htest : c.toNat < 3 := by
      have hc : c.toNat ≠ 3 := fun h => hc (BitVec.eq_of_toNat_eq h)
      have := c.isLt
      omega
    have hmet : met ↔ WaitMet c.toNat f v := by
      simp only [met, WaitMet, ← BitVec.toNat_inj]
      rfl
    refine ⟨fun hm => ?_, fun hm => ?_⟩
    · rw [hmet, ← waitTest_iff htest] at hm
      refine execWait_issues hga hf ?_
      rw [State.waitReads, hd, hm]
      rfl
    · rw [hmet] at hm
      refine ⟨_, execWait_holds hga hf ?_, ?_⟩
      · rw [State.waitReads, waitTest_false htest hm, Bool.and_false]
      · rw [State.askFlag_near _ _ _ _ hd]
        exact State.unissue_held ..
  · refine ⟨_, (s.claim [e]).flagReq who e.addr cls d s.cur.ent.pc.toNat 7, execWait_holds hga hf ?_, ?_⟩
    · rw [State.waitReads, hd]
      rfl
    · rw [State.askFlag_far _ _ _ _ hd]
      refine ⟨rfl, rfl, rfl, rfl, rfl, rfl, rfl, rfl, rfl, ?_⟩
      exact (State.unissue_held _).2
end Sys2Proof.Machine
end

section
/-! Waits for rings, quanta, sleep, power levels and realignment, and the events that end the holds (R214, R216 to R219,
R221, R382). -/

namespace Sys2Proof.Machine

variable {s : State}

/-! ## Raises in their die's queue (R382) -/

/-- A raise stands behind the others, but for those of its own tick from contexts after it. -/
theorem raising_splits (r : Nat × Nat × Nat) (l : List (Nat × Nat × Nat)) : ∃ a b, l = a ++ b ∧ raising r l = a ++ r :: b ∧
    (∀ x ∈ a, ¬ (x.2.2 = r.2.2 ∧ r.1 < x.1)) ∧ ∀ x, b.head? = some x → x.2.2 = r.2.2 ∧ r.1 < x.1 := by
  induction l with
  | nil => exact ⟨[], [], rfl, rfl, fun _ hx => absurd hx List.not_mem_nil, fun _ hx => by cases hx⟩
  | cons h l ih =>
    unfold raising
    split
    · next hlate =>
      refine ⟨[], h :: l, rfl, rfl, fun _ hx => absurd hx List.not_mem_nil, fun x hx => ?_⟩
      obtain rfl : h = x := by simpa using hx
      exact hlate
    · next hearly =>
      obtain ⟨a, b, rfl, hr, ha, hb⟩ := ih
      refine ⟨h :: a, b, rfl, congrArg (h :: ·) hr, fun x hx => ?_, hb⟩
      obtain rfl | hx := List.mem_cons.1 hx
      · exact hearly
      · exact ha x hx
theorem State.askPower_lowers {who l : Nat} (h : l ≤ (s.ctx who).level) :
    s.askPower who l = s.modCtx who fun c => { c with level := l } := if_pos h
theorem State.askPower_raises {who l : Nat} (h : (s.ctx who).level < l) :
    s.askPower who l = (s.modCtx who fun c => { c with wait := some (.power l) }).modDie (dieOfWho who) fun d =>
      { d with pwrq := raising (who, l, s.cyc) d.pwrq } := if_neg (Nat.not_le.2 h)

/-! ## Issue -/

variable {g : Guard}

theorem execRwait_met {free : Bool} {k : BitVec 4} {b : BitVec 6}
    (h : k.toNat + 1 ≤ if free then (s.myRing b.toNat).old.free else (s.myRing b.toNat).old.filled) :
    execRwait g free k b s = .next s := by
  simp only [execRwait, decide_eq_true h, Bool.or_true, if_true]
theorem execRwait_blocks {free : Bool} {k : BitVec 4} {b : BitVec 6} (hg : s.guard g = true)
    (h : (if free then (s.myRing b.toNat).old.free else (s.myRing b.toNat).old.filled) < k.toNat + 1) :
    execRwait g free k b s = .next (s.block (.count (s.rk b.toNat) free (k.toNat + 1))) := by
  simp only [execRwait, hg, decide_eq_false (Nat.not_le.2 h)]
  rfl
theorem execYield_ends (hg : s.guard g = true) (h : s.otherReady s.cur.who 0 = true) :
    execYield g s = .next (s.modMe fun c => { c with preReq := true }) := by
  simp only [execYield, hg, h, Bool.and_self, if_true]
theorem execYield_alone (h : s.otherReady s.cur.who 0 = false) : execYield g s = .next s := by
  simp only [execYield, h, Bool.and_false, Bool.false_eq_true, if_false]
theorem execSleep_none {sa : BitVec 6} (h : (s.sreg sa).toNat % 2 ^ 32 = 0) : execSleep g sa s = .next s :=
  congrArg _ (if_pos (Bool.or_eq_true .. ▸ .inr (decide_eq_true h)))
theorem execSleep_holds {sa : BitVec 6} (hg : s.guard g = true) (h : (s.sreg sa).toNat % 2 ^ 32 ≠ 0) :
    execSleep g sa s = .next (s.modMe fun c => { c with wait := some (.sleep ((s.sreg sa).toNat % 2 ^ 32)) }) := by
  refine congrArg _ (if_neg ?_)
  simp only [hg, h, Bool.not_true, decide_false, Bool.or_self, Bool.false_eq_true, not_false_eq_true]
theorem execPwrAcq_traps {sa : BitVec 6} {i : Inst} (hg : s.guard g = true) (hi : s.me.inst = some i)
    (h : i.limit < (s.sreg sa).toNat % 256) :
    execPwrAcq g sa s = .next (s.trap ⟨16, 0, BitVec.ofNat 64 ((s.sreg sa).toNat % 256)⟩) := by
  simp only [execPwrAcq, hg, hi, Bool.not_true, Bool.false_eq_true, if_false]
  exact congrArg _ (if_pos h)
theorem execPwrAcq_asks {sa : BitVec 6} {i : Inst} (hg : s.guard g = true) (hi : s.me.inst = some i)
    (h : (s.sreg sa).toNat % 256 ≤ i.limit) : execPwrAcq g sa s = .next (s.askPower s.cur.who ((s.sreg sa).toNat % 256)) := by
  simp only [execPwrAcq, hg, hi, Bool.not_true, Bool.false_eq_true, if_false]
  exact congrArg _ (if_neg (Nat.not_lt.2 h))
theorem execPwrRel_asks (hg : s.guard g = true) :
    execPwrRel g s = .next (s.askPower s.cur.who (prtDeflvl (s.part (s.partOf s.cur.who)).ctl)) := congrArg _ (if_pos hg)
theorem prtDeflvl_eq (c : Word) : prtDeflvl c = c.toNat / 2 ^ 24 % 256 := by
  rw [prtDeflvl, natBits, Nat.shiftRight_eq_div_pow]
  rfl
theorem Pair.lit_iff (p : Pair) : p.lit = true ↔ p.state = 2 ∨ p.state = 3 ∨ p.state = 4 := by
  simp [Pair.lit, or_assoc]
theorem execRealign_foreign {sa : BitVec 6} (hg : s.guard g = true)
    (h : 128 ≤ (s.sreg sa).toNat % 256 ∨ s.ownsPair (s.partOf s.cur.who) ((s.sreg sa).toNat % 256) = false) :
    execRealign g sa s = .next (s.trap (tLink 1 ((s.sreg sa).toNat % 256))) := by
  simp only [execRealign, hg, Bool.not_true, Bool.false_eq_true, if_false]
  refine congrArg _ (if_pos ?_)
  simpa using h
theorem execRealign_owned {sa : BitVec 6} (hg : s.guard g = true) (hn : (s.sreg sa).toNat % 256 < 128)
    (h : s.ownsPair (s.partOf s.cur.who) ((s.sreg sa).toNat % 256) = true) : execRealign g sa s = .next (
      let n := (s.sreg sa).toNat % 256
      if !(s.pair n).lit then s.trap (tLink 3 n)
      else s.modMe fun c => { c with wait := some (.realign n (64 * s.mhz) s.cur.ent.pc) }) := by
  simp only [execRealign, hg, Bool.not_true, Bool.false_eq_true, if_false]
  refine congrArg _ (if_neg ?_)
  simpa [h] using hn

/-- Settles O29: each operation by its one equation; a raise by the place that it takes in its die's queue. -/
theorem ringWaitsQuantaSleepPower : Obligations.RingWaitsQuantaSleepPower := by
  unfold Obligations.RingWaitsQuantaSleepPower
  intro g free k b sa s hg who r have' x deflvl asks
  have hasks (i : Instr) (l : Nat) (hi : exec i s = .next (s.askPower who l)) : asks i l := by
    refine ⟨fun h => ⟨_, hi.trans (congrArg _ (State.askPower_lowers h)), State.becomes_modCtx ..⟩, fun h => ?_⟩
    obtain ⟨a, c, hq, hr, ha, hc⟩ := raising_splits (who, l, s.cyc) (s.die (dieOfWho who)).pwrq
    refine ⟨_, hi.trans (congrArg _ (State.askPower_raises h)), ?_, fun w hw => ?_, a, c, hq, ?_, ha, hc⟩
    · rw [State.ctx_modDie, State.ctx_modCtx]
      rfl
    · rw [State.ctx_modDie, State.ctx_modCtx_ne _ _ hw]
    · rw [State.die_modDie, State.die_modCtx, hr]
  refine ⟨fun h => execRwait_met h, fun h => execRwait_blocks hg h,
    fun h => ⟨_, execYield_ends hg h, State.becomes_modMe _⟩, fun h => execYield_alone h, fun h => execSleep_none h,
    fun h => ⟨_, execSleep_holds hg h, State.becomes_modMe _⟩,
    fun i hi => ⟨fun h => execPwrAcq_traps hg hi h, fun h => hasks _ _ (execPwrAcq_asks hg hi h)⟩, ?_,
    fun h => execRealign_foreign hg h, fun hn hown => ⟨fun h2 h3 h4 => ?_, fun h => ?_⟩⟩
  · have hrel := execPwrRel_asks hg
    rw [prtDeflvl_eq] at hrel
    exact hasks _ _ hrel
  · have hdark : (s.pair (x % 256)).lit = false := Bool.eq_false_iff.2 fun hl => by
      obtain hl | hl | hl := (Pair.lit_iff _).1 hl
      · exact h2 hl
      · exact h3 hl
      · exact h4 hl
    exact (execRealign_owned hg hn hown).trans (congrArg _ (if_pos (by rw [hdark]; rfl)))
  · have hlit := (Pair.lit_iff _).2 h
    exact ⟨_, (execRealign_owned hg hn hown).trans (congrArg _ (if_neg (by rw [hlit]; exact Bool.false_ne_true))),
      State.becomes_modMe _⟩

/-! ## Holds that end -/

/-- A flag reads the same once answered reads have left: no store on its way to a drawer is among them. -/
theorem State.flagValue_forget {g : List Nat} (h : s.answered g = true) (who addr key : Nat) :
    (s.forget g).flagValue who addr key = s.flagValue who addr key := by
  have hover : (s.forget g).overlay who = s.overlay who := by
    have hreqs : (s.forget g).fab.reqs.filter (fun r => r.who == who && r.kind == 1 && r.cmd.isNone && !r.done) =
        s.fab.reqs.filter fun r => r.who == who && r.kind == 1 && r.cmd.isNone && !r.done := by
      rw [State.forget, List.filter_filter]
      refine List.filter_congr fun r hr => ?_
      have hserved := List.all_eq_true.1 h r hr
      cases hc : g.contains r.id with
      | false => simp
      | true =>
        have hdone : r.done = true := by simpa only [hc, Bool.not_true, Bool.false_or] using hserved
        simp [hdone]
    exact congrArg (fun l : List DReq => l.map (fun r => (r.unit, r.mask, r.val)) ++ _) hreqs
  refine congrArg (BitVec.ofNat 64) ?_
  rw [State.elemBy, State.elemBy, hover]
  rfl

section
variable {who addr key cls cond : Nat} {g : List Nat} {v : Word}

theorem execWaitSatisfied_met (hw : (s.ctx who).wait = some (.wait addr key cls g cond v)) (ha : s.answered g = true)
    (ht : waitTest cond (s.flagValue who addr key) v = true) : execWaitSatisfied who s =
      .next ((s.forget g).modCtx who fun c => { c.popQ .y with wait := none }) := by
  rw [← State.flagValue_forget ha] at ht
  simp only [execWaitSatisfied, hw, ha, ht]
  rfl
theorem execWaitSatisfied_unmet (hw : (s.ctx who).wait = some (.wait addr key cls [] cond v))
    (ht : waitTest cond (s.flagValue who addr key) v = false) : execWaitSatisfied who s = .next s := by
  simp only [execWaitSatisfied, hw, State.answered_nil, State.forget_nil, ht]
  rfl
/-- A read that does not meet the condition is followed by another. -/
theorem execWaitSatisfied_again (hw : (s.ctx who).wait = some (.wait addr key cls g cond v)) (ha : s.answered g = true) (hg : g ≠ [])
    (ht : waitTest cond (s.flagValue who addr key) v = false) : ∃ pc, execWaitSatisfied who s = .next (
      let r := (s.forget g).askFlag who addr cls pc 7
      r.2.modCtx who fun c => { c with wait := some (.wait addr key cls r.1 cond v) }) := by
  rw [← State.flagValue_forget ha] at ht
  simp only [execWaitSatisfied, hw, ha, ht, List.isEmpty_eq_false_iff.2 hg]
  exact ⟨_, rfl⟩
theorem execBarrierPass_met (hw : (s.ctx who).wait = some (.bar addr key cls g (some v))) (ha : s.answered g = true)
    (hnow : drawerOf (addr / 8) = none ∨ g ≠ []) (ht : waitTest 0 (s.flagValue who addr key) v = true) :
    execBarrierPass who s = .next ((s.forget g).modCtx who fun c => { c with wait := none }) := by
  have hnow : (!(drawerOf (addr / 8)).isSome || !g.isEmpty) = true := by
    obtain h | h := hnow
    · rw [h]; rfl
    · rw [List.isEmpty_eq_false_iff.2 h, Bool.not_false, Bool.or_true]
  rw [← State.flagValue_forget ha] at ht
  simp only [execBarrierPass, hw, ha, ht, hnow]
  rfl
theorem execBarrierPass_unmet (hw : (s.ctx who).wait = some (.bar addr key cls [] (some v))) (hd : drawerOf (addr / 8) = none)
    (ht : waitTest 0 (s.flagValue who addr key) v = false) : execBarrierPass who s = .next s := by
  simp only [execBarrierPass, hw, State.answered_nil, State.forget_nil, ht, hd]
  rfl
theorem execBarrierPass_again {d : Nat} (hw : (s.ctx who).wait = some (.bar addr key cls g (some v))) (ha : s.answered g = true)
    (hd : drawerOf (addr / 8) = some d) (ht : waitTest 0 (s.flagValue who addr key) v = false) : ∃ pc, execBarrierPass who s = .next (
      let r := (s.forget g).askFlag who addr cls pc 7
      r.2.modCtx who fun c => { c with wait := some (.bar addr key cls r.1 (some v)) }) := by
  rw [← State.flagValue_forget ha] at ht
  simp only [execBarrierPass, hw, ha, ht, hd, Bool.and_false]
  exact ⟨_, rfl⟩
end

theorem execSleepExpiry_last {who : Nat} (hw : (s.ctx who).wait = some (.sleep 0)) :
    execSleepExpiry who s = .next (s.modCtx who fun c => { c with wait := none }) := by
  simp only [execSleepExpiry, hw]
theorem execSleepExpiry_early {who m : Nat} (hw : (s.ctx who).wait = some (.sleep (m + 1))) : execSleepExpiry who s = .next s := by
  simp only [execSleepExpiry, hw]
theorem execPowerGrant_grants {die who l at' : Nat} {r : List (Nat × Nat × Nat)} (hq : (s.die die).pwrq = (who, l, at') :: r)
    (hs : (s.ctx who).susp = false) (hw : (s.ctx who).wait = some (.power l))
    (hm : s.mayGrant die (s.partOf who) (l - (s.ctx who).level) = true) : execPowerGrant die s =
      .next ((s.modDie die fun d => { d with pwrq := r }).modCtx who fun c => { c with level := l, wait := none }) := by
  simp only [execPowerGrant, hq, hs, hw, hm, bne_self_eq_false]
  rfl

/-! ## Realignment (R221, R375) -/

/-- The error that a realignment leaves, by the free bits drawn. -/
def phaseError (b : BitVec 3) : BitVec 32 := if b.setWidth 2 = 1#2 then 1 else if b.setWidth 2 = 2#2 then -1 else 0
/-- Pair `n` after a realignment: the end whose count is stepped takes the other's, but for the error. -/
def Pair.realigned (p : Pair) (n : Nat) (b : BitVec 3) : Pair :=
  if n < 64 || (b.getLsbD 2 && decide (0 < (p.far - p.phase).toInt)) then { p with phase := p.far + phaseError b }
  else { p with far := p.phase - phaseError b }
theorem phaseError_cases (b : BitVec 3) : phaseError b = 0 ∨ phaseError b = 1 ∨ phaseError b = -1 := by
  unfold phaseError
  split
  · exact .inr (.inl rfl)
  · split
    · exact .inr (.inr rfl)
    · exact .inl rfl
theorem Pair.pherr_realigned (p : Pair) (n : Nat) (b : BitVec 3) :
    (p.realigned n b).pherr = 0 ∨ (p.realigned n b).pherr = 1 ∨ (p.realigned n b).pherr = -1 := by
  have hdiff : (p.realigned n b).phase - (p.realigned n b).far = phaseError b := by
    unfold Pair.realigned
    split
    · exact add_sub_cancel_left _ _
    · exact sub_sub_cancel _ _
  unfold Pair.pherr
  rw [hdiff]
  obtain h | h | h := phaseError_cases b
  · exact .inl (by rw [h]; decide)
  · exact .inr (.inl (by rw [h]; decide))
  · exact .inr (.inr (by rw [h]; decide))
theorem Pair.realigned_drawer (p : Pair) {n : Nat} (b : BitVec 3) (h : n < 64) : (p.realigned n b).far = p.far := by
  simp [Pair.realigned, h]
theorem Pair.realigned_peer (p : Pair) {n : Nat} (b : BitVec 3) (h : 64 ≤ n) : (p.realigned n b).phase = p.phase ∨
    (p.realigned n b).far = p.far ∧ 0 < (p.far - p.phase).toInt := by
  unfold Pair.realigned
  split
  · next hp =>
    refine .inr ⟨rfl, ?_⟩
    simpa [Nat.not_lt.2 h] using (by simpa [Nat.not_lt.2 h] using hp : b.getLsbD 2 = true ∧ 0 < (p.far - p.phase).toInt).2
  · exact .inl rfl
theorem execRealignDone_aligns {who n left : Nat} {pc : Word} (hw : (s.ctx who).wait = some (.realign n left pc))
    (hl : (s.pair n).lit = true) (h : left ≠ 0) : ∃ b, execRealignDone who s =
      .next (((s.draw 3).2.modPair n fun p => p.realigned n b).modCtx who fun c => { c with wait := none }) := by
  simp only [execRealignDone, hw, hl, h]
  exact ⟨_, rfl⟩
theorem execRealignTimeout_traps {who n left : Nat} {pc : Word} (hw : (s.ctx who).wait = some (.realign n left pc))
    (h : (s.pair n).lit = false ∨ left = 0) : execRealignTimeout who s = .next (s.takeTrap who (tLink 3 n) 7 pc) := by
  simp only [execRealignTimeout, hw]
  refine congrArg _ (if_pos ?_)
  obtain h | h := h <;> simp [h]

/-- Settles O30: each event by the hold that it finds and what the flag, the die or the pair then reads. -/
theorem eventsEndHolds : Obligations.EventsEndHolds := by
  unfold Obligations.EventsEndHolds
  intro who addr key cls cond die l n left v pc r s c f met lit free
  have hbar (h : (f - v).toInt < 0) : waitTest 0 f v = false := decide_eq_false (Int.not_le.2 h)
  refine ⟨fun hw hc => ⟨fun hm => ?_, fun hm => execWaitSatisfied_unmet hw (waitTest_false hc hm)⟩, fun hw hd => ⟨fun hm => ?_, fun hm =>
    execBarrierPass_unmet hw hd (hbar hm)⟩, fun g d k hd ha => ?_, fun hw => ⟨fun h0 => ?_, fun h0 => ?_⟩, fun at' hq hw hs hm => ?_,
    fun hw => ⟨fun hl h0 => ?_, fun h => ?_⟩⟩
  · refine ⟨_, execWaitSatisfied_met hw State.answered_nil ((waitTest_iff hc f v).2 hm), ?_⟩
    rw [State.forget_nil]
    exact State.becomes_modCtx ..
  · refine ⟨_, execBarrierPass_met hw State.answered_nil (.inl hd) (decide_eq_true hm), ?_⟩
    rw [State.forget_nil]
    exact State.becomes_modCtx ..
  · intro again ends
    have hagain (i : Instr) (h : List Nat → Hold) (hi : ∃ pc, exec i s = .next (
        let q := (s.forget (k :: g)).askFlag who addr cls pc 7
        q.2.modCtx who fun c => { c with wait := some (h q.1) })) : again i h := by
      obtain ⟨pc, hi⟩ := hi
      refine ⟨_, (s.forget (k :: g)).flagReq who addr cls d pc 7, (s.forget (k :: g)).fab.reqs, hi, ?_⟩
      rw [State.askFlag_far _ _ _ _ hd]
      exact ⟨rfl, rfl, rfl, rfl, rfl, rfl, rfl, rfl, State.ctx_modCtx .., rfl⟩
    have hends (i : Instr) (e : Ctx → Ctx) (hi : exec i s = .next ((s.forget (k :: g)).modCtx who e)) : ends i (e c) :=
      ⟨_, hi, State.ctx_modCtx .., rfl, fun w hw => State.ctx_modCtx_ne _ _ hw⟩
    have hasked : k :: g ≠ [] := List.cons_ne_nil k g
    exact ⟨fun hw hc => ⟨fun hm => hends (.waitSatisfied who) (fun c => { c.popQ .y with wait := none })
        (execWaitSatisfied_met hw ha ((waitTest_iff hc f v).2 hm)),
      fun hm => hagain (.waitSatisfied who) (fun g => .wait addr key cls g cond v)
        (execWaitSatisfied_again hw ha hasked (waitTest_false hc hm))⟩,
      fun hw => ⟨fun hm => hends (.barrierPass who) (fun c => { c with wait := none })
        (execBarrierPass_met hw ha (.inr hasked) (decide_eq_true hm)),
      fun hm => hagain (.barrierPass who) (fun g => .bar addr key cls g (some v)) (execBarrierPass_again hw ha hd (hbar hm))⟩⟩
  · subst h0
    exact ⟨_, execSleepExpiry_last hw, State.becomes_modCtx ..⟩
  · obtain ⟨m, rfl⟩ := Nat.exists_eq_succ_of_ne_zero h0.ne'
    exact execSleepExpiry_early hw
  · refine ⟨_, execPowerGrant_grants hq hs hw hm, ?_, ?_, rfl⟩
    · exact State.ctx_modCtx ..
    · rw [State.die_modCtx, State.die_modDie]
  · obtain ⟨b, hi⟩ := execRealignDone_aligns hw ((Pair.lit_iff _).2 hl) h0
    have hpair : (((s.draw 3).2.modPair n fun p => p.realigned n b).modCtx who fun c => { c with wait := none }).pair n =
        (s.pair n).realigned n b := by rw [State.pair_modCtx, State.pair_modPair]; rfl
    refine ⟨_, hi, State.ctx_modCtx .., ?_, fun hn => ?_, fun hn => ?_, rfl⟩
    · rw [hpair]
      exact Pair.pherr_realigned ..
    · rw [hpair]
      exact Pair.realigned_drawer _ _ hn
    · rw [hpair]
      exact Pair.realigned_peer _ _ hn
  · refine execRealignTimeout_traps hw (h.imp_left fun hl => Bool.eq_false_iff.2 (mt (Pair.lit_iff _).1 hl))
end Sys2Proof.Machine
end

section
/-! The ends of engine commands (R204, R205, R207, R208): what leaves with a command, its record, and an expert fetch's two
outcomes. -/

namespace Sys2Proof.Machine

variable {s t : State} {r : ECmdRec} {id : Nat}

/-! ## A command leaves -/

/-- The credits of a command's ring slots arise. -/
def State.creditCmd (s : State) (r : ECmdRec) : State :=
  let s := match r.srcRing with | some (c, n) => s.modRing c n fun q => q.credit 1 0 false r.id | none => s
  match r.dstRing with | some (c, n) => s.modRing c n fun q => q.credit 0 1 false r.id | none => s
/-- What of the fabric a command leaves behind: no request, arm or record of a flit's pair is its own. -/
def Fabric.without (f : Fabric) (r : ECmdRec) : Fabric :=
  { f with carried := f.carried.filter fun c => !(r.opc == 0x08 && c.1 == r.port && c.2.1 == r.sq),
           reqs := f.reqs.filter fun q => !(r.gates.contains q.id || q.cmd == some r.id),
           recvs := f.recvs.map fun p => (p.1, p.2.filter fun i => i != r.id) }
/-- The machine without a command, but with its record still pending. -/
def State.retired (s : State) (r : ECmdRec) : State :=
  let s := s.creditCmd r
  let s := s.setPart r.part ((s.part r.part).undefer none (some r.id))
  let s := s.modDie (dieOfWho r.who) fun d => { d with sends := d.sends.map fun p => (p.1, p.2.filter fun i => i != r.id) }
  { s with cmds := s.cmds.filter (fun c => c.id != r.id), fab := s.fab.without r }
theorem State.endCmd_eq (st : Nat) : s.endCmd r st =
    if r.nq then (s.retired r).quietDone r.id else (s.retired r).deliver r.who 2 r.id (r.record st) := rfl
theorem State.creditCmd_rest : s.creditCmd r = { s with cores := (s.creditCmd r).cores } := by
  unfold State.creditCmd
  dsimp only
  split <;> split <;> rfl
theorem State.creditCmd_unbound (hs : r.srcRing = none) (hd : r.dstRing = none) : s.creditCmd r = s := by
  simp only [State.creditCmd, hs, hd]
theorem State.retired_rest : s.retired r = { s with
    cores := (s.creditCmd r).cores, parts := (s.retired r).parts, dies := (s.retired r).dies,
    cmds := s.cmds.filter fun c => c.id != r.id, fab := s.fab.without r } := by
  unfold State.retired
  rw [State.creditCmd_rest]
  rfl
theorem State.retired_mem : (s.retired r).mem = s.mem := by rw [State.retired_rest]
theorem State.retired_svc : (s.retired r).svc = s.svc := by rw [State.retired_rest]
theorem State.retired_ctxs : (s.retired r).ctxs = s.ctxs := by rw [State.retired_rest]
theorem State.retired_ctx (w : Nat) : (s.retired r).ctx w = s.ctx w := by rw [State.ctx, State.retired_ctxs]; rfl
theorem State.retired_cmds : (s.retired r).cmds = s.cmds.filter fun c => c.id != r.id := by rw [State.retired_rest]
theorem State.retired_fab : (s.retired r).fab = s.fab.without r := by rw [State.retired_rest]
theorem State.retired_cores (hs : r.srcRing = none) (hd : r.dstRing = none) : (s.retired r).cores = s.cores := by
  rw [State.retired_rest, State.creditCmd_unbound hs hd]

/-- The machine once a command's record has reached its context. -/
def State.recorded (s : State) (r : ECmdRec) (st : Nat) : State :=
  if r.nq then s.retired r else (s.retired r).modCtx r.who fun c => c.gotRecord 2 r.id (r.record st)
theorem State.memOnly_endCmd (st : Nat) : (s.recorded r st).MemOnly (s.endCmd r st) := by
  rw [State.endCmd_eq, State.recorded]
  split
  · exact State.memOnly_quietDone _
  · exact State.memOnly_deliver ..
/-- Where no saved context waits for a command, its end leaves memory as it was. -/
theorem State.endCmd_mem (st : Nat) (h : s.Unsaved r.id) : (s.endCmd r st).mem = s.mem := by
  have hu : (s.retired r).Unsaved r.id := by rw [State.Unsaved, State.retired_svc]; exact h
  rw [State.endCmd_eq]
  split
  · rw [State.quietDone_unsaved hu, State.retired_mem]
  · rw [State.deliver_unsaved hu, State.modCtx_mem, State.retired_mem]
theorem State.endCmd_cmds (st : Nat) : (s.endCmd r st).cmds = s.cmds.filter fun c => c.id != r.id := by
  rw [(State.memOnly_endCmd st).cmds, State.recorded, ← State.retired_cmds]
  split <;> rfl
theorem State.endCmd_fab (st : Nat) : (s.endCmd r st).fab = s.fab.without r := by
  rw [(State.memOnly_endCmd st).fab, State.recorded, ← State.retired_fab]
  split <;> rfl
theorem State.endCmd_ring (st : Nat) (hs : r.srcRing = none) (hd : r.dstRing = none) (c n : Nat) :
    (s.endCmd r st).ring c n = s.ring c n := by
  have hcores : (s.recorded r st).cores = s.cores := by
    rw [State.recorded]
    split
    · exact State.retired_cores hs hd
    · exact (State.modCtx_cores ..).trans (State.retired_cores hs hd)
  rw [State.ring, State.core, (State.memOnly_endCmd st).cores, hcores]
  rfl
theorem State.endCmd_ctxs (st : Nat) (h : r.nq = true) : (s.endCmd r st).ctxs = s.ctxs := by
  rw [(State.memOnly_endCmd st).ctxs, State.recorded, if_pos h, State.retired_ctxs]
theorem State.endCmd_ctx (st : Nat) (h : r.nq = false) :
    (s.endCmd r st).ctx r.who = (s.ctx r.who).gotRecord 2 r.id (r.record st) := by
  rw [(State.memOnly_endCmd st).ctx, State.recorded, if_neg (ne_true_of_eq_false h), State.ctx_modCtx, State.retired_ctx]
theorem Ctx.rqGet_gotRecord (c : Ctx) (q id data : Nat) : (c.gotRecord q id data).rqGet q = arrive id data (c.rqGet q) :=
  aget_aset_self ..

/-! ## What the end of a command shows -/

/-- The record of a command with status `st` has reached its entry of q2; one without a record leaves its context as it was. -/
structure State.Reports (s t : State) (r : ECmdRec) (st : Nat) : Prop where
  quiet  : r.nq = true → t.ctx r.who = s.ctx r.who
  record : r.nq = false → (t.ctx r.who).rqGet 2 = arrive r.id (r.record st) ((s.ctx r.who).rqGet 2)
theorem State.endCmd_reports (st : Nat) : s.Reports (s.endCmd r st) r st := by
  refine ⟨fun h => ?_, fun h => ?_⟩
  · rw [State.ctx, State.endCmd_ctxs st h]
    rfl
  · rw [State.endCmd_ctx st h, Ctx.rqGet_gotRecord]
theorem State.Reports.from_same {u : State} {st : Nat} (h : u.Reports t r st) (hc : u.ctx r.who = s.ctx r.who) : s.Reports t r st :=
  ⟨fun hn => (h.quiet hn).trans hc, fun hn => by rw [h.record hn, hc]⟩
theorem State.endCmd_gone (st : Nat) : ∀ x ∈ (s.endCmd r st).cmds, x.id ≠ r.id := by
  intro x hx
  rw [State.endCmd_cmds] at hx
  simpa using (List.mem_filter.1 hx).2
theorem State.cmd_id (h : s.cmd id = some r) : r.id = id := eq_of_beq (List.find?_some h :)
theorem State.putElem_svc (e : Elem) (v : Nat) : (s.putElem e v).svc = s.svc := by
  unfold State.putElem
  split
  · exact State.writeUnit_svc ..
  · refine foldl_leaves State.svc _ (fun _ _ => ?_) s
    rfl
theorem State.moveNear_svc : (s.moveNear r).svc = s.svc := foldl_leaves State.svc _ (fun _ _ => State.putElem_svc ..) s
theorem State.Unsaved.of_svc (h : s.Unsaved id) (e : t.svc = s.svc) : t.Unsaved id := by rw [State.Unsaved, e]; exact h
theorem State.ring_modRing_other {d f : Nat × Nat} (g : Ring → Ring) (h : f ≠ d) : (s.modRing d.1 d.2 g).ring f.1 f.2 = s.ring f.1 f.2 := by
  by_cases hc : f.1 = d.1
  · rw [hc]
    exact State.ring_modRing_ne _ _ fun hn => h (Prod.ext hc hn)
  · exact State.ring_modRing_far _ _ hc _

/-! ## The ends, event by event -/

/-- The opcodes that end with their moves, and an `exf` that delivered its token at once. -/
theorem execEngineCommandComplete_ends (hc : s.cmd id = some r)
    (ho : r.opc = 1 ∨ r.opc = 2 ∨ r.opc = 3 ∨ r.opc = 4 ∨ (r.opc = 0x18 ∧ r.resolved = true ∧ (!r.closed) = true))
    (hg : s.gated r = true) : execEngineCommandComplete id s = .next (((s.judge r).2.moveNear r).endCmd r (s.judge r).1) := by
  simp only [execEngineCommandComplete, hc, hg]
  exact congrArg _ (if_neg (by simp only [ho, decide_true]; decide))
theorem State.judge_good (h : s.badSource r = none) : s.judge r = (r.status, s) := by
  simp only [State.judge, h]
theorem State.judge_bad {u : Nat} (h : s.badSource r = some u) (hs : r.status = 0) :
    s.judge r = (4, s.noteData r.who (u * 64 % 2 ^ 44)) := by
  simp only [State.judge, h, hs, if_true]
/-- A command with good sources ends with its moves made and its own status. -/
theorem State.ends_good {st : Nat} (ht : t = (s.moveNear r).endCmd r st) : (∀ x ∈ t.cmds, x.id ≠ r.id) ∧
    (s.Unsaved r.id → t.mem = (s.moveNear r).mem) ∧ s.Reports t r st := by
  subst ht
  exact ⟨State.endCmd_gone st, fun h => State.endCmd_mem st (h.of_svc State.moveNear_svc),
    (State.endCmd_reports st).from_same ((State.memOnly_moveNear r).ctx _)⟩
/-- An `exf` block in time: the destination slot is pushed, and the fallback slot returned. -/
def State.blockLanded (s : State) (r : ECmdRec) (id : Nat) (d f : Nat × Nat) : State :=
  ((s.moveNear r).modRing d.1 d.2 fun q => q.land id).modRing f.1 f.2 Ring.unreserve
theorem execExfBlockLands_lands {d f : Nat × Nat} {adr : Nat} (hc : s.cmd id = some r) (ho : r.opc = 24) (hr : r.resolved = false)
    (hd : r.dstRing = some d) (hf : r.fallback = some (f.1, f.2, adr)) (ht : r.deadline ≠ some 0) (hg : s.gated r = true)
    (hb : s.badSource r = none) : execExfBlockLands id s =
      .next ((s.blockLanded r id d f).endCmd { r with dstRing := none } r.status) := by
  have ht : (r.deadline == some 0) = false := beq_eq_false_iff_ne.2 ht
  simp only [execExfBlockLands, hc, ho, hr, hd, hf, ht, hg, State.judge_good hb]
  rfl
/-- An `exf` whose deadline passes: the destination slot is returned, and the token delivered into the fallback slot. -/
def State.tokenGiven (s : State) (r : ECmdRec) (d f : Nat × Nat) (adr : Nat) : State :=
  (s.modRing d.1 d.2 Ring.unreserve).giveToken f.1 f.2 adr r.token r.id
/-- The record of a missed deadline has no units. -/
def State.missed (s : State) (r : ECmdRec) : State :=
  if r.nq then s.quietDone r.id else s.deliver r.who 2 r.id ({ r with units := 0 }.record 1)
theorem execExfDeadline_passes {d f : Nat × Nat} {adr : Nat} (hc : s.cmd r.id = some r) (ho : r.opc = 24) (hr : r.resolved = false)
    (hd : r.dstRing = some d) (hf : r.fallback = some (f.1, f.2, adr)) (ht : r.deadline = some 0) : execExfDeadline r.id s =
      .next (((s.tokenGiven r d f adr).missed r).setCmd { r with resolved := true, closed := true, dstRing := none }) := by
  obtain ⟨⟩ := r
  subst ho hr hd hf ht
  simp only [execExfDeadline, hc]
  rfl
theorem State.memOnly_missed : (if r.nq then s else s.modCtx r.who fun c => c.gotRecord 2 r.id ({ r with units := 0 }.record 1)).MemOnly
    (s.missed r) := by
  unfold State.missed
  split
  · exact State.memOnly_quietDone _
  · exact State.memOnly_deliver ..
theorem State.missed_mem (h : s.Unsaved r.id) : (s.missed r).mem = s.mem := by
  unfold State.missed
  split
  · rw [State.quietDone_unsaved h]
  · rw [State.deliver_unsaved h, State.modCtx_mem]
theorem State.missed_reports : s.Reports (s.missed r) { r with units := 0 } 1 := by
  refine ⟨fun h => ?_, fun h => ?_⟩
  · rw [State.memOnly_missed.ctx, if_pos h]
  · rw [State.memOnly_missed.ctx, if_neg (ne_true_of_eq_false h), State.ctx_modCtx, Ctx.rqGet_gotRecord]
theorem State.missed_ring (c n : Nat) : (s.missed r).ring c n = s.ring c n := by
  rw [State.memOnly_missed.ring]
  split <;> rfl
theorem State.missed_cmds : (s.missed r).cmds = s.cmds := by
  rw [State.memOnly_missed.cmds]
  split <;> rfl
/-- An element that replaces the one under its number is found in its place. -/
theorem find?_replaced {α : Type} (key : α → Nat) {k : Nat} {a b : α} {l : List α} (h : l.find? (fun x => key x == k) = some a)
    (hb : key b = k) : (l.map fun x => if key x = k then b else x).find? (fun x => key x == k) = some b := by
  induction l with
  | nil => cases h
  | cons x l ih =>
    by_cases hx : key x = k
    · simp [hx, hb]
    · rw [List.find?_cons_of_neg (by simpa using hx)] at h
      simpa [hx] using ih h
theorem State.cmd_setCmd {c : ECmdRec} (hc : s.cmd id = some r) (hid : c.id = id) : (s.setCmd c).cmd id = some c := by
  subst hid
  exact find?_replaced ECmdRec.id hc rfl
theorem execLateBlockDiscard_discards (hc : s.cmd id = some r) (hcl : r.closed = true) (hg : s.gated r = true) :
    execLateBlockDiscard id s = .next (s.endCmd { r with nq := true } 1) := by
  simp only [execLateBlockDiscard, hc, hcl, hg]
  rfl

/-- Settles O40: each event takes its command from the others and gives its record, by the laws of `State.endCmd`. -/
theorem engineCommandsEnd : Obligations.EngineCommandsEnd := by
  unfold Obligations.EngineCommandsEnd
  intro id r s hc reports gone writes
  have hid : r.id = id := State.cmd_id hc
  subst hid
  have hreports {t : State} {st : Nat} (units : Nat) (h : s.Reports t { r with units := units } st) : reports t units st :=
    ⟨h.quiet, h.record⟩
  have hdone (ho : r.opc = 1 ∨ r.opc = 2 ∨ r.opc = 3 ∨ r.opc = 4 ∨ (r.opc = 0x18 ∧ r.resolved = true ∧ (!r.closed) = true))
      (hg : s.gated r = true) (hb : s.badSource r = none) :
      ∃ t, exec (.engineCommandComplete r.id) s = .next t ∧ gone t ∧ writes t (s.moveNear r) ∧ reports t r.units r.status := by
    refine ⟨_, execEngineCommandComplete_ends hc ho hg, ?_⟩
    rw [State.judge_good hb]
    obtain ⟨hgone, hmem, hrec⟩ := State.ends_good (s := s) (r := r) (st := r.status) rfl
    exact ⟨hgone, hmem, hreports r.units hrec⟩
  refine ⟨fun ho hg hb => hdone (ho.imp_right (Or.imp_right (Or.imp_right .inl))) hg hb, fun u ho hg hb hst hnq => ?_,
    fun ho hr hsrc d f adr hd hf hne => ⟨fun ht hg hb => ?_, fun ht => ?_⟩, fun hcl hg => ?_, fun ho hr hcl hg hb => ?_⟩
  · refine ⟨_, execEngineCommandComplete_ends hc (by tauto) hg, State.endCmd_gone _, ?_⟩
    rw [State.judge_bad hb hst]
    have hctx : ((s.noteData r.who (u * 64 % 2 ^ 44)).moveNear r).ctx r.who =
        { s.ctx r.who with flt := { (s.ctx r.who).flt with derr := true, derra := BitVec.ofNat 64 (u * 64 % 2 ^ 44) } } := by
      rw [(State.memOnly_moveNear r).ctx]
      exact State.ctx_modCtx ..
    have hend := State.endCmd_ctx (s := (s.noteData r.who (u * 64 % 2 ^ 44)).moveNear r) 4 hnq
    rw [hctx] at hend
    refine ⟨⟨fun h => absurd h (by simp [hnq]), fun _ => ?_⟩, ?_, ?_⟩
    · rw [hend, Ctx.rqGet_gotRecord]
      rfl
    · rw [hend]
      rfl
    · rw [hend]
      rfl
  · refine ⟨_, execExfBlockLands_lands hc ho hr hd hf ht hg hb, State.endCmd_gone _, fun h => ?_, hreports r.units ?_, ?_, ?_⟩
    · exact State.endCmd_mem r.status (r := { r with dstRing := none })
        (State.Unsaved.of_svc (s := s) h (State.moveNear_svc (r := r)))
    · have hrec := State.endCmd_reports (s := s.blockLanded r r.id d f) (r := { r with dstRing := none }) r.status
      exact ⟨fun h => (hrec.quiet h).trans ((State.memOnly_moveNear r).ctx _), fun h => (hrec.record h).trans
        (congrArg (fun c : Ctx => arrive r.id (r.record r.status) (c.rqGet 2)) ((State.memOnly_moveNear r).ctx _))⟩
    · rw [State.endCmd_ring r.status (r := { r with dstRing := none }) hsrc rfl, State.blockLanded, State.ring_modRing_other _ hne,
        State.ring_modRing, (State.memOnly_moveNear r).ring]
    · rw [State.endCmd_ring r.status (r := { r with dstRing := none }) hsrc rfl, State.blockLanded, State.ring_modRing,
        State.ring_modRing_other _ hne.symm, (State.memOnly_moveNear r).ring]
  · refine ⟨_, execExfDeadline_passes hc ho hr hd hf ht, fun h => ?_, hreports 0 ?_, ?_, ?_, ?_⟩
    · exact State.missed_mem (s := s.tokenGiven r d f adr) h
    · have hrec := State.missed_reports (s := s.tokenGiven r d f adr) (r := r)
      exact ⟨hrec.quiet, hrec.record⟩
    · refine (State.missed_ring ..).trans ?_
      rw [State.tokenGiven, State.giveToken, State.ring_modRing_other _ hne]
      exact State.ring_modRing ..
    · refine (State.missed_ring ..).trans ?_
      rw [State.tokenGiven, State.giveToken, State.ring_modRing]
      exact congrArg (Ring.land · r.id) (State.ring_modRing_other _ hne.symm)
    · refine State.cmd_setCmd (r := r) ?_ rfl
      rw [State.cmd, State.missed_cmds]
      exact hc
  · exact ⟨_, execLateBlockDiscard_discards hc hcl hg, State.endCmd_gone (r := { r with nq := true }) 1,
      fun h => State.endCmd_mem (r := { r with nq := true }) 1 h, (State.endCmd_reports (r := { r with nq := true }) 1).quiet rfl⟩
  · obtain ⟨t, ht, hgone, -, hrec⟩ := hdone (.inr (.inr (.inr (.inr ⟨ho, hr, by rw [hcl]; rfl⟩)))) hg hb
    exact ⟨t, ht, hgone, hrec⟩
end Sys2Proof.Machine
end

section
/-! Engine commands that issue (R203 to R210): what each takes, the record it joins the commands with, and its pending entry
of q2. -/

namespace Sys2Proof.Machine

variable {s t u v : State} {c : ECmd}

/-! ## What a command finds as it joins the others -/

/-- What a command joins is as it was: the commands, the contexts, and the operation that issues. -/
structure State.Front (s t : State) : Prop where
  cmds : t.cmds = s.cmds
  ctxs : t.ctxs = s.ctxs
  cur  : t.cur = s.cur
theorem State.Front.trans (h : s.Front t) (k : t.Front u) : s.Front u := ⟨k.cmds.trans h.cmds, k.ctxs.trans h.ctxs, k.cur.trans h.cur⟩
theorem State.MemOnly.front (h : s.MemOnly t) : s.Front t := ⟨h.cmds, h.ctxs, (congrArg State.cur h.eq :)⟩
theorem State.front_newId : s.Front s.newId.2 := ⟨rfl, rfl, rfl⟩
/-- Nothing but identifiers and the drawers' requests differs. -/
structure State.Asked (s t : State) : Prop where
  eq : t = { s with ids := t.ids, fab := { s.fab with reqs := t.fab.reqs } }
theorem State.Asked.refl (s : State) : s.Asked s := ⟨rfl⟩
theorem State.Asked.trans (h : s.Asked t) (k : t.Asked u) : s.Asked u := ⟨by rw [k.eq, h.eq]⟩
theorem State.askDrawer_asked (who part cls kind : Nat) (cmd : Option Nat) (us : List Nat) :
    s.Asked (s.askDrawer who part cls kind cmd us).2 := by
  refine foldl_related (R := fun p q : List Nat × State => p.2.Asked q.2) (fun _ => ⟨rfl⟩) (fun _ _ _ => .trans) (fun r u => ?_) us ([], s)
  split <;> exact ⟨rfl⟩
theorem State.Asked.front (h : s.Asked t) : s.Front t :=
  ⟨(congrArg State.cmds h.eq :), (congrArg State.ctxs h.eq :), (congrArg State.cur h.eq :)⟩
theorem State.Asked.cores (h : s.Asked t) : t.cores = s.cores := (congrArg State.cores h.eq :)
theorem State.Asked.ring (h : s.Asked t) (k n : Nat) : t.ring k n = s.ring k n := by rw [State.ring, State.core, h.cores]; rfl
theorem State.gateMoves_asked (part cls id : Nat) (l : List (Elem × Elem)) : s.Asked (s.gateMoves part cls id l).2 :=
  (State.askDrawer_asked ..).trans (State.askDrawer_asked ..)
theorem State.takeRings_front (a b : Option Nat) (id : Nat) : s.Front (s.takeRings a b id) := by
  cases a <;> cases b <;> exact ⟨rfl, rfl, rfl⟩
theorem State.takeRings_dies (a b : Option Nat) (id : Nat) : (s.takeRings a b id).dies = s.dies := by
  cases a <;> cases b <;> rfl
theorem State.takeRings_fab (a b : Option Nat) (id : Nat) : (s.takeRings a b id).fab = s.fab := by
  cases a <;> cases b <;> rfl
/-- The slots a command takes depend on the rings and the core of the operation. -/
theorem State.takeRings_cores (hcores : t.cores = s.cores) (hcur : t.cur = s.cur) (a b : Option Nat) (id : Nat) :
    (t.takeRings a b id).cores = (s.takeRings a b id).cores := by
  cases a <;> cases b <;>
    simp only [State.takeRings, State.modRing, State.modCore, State.setCore, State.core, hcores, hcur]

/-! ## A command joins the others (R203, R204) -/

/-- A command's record as it stands among the commands. -/
def State.stamped (s : State) (r : ECmdRec) : ECmdRec :=
  { r with order := s.ids, cyc := s.cyc, task := (s.me.inst.map fun i => i.taskno).getD 0 }
/-- A command has joined the others, and its pending record, if it asked for one, stands behind those of q2. -/
structure State.Joined (s t : State) (r : ECmdRec) : Prop where
  cmds    : t.cmds = s.cmds ++ [r]
  quiet   : r.nq = true → (t.ctx s.cur.who).rq = s.me.rq
  pending : r.nq = false → (t.ctx s.cur.who).rqGet 2 = s.me.rqGet 2 ++ [{ id := r.id, seq := s.cur.ent.seq }]
theorem State.Front.joined (h : s.Front u) (r : ECmdRec) : s.Joined (u.addCmd 2 r) (u.stamped r) := by
  obtain ⟨hcmds, hctxs, hcur⟩ := h
  have hctx (w : Nat) : u.ctx w = s.ctx w := by rw [State.ctx, hctxs]; rfl
  have hadd : u.addCmd 2 r = if r.nq then { u.claim (r.moves.map (·.1)) with cmds := u.cmds ++ [u.stamped r], ids := u.ids + 1 }
    else State.modMe { u.claim (r.moves.map (·.1)) with cmds := u.cmds ++ [u.stamped r], ids := u.ids + 1 }
      fun c => c.rqPush 2 { id := r.id, seq := u.cur.ent.seq } := rfl
  refine ⟨?_, fun hq => ?_, fun hq => ?_⟩
  · rw [hadd, ← hcmds]
    split <;> rfl
  · rw [hadd, if_pos (show r.nq = true from hq)]
    exact congrArg Ctx.rq (hctx _)
  · rw [hadd, if_neg (ne_true_of_eq_false (show r.nq = false from hq)), ← hcur]
    refine (congrArg (Ctx.rqGet · 2) (State.ctx_modCtx ..)).trans ((Ctx.rqGet_rqPush ..).trans ?_)
    exact congrArg (fun c : Ctx => c.rqGet 2 ++ _) ((hctx _).trans (congrArg (fun k : Cur => s.ctx k.who) hcur))
theorem State.addCmd_cores (q : Nat) (r : ECmdRec) : (s.addCmd q r).cores = s.cores := by
  unfold State.addCmd
  dsimp only
  split <;> rfl
theorem State.addCmd_ring (q : Nat) (r : ECmdRec) (k n : Nat) : (s.addCmd q r).ring k n = s.ring k n := by
  rw [State.ring, State.core, State.addCmd_cores]
  rfl
theorem State.addCmd_fab (q : Nat) (r : ECmdRec) : (s.addCmd q r).fab = s.fab := by
  unfold State.addCmd
  dsimp only
  split <;> rfl
theorem State.addCmd_die (q : Nat) (r : ECmdRec) (d : Nat) : (s.addCmd q r).die d = s.die d := by
  unfold State.addCmd
  dsimp only
  split <;> rfl
theorem commanded_stays {q : Nat} {f : State → Out} (hg : s.guard c.g = true) (hq : c.nq = false) (hfull : 16 ≤ (s.me.rqGet q).length) :
    commanded c q s f = .next s.unissue := by
  have hroom : s.me.rqRoom q = false := decide_eq_false (by omega)
  simp [commanded, hg, hq, hroom]
theorem commanded_goes {q : Nat} {f : State → Out} (hg : s.guard c.g = true) (hr : c.nq = true ∨ (s.me.rqGet q).length < 16) :
    commanded c q s f = f s := by
  have hroom : (!c.nq && !s.me.rqRoom q) = false := by
    obtain h | h := hr
    · simp [h]
    · simp [Ctx.rqRoom, h]
  simp [commanded, hg, hroom]

/-! ## Copies (R206) -/

/-- The record of a copy that joins from machine `u`. -/
def State.copyRec (s u : State) (c : ECmd) (opc : Nat) (a : Acc) (copies : Nat) (dp : List Page) (tag : Word) (mv : List (Elem × Elem))
    (g : List Nat) : ECmdRec :=
  { id := s.ids, who := s.cur.who, part := s.partOf s.cur.who, opc := opc, cls := cmdCls c (s.lay s.cur.who c.la.toNat),
    seq := u.cur.ent.seq, nq := c.nq, tag := tag.setWidth 16, moves := mv, units := moved (a.elems.length * copies) (dWidth a.fmt),
    srcRing := ringRef u (s.lay s.cur.who c.la.toNat).ring, dstRing := ringRef u (s.lay s.cur.who c.lb.toNat).ring, gates := g,
    pages := (a.pages ++ dp).eraseDups }
/-- The machine once a copy with moves `mv` has joined from `u`. -/
def State.copied (s u : State) (c : ECmd) (opc : Nat) (a : Acc) (copies : Nat) (dp : List Page) (tag : Word) (mv : List (Elem × Elem)) :
    State :=
  let p := u.gateMoves (s.partOf s.cur.who) (cmdCls c (s.lay s.cur.who c.la.toNat)) s.ids mv
  (p.2.takeRings (s.lay s.cur.who c.la.toNat).ring (s.lay s.cur.who c.lb.toNat).ring s.ids).addCmd 2
    (s.copyRec p.2 c opc a copies dp tag mv p.1)

variable {opc : Nat} {a b : Acc} {ds : List (List Elem)} {fmt : BitVec 32} {dp : List Page} {tag : Word} {mv : List (Elem × Elem)}
  {ca : List (List Int)} {dsts : State → Except Stop (List (List Elem) × BitVec 32 × List Page)}

theorem copyCmd_joins (hcr : s.credits (s.lay s.cur.who c.la.toNat).ring (s.lay s.cur.who c.lb.toNat).ring = true)
    (ha : s.engAccess c.la.toNat false ca = .ok a) (hd : dsts s = .ok (ds, fmt, dp)) (hw : dWidth a.fmt = dWidth fmt)
    (hp : s.newId.2.fromPreload opc (s.lay s.cur.who c.lb.toNat).ring (ds.map fun d => a.elems.zip d).flatten = (mv, u)) :
    copyCmd opc c ca dsts tag s = .next (s.copied u c opc a ds.length dp tag mv) := by
  have hw : (dWidth a.fmt != dWidth fmt) = false := by simp [hw]
  have hid : s.newId = (s.ids, s.newId.2) := rfl
  simp only [copyCmd, hcr, ha, hd, hw]
  rw [hid, hp]
  rfl
theorem State.copied_mem (copies : Nat) : (s.copied u c opc a copies dp tag mv).mem = u.mem := by simp [State.copied]
theorem State.copied_cores (copies : Nat) : (s.copied u c opc a copies dp tag mv).cores =
    (u.takeRings (s.lay s.cur.who c.la.toNat).ring (s.lay s.cur.who c.lb.toNat).ring s.ids).cores := by
  have hask := State.gateMoves_asked (s := u) (s.partOf s.cur.who) (cmdCls c (s.lay s.cur.who c.la.toNat)) s.ids mv
  exact (State.addCmd_cores ..).trans (State.takeRings_cores hask.cores hask.front.cur ..)
/-- The record with which a copy joins. -/
theorem State.copied_joined (hf : s.Front u) (copies : Nat) : ∃ (w x : State) (g : List Nat), x.cur = s.cur ∧
    s.Joined (s.copied u c opc a copies dp tag mv) (w.stamped (s.copyRec x c opc a copies dp tag mv g)) :=
  have hask := hf.trans (State.gateMoves_asked ..).front
  ⟨_, _, _, hask.cur, (hask.trans (State.takeRings_front ..)).joined _⟩

/-! ## A copy beside a preload (R338, log 71) -/

theorem State.fromPreload_none {dst : Option Nat} {l : List (Elem × Elem)}
    (h : opc ≠ 1 ∨ ∀ w, (s.core (coreOf s.cur.who)).preW ≠ some (ctxOf s.cur.who, w)) : s.fromPreload opc dst l = (l, s) := by
  unfold State.fromPreload
  dsimp only
  split
  · next k w hw =>
    refine if_pos ?_
    obtain h | h := h
    · simp [h]
    · have hk : k ≠ ctxOf s.cur.who := fun hk => h w (hk ▸ hw)
      simp [hk]
  · rfl
/-- A copy's moves are exactly the preload's bytes, into slot 0 of its ring, and memory still holds them. -/
def State.Preloads (s : State) (dst : Option Nat) (l : List (Elem × Elem)) (w : PreW) : Prop :=
  dst = some w.ring ∧ (s.ring (coreOf s.cur.who) w.ring).tail = 0 ∧ (∀ m ∈ l, m.1 ∈ w.elems) ∧ (∀ e ∈ w.elems, ∃ m ∈ l, m.1 = e) ∧
    w.elems.map s.elem = w.vals ∧ ∀ e ∈ w.elems, s.spoilt e = false

/-- The core without its preload, and a move with the bytes of the preload. -/
def State.preloadOver (s : State) : State := s.modCore (coreOf s.cur.who) fun k => { k with preW := none }
def State.putPreload (w : PreW) (s : State) (m : Elem × Elem) : State :=
  ((w.elems.zip w.vals).find? fun p => p.1 == m.1).elim s fun p => s.putElem m.2 p.2
theorem State.ring_preloadOver (k n : Nat) : s.preloadOver.ring k n = s.ring k n := State.ring_modCore rfl k n
theorem State.fromPreload_some {dst : Option Nat} {l : List (Elem × Elem)} {w : PreW}
    (hw : (s.core (coreOf s.cur.who)).preW = some (ctxOf s.cur.who, w)) :
    (s.Preloads dst l w → s.fromPreload 1 dst l = ([], l.foldl (State.putPreload w) s.preloadOver)) ∧
      (¬ s.Preloads dst l w → s.fromPreload 1 dst l = (l, s.preloadOver)) := by
  have hcond : (dst == some w.ring && (s.preloadOver.ring (coreOf s.cur.who) w.ring).tail == 0 && l.all (fun m => w.elems.contains m.1) &&
      w.elems.all (fun e => l.any fun m => m.1 == e) && w.elems.map s.elem == w.vals && !w.elems.any s.spoilt) = true ↔
      s.Preloads dst l w := by
    simp [State.Preloads, State.ring_preloadOver, and_assoc]
  unfold State.fromPreload
  dsimp only
  rw [hw]
  constructor
  · intro h
    exact (if_neg (by simp)).trans (if_pos (hcond.2 h))
  · intro h
    exact (if_neg (by simp)).trans (if_neg (mt hcond.1 h))
theorem State.putPreload_over (w : PreW) (u : State) (m : Elem × Elem) : (s.over u).putPreload w m = (s.putPreload w m).over u := by
  unfold State.putPreload
  cases (w.elems.zip w.vals).find? fun p => p.1 == m.1 with
  | none => rfl
  | some p => exact State.putElem_over ..
theorem State.memOnly_putPreload (w : PreW) (m : Elem × Elem) : s.MemOnly (s.putPreload w m) := ⟨State.putPreload_over (s := s) w s m⟩
theorem State.foldl_putPreload_mem (w : PreW) (l : List (Elem × Elem)) (u : State) :
    (l.foldl (State.putPreload w) (s.over u)).mem = (l.foldl (State.putPreload w) s).mem :=
  have h : l.foldl (State.putPreload w) (s.over u) = (l.foldl (State.putPreload w) s).over u :=
    List.foldl_hom (State.over · u) fun _ _ => State.putPreload_over ..
  (congrArg State.mem h :)

/-! ## The operations past their guard and room (R204) -/

section
variable (hg : s.guard c.g = true) (hr : c.nq = true ∨ (s.me.rqGet 2).length < 16)
include hg hr
theorem execCpIn_copies : exec (.cpIn c) s = copyCmd 1 c
    ((s.lay s.cur.who c.lb.toNat).boxAt (s.origin c (s.lay s.cur.who c.la.toNat).rank)) (oneDst c (s.lay s.cur.who c.lb.toNat).box)
    (s.arg c (s.lay s.cur.who c.la.toNat).rank) s := by
  change execCpIn c s = _
  rw [execCpIn, commanded_goes hg hr]
theorem execCpOut_copies : exec (.cpOut c) s = copyCmd 2 c (s.lay s.cur.who c.la.toNat).box
    (oneDst c ((s.lay s.cur.who c.la.toNat).boxAt (s.origin c (s.lay s.cur.who c.la.toNat).rank)))
    (s.arg c (s.lay s.cur.who c.la.toNat).rank) s := by
  change execCpOut c s = _
  rw [execCpOut, commanded_goes hg hr]
theorem execCpPeer_copies : exec (.cpPeer c false) s = copyCmd 3 c (s.lay s.cur.who c.la.toNat).box
    (oneDst c ((s.lay s.cur.who c.la.toNat).boxAt (s.origin c (s.lay s.cur.who c.la.toNat).rank)))
    (s.arg c (s.lay s.cur.who c.la.toNat).rank) s := by
  change execCpPeer c false s = _
  rw [execCpPeer, commanded_goes hg hr]
  rfl
theorem execCpPeer_multicasts : exec (.cpPeer c true) s = copyCmd 3 c (s.lay s.cur.who c.la.toNat).box
    (manyDst c ((s.lay s.cur.who c.la.toNat).boxAt (s.origin c (s.lay s.cur.who c.la.toNat).rank))
      (s.arg c (s.lay s.cur.who c.la.toNat).rank))
    (s.arg c ((s.lay s.cur.who c.la.toNat).rank + 1)) s := by
  change execCpPeer c true s = _
  rw [execCpPeer, commanded_goes hg hr]
  rfl
end

/-! ## Prefetches and sends (R207, R209) -/

/-- The record of a prefetch, with the outcome of its box. -/
def State.pfRec (s : State) (c : ECmd) (x : Except Stop Acc) : ECmdRec :=
  { id := s.ids, who := s.cur.who, part := s.partOf s.cur.who, opc := 4, cls := cmdCls c (s.lay s.cur.who c.la.toNat), seq := s.cur.ent.seq,
    nq := c.nq, tag := (s.arg c (2 * (s.lay s.cur.who c.la.toNat).rank)).setWidth 16, moves := [],
    status := match x with | .ok _ => 0 | .error _ => 3, pages := match x with | .ok a => a.pages | .error _ => [] }
/-- The box of a prefetch: its origin and extents are arguments. -/
def State.pfBox (s : State) (c : ECmd) (rank : Nat) : List (List Int) :=
  boxCoords (s.origin c rank) ((List.range rank).map fun i => (s.arg c (rank + i)).toInt.toNat)
theorem execCpPf_joins (hg : s.guard c.g = true) (hr : c.nq = true ∨ (s.me.rqGet 2).length < 16) : exec (.cpPf c) s =
    .next (s.newId.2.addCmd 2 (s.pfRec c (s.engAccess c.la.toNat false (s.pfBox c (s.lay s.cur.who c.la.toNat).rank)))) := by
  change execCpPf c s = _
  rw [execCpPf, commanded_goes hg hr]
  unfold State.pfRec State.pfBox
  dsimp only
  cases s.engAccess c.la.toNat false (boxCoords (s.origin c (s.lay s.cur.who c.la.toNat).rank)
    ((List.range (s.lay s.cur.who c.la.toNat).rank).map fun i => (s.arg c ((s.lay s.cur.who c.la.toNat).rank + i)).toInt.toNat)) <;> rfl

/-- The record of a send of `n` units. -/
def State.sendRec (s : State) (c : ECmd) (a : Acc) (n : Nat) : ECmdRec :=
  { id := s.ids, who := s.cur.who, part := s.partOf s.cur.who, opc := 8, cls := cmdCls c (s.lay s.cur.who c.la.toNat), seq := s.cur.ent.seq,
    nq := c.nq, tag := (s.arg c 2).setWidth 16, moves := a.elems.map fun e => (e, e), pages := a.pages, units := n,
    srcRing := ringRef s (s.lay s.cur.who c.la.toNat).ring, port := (s.arg c 0).toNat % 16, rqn := natBits (s.arg c 0).toNat 8 8,
    slack := (s.arg c 1).toNat % 65536, flits := n, sq := aget 0 s.fab.sendSeq ((s.arg c 0).toNat % 16) }
/-- A send takes the next number of its port. -/
def State.sendNumbered (s : State) (c : ECmd) : State :=
  let port := (s.arg c 0).toNat % 16
  { s.newId.2 with fab := { s.fab with sendSeq := aset s.fab.sendSeq port ((aget 0 s.fab.sendSeq port + 1) % 2 ^ 32) } }
/-- A send with its number takes its ring's slot and a place in its port's queue. -/
def State.sendQueued (s : State) (c : ECmd) : State :=
  let port := (s.arg c 0).toNat % 16
  ((s.sendNumbered c).takeRings (s.lay s.cur.who c.la.toNat).ring none s.ids).modDie (dieOfWho s.cur.who) fun d =>
    { d with sends := aset d.sends port (aget [] d.sends port ++ [s.ids]) }
theorem execSend_joins (hg : s.guard c.g = true) (hr : c.nq = true ∨ (s.me.rqGet 2).length < 16)
    (hcr : s.credits (s.lay s.cur.who c.la.toNat).ring none = true)
    (ha : s.engAccess c.la.toNat false (s.lay s.cur.who c.la.toNat).box = .ok a)
    (hu : a.elems.length * dWidth a.fmt % 512 = 0) (hmax : a.elems.length * dWidth a.fmt ≤ 2 ^ 23) (hs : (s.arg c 1).toNat % 65536 ≠ 0)
    (hown : s.ownsPort (s.partOf s.cur.who) ((s.arg c 0).toNat % 16) = true) (hcon : s.fab.connects ((s.arg c 0).toNat % 16) = true) :
    exec (.send c) s = .next ((s.sendQueued c).addCmd 2 (s.sendRec c a (a.elems.length * dWidth a.fmt / 512))) := by
  have hport : natBits (s.arg c 0).toNat 0 4 = (s.arg c 0).toNat % 16 := rfl
  have hslack : natBits (s.arg c 1).toNat 0 16 = (s.arg c 1).toNat % 65536 := rfl
  have hbox : (a.elems.length * dWidth a.fmt % 512 != 0 || 2 ^ 23 < a.elems.length * dWidth a.fmt ||
      (s.arg c 1).toNat % 65536 == 0) = false := by
    simpa [hu, hs] using hmax
  change execSend c s = _
  rw [execSend, commanded_goes hg hr]
  simp only [hport, hslack, hcr, ha, hbox, hown, hcon]
  rfl

theorem State.sendQueued_front : s.Front (s.sendQueued c) :=
  have hnumbered : s.Front (s.sendNumbered c) := ⟨rfl, rfl, rfl⟩
  .trans (hnumbered.trans (State.takeRings_front (s.lay s.cur.who c.la.toNat).ring none s.ids)) ⟨rfl, rfl, rfl⟩
theorem State.sendQueued_mem : (s.sendQueued c).mem = s.mem := State.takeRings_mem ..
theorem State.sendQueued_fab : (s.sendQueued c).fab = (s.sendNumbered c).fab := State.takeRings_fab ..
theorem State.sendQueued_sends : aget [] ((s.sendQueued c).die (dieOfWho s.cur.who)).sends ((s.arg c 0).toNat % 16) =
    aget [] (s.die (dieOfWho s.cur.who)).sends ((s.arg c 0).toNat % 16) ++ [s.ids] := by
  rw [State.sendQueued, State.die_modDie, State.die, State.takeRings_dies]
  exact aget_aset_self ..

/-! ## Arms (R210) -/

def State.armRec (s : State) (c : ECmd) (b : Acc) : ECmdRec :=
  { id := s.ids, who := s.cur.who, part := s.partOf s.cur.who, opc := 9, cls := cmdCls c (s.lay s.cur.who c.la.toNat), seq := s.cur.ent.seq,
    nq := c.nq, tag := (s.arg c 1).setWidth 16, moves := b.elems.map fun e => (e, e),
    dstRing := ringRef s (s.lay s.cur.who c.lb.toNat).ring, rqn := (s.arg c 0).toNat % 256, pages := b.pages }
/-- An arm takes its ring's slot and a place in its receive queue. -/
def State.armQueued (s : State) (c : ECmd) : State :=
  let q := (s.arg c 0).toNat % 256
  let u := s.newId.2.takeRings none (s.lay s.cur.who c.lb.toNat).ring s.ids
  { u with fab := { u.fab with recvs := aset u.fab.recvs q (aget [] s.fab.recvs q ++ [s.ids]) } }
theorem execRecvArm_joins (hg : s.guard c.g = true) (hr : c.nq = true ∨ (s.me.rqGet 2).length < 16)
    (hcr : s.credits none (s.lay s.cur.who c.lb.toNat).ring = true)
    (hb : s.engAccess c.lb.toNat true (s.lay s.cur.who c.lb.toNat).box = .ok b)
    (hlen : (aget [] s.fab.recvs ((s.arg c 0).toNat % 256)).length < 16) : exec (.recvArm c) s = .next ((s.armQueued c).addCmd 2 (s.armRec c b)) := by
  have hq : natBits (s.arg c 0).toNat 0 8 = (s.arg c 0).toNat % 256 := rfl
  change execRecvArm c s = _
  rw [execRecvArm, commanded_goes hg hr]
  simp only [hq, if_neg (Nat.not_le.2 hlen), hcr, hb]
  rfl

theorem State.armQueued_front : s.Front (s.armQueued c) := by
  have hring := s.front_newId.trans (State.takeRings_front none (s.lay s.cur.who c.lb.toNat).ring s.ids)
  exact .trans hring ⟨rfl, rfl, rfl⟩
theorem State.armQueued_mem : (s.armQueued c).mem = s.mem := State.takeRings_mem ..
theorem State.armQueued_recvs : aget [] (s.armQueued c).fab.recvs ((s.arg c 0).toNat % 256) =
    aget [] s.fab.recvs ((s.arg c 0).toNat % 256) ++ [s.ids] := aget_aset_self ..

/-! ## Expert fetches (R208) -/

/-- The record of an expert fetch as it issues. -/
def State.exfRec (s : State) (c : ECmd) (a : Acc) : ECmdRec :=
  { id := s.ids, who := s.cur.who, part := s.partOf s.cur.who, opc := 24, cls := cmdCls c (s.lay s.cur.who c.la.toNat), seq := s.cur.ent.seq,
    nq := c.nq, tag := (s.arg c (s.lay s.cur.who c.la.toNat).rank).setWidth 16, moves := [], pages := a.pages }
/-- The fallback's slot in ring `n`, and the token with a status. -/
def State.exfSlot (s : State) (n : Nat) : Nat := ringSlot (coreOf s.cur.who) (s.myRing n) (s.myRing n).tail
def State.exfTok (s : State) (c : ECmd) (status : Nat) : Nat :=
  exfToken (s.arg c (s.lay s.cur.who c.la.toNat).rank) status (s.origin c (s.lay s.cur.who c.la.toNat).rank)
/-- The fallback's slot of an expert fetch is reserved. -/
def State.exfHeld (s : State) (n : Nat) : State := s.newId.2.modRing (coreOf s.cur.who) n fun q => q.reserve s.ids
/-- No slot is free in the destination: the token is delivered at once. -/
def State.exfTold (s : State) (c : ECmd) (n : Nat) : State :=
  (s.exfHeld n).giveToken (coreOf s.cur.who) n (s.exfSlot n) (s.exfTok c 2) s.ids
/-- The destination's slot of an expert fetch is reserved too, and its drawer requests have left. -/
def State.exfAsked (s : State) (c : ECmd) (n dn : Nat) (l : List (Elem × Elem)) : List Nat × State :=
  ((s.exfHeld n).modRing (coreOf s.cur.who) dn fun q => q.reserve s.ids).gateMoves (s.partOf s.cur.who)
    (cmdCls c (s.lay s.cur.who c.la.toNat)) s.ids l
/-- The record of an expert fetch with its moves and its deadline. -/
def State.exfGoneRec (s : State) (c : ECmd) (n dn : Nat) (a : Acc) (l : List (Elem × Elem)) : ECmdRec :=
  { s.exfRec c a with
    moves := l, gates := (s.exfAsked c n dn l).1, units := moved a.elems.length (dWidth a.fmt), dstRing := some (coreOf s.cur.who, dn),
    deadline := some (((s.exfAsked c n dn l).2.arg c ((s.lay s.cur.who c.la.toNat).rank + 1)).toNat % 2 ^ 32),
    fallback := some (coreOf s.cur.who, n, s.exfSlot n), token := s.exfTok c 1 }

section
variable {rn : BitVec 6} {dn left : Nat}
theorem execExf_tells (hg : s.guard c.g = true) (hr : c.nq = true ∨ (s.me.rqGet 2).length < 16)
    (hdn : (s.lay s.cur.who c.lb.toNat).ring.getD 0 = dn) (hfb : (s.myRing rn.toNat).canPush = true)
    (ha : s.engAccess c.la.toNat false ((s.lay s.cur.who c.lb.toNat).boxAt (s.origin c (s.lay s.cur.who c.la.toNat).rank)) = .ok a)
    (hb : s.engAccess c.lb.toNat true (s.lay s.cur.who c.lb.toNat).box = .ok b) (hw : dWidth a.fmt = dWidth b.fmt)
    (hleft : ((s.myRing dn).old.free - (s.myRing dn).tPush - if dn = rn.toNat then 1 else 0) = 0) :
    exec (.exf c rn) s = .next ((s.exfTold c rn.toNat).addCmd 2 { s.exfRec c a with status := 2, resolved := true }) := by
  subst hdn
  have hw : (dWidth a.fmt != dWidth b.fmt) = false := by simp [hw]
  change execExf c rn s = _
  rw [execExf, commanded_goes hg hr]
  simp only [hfb, hleft, ha, hb, hw]
  rfl
theorem execExf_goes (hg : s.guard c.g = true) (hr : c.nq = true ∨ (s.me.rqGet 2).length < 16)
    (hdn : (s.lay s.cur.who c.lb.toNat).ring.getD 0 = dn) (hfb : (s.myRing rn.toNat).canPush = true)
    (ha : s.engAccess c.la.toNat false ((s.lay s.cur.who c.lb.toNat).boxAt (s.origin c (s.lay s.cur.who c.la.toNat).rank)) = .ok a)
    (hb : s.engAccess c.lb.toNat true (s.lay s.cur.who c.lb.toNat).box = .ok b) (hw : dWidth a.fmt = dWidth b.fmt)
    (hleft : ((s.myRing dn).old.free - (s.myRing dn).tPush - if dn = rn.toNat then 1 else 0) = left) (hl : 1 ≤ left)
    (hdst : dn ≠ rn.toNat → (s.myRing dn).canPush = true) :
    exec (.exf c rn) s = .next
      ((s.exfAsked c rn.toNat dn (a.elems.zip b.elems)).2.addCmd 2 (s.exfGoneRec c rn.toNat dn a (a.elems.zip b.elems))) := by
  subst hdn
  have hw : (dWidth a.fmt != dWidth b.fmt) = false := by simp [hw]
  have hl : left ≠ 0 := by omega
  have hpush : (left != 0 && (s.lay s.cur.who c.lb.toNat).ring.getD 0 != rn.toNat &&
      !(s.myRing ((s.lay s.cur.who c.lb.toNat).ring.getD 0)).canPush) = false := by
    by_cases h : (s.lay s.cur.who c.lb.toNat).ring.getD 0 = rn.toNat
    · simp [h]
    · simp [hdst h]
  change execExf c rn s = _
  rw [execExf, commanded_goes hg hr]
  simp only [hfb, hleft, ha, hb, hw, hpush, if_neg hl]
  rfl
end
theorem State.exfAsked_asked (n dn : Nat) (l : List (Elem × Elem)) :
    ((s.exfHeld n).modRing (coreOf s.cur.who) dn fun q => q.reserve s.ids).Asked (s.exfAsked c n dn l).2 := State.gateMoves_asked ..
theorem State.exfAsked_front (n dn : Nat) (l : List (Elem × Elem)) : s.Front (s.exfAsked c n dn l).2 :=
  .trans (t := (s.exfHeld n).modRing (coreOf s.cur.who) dn fun q => q.reserve s.ids) ⟨rfl, rfl, rfl⟩ (State.exfAsked_asked n dn l).front
theorem State.exfAsked_arg (n dn : Nat) (l : List (Elem × Elem)) (i : Nat) : (s.exfAsked c n dn l).2.arg c i = s.arg c i := by
  obtain ⟨-, hctxs, hcur⟩ := State.exfAsked_front (s := s) (c := c) n dn l
  rw [State.arg, State.me, State.ctx, hctxs, hcur]
  rfl

/-- Settles O39: past guard, room and credits each operation leaves by one lemma, and joins the commands by `State.Front.joined`. -/
theorem engineCommandsAccepted : Obligations.EngineCommandsAccepted := by
  unfold Obligations.EngineCommandsAccepted
  intro c rn a b ds fmt dp s hg who la lb room arg org joins moves core pushes copies boxLA boxLB bits port slack fb dn dst
  have copy {i : Instr} {opc : Nat} {u u' : State} {ca dsts tag mv mem} (hi : exec i s = copyCmd opc c ca dsts tag s)
      (hcr : s.credits la.ring lb.ring = true) (ha : s.engAccess c.la.toNat false ca = .ok a) (hd : dsts s = .ok (ds, fmt, dp))
      (hw : dWidth a.fmt = dWidth fmt) (hp : s.newId.2.fromPreload opc lb.ring moves = (mv, u)) (hf : s.Front u)
      (hu : u.cores = u'.cores ∧ u'.cur = s.cur ∧ u.mem = mem) : copies i opc u' tag mv mem := by
    obtain ⟨w, x, g, hcur, hj⟩ := State.copied_joined (a := a) (opc := opc) (dp := dp) (tag := tag) (mv := mv) (c := c) hf ds.length
    obtain ⟨hcores, hcur', hmem⟩ := hu
    refine ⟨_, w.stamped (s.copyRec x c opc a ds.length dp tag mv g),
      ⟨hi.trans (copyCmd_joins hcr ha hd hw hp), hj.cmds, rfl, rfl, rfl, rfl, rfl, rfl, rfl, hj.quiet, hj.pending⟩,
      (State.copied_mem _).trans hmem, rfl, rfl, rfl, rfl, ?_, ?_, ?_⟩
    · exact congrArg (fun k : Cur => la.ring.map fun n => (coreOf k.who, n)) hcur
    · exact congrArg (fun k : Cur => lb.ring.map fun n => (coreOf k.who, n)) hcur
    · exact (State.copied_cores _).trans (State.takeRings_cores hcores (hf.cur.trans hcur'.symm) ..)
  have plain {i : Instr} {opc : Nat} {ca dsts tag} (hi : exec i s = copyCmd opc c ca dsts tag s)
      (hcr : s.credits la.ring lb.ring = true) (ha : s.engAccess c.la.toNat false ca = .ok a) (hd : dsts s = .ok (ds, fmt, dp))
      (hw : dWidth a.fmt = dWidth fmt) (hn : opc ≠ 1 ∨ ∀ w, (s.core core).preW ≠ some (ctxOf who, w)) :
      copies i opc s tag moves s.mem :=
    copy hi hcr ha hd hw (State.fromPreload_none hn) State.front_newId ⟨rfl, rfl, rfl⟩
  have canPush {q : Ring} : pushes q → q.canPush = true := fun ⟨hen, hfree, hold, hexf⟩ => Ring.canPush_of hen hfree hold hexf
  refine ⟨fun hq hfull i hi => ?_,
    fun hr hcr ha hd hw => ⟨fun hn => plain (execCpIn_copies hg hr) hcr ha hd hw (.inr hn), fun w hpre => ?_⟩,
    fun hr hcr ha hw => ⟨fun hd => ⟨plain (execCpOut_copies hg hr) hcr ha hd hw (.inl (by decide)),
      plain (execCpPeer_copies hg hr) hcr ha hd hw (.inl (by decide))⟩,
      fun hd => plain (execCpPeer_multicasts hg hr) hcr ha hd hw (.inl (by decide))⟩, ?_⟩
  · obtain rfl | rfl | rfl | rfl | rfl | rfl | rfl | rfl := hi
    · exact show execCpIn c s = _ from commanded_stays hg hq hfull
    · exact show execCpOut c s = _ from commanded_stays hg hq hfull
    · exact show execCpPeer c true s = _ from commanded_stays hg hq hfull
    · exact show execCpPeer c false s = _ from commanded_stays hg hq hfull
    · exact show execCpPf c s = _ from commanded_stays hg hq hfull
    · exact show execSend c s = _ from commanded_stays hg hq hfull
    · exact show execRecvArm c s = _ from commanded_stays hg hq hfull
    · exact show execExf c rn s = _ from commanded_stays hg hq hfull
  · obtain ⟨htakes, hleaves⟩ := State.fromPreload_some (s := s.newId.2) (dst := lb.ring) (l := moves) hpre
    have hput : s.newId.2.preloadOver.MemOnly (moves.foldl (State.putPreload w) s.newId.2.preloadOver) :=
      .foldl (fun _ m => State.memOnly_putPreload w m) ..
    refine ⟨fun hall => ?_, fun hnot => ?_⟩
    · exact copy (execCpIn_copies hg hr) hcr ha hd hw (htakes hall) (State.Front.trans (t := s.newId.2.preloadOver) ⟨rfl, rfl, rfl⟩ hput.front)
        ⟨hput.cores, rfl, State.foldl_putPreload_mem (s := s) w moves s.newId.2.preloadOver⟩
    · exact copy (execCpIn_copies hg hr) hcr ha hd hw (hleaves hnot) ⟨rfl, rfl, rfl⟩ ⟨rfl, rfl, rfl⟩
  refine ⟨fun hr => ?_, fun hr hcr ha hu hmax hs hown hcon => ?_, fun hr hcr hb hlen => ?_,
    fun hr hfb ha hb hw => ⟨fun hl hdst => ?_, fun hl => ?_⟩⟩
  · have hj := s.front_newId.joined (s.pfRec c (s.engAccess c.la.toNat false (s.pfBox c la.rank)))
    refine ⟨_, _, ⟨execCpPf_joins hg hr, hj.cmds, rfl, rfl, rfl, rfl, rfl, rfl, rfl, hj.quiet, hj.pending⟩, rfl, State.addCmd_mem .., ?_, ?_⟩
    · intro x hx
      exact congrArg (fun y => (s.pfRec c y).status) (hx : s.engAccess c.la.toNat false (s.pfBox c la.rank) = .ok x)
    · intro x hx
      exact congrArg (fun y => (s.pfRec c y).status) (hx : s.engAccess c.la.toNat false (s.pfBox c la.rank) = .error x)
  · have hj := (State.sendQueued_front (s := s) (c := c)).joined (s.sendRec c a (bits / 512))
    refine ⟨_, _, ⟨execSend_joins hg hr hcr ha hu hmax hs hown hcon, hj.cmds, rfl, rfl, rfl, rfl, rfl, rfl, rfl, hj.quiet, hj.pending⟩,
      rfl, ?_, rfl, rfl, rfl, ?_, ?_, (State.addCmd_mem ..).trans State.sendQueued_mem⟩
    · exact congrArg (· % 256) (Nat.shiftRight_eq_div_pow ..)
    · rw [State.addCmd_fab, State.sendQueued_fab]
      exact aget_aset_self ..
    · rw [State.addCmd_die]
      exact State.sendQueued_sends
  · have hj := (State.armQueued_front (s := s) (c := c)).joined (s.armRec c b)
    refine ⟨_, _, ⟨execRecvArm_joins hg hr hcr hb hlen, hj.cmds, rfl, rfl, rfl, rfl, rfl, rfl, rfl, hj.quiet, hj.pending⟩, rfl,
      (State.addCmd_mem ..).trans State.armQueued_mem, ?_⟩
    rw [State.addCmd_fab]
    exact State.armQueued_recvs
  · have hj := (State.exfAsked_front (s := s) (c := c) rn.toNat dn (a.elems.zip b.elems)).joined
      (s.exfGoneRec c rn.toNat dn a (a.elems.zip b.elems))
    refine ⟨_, _, ⟨execExf_goes hg hr rfl (canPush hfb) ha hb hw rfl hl fun hn => canPush (hdst hn),
      hj.cmds, rfl, rfl, rfl, rfl, rfl, rfl, rfl, hj.quiet, hj.pending⟩, rfl, ?_, rfl, ?_, ?_, ?_⟩
    · exact congrArg (fun x : Word => some (x.toNat % 2 ^ 32)) (State.exfAsked_arg ..)
    · exact (State.addCmd_mem ..).trans (State.gateMoves_mem ..)
    · intro hne
      have hring (k : Nat) := (State.exfAsked_asked (c := c) (s := s) rn.toNat dn (a.elems.zip b.elems)).ring core k
      rw [State.addCmd_ring, State.addCmd_ring, hring, hring]
      refine ⟨(State.ring_modRing_ne _ _ (Ne.symm hne)).trans (State.ring_modRing ..), (State.ring_modRing ..).trans ?_⟩
      exact congrArg (Ring.reserve · s.ids) (State.ring_modRing_ne _ _ hne)
    · intro heq
      rw [State.addCmd_ring, (State.exfAsked_asked (c := c) (s := s) rn.toNat dn (a.elems.zip b.elems)).ring core dn, heq]
      exact (State.ring_modRing ..).trans (congrArg (Ring.reserve · s.ids) (State.ring_modRing ..))
  · have hj := State.Front.joined (s := s) (u := s.exfTold c rn.toNat) ⟨rfl, rfl, rfl⟩ { s.exfRec c a with status := 2, resolved := true }
    refine ⟨_, _, ⟨execExf_tells hg hr rfl (canPush hfb) ha hb hw hl, hj.cmds, rfl, rfl, rfl, rfl, rfl, rfl, rfl, hj.quiet, hj.pending⟩,
      rfl, rfl, rfl, State.addCmd_mem .., ?_⟩
    rw [State.addCmd_ring]
    refine (State.ring_modRing ..).trans (congrArg (Ring.land · s.ids) ?_)
    exact State.ring_modRing (s := s.newId.2) core rn.toNat fun q => q.reserve s.ids
end Sys2Proof.Machine
end

section
/-! The rondels of the drawers (R364 to R367): what a slot grants, and the ends of accesses. -/

namespace Sys2Proof.Machine

variable {s t u : State} {d : Nat} {e : BitVec 12} {r : DReq} {id : Nat}

/-! ## The order of arrival -/

theorem State.arrange_perm (r : DReq) (l : List DReq) : (s.arrange r l).Perm (r :: l) := by
  induction l with
  | nil => exact .refl _
  | cons h l ih =>
    rw [State.arrange]
    split
    · exact .refl _
    · exact (ih.cons h).trans (.swap ..)
theorem State.foldr_arrange_perm (l : List DReq) : (l.foldr s.arrange []).Perm l := by
  induction l with
  | nil => exact .refl _
  | cons h l ih => exact (State.arrange_perm ..).trans (ih.cons h)
theorem State.noLater_refl (r : DReq) : s.noLater r r = true := by simp [State.noLater]
theorem State.noLater_total {a b : DReq} (h : s.noLater a b = false) : s.noLater b a = true := by
  simp only [State.noLater, Bool.or_eq_false_iff, Bool.or_eq_true, Bool.and_eq_true, Bool.and_eq_false_iff, decide_eq_true_eq,
    decide_eq_false_iff_not, beq_iff_eq, beq_eq_false_iff_ne] at h ⊢
  omega
/-- The request that reached the drawer first goes first. -/
theorem State.foldr_arrange_first {l : List DReq} (hr : r ∈ l) (h : ∀ q ∈ l, q = r ∨ s.noLater q r = false) :
    ∃ rest, l.foldr s.arrange [] = r :: rest := by
  induction l with
  | nil => cases hr
  | cons q l ih =>
    have hl : ∀ q ∈ l, q = r ∨ s.noLater q r = false := fun x hx => h x (List.mem_cons_of_mem _ hx)
    rw [List.foldr_cons]
    by_cases hq : q = r
    · subst hq
      cases hold : l.foldr s.arrange [] with
      | nil => exact ⟨[], rfl⟩
      | cons x rest =>
        have hx : x ∈ l := (State.foldr_arrange_perm l).subset (hold ▸ List.mem_cons_self)
        have hlate : s.noLater q x = true := by
          obtain rfl | hx := hl x hx
          · exact State.noLater_refl x
          · exact State.noLater_total hx
        exact ⟨x :: rest, if_pos hlate⟩
    · obtain ⟨rest, hrest⟩ := ih ((List.mem_cons.1 hr).resolve_left (Ne.symm hq)) hl
      have hlate := (h q List.mem_cons_self).resolve_left hq
      exact ⟨s.arrange q rest, by rw [hrest, State.arrange, hlate]; rfl⟩

/-! ## The grants of a slot -/

/-- A request once granted: a read has 48 slots, a write or a step 49. -/
def DReq.granted (r : DReq) : DReq := { r with left := some (if r.kind = 0 then 48 else 49) }
/-- A request after a slot's grants and crossings: as it was, or granted. -/
def State.Grants (s : State) (d : Nat) (e : BitVec 12) (a x : DReq) : Prop := x = a ∨ s.qualifies d e a = true ∧ x = a.granted
theorem State.grantAll_grants (l : List DReq) (used : List (Nat × Nat)) : List.Forall₂ (s.Grants d e) l (s.grantAll d e l used) := by
  induction l generalizing used with
  | nil => exact .nil
  | cons r l ih =>
    rw [State.grantAll]
    split
    · next h => exact .cons (.inr ⟨(Bool.and_eq_true _ _ ▸ h : _ ∧ _).1, rfl⟩) (ih _)
    · exact .cons (.inl rfl) (ih _)
/-- Crossing data changes pairs and free values only. -/
structure State.Crossed (s t : State) : Prop where
  eq : t = { s with fab := { s.fab with pairs := t.fab.pairs }, fresh := t.fresh }
theorem State.Crossed.trans (h : s.Crossed t) (k : t.Crossed u) : s.Crossed u := ⟨by rw [k.eq, h.eq]⟩
theorem State.qualifies_waits (h : s.qualifies d e r = true) : r.drawer = d ∧ r.left = none := by
  simp only [State.qualifies, Bool.and_eq_true, beq_iff_eq, Option.isNone_iff_eq_none] at h
  tauto
theorem State.cross_crossed (r : DReq) : s.Crossed (s.cross r).2 := by
  unfold State.cross
  dsimp only
  split <;> exact ⟨rfl⟩
theorem State.cross_req (r : DReq) : (s.cross r).1 = r ∨ (s.cross r).1 = { r with left := none } := by
  unfold State.cross
  dsimp only
  split
  · exact .inl rfl
  · exact .inr rfl
theorem State.crossAll_crossed (l : List (DReq × DReq)) : s.Crossed (s.crossAll l).2 := by
  induction l generalizing s with
  | nil => exact ⟨rfl⟩
  | cons p l ih =>
    rw [State.crossAll]
    dsimp only
    split
    · exact (State.cross_crossed p.2).trans ih
    · exact ih
/-- What crosses badly waits for a grant again. -/
theorem State.crossAll_grants {l m : List DReq} (h : List.Forall₂ (s.Grants d e) l m) (u : State) :
    List.Forall₂ (s.Grants d e) l (u.crossAll (l.zip m)).1 := by
  induction h generalizing u with
  | nil => exact .nil
  | @cons a b l m hab _ ih =>
    rw [List.zip_cons_cons, State.crossAll]
    dsimp only
    split
    · next hnew =>
      refine .cons ?_ (ih _)
      obtain hcross | hcross := u.cross_req b <;> rw [hcross]
      · exact hab
      · obtain rfl | ⟨hq, rfl⟩ := hab
        · exact absurd hnew (by cases b.left <;> simp)
        · obtain ⟨hd, hleft⟩ := State.qualifies_waits hq
          exact .inl (by rw [DReq.granted]; cases a; simp_all)
    · exact .cons hab (ih _)

/-! ## A slot begins -/

/-- The entries in force as a slot begins. -/
def State.slotEntries (s : State) (d : Nat) : Fabric :=
  let f := s.fab
  let mine := f.slotw.filter fun w => w.1 == d
  let put (l : List (Nat × BitVec 12)) : List (Nat × BitVec 12) := mine.foldl (fun l w => aset l w.2.1 w.2.2) l
  if aget 0 f.dslot d % 256 != 0 then f
  else if d = 0 then { f with d0slot := put f.d0slot, slotw := f.slotw.filter fun w => w.1 != d }
  else { f with d1slot := put f.d1slot, slotw := f.slotw.filter fun w => w.1 != d }
theorem State.slotEntries_rest : s.slotEntries d =
    { s.fab with d0slot := (s.slotEntries d).d0slot, d1slot := (s.slotEntries d).d1slot, slotw := (s.slotEntries d).slotw } := by
  unfold State.slotEntries
  dsimp only
  split
  · rfl
  · split <;> rfl
/-- The machine as a slot begins, before its grants. -/
def State.slotBegun (s : State) (d : Nat) : State :=
  { s with fab := { s.slotEntries d with dslot := aset (s.slotEntries d).dslot d (aget 0 s.fab.dslot d + 1) } }
/-- The entry of the slot. -/
def State.slotEntry (s : State) (d : Nat) : BitVec 12 :=
  aget 0 (if d = 0 then (s.slotEntries d).d0slot else (s.slotEntries d).d1slot) (aget 0 s.fab.dslot d % 256)
/-- A granted request comes one slot nearer. -/
def DReq.nearer (d : Nat) (r : DReq) : DReq := if r.drawer = d then { r with left := r.left.map (· - 1) } else r
/-- The requests in order of arrival, with what the slot grants and what crosses. -/
def State.slotOrder (s : State) (d : Nat) : List DReq := (s.fab.reqs.map (DReq.nearer d)).foldr s.arrange []
def State.slotCrossed (s : State) (d : Nat) : List DReq × State :=
  (s.slotBegun d).crossAll ((s.slotOrder d).zip (s.grantAll d (s.slotEntry d) (s.slotOrder d) []))
theorem execDrawerSlot_begins (hd : d < 2) (ht : 32 * aget 0 s.fab.dslot d ≤ s.ltime) : execDrawerSlot d s =
    .next { (s.slotCrossed d).2 with fab := { (s.slotCrossed d).2.fab with reqs := (s.slotCrossed d).1 } } := by
  have hreqs : (s.slotEntries d).reqs = s.fab.reqs := by rw [State.slotEntries_rest]
  unfold State.slotCrossed State.slotOrder
  rw [← hreqs]
  have hcond : (decide (s.ltime < 32 * aget 0 s.fab.dslot d) || decide (2 ≤ d)) = false := by simp [ht, hd]
  exact congrArg _ (if_neg (by rw [hcond]; exact Bool.false_ne_true))
theorem DReq.nearer_cases (d : Nat) (r : DReq) : (r.drawer ≠ d ∨ r.left = none) ∧ r.nearer d = r ∨
    ∃ k, r.drawer = d ∧ r.left = some k ∧ r.nearer d = { r with left := some (k - 1) } := by
  by_cases hd : r.drawer = d
  · cases hleft : r.left with
    | none => exact .inl ⟨.inr rfl, by rw [DReq.nearer, if_pos hd, hleft]; cases r; simp_all⟩
    | some k => exact .inr ⟨k, hd, rfl, by rw [DReq.nearer, if_pos hd, hleft]; rfl⟩
  · exact .inl ⟨.inl hd, if_neg hd⟩
theorem DReq.nearer_waits (h : r.left = none) : r.nearer d = r := by
  obtain ⟨-, hr⟩ | ⟨k, -, hk, -⟩ := r.nearer_cases d
  · exact hr
  · simp [h] at hk
theorem DReq.nearer_id (r : DReq) : (r.nearer d).id = r.id := by
  unfold DReq.nearer
  split <;> rfl
theorem State.noLater_nearer (a b : DReq) : s.noLater (a.nearer d) b = s.noLater a b := by
  unfold DReq.nearer
  split <;> rfl
theorem State.slotOrder_perm : (s.slotOrder d).Perm (s.fab.reqs.map (DReq.nearer d)) := State.foldr_arrange_perm _
theorem State.slotCrossed_crossed : (s.slotBegun d).Crossed (s.slotCrossed d).2 := State.crossAll_crossed _
theorem State.slotCrossed_grants : List.Forall₂ (s.Grants d (s.slotEntry d)) (s.slotOrder d) (s.slotCrossed d).1 :=
  State.crossAll_grants (State.grantAll_grants ..) _
theorem State.slotCrossed_fab : (s.slotCrossed d).2.fab = { (s.slotBegun d).fab with pairs := (s.slotCrossed d).2.fab.pairs } :=
  (congrArg State.fab State.slotCrossed_crossed.eq :)
theorem State.slotCrossed_rest : (s.slotCrossed d).2 = { s with fab := (s.slotCrossed d).2.fab, fresh := (s.slotCrossed d).2.fresh } := by
  rw [State.slotCrossed_crossed.eq]
  rfl
theorem State.Grants.id_eq {a x : DReq} (h : s.Grants d e a x) : x.id = a.id := by
  obtain rfl | ⟨-, rfl⟩ := h <;> rfl
/-- No request comes or goes. -/
theorem State.slotCrossed_ids : ((s.slotCrossed d).1.map (·.id)).Perm (s.fab.reqs.map (·.id)) := by
  have hids : (s.slotCrossed d).1.map (·.id) = (s.slotOrder d).map (·.id) := by
    refine (List.forall₂_eq_eq_eq ▸ List.forall₂_map_left_iff.2 (List.forall₂_map_right_iff.2 ?_) : _ = _)
    exact (State.slotCrossed_grants (s := s) (d := d)).flip.imp fun _ _ h => State.Grants.id_eq h
  have hnear : s.fab.reqs.map (·.id) = (s.fab.reqs.map (DReq.nearer d)).map (·.id) := by
    rw [List.map_map]
    exact List.map_congr_left fun r _ => (DReq.nearer_id r).symm
  rw [hids, hnear]
  exact State.slotOrder_perm.map _
/-- A request of a slot's end is one of its beginning, one slot nearer, or granted. -/
theorem State.slotCrossed_req {x : DReq} (hx : x ∈ (s.slotCrossed d).1) : ∃ r ∈ s.fab.reqs, ((r.drawer ≠ d ∨ r.left = none) ∧ x = r) ∨
    (∃ k, r.drawer = d ∧ r.left = some k ∧ x = { r with left := some (k - 1) }) ∨ (r.drawer = d ∧ r.left = none ∧ x = r.granted) := by
  obtain ⟨a, ha, hgrant⟩ : ∃ a ∈ s.slotOrder d, s.Grants d (s.slotEntry d) a x := by
    obtain ⟨i, hi, rfl⟩ := List.getElem_of_mem hx
    have hlen := (State.slotCrossed_grants (s := s) (d := d)).length_eq
    exact ⟨_, List.getElem_mem (hlen ▸ hi), State.slotCrossed_grants.get (hlen ▸ hi) hi⟩
  obtain ⟨r, hr, rfl⟩ := List.mem_map.1 (State.slotOrder_perm.subset ha)
  refine ⟨r, hr, ?_⟩
  obtain ⟨hstill, hnear⟩ | ⟨k, hd, hleft, hnear⟩ := r.nearer_cases d
  · rw [hnear] at hgrant
    obtain rfl | ⟨hq, rfl⟩ := hgrant
    · exact .inl ⟨hstill, rfl⟩
    · obtain ⟨hd, hleft⟩ := State.qualifies_waits hq
      exact .inr (.inr ⟨hd, hleft, rfl⟩)
  · rw [hnear] at hgrant
    obtain rfl | ⟨hq, -⟩ := hgrant
    · exact .inr (.inl ⟨k, hd, hleft, rfl⟩)
    · exact absurd (State.qualifies_waits hq).2 (by simp)
/-- A slot's entries are not the rings' or the lanes' concern. -/
theorem State.lostBits_slotBegun (p j : Nat) (b : BitVec 8) : ((s.slotBegun d).draw 8).2.lostBits p j b = s.lostBits p j b := by
  have hfab : ((s.slotBegun d).draw 8).2.fab = { s.fab with
      d0slot := (s.slotEntries d).d0slot, d1slot := (s.slotEntries d).d1slot, slotw := (s.slotEntries d).slotw,
      dslot := (s.slotBegun d).fab.dslot } := by
    rw [State.slotBegun, State.slotEntries_rest]
    rfl
  rw [State.lostBits, State.pair, hfab]
  rfl
/-- The first request is granted where it qualifies, a lane is lit, and, for a write, its data crosses whole. -/
theorem State.slotCrossed_first (hr : r ∈ s.fab.reqs) (hfirst : ∀ q ∈ s.fab.reqs, q = r ∨ s.noLater q r = false) (hleft : r.left = none)
    (hq : s.qualifies d (s.slotEntry d) r = true) (hlit : 0 < (s.pair (reqPair r)).lanes)
    (hwhole : r.kind ≠ 0 → ∀ b, s.lostBits (reqPair r) (laneOf r.unit % 4) b = 0) : (s.slotCrossed d).1.head? = some r.granted := by
  obtain ⟨rest, hrest⟩ : ∃ rest, s.slotOrder d = r :: rest := by
    refine State.foldr_arrange_first (List.mem_map.2 ⟨r, hr, DReq.nearer_waits hleft⟩) fun x hx => ?_
    obtain ⟨q, hmem, rfl⟩ := List.mem_map.1 hx
    obtain rfl | hlate := hfirst q hmem
    · exact .inl (DReq.nearer_waits hleft)
    · exact .inr ((State.noLater_nearer ..).trans hlate)
  have hgrant : ∃ more, s.grantAll d (s.slotEntry d) (r :: rest) [] = r.granted :: more := by
    refine ⟨_, if_pos ?_⟩
    simpa [hq, aget] using hlit
  obtain ⟨more, hmore⟩ := hgrant
  rw [State.slotCrossed, hrest, hmore, List.zip_cons_cons, State.crossAll]
  dsimp only
  split
  · next hnew =>
    have hkind : r.kind ≠ 0 := by
      simp only [Bool.and_eq_true, bne_iff_ne] at hnew
      exact hnew.2
    have hlost : ((s.slotBegun d).draw 8).2.lostBits (reqPair r) (laneOf r.unit % 4) ((s.slotBegun d).draw 8).1 = 0 :=
      (State.lostBits_slotBegun ..).trans (hwhole hkind _)
    have hcross : ((s.slotBegun d).cross r.granted).1 = r.granted := congrArg Prod.fst (if_pos hlost)
    exact congrArg some hcross
  · rfl

/-! ## Accesses that perform (R190, R249) -/

theorem State.req_id (h : s.req id = some r) : r.id = id := eq_of_beq (List.find?_some h :)
theorem State.req_setReq {q : DReq} (h : s.req id = some r) (hid : q.id = id) : (s.setReq q).req id = some q := by
  subst hid
  exact find?_replaced DReq.id h rfl
theorem State.req_without {l : List DReq} (h : t.fab.reqs = l.filter fun q => q.id != id) : t.req id = none := by
  refine List.find?_eq_none.2 fun q hq hid => ?_
  rw [h] at hq
  simp_all
/-- What a load keeps of a unit that performs. -/
def State.keepUnit (s : State) (r : DReq) (l : Late) : Late :=
  { l with got := l.got ++ s.taken (l.elems.filterMap (fun o => o) ++ l.scales.filterMap fun o => o) fun u => u == r.unit }
/-- A read has been placed, before the loads that waited for it perform. -/
def State.placedRead (s : State) (r : DReq) : State := ((s.takeUnit r).setReq { r with done := true }).corrected (reqPair r)
theorem State.ctx_takeUnit : (s.takeUnit r).ctx r.who = { s.ctx r.who with fly := (s.ctx r.who).fly.map fun f =>
    { f with late := if f.gate.contains r.id then f.late.map (s.keepUnit r) else f.late } } := State.ctx_modCtx ..
theorem State.ctx_placedRead : (s.placedRead r).ctx r.who = (s.takeUnit r).ctx r.who := rfl
theorem State.placedRead_req (h : s.req id = some r) : (s.placedRead r).req id = some { r with done := true } :=
  State.req_setReq (s := s.takeUnit r) (r := r) h (State.req_id h : r.id = id)
/-- No load in arrival mode waits for the unit: no lane is written at once. -/
theorem State.writeLanes_none {who : Nat} (h : ∀ f ∈ (s.ctx who).fly, f.arr = true → id ∉ f.gate) : s.writeLanes who id = s := by
  have hfind : (s.ctx who).fly.find? (fun f => f.arr && f.gate.contains id) = none := by
    refine List.find?_eq_none.2 fun f hf hgate => ?_
    obtain ⟨harr, hmem⟩ := (Bool.and_eq_true _ _ ▸ hgate : _ ∧ _)
    exact h f hf harr (List.contains_iff_mem.1 hmem)
  unfold State.writeLanes
  rw [hfind]
theorem State.placedRead_answered (h : s.req id = some r) : (s.placedRead r).answered [id] = true := by
  refine List.all_eq_true.2 fun q hq => ?_
  obtain ⟨x, -, rfl⟩ := List.mem_map.1 (show q ∈ s.fab.reqs.map fun q => if q.id = r.id then { r with done := true } else q from hq)
  by_cases hx : x.id = r.id
  · simp [hx]
  · simp [hx, ← State.req_id h]
theorem execDrawerReadDataPlaced_places (h : s.req id = some r) (hk : r.kind = 0) (hmay : s.mayPerform r = true)
    (harr : ∀ f ∈ (s.ctx r.who).fly, f.arr = true → id ∉ f.gate) :
    execDrawerReadDataPlaced id s = .next ((s.placedRead r).fixLoads r.who) := by
  have hlanes : (s.placedRead r).writeLanes r.who id = s.placedRead r := by
    refine State.writeLanes_none fun f hf => ?_
    rw [State.ctx_placedRead, State.ctx_takeUnit] at hf
    obtain ⟨g, hg, rfl⟩ := List.mem_map.1 hf
    exact harr g hg
  rw [execDrawerReadDataPlaced, h]
  exact congrArg _ ((if_pos (by simp [hk, hmay])).trans (congrArg (State.fixLoads · r.who) hlanes))
/-- What a load comes to is fixed by its elements, memory and its context's control registers. -/
theorem State.lateValue_placedRead (l : Late) : (s.placedRead r).lateValue r.who l = s.lateValue r.who l := by
  have hctl : ((s.placedRead r).ctx r.who).ctl = (s.ctx r.who).ctl := by rw [State.ctx_placedRead, State.ctx_takeUnit]
  rw [State.lateValue, hctl]
  rfl
/-- A load that waited for the unit alone performs, with the unit as it stands. -/
theorem State.placedRead_fixes (h : s.req id = some r) {f : Fly} {l : Late} (hf : f ∈ (s.ctx r.who).fly) (hl : f.late = some l)
    (hfix : f.fixed = false) (hg : f.gate = [id]) :
    { f with late := some (s.keepUnit r l), val := (s.lateValue r.who (s.keepUnit r l)).1,
             flg := (s.lateValue r.who (s.keepUnit r l)).2, fixed := true } ∈ (((s.placedRead r).fixLoads r.who).ctx r.who).fly := by
  have hid := State.req_id h
  have hkept : { f with late := some (s.keepUnit r l) } ∈ ((s.placedRead r).ctx r.who).fly := by
    rw [State.ctx_placedRead, State.ctx_takeUnit]
    refine List.mem_map.2 ⟨f, hf, ?_⟩
    simp [hg, hid, hl]
  rw [State.fixLoads, State.ctx_modCtx]
  refine List.mem_map.2 ⟨_, hkept, ?_⟩
  dsimp only
  rw [hfix, hg, State.placedRead_answered h, State.lateValue_placedRead]
  rfl
/-- A request leaves the rondel. -/
def State.droppedReq (s : State) (id : Nat) : State := { s with fab := { s.fab with reqs := s.fab.reqs.filter fun q => q.id != id } }
theorem execDrawerWritePerforms_stores (h : s.req id = some r) (hk : r.kind = 1) (hcmd : r.cmd = none) (hmay : s.mayPerform r = true) :
    ∃ cores, execDrawerWritePerforms id s = .next { (s.droppedReq id).writeUnit r.key r.unit r.val r.mask with cores := cores } := by
  simp only [execDrawerWritePerforms, h, hk, hcmd, hmay]
  by_cases hlocal : ((s.droppedReq id).writeUnit r.key r.unit r.val r.mask).localStores r.who = true
  · exact ⟨_, congrArg _ (if_pos hlocal)⟩
  · exact ⟨_, congrArg _ (if_neg hlocal)⟩

/-! ## Accesses that stall (R367) -/

/-- An access has waited STALLTO on a pair that serves it not. -/
def State.Stalled (s : State) (r : DReq) : Prop :=
  ((s.pair (reqPair r)).state = 0 ∨ (s.pair (reqPair r)).state = 5 ∨ (s.pair (reqPair r)).state = 6 ∧ r.kind = 0) ∧ r.left = none ∧
    r.done = false ∧ r.dropped = false ∧ s.fab.stallto.toNat * 1024 ≤ r.stall
theorem State.Stalled.serves (hst : s.Stalled r) : (!((s.pair (reqPair r)).state = 0 || (s.pair (reqPair r)).state = 5 ||
    ((s.pair (reqPair r)).state = 6 && r.kind = 0)) || r.left.isSome || r.done || r.dropped ||
    decide (r.stall < s.fab.stallto.toNat * 1024)) = false := by
  obtain ⟨hstate, hleft, hdone, hdrop, hlong⟩ := hst
  have hserves : (decide ((s.pair (reqPair r)).state = 0) || decide ((s.pair (reqPair r)).state = 5) ||
      decide ((s.pair (reqPair r)).state = 6) && decide (r.kind = 0)) = true := by
    simpa only [Bool.or_eq_true, Bool.and_eq_true, decide_eq_true_eq, or_assoc] using hstate
  rw [hserves, hleft, hdone, hdrop]
  simpa using hlong
section
variable (h : s.req id = some r) (hst : s.Stalled r)
include h hst
theorem execStallTimeout_traps (hk : r.kind = 0) (hcmd : r.cmd = none) (hamo : r.amo = none) : execStallTimeout id s =
    .next (((s.droppedReq id).modCtx r.who fun c => c).takeTrap r.who (tLink 2 (reqPair r)) r.sl r.pc) := by
  rw [execStallTimeout, h]
  refine congrArg _ ((if_neg (ne_true_of_eq_false hst.serves)).trans ?_)
  rw [hcmd, hamo]
  exact if_neg (by simp [hk])
theorem execStallTimeout_notes (hk : r.kind = 1) (hcmd : r.cmd = none) : execStallTimeout id s =
    .next ((s.droppedReq id).noteStall r.who (reqPair r)) := by
  rw [execStallTimeout, h]
  refine congrArg _ ((if_neg (ne_true_of_eq_false hst.serves)).trans ?_)
  rw [hcmd]
  exact if_pos (by simp [hk])
theorem execStallTimeout_drops {k : Nat} {c : ECmdRec} (hcmd : r.cmd = some k) (hc : s.cmd k = some c) : execStallTimeout id s =
    .next ((s.setReq { r with dropped := true }).setCmd { c with status := 5 }).serveXfers := by
  have hbind : r.cmd.bind s.cmd = some c := by rw [hcmd]; exact hc
  rw [execStallTimeout, h]
  refine congrArg _ ((if_neg (ne_true_of_eq_false hst.serves)).trans ?_)
  rw [hbind]
end
theorem State.serveXfers_none (h : s.fab.xfers = []) : s.serveXfers = s := by
  unfold State.serveXfers
  rw [h]
  exact congrArg (State.finishWhole · s) (congrArg List.length h)

/-- Settles O20: the slot by `State.slotCrossed`, the accesses that perform and those that stall by one equation for each event. -/
theorem drawerAccesses : Obligations.DrawerAccesses := by
  unfold Obligations.DrawerAccesses
  refine ⟨fun d s hd ht => ?_, fun id r s hr hmay => ⟨fun hk harr => ?_, fun hk hcmd => ?_⟩, fun id r s hr hst hleft hdone hdrop hlong =>
    ⟨fun hk hcmd hamo => ?_, fun hk hcmd => ?_, fun k c hcmd hc hx => ?_⟩⟩
  · have hfab := State.slotCrossed_fab (s := s) (d := d)
    refine ⟨_, execDrawerSlot_begins hd ht, ?_, ?_, State.slotCrossed_ids, fun x hx => State.slotCrossed_req hx,
      fun r hr hfirst hleft hq hlit hwhole => State.slotCrossed_first hr hfirst hleft ?_ hlit hwhole⟩
    · rw [hfab]
      exact aget_aset_self ..
    · rw [State.slotCrossed_rest]
    · rw [hfab] at hq
      exact hq
  · refine ⟨_, execDrawerReadDataPlaced_places hr hk hmay harr, State.placedRead_req hr, rfl, fun w hw => ?_,
      fun f hf l hl hfix hg => State.placedRead_fixes hr hf hl hfix hg⟩
    have htaken : (s.takeUnit r).ctx w = s.ctx w := State.ctx_modCtx_ne _ _ hw
    exact Eq.trans (State.ctx_modCtx_ne (s.placedRead r) _ hw) htaken
  · obtain ⟨cores, ht⟩ := execDrawerWritePerforms_stores hr hk hcmd hmay
    have hmem := State.memOnly_writeUnit (s := s.droppedReq id) r.key r.unit r.val r.mask
    refine ⟨_, ht, State.req_without (congrArg Fabric.reqs hmem.fab), ?_, hmem.ctxs⟩
    exact (congrArg State.mem (State.writeUnit_over (s := s) (s.droppedReq id) r.key r.unit r.val r.mask) :)
  · exact ⟨_, _, execStallTimeout_traps hr ⟨hst, hleft, hdone, hdrop, hlong⟩ hk hcmd hamo, State.req_without rfl, rfl⟩
  · refine ⟨_, execStallTimeout_notes hr ⟨hst, hleft, hdone, hdrop, hlong⟩ hk hcmd, State.req_without rfl, ?_⟩
    rw [State.noteStall, State.ctx_modCtx]
    exact ⟨rfl, rfl⟩
  · refine ⟨_, execStallTimeout_drops hr ⟨hst, hleft, hdone, hdrop, hlong⟩ hcmd hc, ?_⟩
    rw [State.serveXfers_none (s := (s.setReq _).setCmd _) hx]
    exact ⟨State.req_setReq hr (State.req_id hr : r.id = id), State.cmd_setCmd (s := s.setReq _) hc (State.cmd_id hc : c.id = k)⟩
end Sys2Proof.Machine
end

section
/-! Sends and receives (R209, R210, R371 to R374): how transfers fill their arms, and how sends and control flits end. -/

namespace Sys2Proof.Machine

variable {s t u : State} {r : ECmdRec} {id : Nat} {x y : Xfer}

/-! ## The ends of a send (R209) -/

theorem State.endCmd_cmd (st : Nat) : (s.endCmd r st).cmd r.id = none := by
  refine List.find?_eq_none.2 fun c hc hid => State.endCmd_gone st c hc ?_
  simpa using hid
theorem execSendTimeout_ends (h : s.cmd id = some r) (ho : r.opc = 8) (hw : s.fab.stallto.toNat * 1024 ≤ r.waited) :
    execSendTimeout id s = .next (s.endCmd r 5) := by
  rw [execSendTimeout, h]
  exact congrArg _ (if_pos (by simp [ho, hw]))
theorem execSendTimeout_waits (h : s.cmd id = some r) (hw : r.waited < s.fab.stallto.toNat * 1024) :
    execSendTimeout id s = .next s := by
  rw [execSendTimeout, h]
  exact congrArg _ (if_neg (by simp [hw]))
/-- A send's end by its acknowledgement: its notice is answered. -/
def State.answeredNotice (s : State) (r : ECmdRec) : State :=
  { s with fab := { s.fab with ctls := s.fab.ctls.filter fun c => !(c.kind == 1 && c.port == r.port && c.xseq == r.sq) } }
theorem execSendAcknowledgement_ends (h : s.cmd id = some r) (ho : r.opc = 8) (hf : r.flits ≤ r.sent) :
    execSendAcknowledgement id s = .next ((s.endCmd r r.status).answeredNotice r) := by
  rw [execSendAcknowledgement, h]
  exact congrArg _ (if_pos (by simp [ho, hf]))

/-! ## A flit in its arm's box (R210) -/

/-- The elements of a box that flit `i` fills, each with its place in the flit. -/
def ECmdRec.flitElems (r : ECmdRec) (i w : Nat) : List (Elem × Nat) :=
  (((r.moves.drop (i * (512 / w))).take (512 / w)).map (·.1)).zip (List.range (512 / w))
/-- The arm's record once the flit is placed: what lies beyond the box gives status 6. -/
def ECmdRec.boxed (r : ECmdRec) (i w : Nat) : ECmdRec :=
  { r with status := if (r.flitElems i w).length < 512 / w then 6 else r.status, placed := r.placed ++ [i] }
/-- A flit's elements that lie outside the drawers are written at once. -/
def State.flitWritten (s : State) (r : ECmdRec) (i w : Nat) (d : BitVec 512) : State :=
  ((r.flitElems i w).filter fun e => (drawerOf (e.1.addr / 8)).isNone).foldl (fun s e => s.putElem e.1 (elemAt d.toNat w e.2))
    (s.setCmd (r.boxed i w))
theorem State.placeFlit_nil {i : Nat} {d : BitVec 512} (hm : r.moves = []) :
    s.placeFlit r i d = s.setCmd { r with status := 6, placed := r.placed ++ [i] } := by
  unfold State.placeFlit
  split
  · rfl
  · next h => simp [hm] at h
theorem State.placeFlit_cons {i : Nat} {d : BitVec 512} {m : Elem × Elem} {l : List (Elem × Elem)} (hm : r.moves = m :: l) :
    (s.flitWritten r i m.1.w d).Asked (s.placeFlit r i d) := by
  unfold State.placeFlit
  split
  · next h => simp [hm] at h
  · next h =>
    obtain ⟨rfl, rfl⟩ := List.cons.inj (hm.symm.trans h)
    refine foldl_related State.Asked.refl (fun _ _ _ => State.Asked.trans) (fun s u => ?_) _ _
    split <;> exact ⟨rfl⟩
theorem State.flitWritten_memOnly (i w : Nat) (d : BitVec 512) : (s.setCmd (r.boxed i w)).MemOnly (s.flitWritten r i w d) :=
  .foldl (fun _ _ => State.memOnly_putElem ..) ..
/-- Nothing of the fabric but the drawers' requests differs. -/
theorem State.placeFlit_fab (i : Nat) (d : BitVec 512) : (s.placeFlit r i d).fab = { s.fab with reqs := (s.placeFlit r i d).fab.reqs } := by
  cases hm : r.moves with
  | nil => rw [State.placeFlit_nil hm]; rfl
  | cons m l =>
    have h := (congrArg State.fab (State.placeFlit_cons (s := s) (i := i) (d := d) hm).eq :)
    rw [h, (State.flitWritten_memOnly ..).fab]
    rfl
/-- What a flit leaves in memory and in its arm's record, where the box lies outside the drawers. -/
def State.Places (s t : State) (id : Nat) (r : ECmdRec) (i : Nat) (d : BitVec 512) : Prop :=
  (r.moves = [] → t.mem = s.mem ∧ t.cmd id = some { r with status := 6, placed := r.placed ++ [i] }) ∧
    (∀ m l, r.moves = m :: l → (∀ e ∈ r.moves, drawerOf (e.1.addr / 8) = none) → t.cmd id = some (r.boxed i m.1.w) ∧
      t.mem = ((r.flitElems i m.1.w).foldl (fun s e => s.putElem e.1 (elemAt d.toNat m.1.w e.2)) s).mem)
theorem State.placeFlit_places (i : Nat) (d : BitVec 512) (hc : u.cmd id = some r) (hu : u = s.over u) :
    s.Places (u.placeFlit r i d) id r i d := by
  have hid := State.cmd_id hc
  refine ⟨fun hm => ?_, fun m l hm hnear => ?_⟩
  · rw [State.placeFlit_nil hm]
    exact ⟨(congrArg State.mem hu :), State.cmd_setCmd hc hid⟩
  · have hask := State.placeFlit_cons (s := u) (i := i) (d := d) hm
    have hmem := State.flitWritten_memOnly (s := u) (r := r) i m.1.w d
    have hall : (r.flitElems i m.1.w).filter (fun e => (drawerOf (e.1.addr / 8)).isNone) = r.flitElems i m.1.w := by
      refine List.filter_eq_self.2 fun e he => ?_
      obtain ⟨v, hv, hve⟩ := List.mem_map.1 (List.of_mem_zip (show (e.1, e.2) ∈ r.flitElems i m.1.w from he)).1
      rw [← hve, hnear v (List.mem_of_mem_drop (List.mem_of_mem_take hv))]
      rfl
    have hover : u.setCmd (r.boxed i m.1.w) = s.over (u.setCmd (r.boxed i m.1.w)) :=
      (congrArg (State.setCmd · (r.boxed i m.1.w)) hu :)
    constructor
    · rw [State.cmd, (congrArg State.cmds hask.eq :), hmem.cmds]
      exact State.cmd_setCmd hc hid
    · rw [(congrArg State.mem hask.eq :), State.flitWritten, hall, hover]
      have hhom : (r.flitElems i m.1.w).foldl (fun s e => s.putElem e.1 (elemAt d.toNat m.1.w e.2)) (s.over (u.setCmd (r.boxed i m.1.w))) =
          ((r.flitElems i m.1.w).foldl (fun s e => s.putElem e.1 (elemAt d.toNat m.1.w e.2)) s).over (u.setCmd (r.boxed i m.1.w)) :=
        List.foldl_hom (State.over · (u.setCmd (r.boxed i m.1.w))) fun _ _ => State.putElem_over ..
      rw [hhom]
      rfl

/-! ## Transfers that are served (R210, R373) -/

/-- A transfer holds a flit: it waits for an arm, or is placed. -/
def Xfer.Holds (x : Xfer) (flit : Nat) : Prop := flit ∈ x.got ∨ ∃ f ∈ x.flits, f.1 = flit
theorem Xfer.holds_iff (x : Xfer) (flit : Nat) : (x.got.contains flit || x.flits.any fun f => f.1 == flit) = true ↔ x.Holds flit := by
  simp [Xfer.Holds]
/-- A transfer once it has an arm. -/
def Xfer.given (x : Xfer) (id : Nat) : Xfer := { x with arm := some id, flits := [], got := x.got ++ x.flits.map (·.1) }
theorem Xfer.given_holds {flit : Nat} (h : x.Holds flit) (id : Nat) : (x.given id).Holds flit := by
  obtain h | ⟨f, hf, rfl⟩ := h
  · exact .inl (List.mem_append_left _ h)
  · exact .inl (List.mem_append_right _ (List.mem_map_of_mem hf))
theorem State.giveArm_armed (h : x.arm = some id) : s.giveArm x = s := by
  unfold State.giveArm
  rw [h]
theorem State.giveArm_waits (h : s.freeArm x.rq = none) : s.giveArm x = s := by
  unfold State.giveArm
  rw [h]
  cases x.arm <;> rfl
/-- A flit that a transfer held is placed in the box of its arm, command `id`. -/
def State.placeHeld (id : Nat) (s : State) (f : Nat × BitVec 512) : State :=
  match s.cmd id with
  | some r => s.placeFlit r f.1 f.2
  | none => s
theorem State.giveArm_gives (hx : x.arm = none) (hfree : s.freeArm x.rq = some id) :
    s.giveArm x = x.flits.foldl (State.placeHeld id) (s.setXfer (x.given id)) := by
  unfold State.giveArm
  rw [hx, hfree]
  rfl
theorem State.giveArm_places {i : Nat} {d : BitVec 512} (hx : x.arm = none) (hfree : s.freeArm x.rq = some id) (hf : x.flits = [(i, d)])
    (hc : s.cmd id = some r) : s.giveArm x = (s.setXfer (x.given id)).placeFlit r i d := by
  have hc : (s.setXfer (x.given id)).cmd id = some r := hc
  rw [State.giveArm_gives hx hfree, hf, List.foldl_cons, List.foldl_nil, State.placeHeld, hc]
/-- Only the requests and the transfers of the fabric differ. -/
structure State.Served (s t : State) : Prop where
  fab : t.fab = { s.fab with xfers := t.fab.xfers, reqs := t.fab.reqs }
theorem State.Served.refl (s : State) : s.Served s := ⟨rfl⟩
theorem State.Served.trans (h : s.Served t) (k : t.Served u) : s.Served u := ⟨by rw [k.fab, h.fab]⟩
theorem State.Served.pair (h : s.Served t) (p : Nat) : t.pair p = s.pair p := by rw [State.pair, h.fab]; rfl
theorem State.served_setXfer (x : Xfer) : s.Served (s.setXfer x) := ⟨rfl⟩
theorem State.placeFlit_served (i : Nat) (d : BitVec 512) : s.Served (s.placeFlit r i d) ∧ (s.placeFlit r i d).fab.xfers = s.fab.xfers := by
  rw [State.placeFlit_fab]
  exact ⟨⟨by rw [State.placeFlit_fab]⟩, rfl⟩
theorem State.placeHeld_served (l : List (Nat × BitVec 512)) :
    s.Served (l.foldl (State.placeHeld id) s) ∧ (l.foldl (State.placeHeld id) s).fab.xfers = s.fab.xfers := by
  refine foldl_related (R := fun s t : State => s.Served t ∧ t.fab.xfers = s.fab.xfers) (fun s => ⟨.refl s, rfl⟩)
    (fun _ _ _ h k => ⟨h.1.trans k.1, k.2.trans h.2⟩) (fun s f => ?_) l s
  unfold State.placeHeld
  split
  · exact State.placeFlit_served ..
  · exact ⟨.refl s, rfl⟩
/-- Giving an arm leaves the other transfers as they were. -/
theorem State.giveArm_served (x : Xfer) : s.Served (s.giveArm x) ∧
    ((s.giveArm x).fab.xfers = s.fab.xfers ∨ ∃ id, (s.giveArm x).fab.xfers = (s.setXfer (x.given id)).fab.xfers) := by
  cases hx : x.arm with
  | some id => rw [State.giveArm_armed hx]; exact ⟨.refl s, .inl rfl⟩
  | none =>
    cases hfree : s.freeArm x.rq with
    | none => rw [State.giveArm_waits hfree]; exact ⟨.refl s, .inl rfl⟩
    | some id =>
      rw [State.giveArm_gives hx hfree]
      obtain ⟨hserved, hxfers⟩ := State.placeHeld_served (id := id) (s := s.setXfer (x.given id)) x.flits
      exact ⟨(State.served_setXfer _).trans hserved, .inr ⟨id, hxfers⟩⟩
theorem State.finishWhole_none (h : ∀ y ∈ s.fab.xfers, y.notice = none) (n : Nat) : State.finishWhole n s = s := by
  cases n with
  | zero => rfl
  | succ n =>
    have hnone : s.fab.xfers.find? s.whole = none := by
      refine List.find?_eq_none.2 fun y hy => ?_
      simp [State.whole, h y hy]
    rw [State.finishWhole, hnone]
/-- The transfers that can take an arm have taken one, oldest first. -/
def State.armsGiven (s : State) : State := s.fab.xfers.foldl (fun s x => s.giveArm x) s
theorem State.serveXfers_eq : s.serveXfers = State.finishWhole s.armsGiven.fab.xfers.length s.armsGiven := rfl
theorem State.serveXfers_unnoticed (h : ∀ y ∈ s.armsGiven.fab.xfers, y.notice = none) : s.serveXfers = s.armsGiven := by
  rw [State.serveXfers_eq, State.finishWhole_none h]
theorem State.armsGiven_one (h : s.fab.xfers = [x]) : s.armsGiven = s.giveArm x := by
  rw [State.armsGiven, h]
  rfl

/-! ## A flit that is held once (R372) -/

/-- A transfer of a port with a number. -/
def Xfer.Of (x : Xfer) (port seq : Nat) : Prop := x.port = port ∧ x.seq = seq
/-- No notice has arrived, and every copy of a transfer holds a flit. -/
def Xfer.Kept (port seq flit : Nat) (x : Xfer) : Prop := x.notice = none ∧ (x.Of port seq → x.Holds flit)
structure State.Keeps (s : State) (port seq flit : Nat) : Prop where
  some : ∃ y ∈ s.fab.xfers, y.Of port seq
  all  : ∀ y ∈ s.fab.xfers, y.Kept port seq flit
variable {port seq flit : Nat}
theorem State.mem_setXfer : y ∈ (s.setXfer x).fab.xfers ↔ ∃ z ∈ s.fab.xfers, (if z.port = x.port ∧ z.seq = x.seq then x else z) = y := List.mem_map
/-- A transfer of the list that is replaced by one that keeps the flit. -/
theorem State.keeps_setXfer (hsome : ∃ y ∈ s.fab.xfers, y.Of port seq) (hx : x.Kept port seq flit)
    (hall : ∀ y ∈ s.fab.xfers, ¬ y.Of x.port x.seq → y.Kept port seq flit) : (s.setXfer x).Keeps port seq flit := by
  constructor
  · obtain ⟨y, hy, hof⟩ := hsome
    refine ⟨_, State.mem_setXfer.2 ⟨y, hy, rfl⟩, ?_⟩
    split
    · next h => exact ⟨h.1.symm.trans hof.1, h.2.symm.trans hof.2⟩
    · exact hof
  · intro y hy
    obtain ⟨z, hz, rfl⟩ := State.mem_setXfer.1 hy
    split
    · exact hx
    · next h => exact hall z hz h
theorem State.Keeps.of_xfers (h : s.Keeps port seq flit) (e : t.fab.xfers = s.fab.xfers) : t.Keeps port seq flit :=
  ⟨by rw [e]; exact h.some, by rw [e]; exact h.all⟩
theorem State.Keeps.giveArm (h : s.Keeps port seq flit) (hx : x.Kept port seq flit) : (s.giveArm x).Keeps port seq flit := by
  obtain ⟨-, hsame | ⟨id, hgiven⟩⟩ := s.giveArm_served x
  · exact h.of_xfers hsame
  · refine (State.keeps_setXfer h.some (x := x.given id) ?_ fun y hy _ => h.all y hy).of_xfers hgiven
    exact ⟨hx.1, fun hof => Xfer.given_holds (hx.2 hof) id⟩
/-- Serving the transfers loses no flit, and touches no pair. -/
theorem State.Keeps.serveXfers (h : s.Keeps port seq flit) : s.serveXfers.Keeps port seq flit ∧ s.Served s.serveXfers := by
  have hgive (l : List Xfer) (hl : ∀ y ∈ l, y.Kept port seq flit) (u : State) (hu : u.Keeps port seq flit) :
      (l.foldl (fun s x => s.giveArm x) u).Keeps port seq flit ∧ u.Served (l.foldl (fun s x => s.giveArm x) u) := by
    induction l generalizing u with
    | nil => exact ⟨hu, .refl u⟩
    | cons x l ih =>
      obtain ⟨hkeeps, hserved⟩ := ih (fun y hy => hl y (List.mem_cons_of_mem _ hy)) _ (hu.giveArm (hl x List.mem_cons_self))
      exact ⟨hkeeps, (u.giveArm_served x).1.trans hserved⟩
  obtain ⟨hkeeps, hserved⟩ := (hgive s.fab.xfers h.all s h : s.armsGiven.Keeps port seq flit ∧ s.Served s.armsGiven)
  rw [State.serveXfers_unnoticed fun y hy => (hkeeps.all y hy).1]
  exact ⟨hkeeps, hserved⟩

/-! ## A flit arrives (R372) -/

theorem State.flitError_pair (p : Nat) : (s.flitError p).pair p =
    { s.pair p with errc := satInc (s.pair p).errc, errs := (s.pair p).errs + 1, idle := 0 } := State.pair_modPair ..
/-- A good flit is noted by its pair. -/
def State.flitNoted (s : State) (pair : Nat) : State := (s.corrected pair).modPair pair fun p => { p with idle := 0 }
theorem State.flitNoted_pair (pair : Nat) : ((s.flitNoted pair).pair pair).idle = 0 ∧
    (((s.flitNoted pair).pair pair).errc = (s.pair pair).errc ∨ ((s.flitNoted pair).pair pair).errc = satInc (s.pair pair).errc) := by
  rw [State.flitNoted, State.pair_modPair, State.corrected]
  refine ⟨rfl, ?_⟩
  rw [State.pair_modPair]
  dsimp only
  split
  · exact .inr rfl
  · exact .inl rfl
section
variable {port pair rq flit slack arr : Nat} {seq : BitVec 32} {data : BitVec 512} {ok : Bool}
/-- A transfer with a port and a number, as the model looks for it. -/
def Xfer.isOf (port seq : Nat) (x : Xfer) : Bool := x.port == port && x.seq == seq
theorem Xfer.isOf_iff {port seq : Nat} : x.isOf port seq = true ↔ x.Of port seq := by simp [Xfer.isOf, Xfer.Of]
/-- The transfer of a flit is open. -/
def State.flitOpened (s : State) (port pair rq : Nat) (seq : BitVec 32) : State :=
  let u := s.flitNoted pair
  if u.fab.xfers.any (Xfer.isOf port seq.toNat) then u
  else { u with fab := { u.fab with xfers := u.fab.xfers ++ [{ port := port, rq := rq, seq := seq.toNat }] } }
/-- No control flit asks for a flit any more. -/
def State.flitUnasked (s : State) (port : Nat) (seq : BitVec 32) (flit : Nat) : State :=
  { s with fab := { s.fab with ctls := s.fab.ctls.filter fun c =>
      !(c.kind == 3 && c.port == port && c.xseq == seq.toNat && c.flit == flit) } }
/-- The transfer of a flit takes it, once. -/
def State.holdFlit (s : State) (port seq flit : Nat) (data : BitVec 512) : State :=
  match s.fab.xfers.find? (Xfer.isOf port seq) with
  | none => s
  | some x =>
    if x.got.contains flit || x.flits.any fun f => f.1 == flit then s
    else
      match x.arm.bind s.cmd with
      | some r => ((s.setXfer { x with got := x.got ++ [flit] }).placeFlit r flit data).serveXfers
      | none => (s.setXfer { x with flits := x.flits ++ [(flit, data)] }).serveXfers
/-- The machine as a good flit finds its transfer. -/
def State.flitIn (s : State) (port pair rq : Nat) (seq : BitVec 32) (flit : Nat) : State :=
  (s.flitOpened port pair rq seq).flitUnasked port seq flit
theorem execFlitArrival_holds (hpast : s.fab.past port seq = false) (hok : ok = true) (hacc : s.fab.accepts port slack arr = true) :
    execFlitArrival port pair rq seq flit data ok slack arr s =
      .next ((s.flitIn port pair rq seq flit).holdFlit port seq.toNat flit data) :=
  congrArg _ ((if_neg (by simp [hpast])).trans (if_neg (by simp [hok, hacc])))
theorem execFlitArrival_bad (hpast : s.fab.past port seq = false) (hbad : ok = false ∨ s.fab.accepts port slack arr = false) :
    execFlitArrival port pair rq seq flit data ok slack arr s = .next ((s.flitError pair).control 3 port seq.toNat flit) := by
  refine congrArg _ ((if_neg (by simp [hpast])).trans (if_pos ?_))
  obtain h | h := hbad <;> simp [h]
theorem execFlitArrival_past (hpast : s.fab.past port seq = true) :
    execFlitArrival port pair rq seq flit data ok slack arr s = .next (s.flitNoted pair) := congrArg _ (if_pos hpast)
theorem State.flitIn_rest : s.flitIn port pair rq seq flit =
    { s with fab := (s.flitIn port pair rq seq flit).fab, fresh := (s.flitIn port pair rq seq flit).fresh } := by
  unfold State.flitIn State.flitOpened
  dsimp only
  split <;> rfl
theorem State.flitIn_xfers : (s.flitIn port pair rq seq flit).fab.xfers =
    if s.fab.xfers.any (Xfer.isOf port seq.toNat) then s.fab.xfers else s.fab.xfers ++ [{ port := port, rq := rq, seq := seq.toNat }] := by
  unfold State.flitIn State.flitOpened
  dsimp only
  split
  · next h => exact (if_pos h).symm
  · next h => exact (if_neg h).symm
theorem State.flitIn_recvs : (s.flitIn port pair rq seq flit).fab.recvs = s.fab.recvs := by
  unfold State.flitIn State.flitOpened
  dsimp only
  split <;> rfl
theorem State.flitIn_pair (k : Nat) : (s.flitIn port pair rq seq flit).pair k = (s.flitNoted pair).pair k := by
  unfold State.flitIn State.flitOpened
  dsimp only
  split <;> rfl
theorem State.flitIn_some : ∃ y ∈ (s.flitIn port pair rq seq flit).fab.xfers, y.Of port seq.toNat := by
  rw [State.flitIn_xfers]
  split
  · next h =>
    obtain ⟨y, hy, hof⟩ := List.any_eq_true.1 h
    exact ⟨y, hy, Xfer.isOf_iff.1 hof⟩
  · exact ⟨_, List.mem_append_right _ List.mem_cons_self, rfl, rfl⟩
theorem State.flitIn_unnoticed (h : ∀ y ∈ s.fab.xfers, y.notice = none) :
    ∀ y ∈ (s.flitIn port pair rq seq flit).fab.xfers, y.notice = none := by
  rw [State.flitIn_xfers]
  split
  · exact h
  · intro y hy
    obtain hy | hy := List.mem_append.1 hy
    · exact h y hy
    · rw [List.mem_singleton.1 hy]
theorem State.flitIn_new (h : s.fab.xfers = []) :
    (s.flitIn port pair rq seq flit).fab.xfers = [{ port := port, rq := rq, seq := seq.toNat }] := by simp [State.flitIn_xfers, h]
theorem State.flitIn_open (h : s.fab.xfers = [y]) (hof : y.Of port seq.toNat) : (s.flitIn port pair rq seq flit).fab.xfers = [y] := by
  simp [State.flitIn_xfers, h, Xfer.isOf_iff.2 hof]
theorem State.flitIn_cmd (id : Nat) : (s.flitIn port pair rq seq flit).cmd id = s.cmd id := by
  rw [State.flitIn_rest]
  rfl
theorem State.flitIn_mem : (s.flitIn port pair rq seq flit).mem = s.mem := by rw [State.flitIn_rest]
theorem State.flitIn_cmds : (s.flitIn port pair rq seq flit).cmds = s.cmds := by rw [State.flitIn_rest]
theorem State.flitIn_over : s.flitIn port pair rq seq flit = s.over (s.flitIn port pair rq seq flit) := by
  rw [State.flitIn_rest]
  rfl
end

theorem State.cmd_setXfer (x : Xfer) : (s.setXfer x).cmd id = s.cmd id := rfl
theorem State.setXfer_over (h : u = s.over u) (x : Xfer) : u.setXfer x = s.over (u.setXfer x) := (congrArg (State.setXfer · x) h :)

/-! ## The flit's transfer takes it -/

variable {data : BitVec 512}

theorem State.holdFlit_copy (hx : s.fab.xfers.find? (Xfer.isOf port seq) = some x) (h : x.Holds flit) : s.holdFlit port seq flit data = s := by
  unfold State.holdFlit
  rw [hx]
  exact if_pos ((x.holds_iff flit).2 h)
theorem State.holdFlit_placed (hx : s.fab.xfers.find? (Xfer.isOf port seq) = some x) (h : ¬ x.Holds flit)
    (hr : x.arm.bind s.cmd = some r) : s.holdFlit port seq flit data =
      ((s.setXfer { x with got := x.got ++ [flit] }).placeFlit r flit data).serveXfers := by
  unfold State.holdFlit
  rw [hx]
  refine (if_neg (mt (x.holds_iff flit).1 h)).trans ?_
  rw [hr]
theorem State.holdFlit_waits (hx : s.fab.xfers.find? (Xfer.isOf port seq) = some x) (h : ¬ x.Holds flit)
    (hr : x.arm.bind s.cmd = none) : s.holdFlit port seq flit data =
      (s.setXfer { x with flits := x.flits ++ [(flit, data)] }).serveXfers := by
  unfold State.holdFlit
  rw [hx]
  refine (if_neg (mt (x.holds_iff flit).1 h)).trans ?_
  rw [hr]
/-- With no notice in, a flit is held once it has arrived, and nothing of the fabric but requests and transfers differs. -/
theorem State.holdFlit_keeps (hsome : ∃ y ∈ s.fab.xfers, y.Of port seq) (hnote : ∀ y ∈ s.fab.xfers, y.notice = none) :
    (∃ y ∈ (s.holdFlit port seq flit data).fab.xfers, y.Of port seq ∧ y.Holds flit) ∧ s.Served (s.holdFlit port seq flit data) := by
  obtain ⟨x, hfind⟩ : ∃ x, s.fab.xfers.find? (Xfer.isOf port seq) = some x := by
    obtain ⟨y, hy, hof⟩ := hsome
    exact Option.isSome_iff_exists.1 (List.find?_isSome.2 ⟨y, hy, Xfer.isOf_iff.2 hof⟩)
  have hmem := List.mem_of_find?_eq_some hfind
  have hof : x.Of port seq := Xfer.isOf_iff.1 (List.find?_some hfind)
  have serves (z : Xfer) (hz : z.Of port seq ∧ z.notice = none ∧ z.Holds flit) {u : State} (hu : (s.setXfer z).Served u)
      (hxfers : u.fab.xfers = (s.setXfer z).fab.xfers) :
      (∃ y ∈ u.serveXfers.fab.xfers, y.Of port seq ∧ y.Holds flit) ∧ s.Served u.serveXfers := by
    obtain ⟨⟨hport, hseq⟩, hnone, hholds⟩ := hz
    have hkeeps : (s.setXfer z).Keeps port seq flit := by
      refine State.keeps_setXfer hsome ⟨hnone, fun _ => hholds⟩ fun y hy hnot => ⟨hnote y hy, fun hy => absurd ?_ hnot⟩
      exact ⟨hy.1.trans hport.symm, hy.2.trans hseq.symm⟩
    obtain ⟨hend, hserved⟩ := (hkeeps.of_xfers hxfers).serveXfers
    obtain ⟨y, hy, hyof⟩ := hend.some
    exact ⟨⟨y, hy, hyof, (hend.all y hy).2 hyof⟩, ((State.served_setXfer z).trans hu).trans hserved⟩
  by_cases hold : x.Holds flit
  · rw [State.holdFlit_copy hfind hold]
    exact ⟨⟨x, hmem, hof, hold⟩, .refl s⟩
  · cases hr : x.arm.bind s.cmd with
    | some r =>
      rw [State.holdFlit_placed hfind hold hr]
      obtain ⟨hserved, hxfers⟩ := State.placeFlit_served (s := s.setXfer { x with got := x.got ++ [flit] }) (r := r) flit data
      exact serves { x with got := x.got ++ [flit] } ⟨hof, hnote x hmem, .inl (List.mem_append_right _ List.mem_cons_self)⟩ hserved hxfers
    | none =>
      rw [State.holdFlit_waits hfind hold hr]
      exact serves { x with flits := x.flits ++ [(flit, data)] }
        ⟨hof, hnote x hmem, .inr ⟨_, List.mem_append_right _ List.mem_cons_self, rfl⟩⟩ (.refl _) rfl

/-! ## One transfer under way (R210, R373) -/

theorem State.find_one (h : s.fab.xfers = [x]) (hof : x.Of port seq) : s.fab.xfers.find? (Xfer.isOf port seq) = some x := by
  rw [h, List.find?_cons_of_pos (Xfer.isOf_iff.2 hof)]
theorem State.setXfer_one (h : s.fab.xfers = [x]) (hof : x.Of y.port y.seq) : (s.setXfer y).fab.xfers = [y] := by
  have hset : (s.setXfer y).fab.xfers = s.fab.xfers.map fun z => if z.port = y.port ∧ z.seq = y.seq then y else z := rfl
  rw [hset, h]
  exact congrArg (fun z => [z]) (if_pos hof)
theorem State.freeArm_one (h : s.fab.xfers = [x]) (ha : x.arm = none) (rq : Nat) : s.freeArm rq = (aget [] s.fab.recvs rq).head? := by
  unfold State.freeArm
  rw [h]
  cases aget [] s.fab.recvs rq <;> simp [ha]
theorem State.finishWhole_still (h : s.fab.xfers = [x]) (hw : s.whole x = false) (n : Nat) : State.finishWhole n s = s := by
  cases n with
  | zero => rfl
  | succ n =>
    have hnone : s.fab.xfers.find? s.whole = none := by simp [h, hw]
    rw [State.finishWhole, hnone]
theorem State.serveXfers_still (h : s.fab.xfers = [x]) (hgive : s.giveArm x = s) (hw : s.whole x = false) : s.serveXfers = s := by
  rw [State.serveXfers_eq, State.armsGiven_one h, hgive, State.finishWhole_still h hw]
theorem State.whole_unnoticed (h : x.notice = none) : s.whole x = false := by simp [State.whole, h]
theorem State.whole_unarmed (h : x.arm = none) : s.whole x = false := by
  unfold State.whole
  rw [h]
  cases x.notice <;> rfl
theorem State.serveXfers_finishes (h : s.fab.xfers = [x]) (hgive : s.giveArm x = s) (hw : s.whole x = true) : s.serveXfers = s.finishXfer x := by
  have hsome : s.fab.xfers.find? s.whole = some x := by simp [h, hw]
  rw [State.serveXfers_eq, State.armsGiven_one h, hgive, h, List.length_singleton, State.finishWhole, hsome]
  rfl
theorem State.serveXfers_places {i : Nat} {d : BitVec 512} (h : s.fab.xfers = [x]) (ha : x.arm = none)
    (hfree : (aget [] s.fab.recvs x.rq).head? = some id) (hf : x.flits = [(i, d)]) (hc : s.cmd id = some r) (hn : x.notice = none) :
    s.serveXfers = (s.setXfer (x.given id)).placeFlit r i d ∧ s.serveXfers.fab.xfers = [x.given id] := by
  have hgive : s.armsGiven = (s.setXfer (x.given id)).placeFlit r i d :=
    (State.armsGiven_one h).trans (State.giveArm_places ha ((State.freeArm_one h ha _).trans hfree) hf hc)
  have hxfers : s.armsGiven.fab.xfers = [x.given id] := by
    rw [hgive, State.placeFlit_served _ _ |>.2]
    exact State.setXfer_one h ⟨rfl, rfl⟩
  rw [State.serveXfers_eq, State.finishWhole_still hxfers (State.whole_unnoticed hn)]
  exact ⟨hgive, hxfers⟩

/-! ## Notices (R373, R374) -/

section
variable {port rq n : Nat} {seq : BitVec 32}
/-- A notice is noted with its transfer. -/
def State.noticed (s : State) (port rq : Nat) (seq : BitVec 32) (n : Nat) : State :=
  let opened := if s.fab.xfers.any (Xfer.isOf port seq.toNat) then s.fab.xfers
    else s.fab.xfers ++ [{ port := port, rq := rq, seq := seq.toNat }]
  { s with fab := { s.fab with xfers := opened.map fun x => if x.isOf port seq.toNat then { x with notice := some n } else x } }
theorem execCompletionNotice_past (h : s.fab.past port seq = true) : execCompletionNotice port rq seq n s = .next s :=
  congrArg _ (if_pos h)
theorem execCompletionNotice_serves (h : s.fab.past port seq = false) :
    execCompletionNotice port rq seq n s = .next (s.noticed port rq seq n).serveXfers := congrArg _ (if_neg (by simp [h]))
theorem State.noticed_new (h : s.fab.xfers = []) : (s.noticed port rq seq n).fab.xfers =
    [{ port := port, rq := rq, seq := seq.toNat, notice := some n }] := by
  simp [State.noticed, h, Xfer.isOf]
theorem State.noticed_open (h : s.fab.xfers = [x]) (hof : x.Of port seq.toNat) :
    (s.noticed port rq seq n).fab.xfers = [{ x with notice := some n }] := by
  simp [State.noticed, h, Xfer.isOf_iff.2 hof]
/-- The next transfer of a port is not past. -/
theorem Fabric.past_next {f : Fabric} (h : seq.toNat = aget 0 f.recvSeq port) : f.past port seq = false := by
  have hzero : seq - BitVec.ofNat 32 (aget 0 f.recvSeq port) = 0 := by rw [← h]; simp
  rw [Fabric.past, hzero]
  rfl
end
/-- A whole transfer is complete: it leaves, its number is counted, and an acknowledgement goes out. -/
theorem State.finishXfer_ends (h : x.arm.bind s.cmd = some r) (hx : s.fab.xfers = [x]) :
    (s.finishXfer x).fab.xfers = [] ∧ aget 0 (s.finishXfer x).fab.recvSeq x.port = (x.seq + 1) % 2 ^ 32 ∧
      (s.finishXfer x).fab.out.head? = some (2, x.port, x.seq, 0, 0) ∧
      (s.finishXfer x).cmds = (s.endCmd { r with units := x.notice.getD 0 } r.status).cmds ∧
      (s.finishXfer x).ctxs = (s.endCmd { r with units := x.notice.getD 0 } r.status).ctxs := by
  unfold State.finishXfer
  rw [h]
  refine ⟨?_, aget_aset_self .., rfl, rfl, rfl⟩
  have hxfers : (s.endCmd { r with units := x.notice.getD 0 } r.status).fab.xfers = [x] := by
    rw [State.endCmd_fab]
    exact hx
  refine (congrArg (List.filter _) hxfers : _).trans ?_
  simp

/-! ## Control flits (R374) -/

section
variable {port : Nat} {seq : BitVec 32} {ok : Bool} {ask : Option (Nat × Nat)}
theorem execControlFlit_ignores (h : ok = false ∨ (port, seq.toNat) ∈ s.fab.ctlSeen) : execControlFlit port seq ok ask s = .next s := by
  refine congrArg _ (if_pos ?_)
  obtain h | h := h <;> simp [h]
/-- A control flit has been accepted, and the request in it is queued. -/
def State.ctlAccepted (s : State) (port : Nat) (seq : BitVec 32) (ask : Option (Nat × Nat)) : State :=
  { s with fab := { s.fab with ctlSeen := (port, seq.toNat) :: s.fab.ctlSeen,
                               resends := s.fab.resends ++ (ask.map fun a => (port, a.1, a.2)).toList } }
theorem execControlFlit_accepts (hok : ok = true) (hnew : (port, seq.toNat) ∉ s.fab.ctlSeen)
    (h : ∀ a, ask = some a → ∀ c ∈ s.fab.carried, ¬ (c.1 = port ∧ c.2.1 = a.1 ∧ c.2.2.1 = a.2)) :
    execControlFlit port seq ok ask s = .next (s.ctlAccepted port seq ask) := by
  refine congrArg _ ((if_neg (by simp [hok, hnew])).trans ?_)
  cases ask with
  | none => simp [State.ctlAccepted]
  | some a =>
    have hfind : s.fab.carried.find? (fun c => c.1 == port && c.2.1 == a.1 && c.2.2.1 == a.2) = none := by
      refine List.find?_eq_none.2 fun c hc hmine => h a rfl c hc ?_
      simpa [and_assoc] using hmine
    dsimp only
    rw [hfind]
    rfl
theorem execControlFlit_counts {a : Nat × Nat} {p : Nat} {l : List (Nat × Nat × Nat × Nat)} (hok : ok = true)
    (hnew : (port, seq.toNat) ∉ s.fab.ctlSeen) (hl : s.fab.carried = (port, a.1, a.2, p) :: l) :
    execControlFlit port seq ok (some a) s = .next ((s.ctlAccepted port seq (some a)).flitError p) := by
  refine congrArg _ ((if_neg (by simp [hok, hnew])).trans ?_)
  have hfind : s.fab.carried.find? (fun c => c.1 == port && c.2.1 == a.1 && c.2.2.1 == a.2) = some (port, a.1, a.2, p) := by
    simp [hl]
  dsimp only
  rw [hfind]
  rfl
end
/-- A control flit of pair `p` has gone unanswered for CTLTO. -/
def State.CtlDue (s : State) (p : Nat) (c : CtlFlit) : Prop := c.path = p ∧ p < 128 ∧ s.fab.ctlto.toNat * 1024 ≤ c.age
def State.ctlDue (s : State) (p : Nat) (c : CtlFlit) : Bool :=
  c.path == p && decide (p < 128) && decide (s.fab.ctlto.toNat * 1024 ≤ c.age)
theorem State.ctlDue_iff {p : Nat} {c : CtlFlit} : s.ctlDue p c = true ↔ s.CtlDue p c := by simp [State.ctlDue, State.CtlDue, and_assoc]
/-- The machine once control flit `c` of pair `p` waits to leave again. -/
def State.ctlAgain (s : State) (p : Nat) (c : CtlFlit) : State :=
  State.modPair { s with fab := { s.fab with
    ctls := s.fab.ctls.map fun d => if d = c then { c with path := 128, age := 0, tries := c.tries + 1 } else d } }
    p fun x => { x with tries := Nat.max x.tries (c.tries + 1) }
theorem execControlTimeout_none {p : Nat} (h : ∀ c ∈ s.fab.ctls, ¬ s.CtlDue p c) : execControlTimeout p s = .next s := by
  have hfind : s.fab.ctls.find? (s.ctlDue p) = none := List.find?_eq_none.2 fun c hc hdue => h c hc (State.ctlDue_iff.1 hdue)
  unfold State.ctlDue at hfind
  unfold execControlTimeout
  dsimp only
  rw [hfind]
theorem execControlTimeout_repeats {p : Nat} {a b : List CtlFlit} {c : CtlFlit} (hl : s.fab.ctls = a ++ c :: b)
    (ha : ∀ d ∈ a, ¬ s.CtlDue p d) (hc : s.CtlDue p c) : execControlTimeout p s = .next (s.ctlAgain p c) := by
  have hfind : s.fab.ctls.find? (s.ctlDue p) = some c := by
    have hnone : a.find? (s.ctlDue p) = none := List.find?_eq_none.2 fun d hd hdue => ha d hd (State.ctlDue_iff.1 hdue)
    rw [hl, List.find?_append, hnone, List.find?_cons_of_pos (State.ctlDue_iff.2 hc)]
    rfl
  unfold State.ctlDue at hfind
  unfold execControlTimeout
  dsimp only
  rw [hfind]
  rfl

/-- The control flit that waits leaves on the two lowest pairs of its port. -/
theorem State.sendControls_one {c : CtlFlit} (hc : s.fab.ctls = [c]) (hpath : c.path = 128) (p q : Nat) (ps : List Nat) :
    (s.sendControls c.port (p :: q :: ps)).fab.ctls = [{ c with path := p, age := 0 }] ∧
      (s.sendControls c.port (p :: q :: ps)).fab.out =
        (c.kind, c.port, c.xseq, c.flit, 0) :: (c.kind, c.port, c.xseq, c.flit, 0) :: s.fab.out := by
  simp [State.sendControls, State.putOut, hc, hpath]

/-! ## One transfer takes a flit (R210, R372) -/

section
variable {port pair rq flit : Nat} {seq : BitVec 32} {data : BitVec 512}
/-- No arm is in its queue: the transfer holds the flit until one is. -/
theorem State.holdFlit_queued (hx : s.fab.xfers = [x]) (hof : x.Of port seq.toNat) (hnew : ¬ x.Holds flit) (ha : x.arm = none)
    (hn : x.notice = none) (hq : aget [] s.fab.recvs x.rq = []) :
    s.holdFlit port seq.toNat flit data = s.setXfer { x with flits := x.flits ++ [(flit, data)] } := by
  have hset := State.setXfer_one (y := { x with flits := x.flits ++ [(flit, data)] }) hx ⟨rfl, rfl⟩
  rw [State.holdFlit_waits (State.find_one hx hof) hnew (by rw [ha]; rfl)]
  refine State.serveXfers_still hset (State.giveArm_waits ?_) (State.whole_unnoticed hn)
  refine (State.freeArm_one hset ha _).trans ?_
  exact congrArg List.head? hq
/-- A transfer with an arm puts the flit into its box. -/
theorem State.holdFlit_armed (hx : s.fab.xfers = [x]) (hof : x.Of port seq.toNat) (hnew : ¬ x.Holds flit) (ha : x.arm = some id)
    (hn : x.notice = none) (hr : s.cmd id = some r) : s.holdFlit port seq.toNat flit data =
      (s.setXfer { x with got := x.got ++ [flit] }).placeFlit r flit data ∧
      (s.holdFlit port seq.toNat flit data).fab.xfers = [{ x with got := x.got ++ [flit] }] := by
  have hset := State.setXfer_one (y := { x with got := x.got ++ [flit] }) hx ⟨rfl, rfl⟩
  have hplaced := ((State.placeFlit_served (s := s.setXfer { x with got := x.got ++ [flit] }) (r := r) flit data).2).trans hset
  rw [State.holdFlit_placed (State.find_one hx hof) hnew (by rw [ha]; exact hr),
    State.serveXfers_still hplaced (State.giveArm_armed ha) (State.whole_unnoticed hn)]
  exact ⟨rfl, hplaced⟩
/-- A new transfer takes the oldest arm of its queue, which no transfer fills, and puts the flit into its box. -/
theorem State.holdFlit_given (hx : s.fab.xfers = [{ port := port, rq := rq, seq := seq.toNat }])
    (hq : (aget [] s.fab.recvs rq).head? = some id) (hr : s.cmd id = some r) : s.holdFlit port seq.toNat flit data =
      ((s.setXfer { port := port, rq := rq, seq := seq.toNat, flits := [(flit, data)] }).setXfer
        { port := port, rq := rq, seq := seq.toNat, arm := some id, got := [flit] }).placeFlit r flit data ∧
      (s.holdFlit port seq.toNat flit data).fab.xfers = [{ port := port, rq := rq, seq := seq.toNat, arm := some id, got := [flit] }] := by
  have hset := State.setXfer_one (y := { port := port, rq := rq, seq := seq.toNat, flits := [(flit, data)] }) hx ⟨rfl, rfl⟩
  rw [State.holdFlit_waits (State.find_one hx ⟨rfl, rfl⟩) (by simp [Xfer.Holds]) rfl]
  exact State.serveXfers_places hset rfl hq rfl hr rfl
end

/-! ## A good flit, by what it finds -/

section
variable {port pair rq flit slack arr : Nat} {seq : BitVec 32} {data : BitVec 512} {ok : Bool}
variable (hpast : s.fab.past port seq = false) (hok : ok = true) (hacc : s.fab.accepts port slack arr = true)
include hpast hok hacc
theorem flitArrival_holds (hnote : ∀ y ∈ s.fab.xfers, y.notice = none) :
    ∃ t, execFlitArrival port pair rq seq flit data ok slack arr s = .next t ∧
      (∃ y ∈ t.fab.xfers, y.Of port seq.toNat ∧ y.Holds flit) ∧ (t.pair pair).idle = 0 ∧
      ((t.pair pair).errc = (s.pair pair).errc ∨ (t.pair pair).errc = satInc (s.pair pair).errc) := by
  obtain ⟨hheld, hserved⟩ := State.holdFlit_keeps (data := data) (s.flitIn_some (pair := pair) (rq := rq) (flit := flit))
    (State.flitIn_unnoticed hnote)
  refine ⟨_, execFlitArrival_holds hpast hok hacc, hheld, ?_⟩
  rw [hserved.pair, State.flitIn_pair]
  exact State.flitNoted_pair pair
theorem flitArrival_queued (hx : s.fab.xfers = []) (hq : aget [] s.fab.recvs rq = []) :
    ∃ t, execFlitArrival port pair rq seq flit data ok slack arr s = .next t ∧
      t.fab.xfers = [{ port := port, rq := rq, seq := seq.toNat, flits := [(flit, data)] }] ∧ t.mem = s.mem ∧ t.cmds = s.cmds := by
  have hux := State.flitIn_new (port := port) (pair := pair) (rq := rq) (seq := seq) (flit := flit) hx
  have huq : aget [] (s.flitIn port pair rq seq flit).fab.recvs rq = [] := by rw [State.flitIn_recvs]; exact hq
  refine ⟨_, execFlitArrival_holds hpast hok hacc, ?_⟩
  rw [State.holdFlit_queued hux ⟨rfl, rfl⟩ (by simp [Xfer.Holds]) rfl rfl huq]
  exact ⟨State.setXfer_one hux ⟨rfl, rfl⟩, State.flitIn_mem (flit := flit), State.flitIn_cmds (flit := flit)⟩
theorem flitArrival_given (hx : s.fab.xfers = []) (hq : (aget [] s.fab.recvs rq).head? = some id) (hr : s.cmd id = some r) :
    ∃ t, execFlitArrival port pair rq seq flit data ok slack arr s = .next t ∧
      t.fab.xfers = [{ port := port, rq := rq, seq := seq.toNat, arm := some id, got := [flit] }] ∧ s.Places t id r flit data := by
  have huq : (aget [] (s.flitIn port pair rq seq flit).fab.recvs rq).head? = some id := by rw [State.flitIn_recvs]; exact hq
  have hur : (s.flitIn port pair rq seq flit).cmd id = some r := State.flitIn_cmd id |>.trans hr
  obtain ⟨ht, hxfers⟩ := State.holdFlit_given (flit := flit) (data := data) (State.flitIn_new hx) huq hur
  refine ⟨_, execFlitArrival_holds hpast hok hacc, hxfers, ?_⟩
  rw [ht]
  refine State.placeFlit_places flit data ?_ (State.setXfer_over (State.setXfer_over State.flitIn_over _) _)
  rw [State.cmd_setXfer, State.cmd_setXfer, hur]
theorem flitArrival_armed (hx : s.fab.xfers = [y]) (hof : y.Of port seq.toNat) (ha : y.arm = some id) (hn : y.notice = none)
    (hr : s.cmd id = some r) (hnew : ¬ y.Holds flit) :
    ∃ t, execFlitArrival port pair rq seq flit data ok slack arr s = .next t ∧
      t.fab.xfers = [{ y with got := y.got ++ [flit] }] ∧ s.Places t id r flit data := by
  have hur : (s.flitIn port pair rq seq flit).cmd id = some r := State.flitIn_cmd id |>.trans hr
  obtain ⟨ht, hxfers⟩ := State.holdFlit_armed (flit := flit) (data := data) (State.flitIn_open hx hof) hof hnew ha hn hur
  refine ⟨_, execFlitArrival_holds hpast hok hacc, hxfers, ?_⟩
  rw [ht]
  refine State.placeFlit_places flit data ?_ (State.setXfer_over State.flitIn_over _)
  rw [State.cmd_setXfer, hur]
theorem flitArrival_copy (hx : s.fab.xfers = [y]) (hof : y.Of port seq.toNat) (hold : y.Holds flit) :
    ∃ t, execFlitArrival port pair rq seq flit data ok slack arr s = .next t ∧ t.fab.xfers = [y] ∧ t.mem = s.mem ∧ t.cmds = s.cmds := by
  refine ⟨_, execFlitArrival_holds hpast hok hacc, ?_⟩
  rw [State.holdFlit_copy (State.find_one (State.flitIn_open hx hof) hof) hold]
  exact ⟨State.flitIn_open hx hof, State.flitIn_mem, State.flitIn_cmds⟩
end

/-! ## Notices that are held, and one that completes -/

section
variable {port rq n : Nat} {seq : BitVec 32}
theorem completionNotice_held (hpast : s.fab.past port seq = false) (hx : s.fab.xfers = []) (hq : aget [] s.fab.recvs rq = []) :
    ∃ t, execCompletionNotice port rq seq n s = .next t ∧
      t.fab.xfers = [{ port := port, rq := rq, seq := seq.toNat, notice := some n }] ∧ t.mem = s.mem ∧ t.cmds = s.cmds := by
  have hset := State.noticed_new (port := port) (rq := rq) (seq := seq) (n := n) hx
  refine ⟨_, execCompletionNotice_serves hpast, ?_⟩
  rw [State.serveXfers_still hset (State.giveArm_waits ?_) (State.whole_unarmed rfl)]
  · exact ⟨hset, rfl, rfl⟩
  · exact (State.freeArm_one hset rfl rq).trans (congrArg List.head? hq)
theorem completionNotice_completes (hx : s.fab.xfers = [{ port := port, rq := rq, seq := seq.toNat, arm := some id, got := List.range n }])
    (hr : s.cmd id = some r) (hseq : seq.toNat = aget 0 s.fab.recvSeq port) (hreqs : ∀ q ∈ s.fab.reqs, q.cmd ≠ some id) :
    ∃ t, execCompletionNotice port rq seq n s = .next t ∧ t.cmd id = none ∧ t.fab.xfers = [] ∧
      (r.nq = false → (t.ctx r.who).rqGet 2 = arrive id (ECmdRec.record { r with units := n } r.status) ((s.ctx r.who).rqGet 2)) ∧
      aget 0 t.fab.recvSeq port = (seq.toNat + 1) % 2 ^ 32 ∧ t.fab.out.head? = some (2, port, seq.toNat, 0, 0) := by
  have hset := State.noticed_open (n := n) (port := port) (rq := rq) (seq := seq) hx ⟨rfl, rfl⟩
  have hwhole : (s.noticed port rq seq n).whole
      { port := port, rq := rq, seq := seq.toNat, arm := some id, got := List.range n, notice := some n } = true := by
    have hall : (s.fab.reqs.all fun q => !(q.cmd == some id && !q.done && !q.dropped)) = true :=
      List.all_eq_true.2 fun q hq => by simp [hreqs q hq]
    have hgot : ((List.range n).all fun i => (List.range n).contains i) = true :=
      List.all_eq_true.2 fun i hi => List.contains_iff_mem.2 hi
    refine (Bool.and_eq_true _ _).symm ▸ ⟨(Bool.and_eq_true _ _).symm ▸ ⟨decide_eq_true hseq, hgot⟩, hall⟩
  have harm : (some id).bind (s.noticed port rq seq n).cmd = some r := hr
  obtain ⟨hgone, hnext, hack, hends, hctxs⟩ := State.finishXfer_ends
    (x := { port := port, rq := rq, seq := seq.toNat, arm := some id, got := List.range n, notice := some n }) harm hset
  refine ⟨_, execCompletionNotice_serves (Fabric.past_next hseq), ?_⟩
  rw [State.serveXfers_finishes hset (State.giveArm_armed rfl) hwhole]
  obtain rfl := State.cmd_id hr
  refine ⟨?_, hgone, fun hn => ?_, hnext, hack⟩
  · rw [State.cmd, hends]
    exact State.endCmd_cmd (r := { r with units := n }) _
  · rw [State.ctx, hctxs]
    exact (State.endCmd_reports (s := s.noticed port rq seq n) (r := { r with units := n }) _).record hn
end

/-- Settles O22: a send's ends, a flit's arrival by what it finds, notices and control flits, each by one lemma above. -/
theorem sendsAndReceives : Obligations.SendsAndReceives := by
  unfold Obligations.SendsAndReceives
  refine ⟨fun id r s hr ho => ?_, fun port pair rq flit slack arr seq data ok s => ?_, fun port seq ok ask s => ?_, fun p s => ?_,
    fun c p q ps s hc hpath => State.sendControls_one hc hpath p q ps⟩
  · intro ends
    obtain rfl := State.cmd_id hr
    have hrec (st : Nat) (hn : r.nq = false) : ((s.endCmd r st).ctx r.who).rqGet 2 =
        arrive r.id (r.tag.toNat * 2 ^ 48 + Nat.min r.units (2 ^ 32 - 1) * 2 ^ 16 + 8 * 256 + st) ((s.ctx r.who).rqGet 2) := by
      rw [(State.endCmd_reports st).record hn, ECmdRec.record, ho]
    exact ⟨fun hf => ⟨_, execSendAcknowledgement_ends hr ho hf, State.endCmd_cmd _, hrec _, State.endCmd_ctxs _⟩,
      fun hw => ⟨_, execSendTimeout_ends hr ho hw, State.endCmd_cmd _, hrec _, State.endCmd_ctxs _⟩, execSendTimeout_waits hr⟩
  · have hfalse : ¬ s.fab.past port seq = true → s.fab.past port seq = false := eq_false_of_ne_true
    refine ⟨fun ⟨hok, hacc⟩ hp hnote => ⟨flitArrival_holds (hfalse hp) hok hacc hnote, flitArrival_queued (hfalse hp) hok hacc,
        fun id r => flitArrival_given (hfalse hp) hok hacc, fun y id r hx hof ha hr hnew => ?_,
        fun y => flitArrival_copy (hfalse hp) hok hacc⟩,
      fun hbad hp => ?_, fun hp => ⟨fun n => execCompletionNotice_past hp, ?_⟩, fun n hp => completionNotice_held (hfalse hp),
      fun id r n => completionNotice_completes⟩
    · exact flitArrival_armed (hfalse hp) hok hacc hx hof ha (hnote y (hx ▸ List.mem_cons_self)) hr hnew
    · exact ⟨_, execFlitArrival_bad (hfalse hp) hbad, State.flitError_pair pair, rfl, rfl, rfl, _, rfl, rfl, rfl, rfl, rfl, rfl⟩
    · exact ⟨_, execFlitArrival_past hp, rfl, rfl, rfl, rfl⟩
  · refine ⟨fun ⟨hok, hnew⟩ => ⟨execControlFlit_accepts hok hnew, fun a p l ha hl => ?_⟩, execControlFlit_ignores⟩
    subst ha
    refine ⟨_, execControlFlit_counts hok hnew hl, rfl, rfl, rfl, State.pair_modPair .., fun k hk => ?_⟩
    exact State.pair_modPair_ne (s := s.ctlAccepted port seq (some a)) _ hk
  · refine ⟨execControlTimeout_none, fun a c b hl ha hc => ⟨_, execControlTimeout_repeats hl ha hc, rfl, ?_, rfl, rfl⟩⟩
    exact congrArg Pair.tries (State.pair_modPair ..)
end Sys2Proof.Machine
end

section
/-! Optical commands that issue (R223, R240): the place that a command takes in its stage's queue. -/

namespace Sys2Proof.Machine

variable {s : State} {c : ECmd} {o : OCmd} {l : List OCmd}

/-- A command goes ahead of one of its tick from a later context, which may have started. -/
theorem queued_ahead {q : OCmd} (hcyc : q.cyc = o.cyc) (hwho : o.who < q.who) : queued o (q :: l) = o :: q :: l := by
  have hstop : (q.cyc != o.cyc || decide (q.who ≤ o.who)) = false := by simp [hcyc, hwho]
  simp [queued, hstop]
/-- A command as the stage takes it: with its task and the cycle of its acceptance. -/
def State.stampedO (s : State) (o : OCmd) : OCmd := { o with task := (s.me.inst.map fun i => i.taskno).getD 0, cyc := s.cyc }
theorem State.accept_queue (o : OCmd) : ((s.accept o).die (dieOfWho s.cur.who)).stage.queue =
    Machine.queued (s.stampedO o) (s.die (dieOfWho s.cur.who)).stage.queue := by
  have hput (u : State) (f : Ctx → Ctx) : (if o.nq then u else u.modMe f).die (dieOfWho s.cur.who) = u.die (dieOfWho s.cur.who) := by
    split <;> rfl
  exact congrArg (fun d : Die => d.stage.queue) ((hput ..).trans (State.die_modDie ..))
/-- Past its guard, with room for its record and in the stage's queue, an optical operation does its own work. -/
theorem optical_goes {f : State → Out} (hg : s.guard c.g = true) (hr : c.nq = true ∨ (s.me.rqGet 3).length < 16)
    (hq : (s.die (dieOfWho s.cur.who)).stage.queue.length < 32) : optical c s f = f s := by
  rw [optical, commanded_goes hg hr, if_neg (Nat.not_le.2 hq)]
theorem execOfcCap_accepts (hg : s.guard c.g = true) (hr : c.nq = true ∨ (s.me.rqGet 3).length < 16)
    (hq : (s.die (dieOfWho s.cur.who)).stage.queue.length < 32) : exec (.ofcCap c) s =
      .next (s.newId.2.accept (s.newId.2.newO s.ids c 0x12 0 (s.lay s.cur.who c.la.toNat) (s.arg c 0))) :=
  show execOfcCap c s = _ from optical_goes hg hr hq

/-- A pass of context 1 that was accepted in the present master cycle and has started. -/
def startedPass : OCmd := { id := 7, who := 1, part := 48, op := 16, fn := 0, nq := true, tag := 0, started := true }
/-- A machine whose first stage holds that pass alone, and where context 0 issues. -/
def startedPassState : State := { dies := [(0, { stage := { queue := [startedPass] } })] }
/-- A capture without a record, and that capture as context 0's command. -/
def quietCapture : ECmd := { g := ⟨0, false⟩, la := 0, lb := 0, sa := 0, cx := true, cl := 0, nq := true }
def captureOfContext0 : OCmd := { id := 0, who := 0, part := 48, op := 18, fn := 0, nq := true, tag := 0 }
theorem execOfcCap_passes_started : ∃ t, exec (.ofcCap quietCapture) startedPassState = .next t ∧
    (t.die 0).stage.queue = [captureOfContext0, startedPass] := by
  refine ⟨_, execOfcCap_accepts rfl (.inl rfl) (by decide), ?_⟩
  exact (State.accept_queue (s := startedPassState.newId.2) captureOfContext0).trans (queued_ahead rfl (by decide))

/-- Refutes O41: context 0's `ofc.cap` goes ahead of a started pass that context 1 put into the queue in the same master cycle, where
the statement has a command go ahead of unstarted ones alone. The model orders the commands of one tick by context whether they have
started or not (R223). The statement is about every state; in a run a command starts as its tick ends, and none of that tick comes after. -/
theorem not_opticalCommandsAccepted : ¬ Obligations.OpticalCommandsAccepted := by
  unfold Obligations.OpticalCommandsAccepted
  intro h
  have unused : Acc := { elems := [], fmt := 0 }
  obtain ⟨-, -, -, -, -, -, -, hcap, -, -⟩ := h quietCapture 0 false unused unused startedPassState rfl
  obtain ⟨t, o, f, r, hexec, -, -, hstage, hsplit, -, -, hlater, -, -, -, -, -, -, -, -, hnew, -⟩ := hcap ⟨by decide, .inl rfl⟩
  obtain ⟨u, hu, hqueue⟩ := execOfcCap_passes_started
  obtain rfl : t = u := Host.Outcome.next.inj (hexec.symm.trans hu)
  have hplaced : f ++ o :: r = [captureOfContext0, startedPass] := (congrArg Stage.queue hstage).symm.trans hqueue
  have hothers : f ++ r = [startedPass] := hsplit.symm
  match f, hplaced, hothers with
  | [], _, hothers =>
    obtain rfl : r = [startedPass] := hothers
    obtain ⟨-, hunstarted, -⟩ := hlater startedPass rfl
    exact absurd hunstarted (by decide)
  | [_], hplaced, _ =>
    obtain rfl : o = startedPass := (List.cons.inj (List.cons.inj hplaced).2).1
    exact absurd hnew (by decide)
  | _ :: _ :: _, _, hothers => exact absurd (congrArg List.length hothers) (by simp)
end Sys2Proof.Machine
end

section
/-! The end of an optical command (R223, R234): its place in the queue, its rings and its record. -/

namespace Sys2Proof.Machine

variable {s t u : State} {o : OCmd}

/-! ## What writes to memory do to stages, and what they depend on -/

theorem State.storeTasks_stage (die slot v bm d : Nat) : ((s.storeTasks die slot v bm).die d).stage = (s.die d).stage := by
  show (aget ({} : Die) (aset s.dies die _) d).stage = _
  rw [aget_aset]
  split
  · next h => rw [h]; rfl
  · rfl
theorem State.writeUnit_stage (key n v bm d : Nat) : ((s.writeUnit key n v bm).die d).stage = (s.die d).stage := by
  unfold State.writeUnit
  split
  · rfl
  · split
    · exact State.storeTasks_stage ..
    · rfl
theorem State.putElem_stage (e : Elem) (v d : Nat) : ((s.putElem e v).die d).stage = (s.die d).stage := by
  unfold State.putElem
  split
  · exact State.writeUnit_stage ..
  · refine foldl_leaves (fun s : State => (s.die d).stage) _ (fun _ _ => ?_) s
    rfl
theorem State.putCodes_stage (l : List Elem) (v : List Nat) (d : Nat) : ((s.putCodes l v).die d).stage = (s.die d).stage :=
  foldl_leaves (fun s : State => (s.die d).stage) _ (fun _ _ => State.putElem_stage ..) s
theorem State.putCodes_svc (l : List Elem) (v : List Nat) : (s.putCodes l v).svc = s.svc :=
  foldl_leaves State.svc _ (fun _ _ => State.putElem_svc ..) s
theorem State.memOnly_putCodes (l : List Elem) (v : List Nat) : s.MemOnly (s.putCodes l v) :=
  .foldl (fun _ _ => State.memOnly_putElem ..) ..
/-- Two machines with the same memory under the same keys, and the same service die, which places the task records. -/
structure State.SameMem (s t : State) : Prop where
  mem   : t.mem = s.mem
  keyed : t.keyed = s.keyed
  svc   : t.svc = s.svc
theorem State.SameMem.writeUnit (h : s.SameMem t) (key n v bm : Nat) : (s.writeUnit key n v bm).SameMem (t.writeUnit key n v bm) := by
  obtain ⟨hmem, hkeyed, hsvc⟩ := h
  have htask : t.taskUnit n = s.taskUnit n := by rw [State.taskUnit, hsvc]; rfl
  unfold State.writeUnit
  rw [htask, hmem, hkeyed]
  split
  · exact ⟨rfl, rfl, hsvc⟩
  · split
    · exact ⟨hmem, hkeyed, hsvc⟩
    · next hno =>
      have hnone : s.taskUnit n = none := Option.eq_none_iff_forall_ne_some.2 fun p hp => hno p.1 p.2 hp
      have hunder : t.unitUnder key n = s.unitUnder key n := by
        simp only [State.unitUnder, hmem, hkeyed, htask, hnone]
      rw [hunder]
      exact ⟨rfl, rfl, hsvc⟩
theorem State.SameMem.putElem (h : s.SameMem t) (e : Elem) (v : Nat) : (s.putElem e v).SameMem (t.putElem e v) := by
  unfold State.putElem
  split
  · exact h.writeUnit ..
  · refine List.foldl_rel h fun i _ s t h => ?_
    exact ⟨by rw [State.putMask, h.mem]; rfl, h.keyed, h.svc⟩
theorem State.SameMem.putCodes (h : s.SameMem t) (l : List Elem) (v : List Nat) : (s.putCodes l v).SameMem (t.putCodes l v) :=
  List.foldl_rel h fun p _ _ _ h => h.putElem p.1 p.2

/-! ## Records of optical commands (R234, R357) -/

theorem State.deliverTo_stage (n : Snap) (q id data d : Nat) : ((s.deliverTo n q id data).die d).stage = (s.die d).stage := by
  unfold State.deliverTo
  dsimp only
  split
  · rfl
  · split
    · exact State.writeUnit_stage ..
    · rfl
theorem State.deliver_stage (who q id data d : Nat) : ((s.deliver who q id data).die d).stage = (s.die d).stage :=
  foldl_leaves (fun s : State => (s.die d).stage) _ (fun _ _ => State.deliverTo_stage ..) _
theorem State.quietDone_stage (id d : Nat) : ((s.quietDone id).die d).stage = (s.die d).stage := by
  refine foldl_leaves (fun s : State => (s.die d).stage) _ (fun s n => ?_) s
  split
  · rfl
  · dsimp only
    split
    · exact State.writeUnit_stage ..
    · rfl
/-- No saved context waits for an optical command: none has an entry of its record, or a place for its end. -/
def State.UnsavedO (s : State) (id : Nat) : Prop := ∀ n ∈ s.svc.snaps, id + 1 ∉ n.quiet ∧ ∀ e ∈ n.ctx.rqGet 3, e.id ≠ id
theorem State.UnsavedO.deliver_mem {id : Nat} (h : s.UnsavedO id) (who data : Nat) : (s.deliver who 3 id data).mem = s.mem := by
  have hsame : s.deliver who 3 id data = s.modCtx who fun c => c.gotRecord 3 id data :=
    foldl_unchanged _ fun n hn => State.deliverTo_none data (h n hn).2
  rw [hsame, State.modCtx_mem]
theorem State.UnsavedO.quietDone_mem {id : Nat} (h : s.UnsavedO id) : (s.quietDone id).mem = s.mem := by
  refine congrArg State.mem (foldl_unchanged _ fun n hn => ?_)
  have hnone : ((List.range n.quiet.length).find? fun j => n.quiet[j]? == some (id + 1)) = none :=
    List.find?_eq_none.2 fun j _ hj => (h n hn).1 (List.mem_of_getElem? (eq_of_beq hj))
  dsimp only
  rw [hnone]

/-! ## The end -/

/-- The credits of an optical command's ring slots arise. -/
def State.creditO (s : State) (o : OCmd) : State :=
  let s := match o.srcRing with | some (c, n) => s.modRing c n fun r => r.credit 1 0 false o.id | none => s
  match o.dstRing with | some (c, n) => s.modRing c n fun r => r.credit 0 1 false o.id | none => s
theorem State.creditO_rest : s.creditO o = { s with cores := (s.creditO o).cores } := by
  unfold State.creditO
  dsimp only
  split <;> split <;> rfl
theorem State.creditO_die (d : Nat) : (s.creditO o).die d = s.die d := by rw [State.creditO_rest]; rfl
/-- The machine without a command in its stage's queue, its rings' credits given, with its record still pending. -/
def State.dequeued (s : State) (die : Nat) (o : OCmd) : State :=
  State.creditO (s.modDie die fun d => { d with stage := { d.stage with queue := d.stage.queue.filter fun q => q.id != o.id } }) o
/-- The word of a record of q3 (R234). -/
def OCmd.record (o : OCmd) (rec0 flags : Nat) : Nat := o.tag.toNat * 2 ^ 48 + rec0 + o.op * 256 + flags
theorem State.endOptical_eq (die rec0 flags : Nat) : s.endOptical die o rec0 flags =
    if o.nq then (s.dequeued die o).quietDone o.id else (s.dequeued die o).deliver o.who 3 o.id (o.record rec0 flags) := rfl
theorem State.dequeued_rest (die : Nat) : s.dequeued die o =
    { s with cores := (s.dequeued die o).cores, dies := (s.dequeued die o).dies } := by
  rw [State.dequeued, State.creditO_rest]
  rfl
theorem State.dequeued_stage (die : Nat) : ((s.dequeued die o).die die).stage =
    { (s.die die).stage with queue := (s.die die).stage.queue.filter fun q => q.id != o.id } := by
  rw [State.dequeued, State.creditO_die]
  exact congrArg Die.stage (State.die_modDie ..)
theorem State.dequeued_ctx (die w : Nat) : (s.dequeued die o).ctx w = s.ctx w := by rw [State.dequeued_rest]; rfl
/-- The machine once a command's record has reached its context. -/
def State.toldO (s : State) (die : Nat) (o : OCmd) (rec0 flags : Nat) : State :=
  if o.nq then s.dequeued die o else (s.dequeued die o).modCtx o.who fun c => c.gotRecord 3 o.id (o.record rec0 flags)
theorem State.memOnly_endOptical (die rec0 flags : Nat) : (s.toldO die o rec0 flags).MemOnly (s.endOptical die o rec0 flags) := by
  rw [State.endOptical_eq, State.toldO]
  split
  · exact State.memOnly_quietDone _
  · exact State.memOnly_deliver ..
theorem State.endOptical_cyc (die rec0 flags : Nat) : (s.endOptical die o rec0 flags).cyc = s.cyc := by
  rw [(congrArg State.cyc (State.memOnly_endOptical (s := s) die rec0 flags).eq :)]
  show (s.toldO die o rec0 flags).cyc = s.cyc
  rw [State.toldO]
  split
  · rw [State.dequeued_rest]
  · rw [State.modCtx_cyc, State.dequeued_rest]
theorem State.endOptical_stage (die rec0 flags : Nat) : ((s.endOptical die o rec0 flags).die die).stage =
    { (s.die die).stage with queue := (s.die die).stage.queue.filter fun q => q.id != o.id } := by
  rw [← State.dequeued_stage, State.endOptical_eq]
  split
  · exact State.quietDone_stage ..
  · exact State.deliver_stage ..
/-- What the end of an optical command shows beside machine `s`: the command is not in the queue, its record has reached its entry of
q3, and memory is that of `mem` but for a saved context that waits for the record. -/
structure State.EndsO (s t : State) (die : Nat) (o : OCmd) (rec0 flags : Nat) (mem : Memory) : Prop where
  leaves : ∀ q ∈ (t.die die).stage.queue, q.id ≠ o.id
  quiet  : o.nq = true → t.ctx o.who = s.ctx o.who
  record : o.nq = false → (t.ctx o.who).rqGet 3 = arrive o.id (o.record rec0 flags) ((s.ctx o.who).rqGet 3)
  mem    : s.UnsavedO o.id → t.mem = mem
theorem State.endOptical_ends (hctx : u.ctx o.who = s.ctx o.who) (hsvc : u.svc = s.svc) (die rec0 flags : Nat) :
    s.EndsO (u.endOptical die o rec0 flags) die o rec0 flags u.mem := by
  have htold := (State.memOnly_endOptical (s := u) (o := o) die rec0 flags).ctx o.who
  rw [State.toldO] at htold
  refine ⟨fun q hq => ?_, fun h => ?_, fun h => ?_, fun h => ?_⟩
  · rw [State.endOptical_stage] at hq
    simpa using (List.mem_filter.1 hq).2
  · rw [htold, if_pos h, State.dequeued_ctx, hctx]
  · rw [htold, if_neg (ne_true_of_eq_false h), State.ctx_modCtx, Ctx.rqGet_gotRecord, State.dequeued_ctx, hctx]
  · have hunsaved : (u.dequeued die o).UnsavedO o.id := by rw [State.dequeued_rest, State.UnsavedO, hsvc]; exact h
    have hmem : (u.dequeued die o).mem = u.mem := by rw [State.dequeued_rest]
    rw [State.endOptical_eq, ← hmem]
    split
    · exact hunsaved.quietDone_mem
    · exact hunsaved.deliver_mem ..
/-- Nothing of the stage differs but its queue. -/
theorem State.endOptical_queue (die rec0 flags : Nat) : ((s.endOptical die o rec0 flags).die die).stage =
    { (s.die die).stage with queue := ((s.endOptical die o rec0 flags).die die).stage.queue } := by
  rw [State.endOptical_stage]
end Sys2Proof.Machine
end

section
/-! What the optical stage does with its queue (R223, R228 to R232, R234, R238 to R242). -/

namespace Sys2Proof.Machine

variable {s : State} {o : OCmd} {l : List OCmd} {die : Nat} {g : Stage}

/-- The machine with another stage on a die. -/
def State.onStage (s : State) (die : Nat) (f : Stage → Stage) : State := s.modDie die fun d => { d with stage := f d.stage }
theorem State.onStage_stage (f : Stage → Stage) : ((s.onStage die f).die die).stage = f (s.die die).stage :=
  congrArg Die.stage (State.die_modDie ..)

/-! ## The head of the queue starts (R234) -/

/-- A command that has started: its record's start is of that moment, unless it had started before. -/
def OCmd.begun (o : OCmd) (rec0 : Nat) : OCmd := { o with started := true, rec0 := if o.started then o.rec0 else rec0 }
@[simp] theorem OCmd.begun_id (rec0 : Nat) : (o.begun rec0).id = o.id := rfl
@[simp] theorem OCmd.begun_op (rec0 : Nat) : (o.begun rec0).op = o.op := rfl
@[simp] theorem OCmd.begun_fn (rec0 : Nat) : (o.begun rec0).fn = o.fn := rfl
@[simp] theorem OCmd.begun_started (rec0 : Nat) : (o.begun rec0).started = true := rfl
@[simp] theorem OCmd.begun_rec0 (rec0 : Nat) : (o.begun rec0).rec0 = if o.started then o.rec0 else rec0 := rfl
theorem OCmd.begun_of_started (h : o.started = true) (rec0 : Nat) : o.begun rec0 = o := by
  obtain ⟨⟩ := o
  subst h
  rfl
/-- The machine with other dies. -/
def State.withDies (s : State) (ds : List (Nat × Die)) : State := { s with dies := ds }
theorem State.startHead_begins {ops : OCmd → Bool} (hq : (s.die die).stage.queue = o :: l) (ho : ops o = true) :
    ∃ ds, s.startHead die ops = s.withDies ds ∧ ((s.withDies ds).die die).stage =
        { (s.die die).stage with queue := o.begun (s.recStart (s.die die).stage) :: l } := by
  cases hst : o.started with
  | true =>
    refine ⟨s.dies, ?_, ?_⟩
    · simp only [State.startHead, hq, hst, Bool.or_true, if_true]
      rfl
    · rw [OCmd.begun_of_started hst, ← hq]
      rfl
  | false =>
    have hbegun (r : Nat) : { o with started := true, rec0 := r } = o.begun r := by rw [OCmd.begun, hst]; rfl
    refine ⟨(s.onStage die fun g => { g with queue := o.begun (s.recStart (s.die die).stage) :: l }).dies, ?_,
      State.onStage_stage (s := s) fun g => { g with queue := o.begun (s.recStart (s.die die).stage) :: l }⟩
    simp only [State.startHead, hq, ho, hst, hbegun]
    rfl
/-- The head that needs no frame is performed as soon as it has started. -/
theorem State.stageTick_performs (hq : (s.die die).stage.queue = o :: l) (ho : o.op = 19 ∨ o.op = 18 ∧ o.fn ≠ 0) :
    ∃ ds, s.stageTick die = (s.withDies ds).opticalDone die o.id ∧ ((s.withDies ds).die die).stage =
        { (s.die die).stage with queue := o.begun (s.recStart (s.die die).stage) :: l } := by
  have hpass : (o.op != 0x10) = true := by
    obtain h | ⟨h, -⟩ := ho <;> simp [h]
  have hperformed : (o.op == 0x13 || (o.op == 0x12 && o.fn != 0)) = true := by
    obtain h | ⟨h, hfn⟩ := ho
    · simp [h]
    · simp [h, hfn]
  obtain ⟨ds, hu, hstage⟩ := State.startHead_begins (ops := fun o => o.op != 0x10) hq hpass
  refine ⟨ds, ?_, hstage⟩
  rw [State.stageTick, hu, hstage]
  exact if_pos hperformed
theorem State.endOptical_begun (rec0 a f : Nat) : s.endOptical die (o.begun rec0) a f = s.endOptical die o a f := rfl
/-- `ofr` at the head: REFPH takes its phase, or adds it (R241). -/
def Stage.referenced (g : Stage) (o : OCmd) : Stage := { g with refph := (if o.fn = 1 then g.refph else 0) + o.ctl.setWidth 10 }
theorem State.opticalDone_reference {rec0 : Nat} (hq : (s.die die).stage.queue = o.begun rec0 :: l) (ho : o.op = 19) :
    s.opticalDone die o.id = (s.onStage die fun g => g.referenced o).endOptical die o
      (if o.started then o.rec0 else rec0) 0 := by
  simp only [State.opticalDone, hq, OCmd.begun_id, OCmd.begun_op, OCmd.begun_started, OCmd.begun_rec0, ho, State.endOptical_begun,
    bne_self_eq_false, if_true]
  rfl
/-- The tables of gains and phase corrections, and what `ofc.rd` or `ofc.tab` writes (R240). -/
def calTables (g : Stage) : Nat :=
  packElems 16 ((List.range 16384).map (fun i => (g.gain i).toNat) ++ (List.range 16384).map (fun i => (g.phc i).toNat))
def State.calRead (s : State) (g : Stage) (fn : Nat) : Nat := if fn = 1 then (s.summary g).toNat else calTables g
/-- The codes of a number's elements for the box of a command. -/
def OCmd.boxCodes (o : OCmd) (v : Nat) : List Nat := (List.range o.dst.length).map fun i => elemAt v (o.dst.headD ⟨0, 8, 0⟩).w i
theorem State.opticalDone_reads {rec0 : Nat} (hq : (s.die die).stage.queue = o.begun rec0 :: l) (ho : o.op = 18) (hfn : o.fn ≠ 0) :
    s.opticalDone die o.id = (s.putCodes o.dst (o.boxCodes (s.calRead (s.die die).stage o.fn))).endOptical die o
      (if o.started then o.rec0 else rec0) 0 := by
  have hread : o.op = 0x12 ∧ o.fn ≠ 0 := ⟨ho, hfn⟩
  have hne : ¬ o.op = 0x13 := by omega
  simp only [State.opticalDone, hq, OCmd.begun_id, OCmd.begun_op, OCmd.begun_fn, OCmd.begun_started, OCmd.begun_rec0, if_neg hne,
    if_pos hread, State.endOptical_begun, bne_self_eq_false, if_true]
  rfl
/-- An `ofr` at the head is performed in the tick (R241). -/
theorem State.stageTick_reference (hq : (s.die die).stage.queue = o :: l) (ho : o.op = 19) :
    s.EndsO (s.stageTick die) die o (if o.started then o.rec0 else s.recStart (s.die die).stage) 0 s.mem ∧
    ((s.stageTick die).die die).stage =
      { (s.die die).stage.referenced o with queue := ((s.stageTick die).die die).stage.queue } := by
  obtain ⟨ds, htick, hstage⟩ := State.stageTick_performs hq (.inl ho)
  have hdone := State.opticalDone_reference (congrArg Stage.queue hstage) ho
  rw [htick, hdone]
  constructor
  · exact State.endOptical_ends (s := s) (u := (s.withDies ds).onStage die fun g => g.referenced o) rfl rfl ..
  · rw [State.endOptical_stage, State.onStage_stage, hstage]
    rfl
/-- An `ofc.rd` or `ofc.tab` at the head is performed in the tick, and changes nothing of its stage (R240). -/
theorem State.stageTick_reads (hq : (s.die die).stage.queue = o :: l) (ho : o.op = 18) (hfn : o.fn ≠ 0) :
    s.EndsO (s.stageTick die) die o (if o.started then o.rec0 else s.recStart (s.die die).stage) 0
      (s.putCodes o.dst (o.boxCodes (s.calRead (s.die die).stage o.fn))).mem ∧
    ((s.stageTick die).die die).stage = { (s.die die).stage with queue := ((s.stageTick die).die die).stage.queue } := by
  obtain ⟨ds, htick, hstage⟩ := State.stageTick_performs hq (.inr ⟨ho, hfn⟩)
  have hdone := State.opticalDone_reads (congrArg Stage.queue hstage) ho hfn
  have hread : (s.withDies ds).calRead ((s.withDies ds).die die).stage o.fn = s.calRead (s.die die).stage o.fn := by
    rw [hstage]
    rfl
  have hsame : s.SameMem (s.withDies ds) := ⟨rfl, rfl, rfl⟩
  rw [htick, hdone, hread, ← (hsame.putCodes ..).mem]
  have hctx := (State.memOnly_putCodes (s := s.withDies ds) o.dst (o.boxCodes (s.calRead (s.die die).stage o.fn))).ctx o.who
  constructor
  · exact State.endOptical_ends (s := s) hctx (State.putCodes_svc ..) ..
  · rw [State.endOptical_stage, State.putCodes_stage, hstage]

/-! ## Calibration tables and the summary (R232, R240) -/

theorem elemAt_calTables (g : Stage) {i : Nat} (hi : i < 16384) :
    elemAt (calTables g) 16 i = (g.gain i).toNat ∧ elemAt (calTables g) 16 (16384 + i) = (g.phc i).toNat := by
  constructor
  · rw [calTables, elemAt_packElems _ _ _ (by simp; omega), List.getElem_append_left (by simpa using hi)]
    simpa using (g.gain i).isLt
  · rw [calTables, elemAt_packElems _ _ _ (by simp; omega), List.getElem_append_right (by simp)]
    simpa using (g.phc i).isLt
theorem Stage.gain_uncaptured (h : g.tables = none) (i : Nat) : g.gain i = 0x8000 := by rw [Stage.gain, h]
theorem Stage.phc_uncaptured (h : g.tables = none) (i : Nat) : g.phc i = 0 := by rw [Stage.phc, h]

/-- Fields of the lengths of a summary that stand one above the other. -/
theorem extract_summaryFields (z : BitVec 320) (gain off : BitVec 16) (y : BitVec 6) (mbias : BitVec 10) (x : BitVec 6) (refph : BitVec 10)
    (temp caltemp : BitVec 16) (age : BitVec 64) (gen : BitVec 32) :
    let v := z ++ gain ++ off ++ y ++ mbias ++ x ++ refph ++ temp ++ caltemp ++ age ++ gen
    v.extractLsb' 0 32 = gen ∧ v.extractLsb' 32 64 = age ∧ v.extractLsb' 96 16 = caltemp ∧ v.extractLsb' 112 16 = temp ∧
      v.extractLsb' 128 10 = refph ∧ v.extractLsb' 144 10 = mbias ∧ v.extractLsb' 160 16 = off ∧ v.extractLsb' 176 16 = gain ∧
      v.extractLsb' 192 320 = z ∧ v.extractLsb' 138 6 = x ∧ v.extractLsb' 154 6 = y := by
  refine ⟨?_, ?_, ?_, ?_, ?_, ?_, ?_, ?_, ?top, ?_, ?_⟩
  all_goals repeat rw [BitVec.extractLsb'_append_eq_of_le (by decide)]
  case top => exact BitVec.extractLsb'_eq_self
  all_goals exact BitVec.extractLsb'_append_eq_right
theorem State.summary_fields (g : Stage) : let v := s.summary g
    v.extractLsb' 0 32 = g.calgen ∧ v.extractLsb' 32 64 = BitVec.ofNat 64 (s.calAge g) ∧ v.extractLsb' 96 16 = g.caltemp ∧
      v.extractLsb' 112 16 = g.temp ∧ v.extractLsb' 128 10 = g.refph ∧ v.extractLsb' 144 10 = g.mbias ∧ v.extractLsb' 160 16 = g.detoff ∧
      v.extractLsb' 176 16 = g.detgain ∧ v.extractLsb' 192 320 = 0 ∧ v.extractLsb' 138 6 = 0 ∧ v.extractLsb' 154 6 = 0 :=
  extract_summaryFields ..

/-! ## Passes (R226 to R229, R234) -/

/-- The conditions under which a pass keeps the accuracy of R229. -/
def State.accuracyDue (s : State) (g : Stage) (c : Word) : Bool :=
  let n := 128 * if oPR c = 3 then 64 else 128
  let masks := !o4F c || !((List.range n).any fun i => let m := (g.mask (oMSEL c) i).toNat; largeElem m || badElem m)
  g.calgen != 0 && decide (s.calAge g ≤ 2 ^ 32) && decide (g.dT.natAbs ≤ 48) && g.refph == g.rho && masks
theorem State.accuracyDue_iff (c : Word) : s.accuracyDue g c = true ↔
    g.calgen ≠ 0 ∧ s.calAge g ≤ 2 ^ 32 ∧ g.dT.natAbs ≤ 48 ∧ g.refph = g.rho ∧ (o4F c = true →
      ∀ i, i < 128 * (if oPR c = 3 then 64 else 128) →
        largeElem (g.mask (oMSEL c) i).toNat = false ∧ badElem (g.mask (oMSEL c) i).toNat = false) := by
  have hmasks (n : Nat) (p q : Nat → Bool) : (!o4F c || !((List.range n).any fun i => p i || q i)) = true ↔
      (o4F c = true → ∀ i, i < n → p i = false ∧ q i = false) := by
    cases o4F c <;> simp
  simp only [State.accuracyDue, Bool.and_eq_true, hmasks, and_assoc, bne_iff_ne, beq_iff_eq, decide_eq_true_eq]
/-- A pass that has read its input (R234). -/
def State.passBegun (s : State) (g : Stage) (o : OCmd) : OCmd :=
  let z := framePairs (o.src.map s.frameCode)
  { o with started := true, input := z, rec0 := s.recStart g, flags := s.inputFlags o.src z, good := s.accuracyDue g o.ctl,
           turn := g.refph - g.rho }
def Stage.begins (g : Stage) (o o' : OCmd) (z : List Nat) : Stage :=
  { g with drive := g.driven o.ctl z, queue := g.queue.map fun q => if q.id = o.id then o' else q }
theorem execOpticalPassStart_starts (hf : ((s.die die).stage.queue.find? fun q => !(q.op == 16 && q.started)) = some o)
    (ho : o.op = 16) (hc : o.cyc < s.cyc) : exec (.opticalPassStart die) s = .next (s.onStage die fun g =>
      g.begins o (s.passBegun (s.die die).stage o) (framePairs (o.src.map s.frameCode))) := by
  have hplaced : (o.op != 0x10 || !s.placed o) = false := by simp [ho, State.placed, hc]
  change execOpticalPassStart die s = _
  simp only [execOpticalPassStart, hf, hplaced]
  rfl
theorem Stage.begun_mem {o' : OCmd} (h : o ∈ g.queue) (z : List Nat) : o' ∈ (g.begins o o' z).queue :=
  List.mem_map.2 ⟨o, h, if_pos rfl⟩
theorem testBit_flags (a b c : Bool) : let n : Nat := (if a then 1 else 0) + (if b then 4 else 0) + (if c then 8 else 0)
    n.testBit 0 = a ∧ n.testBit 2 = b ∧ n.testBit 3 = c := by
  cases a <;> cases b <;> cases c <;> exact ⟨rfl, rfl, rfl⟩
/-- The flags of the elements read: CLIPIN, BADIN and DERR, each for its own cause. -/
theorem State.inputFlags_testBit (l : List Elem) (z : List Nat) :
    ((s.inputFlags l z).testBit 0 = true ↔ ∃ v ∈ z, largeElem v = true) ∧
    ((s.inputFlags l z).testBit 2 = true ↔ ∃ v ∈ z, badElem v = true) ∧
    ((s.inputFlags l z).testBit 3 = true ↔ ∃ e ∈ l, ∃ u ∈ e.units, u ∈ s.bad) := by
  obtain ⟨hlarge, hbad, hspoilt⟩ := testBit_flags (z.any largeElem) (z.any badElem) (l.any s.spoilt)
  rw [State.inputFlags, hlarge, hbad, hspoilt]
  simp [State.spoilt]
theorem length_estimates (c : Word) (good : Bool) (d : List Cx) (base : Nat) : (estimates c good d base).length = d.length := by
  unfold estimates
  dsimp only
  split
  · simp
  · split <;> simp
/-- Where the accuracy is promised, the estimates keep it, unless one lies beyond the grid or no report near D keeps it (log 9). -/
theorem estimates_promised (c : Word) (d : List Cx) (base : Nat) : accurate c d (estimates c true d base) = true ∨
    (∃ k ∈ estimates c true d base, beyond k = true) ∨ accurate c d (d.map (nearReport c)) = false := by
  unfold estimates
  dsimp only
  split
  · next h =>
    simp only [Bool.not_true, Bool.false_or, Bool.or_eq_true, List.any_eq_true] at h
    exact h.elim (fun h => .inr (.inl h)) .inl
  · split
    · next h => exact .inl h
    · next h => exact .inr (.inr (eq_false_of_ne_true h))
/-- The estimates of a pass as it writes its window, and what it writes. -/
def State.passEstimates (s : State) (g : Stage) (o : OCmd) : List (Int × Int) :=
  estimates o.ctl (o.good && o.flags == 0) (modelD g o.ctl o.input) s.fresh
def OCmd.windowCodes (o : OCmd) (es : List (Int × Int)) : List Nat :=
  (es.map fun k => [reportCode o.ctl (rotated o.ctl o.turn k).1, reportCode o.ctl (rotated o.ctl o.turn k).2]).flatten
def OCmd.windowFlags (o : OCmd) (es : List (Int × Int)) : Nat :=
  o.flags + if (es.map (rotated o.ctl o.turn)).any beyond then 2 else 0
def State.windowWritten (s : State) (g : Stage) (o : OCmd) : State :=
  ({ s with fresh := s.fresh + (modelD g o.ctl o.input).length } : State).putCodes o.dst (o.windowCodes (s.passEstimates g o))
theorem State.windowWritten_front (g : Stage) (o : OCmd) : s.Front (s.windowWritten g o) :=
  .trans (t := { s with fresh := s.fresh + (modelD g o.ctl o.input).length }) ⟨rfl, rfl, rfl⟩ (State.memOnly_putCodes ..).front
theorem State.windowWritten_svc (g : Stage) (o : OCmd) : (s.windowWritten g o).svc = s.svc := State.putCodes_svc ..
theorem State.windowWritten_mem (g : Stage) (o : OCmd) : (s.windowWritten g o).mem =
    (s.putCodes o.dst (o.windowCodes (s.passEstimates g o))).mem :=
  (State.SameMem.putCodes (s := s) (t := { s with fresh := s.fresh + (modelD g o.ctl o.input).length }) ⟨rfl, rfl, rfl⟩ ..).mem
theorem execOpticalWindowWrite_writes (hq : (s.die die).stage.queue = o :: l) (ho : o.op = 16) (hst : o.started = true) :
    exec (.opticalWindowWrite die) s = .next ((s.windowWritten (s.die die).stage o).endOptical die o o.rec0
      (o.windowFlags (s.passEstimates (s.die die).stage o))) := by
  have hrun : (o.op != 0x10 || !o.started) = false := by simp [ho, hst]
  have hcodes (es : List (Int × Int)) : ((es.map (rotated o.ctl o.turn)).map fun k => (reportCode o.ctl k.1, reportCode o.ctl k.2)).map
      (fun p => [p.1, p.2]) = es.map fun k => [reportCode o.ctl (rotated o.ctl o.turn k).1, reportCode o.ctl (rotated o.ctl o.turn k).2] := by
    simp
  change execOpticalWindowWrite die s = _
  simp only [execOpticalWindowWrite, hq, hrun, report, hcodes]
  rfl
theorem OCmd.windowFlags_eq (es : List (Int × Int)) : o.windowFlags es =
    if ∃ k ∈ es, beyond (rotated o.ctl o.turn k) = true then o.flags + 2 else o.flags := by
  have hany : (es.map (rotated o.ctl o.turn)).any beyond = true ↔ ∃ k ∈ es, beyond (rotated o.ctl o.turn k) = true := by simp
  rw [OCmd.windowFlags]
  simp only [hany]
  split <;> rfl

/-! ## Mask loads (R239) -/

/-- The mask elements that are not zero, by index. -/
def maskOf (l : List (BitVec 32)) : List (Nat × BitVec 32) := ((List.range l.length).zip l).filter fun p => p.2 != 0
theorem aget_zip_range' (l : List (BitVec 32)) (k i : Nat) :
    aget 0 (((List.range' k l.length).zip l).filter fun p => p.2 != 0) i = if k ≤ i then l.getD (i - k) 0 else 0 := by
  induction l generalizing k with
  | nil => simp [aget]
  | cons a l ih =>
    rw [List.length_cons, List.range'_succ, List.zip_cons_cons, List.filter_cons]
    obtain hlt | rfl | hgt := Nat.lt_trichotomy i k
    · have hskip (r : List (Nat × BitVec 32)) : aget 0 ((k, a) :: r) i = aget 0 r i := if_neg (by omega)
      rw [apply_ite (aget 0 · i), hskip, ite_self, ih, if_neg (by omega), if_neg (by omega)]
    · have hlater : aget 0 (((List.range' (i + 1) l.length).zip l).filter fun p => p.2 != 0) i = 0 := by
        rw [ih, if_neg (by omega)]
      have hhere (r : List (Nat × BitVec 32)) : aget 0 ((i, a) :: r) i = a := if_pos rfl
      rw [apply_ite (aget 0 · i), hhere, hlater, if_pos i.le_refl, Nat.sub_self, List.getD_cons_zero]
      by_cases ha : a = 0
      · simp [ha]
      · rw [if_pos (bne_iff_ne.2 ha)]
    · have hskip (r : List (Nat × BitVec 32)) : aget 0 ((k, a) :: r) i = aget 0 r i := if_neg (by omega)
      rw [apply_ite (aget 0 · i), hskip, ite_self, ih, if_pos (by omega), if_pos (by omega), show i - k = i - (k + 1) + 1 by omega,
        List.getD_cons_succ]
theorem aget_maskOf (l : List (BitVec 32)) (i : Nat) : aget 0 (maskOf l) i = l.getD i 0 := by
  rw [maskOf, List.range_eq_range', aget_zip_range', if_pos i.zero_le, Nat.sub_zero]
/-- A store takes the elements of a box. -/
def Stage.masked (g : Stage) (fn : Nat) (z : List Nat) : Stage :=
  if fn = 0 then { g with mask0 := maskOf (z.map (BitVec.ofNat 32)), code0 := g.coded z }
  else { g with mask1 := maskOf (z.map (BitVec.ofNat 32)), code1 := g.coded z }
theorem Stage.masked_spec (g : Stage) (fn : Nat) (z : List Nat) :
    (if fn = 0 then (g.masked fn z).code0 else (g.masked fn z).code1) = g.coded z ∧
    (∀ i, i < z.length → (g.masked fn z).mask (if fn = 0 then 0 else 1) i = BitVec.ofNat 32 (z.getD i 0)) ∧
    (fn = 0 → (g.masked fn z).mask1 = g.mask1) ∧ (fn ≠ 0 → (g.masked fn z).mask0 = g.mask0) := by
  have hread (i : Nat) (hi : i < z.length) : aget 0 (maskOf (z.map (BitVec.ofNat 32))) i = BitVec.ofNat 32 (z.getD i 0) := by
    rw [aget_maskOf, List.getD_eq_getElem _ _ (by simpa using hi), List.getD_eq_getElem _ _ hi, List.getElem_map]
  unfold Stage.masked
  split
  · next h => exact ⟨rfl, fun i hi => hread i hi, fun _ => rfl, fun hn => absurd h hn⟩
  · next h => exact ⟨rfl, fun i hi => hread i hi, fun hz => absurd hz h, fun _ => rfl⟩
theorem execMaskLoadComplete_loads (hq : (s.die die).stage.queue = o :: l) (ho : o.op = 17) (hc : o.cyc < s.cyc) :
    exec (.maskLoadComplete die) s = .next ((s.onStage die fun g => g.masked o.fn (framePairs (o.src.map s.frameCode))).endOptical die o
      (if o.started then o.rec0 else s.recStart (s.die die).stage) (s.inputFlags o.src (framePairs (o.src.map s.frameCode)))) := by
  have hplaced : (o.op != 0x11 || !s.placed o) = false := by simp [ho, State.placed, hc]
  change execMaskLoadComplete die s = _
  simp only [execMaskLoadComplete, hq, hplaced, Stage.masked, maskOf, List.length_map]
  rfl

/-! ## Captures (R240) -/

theorem execCaptureComplete_ends (ok : Bool) (hq : (s.die die).stage.queue = o :: l) (ho : o.op = 18) (hfn : o.fn = 0)
    (hc : o.cyc < s.cyc) : exec (.captureComplete die ok) s =
      .next ((bif ok then s.captured die else s).endOptical die o (if o.started then o.rec0 else s.recStart (s.die die).stage)
        (bif ok then 0 else 16)) := by
  have hplaced : (o.op != 0x12 || o.fn != 0 || !s.placed o) = false := by simp [ho, hfn, State.placed, hc]
  change execCaptureComplete die ok s = _
  simp only [execCaptureComplete, hq, hplaced]
  cases ok <;> rfl
/-- A stage whose capture measured the fields of `b` and the tables from free value `n`: the mask modulators take the new MBIAS (R232). -/
def Stage.calibrated (g : Stage) (b : BitVec 64) (n cyc : Nat) : Stage :=
  { g with
    detgain := b.extractLsb' 0 16, detoff := b.extractLsb' 16 16, mbias := b.extractLsb' 32 10,
    code0 := biased g.mbias (b.extractLsb' 32 10) g.code0, code1 := biased g.mbias (b.extractLsb' 32 10) g.code1,
    refph := b.extractLsb' 42 10, rho := b.extractLsb' 42 10, caltemp := g.temp, capCyc := cyc,
    calgen := if g.calgen = 0xFFFFFFFF then 1 else g.calgen + 1, tables := some n }
theorem State.captured_stage : ((s.captured die).die die).stage =
    (s.die die).stage.calibrated (s.draw 64).1 (s.fresh + 1) s.cyc := congrArg Die.stage (State.die_modDie ..)
theorem mem_biased {old new : BitVec 10} {m : Nat × Nat × BitVec 10} {l : List (Nat × Nat × BitVec 10)} (h : m ∈ l) :
    (m.1, m.2.1, m.2.2 - old + new) ∈ biased old new l := List.mem_map_of_mem h

/-- Settles O42: each event is one equation, and `State.endOptical_ends` says what every command that ends leaves. -/
theorem opticalStageWorks : Obligations.OpticalStageWorks := by
  unfold Obligations.OpticalStageWorks
  intro die o l s g reports leaves writes old u w wrote z start began
  have ends {v : State} {rec0 flags : Nat} {mem : Memory} (h : s.EndsO v die o rec0 flags mem) :
      leaves v ∧ reports v rec0 flags ∧ (s.UnsavedO o.id → v.mem = mem) := ⟨h.leaves, ⟨h.quiet, h.record⟩, h.mem⟩
  refine ⟨fun hf ho hc => ?_, fun hq ho hst => ?_, fun hq ho hc => ?_, fun hq ho hfn hc => ⟨?_, ?_⟩, fun hq ho => ?_,
    fun hq ho hfn => ?_, fun hq ho hfn => ?_⟩
  · obtain ⟨hlarge, hbad, hspoilt⟩ := State.inputFlags_testBit (s := s) o.src z
    refine ⟨_, s.passBegun g o, execOpticalPassStart_starts hf ho hc, ?_, rfl, ?_, State.accuracyDue_iff o.ctl, hbad, hlarge, hspoilt, rfl⟩
    · rw [State.onStage_stage]
      exact Stage.begun_mem (List.mem_of_find?_eq_some hf) z
    · rw [State.onStage_stage]
      rfl
  · intro d near
    have hctx : (s.windowWritten g o).ctx o.who = s.ctx o.who := by rw [State.ctx, (State.windowWritten_front g o).ctxs]; rfl
    obtain ⟨hleaves, hrep, hwrites⟩ := ends (State.endOptical_ends hctx (State.windowWritten_svc g o) die o.rec0
      (o.windowFlags (s.passEstimates g o)))
    refine ⟨_, s.passEstimates g o, _, execOpticalWindowWrite_writes hq ho hst, hleaves, hrep, length_estimates .., fun hgood hflags => ?_,
      OCmd.windowFlags_eq _, fun hsaved => (hwrites hsaved).trans (State.windowWritten_mem g o)⟩
    have hdue : (o.good && o.flags == 0) = true := by simp [hgood, hflags]
    rw [State.passEstimates, hdue]
    exact estimates_promised ..
  · obtain ⟨hleaves, hrep, hwrites⟩ := ends (State.endOptical_ends (s := s)
      (u := s.onStage die fun g => g.masked o.fn z) rfl rfl die began (s.inputFlags o.src z))
    refine ⟨_, execMaskLoadComplete_loads hq ho hc, hleaves, hrep, hwrites, ?_⟩
    rw [State.endOptical_stage, State.onStage_stage]
    exact g.masked_spec o.fn z
  · obtain ⟨hleaves, hrep, hwrites⟩ := ends (State.endOptical_ends (s := s) (u := s.captured die) rfl rfl die began 0)
    refine ⟨_, execCaptureComplete_ends true hq ho hfn hc, hleaves, hrep, hwrites, ?_⟩
    rw [State.calAge, State.endOptical_cyc, State.endOptical_stage, cond_true, State.captured_stage]
    refine ⟨fun m hm => mem_biased hm, fun m hm => mem_biased hm, rfl, rfl, rfl, ?_⟩
    show Nat.min (s.cyc - s.cyc) _ = 0
    rw [Nat.sub_self]
    exact Nat.zero_min _
  · obtain ⟨hleaves, hrep, hwrites⟩ := ends (State.endOptical_ends (s := s) (u := s) rfl rfl die began 16)
    exact ⟨_, execCaptureComplete_ends false hq ho hfn hc, hleaves, hrep, hwrites, State.endOptical_queue ..⟩
  · obtain ⟨hend, hstage⟩ := State.stageTick_reference hq ho
    obtain ⟨hleaves, hrep, hwrites⟩ := ends hend
    exact ⟨hleaves, hrep, hwrites, hstage⟩
  · obtain ⟨hend, hstage⟩ := State.stageTick_reads hq ho (by omega)
    obtain ⟨hleaves, hrep, hwrites⟩ := ends hend
    rw [State.calRead, if_pos hfn] at hwrites
    exact ⟨hleaves, hrep, hstage, s.summary g, hwrites, s.summary_fields g⟩
  · obtain ⟨hend, hstage⟩ := State.stageTick_reads hq ho (by omega)
    obtain ⟨hleaves, hrep, hwrites⟩ := ends hend
    rw [State.calRead, if_neg (by omega)] at hwrites
    refine ⟨hleaves, hrep, hstage, calTables g, hwrites, fun i hi => elemAt_calTables g hi, fun hnone i hi => ?_⟩
    obtain ⟨hgain, hphc⟩ := elemAt_calTables g hi
    rw [hgain, hphc, Stage.gain_uncaptured hnone, Stage.phc_uncaptured hnone]
    exact ⟨rfl, rfl⟩
end Sys2Proof.Machine
end
